-- ==== Sys2Proof/Word.lean ====
section
/-! DEFINITION. The words of the Stekoest (spec/00_scope.md): lane words, pairs, lane masks, bytes, and the
32-lane vector value. Everything a repair could touch (field extraction, sign extension, byte order) stands in
Sys2Proof/Machine/Bits.lean and Sys2Proof/Decode.lean. -/
namespace Sys2Proof

/-- A 32-bit lane word, scalar register or mask word. -/
abbrev Word := BitVec 32
/-- A 64-bit pair, address or special register. -/
abbrev DWord := BitVec 64
/-- A byte of memory. -/
abbrev Byte := BitVec 8
/-- One bit per lane of a wave, bit l for lane l (R1). -/
abbrev Mask := BitVec 32
/-- The value of one vector register: 32 lane words, lane 0 first (R12, R266: 1,024 bits). -/
abbrev VReg := List (BitVec 32)

/-- A sparse table with natural keys, kept in rising key order. -/
abbrev FMap (α : Type) := List (Nat × α)

end Sys2Proof
end

