-- ==== Sys2Proof/Syntax.lean ====
section
/-! DEFINITION. The instructions and events of the Stekoest: `Instr` has one constructor per row of
spec/opcode_table.json. SIMT rows carry the operand fields of R47 and R53 and their modifiers of R57;
Spindle rows carry the fields of R191; Jig rows those of R320; an event row carries what the outside world or
the schedule supplies (which agent, which queued operation, the arguments of a host command). -/
namespace Sys2Proof

/-- Operand class of R49. -/
inductive Cls where
  | vec | sca | imm | none
  deriving DecidableEq, Repr

/-- Destination class of R53. -/
inductive DCls where
  | vec | sca | pred | none
  deriving DecidableEq, Repr

/-- Integer types `ITY` of R57. -/
inductive ITy where
  | b32 | si32 | ui32 | si16 | ui16 | si8 | ui8
  deriving DecidableEq, Repr

/-- Rounding codes `RM` of R57. -/
inductive Rm where
  | rne | rz | ru | rd | rdyn
  deriving DecidableEq, Repr

/-- Comparison codes `CMP` of R57. -/
inductive Cmp where
  | eq | ne | lt | le | gt | ge | un | ord
  deriving DecidableEq, Repr

/-- Size codes of the LOAD and STORE majors (R57, R293). -/
inductive MSize where
  | b8 | b16 | b32 | b64 | b128 | s8 | s16
  deriving DecidableEq, Repr

/-- Order codes of loads and stores (R57): `sync` is `.ACQ` on a load and `.REL` on a store. -/
inductive MOrd where
  | plain | sync | vol
  deriving DecidableEq, Repr

/-- Order codes of atomics (R57). -/
inductive AOrd where
  | relaxed | acq | rel | ar
  deriving DecidableEq, Repr

/-- Scope codes (R57, R241). -/
inductive Scope where
  | wave | team | device | system
  deriving DecidableEq, Repr

/-- Vote codes of `BRV` (R57). -/
inductive BrVote where
  | all | any | none
  deriving DecidableEq, Repr

/-- `SHFL` modes (R57). -/
inductive Shfl where
  | idx | up | down | xor
  deriving DecidableEq, Repr

/-- `VOTE` forms (R57). -/
inductive Vote where
  | all | any | eq | ballot
  deriving DecidableEq, Repr

/-- `SCAN` and `RED` operations (R57). -/
inductive ScanOp where
  | add | min | max | and | or | xor
  deriving DecidableEq, Repr

/-- `SCAN` and `RED` types (R57), also the walk types `ty` of R191. -/
inductive ScanTy where
  | si32 | ui32 | f32
  deriving DecidableEq, Repr

/-- Product formats of `LACA` (R57). -/
inductive LacFmt where
  | f32 | f16 | bf16
  deriving DecidableEq, Repr

/-- Destination formats of `LACR` (R57). -/
inductive LacrFmt where
  | f32 | f16 | bf16 | f64
  deriving DecidableEq, Repr

/-- Tile formats of `MACW` and `MACR` (R57). -/
inductive TileFmt where
  | f32 | f16 | bf16 | i32
  deriving DecidableEq, Repr

/-- Bound modes of the copy forms (R57, R310). -/
inductive Bound where
  | none | clampz | fault
  deriving DecidableEq, Repr

/-- Swizzle codes of the copy forms (R57, R308). -/
inductive Swz where
  | none | s32 | s64 | s128 | s256
  deriving DecidableEq, Repr

/-- Set codes of `TBAR` (R57). -/
inductive TSet where
  | row | col | both
  deriving DecidableEq, Repr

/-- Outer sparsity patterns of `MMAS` (R57). -/
inductive Outer where
  | dense | o24 | o12
  deriving DecidableEq, Repr

/-- Trap causes (R431). -/
inductive Cause where
  | none
  | illegalOpcode | illegalFunction | reservedField | illegalOperand | zeroWord
  | prefixMisuse | prefixDouble | privileged | convergence | misalignedPc
  | fpInvalid | fpDivzero | fpOverflow | fpUnderflow | fpInexact | intDivZero | lacOverflow
  | quantGroup | sparseMeta
  | pageNotPresent | protection | misaligned | benchRange | remoteBench | integrity | sealedWrite
  | uncorrectable | indexRange | atomicSpan
  | barrierTimeout | deadlockReported | joinMismatch
  | regEmpty | regUnmapped | rotRange | retUnderflow | callSpillFault
  | copySuspended | jigIllegal | lxNotLoaded
  | breakpoint | singleStep | watchpoint | userTrap | linkDown | machineCheck
  deriving DecidableEq, Repr

/-- The extension word (R53). -/
structure Ext where
  imm : Word
  c : BitVec 11
  ec : Bool
  cc : Cls
  cd : DCls
  xm : BitVec 16
  deriving DecidableEq, Repr

/-- The operand fields of a base word (R47) and its extension word, present when `L` is 1. -/
structure Opnds where
  prd : BitVec 6
  pn : Bool
  d : BitVec 11
  a : BitVec 11
  b : BitVec 11
  ea : Bool
  eb : Bool
  ca : Cls
  cb : Cls
  ext : Option Ext
  deriving DecidableEq, Repr

/-- Second operand of the walk ALU group: a register or a sign-extended immediate (R191). -/
inductive QSrc where
  | reg (b : BitVec 4)
  | imm (i : BitVec 12)
  deriving DecidableEq, Repr

/-- Second operand of a Jig scalar word (R320). -/
inductive GSrc where
  | reg (b : BitVec 3)
  | imm (i : BitVec 17)
  deriving DecidableEq, Repr

/-- Conditions of `BRC` (R220). -/
inductive WCond where
  | cf | ncf | mnz (a : BitVec 2) | mz (a : BitVec 2) | sne | se
  | rmt (a : BitVec 4) | qz (a : BitVec 4) | qnz (a : BitVec 4)
  deriving DecidableEq, Repr

/-- Second operand of `CMPS` (R191). -/
inductive CSrc where
  | reg (b : BitVec 4)
  | imm (i : BitVec 8)
  deriving DecidableEq, Repr

/-- A walk's top-k list with its settings (R168, R207). -/
structure TopK where
  cap : Nat
  ty : ScanTy
  desc : Bool
  entries : List (Word × Word)
  deriving DecidableEq, Repr

/-- A hand-off message from the partner board (R213, R366). -/
structure HoffMsg where
  ctx : Nat
  partnerCtx : Nat
  tag : Word
  cq : Nat
  originCore : Nat
  originSlot : Nat
  /-- The origin's number of this hand-off, by which later traffic for a stopped one is told apart (R214, R368). -/
  hid : Nat := 0
  /-- Address of the walk-kind record, and the table that a record without one selects (R354). -/
  kind : DWord
  sdtab : DWord
  entry : Nat
  ptr : DWord
  q : List Word
  m : List (BitVec 16)
  emitted : Word
  topk : Option TopK
  /-- The core whose place of the link it holds, once its core has been parked (R365, R472). -/
  charged : Option Nat := none
  deriving DecidableEq, Repr

/-- What a partner walk's `DONE` returns (R213). -/
structure HoffRet where
  q : List Word
  m : List (BitVec 16)
  emitted : Word
  topk : Option TopK
  deriving DecidableEq, Repr

/-- What a message about a handed-off walk names: its slot at the origin and the number of the hand-off (R214, R368). -/
structure HoffRef where
  slot : Nat
  hid : Nat
  deriving DecidableEq, Repr

/-- Entries of a partner walk that take consecutive positions of the origin's queue, with the `PC` of its word (R208). -/
structure HoffEntries where
  es : List (BitVec 128)
  pc : Nat
  deriving DecidableEq, Repr

/-- A request of the partner board (R421, R422). -/
inductive PartnerReq where
  | read (va : DWord) (n : Nat)
  | write (va : DWord) (data : List Byte)
  | atomic (va : DWord) (w64 : Bool) (op : BitVec 4) (v : DWord) (cmp : DWord)
  | cas128 (va : DWord) (cmp new : BitVec 128)
  deriving DecidableEq, Repr

/-- A host access to a BAR (R416-R418): a write through BAR4, a read of `n` bytes, or an AtomicOp. -/
inductive HostAccess where
  | write
  | read (bar n : Nat)
  | atomic (bar : Nat)
  deriving DecidableEq, Repr

/-- Where a soft error lies (R451). -/
inductive ErrSite where
  | line (addr : Nat)
  | l1 (core addr : Nat)
  | copies (core : Nat)
  | bench (core word : Nat)
  | vreg (core slice reg : Nat)
  | tile (core tile elem : Nat)
  | la (core wave n : Nat)
  | walk (core slot : Nat)
  | control (core : Nat)
  deriving DecidableEq, Repr

/-- The waves a `DBG_RUN` command names (R454). -/
inductive DbgSel where
  | all
  | wave (core slot index : Nat)
  deriving DecidableEq, Repr

/-- One constructor per row of spec/opcode_table.json. -/
inductive Instr where
  -- SYS (R442)
  | nop (o : Opnds) | halt (o : Opnds) (retain : Bool) | trap (o : Opnds) | eret (o : Opnds)
  | csrr (o : Opnds) | csrw (o : Opnds) | csrx (o : Opnds) | sleep (o : Opnds) | yld (o : Opnds)
  | brk (o : Opnds) | tmark (o : Opnds)
  -- FLOW (R375)
  | bra (o : Opnds) | jmp (o : Opnds) | call (o : Opnds) | calli (o : Opnds) | ret (o : Opnds)
  | brv (o : Opnds) (v : BrVote) | rghint (o : Opnds)
  -- IALU (R101)
  | iadd (o : Opnds) (t : ITy) (sat : Bool) | isub (o : Opnds) (t : ITy) (sat : Bool)
  | iaddc (o : Opnds) (t : ITy) | isubb (o : Opnds) (t : ITy)
  | ineg (o : Opnds) (t : ITy) (sat : Bool) | iabs (o : Opnds) (t : ITy) (sat : Bool)
  | imin (o : Opnds) (t : ITy) | imax (o : Opnds) (t : ITy)
  | and (o : Opnds) (t : ITy) | or (o : Opnds) (t : ITy) | xor (o : Opnds) (t : ITy)
  | andn (o : Opnds) (t : ITy) | not (o : Opnds) (t : ITy)
  | shl (o : Opnds) (t : ITy) | shr (o : Opnds) (t : ITy) | sar (o : Opnds) (t : ITy)
  | rol (o : Opnds) (t : ITy) | iset (o : Opnds) (t : ITy) (c : Cmp)
  -- IMUL (R105)
  | imul (o : Opnds) (t : ITy) | imulh (o : Opnds) (t : ITy) | imad (o : Opnds) (t : ITy)
  | imadw (o : Opnds) (t : ITy) | idiv (o : Opnds) (t : ITy) | irem (o : Opnds) (t : ITy)
  -- BITS (R107)
  | popc (o : Opnds) (t : ITy) | clz (o : Opnds) (t : ITy) | ctz (o : Opnds) (t : ITy)
  | brev (o : Opnds) (t : ITy) | bfe (o : Opnds) (t : ITy) | bfi (o : Opnds) (t : ITy)
  | fshl (o : Opnds) (t : ITy) | fshr (o : Opnds) (t : ITy) | bperm (o : Opnds) (t : ITy)
  -- ADDR (R109)
  | lea (o : Opnds) (k : BitVec 3) | iadd64 (o : Opnds) | isub64 (o : Opnds)
  | iset64 (o : Opnds) (c : Cmp) (signed : Bool)
  -- MOVE and PRED (R110, R112)
  | mov (o : Opnds) (pair : Bool) | movi (o : Opnds) (pair : Bool) | sel (o : Opnds) (pair : Bool)
  | smov (o : Opnds) (pair : Bool) | ftst (o : Opnds) (pair : Bool)
  | plop (o : Opnds) (tt : BitVec 4) | pset (o : Opnds) (v : Bool) | pmov (o : Opnds)
  -- FP32 (R113)
  | fadd (o : Opnds) (r : Rm) | fsub (o : Opnds) (r : Rm) | fmul (o : Opnds) (r : Rm)
  | fmac (o : Opnds) (r : Rm) | fmin (o : Opnds) | fmax (o : Opnds) | fset (o : Opnds) (c : Cmp)
  | fclass (o : Opnds) | frnd (o : Opnds) (r : Rm) | fscale (o : Opnds) (r : Rm) | fexp (o : Opnds)
  -- FP64 (R113)
  | dadd (o : Opnds) (r : Rm) | dsub (o : Opnds) (r : Rm) | dmul (o : Opnds) (r : Rm)
  | dmac (o : Opnds) (r : Rm) | dmin (o : Opnds) | dmax (o : Opnds) | dset (o : Opnds) (c : Cmp)
  | drnd (o : Opnds) (r : Rm)
  -- HP2 (R113)
  | hpadd (o : Opnds) (bf : Bool) (r : Rm) | hpmul (o : Opnds) (bf : Bool) (r : Rm)
  | hpmac (o : Opnds) (bf : Bool) (r : Rm) | hpmin (o : Opnds) (bf : Bool)
  | hpmax (o : Opnds) (bf : Bool) | hpset (o : Opnds) (bf : Bool) (c : Cmp)
  -- CONV (R117)
  | cvt (o : Opnds) | packq (o : Opnds) | unpq (o : Opnds)
  -- SFU (R122)
  | rcp (o : Opnds) (r : Rm) | rsq (o : Opnds) | sqrt (o : Opnds) (r : Rm) | ex2 (o : Opnds)
  | lg2 (o : Opnds) | sin (o : Opnds) | cos (o : Opnds) | tanh (o : Opnds)
  | drcp (o : Opnds) (r : Rm) | dsqrt (o : Opnds) (r : Rm)
  -- LANE (R127)
  | shfl (o : Opnds) (m : Shfl) | bcst (o : Opnds) | vote (o : Opnds) (v : Vote)
  | scan (o : Opnds) (op : ScanOp) (excl : Bool) (t : ScanTy) | red (o : Opnds) (op : ScanOp) (t : ScanTy)
  | cnfl (o : Opnds) | lmatch (o : Opnds) | cmpr (o : Opnds) | xpnd (o : Opnds)
  -- LACC (R131)
  | lacz (o : Opnds) | laca (o : Opnds) (f : LacFmt) | lacr (o : Opnds) (f : LacrFmt) (r : Rm)
  -- LOAD, STORE, ATOM, FENCE (R292, R297, R299, R304)
  | ld (o : Opnds) (z : MSize) (r : MOrd) | ldk (o : Opnds) (z : MSize)
  | ldb (o : Opnds) (z : MSize) (r : MOrd) | ldbc (o : Opnds) (z : MSize) | pfch (o : Opnds)
  | st (o : Opnds) (z : MSize) (r : MOrd) | stb (o : Opnds) (z : MSize) (r : MOrd)
  | str (o : Opnds) (z : MSize) (r : MOrd) | sts (o : Opnds) (z : MSize) (r : MOrd)
  | atom (o : Opnds) (op : BitVec 4) (r : AOrd) | atb (o : Opnds) (op : BitVec 4) (r : AOrd)
  | atr (o : Opnds) (op : BitVec 4) (r : AOrd) | cas128 (o : Opnds) (r : AOrd)
  | fnc (o : Opnds) (sc : Scope)
  -- COPY (R307) and JIG (R316)
  | cpy (o : Opnds) (w : Swz) | cpyg (o : Opnds) (bm : Bound) (w : Swz)
  | cpys (o : Opnds) (bm : Bound) (w : Swz) | cpyq (o : Opnds) (bm : Bound) (w : Swz)
  | cpyr (o : Opnds) | cpyx (o : Opnds)
  | jload (o : Opnds) | jstart (o : Opnds) | jstop (o : Opnds) | jpop (o : Opnds)
  -- SYNC, MAIL, WAIT, QUEUE, TASK, REGS, TRAV (R371)
  | bar (o : Opnds) | bbinit (o : Opnds) | bbarv (o : Opnds) | bbwait (o : Opnds) (tr : Bool)
  | tbar (o : Opnds) (set : TSet) | gbar (o : Opnds)
  | send (o : Opnds) (dev : Bool) | mbclr (o : Opnds)
  | waita (o : Opnds) | wake (o : Opnds)
  | sqpush (o : Opnds) (nb : Bool) | sqpop (o : Opnds) (nb : Bool) | sqstat (o : Opnds)
  | cqpop (o : Opnds) (wait : Bool)
  | launch (o : Opnds) | rfork (o : Opnds) | join (o : Opnds)
  | racq (o : Opnds) | rrel (o : Opnds) | rsetw (o : Opnds) | rotb (o : Opnds)
  | trav (o : Opnds) | travx (o : Opnds)
  -- MMA, MACC, LX (R151)
  | mma (o : Opnds) (bf zskip : Bool) | mmas (o : Opnds) (bf : Bool) (out : Outer) (inner zskip : Bool)
  | mmal (o : Opnds) (bf abs k32 : Bool)
  | macz (o : Opnds) | macw (o : Opnds) (f : TileFmt) | macr (o : Opnds) (f : TileFmt) (r : Rm)
  | zflg (o : Opnds) | lxld (o : Opnds) | lxinv (o : Opnds)
  -- FMT (R61)
  | fmt (fa fb fc fd : BitVec 4) (gs : BitVec 2) (scl : BitVec 11) (sclc : Bool) (zp : BitVec 11) (zpc : Bool)
  /-- A SIMT word that is not an instruction: the fate of R59 and R60, the operand of an ILLEGAL_OPERAND
  (`TRAPC.AUX`, R430), the base word and its extension word when it has one. -/
  | nonInstructionWord (c : Cause) (aux : Nat) (w : DWord) (x : Option DWord)
  -- Spindle words (R191)
  | nfetch (d : BitVec 1) (a : BitVec 4) (f : BitVec 8)
  | nget (d : BitVec 4) (a : BitVec 1) (sel : BitVec 4) (idx : Bool) (slot : BitVec 4) (b : BitVec 4)
  | ncnt (m : Bool) (d : BitVec 4) (a : BitVec 1)
  | nptr (m : Bool) (d : BitVec 4) (a : BitVec 1) (slot : BitVec 4) (b : BitVec 2)
  | box8 (hi : Bool) (d : BitVec 2) (b : BitVec 4)
  | ovl8 (hi inn : Bool) (d : BitVec 2) (b : BitVec 4)
  | tri (cb cf : Bool) (d : BitVec 2) (a : BitVec 1) (b c : BitVec 4)
  | sphr (ray : Bool) (d : BitVec 2) (a : BitVec 1) (b : BitVec 4)
  | kcmp (c : Cmp) (s sel : Bool) (d : BitVec 4) (a : BitVec 1) (b : BitVec 4)
  | krng (node s : Bool) (d : BitVec 2) (a : BitVec 1) (b : BitVec 4)
  | dist (ty : BitVec 2) (dot z : Bool) (a b : BitVec 4)
  | dfin (int : Bool) (mode : BitVec 2) (z : Bool) (d : BitVec 4)
  | kds (d : BitVec 4) (a : BitVec 1) (b slot : BitVec 4)
  | sortm (desc : Bool) (a : BitVec 2)
  | push (pair : Bool) (a : BitVec 4)
  | pushm (k : Bool) (a : BitVec 1) (b : BitVec 2)
  | pop (pair : Bool) (d : BitVec 4)
  | sclr
  | emit (a b : BitVec 4) (x : BitVec 14)
  | topk (ty : ScanTy) (desc : Bool) (d a b : BitVec 4) (k : BitVec 6)
  | emitk (x : BitVec 14)
  | done (a b : BitVec 4) (x : BitVec 14)
  | hoff (a : BitVec 4) (entry : BitVec 12)
  | br (off : BitVec 14)
  | brc (c : WCond) (off : BitVec 10)
  | yldw
  | wadd (w : Bool) (d a : BitVec 4) (y : QSrc) | wsub (w : Bool) (d a : BitVec 4) (y : QSrc)
  | wand (w : Bool) (d a : BitVec 4) (y : QSrc) | wor (w : Bool) (d a : BitVec 4) (y : QSrc)
  | wxor (w : Bool) (d a : BitVec 4) (y : QSrc) | wshl (w : Bool) (d a : BitVec 4) (y : QSrc)
  | wshr (w : Bool) (d a : BitVec 4) (y : QSrc)
  | minmax (ty : ScanTy) (max : Bool) (d a b : BitVec 4)
  | fmad (mode : BitVec 2) (neg : Bool) (d a b : BitVec 4)
  | cmps (c : Cmp) (ty : ScanTy) (a : BitVec 4) (y : CSrc)
  | movq (d a : BitVec 4)
  | movqImm (d : BitVec 4) (i : BitVec 12)
  | movqShi (d : BitVec 4) (i : BitVec 12)
  | movqSpc (d : BitVec 4) (src : BitVec 3)
  | ldq (d a : BitVec 4) (off : BitVec 10) (n : BitVec 3)
  | walkNonInstructionWord (w : Word)
  -- Jig words (R320)
  | jlds (g : Bool) (d : BitVec 2) (a : BitVec 3) (off : BitVec 17)
  | junpk (s : Bool) (d a : BitVec 2) (src dst part : BitVec 3)
  | jpack (s sat : Bool) (d a : BitVec 2) (src dst part : BitVec 3)
  | jdelta (d a : BitVec 2) (b : BitVec 3) (wid : BitVec 3)
  | jrld (g : Bool) (d a : BitVec 3) (off : BitVec 17)
  | jcvt (d a : BitVec 2) (part : BitVec 2) (sat : Bool) (mode : BitVec 2) (dst src : BitVec 4)
  | jperm (d a b : BitVec 2)
  | jput (q a : BitVec 2)
  | jgadd (d a : BitVec 3) (y : GSrc) | jgand (d a : BitVec 3) (y : GSrc) | jgshr (d a : BitVec 3) (y : GSrc)
  | jbr (cond : BitVec 3) (a : BitVec 3) (target : BitVec 8)
  | jloop (a : BitVec 3) (target : BitVec 8)
  | jwait (q : BitVec 2) (k : BitVec 6)
  | jend
  | jflag (k : BitVec 3) (y : GSrc)
  | jigNonInstructionWord (w : Word)
  -- completions and arrivals inside the device; `c` is a core number, `op` a queued operation
  | loadCompletion (c op : Nat) (lanes : Mask)
  | storeWritePerform (c op : Nat) (lanes : Mask)
  | atomicCompletion (c op : Nat) (lanes : Mask)
  | fenceCompletion (c op : Nat)
  | l1WriteBack (c line : Nat) (evict : Bool)
  | lineWriteBack (line : Nat)
  | remoteBenchArrival (c op : Nat) (lanes : Mask)
  | remoteBenchRefusal (c op : Nat)
  | pageVerification (region page : Nat)
  | sfuResultWrite (c slice op : Nat)
  | engineStart (c : Nat)
  | engineEffect (c : Nat)
  | macrResultWrite (c op : Nat)
  | lxLoadDone (c : Nat)
  | walkSlotGrant (c : Nat)
  | nodeArrival (c slot : Nat)
  | stackSpill (c slot : Nat)
  | stackFill (c slot : Nat)
  | handoffArrival (msg : HoffMsg)
  | handoffReturn (c : Nat) (slot : HoffRef) (ret : HoffRet)
  | partnerEntryArrival (c : Nat) (slot : HoffRef) (entry : HoffEntries)
  | cancelMessage (originCore : Nat) (originSlot : HoffRef)
  | killMessage (originCore : Nat) (originSlot : HoffRef)
  | copySlotGrant (c : Nat)
  | copyUnitServe (c : Nat)
  | copyUnitLanded (c job unit : Nat)
  | copyJobSuspend (c job : Nat)
  | jpopDelivery (c : Nat) (q : Nat)
  | depositArrival (id : Nat)
  | depositRetry (id : Nat)
  | sendStatusReturn (id : Nat)
  | sleepExpiry (c w : Nat) (lanes : Mask)
  | cqpopTimeout (c w : Nat) (lanes : Mask)
  | barrierTimeout (launch c : Nat)
  | waitaPoll (c w : Nat)
  | waitaWake (line : Nat)
  | autoLaunch (q : Nat)
  | teamPlacement
  | clusterRetry (launch : Nat)
  | reservationExpiry (launch : Nat)
  | teamRestore (team : Nat)
  | racqGrant (c slice : Nat)
  | bundlePartition (c w : Nat)
  | priorityPromotion (c w : Nat)
  | fetchLineArrival (group line : Nat)
  | asyncTrapDelivery (c w : Nat)
  | teamQuiet (team : Nat)
  | pcSample (c slice : Nat)
  | quietStopLimit (launch : Nat)
  | coreInvalidateAck (c : Nat)
  -- bring-up, power, links, soft errors (R469-R476, R451-R453, R24-R25, R422)
  | reset
  | supplyDroop (region : Nat)
  | powerMeasurement (watts : Nat)
  | hostLinkDown
  | hostLinkUp (width gen : Nat)
  | hostAccessTimeout (c op : Nat)
  | pairingPortDown (p : Nat)
  | pairingPortUp (p : Nat)
  | partnerRequest (ctx target : Nat) (req : PartnerReq)
  | singleBitError (site : ErrSite)
  | doubleBitError (site : ErrSite)
  | recalibrationDone (c : Nat) (ok : Bool)
  | retrainDone (ok : Bool)
  | fwRestart
  -- host accesses (R416-R418, R345)
  | hostMemoryAccess (access : HostAccess) (addr : Nat) (data : List Byte)
  | ingressWrite (w off : Nat) (data : List Byte)
  | ingressCommit (w slot : Nat)
  | ingressEntryPush (w : Nat)
  | doorbell (ctx tail : Nat)
  | hostNop (ctx : Nat)
  | hostLaunch (ctx : Nat)
  | hostCommandInvalid (ctx : Nat)
  -- management commands (R407, R417); `tag` is the command's tag
  | ctxSet (tag : Word) (ctx root : Nat) (replay : Bool) (ring : DWord)
  | ctxClear (tag : Word) (ctx : Nat)
  | invalidate (tag : Word) (ctx : Nat) (va : DWord) (pages : Nat)
  | sqConfig (tag : Word) (q : Nat) (desc : List Byte)
  | ingressMap (tag : Word) (w : Nat) (q : Option Nat)
  | pairSet (tag : Word) (ctx : Nat) (partner : Option Nat)
  | seal (tag : Word) (ctx : Nat) (base : DWord) (pages : Nat) (tree : DWord)
  | unseal (tag : Word) (region : Nat)
  | attest (tag : Word) (nonce : List Byte) (addr : DWord)
  | faultRing (tag : Word) (addr : DWord) (count : Nat)
  | nodeCache (tag : Word) (mib : Nat)
  | getCert (tag : Word) (addr : DWord) (len : Nat)
  | fwWrite (tag : Word) (slot : Nat) (addr : DWord) (len : Nat)
  | fwSwitch (tag : Word)
  | coreParkDrain (tag : Word) (c : Nat)
  | coreParkKill (tag : Word) (c : Nat)
  | coreReturn (tag : Word) (c : Nat)
  | chRetrain (tag : Word) (k : Nat)
  | powerLimit (tag : Word) (watts : Nat)
  | quietWindow (tag : Word) (e : Nat)
  | status (tag : Word) (addr : DWord)
  -- debug commands (R454-R467)
  | dbgArm (tag : Word) (ctx policy : Nat)
  | dbgDisarm (tag : Word) (ctx : Nat)
  | dbgRunStop (tag : Word) (ctx : Nat) (w : DbgSel)
  | dbgRunResume (tag : Word) (ctx : Nat) (w : DbgSel)
  | dbgRunStep (tag : Word) (ctx : Nat) (w : DbgSel)
  | dbgRunStepDrain (tag : Word) (ctx : Nat) (w : DbgSel)
  | dbgRead (tag : Word) (c slot w : Nat) (addr : DWord)
  | dbgWriteVector (tag : Word) (c slot w name : Nat) (lanes : Mask) (data : VReg)
  | dbgWriteScalar (tag : Word) (c slot w name : Nat) (v : Word)
  | dbgWritePredicate (tag : Word) (c slot w name : Nat) (lanes v : Mask)
  | dbgWriteMailbox (tag : Word) (c slot w name : Nat) (v : Word)
  | dbgWriteSr (tag : Word) (c slot w : Nat) (v : Word)
  | dbgWriteResume (tag : Word) (c slot w : Nat) (lanes : Mask) (pcs : List DWord)
  | dbgWriteTile (tag : Word) (c slot w name : Nat) (data : List Byte)
  | bkptSet (tag : Word) (slot ctx : Nat) (addr : DWord)
  | watchSet (tag : Word) (slot ctx : Nat) (addr : DWord) (len access : Nat)
  | traceCfg (tag : Word) (base count mode : Nat) (mask : Word) (k : Nat)
  | quietStop (tag : Word) (ctx : Nat) (header : DWord)
  | quietCheckpoint (tag : Word) (ctx : Nat) (header : DWord)
  | quietReplay (tag : Word) (ctx : Nat) (header : DWord)
  | quietCancel (tag : Word) (ctx : Nat) (header : DWord)
  | cmdUnknownOpcode (tag : Word) (opcode : Word)
  | faultReplyReplay (fid : Word)
  | faultReplyReject (fid : Word)
  | fhead (v : DWord)
  | registerWrite (off : Nat) (data : List Byte)
  -- further device events
  | sfuServiceStart (c slice : Nat)
  | supplyRecovery (region : Nat)
  | handoffRefusal (c : Nat) (slot : HoffRef)
  | handoffCredit (c : Nat)
  | partnerPairingChange (entries : List (Nat × Nat))
  | sealCompletion
  deriving DecidableEq, Repr

end Sys2Proof
end

