-- ==== Sys2Proof/Machine/Encoding.lean ====
section
/-! DEFINITION. The encoding tables of the SIMT instructions (R47-R63, R94-R131, R151, R286-R316, R370-R372, R442):
the code of every modifier, the major and minor opcode of every instruction, the operands each form accepts, and
the fate of a word that breaks a rule; with the register limits of Spindle words (R191, R192) and Jig words
(R320, R322). -/
namespace Sys2Proof

/-! ### Modifier codes (R57) -/

def bit (b : Bool) (n : Nat) : BitVec 6 := if b then BitVec.ofNat 6 (2 ^ n) else 0

def ITy.code : ITy → BitVec 3
  | .b32 => 0 | .si32 => 1 | .ui32 => 2 | .si16 => 3 | .ui16 => 4 | .si8 => 5 | .ui8 => 6
/-- `none`: a reserved code (R57). -/
def ITy.ofCode (b : BitVec 3) : Option ITy :=
  match b.toNat with
  | 0 => some .b32 | 1 => some .si32 | 2 => some .ui32 | 3 => some .si16 | 4 => some .ui16 | 5 => some .si8 | 6 => some .ui8 | _ => none

def Rm.code : Rm → BitVec 3
  | .rne => 0 | .rz => 1 | .ru => 2 | .rd => 3 | .rdyn => 4
/-- `none`: a reserved code (R57). -/
def Rm.ofCode (b : BitVec 3) : Option Rm :=
  match b.toNat with
  | 0 => some .rne | 1 => some .rz | 2 => some .ru | 3 => some .rd | 4 => some .rdyn | _ => none

def Cmp.code : Cmp → BitVec 3
  | .eq => 0 | .ne => 1 | .lt => 2 | .le => 3 | .gt => 4 | .ge => 5 | .un => 6 | .ord => 7
/-- `none`: a reserved code (R57). -/
def Cmp.ofCode (b : BitVec 3) : Option Cmp :=
  match b.toNat with
  | 0 => some .eq | 1 => some .ne | 2 => some .lt | 3 => some .le | 4 => some .gt | 5 => some .ge | 6 => some .un | 7 => some .ord | _ => none

def MSize.code : MSize → BitVec 3
  | .b8 => 0 | .b16 => 1 | .b32 => 2 | .b64 => 3 | .b128 => 4 | .s8 => 5 | .s16 => 6
/-- `none`: a reserved code (R57). -/
def MSize.ofCode (b : BitVec 3) : Option MSize :=
  match b.toNat with
  | 0 => some .b8 | 1 => some .b16 | 2 => some .b32 | 3 => some .b64 | 4 => some .b128 | 5 => some .s8 | 6 => some .s16 | _ => none

def ScanOp.code : ScanOp → BitVec 3
  | .add => 0 | .min => 1 | .max => 2 | .and => 3 | .or => 4 | .xor => 5
/-- `none`: a reserved code (R57). -/
def ScanOp.ofCode (b : BitVec 3) : Option ScanOp :=
  match b.toNat with
  | 0 => some .add | 1 => some .min | 2 => some .max | 3 => some .and | 4 => some .or | 5 => some .xor | _ => none

def Swz.code : Swz → BitVec 3
  | .none => 0 | .s32 => 1 | .s64 => 2 | .s128 => 3 | .s256 => 4
/-- `none`: a reserved code (R57). -/
def Swz.ofCode (b : BitVec 3) : Option Swz :=
  match b.toNat with
  | 0 => some .none | 1 => some .s32 | 2 => some .s64 | 3 => some .s128 | 4 => some .s256 | _ => none

def MOrd.code : MOrd → BitVec 2
  | .plain => 0 | .sync => 1 | .vol => 2
/-- `none`: a reserved code (R57). -/
def MOrd.ofCode (b : BitVec 2) : Option MOrd :=
  match b.toNat with
  | 0 => some .plain | 1 => some .sync | 2 => some .vol | _ => none

def AOrd.code : AOrd → BitVec 2
  | .relaxed => 0 | .acq => 1 | .rel => 2 | .ar => 3
/-- `none`: a reserved code (R57). -/
def AOrd.ofCode (b : BitVec 2) : Option AOrd :=
  match b.toNat with
  | 0 => some .relaxed | 1 => some .acq | 2 => some .rel | 3 => some .ar | _ => none

def Scope.code : Scope → BitVec 2
  | .wave => 0 | .team => 1 | .device => 2 | .system => 3
/-- `none`: a reserved code (R57). -/
def Scope.ofCode (b : BitVec 2) : Option Scope :=
  match b.toNat with
  | 0 => some .wave | 1 => some .team | 2 => some .device | 3 => some .system | _ => none

def BrVote.code : BrVote → BitVec 2
  | .all => 0 | .any => 1 | .none => 2
/-- `none`: a reserved code (R57). -/
def BrVote.ofCode (b : BitVec 2) : Option BrVote :=
  match b.toNat with
  | 0 => some .all | 1 => some .any | 2 => some .none | _ => none

def Shfl.code : Shfl → BitVec 2
  | .idx => 0 | .up => 1 | .down => 2 | .xor => 3
/-- `none`: a reserved code (R57). -/
def Shfl.ofCode (b : BitVec 2) : Option Shfl :=
  match b.toNat with
  | 0 => some .idx | 1 => some .up | 2 => some .down | 3 => some .xor | _ => none

def Vote.code : Vote → BitVec 2
  | .all => 0 | .any => 1 | .eq => 2 | .ballot => 3
/-- `none`: a reserved code (R57). -/
def Vote.ofCode (b : BitVec 2) : Option Vote :=
  match b.toNat with
  | 0 => some .all | 1 => some .any | 2 => some .eq | 3 => some .ballot | _ => none

def ScanTy.code : ScanTy → BitVec 2
  | .si32 => 0 | .ui32 => 1 | .f32 => 2
/-- `none`: a reserved code (R57). -/
def ScanTy.ofCode (b : BitVec 2) : Option ScanTy :=
  match b.toNat with
  | 0 => some .si32 | 1 => some .ui32 | 2 => some .f32 | _ => none

def LacFmt.code : LacFmt → BitVec 2
  | .f32 => 0 | .f16 => 1 | .bf16 => 2
/-- `none`: a reserved code (R57). -/
def LacFmt.ofCode (b : BitVec 2) : Option LacFmt :=
  match b.toNat with
  | 0 => some .f32 | 1 => some .f16 | 2 => some .bf16 | _ => none

def LacrFmt.code : LacrFmt → BitVec 2
  | .f32 => 0 | .f16 => 1 | .bf16 => 2 | .f64 => 3
/-- `none`: a reserved code (R57). -/
def LacrFmt.ofCode (b : BitVec 2) : Option LacrFmt :=
  match b.toNat with
  | 0 => some .f32 | 1 => some .f16 | 2 => some .bf16 | 3 => some .f64 | _ => none

def TileFmt.code : TileFmt → BitVec 2
  | .f32 => 0 | .f16 => 1 | .bf16 => 2 | .i32 => 3
/-- `none`: a reserved code (R57). -/
def TileFmt.ofCode (b : BitVec 2) : Option TileFmt :=
  match b.toNat with
  | 0 => some .f32 | 1 => some .f16 | 2 => some .bf16 | 3 => some .i32 | _ => none

def Bound.code : Bound → BitVec 2
  | .none => 0 | .clampz => 1 | .fault => 2
/-- `none`: a reserved code (R57). -/
def Bound.ofCode (b : BitVec 2) : Option Bound :=
  match b.toNat with
  | 0 => some .none | 1 => some .clampz | 2 => some .fault | _ => none

def TSet.code : TSet → BitVec 2
  | .row => 0 | .col => 1 | .both => 2
/-- `none`: a reserved code (R57). -/
def TSet.ofCode (b : BitVec 2) : Option TSet :=
  match b.toNat with
  | 0 => some .row | 1 => some .col | 2 => some .both | _ => none

def Outer.code : Outer → BitVec 2
  | .dense => 0 | .o24 => 1 | .o12 => 2
/-- `none`: a reserved code (R57). -/
def Outer.ofCode (b : BitVec 2) : Option Outer :=
  match b.toNat with
  | 0 => some .dense | 1 => some .o24 | 2 => some .o12 | _ => none

/-! ### Opcode map (R55, R56) -/

/-- The major and minor opcode of a SIMT instruction but `FMT` (R55, R56), and its operand fields. -/
def simtParts : Instr → Option (Nat × Nat × BitVec 6 × Opnds)
  | .nop o => some (0, 1, 0, o)
  | .halt o retain => some (0, 2, bit retain 0, o)
  | .trap o => some (0, 3, 0, o)
  | .eret o => some (0, 4, 0, o)
  | .csrr o => some (0, 5, 0, o)
  | .csrw o => some (0, 6, 0, o)
  | .csrx o => some (0, 7, 0, o)
  | .sleep o => some (0, 8, 0, o)
  | .yld o => some (0, 9, 0, o)
  | .brk o => some (0, 10, 0, o)
  | .tmark o => some (0, 11, 0, o)
  | .bra o => some (1, 0, 0, o)
  | .jmp o => some (1, 1, 0, o)
  | .call o => some (1, 2, 0, o)
  | .calli o => some (1, 3, 0, o)
  | .ret o => some (1, 4, 0, o)
  | .brv o v => some (1, 5, (v.code.zeroExtend 6 <<< 4), o)
  | .rghint o => some (1, 6, 0, o)
  | .iadd o t sat => some (2, 0, (t.code.zeroExtend 6 <<< 0) ||| bit sat 5, o)
  | .isub o t sat => some (2, 1, (t.code.zeroExtend 6 <<< 0) ||| bit sat 5, o)
  | .iaddc o t => some (2, 2, (t.code.zeroExtend 6 <<< 0), o)
  | .isubb o t => some (2, 3, (t.code.zeroExtend 6 <<< 0), o)
  | .ineg o t sat => some (2, 4, (t.code.zeroExtend 6 <<< 0) ||| bit sat 5, o)
  | .iabs o t sat => some (2, 5, (t.code.zeroExtend 6 <<< 0) ||| bit sat 5, o)
  | .imin o t => some (2, 6, (t.code.zeroExtend 6 <<< 0), o)
  | .imax o t => some (2, 7, (t.code.zeroExtend 6 <<< 0), o)
  | .and o t => some (2, 8, (t.code.zeroExtend 6 <<< 0), o)
  | .or o t => some (2, 9, (t.code.zeroExtend 6 <<< 0), o)
  | .xor o t => some (2, 10, (t.code.zeroExtend 6 <<< 0), o)
  | .andn o t => some (2, 11, (t.code.zeroExtend 6 <<< 0), o)
  | .not o t => some (2, 12, (t.code.zeroExtend 6 <<< 0), o)
  | .shl o t => some (2, 13, (t.code.zeroExtend 6 <<< 0), o)
  | .shr o t => some (2, 14, (t.code.zeroExtend 6 <<< 0), o)
  | .sar o t => some (2, 15, (t.code.zeroExtend 6 <<< 0), o)
  | .rol o t => some (2, 16, (t.code.zeroExtend 6 <<< 0), o)
  | .iset o t c => some (2, 17, (t.code.zeroExtend 6 <<< 0) ||| (c.code.zeroExtend 6 <<< 3), o)
  | .imul o t => some (3, 0, (t.code.zeroExtend 6 <<< 0), o)
  | .imulh o t => some (3, 1, (t.code.zeroExtend 6 <<< 0), o)
  | .imad o t => some (3, 2, (t.code.zeroExtend 6 <<< 0), o)
  | .imadw o t => some (3, 3, (t.code.zeroExtend 6 <<< 0), o)
  | .idiv o t => some (3, 4, (t.code.zeroExtend 6 <<< 0), o)
  | .irem o t => some (3, 5, (t.code.zeroExtend 6 <<< 0), o)
  | .popc o t => some (4, 0, (t.code.zeroExtend 6 <<< 0), o)
  | .clz o t => some (4, 1, (t.code.zeroExtend 6 <<< 0), o)
  | .ctz o t => some (4, 2, (t.code.zeroExtend 6 <<< 0), o)
  | .brev o t => some (4, 3, (t.code.zeroExtend 6 <<< 0), o)
  | .bfe o t => some (4, 4, (t.code.zeroExtend 6 <<< 0), o)
  | .bfi o t => some (4, 5, (t.code.zeroExtend 6 <<< 0), o)
  | .fshl o t => some (4, 6, (t.code.zeroExtend 6 <<< 0), o)
  | .fshr o t => some (4, 7, (t.code.zeroExtend 6 <<< 0), o)
  | .bperm o t => some (4, 8, (t.code.zeroExtend 6 <<< 0), o)
  | .lea o k => some (5, 0, (k.zeroExtend 6 <<< 3), o)
  | .iadd64 o => some (5, 1, 0, o)
  | .isub64 o => some (5, 2, 0, o)
  | .iset64 o c signed => some (5, 3, (c.code.zeroExtend 6 <<< 3) ||| bit signed 0, o)
  | .mov o pair => some (6, 0, bit pair 0, o)
  | .movi o pair => some (6, 1, bit pair 0, o)
  | .sel o pair => some (6, 2, bit pair 0, o)
  | .smov o pair => some (6, 3, bit pair 0, o)
  | .ftst o pair => some (6, 4, bit pair 0, o)
  | .plop o tt => some (7, 0, (tt.zeroExtend 6 <<< 0), o)
  | .pset o v => some (7, 1, bit v 0, o)
  | .pmov o => some (7, 2, 0, o)
  | .fadd o r => some (8, 0, (r.code.zeroExtend 6 <<< 0), o)
  | .fsub o r => some (8, 1, (r.code.zeroExtend 6 <<< 0), o)
  | .fmul o r => some (8, 2, (r.code.zeroExtend 6 <<< 0), o)
  | .fmac o r => some (8, 3, (r.code.zeroExtend 6 <<< 0), o)
  | .fmin o => some (8, 4, 0, o)
  | .fmax o => some (8, 5, 0, o)
  | .fset o c => some (8, 6, (c.code.zeroExtend 6 <<< 0), o)
  | .fclass o => some (8, 7, 0, o)
  | .frnd o r => some (8, 8, (r.code.zeroExtend 6 <<< 0), o)
  | .fscale o r => some (8, 9, (r.code.zeroExtend 6 <<< 0), o)
  | .fexp o => some (8, 10, 0, o)
  | .dadd o r => some (9, 0, (r.code.zeroExtend 6 <<< 0), o)
  | .dsub o r => some (9, 1, (r.code.zeroExtend 6 <<< 0), o)
  | .dmul o r => some (9, 2, (r.code.zeroExtend 6 <<< 0), o)
  | .dmac o r => some (9, 3, (r.code.zeroExtend 6 <<< 0), o)
  | .dmin o => some (9, 4, 0, o)
  | .dmax o => some (9, 5, 0, o)
  | .dset o c => some (9, 6, (c.code.zeroExtend 6 <<< 0), o)
  | .drnd o r => some (9, 7, (r.code.zeroExtend 6 <<< 0), o)
  | .hpadd o bf r => some (10, 0, bit bf 5 ||| (r.code.zeroExtend 6 <<< 0), o)
  | .hpmul o bf r => some (10, 1, bit bf 5 ||| (r.code.zeroExtend 6 <<< 0), o)
  | .hpmac o bf r => some (10, 2, bit bf 5 ||| (r.code.zeroExtend 6 <<< 0), o)
  | .hpmin o bf => some (10, 3, bit bf 5, o)
  | .hpmax o bf => some (10, 4, bit bf 5, o)
  | .hpset o bf c => some (10, 5, bit bf 5 ||| (c.code.zeroExtend 6 <<< 0), o)
  | .cvt o => some (11, 0, 0, o)
  | .packq o => some (11, 1, 0, o)
  | .unpq o => some (11, 2, 0, o)
  | .rcp o r => some (12, 0, (r.code.zeroExtend 6 <<< 0), o)
  | .rsq o => some (12, 1, 0, o)
  | .sqrt o r => some (12, 2, (r.code.zeroExtend 6 <<< 0), o)
  | .ex2 o => some (12, 3, 0, o)
  | .lg2 o => some (12, 4, 0, o)
  | .sin o => some (12, 5, 0, o)
  | .cos o => some (12, 6, 0, o)
  | .tanh o => some (12, 7, 0, o)
  | .drcp o r => some (12, 8, (r.code.zeroExtend 6 <<< 0), o)
  | .dsqrt o r => some (12, 9, (r.code.zeroExtend 6 <<< 0), o)
  | .shfl o m => some (13, 0, (m.code.zeroExtend 6 <<< 4), o)
  | .bcst o => some (13, 1, 0, o)
  | .vote o v => some (13, 2, (v.code.zeroExtend 6 <<< 4), o)
  | .scan o op excl t => some (13, 3, (op.code.zeroExtend 6 <<< 3) ||| bit excl 2 ||| (t.code.zeroExtend 6 <<< 0), o)
  | .red o op t => some (13, 4, (op.code.zeroExtend 6 <<< 3) ||| (t.code.zeroExtend 6 <<< 0), o)
  | .cnfl o => some (13, 5, 0, o)
  | .lmatch o => some (13, 6, 0, o)
  | .cmpr o => some (13, 7, 0, o)
  | .xpnd o => some (13, 8, 0, o)
  | .lacz o => some (14, 0, 0, o)
  | .laca o f => some (14, 1, (f.code.zeroExtend 6 <<< 4), o)
  | .lacr o f r => some (14, 2, (f.code.zeroExtend 6 <<< 4) ||| (r.code.zeroExtend 6 <<< 0), o)
  | .ld o z r => some (16, 0, (z.code.zeroExtend 6 <<< 3) ||| (r.code.zeroExtend 6 <<< 1), o)
  | .ldk o z => some (16, 1, (z.code.zeroExtend 6 <<< 3), o)
  | .ldb o z r => some (16, 2, (z.code.zeroExtend 6 <<< 3) ||| (r.code.zeroExtend 6 <<< 1), o)
  | .ldbc o z => some (16, 3, (z.code.zeroExtend 6 <<< 3), o)
  | .pfch o => some (16, 4, 0, o)
  | .st o z r => some (17, 0, (z.code.zeroExtend 6 <<< 3) ||| (r.code.zeroExtend 6 <<< 1), o)
  | .stb o z r => some (17, 1, (z.code.zeroExtend 6 <<< 3) ||| (r.code.zeroExtend 6 <<< 1), o)
  | .str o z r => some (17, 2, (z.code.zeroExtend 6 <<< 3) ||| (r.code.zeroExtend 6 <<< 1), o)
  | .sts o z r => some (17, 3, (z.code.zeroExtend 6 <<< 3) ||| (r.code.zeroExtend 6 <<< 1), o)
  | .atom o op r => some (18, 0, (op.zeroExtend 6 <<< 2) ||| (r.code.zeroExtend 6 <<< 0), o)
  | .atb o op r => some (18, 1, (op.zeroExtend 6 <<< 2) ||| (r.code.zeroExtend 6 <<< 0), o)
  | .atr o op r => some (18, 2, (op.zeroExtend 6 <<< 2) ||| (r.code.zeroExtend 6 <<< 0), o)
  | .cas128 o r => some (18, 3, (r.code.zeroExtend 6 <<< 0), o)
  | .fnc o sc => some (19, 0, (sc.code.zeroExtend 6 <<< 4), o)
  | .cpy o w => some (20, 0, (w.code.zeroExtend 6 <<< 1), o)
  | .cpyg o bm w => some (20, 1, (bm.code.zeroExtend 6 <<< 4) ||| (w.code.zeroExtend 6 <<< 1), o)
  | .cpys o bm w => some (20, 2, (bm.code.zeroExtend 6 <<< 4) ||| (w.code.zeroExtend 6 <<< 1), o)
  | .cpyq o bm w => some (20, 3, (bm.code.zeroExtend 6 <<< 4) ||| (w.code.zeroExtend 6 <<< 1), o)
  | .cpyr o => some (20, 4, 0, o)
  | .cpyx o => some (20, 5, 0, o)
  | .jload o => some (21, 0, 0, o)
  | .jstart o => some (21, 1, 0, o)
  | .jstop o => some (21, 2, 0, o)
  | .jpop o => some (21, 3, 0, o)
  | .bar o => some (22, 0, 0, o)
  | .bbinit o => some (22, 1, 0, o)
  | .bbarv o => some (22, 2, 0, o)
  | .bbwait o tr => some (22, 3, bit tr 0, o)
  | .tbar o set => some (22, 4, (set.code.zeroExtend 6 <<< 4), o)
  | .gbar o => some (22, 5, 0, o)
  | .send o dev => some (23, 0, bit dev 0, o)
  | .mbclr o => some (23, 1, 0, o)
  | .waita o => some (24, 0, 0, o)
  | .wake o => some (24, 1, 0, o)
  | .sqpush o nb => some (25, 0, bit nb 0, o)
  | .sqpop o nb => some (25, 1, bit nb 0, o)
  | .sqstat o => some (25, 2, 0, o)
  | .cqpop o wait => some (25, 3, bit wait 0, o)
  | .launch o => some (26, 0, 0, o)
  | .rfork o => some (26, 1, 0, o)
  | .join o => some (26, 2, 0, o)
  | .racq o => some (27, 0, 0, o)
  | .rrel o => some (27, 1, 0, o)
  | .rsetw o => some (27, 2, 0, o)
  | .rotb o => some (27, 3, 0, o)
  | .trav o => some (28, 0, 0, o)
  | .travx o => some (28, 1, 0, o)
  | .mma o bf zskip => some (29, 0, bit bf 5 ||| bit zskip 0, o)
  | .mmas o bf out inner zskip => some (29, 1, bit bf 5 ||| (out.code.zeroExtend 6 <<< 3) ||| bit inner 2 ||| bit zskip 0, o)
  | .mmal o bf abs k32 => some (29, 2, bit bf 5 ||| bit abs 1 ||| bit k32 0, o)
  | .macz o => some (30, 0, 0, o)
  | .macw o f => some (30, 1, (f.code.zeroExtend 6 <<< 4), o)
  | .macr o f r => some (30, 2, (f.code.zeroExtend 6 <<< 4) ||| (r.code.zeroExtend 6 <<< 0), o)
  | .zflg o => some (30, 3, 0, o)
  | .lxld o => some (31, 0, 0, o)
  | .lxinv o => some (31, 1, 0, o)
  | _ => none

/-- The bits of FN[5:0] that an instruction of a major and minor defines (R57); the others must be 0. `none`: a
reserved minor (R56). -/
def modBits : Nat → Nat → Option (BitVec 6)
  | 0, k => match k with
    | 1 => some 0
    | 2 => some 1
    | 3 => some 0
    | 4 => some 0
    | 5 => some 0
    | 6 => some 0
    | 7 => some 0
    | 8 => some 0
    | 9 => some 0
    | 10 => some 0
    | 11 => some 0
    | _ => none
  | 1, k => match k with
    | 0 => some 0
    | 1 => some 0
    | 2 => some 0
    | 3 => some 0
    | 4 => some 0
    | 5 => some 48
    | 6 => some 0
    | _ => none
  | 2, k => match k with
    | 0 => some 39
    | 1 => some 39
    | 2 => some 7
    | 3 => some 7
    | 4 => some 39
    | 5 => some 39
    | 6 => some 7
    | 7 => some 7
    | 8 => some 7
    | 9 => some 7
    | 10 => some 7
    | 11 => some 7
    | 12 => some 7
    | 13 => some 7
    | 14 => some 7
    | 15 => some 7
    | 16 => some 7
    | 17 => some 63
    | _ => none
  | 3, k => match k with
    | 0 => some 7
    | 1 => some 7
    | 2 => some 7
    | 3 => some 7
    | 4 => some 7
    | 5 => some 7
    | _ => none
  | 4, k => match k with
    | 0 => some 7
    | 1 => some 7
    | 2 => some 7
    | 3 => some 7
    | 4 => some 7
    | 5 => some 7
    | 6 => some 7
    | 7 => some 7
    | 8 => some 7
    | _ => none
  | 5, k => match k with
    | 0 => some 56
    | 1 => some 0
    | 2 => some 0
    | 3 => some 57
    | _ => none
  | 6, k => match k with
    | 0 => some 1
    | 1 => some 1
    | 2 => some 1
    | 3 => some 1
    | 4 => some 1
    | _ => none
  | 7, k => match k with
    | 0 => some 15
    | 1 => some 1
    | 2 => some 0
    | _ => none
  | 8, k => match k with
    | 0 => some 7
    | 1 => some 7
    | 2 => some 7
    | 3 => some 7
    | 4 => some 0
    | 5 => some 0
    | 6 => some 7
    | 7 => some 0
    | 8 => some 7
    | 9 => some 7
    | 10 => some 0
    | _ => none
  | 9, k => match k with
    | 0 => some 7
    | 1 => some 7
    | 2 => some 7
    | 3 => some 7
    | 4 => some 0
    | 5 => some 0
    | 6 => some 7
    | 7 => some 7
    | _ => none
  | 10, k => match k with
    | 0 => some 39
    | 1 => some 39
    | 2 => some 39
    | 3 => some 32
    | 4 => some 32
    | 5 => some 39
    | _ => none
  | 11, k => match k with
    | 0 => some 0
    | 1 => some 0
    | 2 => some 0
    | _ => none
  | 12, k => match k with
    | 0 => some 7
    | 1 => some 7
    | 2 => some 7
    | 3 => some 7
    | 4 => some 7
    | 5 => some 7
    | 6 => some 7
    | 7 => some 7
    | 8 => some 7
    | 9 => some 7
    | _ => none
  | 13, k => match k with
    | 0 => some 48
    | 1 => some 0
    | 2 => some 48
    | 3 => some 63
    | 4 => some 63
    | 5 => some 0
    | 6 => some 0
    | 7 => some 0
    | 8 => some 0
    | _ => none
  | 14, k => match k with
    | 0 => some 0
    | 1 => some 48
    | 2 => some 55
    | _ => none
  | 16, k => match k with
    | 0 => some 62
    | 1 => some 62
    | 2 => some 62
    | 3 => some 62
    | 4 => some 62
    | _ => none
  | 17, k => match k with
    | 0 => some 62
    | 1 => some 62
    | 2 => some 62
    | 3 => some 62
    | _ => none
  | 18, k => match k with
    | 0 => some 63
    | 1 => some 63
    | 2 => some 63
    | 3 => some 63
    | _ => none
  | 19, k => match k with
    | 0 => some 48
    | _ => none
  | 20, k => match k with
    | 0 => some 62
    | 1 => some 62
    | 2 => some 62
    | 3 => some 62
    | 4 => some 0
    | 5 => some 0
    | _ => none
  | 21, k => match k with
    | 0 => some 0
    | 1 => some 0
    | 2 => some 0
    | 3 => some 0
    | _ => none
  | 22, k => match k with
    | 0 => some 0
    | 1 => some 0
    | 2 => some 0
    | 3 => some 1
    | 4 => some 48
    | 5 => some 0
    | _ => none
  | 23, k => match k with
    | 0 => some 1
    | 1 => some 0
    | _ => none
  | 24, k => match k with
    | 0 => some 0
    | 1 => some 0
    | _ => none
  | 25, k => match k with
    | 0 => some 1
    | 1 => some 1
    | 2 => some 0
    | 3 => some 1
    | _ => none
  | 26, k => match k with
    | 0 => some 0
    | 1 => some 0
    | 2 => some 0
    | _ => none
  | 27, k => match k with
    | 0 => some 0
    | 1 => some 0
    | 2 => some 0
    | 3 => some 0
    | _ => none
  | 28, k => match k with
    | 0 => some 0
    | 1 => some 0
    | _ => none
  | 29, k => match k with
    | 0 => some 33
    | 1 => some 61
    | 2 => some 35
    | _ => none
  | 30, k => match k with
    | 0 => some 0
    | 1 => some 48
    | 2 => some 55
    | 3 => some 0
    | _ => none
  | 31, k => match k with
    | 0 => some 0
    | 1 => some 0
    | _ => none
  | _, _ => none

/-- The instruction of a major, minor and FN[5:0]; `none`: a reserved value, or a modifier the instruction does
not accept (R57, R59). -/
def simtOf (m : BitVec 6) (o : Opnds) : Nat → Nat → Option Instr
  | 0, k => match k with
    | 1 => some (.nop o)
    | 2 => some (.halt o (m.getLsbD 0))
    | 3 => some (.trap o)
    | 4 => some (.eret o)
    | 5 => some (.csrr o)
    | 6 => some (.csrw o)
    | 7 => some (.csrx o)
    | 8 => some (.sleep o)
    | 9 => some (.yld o)
    | 10 => some (.brk o)
    | 11 => some (.tmark o)
    | _ => none
  | 1, k => match k with
    | 0 => some (.bra o)
    | 1 => some (.jmp o)
    | 2 => some (.call o)
    | 3 => some (.calli o)
    | 4 => some (.ret o)
    | 5 => (BrVote.ofCode (m.extractLsb' 4 2)).bind fun v => some (.brv o v)
    | 6 => some (.rghint o)
    | _ => none
  | 2, k => match k with
    | 0 => (ITy.ofCode (m.extractLsb' 0 3)).bind fun t => some (.iadd o t (m.getLsbD 5))
    | 1 => (ITy.ofCode (m.extractLsb' 0 3)).bind fun t => some (.isub o t (m.getLsbD 5))
    | 2 => (ITy.ofCode (m.extractLsb' 0 3)).bind fun t => some (.iaddc o t)
    | 3 => (ITy.ofCode (m.extractLsb' 0 3)).bind fun t => some (.isubb o t)
    | 4 => (ITy.ofCode (m.extractLsb' 0 3)).bind fun t => some (.ineg o t (m.getLsbD 5))
    | 5 => (ITy.ofCode (m.extractLsb' 0 3)).bind fun t => some (.iabs o t (m.getLsbD 5))
    | 6 => (ITy.ofCode (m.extractLsb' 0 3)).bind fun t => some (.imin o t)
    | 7 => (ITy.ofCode (m.extractLsb' 0 3)).bind fun t => some (.imax o t)
    | 8 => (ITy.ofCode (m.extractLsb' 0 3)).bind fun t => some (.and o t)
    | 9 => (ITy.ofCode (m.extractLsb' 0 3)).bind fun t => some (.or o t)
    | 10 => (ITy.ofCode (m.extractLsb' 0 3)).bind fun t => some (.xor o t)
    | 11 => (ITy.ofCode (m.extractLsb' 0 3)).bind fun t => some (.andn o t)
    | 12 => (ITy.ofCode (m.extractLsb' 0 3)).bind fun t => some (.not o t)
    | 13 => (ITy.ofCode (m.extractLsb' 0 3)).bind fun t => some (.shl o t)
    | 14 => (ITy.ofCode (m.extractLsb' 0 3)).bind fun t => some (.shr o t)
    | 15 => (ITy.ofCode (m.extractLsb' 0 3)).bind fun t => some (.sar o t)
    | 16 => (ITy.ofCode (m.extractLsb' 0 3)).bind fun t => some (.rol o t)
    | 17 => (ITy.ofCode (m.extractLsb' 0 3)).bind fun t => (Cmp.ofCode (m.extractLsb' 3 3)).bind fun c => some (.iset o t c)
    | _ => none
  | 3, k => match k with
    | 0 => (ITy.ofCode (m.extractLsb' 0 3)).bind fun t => some (.imul o t)
    | 1 => (ITy.ofCode (m.extractLsb' 0 3)).bind fun t => some (.imulh o t)
    | 2 => (ITy.ofCode (m.extractLsb' 0 3)).bind fun t => some (.imad o t)
    | 3 => (ITy.ofCode (m.extractLsb' 0 3)).bind fun t => some (.imadw o t)
    | 4 => (ITy.ofCode (m.extractLsb' 0 3)).bind fun t => some (.idiv o t)
    | 5 => (ITy.ofCode (m.extractLsb' 0 3)).bind fun t => some (.irem o t)
    | _ => none
  | 4, k => match k with
    | 0 => (ITy.ofCode (m.extractLsb' 0 3)).bind fun t => some (.popc o t)
    | 1 => (ITy.ofCode (m.extractLsb' 0 3)).bind fun t => some (.clz o t)
    | 2 => (ITy.ofCode (m.extractLsb' 0 3)).bind fun t => some (.ctz o t)
    | 3 => (ITy.ofCode (m.extractLsb' 0 3)).bind fun t => some (.brev o t)
    | 4 => (ITy.ofCode (m.extractLsb' 0 3)).bind fun t => some (.bfe o t)
    | 5 => (ITy.ofCode (m.extractLsb' 0 3)).bind fun t => some (.bfi o t)
    | 6 => (ITy.ofCode (m.extractLsb' 0 3)).bind fun t => some (.fshl o t)
    | 7 => (ITy.ofCode (m.extractLsb' 0 3)).bind fun t => some (.fshr o t)
    | 8 => (ITy.ofCode (m.extractLsb' 0 3)).bind fun t => some (.bperm o t)
    | _ => none
  | 5, k => match k with
    | 0 => some (.lea o (m.extractLsb' 3 3))
    | 1 => some (.iadd64 o)
    | 2 => some (.isub64 o)
    | 3 => (Cmp.ofCode (m.extractLsb' 3 3)).bind fun c => some (.iset64 o c (m.getLsbD 0))
    | _ => none
  | 6, k => match k with
    | 0 => some (.mov o (m.getLsbD 0))
    | 1 => some (.movi o (m.getLsbD 0))
    | 2 => some (.sel o (m.getLsbD 0))
    | 3 => some (.smov o (m.getLsbD 0))
    | 4 => some (.ftst o (m.getLsbD 0))
    | _ => none
  | 7, k => match k with
    | 0 => some (.plop o (m.extractLsb' 0 4))
    | 1 => some (.pset o (m.getLsbD 0))
    | 2 => some (.pmov o)
    | _ => none
  | 8, k => match k with
    | 0 => (Rm.ofCode (m.extractLsb' 0 3)).bind fun r => some (.fadd o r)
    | 1 => (Rm.ofCode (m.extractLsb' 0 3)).bind fun r => some (.fsub o r)
    | 2 => (Rm.ofCode (m.extractLsb' 0 3)).bind fun r => some (.fmul o r)
    | 3 => (Rm.ofCode (m.extractLsb' 0 3)).bind fun r => some (.fmac o r)
    | 4 => some (.fmin o)
    | 5 => some (.fmax o)
    | 6 => (Cmp.ofCode (m.extractLsb' 0 3)).bind fun c => some (.fset o c)
    | 7 => some (.fclass o)
    | 8 => (Rm.ofCode (m.extractLsb' 0 3)).bind fun r => some (.frnd o r)
    | 9 => (Rm.ofCode (m.extractLsb' 0 3)).bind fun r => some (.fscale o r)
    | 10 => some (.fexp o)
    | _ => none
  | 9, k => match k with
    | 0 => (Rm.ofCode (m.extractLsb' 0 3)).bind fun r => some (.dadd o r)
    | 1 => (Rm.ofCode (m.extractLsb' 0 3)).bind fun r => some (.dsub o r)
    | 2 => (Rm.ofCode (m.extractLsb' 0 3)).bind fun r => some (.dmul o r)
    | 3 => (Rm.ofCode (m.extractLsb' 0 3)).bind fun r => some (.dmac o r)
    | 4 => some (.dmin o)
    | 5 => some (.dmax o)
    | 6 => (Cmp.ofCode (m.extractLsb' 0 3)).bind fun c => some (.dset o c)
    | 7 => (Rm.ofCode (m.extractLsb' 0 3)).bind fun r => some (.drnd o r)
    | _ => none
  | 10, k => match k with
    | 0 => (Rm.ofCode (m.extractLsb' 0 3)).bind fun r => some (.hpadd o (m.getLsbD 5) r)
    | 1 => (Rm.ofCode (m.extractLsb' 0 3)).bind fun r => some (.hpmul o (m.getLsbD 5) r)
    | 2 => (Rm.ofCode (m.extractLsb' 0 3)).bind fun r => some (.hpmac o (m.getLsbD 5) r)
    | 3 => some (.hpmin o (m.getLsbD 5))
    | 4 => some (.hpmax o (m.getLsbD 5))
    | 5 => (Cmp.ofCode (m.extractLsb' 0 3)).bind fun c => some (.hpset o (m.getLsbD 5) c)
    | _ => none
  | 11, k => match k with
    | 0 => some (.cvt o)
    | 1 => some (.packq o)
    | 2 => some (.unpq o)
    | _ => none
  | 12, k => match k with
    | 0 => (Rm.ofCode (m.extractLsb' 0 3)).bind fun r => some (.rcp o r)
    | 1 => if m = 0 then some (.rsq o) else none
    | 2 => (Rm.ofCode (m.extractLsb' 0 3)).bind fun r => some (.sqrt o r)
    | 3 => if m = 0 then some (.ex2 o) else none
    | 4 => if m = 0 then some (.lg2 o) else none
    | 5 => if m = 0 then some (.sin o) else none
    | 6 => if m = 0 then some (.cos o) else none
    | 7 => if m = 0 then some (.tanh o) else none
    | 8 => (Rm.ofCode (m.extractLsb' 0 3)).bind fun r => some (.drcp o r)
    | 9 => (Rm.ofCode (m.extractLsb' 0 3)).bind fun r => some (.dsqrt o r)
    | _ => none
  | 13, k => match k with
    | 0 => (Shfl.ofCode (m.extractLsb' 4 2)).bind fun m => some (.shfl o m)
    | 1 => some (.bcst o)
    | 2 => (Vote.ofCode (m.extractLsb' 4 2)).bind fun v => some (.vote o v)
    | 3 => (ScanOp.ofCode (m.extractLsb' 3 3)).bind fun op => (ScanTy.ofCode (m.extractLsb' 0 2)).bind fun t => some (.scan o op (m.getLsbD 2) t)
    | 4 => if m.getLsbD 2 = false then (ScanOp.ofCode (m.extractLsb' 3 3)).bind fun op => (ScanTy.ofCode (m.extractLsb' 0 2)).bind fun t => some (.red o op t) else none
    | 5 => some (.cnfl o)
    | 6 => some (.lmatch o)
    | 7 => some (.cmpr o)
    | 8 => some (.xpnd o)
    | _ => none
  | 14, k => match k with
    | 0 => some (.lacz o)
    | 1 => (LacFmt.ofCode (m.extractLsb' 4 2)).bind fun f => some (.laca o f)
    | 2 => (LacrFmt.ofCode (m.extractLsb' 4 2)).bind fun f => (Rm.ofCode (m.extractLsb' 0 3)).bind fun r => some (.lacr o f r)
    | _ => none
  | 16, k => match k with
    | 0 => (MSize.ofCode (m.extractLsb' 3 3)).bind fun z => (MOrd.ofCode (m.extractLsb' 1 2)).bind fun r => some (.ld o z r)
    | 1 => if m.extractLsb' 1 2 = 0 then (MSize.ofCode (m.extractLsb' 3 3)).bind fun z => some (.ldk o z) else none
    | 2 => (MSize.ofCode (m.extractLsb' 3 3)).bind fun z => (MOrd.ofCode (m.extractLsb' 1 2)).bind fun r => some (.ldb o z r)
    | 3 => if m.extractLsb' 1 2 = 0 then (MSize.ofCode (m.extractLsb' 3 3)).bind fun z => some (.ldbc o z) else none
    | 4 => if m = 0 then some (.pfch o) else none
    | _ => none
  | 17, k => match k with
    | 0 => (MSize.ofCode (m.extractLsb' 3 3)).bind fun z => (MOrd.ofCode (m.extractLsb' 1 2)).bind fun r => some (.st o z r)
    | 1 => (MSize.ofCode (m.extractLsb' 3 3)).bind fun z => (MOrd.ofCode (m.extractLsb' 1 2)).bind fun r => some (.stb o z r)
    | 2 => (MSize.ofCode (m.extractLsb' 3 3)).bind fun z => (MOrd.ofCode (m.extractLsb' 1 2)).bind fun r => some (.str o z r)
    | 3 => (MSize.ofCode (m.extractLsb' 3 3)).bind fun z => (MOrd.ofCode (m.extractLsb' 1 2)).bind fun r => some (.sts o z r)
    | _ => none
  | 18, k => match k with
    | 0 => (AOrd.ofCode (m.extractLsb' 0 2)).bind fun r => some (.atom o (m.extractLsb' 2 4) r)
    | 1 => (AOrd.ofCode (m.extractLsb' 0 2)).bind fun r => some (.atb o (m.extractLsb' 2 4) r)
    | 2 => (AOrd.ofCode (m.extractLsb' 0 2)).bind fun r => some (.atr o (m.extractLsb' 2 4) r)
    | 3 => if m.extractLsb' 2 4 = 0 then (AOrd.ofCode (m.extractLsb' 0 2)).bind fun r => some (.cas128 o r) else none
    | _ => none
  | 19, k => match k with
    | 0 => (Scope.ofCode (m.extractLsb' 4 2)).bind fun sc => some (.fnc o sc)
    | _ => none
  | 20, k => match k with
    | 0 => if m.extractLsb' 4 2 = 0 then (Swz.ofCode (m.extractLsb' 1 3)).bind fun w => some (.cpy o w) else none
    | 1 => (Bound.ofCode (m.extractLsb' 4 2)).bind fun bm => (Swz.ofCode (m.extractLsb' 1 3)).bind fun w => some (.cpyg o bm w)
    | 2 => (Bound.ofCode (m.extractLsb' 4 2)).bind fun bm => (Swz.ofCode (m.extractLsb' 1 3)).bind fun w => some (.cpys o bm w)
    | 3 => (Bound.ofCode (m.extractLsb' 4 2)).bind fun bm => (Swz.ofCode (m.extractLsb' 1 3)).bind fun w => some (.cpyq o bm w)
    | 4 => some (.cpyr o)
    | 5 => some (.cpyx o)
    | _ => none
  | 21, k => match k with
    | 0 => some (.jload o)
    | 1 => some (.jstart o)
    | 2 => some (.jstop o)
    | 3 => some (.jpop o)
    | _ => none
  | 22, k => match k with
    | 0 => some (.bar o)
    | 1 => some (.bbinit o)
    | 2 => some (.bbarv o)
    | 3 => some (.bbwait o (m.getLsbD 0))
    | 4 => (TSet.ofCode (m.extractLsb' 4 2)).bind fun set => some (.tbar o set)
    | 5 => some (.gbar o)
    | _ => none
  | 23, k => match k with
    | 0 => some (.send o (m.getLsbD 0))
    | 1 => some (.mbclr o)
    | _ => none
  | 24, k => match k with
    | 0 => some (.waita o)
    | 1 => some (.wake o)
    | _ => none
  | 25, k => match k with
    | 0 => some (.sqpush o (m.getLsbD 0))
    | 1 => some (.sqpop o (m.getLsbD 0))
    | 2 => some (.sqstat o)
    | 3 => some (.cqpop o (m.getLsbD 0))
    | _ => none
  | 26, k => match k with
    | 0 => some (.launch o)
    | 1 => some (.rfork o)
    | 2 => some (.join o)
    | _ => none
  | 27, k => match k with
    | 0 => some (.racq o)
    | 1 => some (.rrel o)
    | 2 => some (.rsetw o)
    | 3 => some (.rotb o)
    | _ => none
  | 28, k => match k with
    | 0 => some (.trav o)
    | 1 => some (.travx o)
    | _ => none
  | 29, k => match k with
    | 0 => some (.mma o (m.getLsbD 5) (m.getLsbD 0))
    | 1 => (Outer.ofCode (m.extractLsb' 3 2)).bind fun out => some (.mmas o (m.getLsbD 5) out (m.getLsbD 2) (m.getLsbD 0))
    | 2 => some (.mmal o (m.getLsbD 5) (m.getLsbD 1) (m.getLsbD 0))
    | _ => none
  | 30, k => match k with
    | 0 => some (.macz o)
    | 1 => (TileFmt.ofCode (m.extractLsb' 4 2)).bind fun f => some (.macw o f)
    | 2 => (TileFmt.ofCode (m.extractLsb' 4 2)).bind fun f => (Rm.ofCode (m.extractLsb' 0 3)).bind fun r => some (.macr o f r)
    | 3 => some (.zflg o)
    | _ => none
  | 31, k => match k with
    | 0 => some (.lxld o)
    | 1 => some (.lxinv o)
    | _ => none
  | _, _ => none

/-! ### Operands accepted in each position -/

/-- What a source position accepts; the letters are those of R94 and R151. -/
inductive Acc where
  /-- V: a vector name that is a multiple of `al` (R49). -/
  | v (al : Nat)
  /-- S: a scalar, mailbox, predicate-mask, `.TAKE` or special name (R50, R51). -/
  | s
  /-- S in a position of `al` registers: a scalar name that is a multiple of `al` (R49). -/
  | sp (al : Nat)
  /-- I: an immediate (R52). -/
  | i
  /-- N: no operand. -/
  | n
  /-- P, M: a predicate as a mask, names 144-191. -/
  | p
  /-- T: a tile, names 136-139. -/
  | t
  /-- A long accumulator, names 140-143. -/
  | la
  /-- X: a special register (R51). -/
  | x
  /-- A mailbox, names 128-135. -/
  | mb
  deriving DecidableEq, Repr

/-- What a destination position accepts. -/
inductive Dst where
  /-- A vector name that is a multiple of `al`. -/
  | v (al : Nat)
  /-- A scalar name that is a multiple of `al`, or for `al` = 1 a mailbox; `noV`: only without a V source (R95);
  `mask`: also a predicate mask (R95). -/
  | s (al : Nat) (noV mask : Bool)
  /-- A predicate 0-47 (R54). -/
  | p
  /-- No destination. -/
  | n
  | t
  /-- A predicate mask, names 144-191. -/
  | m
  | la
  | x
  /-- Scalar store data of `al` registers; one register is any name that a source may have (R297, R50). -/
  | data (al : Nat)
  deriving DecidableEq, Repr

/-- The destination class of a position (R54). -/
def Dst.cls : Dst → DCls
  | .v _ => .vec | .p => .pred | .n => .none | .s _ _ _ => .sca | .t => .sca | .m => .sca | .la => .sca
  | .x => .sca | .data _ => .sca

/-- The special registers of R51. -/
def isSpecial (n : Nat) : Bool := (decide (256 ≤ n) && decide (n ≤ 278)) || (decide (288 ≤ n) && decide (n ≤ 291))

/-- The class 01 names that any S source accepts (R50). -/
def isSourceName (n : Nat) : Bool :=
  decide (n < 136) || (decide (144 ≤ n) && decide (n < 200)) || isSpecial n

/-- Whether a source of class `c` and name `n` is accepted (R49, R50, R94). -/
def Acc.ok (acc : Acc) (c : Cls) (n : Nat) : Bool :=
  match acc with
  | .v al => c == .vec && n % al == 0
  | .s => c == .sca && isSourceName n
  | .sp al => c == .sca && decide (n < 128) && n % al == 0
  | .i => c == .imm
  | .n => c == .none
  | .p => c == .sca && decide (144 ≤ n) && decide (n < 192)
  | .t => c == .sca && decide (136 ≤ n) && decide (n < 140)
  | .la => c == .sca && decide (140 ≤ n) && decide (n < 144)
  | .x => c == .sca && isSpecial n
  | .mb => c == .sca && decide (128 ≤ n) && decide (n < 136)

/-- Whether a destination of class `c` and name `n` is accepted (R50, R54, R95); `anyV`: some source is of class V. -/
def Dst.ok (acc : Dst) (c : DCls) (n : Nat) (anyV : Bool) : Bool :=
  match acc with
  | .v al => c == .vec && n % al == 0
  | .s al noV mask => c == .sca && !(noV && anyV) &&
      ((decide (n < 128) && n % al == 0) || (al == 1 && decide (128 ≤ n) && decide (n < 136)) ||
        (mask && decide (144 ≤ n) && decide (n < 192)))
  | .p => c == .pred && decide (n < 48)
  | .n => c == .none
  | .t => c == .sca && decide (136 ≤ n) && decide (n < 140)
  | .m => c == .sca && decide (144 ≤ n) && decide (n < 192)
  | .la => c == .sca && decide (140 ≤ n) && decide (n < 144)
  | .x => c == .sca && isSpecial n
  | .data al => c == .sca && ((decide (n < 128) && n % al == 0) || (al == 1 && isSourceName n))

/-- The operands of one form: the first `d` is the default; `xm` are the XM bits the form defines; `imm`: IMM has a
use of its own (R54). -/
structure Sig where
  d : List Dst
  a : List Acc := [.n]
  b : List Acc := [.n]
  c : List Acc := [.n]
  xm : BitVec 16 := 0
  imm : Bool := false
  deriving DecidableEq, Repr

def accVS : List Acc := [.v 1, .s]
def accVSI : List Acc := [.v 1, .s, .i]
def accSI : List Acc := [.s, .i]
def accSIN : List Acc := [.s, .i, .n]
def accPair : List Acc := [.v 2, .sp 2]
def accPairI : List Acc := [.v 2, .sp 2, .i]
def dstVS : List Dst := [.v 1, .s 1 true false]
def dstPair : List Dst := [.v 2, .s 2 true false]
def dstNone : List Dst := [.n]

/-- Registers of an access size (R293). -/
def sizeRegs : MSize → Nat
  | .b64 => 2 | .b128 => 4 | _ => 1

/-- Whether a form of the LOAD or STORE major has scope bits (R292): its order is neither plain nor `.VOL`. For stores, of which R297
says nothing, this is the model's reading (log entry 88). -/
def scopeBits (m : BitVec 6) : BitVec 16 :=
  if m.extractLsb' 1 2 = 0 ∨ m.extractLsb' 1 2 = 2 then 0 else 0xC000

/-- The address XM bits of LOAD and STORE (R287): `.RMT`, `.PIN`, `.CHK`, `SC`. -/
def addrXm : BitVec 16 := 0x300F

/-- The operands of every form by major, minor, modifiers and extended modifiers (R101-R131, R151, R286-R316,
R371, R442). R119 gives its operands no class table: A of `PACKQ` is vector, its B and C and A of `CVT` and `UNPQ` are vector, scalar or
immediate (log entry 93). -/
def sigOf (m : BitVec 6) (xm : BitVec 16) : Nat → Nat → Sig
  | 0, k => match k with
    | 3 => { d := dstNone, a := accSI }
    | 5 => { d := [.s 2 false false, .v 2], a := [.x] }
    | 6 => { d := [.x], a := [.sp 2, .i] }
    | 7 => { d := [.x], a := [.sp 2] }
    | 8 => { d := dstNone, a := accSI }
    | 10 => { d := dstNone, a := accSI }
    | 11 => { d := dstNone, a := [.i], b := accSI }
    | _ => { d := dstNone }
  | 1, k => match k with
    | 1 => { d := dstNone, a := accPair }
    | 3 => { d := dstNone, a := accPair }
    | 4 => { d := dstNone }
    | 5 => { d := dstNone, a := [.p], b := [.i] }
    | _ => { d := dstNone, a := [.i] }
  | 2, k => match k with
    | 2 => { d := dstVS, a := accVSI, b := accVSI, c := [.p] }
    | 3 => { d := dstVS, a := accVSI, b := accVSI, c := [.p] }
    | 4 => { d := dstVS, a := accVSI }
    | 5 => { d := dstVS, a := accVSI }
    | 8 => { d := [.v 1, .s 1 true true], a := accVSI, b := accVSI }
    | 9 => { d := [.v 1, .s 1 true true], a := accVSI, b := accVSI }
    | 10 => { d := [.v 1, .s 1 true true], a := accVSI, b := accVSI }
    | 11 => { d := [.v 1, .s 1 true true], a := accVSI, b := accVSI }
    | 12 => { d := [.v 1, .s 1 true true], a := accVSI }
    | 17 => { d := [.v 1, .s 1 true false, .p], a := accVSI, b := accVSI }
    | _ => { d := dstVS, a := accVSI, b := accVSI }
  | 3, k => match k with
    | 2 => { d := dstVS, a := accVSI, b := accVSI, c := accVSI }
    | 3 => { d := dstPair, a := accVSI, b := accVSI, c := accPairI }
    | _ => { d := dstVS, a := accVSI, b := accVSI }
  | 4, k => match k with
    | 0 => { d := dstVS, a := accVSI }
    | 1 => { d := dstVS, a := accVSI }
    | 2 => { d := dstVS, a := accVSI }
    | 3 => { d := dstVS, a := accVSI }
    | 4 => { d := dstVS, a := accVSI, b := accVSI }
    | _ => { d := dstVS, a := accVSI, b := accVSI, c := accVSI }
  | 5, k => match k with
    | 0 => { d := dstPair, a := accPair, b := accVSI }
    | 3 => { d := [.v 1, .s 1 true false, .p], a := accPair, b := accPairI }
    | _ => { d := dstPair, a := accPair, b := accPairI }
  | 6, k => let pr := m.getLsbD 0
    match k with
    | 0 => if pr then { d := dstPair, a := accPairI } else { d := [.v 1, .s 1 true true], a := accVSI }
    | 1 => if pr then { d := [.v 2], a := [.sp 2, .i], b := [.sp 2, .i] }
      else { d := [.v 1], a := accSI, b := accSI }
    | 2 => if pr then { d := dstPair, a := accPairI, b := accPairI, c := [.p] }
      else { d := dstVS, a := accVSI, b := accVSI, c := [.p] }
    | 3 => if pr then { d := [.s 2 false false], a := [.v 2], b := accSI }
      else { d := [.s 1 false false], a := [.v 1], b := accSI }
    | _ => if pr then { d := [.p], a := accPair } else { d := [.p], a := accVS }
  | 7, k => match k with
    | 0 => { d := [.p], a := [.p], b := [.p] }
    | 1 => { d := [.p] }
    | _ => { d := [.p], a := accVSI }
  | 8, k => match k with
    | 3 => { d := dstVS, a := accVSI, b := accVSI, c := accVSI }
    | 6 => { d := [.v 1, .s 1 true false, .p], a := accVSI, b := accVSI }
    | 7 => { d := dstVS, a := accVSI }
    | 8 => { d := dstVS, a := accVSI }
    | 10 => { d := dstVS, a := accVSI }
    | _ => { d := dstVS, a := accVSI, b := accVSI }
  | 9, k => match k with
    | 3 => { d := dstPair, a := accPairI, b := accPairI, c := accPairI }
    | 6 => { d := [.v 1, .s 1 true false, .p], a := accPairI, b := accPairI }
    | 7 => { d := dstPair, a := accPairI }
    | _ => { d := dstPair, a := accPairI, b := accPairI }
  | 10, k => match k with
    | 2 => { d := dstVS, a := accVSI, b := accVSI, c := accVSI }
    | _ => { d := dstVS, a := accVSI, b := accVSI }
  | 11, k => match k with
    | 0 => { d := [.v 1], a := accVSI, c := [.v 1, .s, .i, .n], xm := 0xFFF3 }
    | 1 => { d := [.v 1], a := [.v 1], b := accVSI, c := accVSI, xm := 0xFFFC }
    | _ => { d := [.v 1], a := accVSI, b := accVSI, c := accVSI, xm := 0xFFFC }
  | 12, k => match k with
    | 8 => { d := dstPair, a := accPairI }
    | 9 => { d := dstPair, a := accPairI }
    | _ => { d := dstVS, a := accVSI }
  | 13, k => match k with
    | 0 => { d := [.v 1], a := [.v 1], b := accVSI }
    | 1 => { d := [.v 1], a := [.v 1], b := accSIN }
    | 2 => { d := [.s 1 false false, .v 1, .p], a := [.v 1, .p] }
    | 4 => { d := [.s 1 false false, .v 1], a := accVS }
    | 7 => { d := [.v 1], a := [.v 1], b := [.p] }
    | 8 => { d := [.v 1], a := [.v 1], b := [.p] }
    | _ => { d := [.v 1], a := [.v 1] }
  | 14, k => match k with
    | 0 => { d := [.la] }
    | 1 => { d := [.la], a := accVS, b := accVS }
    | _ => let al := if m.extractLsb' 4 2 = 3 then 2 else 1
      { d := [.v al, .s al true false], a := [.la] }
  | 16, k => let al := match MSize.ofCode (m.extractLsb' 3 3) with | some z => sizeRegs z | none => 1
    match k with
    | 0 => { d := [.v al], a := [.v 2, .sp 2, .n], b := [.v 1, .n], xm := addrXm ||| scopeBits m, imm := true }
    | 1 => { d := [.v al, .s al false false], a := [.sp 2, .n], xm := addrXm ||| scopeBits m, imm := true }
    | 2 => { d := [.v al], a := [.v 1, .s, .n], b := [.v 1, .n], xm := addrXm ||| scopeBits m, imm := true }
    | 3 => { d := [.s al false false, .v al], a := [.s, .n], xm := addrXm ||| scopeBits m, imm := true }
    | _ => { d := if xm.getLsbD 12 then [.n, .p] else [.n], a := [.v 2, .sp 2, .n], b := [.v 1, .n],
             xm := addrXm ||| scopeBits m, imm := true }
  | 17, k => let al := match MSize.ofCode (m.extractLsb' 3 3) with | some z => sizeRegs z | none => 1
    match k with
    | 0 => { d := [.v al, .data al], a := [.v 2, .sp 2, .n], b := [.v 1, .n], xm := addrXm ||| scopeBits m,
             imm := true }
    | 3 => { d := [.data al], a := [.sp 2, .n], xm := addrXm ||| scopeBits m, imm := true }
    | _ => { d := [.v al, .data al], a := [.v 1, .s, .n], b := [.v 1, .n], xm := addrXm ||| scopeBits m,
             imm := true }
  | 18, k => let w := if xm.getLsbD 4 then 2 else 1
    let base : List Acc := if k = 0 ∨ k = 3 then [.v 2, .sp 2, .n] else [.v 1, .s, .n]
    if k = 3 then { d := [.v 4], a := base, b := [.v 1, .n], c := [.v 8], xm := 0xF00F, imm := true }
    else
      { d := [.v w, .n], a := base, b := [.v 1, .n],
        c := if m.extractLsb' 2 4 = 15 then [.v (2 * w), .sp (2 * w)]
          else if w = 2 then accPairI else accVSI,
        xm := 0xF01F, imm := true }
  | 19, _ => { d := dstNone, xm := 0xFC00 }
  | 20, k => match k with
    | 0 => { d := dstNone, a := accPair, b := accVSI, c := accVSI, xm := 1 }
    | 1 => { d := dstNone, a := accPair, b := accVSI, c := accVSI }
    | 2 => { d := dstNone, a := accPair, b := accVSI, c := accVSI }
    | _ => { d := dstNone, b := accVSI }
  | 21, k => match k with
    | 0 => { d := dstNone, a := [.sp 2], b := accSI }
    | 1 => { d := dstNone, a := accSI, b := accSIN, c := accSIN }
    | 2 => { d := dstNone }
    | _ => { d := [.v 1, .p], a := [.i] }
  | 22, k => match k with
    | 0 => { d := dstNone, a := accSI }
    | 1 => { d := dstNone, a := accSI, b := accSI, c := accSI }
    | 2 => { d := [.n, .s 1 false false], a := accSI, b := accSI }
    | 5 => { d := [.n, .s 8 false false], a := accSI, b := accSIN }
    | _ => { d := dstNone, a := accSI, b := accSI }
  | 23, k => match k with
    | 0 => { d := [.n, .v 1], a := accVSI, b := accVSI, xm := 0xC000 }
    | _ => { d := dstNone, a := [.mb] }
  | 24, k => match k with
    | 0 => { d := [.s 1 false false, .v 1], a := [.sp 2], b := accSI, xm := 0x001F }
    | _ => { d := dstNone, a := [.sp 2] }
  | 25, k => match k with
    | 0 => { d := dstNone, a := [.v 1], b := accSI, xm := if m.getLsbD 0 then 0x3F else 0 }
    | 1 => { d := [.v 1], a := accSI, xm := if m.getLsbD 0 then 0x3F else 0 }
    | 2 => { d := [.s 2 false false], a := accSI }
    | _ => if m.getLsbD 0 then { d := [.v 4], a := accSI, b := accSI, c := accSIN, xm := 0x3F }
      else { d := [.v 4], a := accSI, xm := 0x3F }
  | 26, k => match k with
    | 0 => { d := dstNone, a := [.sp 2], b := [.sp 2, .n] }
    | 1 => { d := [.s 4 false false], a := [.sp 2], b := accSI, c := accSI }
    | _ => { d := dstNone, a := [.sp 2], b := [.i] }
  | 27, k => match k with
    | 0 => { d := [.n, .s 1 false false], a := accSI }
    | _ => { d := dstNone, a := accSI }
  | 28, k => match k with
    | 0 => { d := dstNone, a := [.v 1], b := [.s], c := accVSI, xm := 7 }
    | _ => { d := dstNone, a := accVSI, b := [.v 1, .s, .i, .n] }
  | 29, k => match k with
    | 2 => { d := [.t], a := [.v 8], b := accSI, c := accSIN }
    | _ => { d := [.t], a := [.v 8], b := [.v 8], c := if m.getLsbD 0 then [.p] else [.n] }
  | 30, k => match k with
    | 0 => { d := [.t] }
    | 1 => { d := [.t], a := [.v 8] }
    | 2 => { d := [.v 8], a := [.t] }
    | _ => { d := [.m], a := [.v 8], b := accSI }
  | 31, k => match k with
    | 0 => { d := dstNone, a := accSI, b := accSI, c := accSI }
    | _ => { d := dstNone }
  | _, _ => { d := dstNone }

/-- The class of C: a third source with `L` = 0 reads as class 11 (R54). -/
def Opnds.cc (o : Opnds) : Cls := match o.ext with | some e => e.cc | none => .none
/-- The name of C. -/
def Opnds.c (o : Opnds) : BitVec 11 := match o.ext with | some e => e.c | none => 0
/-- The empty policy of C. -/
def Opnds.ec (o : Opnds) : Bool := match o.ext with | some e => e.ec | none => false
/-- The extended modifiers, 0 with `L` = 0. -/
def Opnds.xm (o : Opnds) : BitVec 16 := match o.ext with | some e => e.xm | none => 0
/-- The 32-bit immediate. -/
def Opnds.imm (o : Opnds) : Word := match o.ext with | some e => e.imm | none => 0

/-- The destination class: `CD`, or with `L` = 0 the form's default (R54). -/
def Opnds.dcls (o : Opnds) (s : Sig) : DCls :=
  match o.ext with
  | some e => e.cd
  | none => match s.d with | d :: _ => d.cls | [] => .none

/-- Whether the empty policy and the name of one operand respect its class (R49). -/
def fieldOk (c : Cls) (name : BitVec 11) (ep : Bool) : Bool :=
  match c with
  | .none => name == 0 && !ep
  | .imm => !ep
  | _ => true

/-- Whether an operand of class 10 reads IMM (R52). -/
def readsImm (c : Cls) (name : BitVec 11) : Bool := c == .imm && name == 0

/-- The forms that take a predicate mask as C with `.ZSKIP`: one without it is ILLEGAL_OPERAND (R151). -/
def zskipForm (maj minor : Nat) : Bool := maj == 29 && decide (minor < 2)

/-- The RESERVED_FIELD checks of R47, R49, R54, R57, R58, R111, R287 and R370. A reserved minor is held against the
fields that every form has; its own fields are undefined. -/
def reservedOk (maj minor : Nat) (m : BitVec 6) (o : Opnds) : Bool :=
  !(decide (48 ≤ o.prd.toNat) && o.prd != 63) && !(o.pn && o.prd == 63) &&
  fieldOk o.ca o.a o.ea && fieldOk o.cb o.b o.eb && (o.ext.isNone || fieldOk o.cc o.c o.ec) &&
  match modBits maj minor with
  | none => true
  | some mb =>
    let s := sigOf m o.xm maj minor
    (m &&& ~~~mb) == 0 && (o.xm &&& ~~~s.xm) == 0 &&
    !(o.dcls s == .none && o.d != 0) &&
    !(s.c == [Acc.n] && o.cc != .none && (o.c != 0 || o.ec) && !(zskipForm maj minor && Acc.p.ok o.cc o.c.toNat)) &&
    (o.imm == 0 || s.imm || s.a != [Acc.n] && readsImm o.ca o.a || s.b != [Acc.n] && readsImm o.cb o.b ||
      s.c != [Acc.n] && readsImm o.cc o.c) &&
    !(maj == 6 && minor == 4 && o.ea)

/-- Whether the forms of the integer type take one element a lane. -/
def ITy.is32 : ITy → Bool
  | .b32 => true | .si32 => true | .ui32 => true | _ => false

/-- Whether the XM formats and rounding code of a CONV word are defined (R58, R61); `L` = 0 is no CONV form. `.SAT` of `PACKQ` and
`UNPQ` is accepted and changes nothing (log entry 88). -/
def convOk (o : Opnds) : Bool :=
  o.ext.isSome && o.xm.extractLsb' 12 4 != 15 && o.xm.extractLsb' 8 4 != 15 && decide ((o.xm.extractLsb' 5 3).toNat ≤ 4)

/-- `SC` of an extension word is 0-4 (R287). -/
def scOk (o : Opnds) : Bool := decide ((o.xm.extractLsb' 0 3).toNat ≤ 4)

/-- `.PIN` is of `PFCH` only, `.RMT` of acquire forms at DEVICE scope on `LD`, `ATOM` and `CAS128` (R251, R287,
R301). Elsewhere, stores among them, their bits are ILLEGAL_FUNCTION (log entry 88). -/
def rmtPinOk (o : Opnds) (rmt pin : Bool) : Bool :=
  (!o.xm.getLsbD 13 || (rmt && o.xm.extractLsb' 14 2 == 2)) && (!o.xm.getLsbD 12 || pin)

/-- A store has no signed size (R297). -/
def storeOk (o : Opnds) (z : MSize) : Bool := z != .s8 && z != .s16 && scOk o && rmtPinOk o false false

def AOrd.isAcq : AOrd → Bool
  | .acq => true | .ar => true | _ => false
def AOrd.isRel : AOrd → Bool
  | .rel => true | .ar => true | _ => false

/-- The ILLEGAL_FUNCTION checks that a decoded modifier or extended modifier can still fail (R98, R103-R107, R109,
R117, R129, R160, R251, R287, R292-R304, R370, R393, R396). -/
def functionOk : Instr → Bool
  | .iadd _ t sat => !(sat && t == .b32)
  | .isub _ t sat => !(sat && t == .b32)
  | .ineg _ t sat => !(sat && t == .b32)
  | .iabs _ t sat => !(sat && t == .b32)
  | .iaddc _ t => t.is32
  | .isubb _ t => t.is32
  | .iset _ _ c => c != .un && c != .ord
  | .imadw _ t => t.is32
  | .bfe _ t => t.is32
  | .bfi _ t => t.is32
  | .fshl _ t => t.is32
  | .fshr _ t => t.is32
  | .bperm _ t => t.is32
  | .lea _ k => decide (k.toNat ≤ 4)
  | .iset64 _ c _ => c != .un && c != .ord
  | .cvt o => convOk o
  | .packq o => convOk o
  | .unpq o => convOk o
  | .scan _ op _ t => !(t == .f32 && (op == .and || op == .or || op == .xor))
  | .red _ op t => !(t == .f32 && (op == .and || op == .or || op == .xor))
  | .ld o _ r => scOk o && rmtPinOk o (r == .sync) false
  | .ldk o _ => scOk o && rmtPinOk o false false
  | .ldb o _ _ => scOk o && rmtPinOk o false false
  | .ldbc o _ => scOk o && rmtPinOk o false false
  | .pfch o => scOk o && rmtPinOk o false true
  | .st o z _ => storeOk o z
  | .stb o z _ => storeOk o z
  | .str o z _ => storeOk o z
  | .sts o z _ => storeOk o z
  | .atom o _ r => scOk o && rmtPinOk o r.isAcq false
  | .atb o _ _ => scOk o && rmtPinOk o false false
  | .atr o _ _ => scOk o && rmtPinOk o false false
  | .cas128 o r => scOk o && rmtPinOk o r.isAcq false
  | .fnc o _ => o.ext.isNone || o.xm.extractLsb' 10 6 != 0
  | .send o dev => o.ext.isNone || o.xm.extractLsb' 14 2 == (if dev then 2 else 1)
  | .waita o => decide ((o.xm.extractLsb' 0 3).toNat ≤ 5)
  | .sqpush o nb => !nb || o.ext.isSome
  | .sqpop o nb => !nb || o.ext.isSome
  | .cqpop o _ => o.ext.isSome
  | .mmal _ _ abs k32 => !(abs && k32)
  | _ => true

/-- `FMT` has a format code other than 15 in each field (R61). -/
def fmtCodesOk (fa fb fc fd : BitVec 4) : Bool := fa != 15 && fb != 15 && fc != 15 && fd != 15

/-- A grouped scale or zero point is a vector register or a plain scalar register (R61). -/
def fmtNameOk (name : BitVec 11) (sca : Bool) : Bool := !sca || decide (name.toNat < 128)

/-- B fragments that one `MMAS` spans: 2 for each 2:4 or 1:2 pattern (R143). -/
def spanOf (out : Outer) (inner : Bool) : Nat :=
  (match out with | .dense => 1 | _ => 2) * (if inner then 2 else 1)

/-- The outcome predicate of R370 is 0-47. -/
def outcomeOk (o : Opnds) : Bool := decide ((o.xm.extractLsb' 0 6).toNat < 48)

/-- The ILLEGAL_OPERAND rules of single forms that no class or alignment states (R104, R111, R114, R128, R159, R288,
R316, R370, R371): the operand position at fault (R430). -/
def operandExtra : Instr → Option Nat
  | .iset o t _ => if o.ext.any (·.cd == .pred) && !t.is32 then some 3 else none
  | .ftst o pair => if o.ca == .sca && (decide (192 ≤ o.a.toNat) && decide (o.a.toNat < 200) ||
      pair && decide (128 ≤ o.a.toNat)) then some 0 else none
  | .vote o v => if v == .ballot && o.ext.any (·.cd == .pred) then some 3 else none
  | .ld o _ _ => if o.xm.getLsbD 3 && o.cb == .none then some 1 else none
  | .ldk o _ => if o.xm.getLsbD 3 then some 1 else none
  | .ldb o _ _ => if o.xm.getLsbD 3 && o.cb == .none then some 1 else none
  | .ldbc o _ => if o.xm.getLsbD 3 then some 1 else none
  | .pfch o => if o.xm.getLsbD 3 && o.cb == .none then some 1 else none
  | .st o _ _ => if o.xm.getLsbD 3 && o.cb == .none then some 1 else none
  | .stb o _ _ => if o.xm.getLsbD 3 && o.cb == .none then some 1 else none
  | .str o _ _ => if o.xm.getLsbD 3 && o.cb == .none then some 1 else none
  | .sts o _ _ => if o.xm.getLsbD 3 then some 1 else none
  | .atom o _ _ => if o.xm.getLsbD 3 && o.cb == .none then some 1 else none
  | .atb o _ _ => if o.xm.getLsbD 3 && o.cb == .none then some 1 else none
  | .atr o _ _ => if o.xm.getLsbD 3 && o.cb == .none then some 1 else none
  | .cas128 o _ => if o.xm.getLsbD 3 && o.cb == .none then some 1 else none
  | .jpop o => let v : BitVec 32 := if o.ext.isSome && o.a == 0 then o.imm else o.a.signExtend 32
    if decide (v.toNat ≤ 3) then none else some 0
  | .sqpush o nb => if nb && !outcomeOk o then some 0 else none
  | .sqpop o nb => if nb && !outcomeOk o then some 0 else none
  | .cqpop o _ => if outcomeOk o then none else some 0
  | .rfork o => if decide (o.d.toNat < 4) then some 3 else none
  | .mmas o _ out inner _ =>
    if decide (2047 < o.a.toNat + 8) then some 6
    else if decide (2047 < o.b.toNat + 8 * spanOf out inner - 1) then some 1 else none
  | _ => none

/-- The first operand position that its form does not accept (R430: 0 A, 1 B, 2 C, 3 D). -/
def operandAt (s : Sig) (o : Opnds) : Option Nat :=
  if !s.a.any (·.ok o.ca o.a.toNat) then some 0
  else if !s.b.any (·.ok o.cb o.b.toNat) then some 1
  else if !s.c.any (·.ok o.cc o.c.toNat) then some 2
  else if !s.d.any (·.ok (o.dcls s) o.d.toNat (o.ca == .vec || o.cb == .vec || o.cc == .vec)) then some 3
  else none

/-- The encoding fate of a decoded instruction past RESERVED_FIELD, in the order of R60, with `TRAPC.AUX`. -/
def fateOf (i : Instr) : Option (Cause × Nat) :=
  match i with
  | .fmt fa fb fc fd gs scl sclc zp zpc =>
    if !fmtCodesOk fa fb fc fd then some (.illegalFunction, 0)
    else if gs != 0 && !fmtNameOk scl sclc then some (.illegalOperand, 4)
    else if gs != 0 && !fmtNameOk zp zpc then some (.illegalOperand, 5)
    else none
  | _ =>
    if !functionOk i then some (.illegalFunction, 0)
    else match simtParts i with
      | none => none
      | some (maj, minor, m, o) =>
        match operandAt (sigOf m o.xm maj minor) o with
        | some aux => some (.illegalOperand, aux)
        | none => (operandExtra i).map (fun aux => (.illegalOperand, aux))

/-! ### Register limits of Spindle words (R191, R192) -/

def evenQ (q : BitVec 4) : Bool := !q.getLsbD 0

/-- A walk ALU word under `.W` names pairs (R215). -/
def aluOk (w : Bool) (d a : BitVec 4) (y : QSrc) : Bool :=
  !w || (evenQ d && evenQ a && match y with | .reg b => evenQ b | .imm _ => true)

/-- Words that `LDQ` loads by count code (R219). -/
def ldqCount (n : BitVec 3) : Nat := 2 ^ n.toNat

/-- The checks of R191 and R192 on a Spindle instruction; a word that fails one has the fate of R65. -/
def walkOk : Instr → Bool
  | .nfetch d a f => evenQ a && (decide (f.toNat < 4) || decide (16 ≤ f.toNat)) &&
      !(d == 1 && (f == 0 || f == 3)) && !(d == 0 && a == 0 && f == 0)
  | .nget _ _ sel idx slot b => (idx || b == 0) && (decide (sel.toNat < 8) || (!idx && slot == 0))
  | .ncnt m d _ => !m || decide (d.toNat < 4)
  | .nptr m d _ slot b => evenQ d && (if m then slot == 0 else b == 0)
  | .box8 _ _ b => decide (b.toNat ≤ 4)
  | .ovl8 _ _ _ b => decide (b.toNat ≤ 10)
  | .tri cb cf _ _ b c => !(cb && cf) && decide (b.toNat ≤ 4) && decide (c.toNat ≤ 12)
  | .sphr ray _ _ b => decide (b.toNat ≤ if ray then 4 else 12)
  | .kcmp c _ sel d _ _ => c != .un && c != .ord && (sel || decide (d.toNat < 4))
  | .krng _ _ _ _ b => decide (b.toNat ≤ 14)
  | .dist ty _ _ a b => decide (ty.toNat ≤ 2) &&
      decide (a.toNat ≤ if ty == 0 then 8 else 12) && decide (b.toNat ≤ if ty == 0 then 8 else 12)
  | .kds d _ _ _ => decide (d.toNat ≤ 14)
  | .push pair a => !pair || evenQ a
  | .pop pair d => !pair || evenQ d
  | .topk _ _ _ _ _ k => decide (1 ≤ k.toNat) && decide (k.toNat ≤ 32)
  | .hoff a _ => evenQ a
  | .wadd w d a y => aluOk w d a y
  | .wsub w d a y => aluOk w d a y
  | .wand w d a y => aluOk w d a y
  | .wor w d a y => aluOk w d a y
  | .wxor w d a y => aluOk w d a y
  | .wshl w d a y => aluOk w d a y
  | .wshr w d a y => aluOk w d a y
  | .cmps c ty _ y => (ty == .f32 || (c != .un && c != .ord)) &&
      (match y with | .imm _ => ty != .f32 | .reg _ => true)
  | .movqSpc _ src => decide (src.toNat ≤ 6)
  | .ldq d a _ n => evenQ a && decide (n.toNat ≤ 4) && decide (d.toNat + ldqCount n ≤ 16)
  | _ => true

/-! ### Limits of Jig words (R320, R322) -/

/-- Bits of a Jig width code (R320). -/
def jigWidth (k : BitVec 3) : Nat := 4 * 2 ^ k.toNat

/-- Bits of a plain format of R61; 0 for the codes that `JCVT` does not accept (R320). -/
def jigFmtWidth (f : BitVec 4) : Nat :=
  match f.toNat with
  | 1 => 32 | 2 => 16 | 3 => 16 | 4 => 8 | 5 => 8 | 6 => 8 | 7 => 8 | 8 => 4 | 9 => 4 | 12 => 16 | 14 => 32 | _ => 0

/-- The checks of R67, R320 and R322 on a Jig instruction; the limit of `JCVT`'s part is that of R118. -/
def jigOk : Instr → Bool
  | .jlds g d a off => (!g || !a.getLsbD 0) && !(!g && d == 0 && a == 0 && off == 0)
  | .jrld g _ a _ => !g || !a.getLsbD 0
  | .junpk _ _ _ src dst part => decide (dst.toNat ≤ 3) && decide (src.toNat < dst.toNat) &&
      decide (part.toNat < jigWidth dst / jigWidth src)
  | .jpack _ _ _ _ src dst part => decide (src.toNat ≤ 3) && decide (dst.toNat < src.toNat) &&
      decide (part.toNat < jigWidth src / jigWidth dst)
  | .jdelta _ _ _ wid => decide (1 ≤ wid.toNat) && decide (wid.toNat ≤ 3)
  | .jcvt _ _ part _ _ dst src => jigFmtWidth dst != 0 && jigFmtWidth src != 0 &&
      (if jigFmtWidth dst = 32 ∧ jigFmtWidth src = 32 then part == 0
       else decide (part.toNat * 32 < 32 * max (jigFmtWidth dst) (jigFmtWidth src) /
         min (jigFmtWidth dst) (jigFmtWidth src)))
  | .jbr c a _ => decide (c.toNat ≤ 4) && (c != 0 || a == 0)
  | .jwait _ k => decide (1 ≤ k.toNat) && decide (k.toNat ≤ 32)
  | _ => true

end Sys2Proof
end

