-- ==== Sys2Proof/WellFormed.lean ====
section
/-! DEFINITION. Which terms of `Instr` are instructions: those whose words have none of the fates of R59, R65 and
R67. The checks themselves stand in Sys2Proof/Machine/Encoding.lean. -/
namespace Sys2Proof

/-- A SIMT instruction meets the RESERVED_FIELD rules and has no later encoding fate (R59, R60). -/
def simtOk (i : Instr) : Bool :=
  (match simtParts i with
    | some (maj, minor, m, o) => reservedOk maj minor m o
    | none => true) && (fateOf i).isNone

/-- An instruction of any stream that is not one of the `NON_INSTRUCTION_WORD`s. -/
def wellFormed (i : Instr) : Bool :=
  match i with
  | .nonInstructionWord _ _ _ _ => false
  | .walkNonInstructionWord _ => false
  | .jigNonInstructionWord _ => false
  | _ => simtOk i && walkOk i && jigOk i

/-- `wellFormed` as a proposition. -/
abbrev WellFormed (i : Instr) : Prop := wellFormed i = true

end Sys2Proof
end

