-- ==== Sys2Proof/Decode.lean ====
section
/-! DEFINITION. Decoding and encoding of the three instruction streams: SIMT words (R47-R63), Spindle words
(R64-R65, R191-R192, R220) and Jig words (R66-R67, R320). Decoding is total: a word that is no instruction becomes
`nonInstructionWord`, `walkNonInstructionWord` or `jigNonInstructionWord`. -/
namespace Sys2Proof

/-! ### SIMT words -/

/-- The bits [9:0] of `FMT` must be 0 and PRD must be 63 (R61). -/
def fmtReservedOk (w : DWord) : Bool := w.extractLsb' 52 6 == 63 && w.extractLsb' 0 10 == 0

/-- The fields of `FMT` (R61). -/
def fmtOf (w : DWord) : Instr :=
  .fmt (w.extractLsb' 48 4) (w.extractLsb' 44 4) (w.extractLsb' 40 4) (w.extractLsb' 36 4) (w.extractLsb' 34 2)
    (w.extractLsb' 23 11) (w.getLsbD 22) (w.extractLsb' 11 11) (w.getLsbD 10)

def clsOf (b : BitVec 2) : Cls :=
  if b = 0 then .vec else if b = 1 then .sca else if b = 2 then .imm else .none
def dclsOf (b : BitVec 2) : DCls :=
  if b = 0 then .vec else if b = 1 then .sca else if b = 2 then .pred else .none

/-- The extension word (R53). -/
def extOf (x : DWord) : Ext :=
  { imm := x.extractLsb' 32 32, c := x.extractLsb' 21 11, ec := x.getLsbD 20, cc := clsOf (x.extractLsb' 18 2),
    cd := dclsOf (x.extractLsb' 16 2), xm := x.extractLsb' 0 16 }

/-- The operand fields of a base word (R47) and, under `L`, of its extension word. -/
def opndsOf (w x : DWord) : Opnds :=
  { prd := w.extractLsb' 52 6, pn := w.getLsbD 51, d := w.extractLsb' 40 11, a := w.extractLsb' 29 11,
    b := w.extractLsb' 18 11, ea := w.getLsbD 17, eb := w.getLsbD 16, ca := clsOf (w.extractLsb' 13 2),
    cb := clsOf (w.extractLsb' 11 2), ext := if w.getLsbD 15 then some (extOf x) else none }

/-- The major opcode of a base word. -/
def majOf (w : DWord) : Nat := (w.extractLsb' 58 6).toNat
/-- The minor opcode of a base word. -/
def minorOf (w : DWord) : Nat := (w.extractLsb' 6 5).toNat

/-- Majors 0x0F and 0x20-0x3E are reserved (R55). -/
def majReserved (j : Nat) : Bool := j == 15 || (decide (32 ≤ j) && j != 63)

/-- Whether an extension word follows a base word (R47): `FMT` and the words without a layout have none. -/
def hasExt (w : DWord) : Bool := w != 0 && !majReserved (majOf w) && majOf w != 63 && w.getLsbD 15

/-- The instruction of a base word and the word after it, or its fate in the order of R60 (R47-R61). -/
def decodeSimt (w x : DWord) : Instr :=
  let bad := fun (c : Cause) (aux : Nat) => Instr.nonInstructionWord c aux w (if hasExt w then some x else none)
  if w = 0 then bad .zeroWord 0
  else if majReserved (majOf w) then bad .illegalOpcode 0
  else if majOf w = 63 then
    if fmtReservedOk w then
      match fateOf (fmtOf w) with
      | none => fmtOf w
      | some (c, aux) => bad c aux
    else bad .reservedField 0
  else
    let o := opndsOf w x
    let m : BitVec 6 := w.extractLsb' 0 6
    if !reservedOk (majOf w) (minorOf w) m o then bad .reservedField 0
    else match simtOf m o (majOf w) (minorOf w) with
      | none => bad .illegalFunction 0
      | some i => match fateOf i with
        | none => i
        | some (c, aux) => bad c aux

def Cls.code : Cls → BitVec 2
  | .vec => 0 | .sca => 1 | .imm => 2 | .none => 3
def DCls.code : DCls → BitVec 2
  | .vec => 0 | .sca => 1 | .pred => 2 | .none => 3

def b1 (b : Bool) : BitVec 1 := if b then 1 else 0

/-- The extension word of R53. -/
def encodeExt (e : Ext) : DWord := e.imm ++ e.c ++ b1 e.ec ++ e.cc.code ++ e.cd.code ++ e.xm

/-- The base word of R47. -/
def encodeBase (maj minor : Nat) (m : BitVec 6) (o : Opnds) : DWord :=
  BitVec.ofNat 6 maj ++ o.prd ++ b1 o.pn ++ o.d ++ o.a ++ o.b ++ b1 o.ea ++ b1 o.eb ++ b1 o.ext.isSome ++
    o.ca.code ++ o.cb.code ++ BitVec.ofNat 5 minor ++ m

/-- The words of a SIMT instruction: its base word and, under `L`, its extension word. -/
def encodeSimt : Instr → Option (DWord × Option DWord)
  | .fmt fa fb fc fd gs scl sclc zp zpc =>
    some ((63 : BitVec 6) ++ (63 : BitVec 6) ++ fa ++ fb ++ fc ++ fd ++ gs ++ scl ++ b1 sclc ++ zp ++ b1 zpc ++
      (0 : BitVec 10), none)
  | .nonInstructionWord _ _ w x => some (w, x)
  | i => match simtParts i with
    | some (j, k, m, o) => some (encodeBase j k m o, o.ext.map encodeExt)
    | none => none

/-! ### Spindle words -/

def ScanTy.ofBits (b : BitVec 2) : ScanTy := if b = 0 then .si32 else if b = 1 then .ui32 else .f32
def Cmp.ofBits (b : BitVec 3) : Cmp :=
  if b = 0 then .eq else if b = 1 then .ne else if b = 2 then .lt else if b = 3 then .le else if b = 4 then .gt
  else if b = 5 then .ge else if b = 6 then .un else .ord

/-- The condition of `BRC` (R220); codes 9-15 are reserved and re-encode differently. -/
def wcondOf (k a : BitVec 4) : WCond :=
  if k = 0 then .cf else if k = 1 then .ncf else if k = 2 then .mnz (a.extractLsb' 0 2)
  else if k = 3 then .mz (a.extractLsb' 0 2) else if k = 4 then .sne else if k = 5 then .se
  else if k = 6 then .rmt a else if k = 7 then .qz a else .qnz a

/-- The fields of a Spindle word by its op (R64, R191), before the checks of R65 and R192. -/
def rawWalk (w : Word) : Instr :=
  let d : BitVec 4 := w.extractLsb' 22 4
  let a : BitVec 4 := w.extractLsb' 18 4
  let b : BitVec 4 := w.extractLsb' 14 4
  let f := fun (n : Nat) => w.getLsbD n
  let a1 : BitVec 1 := a.extractLsb' 0 1
  let d2 : BitVec 2 := d.extractLsb' 0 2
  let i14 : BitVec 14 := w.extractLsb' 0 14
  let i12 : BitVec 12 := w.extractLsb' 0 12
  let qs : QSrc := if f 13 then .imm i12 else .reg b
  match (w.extractLsb' 26 6).toNat with
  | 0 => .nfetch (d.extractLsb' 0 1) a (w.extractLsb' 0 8)
  | 1 => .nget d a1 (w.extractLsb' 4 4) (f 8) (w.extractLsb' 0 4) b
  | 2 => .ncnt (f 0) d a1
  | 3 => .nptr (f 4) d a1 (w.extractLsb' 0 4) (b.extractLsb' 0 2)
  | 4 => .box8 (f 0) d2 b
  | 5 => .ovl8 (f 0) (f 1) d2 b
  | 6 => .tri (f 4) (f 5) d2 a1 b (w.extractLsb' 0 4)
  | 7 => .sphr (f 0) d2 a1 b
  | 8 => .kcmp (Cmp.ofBits (w.extractLsb' 0 3)) (f 3) (f 4) d a1 b
  | 9 => .krng (f 0) (f 3) d2 a1 b
  | 10 => .dist (w.extractLsb' 0 2) (f 2) (f 3) a b
  | 11 => .dfin (f 3) (w.extractLsb' 0 2) (f 4) d
  | 12 => .kds d a1 b (w.extractLsb' 0 4)
  | 13 => .sortm (f 0) (a.extractLsb' 0 2)
  | 14 => .push (f 0) a
  | 15 => .pushm (f 0) a1 (b.extractLsb' 0 2)
  | 16 => .pop (f 0) d
  | 17 => .sclr
  | 18 => .emit a b i14
  | 19 => .topk (ScanTy.ofBits (w.extractLsb' 7 2)) (f 6) d a b (w.extractLsb' 0 6)
  | 20 => .emitk i14
  | 21 => .done a b i14
  | 22 => .hoff a i12
  | 23 => .br i14
  | 24 => .brc (wcondOf (w.extractLsb' 10 4) a) (w.extractLsb' 0 10)
  | 25 => .yldw
  | 26 => .wadd (f 12) d a qs
  | 27 => .wsub (f 12) d a qs
  | 28 => .wand (f 12) d a qs
  | 29 => .wor (f 12) d a qs
  | 30 => .wxor (f 12) d a qs
  | 31 => .wshl (f 12) d a qs
  | 32 => .wshr (f 12) d a qs
  | 33 => .minmax (ScanTy.ofBits (w.extractLsb' 0 2)) (f 2) d a b
  | 34 => .fmad (w.extractLsb' 0 2) (f 3) d a b
  | 35 => .cmps (Cmp.ofBits (w.extractLsb' 10 3)) (ScanTy.ofBits (w.extractLsb' 8 2)) a
      (if f 13 then .imm (w.extractLsb' 0 8) else .reg b)
  | 36 =>
    if f 13 then if f 12 then .movqSpc d (w.extractLsb' 0 3) else .movqShi d i12
    else if f 12 then .movqImm d i12 else .movq d a
  | 37 => .ldq d a (w.extractLsb' 4 10) (w.extractLsb' 0 3)
  | _ => .walkNonInstructionWord w

def ScanTy.bits : ScanTy → BitVec 2
  | .si32 => 0 | .ui32 => 1 | .f32 => 2

/-- The condition code of `BRC` and its register field (R220). -/
def wcondBits : WCond → BitVec 4 × BitVec 4
  | .cf => (0, 0) | .ncf => (1, 0) | .mnz a => (2, a.zeroExtend 4) | .mz a => (3, a.zeroExtend 4)
  | .sne => (4, 0) | .se => (5, 0) | .rmt a => (6, a) | .qz a => (7, a) | .qnz a => (8, a)

/-- A Spindle word from its op, its three register fields and [13:0] (R64). -/
def packWalk (op : BitVec 6) (d a b : BitVec 4) (low : BitVec 14) : Word := op ++ d ++ a ++ b ++ low

/-- The low bits and the `b` field of an ALU word (R191). -/
def qsrcBits (wide : Bool) : QSrc → BitVec 4 × BitVec 14
  | .reg b => (b, (0 : BitVec 1) ++ b1 wide ++ (0 : BitVec 12))
  | .imm i => (0, (1 : BitVec 1) ++ b1 wide ++ i)

/-- The word of a Spindle instruction (R191). -/
def encodeWalk : Instr → Option Word
  | .nfetch d a f => some (packWalk 0 (d.zeroExtend 4) a 0 (f.zeroExtend 14))
  | .nget d a sel idx slot b => some (packWalk 1 d (a.zeroExtend 4) b ((0 : BitVec 5) ++ b1 idx ++ sel ++ slot))
  | .ncnt m d a => some (packWalk 2 d (a.zeroExtend 4) 0 ((b1 m).zeroExtend 14))
  | .nptr m d a slot b =>
    some (packWalk 3 d (a.zeroExtend 4) (b.zeroExtend 4) ((0 : BitVec 9) ++ b1 m ++ slot))
  | .box8 hi d b => some (packWalk 4 (d.zeroExtend 4) 0 b ((b1 hi).zeroExtend 14))
  | .ovl8 hi inn d b => some (packWalk 5 (d.zeroExtend 4) 0 b ((0 : BitVec 12) ++ b1 inn ++ b1 hi))
  | .tri cb cf d a b c =>
    some (packWalk 6 (d.zeroExtend 4) (a.zeroExtend 4) b ((0 : BitVec 8) ++ b1 cf ++ b1 cb ++ c))
  | .sphr ray d a b => some (packWalk 7 (d.zeroExtend 4) (a.zeroExtend 4) b ((b1 ray).zeroExtend 14))
  | .kcmp c s sel d a b =>
    some (packWalk 8 d (a.zeroExtend 4) b ((0 : BitVec 9) ++ b1 sel ++ b1 s ++ c.code))
  | .krng node s d a b =>
    some (packWalk 9 (d.zeroExtend 4) (a.zeroExtend 4) b ((0 : BitVec 10) ++ b1 s ++ (0 : BitVec 2) ++ b1 node))
  | .dist ty dot z a b => some (packWalk 10 0 a b ((0 : BitVec 10) ++ b1 z ++ b1 dot ++ ty))
  | .dfin int mode z d => some (packWalk 11 d 0 0 ((0 : BitVec 9) ++ b1 z ++ b1 int ++ (0 : BitVec 1) ++ mode))
  | .kds d a b slot => some (packWalk 12 d (a.zeroExtend 4) b (slot.zeroExtend 14))
  | .sortm desc a => some (packWalk 13 0 (a.zeroExtend 4) 0 ((b1 desc).zeroExtend 14))
  | .push pair a => some (packWalk 14 0 a 0 ((b1 pair).zeroExtend 14))
  | .pushm k a b => some (packWalk 15 0 (a.zeroExtend 4) (b.zeroExtend 4) ((b1 k).zeroExtend 14))
  | .pop pair d => some (packWalk 16 d 0 0 ((b1 pair).zeroExtend 14))
  | .sclr => some (packWalk 17 0 0 0 0)
  | .emit a b x => some (packWalk 18 0 a b x)
  | .topk ty desc d a b k => some (packWalk 19 d a b ((0 : BitVec 5) ++ ty.bits ++ b1 desc ++ k))
  | .emitk x => some (packWalk 20 0 0 0 x)
  | .done a b x => some (packWalk 21 0 a b x)
  | .hoff a e => some (packWalk 22 0 a 0 ((0 : BitVec 2) ++ e))
  | .br off => some (packWalk 23 0 0 0 off)
  | .brc c off => some (packWalk 24 0 (wcondBits c).2 0 ((wcondBits c).1 ++ off))
  | .yldw => some (packWalk 25 0 0 0 0)
  | .wadd w d a y => some (packWalk 26 d a (qsrcBits w y).1 (qsrcBits w y).2)
  | .wsub w d a y => some (packWalk 27 d a (qsrcBits w y).1 (qsrcBits w y).2)
  | .wand w d a y => some (packWalk 28 d a (qsrcBits w y).1 (qsrcBits w y).2)
  | .wor w d a y => some (packWalk 29 d a (qsrcBits w y).1 (qsrcBits w y).2)
  | .wxor w d a y => some (packWalk 30 d a (qsrcBits w y).1 (qsrcBits w y).2)
  | .wshl w d a y => some (packWalk 31 d a (qsrcBits w y).1 (qsrcBits w y).2)
  | .wshr w d a y => some (packWalk 32 d a (qsrcBits w y).1 (qsrcBits w y).2)
  | .minmax ty max d a b => some (packWalk 33 d a b ((0 : BitVec 11) ++ b1 max ++ ty.bits))
  | .fmad mode neg d a b => some (packWalk 34 d a b ((0 : BitVec 10) ++ b1 neg ++ (0 : BitVec 1) ++ mode))
  | .cmps c ty a (.reg b) => some (packWalk 35 0 a b ((0 : BitVec 1) ++ c.code ++ ty.bits ++ (0 : BitVec 8)))
  | .cmps c ty a (.imm i) => some (packWalk 35 0 a 0 ((1 : BitVec 1) ++ c.code ++ ty.bits ++ i))
  | .movq d a => some (packWalk 36 d a 0 0)
  | .movqImm d i => some (packWalk 36 d 0 0 ((1 : BitVec 2) ++ i))
  | .movqShi d i => some (packWalk 36 d 0 0 ((2 : BitVec 2) ++ i))
  | .movqSpc d src => some (packWalk 36 d 0 0 ((3 : BitVec 2) ++ (0 : BitVec 9) ++ src))
  | .ldq d a off n => some (packWalk 37 d a 0 (off ++ (0 : BitVec 1) ++ n))
  | .walkNonInstructionWord w => some w
  | _ => none

/-- The instruction of a Spindle word. A word whose must-be-zero fields are not zero does not re-encode to itself,
and has the fate of R65, as has a word that fails R192 and the word 0. -/
def decodeWalk (w : Word) : Instr :=
  if w ≠ 0 ∧ encodeWalk (rawWalk w) = some w ∧ walkOk (rawWalk w) then rawWalk w else .walkNonInstructionWord w

/-! ### Jig words -/

/-- The fields of a Jig word by its op (R66, R320), before the checks of R67. -/
def rawJig (w : Word) : Instr :=
  let d : BitVec 3 := w.extractLsb' 24 3
  let a : BitVec 3 := w.extractLsb' 21 3
  let b : BitVec 3 := w.extractLsb' 18 3
  let d2 : BitVec 2 := d.extractLsb' 0 2
  let a2 : BitVec 2 := a.extractLsb' 0 2
  let f := fun (n : Nat) => w.getLsbD n
  let i17 : BitVec 17 := w.extractLsb' 0 17
  let gs : GSrc := if f 17 then .imm i17 else .reg b
  match (w.extractLsb' 27 5).toNat with
  | 0 => .jlds (f 17) d2 a i17
  | 1 => .junpk (f 6) d2 a2 (w.extractLsb' 0 3) (w.extractLsb' 3 3) (w.extractLsb' 8 3)
  | 2 => .jpack (f 6) (f 7) d2 a2 (w.extractLsb' 0 3) (w.extractLsb' 3 3) (w.extractLsb' 8 3)
  | 3 => .jdelta d2 a2 b (w.extractLsb' 0 3)
  | 4 => .jrld (f 17) d a i17
  | 5 => .jcvt d2 a2 (w.extractLsb' 11 2) (f 10) (w.extractLsb' 8 2) (w.extractLsb' 4 4) (w.extractLsb' 0 4)
  | 6 => .jperm d2 a2 (b.extractLsb' 0 2)
  | 7 => .jput d2 a2
  | 8 => .jgadd d a gs
  | 9 => .jgand d a gs
  | 10 => .jgshr d a gs
  | 11 => .jbr (w.extractLsb' 15 3) a (w.extractLsb' 0 8)
  | 12 => .jloop a (w.extractLsb' 0 8)
  | 13 => .jwait d2 (w.extractLsb' 0 6)
  | 14 => .jend
  | 15 => .jflag d (if f 17 then .imm i17 else .reg a)
  | _ => .jigNonInstructionWord w

/-- A Jig word from its op, its three register fields and [17:0] (R66). -/
def packJig (op : BitVec 5) (d a b : BitVec 3) (low : BitVec 18) : Word := op ++ d ++ a ++ b ++ low

def gsrcBits : GSrc → BitVec 3 × BitVec 18
  | .reg b => (b, 0)
  | .imm i => (0, (1 : BitVec 1) ++ i)

/-- The word of a Jig instruction (R320). -/
def encodeJig : Instr → Option Word
  | .jlds g d a off => some (packJig 0 (d.zeroExtend 3) a 0 (b1 g ++ off))
  | .junpk s d a src dst part => some (packJig 1 (d.zeroExtend 3) (a.zeroExtend 3) 0
      ((0 : BitVec 7) ++ part ++ (0 : BitVec 1) ++ b1 s ++ dst ++ src))
  | .jpack s sat d a src dst part => some (packJig 2 (d.zeroExtend 3) (a.zeroExtend 3) 0
      ((0 : BitVec 7) ++ part ++ b1 sat ++ b1 s ++ dst ++ src))
  | .jdelta d a b wid => some (packJig 3 (d.zeroExtend 3) (a.zeroExtend 3) b (wid.zeroExtend 18))
  | .jrld g d a off => some (packJig 4 d a 0 (b1 g ++ off))
  | .jcvt d a part sat mode dst src => some (packJig 5 (d.zeroExtend 3) (a.zeroExtend 3) 0
      ((0 : BitVec 5) ++ part ++ b1 sat ++ mode ++ dst ++ src))
  | .jperm d a b => some (packJig 6 (d.zeroExtend 3) (a.zeroExtend 3) (b.zeroExtend 3) 0)
  | .jput q a => some (packJig 7 (q.zeroExtend 3) (a.zeroExtend 3) 0 0)
  | .jgadd d a y => some (packJig 8 d a (gsrcBits y).1 (gsrcBits y).2)
  | .jgand d a y => some (packJig 9 d a (gsrcBits y).1 (gsrcBits y).2)
  | .jgshr d a y => some (packJig 10 d a (gsrcBits y).1 (gsrcBits y).2)
  | .jbr c a t => some (packJig 11 0 a 0 (c ++ (0 : BitVec 7) ++ t))
  | .jloop a t => some (packJig 12 0 a 0 (t.zeroExtend 18))
  | .jwait q k => some (packJig 13 (q.zeroExtend 3) 0 0 (k.zeroExtend 18))
  | .jend => some (packJig 14 0 0 0 0)
  | .jflag k (.reg a) => some (packJig 15 k a 0 0)
  | .jflag k (.imm i) => some (packJig 15 k 0 0 ((1 : BitVec 1) ++ i))
  | .jigNonInstructionWord w => some w
  | _ => none

/-- The instruction of a Jig word, with the fate of R67 as for Spindle words. A branch target is held against the
loaded length when the Jig reaches the word (R323). -/
def decodeJig (w : Word) : Instr :=
  if w ≠ 0 ∧ encodeJig (rawJig w) = some w ∧ jigOk (rawJig w) then rawJig w else .jigNonInstructionWord w

/-! ### All streams -/

/-- The words of an instruction of any stream, first word lowest: 64-bit words for SIMT, one 32-bit word else. -/
inductive Words where
  | simt (w : DWord) (x : Option DWord)
  | word (w : Word)
  deriving DecidableEq, Repr

/-- The encoder: the words of an instruction; events have none. -/
def encode (i : Instr) : Option Words :=
  match encodeSimt i with
  | some (w, x) => some (.simt w x)
  | none => match encodeWalk i with
    | some w => some (.word w)
    | none => (encodeJig i).map .word

/-- Little-endian assembly of bytes (R2). -/
def leWord : List Byte → Nat
  | [] => 0
  | b :: bs => b.toNat + 256 * leWord bs

/-- The low `n` bytes of a number, lowest first (R2). -/
def leBytes : Nat → Nat → List Byte
  | 0, _ => []
  | n + 1, v => BitVec.ofNat 8 v :: leBytes n (v / 256)

/-- The SIMT instruction at the head of a byte list, and how many bytes it takes (R2, R47, R48); `none` when the
bytes are too few. -/
def decodeBytes (bs : List Byte) : Option (Instr × Nat) :=
  if bs.length < 8 then none
  else
    let w : DWord := BitVec.ofNat 64 (leWord (bs.take 8))
    if hasExt w then
      if bs.length < 16 then none
      else some (decodeSimt w (BitVec.ofNat 64 (leWord ((bs.drop 8).take 8))), 16)
    else some (decodeSimt w 0, 8)

/-- Whether a 32-bit word of the opcode table is read as a Jig word: it is no Spindle instruction and it is a Jig
instruction. The two streams share their words; only where a word lies tells them apart (log entry 5). -/
def tableWordIsJig (w : Word) : Bool := decodeWalk w == .walkNonInstructionWord w &&
  !(decodeJig w == .jigNonInstructionWord w)

/-- The instruction that the decoder reads from a word of spec/opcode_table.json. -/
def decodeTableWord (nbits w : Nat) : Option Instr :=
  if nbits ≤ 32 then
    let v : Word := BitVec.ofNat 32 w
    some (if tableWordIsJig v then decodeJig v else decodeWalk v)
  else (decodeBytes (leBytes 16 w)).map (·.1)

end Sys2Proof
end

