-- ==== Sys2Proof/Config.lean ====
section
/-! DEFINITION. What an implementation of the Stekoest fixes and the values the manual leaves open. A constant
without a body is a free value: nothing can evaluate it, so a claim holds whatever it is. -/
namespace Sys2Proof.Config

/-- Cores on the die, 16 columns by 16 rows (R1, R12). -/
def cores : Nat := 256
/-- MiB of GDDR 7 that contexts can map after boot (R23). -/
def usableMiB : Nat := 130816
/-- Bytes of local memory that contexts can map. -/
def usableBytes : Nat := usableMiB * 1048576
/-- Nominal core clock in MHz and the lowest the power limit sets (R476). -/
def nominalMHz : Nat := 2300
def lowestMHz : Nat := 1200

/-- Free value (R91): of the two FP32 values that bracket the exact value of special function `fn` (its SFU
minor) at the operand `x`, whether the upper one is returned; the same for the same input (R68). Log entry 7. -/
opaque faithfulUp : Nat → BitVec 32 → Bool
/-- Free value (R173): the byte that any agent but its Spindle reads at a key of a walk's spill area, at a clock. Log entry 8. -/
opaque spillByte : Nat → Nat → BitVec 8
/-- SHA-384 of a byte string (R424, R427): its values are FIPS 180-4's, not this manual's. Log entry 9. -/
opaque sha384 : List (BitVec 8) → BitVec 384
/-- The signature r then s that the device key makes for a digest, 96 bytes (R427, R429). Log entry 9. -/
opaque deviceSign : BitVec 384 → BitVec 768
/-- Whether the fuses hold a key digest unrevoked, and the security version they ask for (R428). Log entry 9. -/
opaque keyTrusted : BitVec 384 → Bool
opaque minVersion : BitVec 32
/-- Whether an ECDSA P-384 signature of a digest verifies: key, signature, digest (R428). Log entry 9. -/
opaque signatureOk : List (BitVec 8) → List (BitVec 8) → BitVec 384 → Bool
/-- The DER certificate chain of `GET_CERT` (R429). Log entry 9. -/
opaque certChain : List (BitVec 8)
/-- The device serial number (R429). Log entry 9. -/
opaque serial : BitVec 64
/-- Whether the firmware image of a slot starts when it is run after a switch (R471). Log entry 9. -/
opaque imageStarts : List (BitVec 8) → Bool
/-- Free value: the n-th value that the manual calls unspecified (counter `State.freeCount`). Log entry 8. -/
opaque freeWord : Nat → BitVec 32

/-- Free value: whether the n-th PCIe AtomicOp completes successfully (R302). Log entry 8. -/
opaque hostAtomicDone : Nat → Bool

/-- Free value (R173): whether a pop of a word that another agent has written in the spill area returns the word pushed.
Log entry 8. -/
opaque spillKept : Nat → Bool
/-- Free value: whether a core of the partner board is in service (R365). Log entry 8. -/
opaque partnerServes : Nat → Bool
/-- Free value: the cause code that the partner's translation answers for a key of its window on a turn, if it is one
(R422). Log entry 8. -/
opaque partnerAnswer : Nat → Nat → BitVec 8

/-- Free values (R176): whether the n-th part of a node read comes apart from the rest, and which of the two halves of a line
that came apart is the older. Log entry 74. -/
opaque nodeApart : Nat → Bool
opaque nodeOlder : Nat → Bool

/-- Free values: whether a memory channel trains, a core passes its test and a pairing port trains at bring-up, and the
width (log2) and generation to which the host link trains (R24, R469). Log entry 8. -/
opaque channelTrains : Nat → Bool
opaque coreTests : Nat → Bool
opaque portTrains : Nat → Bool
opaque hostWidth : BitVec 4
opaque hostGen : BitVec 4
/-- Free value: the identifier of the paired board (R24). Log entry 8. -/
opaque partnerId : BitVec 16

/-- The set of the reuse table that a key's hash chooses, one of 64 (R273; log entry 22). -/
opaque reuseSet : List Nat → BitVec 6

end Sys2Proof.Config
end

