-- ==== Sys2Proof/Machine/State.lean ====
section
/-! DEFINITION. The state of the Stekoest as plain data: every piece of state that spec/ names (INVENTORY.md lists
each with its rule), and beside it the model's own schedule (`agenda`, `cur`, `snap`, log entries 1 and 2). A sparse
table reads its default where it lists no entry, so the state after reset lists nothing. -/
namespace Sys2Proof.Machine

/-! ### Values -/

/-- Class of a long accumulator (R87). -/
inductive LacCls where
  | fin | pinf | ninf | nan
  deriving DecidableEq, Repr

/-- A long accumulator: its class and `N`, 640 bits (R87). -/
structure Lac where
  cls : LacCls := .fin
  n : BitVec 640 := 0
  deriving DecidableEq, Repr

/-! ### Wave -/

/-- The trap registers of R430 with the prefix moved aside (R63). -/
structure TrapRegs where
  trapc : Word := 0
  trappc : DWord := 0
  trapmask : Mask := 0
  trapaddr : DWord := 0
  resm : Mask := 0
  /-- The instruction at which the trap was delivered, that a write of `TRAPPC` redirects (R435); none for class B. -/
  stands : Option DWord := none
  deriving DecidableEq, Repr

/-- A trap as an instruction or an event raises it (R7, R431). `lanes` are the threads of its bundle and `resume`
the addresses R432 step 2 gives to those of them that have one of their own. -/
structure Trap where
  cause : Cause
  cls : BitVec 2
  mask : Mask
  addr : DWord := 0
  pc : DWord := 0
  aux : Nat := 0
  /-- The bundle's threads. -/
  bundle : Mask := 0
  /-- The threads that re-execute (class W: active lanes or all; class L: the faulted lanes). -/
  again : Mask := 0
  /-- `CLIENT` and `ACCESS` of the fault record of a memory or fetch fault (R414, R415). -/
  post : Option (Nat × Nat) := none
  /-- `ACCESS` of the record that offered it to the host, for the one of an unhandled trap (R415, R433). -/
  access : Nat := 0
  /-- Breakpoint or watchpoint slot of a stop record (R463). -/
  slot : Nat := 0xFF
  /-- The host is never offered it: the partner's side answered with it (R422), or its instruction is no vector memory
  instruction (R414). -/
  unheld : Bool := false
  /-- The clock in which the instruction that raised it issued: two that issued in one are a pair (R434). -/
  clk : Option Nat := none
  deriving DecidableEq, Repr

/-- A trap held behind another (R434): its registers, its bundle and the resume addresses recorded with it. -/
structure HeldTrap where
  trap : Trap
  resume : List (Nat × DWord) := []
  deriving DecidableEq, Repr

/-- What a copy instruction asks for one lane (R309, R313): the record, `MADDR` and `COUNT` when the instruction gives
them, the byte for `KIND` (its kind is the record's for `CPYQ`), and whether it resumes. -/
structure CopyReq where
  lane : Nat
  rec_ : Nat
  given : Option (DWord × Nat) := none
  kind : Nat := 0
  resume : Bool := false
  deriving DecidableEq, Repr

/-- What a `WAITA` tests (R396): the word's address and the line of its key, the comparison, `.ACQ`, and its destination:
a scalar name or a vector name. -/
structure WaitaReq where
  va : DWord
  line : Nat := 0
  code : Cmp := .ne
  signed : Bool := false
  acq : Bool := false
  value : Word := 0
  vec : Bool := false
  dest : Nat := 0
  deriving DecidableEq, Repr

/-- A walk that a `TRAV` lane asks for: tag, queue, kind and query block (R356). -/
structure TravReq where
  lane : Nat
  tag : Word
  cq : Nat
  kind : DWord
  block : List Byte
  deriving DecidableEq, Repr

/-- What a bundle waits for inside an instruction (R327, R370). -/
inductive WaitKind where
  /-- `BAR` of a barrier. -/
  | bar (b : Nat)
  /-- `TBAR` and `GBAR`; their operands lie in the launch's arrivals. `GBAR` has a destination. -/
  | tbar
  | gbar (dest : Option Nat)
  /-- `BBWAIT` of a byte barrier's key and sense, with `.TRAP`. -/
  | bbwait (key : Nat) (sense : Bool) (tr : Bool)
  /-- `SLEEP` until `TIME` reaches the deadline. -/
  | sleep (until_ : Nat)
  /-- `CQPOP.WAIT`: queue, entries wanted, deadline, destination names, outcome predicate, order of issue. -/
  | cqpop (q k : Nat) (until_ : Option Nat) (names : List Nat) (pred ticket : Nat)
  /-- `WAITA`: its request, whether it is registered, the polling interval and the next poll's clock. -/
  | waita (r : WaitaReq) (registered : Bool) (interval next : Nat) (woken : Bool)
  /-- `RACQ` of a number of blocks, and the scalar destination. -/
  | racq (n : Nat) (dest : Option Nat)
  /-- `SEND` lanes whose deposits have no status yet, and the statuses so far. -/
  | send (pending : List (Nat × Nat)) (status : List (Nat × Word)) (dest : Option Nat)
  /-- `TRAV` lanes not yet started, and the faulted lanes. -/
  | trav (left : List TravReq) (faults : List (Nat × Nat × Cause × DWord))
  /-- Copy lanes not yet started, the records started, and the faulted lanes (R309). -/
  | copy (left : List CopyReq) (made : List Nat) (faults : List (Nat × Nat × Cause × DWord))
  /-- A STALL `SQPUSH` and a `SQPOP`, by their place in the queue's lists of waiters; the destination names. -/
  | sqpush (q ticket : Nat)
  | sqpop (q ticket : Nat) (names : List Nat)
  /-- `LAUNCH` of a header, with its record address. -/
  | launch (hdr : DWord) (rec_ : Option DWord)
  /-- A result that the bundle waits for before it retires: a mailbox destination of a queued class (R95). -/
  | result (op : Nat)
  deriving DecidableEq, Repr

/-- A bundle that waits inside the instruction at `pc`, of `len` bytes. -/
structure Wait where
  lanes : Mask
  active : Mask
  pc : DWord
  len : Nat
  kind : WaitKind
  /-- Mailboxes that the instruction empties when it retires (R96). -/
  takes : List Nat := []
  /-- The clock in which the instruction issued (R434). -/
  clk : Option Nat := none
  deriving DecidableEq, Repr

/-- A debug stop held (R455-R459). -/
structure DbgStop where
  cause : Cause
  trap : Option Trap := none
  since : Nat := 0
  /-- Whether `DBG_RUN` asked for it, which alone stops a wave in handler mode. -/
  asked : Bool := false
  deriving DecidableEq, Repr

/-- A mailbox (R394): its value, whether it is full, and the scope of the `SEND` that filled it. -/
structure Mailbox where
  val : Word := 0
  full : Bool := false
  from_ : Option Scope := none
  deriving DecidableEq, Repr

/-- One wave (R335, R439). Lists have one entry a lane unless stated. -/
structure Wave where
  team : Nat := 0
  /-- `WAVE.INDEX` and `TEAM.MEMBER` (R332). -/
  index : Nat := 0
  member : Nat := 0
  wid : DWord := 0
  pcs : List DWord := List.replicate 32 0
  ended : Mask := 0
  /-- The partition of R326: one mask a bundle. -/
  bundles : List Mask := [0xFFFFFFFF]
  /-- Bundles whose last turn could not issue the instruction at their address: they wait inside it (R326; log entry 82). -/
  stuck : List (Mask × DWord) := []
  /-- Starvation counts (R328). -/
  starve : List Nat := List.replicate 32 0
  /-- `s0`-`s127` and their PENDING bits (R111). -/
  sreg : List Word := List.replicate 128 0
  sPend : BitVec 128 := 0
  /-- `p0`-`p47`, one mask each. -/
  preg : List Mask := List.replicate 48 0
  /-- Mapped blocks (R263) and the physical register of each name; an unlisted name maps register 0. -/
  blocks : Word := 1
  names : FMap Nat := []
  rotSize : Nat := 0
  rotBase : Nat := 0
  mbox : List Mailbox := List.replicate 8 {}
  /-- Mailboxes that local writes of the present clock filled (R394). -/
  boxWrote : List Nat := []
  /-- The clock of the core in which a deposit last entered one of them: the wave's own reads and writes of that clock come before
  it (R394). -/
  boxClk : Option Nat := none
  la : List Lac := List.replicate 4 {}
  laPoison : BitVec 4 := 0
  /-- The core's tile numbers that `acc0` upward name (R140). -/
  acc : List Nat := []
  sr : Word := 0
  pfx : DWord := 0
  pfxMask : Mask := 0
  /-- The prefix moved aside (R63), its mask and its `SR.PP`. -/
  asidePfx : DWord := 0
  asideMask : Mask := 0
  asidePP : Bool := false
  rsp : DWord := 0
  /-- On-chip return addresses, newest first, and spill counts (R377). -/
  rstack : List (List DWord) := List.replicate 32 []
  rspill : List Nat := List.replicate 32 0
  trap : TrapRegs := {}
  held : List HeldTrap := []
  resume : List DWord := List.replicate 32 0
  /-- Threads of handler mode (R432). -/
  handler : Mask := 0
  /-- The clock of the core in which the handler was entered: a trap of the same clock is held behind (R434). -/
  trapClk : Option Nat := none
  /-- The trap of an instruction that entered the handler, with the wave's last issue before it: the trap of the other instruction of
  its pair is held behind it whenever it arises, or takes its place (R434; log entry 100). -/
  first : Option (Trap × Nat) := none
  /-- Fence generation (R279), and whether the acquire of the first instruction has been made (R243). -/
  fgen : Word := 0
  started : Bool := false
  /-- Effective priority, ready and unchosen clocks, the clock up to which they are counted while it stays ready, and when it last
  issued (R329). -/
  prio : Nat := 0
  unchosen : Nat := 0
  readyAt : Option Nat := none
  lastIssue : Nat := 0
  /-- `RGHINT` hold address and opportunities left (R380). -/
  rghint : Option (DWord × Nat) := none
  /-- Lines that its fetch has missed and that came back with a fault, which the fetch then takes: line, cause, and whether the partner's
  side answered with it (R14, R60, R422). -/
  ifault : List (Nat × Cause × Bool) := []
  waits : List Wait := []
  /-- Asynchronous traps that reach the wave at its next boundary (R436). -/
  async : List Trap := []
  /-- Threads whose next instruction is followed by SINGLE_STEP (R435), or by a debug step stop (R458). -/
  stepS : Mask := 0
  stepDbg : Mask := 0
  /-- A step with drain, and its stop, which is reported once the wave's results are written (R458). -/
  stepDrain : Bool := false
  drainStop : Option DbgStop := none
  /-- Scalars that a debugger wrote while a result was on its way: the operation and the scalar (R460). -/
  sDrop : List (Nat × Nat) := []
  dbg : Option DbgStop := none
  /-- Causes to stop that have arisen: those of instructions become one stop at the end of the clock, one that `DBG_RUN` or the
  freeze policy made becomes a stop at the next boundary (R455). -/
  stops : List DbgStop := []
  /-- Threads that re-issue an instruction once without tripping its breakpoint (R455). -/
  noTrip : Mask := 0
  /-- Fault identifiers that the host holds for this wave (R414). -/
  replayHeld : List (Nat × Trap) := []
  /-- Held traps that the host rejected while the wave was saved (R414). -/
  rejected : List Trap := []
  borrowing : Bool := false
  admitted : Nat := 0
  /-- It is to be saved: it issues nothing (R438). -/
  saving : Bool := false
  /-- Blocks that the `RACQ` asked for whose request a save has withdrawn (R438, R439). -/
  racqAsked : Nat := 0
  rhit : BitVec 16 := 0
  dhit : BitVec 16 := 0
  dfull : BitVec 16 := 0
  deriving DecidableEq, Repr

/-! ### Slice -/

/-- A physical vector register (R266); `poison` is R451's. -/
structure PReg where
  data : VReg
  pending : Bool := false
  ctx : Nat := 0
  poison : Bool := false
  /-- `HASH`, `Z` and `U`, from the write to the freeing (R266). -/
  hash : Word := 0
  zero : Bool := false
  uniform : Bool := false
  deriving DecidableEq, Repr

/-- What a load entry records (R273, R277, R279): its lines or spans, the generations of the 16 wave slots, and which threads have read
where. -/
structure LoadRec where
  global : Bool
  spans : List Nat
  gens : List Word
  /-- The lines or banks that its threads have read (R247, R248). -/
  units : List (Mask × Nat) := []
  deriving DecidableEq, Repr

/-- The result of a reuse entry: the physical registers of a vector destination, or the bits of a predicate
destination (R275). -/
inductive ReuseResult where
  | regs (ps : List Nat)
  | pred (bits : Mask)
  deriving DecidableEq, Repr

/-- A reuse entry (R273); the key of R274 is a list of numbers. -/
structure ReuseEntry where
  key : List Nat
  ctx : Nat
  result : ReuseResult
  flags : BitVec 7 := 0
  load : Option LoadRec := none
  /-- The tile that a `MACR` has read (R277). -/
  tile : Option Nat := none
  deriving DecidableEq, Repr

/-- Where a queued result goes. -/
inductive Dest where
  | none
  /-- `n` vector registers from `name`, whose physical registers are `regs`. -/
  | vec (name : Nat) (regs : List Nat)
  | sca (name n : Nat)
  | mbox (n : Nat)
  | pred (n : Nat)
  deriving DecidableEq, Repr

/-- An SFU entry (R123) or an engine entry (R154): a queued instruction whose results the model has computed from
the operands it read at issue, and which become visible at its event. `started`: it no longer holds a queue place. -/
structure SfuEntry where
  id : Nat
  wave : Nat
  lanes : Mask
  pc : DWord
  /-- The clock in which it issued (R434). -/
  clk : Option Nat := none
  dest : Dest
  /-- The values of the destination registers, one list of 32 lanes a register. -/
  vals : List VReg
  /-- The flags of each lane; for a scalar destination every lane holds the one flag set. -/
  flags : List (BitVec 7) := []
  /-- Active lanes, and the values that the destination names held before. -/
  active : Mask := 0
  prior : List VReg := []
  /-- Names that share the destination through a reuse hit, by wave, and the values that they held before. -/
  owns : List (Nat × Nat × VReg) := []
  started : Bool := false
  hold : Bool := false
  /-- Base and extension word, and prefix, for a withdrawn record (R440). -/
  base : DWord := 0
  ext : DWord := 0
  /-- Waves whose names share the destination through a reuse hit and take its flags (R275). -/
  sharers : List Nat := []
  bundle : Mask := 0
  transit : List Nat := []
  /-- Scalar operand values, for a withdrawn record (R440). -/
  sclB : DWord := 0
  sclC : DWord := 0
  deriving DecidableEq, Repr

/-- What a slice has issued in a clock of its core (R13, R97). -/
structure Issued where
  clock : Nat
  wave : Nat
  lanes : Mask
  pc : DWord
  both : Bool := false
  deriving DecidableEq, Repr

/-- One slice of a core (R12). -/
structure Slice where
  phys : FMap PReg := []
  /-- The dedup directory: bucket, then slot, then register (R268). -/
  dir : FMap (FMap Nat) := []
  /-- The reuse table, most recently hit first (R273). -/
  reuse : List ReuseEntry := []
  sfu : List SfuEntry := []
  /-- `RACQ` requests in FIFO order: the wave (R342). -/
  racq : List Nat := []
  /-- The clock of its last issue, with the wave, the threads and the address of the first bundle, and whether both decoders
  have issued (R13). -/
  issued : Option Issued := none
  /-- PC sampling: clock of the next sample and the next wave (R464). -/
  sampleAt : Nat := 0
  sampleWave : Nat := 0
  deriving DecidableEq, Repr

/-! ### Memory operations in flight -/

/-- One lane of an access: where it lies (a key of the one memory list), its cache policy and its value. -/
structure LaneAcc where
  lane : Nat
  va : DWord
  key : Nat
  cpol : Nat := 0
  sealed : Bool := false
  /-- log2 of the bytes that its translation mapped (R413). -/
  page : Nat := 16
  /-- The bytes stored, or the operands of an atomic: value then compare value. -/
  data : List Byte := []
  data2 : List Byte := []
  deriving DecidableEq, Repr

inductive OpKind where
  | load | store | atomic | cas128 | fence | prefetch | sqpop | jpop | smov | cqpop
  deriving DecidableEq, Repr

/-- An operation between issue and its last effect. -/
structure Op where
  id : Nat
  wave : Nat
  kind : OpKind
  pc : DWord := 0
  /-- The clock in which it issued (R434). -/
  clk : Option Nat := none
  /-- The team, the context and the `WHO` of a wave that has ended while an access of it waited for its home (R453, R474). -/
  orphan : Option (Nat × Nat × Nat) := none
  /-- The launch of such a wave (R467). -/
  ofLaunch : Option Nat := none
  /-- Threads of the issuing bundle and its active lanes. -/
  bundle : Mask := 0
  active : Mask := 0
  lanes : List LaneAcc := []
  /-- Lanes that have their bytes: (lane, bytes). -/
  done : List (Nat × List Byte) := []
  size : Nat := 4
  signed : Bool := false
  acq : Bool := false
  rel : Bool := false
  vol : Bool := false
  /-- Base and extension word, for a withdrawn record (R440). -/
  base : DWord := 0
  ext : DWord := 0
  rmt : Bool := false
  scope : Scope := .device
  /-- Atomic operation of R300 and its width. -/
  aop : Nat := 0
  w64 : Bool := false
  bench : Bool := false
  remote : Bool := false
  once : Bool := false
  pin : Bool := false
  dest : Dest := .none
  /-- The lanes that faulted, with list position, cause and address (R290). -/
  faults : List (Nat × Nat × Cause × DWord) := []
  /-- The faulted lanes whose cause the partner's side answered (R422). -/
  far : Mask := 0
  /-- Remote lanes refused by their target (R224). -/
  refused : Mask := 0
  /-- Whether the wave issues nothing until the operation completes. -/
  hold : Bool := false
  /-- The path set of a fence (R304). -/
  paths : BitVec 6 := 0
  /-- The values that the destination names held before, and the registers that hold them for a partial bundle. -/
  prior : List VReg := []
  transit : List Nat := []
  /-- The reuse key, when the load may make an entry, with the generations recorded at issue (R276, R279). -/
  key : Option (List Nat) := none
  gens : List Word := []
  /-- The accesses that a watchpoint watches: its slot, the lane and the address, by rising lane (R457). -/
  watch : List (Nat × Nat × DWord) := []
  deriving DecidableEq, Repr

/-! ### Core -/

/-- One L1 line (R229): its address, the valid sectors, the dirty bytes, its bytes, pins and the mark of a TEAM
release (R251). The list of lines is in recency order, most recent first. -/
structure Line where
  addr : Nat
  valid : BitVec 4
  dirty : BitVec 256
  data : List Byte
  pins : List Nat := []
  mark : Bool := false
  /-- Held for a page of policy `STREAM` (R232). -/
  stream : Bool := false
  /-- Filled from a sealed page that was verified, and unchanged since (R237, R425). -/
  checked : Bool := false
  deriving DecidableEq, Repr

/-- A translation kept by a TLB (R412): context, page, frame and attributes. -/
structure Tlb where
  ctx : Nat
  page : Nat
  /-- log2 of the page's bytes. -/
  size : Nat
  leaf : DWord
  deriving DecidableEq, Repr

inductive EngKind where
  | mma | mmas | mmal | macz | macw | macr | zflg | lxld | lxinv
  deriving DecidableEq, Repr

/-- An entry of the engine queue (R154): the operands read at issue and what they mean. `places` is the number of queue
places that it still takes; an entry that has started its last pass takes none. -/
structure EngEntry where
  id : Nat
  wave : Nat
  kind : EngKind
  /-- The clock in which it issued (R434). -/
  clk : Option Nat := none
  places : Nat := 1
  tile : Nat := 0
  /-- Registers read at issue, in the order the operation reads them, and their physical numbers. -/
  srcs : List VReg := []
  regs : List Nat := []
  /-- Formats of A and B or of the one operand, group size in elements, and the scale and zero point of row or column
  `x` in group `t` at 16·t + x (R142). -/
  fa : Nat := 0
  fb : Nat := 0
  gs : Nat := 0
  scl : List Word := []
  zp : List Word := []
  mask : Mask := 0
  zskip : Bool := false
  out : Outer := .dense
  inner : Bool := false
  nA : Nat := 0
  nB : Nat := 0
  abs : Bool := false
  k32 : Bool := false
  /-- Zero-flag numbers of A and B for `MMA` and `MMAS`; Bench key and column block for `MMAL`; Bench key, d_c and d_h
  for `LXLD`; the flags of the examined fragments for `ZFLG`. -/
  x0 : Nat := 0
  x1 : Nat := 0
  x2 : Nat := 0
  rm : Nat := 0
  dest : Dest := .none
  pc : DWord := 0
  bundle : Mask := 0
  base : DWord := 0
  ext : DWord := 0
  pfx : DWord := 0
  sclB : DWord := 0
  sclC : DWord := 0
  lxVersion : Word := 0
  hold : Bool := false
  sharers : List Nat := []
  /-- For a `MACR`, the values that the destination names held before, and those of names that share it. -/
  prior : List VReg := []
  owns : List (Nat × Nat × VReg) := []
  /-- Whether it occupies the engine, and the Bench elements that it has read: the latent rows of an `MMAL` at its start, the
  matrix of an `LXLD` whose team has ended. -/
  running : Bool := false
  rows : List (BitVec 16) := []
  /-- What a `MACR` read at its start. -/
  flags : BitVec 7 := 0
  vals : List VReg := []
  deriving DecidableEq, Repr

/-- One accumulator tile: 256 elements, its owner wave, its write generation and poisoned elements (R140, R156). -/
structure Tile where
  elems : List Lac := List.replicate 256 {}
  owner : Option Nat := none
  gen : Nat := 0
  poison : List Nat := []
  deriving DecidableEq, Repr

/-- The latent expander (R148); `queued` values follow every `LXLD` and `LXINV` in the queue (R153). -/
structure Lx where
  w : List (BitVec 16) := []
  dc : Nat := 0
  dh : Nat := 0
  version : Word := 0
  loaded : Bool := false
  ctx : Nat := 0
  loading : Bool := false
  deriving DecidableEq, Repr

/-- A decoded node register (R174). -/
structure NodeReg where
  f0 : List Word := List.replicate 16 0
  f1 : List Word := List.replicate 16 0
  f2 : List Word := List.replicate 16 0
  f3 : List Word := List.replicate 16 0
  ptr : List DWord := List.replicate 16 0
  count : Nat := 0
  h : List Word := List.replicate 4 0
  addr : DWord := 0
  fmt : Nat := 0
  deriving DecidableEq, Repr

/-- What holds a walk off issue (R353-R368). -/
inductive WalkWait where
  | ready
  /-- The walk-kind record has not been read; a hand-off names its own entry word. -/
  | kind (sdtab : DWord) (entry : Option Nat)
  /-- `NFETCH` into a node register from an address, with its descriptor's words for a format above 15. -/
  | node (d : Nat) (addr : DWord) (fmt : Nat) (desc : List DWord)
  /-- `LDQ` of `n` words. -/
  | ldq (d : Nat) (addr : DWord) (n : Nat)
  /-- A queue entry that the full completion queue holds back (R190), and whether it ends the walk. -/
  | queue (status extra : Nat) (result value : Word) (terminal : Bool)
  /-- `EMITK` with entries left. -/
  | emitk (left : List (Word × Word)) (x : Nat)
  /-- A push that waits for on-chip room, with the words left to push; a pop that waits for a fill (R172). -/
  | spill (left : List Word)
  | fill
  /-- `HOFF` of a pointer with its entry word, not returned; `held`: its message waits for a credit (R365). -/
  | handoff (ptr : DWord) (entry : Nat) (held : Bool)
  deriving DecidableEq, Repr

/-- One resident walk (R168). -/
structure Walk where
  ctx : Nat := 0
  team : Nat := 0
  /-- `WAVE.INDEX` of the issuing wave (R415). -/
  wave : Nat := 0
  tag : Word := 0
  cq : Nat := 0
  kind : DWord := 0
  plen : Nat := 0
  dtab : DWord := 0
  prog : DWord := 0
  pc : Nat := 0
  q : List Word := List.replicate 16 0
  m : List (BitVec 16) := List.replicate 4 0
  n0 : NodeReg := {}
  n1 : NodeReg := {}
  d0 : Lac := {}
  cf : Bool := false
  kappa : List Word := List.replicate 16 0
  order : List Nat := List.range 16
  /-- Words on chip, top first; words spilled, how many and, uppermost first, as they were pushed (R173); the spill area and its
  line. -/
  chip : List Word := []
  spilled : Nat := 0
  under : List Word := []
  spill : DWord := 0
  area : Option Nat := none
  topk : Option TopK := none
  emitted : Word := 0
  wait : WalkWait := .ready
  /-- A node read of which a part has come (R176): its bytes so far, and the first look at a line that came apart. -/
  got : List Byte := []
  half : List Byte := []
  cancelled : Bool := false
  killed : Bool := false
  /-- The terminal entry is being written. -/
  finished : Bool := false
  /-- A walk that runs here for the partner: origin core and slot, and the partner's context (R365). -/
  remote : Option (Nat × Nat × Nat) := none
  /-- The number of its latest hand-off, or of the one that it runs for (R214, R368). -/
  hid : Nat := 0
  originCore : Nat := 0
  originSlot : Nat := 0
  deriving DecidableEq, Repr

/-- The Spindle of a core (R168, R355, R357). -/
structure Spindle where
  walks : FMap Walk := []
  /-- The slot that issued last, for the round robin of R170. -/
  last : Nat := 511
  /-- Requests for walk slots in order: (wave, lane) (R357). -/
  want : List (Nat × Nat) := []
  /-- Hand-offs that wait for a slot (R365). -/
  arrivals : List HoffMsg := []
  /-- Copies kept near the Spindle: node lines, program lines, descriptor and record bytes (R187, R355, R363). -/
  nodes : FMap (List Byte) := []
  progs : FMap (List Byte) := []
  descs : FMap (List Byte) := []
  deriving DecidableEq, Repr

/-- The Jig of a core (R315). -/
structure Jig where
  prog : List Word := List.replicate 256 0
  len : Nat := 0
  pc : Nat := 0
  g : List Word := List.replicate 8 0
  w : List (BitVec 1024) := List.replicate 4 0
  /-- `jq0`-`jq3`, oldest entry first. -/
  q : List (List (BitVec 1024)) := List.replicate 4 []
  running : Bool := false
  starter : Option Nat := none
  /-- Claims of `JPOP` in issue order: (queue, operation) (R319). -/
  claims : List (Nat × Nat) := []
  /-- The team that holds it (R314). -/
  holder : Option Nat := none
  deriving DecidableEq, Repr

/-- A unit of a copy job whose writes are in flight (R308, R311). -/
structure CopyUnit where
  u : Nat
  /-- Bytes that it counts against the barrier. -/
  bytes : Nat
  landed : Bool := false
  deriving DecidableEq, Repr

/-- An active copy job (R309-R313). -/
structure CopyJob where
  /-- Record offset in the team's Bench, the team, its member and the context. -/
  recOff : Nat
  team : Nat
  member : Nat := 0
  ctx : Nat
  wave : Nat := 0
  kind : Nat
  bound : Bound := .none
  swz : Swz := .none
  maddr : DWord
  count : Nat
  baddr : Nat
  iaddr : Nat
  bbar : Nat
  rowb : Nat
  limit : Nat
  cursor : Nat := 0
  events : Nat := 0
  /-- Next unit to serve and the units in flight. -/
  next : Nat := 0
  units : List CopyUnit := []
  /-- The index words read last: group offset and its 8 words (R310). -/
  group : Option (Nat × List (Option Word)) := none
  /-- A cause that suspends the job when its units in flight have landed (R312). -/
  failing : Option (Cause × DWord) := none
  /-- Whether the partner's side answered with that cause (R422). -/
  far : Bool := false
  /-- Orders the jobs by their start. -/
  stamp : Nat := 0
  deriving DecidableEq, Repr

/-- A deposit on its way to a mailbox or held there (R393). -/
structure Deposit where
  id : Nat
  /-- Sender: core, wave, its context, and the deposit of the lowest lane of its instruction. -/
  srcCore : Nat
  srcWave : Nat
  first : Nat
  ctx : Nat
  team : Nat
  target : Word
  value : Word
  scope : Scope
  /-- In flight, refused and to be retried, or held at the core. -/
  held : Bool := false
  refused : Bool := false
  retryAt : Nat := 0
  /-- Its place in the order in which deposits, statuses and accesses leave a core: its number, or a later one when it leaves again
  or its status leaves the receiving core (R8). -/
  seq : Nat := id
  /-- The status that travels back to the sender. -/
  status : Option Word := none
  deriving DecidableEq, Repr

inductive CoreState where
  | untested | inService | draining | parked | failed
  deriving DecidableEq, Repr

/-- The request queue of a Bench bank (R16, R226): the clock of the last entry, the place in R16's order of the client that entered last
in it, the clock by which all requests are served, and for each client refused the clock of its last refusal and in how many
consecutive clocks it has been. -/
structure BankQ where
  clk : Nat := 0
  rank : Nat := 0
  busy : Nat := 0
  refused : FMap (Nat × Nat) := []
  deriving DecidableEq, Repr

/-- A request to a bank of a core: its place in the order of R16. -/
structure BankReq where
  core : Nat
  bank : Nat
  rank : Nat
  deriving DecidableEq, Repr

/-- One core (R12). -/
structure Core where
  service : CoreState := .untested
  /-- Clocks that stretching has taken from this core (R20, R475). -/
  lag : Nat := 0
  waves : FMap Wave := []
  slices : FMap Slice := []
  /-- Team slot to team number (R333). -/
  slots : FMap Nat := []
  benchPoison : List Nat := []
  banks : FMap BankQ := []
  l1 : List Line := []
  tlb : List Tlb := []
  slips : Nat := 0
  ops : List Op := []
  eng : List EngEntry := []
  tiles : FMap Tile := []
  lx : Lx := {}
  sp : Spindle := {}
  jig : Jig := {}
  copies : FMap CopyJob := []
  /-- Round-robin order of the copy slots. -/
  copyTurn : List Nat := []
  /-- The launches of cluster teams that have set their resources aside here (R336), with the team slot and Bench base. -/
  reserved : List (Nat × Nat × Nat) := []
  /-- A parked core's recalibration is running (R472). -/
  recal : Bool := false
  deriving DecidableEq, Repr

/-! ### Teams, launches, the device -/

/-- A completion queue of a team (R359). -/
structure Cq where
  head : Nat := 0
  tail : Nat := 0
  count : Nat := 0
  deriving DecidableEq, Repr

/-- A `BAR` of a team (R381): its generation and the threads that have arrived, by wave. -/
structure BarSt where
  gen : Word := 0
  arrived : FMap Mask := []
  deriving DecidableEq, Repr

/-- A saved wave. Its record lies in the save window (R439); beside it stand the things that the record has no place
for: the wave as it was, its withdrawn operations, and the bytes of the record that describe them (log entry 40). -/
structure SavedWave where
  member : Nat
  index : Nat
  copy : Wave
  /-- `TIME` at which it was saved (R392). -/
  since : Nat := 0
  sfu : List SfuEntry := []
  eng : List EngEntry := []
  /-- Claims of `JPOP`: queue and operation. -/
  pops : List (Nat × Op) := []
  /-- The withdrawn operations and transit values of the record as written. -/
  tail : List Byte := []
  /-- Whether a debugger let it go on while it was saved: it does once it is restored (R454). -/
  freed : Bool := false
  deriving DecidableEq, Repr

/-- A saved team (R438-R440). -/
structure Saved where
  /-- Waves whose records are stored. -/
  waves : List SavedWave := []
  /-- The Bench image and team area are stored. -/
  area : Bool := false
  /-- Deposits that saved mailboxes hold: wave index, mailbox and the scope of the `SEND` (R243, R339). -/
  boxes : List (Nat × Nat × Scope) := []
  deriving DecidableEq, Repr

/-- A member core's share of a team. -/
structure Member where
  core : Nat
  slot : Nat
  /-- Bench base on that core. -/
  base : Nat
  deriving DecidableEq, Repr

/-- A resident or saved team (R330-R341). -/
structure Team where
  launch : Nat
  ctx : Nat
  ordinal : Nat := 0
  members : List Member
  bench : Nat := 0
  /-- Waves on each member core, and in all. -/
  perCore : Nat := 1
  retain : Bool := false
  /-- Completion queues of each member core, their depth, and the state of queue `n` of core `c` at 8·c + n (R358). -/
  cqn : Nat := 0
  cqd : Nat := 0
  cqs : FMap Cq := []
  bars : FMap BarSt := []
  /-- Progress count, the clock of its last change, and the sets of waves, as teams and indices, that have been reported
  since the team made progress outside a handler (R465, R466). -/
  progress : Nat := 0
  quietSince : Nat := 0
  reported : List (List (Nat × Nat)) := []
  killed : Option Cause := none
  saved : Option Saved := none
  /-- Its waves are to be saved (R438); a save write that the host holds (R437). -/
  saving : Bool := false
  saveHeld : Option Nat := none
  /-- The waves that have arrived at its byte barriers: the Bench key, the phase's `SENSE` and the wave's index (R384, R465). -/
  byteCame : List (Nat × Bool × Nat) := []
  /-- Stage queue whose entry started the team (R350). -/
  fromQueue : Option Nat := none
  /-- A wave recruited by `RFORK` (R343). -/
  recruit : Bool := false
  deriving DecidableEq, Repr

/-- The fields of a launch header (R330). -/
structure Header where
  entry : DWord := 0
  param : DWord := 0
  handler : DWord := 0
  next : DWord := 0
  sdtp : DWord := 0
  jigp : DWord := 0
  widw : List Nat := []
  widc : List Nat := []
  waves : Nat := 1
  shape : Nat := 0
  bench : Nat := 0
  acc : Nat := 0
  blocks : Nat := 0
  prio : Nat := 0
  ctx : Nat := 0
  flags : Nat := 0
  sqb : Nat := 0
  maxf : Nat := 0
  cqn : Nat := 0
  cqd : Nat := 0
  deriving DecidableEq, Repr

/-- Where a launch's completion is reported (R346, R401). -/
inductive Origin where
  | host (ctx : Nat) (done value : DWord)
  | program (ctx : Nat) (done : Option DWord) (value : DWord)
  | queue (q : Nat)
  deriving DecidableEq, Repr

/-- Threads that wait at a `TBAR` or `GBAR` (R387-R392): when they came, and the operands of their instruction. -/
structure Arrival where
  core : Nat
  wave : Nat
  lanes : Mask
  time : Nat
  tmo : Nat := 0
  set : TSet := .row
  mask : Word := 0
  /-- Bench key of the map of a timed-out `GBAR`, and nanoseconds in which the time-out did not run (R455). -/
  map : Option Nat := none
  paused : Nat := 0
  /-- When its wave's arrival was complete, as a number in their order (R392). -/
  whole : Option Nat := none
  deriving DecidableEq, Repr

/-- A launch from its take-up to its end (R331-R341, R387-R392, R467). -/
structure Launch where
  hdr : Header
  addr : DWord
  origin : Origin
  prio : Nat
  /-- Teams in all, placed, ended and killed, recruits among them (R343). -/
  teams : Nat := 1
  placed : Nat := 0
  /-- The next ordinal to place, and the ordinals placed early on a Bench handed over (R334, R341). -/
  nextOrd : Nat := 0
  handed : List Nat := []
  ended : Nat := 0
  killed : Nat := 0
  cancelled : Bool := false
  /-- The channel of the trestle wires that a `PHASED` launch holds (R387). -/
  channel : Option Nat := none
  phase : Word := 0
  imb : DWord := 0
  tbar : List Arrival := []
  gbar : List Arrival := []
  /-- When the cores that have arrived did so (R387). -/
  tcame : FMap Nat := []
  gcame : FMap Nat := []
  /-- `TBAR` generations of the cores, and the cores that held a team when the launch was placed (R388, R389). -/
  tgen : FMap Nat := []
  gcores : List Nat := []
  /-- The cores whose time-out has passed: with the `TBAR` generation at which it did, and at the present `GBAR` (R392). -/
  tlate : FMap Nat := []
  glate : List Nat := []
  /-- The cores on which its waves have run, recruits among them, for the release of its record (R346). -/
  ran : List Nat := []
  /-- Cluster reservation: refusals, clock of the next try, grants (R336). -/
  refusals : Nat := 0
  retryAt : Nat := 0
  grants : List Nat := []
  grantedAt : Nat := 0
  /-- The cores of the position for which it has teams saved (R338; log entry 41). -/
  spot : List Nat := []
  /-- Bench handed over by the ended launch: (ordinal, members) (R341). -/
  retained : List (Nat × List Member) := []
  /-- Quiet-stop request: its action, and the clock until which a `GBAR` is held, 0 when none is; whether the launch is
  stopped, and whether its checkpoint is being taken (R467, R468). -/
  quiet : Option (Word × Nat) := none
  stopped : Bool := false
  checkpoint : Bool := false
  /-- The stage queue that started it, and its entry (R350). -/
  entry : List Byte := []
  entryQ : Option Nat := none
  deriving DecidableEq, Repr

/-- A checkpoint of a launch as it was taken: the launch, and its teams as they were saved (R467, R468). -/
structure Checkpoint where
  launch : Launch
  teams : FMap Team
  deriving DecidableEq, Repr

/-- A stage queue (R347-R350). -/
structure StageQ where
  base : DWord := 0
  entsz : Nat := 16
  cap : Nat := 2
  rsv : Nat := 0
  policy : Nat := 0
  alarm : Option Nat := none
  ctx : Nat := 0
  /-- Entries, oldest first; an alarm entry names its source queue (R349). -/
  entries : List (Option Nat × List Byte) := []
  drops : Word := 0
  /-- Entries written to its storage since it was configured. -/
  written : Nat := 0
  /-- Waiting pushes and pops in order: core, wave, ticket, and the entry of a push. -/
  pushers : List (Nat × Nat × Nat × List Byte) := []
  poppers : List (Nat × Nat × Nat) := []
  bound : Option DWord := none
  running : Nat := 0
  deriving DecidableEq, Repr

/-- A context (R407, R345, R422). -/
structure Ctx where
  root : DWord := 0
  replay : Bool := false
  ring : DWord := 0
  tail : Nat := 0
  head : Nat := 0
  /-- Partner context of `PAIR_SET` (R422). -/
  pair : Option Nat := none
  reports : Nat := 0
  /-- Join cells and their participants, as teams and wave indices, until the continuation is reached (R344, R465). -/
  forks : List (DWord × List (Nat × Nat)) := []
  deriving DecidableEq, Repr

/-- An ingress window (R418). -/
structure Ingress where
  queue : Option Nat := none
  staging : List (List Byte) := []
  commits : List (List Byte) := []
  deriving DecidableEq, Repr

/-- A sealed region (R424-R426). -/
structure Sealed where
  ctx : Nat
  base : DWord
  pages : Nat
  tree : DWord
  root : BitVec 384
  deriving DecidableEq, Repr

/-- A replayable fault the host holds (R414). -/
structure HeldFault where
  fid : Nat
  ctx : Nat
  client : Nat
  core : Nat
  who : Nat
  va : DWord
  cause : Cause
  /-- The team of a suspended copy job, and whether `REPLAY` has come for it while no slot was free. -/
  team : Nat := 0
  replied : Bool := false
  deriving DecidableEq, Repr

/-- A breakpoint, a watchpoint and the trace configuration (R455-R463). -/
structure Bkpt where
  ctx : Nat
  addr : DWord
  deriving DecidableEq, Repr
structure Watch where
  ctx : Nat
  addr : DWord
  len : Nat
  access : Nat
  deriving DecidableEq, Repr
structure Trace where
  base : DWord := 0
  count : Nat := 0
  mode : Nat := 0
  mask : Word := 0
  k : Nat := 0
  windex : Nat := 0
  dropped : Nat := 0
  full : Bool := false
  deriving DecidableEq, Repr

/-- What the host receives for a read of a BAR or an AtomicOp to one (R416). -/
inductive HostAnswer where
  | data (bs : List Byte)
  /-- Unsupported Request: no BAR completes AtomicOps. -/
  | unsupported
  /-- The bytes cannot be read (R451); the form of the completion is the model's (log entry 70). -/
  | aborted
  deriving DecidableEq, Repr

/-- Message toward the partner board (R365, R213). -/
inductive OutMsg where
  | handoff (m : HoffMsg)
  | ret (core slot hid : Nat) (r : HoffRet)
  /-- Entries that take consecutive positions of the origin's queue, with the `PC` of the partner's word (R208, R366). -/
  | entries (core slot hid : Nat) (es : List (BitVec 128)) (pc : Nat)
  | refuse (core slot hid : Nat)
  /-- A place of a core's queue of arriving messages is free again (R365). -/
  | credit (core : Nat)
  | cancel (core slot hid : Nat)
  | kill (core slot hid : Nat)
  | pairing (entries : List (Nat × Nat))
  /-- The answer to a request: bytes, or a cause (R422); a read of whole lines answers each in its stored format with its
  tag (R236). -/
  | reply (data : List Byte) (cause : Cause)
  | lines (ls : List (Nat × List Byte))
  deriving DecidableEq, Repr

/-- A request from outside that waits for the host link or for a channel that retrains (R453, R474): one of the partner board's
context for a context of ours, and a host read of BAR4. -/
inductive OutsideReq where
  | partner (ctx target : Nat) (req : PartnerReq)
  | read (bar off n : Nat)
  deriving DecidableEq, Repr

/-- A completion record that waits for the host link (R346, R453): where it lies, with its page's policy, its bytes, and whether it is
announced. -/
structure WaitRec where
  key : Nat
  cpol : Nat := 0
  bytes : List Byte
  announce : Bool
  deriving DecidableEq, Repr

/-- A launch whose header is not read yet (R331): the context, the address, where it reports, a successor's list and the
Benches left to it with their size. -/
structure TakeUp where
  ctx : Nat
  addr : DWord
  origin : Origin
  prio : Option Nat
  retained : List (Nat × List Member)
  size : Nat
  deriving DecidableEq, Repr

/-- What the management processor is at work on (R417, R471-R474, R429). -/
inductive MpTask where
  | park (c : Nat) (tag : Word)
  /-- `CORE_RETURN` of a core whose recalibration has not ended. -/
  | giveBack (c : Nat) (tag : Word)
  | retrain (k : Nat) (tag : Word)
  | seal (ctx : Nat) (base : DWord) (pages : Nat) (tree : DWord) (tag : Word)
  /-- `INVALIDATE` of `pages` pages from `va`, 0 for all, with the cores that have not acknowledged (R413). -/
  | invalidate (ctx va pages : Nat) (tag : Word) (left : List Nat)
  /-- The restart on the slot that `FW_SWITCH` names (R471). -/
  | restart (tag : Word)
  /-- A debugger's write of lanes of a vector name that waits for a register (R272, R283). -/
  | writeVec (c slot w name : Nat) (lanes : Mask) (data : VReg) (tag : Word)
  deriving DecidableEq, Repr

/-- The kinds of agent that execute instructions. -/
inductive Agent where
  | wave | walk | jig
  deriving DecidableEq, Repr

/-- The issuing agent: a bundle of a wave, a walk in slot `wave`, or a Jig. `second` is the bundle of the other decoder
in the same clock (R97). -/
structure Cur where
  agent : Agent := .wave
  core : Nat
  wave : Nat
  lanes : Mask
  second : Bool := false
  /-- Address and length of the instruction being executed, for advancing past it. -/
  pc : DWord := 0
  len : Nat := 8
  base : DWord := 0
  deriving DecidableEq, Repr

/-- An event of the opcode table that the device's own parts bring about, as the schedule without an agenda names it
(log entry 1); the numbers are the event's arguments. -/
inductive Own where
  | walkSlotGrant (c : Nat)
  | nodeArrival (c k : Nat)
  | stackSpill (c k : Nat)
  | stackFill (c k : Nat)
  | jpopDelivery (c q : Nat)
  | remoteBenchRefusal (c op : Nat)
  | remoteBenchArrival (c op : Nat)
  | storeWritePerform (c op : Nat)
  | atomicCompletion (c op : Nat)
  | fenceCompletion (c op : Nat)
  | loadCompletion (c op : Nat)
  | sfuServiceStart (c k : Nat)
  | sfuResultWrite (c k op : Nat)
  | engineStart (c : Nat)
  | engineEffect (c : Nat)
  | macrResultWrite (c op : Nat)
  | lxLoadDone (c : Nat)
  | copySlotGrant (c : Nat)
  | copyUnitServe (c : Nat)
  | copyUnitLanded (c job u : Nat)
  | copyJobSuspend (c job : Nat)
  | asyncTrapDelivery (c w : Nat)
  | sleepExpiry (c w : Nat) (lanes : Mask)
  | waitaPoll (c w : Nat)
  | cqpopTimeout (c w : Nat) (lanes : Mask)
  | racqGrant (c k : Nat)
  | priorityPromotion (c w : Nat)
  | fetchLineArrival (g line : Nat)
  | sendStatusReturn (id : Nat)
  | depositRetry (id : Nat)
  | depositArrival (id : Nat)
  | barrierTimeout (l c : Nat)
  | teamPlacement
  | clusterRetry (l : Nat)
  | reservationExpiry (l : Nat)
  | teamRestore (t : Nat)
  | autoLaunch (q : Nat)
  | teamQuiet (t : Nat)
  | quietStopLimit (l : Nat)
  | coreInvalidateAck (c : Nat)
  | reset
  | recalibrationDone (c : Nat)
  | retrainDone
  | fwRestart
  | sealCompletion
  | ingressEntryPush (w : Nat)
  | hostCommand (ctx : Nat)
  | hostAccessTimeout (c op : Nat)
  | pcSample (c k : Nat)
  deriving DecidableEq, Repr

/-- One turn of the schedule (log entry 1). -/
inductive Act where
  /-- An event of the opcode table. -/
  | event (i : Instr)
  | own (o : Own)
  /-- Slice `s` of core `c` chooses a wave and issues its bundles (R328, R329). -/
  | slice (c s : Nat)
  /-- One bundle of a wave issues. -/
  | bundle (c w : Nat) (lanes : Mask) (second : Bool)
  /-- The Spindle or the Jig of a core executes one word. -/
  | walk (c : Nat)
  | jig (c : Nat)
  /-- A slice saves its youngest borrowing wave for register space (R272). -/
  | spill (c s : Nat)
  /-- A copy kept by a cache is dropped: which cache, core, and key (replacement, R12, R229, R355, R412). -/
  | forget (cache c key : Nat)
  /-- A request from outside, or a launch whose header is to be read, that has waited longest for a channel is served (R474). -/
  | outside
  | takeUp
  deriving DecidableEq, Repr

/-- A turn: nanoseconds and core clocks that pass before it, and what happens (log entries 1 and 2). -/
structure Turn where
  ns : Nat := 0
  clocks : Nat := 0
  /-- Clocks that the cores of stretched regions lose against the others, at most half (R475). -/
  lost : Nat := 0
  act : Act
  deriving DecidableEq, Repr

/-- The state of the Stekoest. -/
structure State where
  cores : FMap Core := []
  teams : FMap Team := []
  launches : FMap Launch := []
  /-- The checkpoint of each launch that has one (R467, R468). -/
  checks : FMap Checkpoint := []
  /-- Pending launches of each priority in order (R334). -/
  pending : FMap (List Nat) := []
  lastCore : Nat := 255
  /-- The one memory list: canonical (address, byte) pairs, an unlisted byte reads 0 (log entry 4). Keys: a local
  physical address; 2^60 + 2^18*core + offset for Bench; 2^61 + a for the host bus; 2^62 + 2^55*context + va for the
  partner window, by the partner's context. -/
  mem : List Host.Cell := []
  /-- Format tags of lines in GDDR 7, 15 for POISON (R19, R233, R451); the lines that L2 holds, most recently used first,
  and whether GDDR 7 has yet to get them (R17, R235); the lines of the node-cache partition with their tags, likewise (R18,
  R363); the compressible attribute of page frames (log entry 60). -/
  tags : FMap Nat := []
  l2 : List (Nat × Bool) := []
  ncache : List (Nat × Nat) := []
  attrs : FMap Bool := []
  /-- Owner notes: (slice, line, core) (R251). -/
  notes : List (Nat × Nat × Nat) := []
  /-- Device and group TLBs, and instruction-cache lines of each 2x2 group (R412, R352). -/
  tlb : List Tlb := []
  gtlb : FMap (List Tlb) := []
  icache : FMap (FMap (List Byte)) := []
  /-- Fetches that missed and wait for their line: (group, line, core, wave, cache policy) (R14, R352). -/
  imiss : List (Nat × Nat × Nat × Nat × Nat) := []
  /-- Registered waiters: (line, core, wave) (R351). -/
  waiters : List (Nat × Nat × Nat) := []
  queues : FMap StageQ := []
  ctxs : FMap Ctx := []
  deposits : List Deposit := []
  outbox : List OutMsg := []
  /-- Hand-off messages to each core of the partner that has not given a credit back for them (R365). -/
  handoffUsed : FMap Nat := []
  /-- Fault ring: base, count, head, tail, lost, next identifier, held faults (R414, R415). -/
  faultBase : DWord := 0
  faultCount : Nat := 0
  fhead : Nat := 0
  ftail : Nat := 0
  lost : Word := 0
  fid : Word := 0
  heldFaults : List HeldFault := []
  /-- Fault records that wait for room in the ring or for the host link (R415, R453), completion records that wait for the
  link, launches whose header read waits, and requests from outside that wait (R453, R474). -/
  faultWait : List (List Byte) := []
  recWait : List WaitRec := []
  takeUps : List TakeUp := []
  outside : List OutsideReq := []
  /-- BAR0 (R417): the CMD and RESP areas, `IERR`, raised MSI-X vectors. -/
  cmd : List Byte := List.replicate 64 0
  resp : List Byte := List.replicate 64 0
  ierr : List Word := List.replicate 64 0
  msix : List Nat := []
  /-- The device's last answer to a host read or AtomicOp (R416-R418). -/
  hostGot : Option HostAnswer := none
  ingress : FMap Ingress := []
  sealed : FMap Sealed := []
  /-- Verified marks, most recently used first: the frame, the region and the page of it that was checked there (R237); poisoned pages:
  the region and the page. -/
  verified : List (Nat × Nat × Nat) := []
  badPages : List (Nat × Nat) := []
  measure : BitVec 384 := 0
  /-- Firmware slots A and B, the running slot, the active slot (R428, R471). -/
  fwA : List Byte := []
  fwB : List Byte := []
  running : Nat := 0
  active : Nat := 0
  /-- Capabilities (R21-R24). -/
  capFlit : DWord := 0x08404020
  capCores : DWord := 256
  capMem : DWord := 0x0000600000000000
  capLink : DWord := 0
  /-- `CAPLINK` while the management processor restarts (R471). -/
  capLinkHeld : Option DWord := none
  time : Nat := 0
  /-- Core clocks of an unstretched core (R20). -/
  clocks : Nat := 0
  /-- Partner link state (R24, R25, R422): ports up, whether the partner's pairing is known. -/
  ports : List Bool := [false, false]
  /-- The partner board's pairing entries: its context and the context of ours that it names. -/
  partnerPairs : List (Nat × Nat) := []
  hostUp : Bool := false
  hostDownSince : Nat := 0
  /-- Status page counters (R496). -/
  singleBit : DWord := 0
  doubleBit : DWord := 0
  droppedWb : DWord := 0
  mhz : Nat := 2300
  watts : Nat := 0
  powerLimit : Nat := 600
  droop : List Nat := []
  /-- Channels in service, and those whose lines read as POISON (R23, R469, R474). -/
  channels : BitVec 16 := 0
  badChannels : BitVec 16 := 0
  quietExp : Nat := 24
  /-- Debug (R454-R467). -/
  armed : FMap Nat := []
  bkpts : FMap Bkpt := []
  watches : FMap Watch := []
  trace : Trace := {}
  /-- Management processor (R469-R471). -/
  booted : Bool := false
  bootStep : Nat := 0
  task : Option MpTask := none
  /-- The model's own: the schedule, the issuing bundle, the wave and registers before a clock's first bundle, whether
  the last bundle could not issue, and fresh identifiers. -/
  agenda : List Turn := []
  turns : Nat := 0
  cur : Option Cur := none
  snap : Option (Wave × FMap PReg) := none
  /-- The names that the second bundle of the clock is to write, and what the directory counted for names that its bundles have
  written: the wave, the name, and a hit or a full bucket (R280). -/
  twin : List Nat := []
  offers : List (Nat × Nat × Bool) := []
  /-- Vector names that this clock's bundles have written, by core and wave (R97, R280). -/
  wrote : List (Nat × Nat × Nat) := []
  /-- Turns whose reads wait for a channel that retrains, in the order in which they began to: they come next when it has (R474). -/
  missQ : List Act := []
  /-- Requests that have entered their Bench banks for turns whose other requests have not (R16; log entry 80). -/
  asked : List BankReq := []
  blocked : Bool := false
  fresh : Nat := 0
  freeCount : Nat := 0
  deriving DecidableEq, Repr

/-- The state right after reset: every field at the value the manual states; the others as INVENTORY.md and log
entries 3 and 4 name them. -/
def State.reset : State := {}

/-- Why the machine stops with no next state. -/
inductive Fault where
  /-- Raised by a meaning whose instruction no live agent issues: the state names no bundle, walk or Jig. Safe: the
  hardware never executes an instruction that no agent issues. -/
  | noAgent
  deriving DecidableEq, Repr

/-- Why an instruction has no meaning here. -/
inductive Refusal where
  /-- Raised by an arm of Dispatch.lean whose instruction has no meaning yet. Safe: nothing follows from it. -/
  | notModelled (mnemonic : String)
  deriving DecidableEq, Repr

end Sys2Proof.Machine
end

