-- ==== Sys2Proof/Machine/Tables.lean ====
section
/-! DEFINITION. Sparse tables, the memory list and lane lists: the plain-data containers that the machine reads and
writes through. -/
namespace Sys2Proof

/-- The entry of key `k`. -/
def FMap.get {α : Type} : FMap α → Nat → Option α
  | [], _ => none
  | (i, v) :: m, k => if i = k then some v else if k < i then none else FMap.get m k

/-- The entry of key `k`, or a default. -/
def FMap.getD {α : Type} (m : FMap α) (k : Nat) (d : α) : α :=
  match FMap.get m k with | some v => v | none => d

/-- The table with `v` at key `k`. -/
def FMap.set {α : Type} : FMap α → Nat → α → FMap α
  | [], k, v => [(k, v)]
  | (i, x) :: m, k, v =>
    if i = k then (k, v) :: m else if k < i then (k, v) :: (i, x) :: m else (i, x) :: FMap.set m k v

/-- The table without key `k`. -/
def FMap.erase {α : Type} : FMap α → Nat → FMap α
  | [], _ => []
  | (i, x) :: m, k => if i = k then m else if k < i then (i, x) :: m else (i, x) :: FMap.erase m k

/-- The table with the entry of `k` replaced by `f` of it (a default when unlisted). -/
def FMap.mod {α : Type} (m : FMap α) (k : Nat) (d : α) (f : α → α) : FMap α := FMap.set m k (f (FMap.getD m k d))

/-- The keys listed. -/
def FMap.keys {α : Type} (m : FMap α) : List Nat := m.map (·.1)

/-- Keys rise strictly. -/
def FMap.sorted {α : Type} : FMap α → Bool
  | [] => true
  | [_] => true
  | (i, _) :: (j, y) :: m => decide (i < j) && FMap.sorted ((j, y) :: m)

/-! ### Memory -/

/-- Memory as a list of cells. -/
abbrev Memory := List Host.Cell

/-- What a byte that no cell lists reads as (log entry 4). -/
def Memory.unlisted : BitVec 8 := 0

/-- The byte at `a`. -/
def Memory.read : Memory → Nat → BitVec 8
  | [], _ => Memory.unlisted
  | (i, v) :: m, a => if i = a then v else if a < i then Memory.unlisted else Memory.read m a

/-- Memory with byte `v` at `a`; writing what an unlisted byte reads as removes the cell. -/
def Memory.write : Memory → Nat → BitVec 8 → Memory
  | [], a, v => if v = Memory.unlisted then [] else [(a, v)]
  | (i, x) :: m, a, v =>
    if i = a then (if v = Memory.unlisted then m else (a, v) :: m)
    else if a < i then (if v = Memory.unlisted then (i, x) :: m else (a, v) :: (i, x) :: m)
    else (i, x) :: Memory.write m a v

/-- Every cell lies at or above `lo`, addresses rise strictly and no cell holds what an unlisted byte reads as. -/
def Memory.wfFrom : Nat → Memory → Bool
  | _, [] => true
  | lo, (i, v) :: m => decide (lo ≤ i) && decide (v ≠ Memory.unlisted) && Memory.wfFrom (i + 1) m

/-- The canonical form of memory. -/
def Memory.wf (m : Memory) : Bool := Memory.wfFrom 0 m

/-- `n` bytes from `a`. -/
def Memory.readBytes (m : Memory) (a : Nat) : Nat → List (BitVec 8)
  | 0 => []
  | n + 1 => Memory.read m a :: Memory.readBytes m (a + 1) n

/-- Memory with the bytes `bs` from `a`. -/
def Memory.writeBytes (m : Memory) (a : Nat) : List (BitVec 8) → Memory
  | [] => m
  | b :: bs => Memory.writeBytes (Memory.write m a b) (a + 1) bs

/-- Memory with `n` bytes from `a` all zero. -/
def Memory.zero (m : Memory) (a : Nat) (n : Nat) : Memory :=
  m.filter (fun c => decide (c.1 < a) || decide (a + n ≤ c.1))

/-! ### Lists and lanes -/

/-- Element `i` of a list, with a default. -/
def nth {α : Type} (l : List α) (i : Nat) (d : α) : α := l.getD i d

/-- The lanes of a wave, lowest first. -/
def lanes32 : List Nat := List.range 32

/-- The lanes of a mask, lowest first. -/
def lanesOf (m : Mask) : List Nat := lanes32.filter (fun l => m.getLsbD l)

/-- A mask of one lane. -/
def laneBit (l : Nat) : Mask := BitVec.ofNat 32 (2 ^ l)

/-- The mask of a predicate on lanes. -/
def maskOf (f : Nat → Bool) : Mask :=
  lanes32.foldl (fun acc l => if f l then acc ||| laneBit l else acc) 0

/-- The lowest lane of a mask. -/
def lowest (m : Mask) : Option Nat := (lanesOf m).head?

/-- Number of lanes of a mask. -/
def popcount (m : Mask) : Nat := (lanesOf m).length

/-- A vector value built lane by lane. -/
def vbuild (f : Nat → Word) : VReg := lanes32.map f

/-- Lane `l` of a vector value. -/
def vlane (v : VReg) (l : Nat) : Word := nth v l 0

/-- The all-zero vector value. -/
def vzero : VReg := List.replicate 32 0

/-- `a` in the lanes of the mask, `b` in the others. -/
def vmerge (m : Mask) (a b : VReg) : VReg := vbuild (fun l => if m.getLsbD l then vlane a l else vlane b l)

/-- Replace element `i` of a list. -/
def setNth {α : Type} (l : List α) (i : Nat) (v : α) : List α := l.set i v

/-- Rounding up to a multiple. -/
def roundUp (n k : Nat) : Nat := (n + k - 1) / k * k

/-- Ceiling of a quotient. -/
def ceilDiv (n k : Nat) : Nat := (n + k - 1) / k

/-- A 64-bit value from two words, low first (R12). -/
def pairOf (lo hi : Word) : DWord := hi ++ lo

/-- Words of a 64-bit value. -/
def loWord (v : DWord) : Word := v.extractLsb' 0 32
def hiWord (v : DWord) : Word := v.extractLsb' 32 32

end Sys2Proof
end

