-- ==== Sys2Proof/Machine/Float.lean ====
section
/-! DEFINITION. Arithmetic of spec/04_numbers.md: formats (R69-R73), exact values and one rounding (R74-R78), NaNs and
comparisons (R79-R82), conversion to integers (R83), flag sets (R85), the long accumulator (R87-R89) and the special
functions (R91, R92). -/
namespace Sys2Proof.Machine

/-! ### Flag sets: bit k is SR[k + 2] (R84) -/

abbrev Flags := BitVec 7
def fIV : Flags := 1
def fDZ : Flags := 2
def fOF : Flags := 4
def fUF : Flags := 8
def fIX : Flags := 16
def fIDZ : Flags := 32
def fLAC : Flags := 64

/-! ### Formats (R61, R69, R72) -/

inductive Fmt where
  | f64 | f32 | f16 | bf16 | e5m2 | e4m3
  deriving DecidableEq, Repr

def Fmt.width : Fmt → Nat
  | .f64 => 64 | .f32 => 32 | .f16 => 16 | .bf16 => 16 | .e5m2 => 8 | .e4m3 => 8
/-- Fraction bits. -/
def Fmt.fbits : Fmt → Nat
  | .f64 => 52 | .f32 => 23 | .f16 => 10 | .bf16 => 7 | .e5m2 => 2 | .e4m3 => 3
/-- Exponent bits. -/
def Fmt.ebits (f : Fmt) : Nat := f.width - 1 - f.fbits
def Fmt.bias : Fmt → Nat
  | .f64 => 1023 | .f32 => 127 | .f16 => 15 | .bf16 => 127 | .e5m2 => 15 | .e4m3 => 7
/-- Exponent of the smallest normal. -/
def Fmt.emin (f : Fmt) : Int := 1 - (f.bias : Int)
/-- Encoding of the largest finite magnitude. -/
def Fmt.maxBits (f : Fmt) : Nat :=
  match f with
  | .e4m3 => 0x7E
  | _ => (2 ^ f.ebits - 1) * 2 ^ f.fbits - 1
/-- Encoding of the infinite magnitude; E4M3 has none. -/
def Fmt.infBits (f : Fmt) : Nat := (2 ^ f.ebits - 1) * 2 ^ f.fbits
def Fmt.signBit (f : Fmt) (neg : Bool) : Nat := if neg then 2 ^ (f.width - 1) else 0
/-- The canonical NaN (R69). -/
def Fmt.canonNan (f : Fmt) : Nat :=
  match f with
  | .e4m3 => 0x7F
  | _ => (2 ^ f.ebits - 1) * 2 ^ f.fbits + 2 ^ (f.fbits - 1)

/-- Codes of R61 that name a floating-point format. -/
def fmtOfCode : Nat → Option Fmt
  | 1 => some .f32 | 2 => some .f16 | 3 => some .bf16 | 4 => some .e4m3 | 5 => some .e5m2 | 13 => some .f64
  | _ => none

/-- Width and signedness of the codes of R61 that name a plain integer format. -/
def intOfCode : Nat → Option (Nat × Bool)
  | 6 => some (8, true) | 7 => some (8, false) | 8 => some (4, true) | 9 => some (4, false)
  | 12 => some (16, true) | 14 => some (32, true)
  | _ => none

/-- Bits of an element of a format code; 0 for none. -/
def codeWidth (c : Nat) : Nat :=
  match fmtOfCode c with
  | some f => f.width
  | none => match intOfCode c with
    | some (w, _) => w
    | none => match c with | 10 => 8 | 11 => 4 | _ => 0

/-! ### Exact values (R74) -/

/-- An `ext`: a NaN with its sign, its fraction of `fb` bits and whether it is quiet; an infinity; or the number
± n/d with d > 0, whose zero keeps its sign. -/
inductive FVal where
  | nan (neg : Bool) (frac fb : Nat) (quiet : Bool)
  | inf (neg : Bool)
  | num (neg : Bool) (n d : Nat)
  deriving DecidableEq, Repr

def FVal.isNan : FVal → Bool
  | .nan _ _ _ _ => true | _ => false
def FVal.isInf : FVal → Bool
  | .inf _ => true | _ => false
def FVal.isSnan : FVal → Bool
  | .nan _ _ _ q => !q | _ => false
def FVal.isZero : FVal → Bool
  | .num _ n _ => n == 0 | _ => false
def FVal.neg : FVal → Bool
  | .nan s _ _ _ => s | .inf s => s | .num s _ _ => s
def FVal.negate : FVal → FVal
  | .nan s f w q => .nan s f w q | .inf s => .inf (!s) | .num s n d => .num (!s) n d

/-- k · 2^e as a number. -/
def scaled (neg : Bool) (k : Nat) (e : Int) : FVal :=
  if 0 ≤ e then .num neg (k * 2 ^ e.toNat) 1 else .num neg k (2 ^ (-e).toNat)

/-- The value of an encoding (R69, R70). -/
def value (f : Fmt) (b : Nat) : FVal :=
  let neg := decide (2 ^ (f.width - 1) ≤ b % 2 ^ f.width)
  let e := b / 2 ^ f.fbits % 2 ^ f.ebits
  let fr := b % 2 ^ f.fbits
  if f = .e4m3 ∧ e = 15 ∧ fr = 7 then .nan neg fr 3 true
  else if f ≠ .e4m3 ∧ e = 2 ^ f.ebits - 1 then
    if fr = 0 then .inf neg else .nan neg fr f.fbits (decide (2 ^ (f.fbits - 1) ≤ fr))
  else if e = 0 then scaled neg fr (f.emin - f.fbits)
  else scaled neg (2 ^ f.fbits + fr) ((e : Int) - f.bias - f.fbits)

/-- A signed integer as an exact value. -/
def ofInt (i : Int) : FVal := .num (decide (i < 0)) i.natAbs 1

/-! ### Rounding (R75-R77) -/

/-- `rnd` on a magnitude n/d: the integer of the mode; `odd` is the parity rule of `.RNE`. -/
def rndMag (m : Rm) (neg : Bool) (n d : Nat) : Nat :=
  let q := n / d
  let r := n % d
  match m with
  | .rz => q
  | .ru => if r ≠ 0 ∧ neg = false then q + 1 else q
  | .rd => if r ≠ 0 ∧ neg = true then q + 1 else q
  | _ => if d < 2 * r ∨ (2 * r = d ∧ q % 2 = 1) then q + 1 else q

/-- floor(log2(n/d)) for n > 0. -/
def ilog2 (n d : Nat) : Int :=
  let a : Int := (Nat.log2 n : Int) - (Nat.log2 d : Int)
  if (0 ≤ a ∧ d * 2 ^ a.toNat ≤ n) ∨ (a < 0 ∧ d ≤ n * 2 ^ (-a).toNat) then a else a - 1

/-- The integer of n/d · 2^-q in a mode. -/
def rndAt (m : Rm) (neg : Bool) (n d : Nat) (q : Int) : Nat :=
  if 0 ≤ q then rndMag m neg n (d * 2 ^ q.toNat) else rndMag m neg (n * 2 ^ (-q).toNat) d

/-- k · 2^q = n/d. -/
def eqAt (k n d : Nat) (q : Int) : Bool :=
  if 0 ≤ q then k * 2 ^ q.toNat * d == n else k * d == n * 2 ^ (-q).toNat

/-- The encoding of a NaN in a format, quietened (R79, R80). -/
def nanConv (f : Fmt) (neg : Bool) (frac fb : Nat) : Nat :=
  match f with
  | .e4m3 => f.signBit neg + 0x7F
  | _ =>
    let fr := if fb ≤ f.fbits then frac * 2 ^ (f.fbits - fb) else frac / 2 ^ (fb - f.fbits)
    let fr := if 2 ^ (f.fbits - 1) ≤ fr then fr else fr + 2 ^ (f.fbits - 1)
    f.signBit neg + f.infBits + fr

/-- The overflow result (R76). -/
def ovf (f : Fmt) (m : Rm) (neg sat : Bool) : Nat :=
  let big : Bool := match m with
    | .rz => true
    | .ru => neg
    | .rd => !neg
    | _ => false
  f.signBit neg + (if f = .e4m3 ∨ big ∨ (f = .e5m2 ∧ sat) then f.maxBits else f.infBits)

/-- `round_to` (R75): the encoding and the flags it sets. -/
def roundTo (f : Fmt) (m : Rm) (x : FVal) (sat : Bool := false) : Nat × Flags :=
  match x with
  | .nan neg frac fb quiet => (nanConv f neg frac fb, if quiet then 0 else fIV)
  | .inf neg =>
    if f = .e4m3 then (f.signBit neg + f.maxBits, fOF ||| fIX) else (f.signBit neg + f.infBits, 0)
  | .num neg n d =>
    if n = 0 then (f.signBit neg, 0)
    else
      let e := ilog2 n d
      let p : Int := f.fbits + 1
      let qu := e - p + 1
      let ku := rndAt m neg n d qu
      let q := max e f.emin - p + 1
      let k := rndAt m neg n d q
      let inexact := !eqAt k n d q
      let tiny := decide (e < f.emin) && !(decide (e + 1 = f.emin) && ku == 2 ^ (f.fbits + 1))
      let bits := (q - (f.emin - f.fbits)).toNat * 2 ^ f.fbits + k
      let fl := (if inexact then fIX else 0) ||| (if inexact && tiny then fUF else 0)
      if f.maxBits < bits then (ovf f m neg sat, fl ||| fOF ||| fIX)
      else (f.signBit neg + bits, fl)

/-! ### Operations (R74, R79) -/

/-- The result of an operation with NaN operands: the first NaN, quietened; `IV` when any signals (R79). -/
def firstNan (xs : List FVal) : Option (FVal × Flags) :=
  match xs.find? (·.isNan) with
  | some (.nan s f w _) => some (.nan s f w true, if xs.any (·.isSnan) then fIV else 0)
  | _ => none

/-- A NaN that `round_to` delivers as the canonical NaN of any format. -/
def canonExt : FVal := .nan false 1 1 true

/-- Exact product with the rules of R74 and R79, without NaN operands. -/
def mulNum (x y : FVal) : FVal × Flags :=
  let s := x.neg != y.neg
  match x, y with
  | .num _ n d, .num _ n' d' => (.num s (n * n') (d * d'), 0)
  | .inf _, b => if b.isZero then (canonExt, fIV) else (.inf s, 0)
  | a, .inf _ => if a.isZero then (canonExt, fIV) else (.inf s, 0)
  | a, _ => (a, 0)

/-- Exact sum, without NaN operands; an exact zero of opposite signs is +0, or −0 under `.RD` (R74). -/
def addNum (m : Rm) (x y : FVal) : FVal × Flags :=
  match x, y with
  | .num s n d, .num s' n' d' =>
    if n = 0 ∧ n' = 0 then (.num (if s = s' then s else m == .rd) 0 1, 0)
    else
      let a : Int := (if s then -(n : Int) else n) * d'
      let b : Int := (if s' then -(n' : Int) else n') * d
      let t := a + b
      if t = 0 then (.num (m == .rd) 0 1, 0) else (.num (decide (t < 0)) t.natAbs (d * d'), 0)
  | .inf s, .inf s' => if s = s' then (.inf s, 0) else (canonExt, fIV)
  | .inf s, _ => (.inf s, 0)
  | _, .inf s => (.inf s, 0)
  | a, _ => (a, 0)

/-- `mul_exact` (R93). -/
def mulExact (x y : FVal) : FVal × Flags :=
  match firstNan [x, y] with
  | some r => r
  | none => mulNum x y

/-- Sum rounded once. -/
def fpAdd (f : Fmt) (m : Rm) (x y : FVal) : Nat × Flags :=
  let r := match firstNan [x, y] with
    | some r => r
    | none => addNum m x y
  let z := roundTo f m r.1
  (z.1, z.2 ||| r.2)

/-- A NaN operand keeps its payload when y is negated for a difference. -/
def fpSub (f : Fmt) (m : Rm) (x y : FVal) : Nat × Flags := fpAdd f m x y.negate

def fpMul (f : Fmt) (m : Rm) (x y : FVal) : Nat × Flags :=
  let r := mulExact x y
  let z := roundTo f m r.1
  (z.1, z.2 ||| r.2)

/-- x · y + z rounded once (R74, R79). -/
def fpMac (f : Fmt) (m : Rm) (x y z : FVal) : Nat × Flags :=
  let r : FVal × Flags := match firstNan [x, y] with
    | some (v, fl) => (v, fl ||| (if z.isSnan then fIV else 0))
    | none =>
      let p := mulNum x y
      match firstNan [z] with
      | some (v, fl) => (v, fl ||| p.2)
      | none => if p.2 = fIV then p else addNum m p.1 z
  let w := roundTo f m r.1
  (w.1, w.2 ||| r.2)

/-- x < y on numbers and infinities; +0 equals −0. -/
def ltNum (x y : FVal) : Bool :=
  match x, y with
  | .num s n d, .num s' n' d' =>
    decide ((if s then -(n : Int) else n) * (d' : Int) < (if s' then -(n' : Int) else n') * (d : Int))
  | .inf s, .inf s' => s && !s'
  | .inf s, _ => s
  | _, .inf s => !s
  | _, _ => false

def eqNum (x y : FVal) : Bool := !ltNum x y && !ltNum y x

/-- Whether the first of two encodings is minimumNumber; −0 is less than +0 (R81). -/
def takesFirstMin (x y : FVal) : Bool :=
  if y.isNan then true else if x.isNan then false
  else if eqNum x y then x.neg || !y.neg else ltNum x y
def takesFirstMax (x y : FVal) : Bool :=
  if y.isNan then true else if x.isNan then false
  else if eqNum x y then !x.neg || y.neg else ltNum y x

/-- `min_num` and `max_num` (R81) on encodings of a format. -/
def fpMinMax (f : Fmt) (max : Bool) (a b : Nat) : Nat × Flags :=
  let x := value f a
  let y := value f b
  let fl : Flags := if x.isSnan || y.isSnan then fIV else 0
  if x.isNan && y.isNan then ((roundTo f .rne x).1, fl)
  else (if (if max then takesFirstMax x y else takesFirstMin x y) then a else b, fl)

/-- `cmp` on exact values (R82). -/
def fpCmp (c : Cmp) (x y : FVal) : Bool × Flags :=
  let nan := x.isNan || y.isNan
  let sig := x.isSnan || y.isSnan
  let ord : Bool := match c with | .lt => true | .le => true | .gt => true | .ge => true | _ => false
  let r := match c with
    | .eq => !nan && eqNum x y
    | .ne => nan || !eqNum x y
    | .lt => !nan && ltNum x y
    | .le => !nan && !ltNum y x
    | .gt => !nan && ltNum y x
    | .ge => !nan && !ltNum x y
    | .un => nan
    | .ord => !nan
  (r, if sig || (nan && ord) then fIV else 0)

/-- Integer comparison (R57, R98); codes `.UN` and `.ORD` are floating point only. -/
def intCmp (c : Cmp) (x y : Int) : Bool :=
  match c with
  | .eq => decide (x = y) | .ne => decide (x ≠ y) | .lt => decide (x < y) | .le => decide (x ≤ y)
  | .gt => decide (y < x) | .ge => decide (y ≤ x) | .un => false | .ord => true

/-! ### Integers -/

def maxInt (w : Nat) (sgn : Bool) : Int := if sgn then 2 ^ (w - 1) - 1 else 2 ^ w - 1
def minInt (w : Nat) (sgn : Bool) : Int := if sgn then -(2 ^ (w - 1)) else 0
/-- `sat_int` (R93). -/
def satInt (n : Int) (w : Nat) (sgn : Bool) : Int :=
  if maxInt w sgn < n then maxInt w sgn else if n < minInt w sgn then minInt w sgn else n
/-- `trunc`: the low `w` bits. -/
def truncInt (n : Int) (w : Nat) : Nat := (n % 2 ^ w).toNat
/-- The integer that `w` low bits stand for. -/
def intOf (b w : Nat) (sgn : Bool) : Int :=
  let v := b % 2 ^ w
  if sgn ∧ 2 ^ (w - 1) ≤ v then (v : Int) - 2 ^ w else v

/-- `rnd` of an exact number (R75). -/
def rndInt (m : Rm) (neg : Bool) (n d : Nat) : Int :=
  let k := rndMag m neg n d
  if neg then -(k : Int) else k

/-- `to_int` (R83): the low `w` bits and the flags. -/
def toInt (w : Nat) (sgn : Bool) (m : Rm) (x : FVal) : Nat × Flags :=
  match x with
  | .nan _ _ _ _ => (0, fIV)
  | .inf neg => (truncInt (if neg then minInt w sgn else maxInt w sgn) w, fIV)
  | .num neg n d =>
    let k := rndInt m neg n d
    if maxInt w sgn < k then (truncInt (maxInt w sgn) w, fIV)
    else if k < minInt w sgn then (truncInt (minInt w sgn) w, fIV)
    else (truncInt k w, if n % d = 0 then 0 else fIX)

/-- `FRND` (R115): `rnd` as a value of the same format, with the sign of x kept by a zero. -/
def fpRound (f : Fmt) (m : Rm) (x : FVal) : Nat × Flags :=
  match x with
  | .num neg n d =>
    let k := rndMag m neg n d
    ((roundTo f .rne (.num neg k 1)).1, if n % d = 0 then 0 else fIX)
  | _ => roundTo f m x

/-! ### The long accumulator (R87-R89) -/

/-- The rounding mode that `SR.RMODE` names (R84). -/
def rmOfMode (n : Nat) : Rm := match n with | 1 => .rz | 2 => .ru | 3 => .rd | _ => .rne

/-- `lac_add` (R88). -/
def lacAdd (a : Lac) (x : FVal) : Lac × Flags :=
  match a.cls, x with
  | .nan, _ => (a, 0)
  | _, .nan _ _ _ _ => ({ a with cls := .nan }, 0)
  | .fin, .inf neg => ({ a with cls := if neg then .ninf else .pinf }, 0)
  | .pinf, .inf neg => if neg then ({ a with cls := .nan }, fIV) else (a, 0)
  | .ninf, .inf neg => if neg then (a, 0) else ({ a with cls := .nan }, fIV)
  | .fin, .num neg n d =>
    let k : Int := ((n * 2 ^ 300 / d : Nat) : Int)
    let t := a.n.toInt + (if neg then -k else k)
    ({ a with n := BitVec.ofInt 640 t }, if t < -(2 ^ 639) ∨ 2 ^ 639 ≤ t then fLAC else 0)
  | _, .num _ _ _ => (a, 0)

/-- The exact value of a finite LAC. -/
def lacValue (a : Lac) : FVal :=
  let t := a.n.toInt
  .num (decide (t < 0)) t.natAbs (2 ^ 300)

/-- `lac_read` to a floating-point format (R89). -/
def lacRead (f : Fmt) (m : Rm) (a : Lac) : Nat × Flags :=
  match a.cls with
  | .fin => if a.n = 0 then (0, 0) else roundTo f m (lacValue a)
  | .pinf => (f.signBit false + (if f = .e4m3 then f.maxBits else f.infBits), 0)
  | .ninf => (f.signBit true + (if f = .e4m3 then f.maxBits else f.infBits), 0)
  | .nan => (f.canonNan, 0)

/-- `lac_read` to INT32 (R89). -/
def lacReadInt (m : Rm) (a : Lac) : Nat × Flags :=
  match a.cls with
  | .fin => toInt 32 true m (lacValue a)
  | .pinf => (0x7FFFFFFF, fIV)
  | .ninf => (0x80000000, fIV)
  | .nan => (0, fIV)

/-- What `MACW` makes of an element: the exact value, or the class alone (R163). -/
def lacOf (t : Lac) (x : FVal) : Lac × Flags :=
  match x with
  | .nan _ _ _ q => ({ t with cls := .nan }, if q then 0 else fIV)
  | .inf neg => ({ t with cls := if neg then .ninf else .pinf }, 0)
  | .num neg n d =>
    let k : Int := ((n * 2 ^ 300 / d : Nat) : Int)
    ({ n := BitVec.ofInt 640 (if neg then -k else k) }, 0)

/-- The exact sum of products in progress: whether a NaN, +∞ or −∞ has been met, and the finite sum in units of
2^-300 (R132, R141). -/
structure Sum where
  nan : Bool := false
  pinf : Bool := false
  ninf : Bool := false
  s : Int := 0
  fl : Flags := 0
  deriving DecidableEq, Repr

/-- One exact term more. -/
def Sum.add (a : Sum) (x : FVal) (fl : Flags) : Sum :=
  let a := { a with fl := a.fl ||| fl }
  match x with
  | .nan _ _ _ _ => { a with nan := true }
  | .inf neg => if neg then { a with ninf := true } else { a with pinf := true }
  | .num neg n d =>
    let k : Int := ((n * 2 ^ 300 / d : Nat) : Int)
    { a with s := a.s + (if neg then -k else k) }

/-- The value of a sum (R132): opposite infinities give a NaN and `IV`. -/
def Sum.value (a : Sum) : FVal × Flags :=
  if a.nan then (canonExt, a.fl)
  else if a.pinf && a.ninf then (canonExt, a.fl ||| fIV)
  else if a.pinf then (.inf false, a.fl)
  else if a.ninf then (.inf true, a.fl)
  else (.num (decide (a.s < 0)) a.s.natAbs (2 ^ 300), a.fl)

/-! ### Special functions (R91, R92) -/

/-- Integer square root by Newton's steps from above. -/
def isqrtGo : Nat → Nat → Nat → Nat
  | 0, _, x => x
  | fuel + 1, n, x => let y := (x + n / x) / 2
    if y < x then isqrtGo fuel n y else x

/-- The integer square root. -/
def isqrt (n : Nat) : Nat := if n = 0 then 0 else isqrtGo (Nat.log2 n + 2) n (2 ^ (Nat.log2 n / 2 + 1))

/-- The square root of n/d as an exact number, or a number strictly between the same neighbours of 300 extra bits:
every rounding of it is the rounding of the root. -/
def sqrtNum (n d : Nat) : FVal :=
  let k : Nat := 300 + Nat.log2 d
  let t := n * d * 2 ^ (2 * k)
  let s := isqrt t
  if s * s = t then .num false s (d * 2 ^ k) else .num false (2 * s + 1) (d * 2 ^ (k + 1))

/-- π · 2^512, rounded down. -/
def piFix : Nat :=
  0x3243f6a8885a308d313198a2e03707344a4093822299f31d0082efa98ec4e6c89452821e638d01377be5466cf34e90c6cc0ac29b7c97c50dd3f84d5b5b5470917
/-- ln 2 · 2^256, rounded down. -/
def ln2Fix : Nat := 0xb17217f7d1cf79abc9e3b39803f2f6af40f343267298b62d8a0d175b8baafa2b

/-- One in the 256-bit fixed point of the special functions. -/
def one256 : Nat := 2 ^ 256

/-- e^t for a fixed-point t below 1, by its series: `term` is t^k / k!. -/
def expSeries : Nat → Nat → Nat → Nat → Nat → Nat
  | 0, _, _, _, acc => acc
  | fuel + 1, t, k, term, acc =>
    let term' := term * t / (one256 * k)
    expSeries fuel t (k + 1) term' (acc + term')

/-- 2^t for a fixed-point 0 ≤ t < 1. -/
def exp2Fix (t : Nat) : Nat := expSeries 64 (t * ln2Fix / one256) 1 one256 one256

/-- Alternating series of sine (k0 = 1, first term t) or cosine (k0 = 0, first term 1) for a fixed-point t. -/
def trigSeries : Nat → Nat → Nat → Nat → Int → Bool → Int
  | 0, _, _, _, acc, _ => acc
  | fuel + 1, t, k, term, acc, minus =>
    let term' := term * t / one256 * t / (one256 * ((k + 1) * (k + 2)))
    trigSeries fuel t (k + 2) term' (if minus then acc - term' else acc + term') (!minus)

/-- sin t for 0 ≤ t ≤ π/4, and cos t. -/
def sinFix (t : Nat) : Int := trigSeries 40 t 1 t t true
def cosFix (t : Nat) : Int := trigSeries 40 t 0 one256 one256 true

/-- artanh(t) for a fixed-point t ≤ 1/3: the terms t^(2k+1)/(2k+1). -/
def atanhSeries : Nat → Nat → Nat → Nat → Nat → Nat
  | 0, _, _, _, acc => acc
  | fuel + 1, t, k, pw, acc =>
    let pw' := pw * t / one256 * t / one256
    atanhSeries fuel t (k + 2) pw' (acc + pw' / (k + 2))

/-- ln of a fixed-point m with 1 ≤ m < 2. -/
def lnFix (m : Nat) : Nat :=
  let t := (m - one256) * one256 / (m + one256)
  2 * atanhSeries 90 t 1 t t

/-- A fixed-point result as a number. -/
def ofFix (x : Int) : FVal := .num (decide (x < 0)) x.natAbs one256

/-- The exact value, or one between the same two FP32 values, of 2^(±n/d). The cut-offs lie beyond the range of
FP32. -/
def ex2Num (neg : Bool) (n d : Nat) : FVal :=
  if 200 * d < n then (if neg then .num false 1 (2 ^ 200) else .num false (2 ^ 200) 1)
  else if n * 2 ^ 26 < d then .num false (if neg then 2 ^ 60 - 1 else 2 ^ 60 + 1) (2 ^ 60)
  else
    let fl : Int := if neg then -(((n + d - 1) / d : Nat) : Int) else ((n / d : Nat) : Int)
    -- the fraction in [0, 1)
    let fr : Int := (if neg then -(n : Int) else n) - fl * d
    if fr = 0 then scaled false 1 fl
    else
      let t := fr.toNat * one256 / d
      scaled false (exp2Fix t) (fl - 256)

/-- log2(n/d). -/
def lg2Num (n d : Nat) : FVal :=
  let e := ilog2 n d
  let m := if 0 ≤ e then n * one256 / (d * 2 ^ e.toNat) else n * 2 ^ (-e).toNat * one256 / d
  if m = one256 then .num (decide (e < 0)) e.natAbs 1
  else ofFix (e * one256 + (lnFix m * one256 / ln2Fix : Nat))

/-- The octant and the rest of n/d modulo π/2, both from the 512-bit π: (quadrant, rest in 256-bit fixed point). -/
def reducePi (n d : Nat) : Nat × Nat :=
  let half := piFix / 2
  let x := n * 2 ^ 512 / d
  (x / half % 4, x % half / 2 ^ 256)

/-- sin of n/d by quadrant; π/2 − r is taken beyond π/4. -/
def sinQuad (quad r : Nat) : Int :=
  let h := piFix / 2 / 2 ^ 256
  let s := if r ≤ h / 2 then sinFix r else cosFix (h - r)
  let c := if r ≤ h / 2 then cosFix r else sinFix (h - r)
  match quad with
  | 0 => s | 1 => c | 2 => -s | _ => -c

/-- sin(±n/d). Below 2^-12 the sine lies between x and the FP32 value next to x toward zero. -/
def sinNum (neg : Bool) (n d : Nat) : FVal :=
  if n * 2 ^ 12 ≤ d then .num neg (n * (2 ^ 200 - 1)) (d * 2 ^ 200)
  else
    let (q, r) := reducePi n d
    let v := sinQuad q r
    ofFix (if neg then -v else v)

def cosNum (n d : Nat) : FVal :=
  if n * 2 ^ 12 ≤ d then .num false (2 ^ 60 - 1) (2 ^ 60)
  else
    let (q, r) := reducePi n d
    ofFix (sinQuad ((q + 1) % 4) r)

/-- tanh(±n/d) = (e^(2x) − 1)/(e^(2x) + 1), with e^y = 2^(y / ln 2). -/
def tanhNum (neg : Bool) (n d : Nat) : FVal :=
  if n * 2 ^ 12 ≤ d then .num neg (n * (2 ^ 200 - 1)) (d * 2 ^ 200)
  else if 40 * d ≤ n then .num neg (2 ^ 60 - 1) (2 ^ 60)
  else
    let y := 2 * n * one256 / d * one256 / ln2Fix
    let ex := exp2Fix (y % one256) * 2 ^ (y / one256)
    .num neg (ex - one256) (ex + one256)

/-- Special-function minors of R122. -/
inductive Sfu where
  | rcp | rsq | sqrt | ex2 | lg2 | sin | cos | tanh
  deriving DecidableEq, Repr

def Sfu.code : Sfu → Nat
  | .rcp => 0 | .rsq => 1 | .sqrt => 2 | .ex2 => 3 | .lg2 => 4 | .sin => 5 | .cos => 6 | .tanh => 7

/-- Infinity with a sign and `DZ`, and the invalid result (R92). -/
def sfuDz (f : Fmt) (neg : Bool) : Nat × Flags := (f.signBit neg + f.infBits, fDZ)
def sfuInvalid (f : Fmt) : Nat × Flags := (f.canonNan, fIV)

/-- One of the two values that bracket the exact value, with the flags of R91: the choice is the free value
`Config.faithfulUp`. -/
def faithful (fn : Nat) (operand : BitVec 32) (v : FVal) : Nat × Flags :=
  let dn := roundTo .f32 .rd v
  let up := roundTo .f32 .ru v
  if dn.1 = up.1 then (dn.1, 0)
  else (if Config.faithfulUp fn operand then up.1 else dn.1, (roundTo .f32 .rne v).2 ||| fIX)

/-- The result of a special function (R91, R92) on an encoding of format `f`; only `RCP` and `SQRT` have FP64
forms and a rounding mode. -/
def sfu (fn : Sfu) (f : Fmt) (m : Rm) (b : Nat) : Nat × Flags :=
  let x := value f b
  match firstNan [x] with
  | some (v, fl) => ((roundTo f .rne v).1, fl)
  | none =>
    match x with
    | .inf neg =>
      match fn with
      | .rcp => (f.signBit neg, 0)
      | .rsq => if neg then sfuInvalid f else (0, 0)
      | .sqrt => if neg then sfuInvalid f else (f.infBits, 0)
      | .ex2 => if neg then (0, 0) else (f.infBits, 0)
      | .lg2 => if neg then sfuInvalid f else (f.infBits, 0)
      | .sin => sfuInvalid f
      | .cos => sfuInvalid f
      | .tanh => roundTo f .rne (.num neg 1 1)
    | .num neg n d =>
      if n = 0 then
        match fn with
        | .rcp => sfuDz f neg
        | .rsq => sfuDz f neg
        | .sqrt => (f.signBit neg, 0)
        | .ex2 => roundTo f .rne (.num false 1 1)
        | .lg2 => sfuDz f true
        | .sin => (f.signBit neg, 0)
        | .cos => roundTo f .rne (.num false 1 1)
        | .tanh => (f.signBit neg, 0)
      else
        match fn with
        | .rcp => roundTo f m (.num neg d n)
        | .sqrt => if neg then sfuInvalid f else roundTo f m (sqrtNum n d)
        | .rsq => if neg then sfuInvalid f else faithful fn.code (BitVec.ofNat 32 b) (sqrtNum d n)
        | .ex2 => faithful fn.code (BitVec.ofNat 32 b) (ex2Num neg n d)
        | .lg2 => if neg then sfuInvalid f else faithful fn.code (BitVec.ofNat 32 b) (lg2Num n d)
        | .sin => faithful fn.code (BitVec.ofNat 32 b) (sinNum neg n d)
        | .cos => faithful fn.code (BitVec.ofNat 32 b) (cosNum n d)
        | .tanh => faithful fn.code (BitVec.ofNat 32 b) (tanhNum neg n d)
    | .nan _ _ _ _ => (0, 0)

end Sys2Proof.Machine
end

