-- ==== Sys2Proof/Machine/Bits.lean ====
section
/-! DEFINITION. Integer element arithmetic of a lane: packed elements (R71, R72, R102), the IALU, IMUL and BITS
operations on one element (R101-R108), byte and bit-field helpers (R108), and CRC-32C (R266). -/
namespace Sys2Proof.Machine

/-- Element width and signedness of an integer type (R57, R98). -/
def ITy.width : ITy → Nat
  | .b32 => 32 | .si32 => 32 | .ui32 => 32 | .si16 => 16 | .ui16 => 16 | .si8 => 8 | .ui8 => 8
def ITy.signed : ITy → Bool
  | .si32 => true | .si16 => true | .si8 => true | _ => false

/-- Element `i` of width `w` (R71). -/
def elemNat (x : Nat) (i w : Nat) : Nat := x / 2 ^ (w * i) % 2 ^ w

/-- Bits built from `n` elements of width `w`, element 0 lowest. -/
def packElems (w : Nat) (f : Nat → Nat) : Nat → Nat
  | 0 => 0
  | n + 1 => packElems w f n + f n % 2 ^ w * 2 ^ (w * n)

/-- Apply a two-operand element operation to the packed elements of a lane word. -/
def lanewise2 (t : ITy) (sgn : Bool) (f : Int → Int → Int) (x y : Word) : Word :=
  let w := ITy.width t
  BitVec.ofNat 32 (packElems w (fun i =>
    truncInt (f (intOf (elemNat x.toNat i w) w sgn) (intOf (elemNat y.toNat i w) w sgn)) w) (32 / w))

/-- The same with one operand. -/
def lanewise1 (t : ITy) (sgn : Bool) (f : Int → Int) (x : Word) : Word := lanewise2 t sgn (fun a _ => f a) x 0

/-- The same with three operands. -/
def lanewise3 (t : ITy) (sgn : Bool) (f : Int → Int → Int → Int) (x y z : Word) : Word :=
  let w := ITy.width t
  let e := fun (v : Word) (i : Nat) => intOf (elemNat v.toNat i w) w sgn
  BitVec.ofNat 32 (packElems w (fun i => truncInt (f (e x i) (e y i) (e z i)) w) (32 / w))

/-- Saturate when `sat` is set (R72, R102). -/
def satIf (sat : Bool) (t : ITy) (sgn : Bool) (n : Int) : Int := if sat then satInt n (ITy.width t) sgn else n

/-- `IABS` and `INEG` take `.B32` as signed (R98). -/
def signedOrB32 (t : ITy) : Bool := ITy.signed t || t == .b32

/-- The shifts of R102; the count is an unsigned element. -/
def shlElem (w : Nat) (x y : Nat) : Nat := if w ≤ y then 0 else x * 2 ^ y % 2 ^ w
def shrElem (w : Nat) (x y : Nat) : Nat := if w ≤ y then 0 else x / 2 ^ y
def sarElem (w : Nat) (x y : Nat) : Nat := truncInt (intOf x w true / 2 ^ (min y w)) w
def rolElem (w : Nat) (x y : Nat) : Nat := x * 2 ^ (y % w) % 2 ^ w + x / 2 ^ (w - y % w)

/-- Apply an operation on unsigned elements of the type's width. -/
def lanewiseU (t : ITy) (f : Nat → Nat → Nat → Nat) (x y : Word) : Word :=
  let w := ITy.width t
  BitVec.ofNat 32 (packElems w (fun i => f w (elemNat x.toNat i w) (elemNat y.toNat i w)) (32 / w))

/-- Quotient and remainder of R106, with whether the element divides by zero. -/
def divElem (w : Nat) (sgn : Bool) (x y : Int) : Int × Int × Bool :=
  if y = 0 then (if sgn then -1 else 2 ^ w - 1, x, true)
  else if sgn ∧ x = -(2 ^ (w - 1)) ∧ y = -1 then (x, 0, false)
  else (x.tdiv y, x.tmod y, false)

/-- `IDIV` (`rem` false) and `IREM` of a lane, with its `IDZ` flag (R106). -/
def divLane (t : ITy) (rem : Bool) (x y : Word) : Word × Bool :=
  let w := ITy.width t
  let r := fun i => divElem w (ITy.signed t) (intOf (elemNat x.toNat i w) w (ITy.signed t))
    (intOf (elemNat y.toNat i w) w (ITy.signed t))
  (BitVec.ofNat 32 (packElems w (fun i => truncInt (if rem then (r i).2.1 else (r i).1) w) (32 / w)),
    (List.range (32 / w)).any (fun i => (r i).2.2))

/-! ### Bit operations (R107, R108) -/

def popElem (w x : Nat) : Nat := ((List.range w).filter (fun k => x.testBit k)).length
def clzElem (w x : Nat) : Nat := if x = 0 then w else w - 1 - Nat.log2 x
def ctzElem (w x : Nat) : Nat := match (List.range w).find? (fun k => x.testBit k) with | some k => k | none => w
def brevElem (w x : Nat) : Nat := packElems 1 (fun k => if x.testBit (w - 1 - k) then 1 else 0) w

/-- The effective length of a bit field (R108). -/
def fieldLen (y : Nat) : Nat := let pos := y % 256; let len := y / 256 % 256
  if 32 ≤ pos then 0 else min len (32 - pos)

/-- `BFE` (R108). -/
def bfe (sgn : Bool) (x y : Word) : Word :=
  let len := fieldLen y.toNat
  if len = 0 then 0
  else BitVec.ofInt 32 (intOf (x.toNat / 2 ^ (y.toNat % 256)) len sgn)

/-- `BFI` (R108): A into C. -/
def bfi (x y z : Word) : Word :=
  let len := fieldLen y.toNat
  let pos := y.toNat % 256
  if len = 0 then z
  else
    let hole := (2 ^ len - 1) * 2 ^ pos
    (z &&& ~~~(BitVec.ofNat 32 hole)) ||| BitVec.ofNat 32 (x.toNat % 2 ^ len * 2 ^ pos)

/-- The funnel shifts (R108). -/
def fshlWord (x y z : Word) : Word :=
  let n := z.toNat % 32
  BitVec.ofNat 32 ((x.toNat * 2 ^ 32 + y.toNat) / 2 ^ (32 - n))
def fshrWord (x y z : Word) : Word := BitVec.ofNat 32 ((x.toNat * 2 ^ 32 + y.toNat) / 2 ^ (z.toNat % 32))

/-- `BPERM` (R108). -/
def bpermWord (x y z : Word) : Word :=
  let v := y.toNat * 2 ^ 32 + x.toNat
  BitVec.ofNat 32 (packElems 8 (fun k =>
    let nib := elemNat z.toNat k 4
    let b := elemNat v (nib % 8) 8
    if nib < 8 then b else if 128 ≤ b then 0xFF else 0) 4)

/-! ### CRC-32C (R266) -/

/-- One bit of the reflected CRC-32C (polynomial 0x1EDC6F41). -/
def crcBit (c : Nat) : Nat := if c % 2 = 1 then (c / 2) ^^^ 0x82F63B78 else c / 2

def crcByte (c b : Nat) : Nat := let x := c ^^^ b; crcBit (crcBit (crcBit (crcBit (crcBit (crcBit (crcBit (crcBit x)))))))

/-- CRC-32C of a vector register, lane 0 first, each lane little-endian. -/
def crcReg (v : VReg) : Word :=
  let c := v.foldl (fun c w => crcByte (crcByte (crcByte (crcByte c (elemNat w.toNat 0 8)) (elemNat w.toNat 1 8))
    (elemNat w.toNat 2 8)) (elemNat w.toNat 3 8)) 0xFFFFFFFF
  BitVec.ofNat 32 (c ^^^ 0xFFFFFFFF)

end Sys2Proof.Machine
end

