-- ==== Sys2Proof/Machine/Format.lean ====
section
/-! DEFINITION. The stored formats of a 256-byte line (R19, R233): their layouts, their expansion, and the format that a
write-back chooses (R235). -/
namespace Sys2Proof.Machine

/-- Tag of a POISON line; the reserved tags 8 to 14 read as it (R233). -/
def tagPoison : Nat := 15
def readTag (t : Nat) : Nat := if 8 ≤ t then tagPoison else t

/-- 64-byte sectors that a line of a tag occupies (R233). -/
def tagSectors : Nat → Nat
  | 1 => 1 | 2 => 1 | 3 => 2 | 4 => 3 | 5 => 3 | 6 => 3 | 7 => 4 | _ => 0

/-- The 32-bit words and the 16-bit elements of a line. -/
def lineWords (bs : List Byte) : List Nat := (List.range 64).map (fun i => leWord ((bs.drop (4 * i)).take 4))
def lineHalves (bs : List Byte) : List Nat := (List.range 128).map (fun i => leWord ((bs.drop (2 * i)).take 2))

/-- Width of a delta of the `BD` formats. -/
def deltaBits : Nat → Nat
  | 2 => 7 | 3 => 15 | _ => 23

/-- The base word that the encoder takes for deltas of `w` bits: word 0 where every word lies within a delta of it, else
the middle of the narrowest window that holds every word (log entry 60). -/
def baseWord (w : Nat) (ws : List Nat) : Nat :=
  let fits := fun (b : Nat) => ws.all (fun v => decide ((v + 2 ^ 32 + 2 ^ (w - 1) - b) % 2 ^ 32 < 2 ^ w))
  if fits (nth ws 0 0) then nth ws 0 0
  else match ws.find? (fun v => fits ((v + 2 ^ (w - 1)) % 2 ^ 32)) with
    | some v => (v + 2 ^ (w - 1)) % 2 ^ 32
    | none => nth ws 0 0

/-- Lowest bit and width of the field that a group shares in the `EXPG` formats, and the width of an element's code. -/
def sharedLo (tag : Nat) : Nat := if tag = 5 then 10 else 7
def sharedBits (tag : Nat) : Nat := if tag = 5 then 5 else 8
def codeBits (tag : Nat) : Nat := if tag = 5 then 11 else 8

/-- What GDDR 7 stores of a line in a format (R233). -/
def storedLine (tag : Nat) (bs : List Byte) : List Byte :=
  let ws := lineWords bs
  let hs := lineHalves bs
  let bits : Nat :=
    if tag = 1 then nth ws 0 0
    else if tag < 5 then
      let w := deltaBits tag
      let b := baseWord w ws
      b + 2 ^ 32 * packElems w (fun i => (nth ws i 0 + 2 ^ 32 - b) % 2 ^ w) 64
    else
      let lo := sharedLo tag
      packElems (sharedBits tag) (fun g => nth hs (16 * g) 0 / 2 ^ lo % 2 ^ sharedBits tag) 8 +
        2 ^ 64 * packElems (codeBits tag) (fun i => nth hs i 0 / 2 ^ 15 * 2 ^ lo + nth hs i 0 % 2 ^ lo) 128
  if tag = 0 then [] else if 7 ≤ tag then bs else leBytes (64 * tagSectors tag) bits

/-- A line expanded from its stored form (R233). -/
def expandLine (tag : Nat) (st : List Byte) : List Byte :=
  let n := leWord st
  if tag = 0 then List.replicate 256 0
  else if tag = 1 then (List.range 64).flatMap (fun _ => leBytes 4 n)
  else if tag < 5 then
    let w := deltaBits tag
    (List.range 64).flatMap (fun i => leBytes 4 (truncInt ((n % 2 ^ 32 : Nat) + intOf (elemNat (n / 2 ^ 32) i w) w true) 32))
  else if tag < 7 then
    let lo := sharedLo tag
    (List.range 128).flatMap (fun i =>
      let e := elemNat (n / 2 ^ 64) i (codeBits tag)
      leBytes 2 (e / 2 ^ lo * 2 ^ 15 + elemNat n (i / 16) (sharedBits tag) * 2 ^ lo + e % 2 ^ lo))
  else st

/-- Whether a format represents all bytes of a line exactly. -/
def represents (tag : Nat) (bs : List Byte) : Bool := expandLine tag (storedLine tag bs) == bs

/-- The format that a write-back chooses on a page with or without the compressible attribute (R235). -/
def lineTag (cmpr : Bool) (bs : List Byte) : Nat :=
  if bs.all (· == 0) then 0
  else if !cmpr then 7
  else ([1, 2, 3, 4, 5, 6].find? (fun t => represents t bs)).getD 7

end Sys2Proof.Machine
end

