-- ==== Sys2Proof/Machine/Memory.lean ====
section
/-! DEFINITION. Memory: the keys of the one list, the homes with poison and wakes (R10, R233-R236, R259), translation
and its faults (R409-R412), sealed pages (R237, R425), the L2 and its node-cache partition (R17, R18, R232, R235), and the L1
of a core (R229-R232). -/
namespace Sys2Proof.Machine

/-! ### Reading and replacing parts of the state -/

def State.core (s : State) (c : Nat) : Core := FMap.getD s.cores c {}
def State.setCore (s : State) (c : Nat) (x : Core) : State := { s with cores := FMap.set s.cores c x }
def State.modCore (s : State) (c : Nat) (f : Core → Core) : State := s.setCore c (f (s.core c))
def State.wave? (s : State) (c w : Nat) : Option Wave := FMap.get (s.core c).waves w
def State.wave (s : State) (c w : Nat) : Wave := FMap.getD (s.core c).waves w {}
def State.setWave (s : State) (c w : Nat) (x : Wave) : State :=
  s.modCore c (fun k => { k with waves := FMap.set k.waves w x })
/-- Change a wave that exists. -/
def State.modWave (s : State) (c w : Nat) (f : Wave → Wave) : State :=
  match s.wave? c w with
  | some x => s.setWave c w (f x)
  | none => s
/-- The slice of a wave slot: 16 slots a slice (R12). A number from 64 on stands for a wave that has left its slot (`gone`). -/
def sliceOf (w : Nat) : Nat := w % 64 / 16
def State.slice (s : State) (c k : Nat) : Slice := FMap.getD (s.core c).slices k {}
def State.setSlice (s : State) (c k : Nat) (x : Slice) : State :=
  s.modCore c (fun q => { q with slices := FMap.set q.slices k x })
def State.modSlice (s : State) (c k : Nat) (f : Slice → Slice) : State := s.setSlice c k (f (s.slice c k))
def State.team (s : State) (t : Nat) : Team := FMap.getD s.teams t { launch := 0, ctx := 0, members := [] }
def State.modTeam (s : State) (t : Nat) (f : Team → Team) : State :=
  match FMap.get s.teams t with
  | some x => { s with teams := FMap.set s.teams t (f x) }
  | none => s
def State.launch (s : State) (l : Nat) : Launch :=
  FMap.getD s.launches l { hdr := {}, addr := 0, origin := .queue 0, prio := 0 }
def State.modLaunch (s : State) (l : Nat) (f : Launch → Launch) : State :=
  match FMap.get s.launches l with
  | some x => { s with launches := FMap.set s.launches l (f x) }
  | none => s
def State.launchOf (s : State) (w : Wave) : Launch := s.launch (s.team w.team).launch
def State.ctxOf (s : State) (w : Wave) : Nat := (s.team w.team).ctx
/-- Change a context that exists. -/
def State.modCtx (s : State) (ctx : Nat) (f : Ctx → Ctx) : State :=
  match FMap.get s.ctxs ctx with
  | some x => { s with ctxs := FMap.set s.ctxs ctx (f x) }
  | none => s
/-- `CLK` of a core (R20). -/
def State.clkOf (s : State) (c : Nat) : Nat := s.clocks - (s.core c).lag
/-- A fresh identifier. -/
def State.newId (s : State) : Nat × State := (s.fresh, { s with fresh := s.fresh + 1 })

/-! ### Keys of the memory list -/

def benchKey (c off : Nat) : Nat := 2 ^ 60 + c * 2 ^ 18 + off
def hostKey (a : Nat) : Nat := 2 ^ 61 + a
/-- The partner window: an address of a context of the partner board. -/
def partnerKey (ctx va : Nat) : Nat := 2 ^ 62 + ctx * 2 ^ 55 + va
def isLocal (k : Nat) : Bool := decide (k < 2 ^ 60)
def isBench (k : Nat) : Bool := decide (2 ^ 60 ≤ k) && decide (k < 2 ^ 61)
def isHost (k : Nat) : Bool := decide (2 ^ 61 ≤ k) && decide (k < 2 ^ 62)
def isPartner (k : Nat) : Bool := decide (2 ^ 62 ≤ k)
/-- Member core of a Bench key. -/
def benchCore (k : Nat) : Nat := (k - 2 ^ 60) / 2 ^ 18
/-- The 256-byte line of a key. -/
def lineOf (k : Nat) : Nat := k / 256 * 256

/-! ### Homes -/

/-- Line keys that a span touches. -/
def linesOf (k n : Nat) : List Nat :=
  (List.range ((k + n + 255) / 256 - k / 256)).map (fun i => (k / 256 + i) * 256)

/-- Home L2 slice of a local physical address (R10). -/
def homeSlice (a : Nat) : Nat :=
  ((a / 2 ^ 8 % 32) ^^^ (a / 2 ^ 13 % 32) ^^^ (a / 2 ^ 18 % 32) ^^^ (a / 2 ^ 23 % 32) ^^^ (a / 2 ^ 28 % 32) ^^^
    (a / 2 ^ 33 % 16))

/-- Whether a span of local memory has a line on a channel that failed its training: such a line stays POISON (R469,
R474). -/
def State.badSpan (s : State) (k n : Nat) : Bool :=
  s.badChannels != 0 && (linesOf k n).any (fun l => s.badChannels.getLsbD (homeSlice l / 2))

/-- Whether a line carries the tag POISON, or a reserved one that reads as it (R233); of a host or partner line it says that an L1 has
written it back as POISON (R451; log entry 101). -/
def State.poisoned (s : State) (l : Nat) : Bool := readTag (FMap.getD s.tags l 0) == tagPoison

/-- Whether a line is the spill area of a resident walk (R173, R364). -/
def State.spillArea (s : State) (l : Nat) : Bool :=
  s.cores.any (fun c => c.2.sp.walks.any (fun x => x.2.area == some l))

/-- Bytes read at a key as any agent but its Spindle sees them: those of a walk's spill area are unspecified (R173). -/
def State.seen (s : State) (k : Nat) (bs : List Byte) : List Byte :=
  let ls := (linesOf k bs.length).filter s.spillArea
  if ls.isEmpty then bs
  else (List.range bs.length).map (fun i => if ls.contains (lineOf (k + i)) then Config.spillByte s.clocks (k + i) else nth bs i 0)

/-- `n` bytes at a key, `none` when a line of them is POISON (R234) or a Bench word of them is poisoned
(R451). The memory list holds every line expanded (log entry 60). -/
def State.stored (s : State) (k n : Nat) : Option (List Byte) :=
  if !isBench k && ((linesOf k n).any s.poisoned || (isLocal k && s.badSpan k n)) then none
  else if isBench k && (List.range n).any (fun i => (s.core (benchCore k)).benchPoison.contains ((k + i) / 4)) then none
  else some (Memory.readBytes s.mem k n)

/-- What a read of `n` bytes at a key gives. -/
def State.homeRead (s : State) (k n : Nat) : Option (List Byte) := (s.stored k n).map (s.seen k)

/-! ### L2, the node-cache partition and stored lines (R17, R18, R232, R233, R235, R236) -/

/-- The compressible attribute of the page of a local line, as the latest translation for a write gave it (R235, R236). -/
def State.compressible (s : State) (l : Nat) : Bool := FMap.getD s.attrs (l / 65536) false

/-- MiB of the node-cache partition, `CAPMEM.NCACHE` (R18, R23). -/
def State.nodeMiB (s : State) : Nat := (s.capMem.extractLsb' 48 8).toNat
/-- Lines of a slice's general part (3 MiB less its share of the partition), and 64-byte sectors of its share: 32 KiB per MiB
(R17). -/
def State.l2Cap (s : State) : Nat := 12288 - 128 * s.nodeMiB
def State.nodeCap (s : State) : Nat := 512 * s.nodeMiB

/-- The channel whose retraining has begun (R474). -/
def State.retraining (s : State) (l : Nat) : Bool :=
  match s.task with
  | some (.retrain k _) => homeSlice l / 2 == k
  | _ => false

/-- A dirty line of L2 goes to GDDR 7 in its stored format; it stays in L2, clean. While its channel retrains it stays
as it is (R235, R474). -/
def State.l2Clean (s : State) (l : Nat) : State :=
  if s.l2.contains (l, true) && !s.retraining l then
    { s with
      l2 := s.l2.map (fun e => if e.1 = l then (l, false) else e)
      tags := if s.badSpan l 256 then s.tags else FMap.set s.tags l (lineTag (s.compressible l) (Memory.readBytes s.mem l 256)) }
  else s

/-- A line leaves L2, after its write-back. -/
def State.l2Drop (s : State) (l : Nat) : State :=
  let s := s.l2Clean l
  { s with l2 := s.l2.filter (fun e => e.1 != l || e.2) }

/-- The least recent lines of a slice leave until at most `n` stay (R17). -/
def State.l2Trim (s : State) (h n : Nat) : State :=
  ((s.l2.filter (fun e => homeSlice e.1 == h)).drop n).foldl (fun s e => s.l2Drop e.1) s

/-- A line is held in L2, most recently used, or as the next victim (`STREAM`); the least recent line of a full slice
leaves (R17, R232). -/
def State.l2Put (s : State) (l : Nat) (dirty last : Bool) : State :=
  let old := s.l2.find? (fun e => e.1 == l)
  let s := if old.isNone then s.l2Trim (homeSlice l) (s.l2Cap - 1) else s
  let e := (l, dirty || old.any (·.2))
  let rest := s.l2.filter (fun e => e.1 != l)
  { s with l2 := if last then rest ++ [e] else e :: rest }

/-- An access of a cache policy has passed through L2: `UNCACHED` leaves nothing there (R232). -/
def State.l2Use (s : State) (k n cpol : Nat) : State :=
  if isLocal k then
    (linesOf k n).foldl (fun s l => if cpol = 3 then s.l2Drop l else s.l2Put l false (cpol == 2)) s
  else s

/-- The tag of a line that L2 does not hold dirty, and its stored form there; one that was never written back is stored as
it is. -/
def State.formatOf (s : State) (l : Nat) (bs : List Byte) : Nat :=
  match FMap.get s.tags l with | some t => readTag t | none => lineTag false bs

/-- The tag with which a local line leaves the general part of L2: of its newer bytes where it is dirty there, else its own. -/
def State.tagNow (s : State) (l : Nat) (bs : List Byte) : Nat :=
  if s.l2.contains (l, true) then lineTag (s.compressible l) bs else s.formatOf l bs

/-- The lines of one slice's share of the partition, most recent first, that `n` sectors hold (R17, R363). -/
def fitSectors : Nat → List (Nat × Nat) → List (Nat × Nat)
  | _, [] => []
  | n, e :: r => if tagSectors e.2 ≤ n then e :: fitSectors (n - tagSectors e.2) r else []

/-- A slice's share of the partition keeps the lines that fit; only node lines put others out (R18, R363). -/
def State.nodeTrim (s : State) (h : Nat) : State :=
  let keep := fitSectors s.nodeCap (s.ncache.filter (fun (e : Nat × Nat) => homeSlice e.1 == h))
  { s with ncache := s.ncache.filter (fun (e : Nat × Nat) => homeSlice e.1 != h || keep.contains e) }

/-- The partition's copy of a written line is merged and encoded again (R235). -/
def State.nodeUpdate (s : State) (l : Nat) : State :=
  if s.ncache.any (fun e => e.1 == l) then
    State.nodeTrim { s with ncache := s.ncache.map (fun e =>
        if e.1 = l then (l, lineTag (s.compressible l) (Memory.readBytes s.mem l 256)) else e) } (homeSlice l)
  else s

/-- A node line is held in its slice's share of the partition, in its stored format with its tag; only other node lines evict
it. A line of a `STREAM` page is the next victim there, and one of an `UNCACHED` page is not held (R232). With a partition of 0 MiB it
is held in the general part (R18, R363). -/
def State.nodePut (s : State) (l cpol : Nat) : State :=
  if s.nodeCap = 0 ∨ cpol = 3 then s.l2Use l 1 cpol
  else
    let old := s.ncache.filter (fun e => e.1 == l)
    let e := match old with | e :: _ => e | [] => (l, s.tagNow l (Memory.readBytes s.mem l 256))
    let rest := s.ncache.filter (fun e => e.1 != l)
    if cpol = 2 then
      let keep := fitSectors (s.nodeCap - tagSectors e.2) (rest.filter (fun (x : Nat × Nat) => homeSlice x.1 == homeSlice l))
      { s with ncache := rest.filter (fun (x : Nat × Nat) => homeSlice x.1 != homeSlice l || keep.contains x) ++ [e] }
    else State.nodeTrim { s with ncache := e :: rest } (homeSlice l)

/-- A whole local line as a fill port gives it: expanded from its stored form by its tag alone where L2 holds no newer one
(R229, R236). -/
def State.fillPort (s : State) (l : Nat) : Option (List Byte) :=
  (s.homeRead l 256).map (fun bs =>
    if !isLocal l || s.l2.contains (l, true) then bs
    else let t := s.formatOf l bs; expandLine t (storedLine t bs))

/-- A local line as it crosses the pairing link: its tag and its stored form (R236). -/
def State.linkLine (s : State) (l : Nat) : Nat × List Byte :=
  let bs := s.seen l (Memory.readBytes s.mem l 256)
  let t := if s.spillArea l then lineTag false bs else s.tagNow l bs
  (t, storedLine t bs)

/-- Whether a read of a span misses in L2 while its channel retrains: it waits (R474). -/
def State.missWait (s : State) (k n : Nat) : Bool :=
  isLocal k && s.task.isSome && (linesOf k n).any (fun l => s.retraining l && !s.l2.any (fun e => e.1 == l))

/-! ### Wakes and writes at a home (R234, R259) -/

/-- A write that reaches a home wakes every wave registered on the line (R259). -/
def State.wakeLine (s : State) (line : Nat) : State :=
  (s.waiters.filter (fun x => x.1 == line)).foldl (fun s x =>
    s.modWave x.2.1 x.2.2 (fun w => { w with waits := w.waits.map (fun v =>
      match v.kind with
      | .waita q r i n _ => if q.line = line then { v with kind := .waita q r i n true } else v
      | _ => v) }))
    { s with waiters := s.waiters.filter (fun x => x.1 != line) }

/-- Write bytes at a home or a bank. A partial write to a POISON line is dropped and answers false; a write of the
whole line clears the poison (R234); a full write of a poisoned Bench word clears it (R451). A write that reaches a
line takes its page's verified mark (R425). -/
def State.homeWrite (s : State) (k : Nat) (bs : List Byte) : State × Bool :=
  let n := bs.length
  if isLocal k then
    let ls := linesOf k n
    let bad := ls.filter s.poisoned
    if bad.any (fun p => decide (p < k) || decide (k + n < p + 256)) || s.badSpan k n then (s, false)
    else
      let pages := ls.map (· / 65536)
      let s := { s with
        mem := Memory.writeBytes s.mem k bs
        tags := bad.foldl (fun m p => FMap.erase m p) s.tags
        verified := s.verified.filter (fun p => !pages.contains p.1) }
      (ls.foldl (fun s l => ((s.wakeLine l).l2Put l true false).nodeUpdate l) s, true)
  else if isBench k then
    let s := s.modCore (benchCore k) (fun c => { c with benchPoison := c.benchPoison.filter (fun w =>
      decide (4 * w < k) || decide (k + n < 4 * w + 4)) })
    ({ s with mem := Memory.writeBytes s.mem k bs }, true)
  else
    let bad := (linesOf k n).filter s.poisoned
    if bad.any (fun p => decide (p < k) || decide (k + n < p + 256)) then (s, false)
    else ({ s with
      mem := Memory.writeBytes s.mem k bs
      tags := bad.foldl (fun m p => FMap.erase m p) s.tags
      verified := s.verified.filter (fun p => !((linesOf k n).map (· / 65536)).contains p.1) }, true)

/-- Little-endian number of the bytes at a key. -/
def State.homeNat (s : State) (k n : Nat) : Option Nat := (s.homeRead k n).map leWord

/-! ### Translation (R409-R412) -/

/-- Fields of a table entry (R410). -/
def leafFrame (e : DWord) : Nat := (e.extractLsb' 16 36).toNat * 2 ^ 16
def leafCpol (e : DWord) : Nat := (e.extractLsb' 7 2).toNat
def leafCmpr (e : DWord) : Bool := e.getLsbD 6
def leafSeal (e : DWord) : Bool := e.getLsbD 5
def leafEx (e : DWord) : Bool := e.getLsbD 4
def leafWr (e : DWord) : Bool := e.getLsbD 3
def leafRd (e : DWord) : Bool := e.getLsbD 2
def leafNch (e : DWord) : Bool := e.getLsbD 58
def leafSys (e : DWord) : Bool := e.getLsbD 57
def leafPeer (e : DWord) : Bool := e.getLsbD 56

/-- log2 of the bytes that a leaf of a level maps (R409). -/
def levelSize : Nat → Nat
  | 1 => 42 | 2 => 29 | _ => 16

/-- The checks of R410 on a valid entry of a level. -/
def entryOk (e : DWord) (level : Nat) : Bool :=
  e.extractLsb' 59 5 == 0 && e.extractLsb' 52 4 == 0 && e.extractLsb' 10 6 == 0 && !e.getLsbD 1 &&
  !(leafPeer e && leafSys e) &&
  (if e.getLsbD 9 then
    (leafFrame e % 2 ^ levelSize level == 0) &&
    (leafPeer e || leafSys e || decide (leafFrame e + 2 ^ levelSize level ≤ Config.usableBytes))
   else level != 3 && e.extractLsb' 2 7 == 0 && !leafPeer e && !leafSys e && !leafNch e &&
    decide (leafFrame e < Config.usableBytes))

/-- Walk the tables from `table` at `level`, `fuel` levels deep: the leaf and its level. -/
def State.walkTables (s : State) (va : Nat) : Nat → Nat → Nat → Except Cause (DWord × Nat)
  | 0, _, _ => .error .protection
  | fuel + 1, level, table =>
    match s.homeNat (table + 8 * (va / 2 ^ levelSize level % 8192)) 8 with
    | none => .error .uncorrectable
    | some v =>
      let e : DWord := BitVec.ofNat 64 v
      if !e.getLsbD 0 then .error .pageNotPresent
      else if !entryOk e level then .error .protection
      else if e.getLsbD 9 then .ok (e, level)
      else s.walkTables va fuel (level + 1) (leafFrame e)

/-- Whether a held translation maps `va` of a context. -/
def Tlb.hits (t : Tlb) (ctx va : Nat) : Bool := t.ctx == ctx && t.page == va / 2 ^ t.size

/-- The 2x2 group of a core: even x and y (R12). -/
def groupOf (c : Nat) : Nat := c / 32 * 8 + c % 16 / 2

/-- Which translation buffers an access looks in: a core's, its group's for an instruction fetch, or the device's
(R412). -/
inductive Via where
  | core (c : Nat) | group (c : Nat) | device
  deriving DecidableEq, Repr

/-- Translations that an access finds held. -/
def State.heldTlbs (s : State) : Via → List Tlb
  | .core c => (s.core c).tlb ++ FMap.getD s.gtlb (groupOf c) [] ++ s.tlb
  | .group c => FMap.getD s.gtlb (groupOf c) [] ++ s.tlb
  | .device => s.tlb

/-- Translate a virtual address: a held translation first, core then group then device; else the tables, whose leaf
every level then holds (R412). Which held copies are dropped earlier is the schedule's (`Act.forget`). -/
def State.translate (s : State) (via : Via) (ctx va : Nat) : State × Except Cause (DWord × Nat) :=
  match (s.heldTlbs via).find? (·.hits ctx va) with
  | some t => (s, .ok (t.leaf, t.size))
  | none =>
    match FMap.get s.ctxs ctx with
    | none => (s, .error .pageNotPresent)
    | some x =>
      match s.walkTables va 3 1 x.root.toNat with
      | .error e => (s, .error e)
      | .ok (leaf, level) =>
        let t : Tlb := { ctx := ctx, page := va / 2 ^ levelSize level, size := levelSize level, leaf := leaf }
        let s := { s with tlb := (t :: s.tlb).take 32768 }
        let grp := fun (s : State) (c : Nat) =>
          { s with gtlb := FMap.set s.gtlb (groupOf c) ((t :: FMap.getD s.gtlb (groupOf c) []).take 2048) }
        (match via with
          | .core c => (grp s c).modCore c (fun k => { k with tlb := (t :: k.tlb).take 256 })
          | .group c => grp s c
          | .device => s, .ok (leaf, levelSize level))

/-- The uses of a page (R411). -/
inductive Use where
  | read | write | atomic | fetch
  deriving DecidableEq, Repr

/-- `ACCESS` of a fault record (R415). -/
def Use.code : Use → Nat
  | .read => 0 | .write => 1 | .atomic => 2 | .fetch => 3

/-- An access that translated: its key, cache policy, whether the page is sealed and its compressible attribute. -/
structure Place where
  key : Nat
  cpol : Nat := 0
  sealed : Bool := false
  nch : Bool := false
  /-- log2 of the page's bytes. -/
  page : Nat := 16
  deriving DecidableEq, Repr

/-- Whether the boards are paired, which `CAPLINK.PAIRED` reports (R24, R422). While the management processor restarts, the register keeps
its value and what is checked here is the pairing itself: the model's choice (R213, R471; log entry 104). -/
def State.paired (s : State) : Bool :=
  s.ports.any id && s.ctxs.any (fun x => x.2.pair.isSome) && !s.partnerPairs.isEmpty

/-- The fault of an access of a context to the partner window, when the link or the pairing does not allow it (R422,
R423). -/
def State.peerFault (s : State) (ctx : Nat) : Option Cause :=
  if !s.paired then some .linkDown
  else match (FMap.get s.ctxs ctx).bind (fun x => x.pair) with
    | some p => if s.partnerPairs.contains (p, ctx) then none else some .protection
    | none => some .protection

/-- The partner's context that a context is paired with (R422). -/
def State.peerCtx (s : State) (ctx : Nat) : Nat := ((FMap.get s.ctxs ctx).bind (fun x => x.pair)).getD 0

/-- The key that a leaf gives an address of a context. -/
def State.leafKey (s : State) (ctx : Nat) (leaf : DWord) (size va : Nat) : Nat :=
  let key := leafFrame leaf + va % 2 ^ size
  if leafSys leaf then hostKey key
  else if leafPeer leaf then partnerKey (s.peerCtx ctx) (key % 2 ^ 55) else key

/-- The place of a global virtual address for a use, or the first fault of R290 items 3, 4 and 6 with its position
in that list. -/
def State.place (s : State) (via : Via) (ctx : Nat) (va : DWord) (u : Use) : State × Except (Nat × Cause) Place :=
  if va.extractLsb' 55 9 != 0 then (s, .error (3, .protection))
  else
    match s.translate via ctx va.toNat with
    | (s, .error e) => (s, .error (4, e))
    | (s, .ok (leaf, size)) =>
      let writes := u == .write || u == .atomic
      let needRd := u == .read || u == .atomic
      if u == .fetch && !leafEx leaf then (s, .error (4, .protection))
      else if needRd && !leafRd leaf then (s, .error (4, .protection))
      else if writes && !leafSeal leaf && !leafWr leaf then (s, .error (4, .protection))
      else if leafPeer leaf && (s.peerFault ctx).isSome then (s, .error (4, (s.peerFault ctx).getD .linkDown))
      else if writes && leafSeal leaf then (s, .error (6, .sealedWrite))
      else
        let k := s.leafKey ctx leaf size va.toNat
        let s := if isLocal k && writes then { s with attrs := FMap.set s.attrs (k / 65536) (leafCmpr leaf) } else s
        (s, .ok { key := k, cpol := leafCpol leaf, sealed := leafSeal leaf, nch := leafNch leaf, page := size })

/-- Whether an access to host memory has waited 100 ms for the link (R453). -/
def State.hostLate (s : State) : Bool := !s.hostUp && decide (s.hostDownSince + 100000000 ≤ s.time)
/-- Whether writes and reads toward host memory wait for the link (R453). -/
def State.hostHeld (s : State) : Bool := !s.hostUp && !s.hostLate

/-- Whether a walk of the tables reads a line whose channel retrains: it waits (R474). -/
def State.tablesWait (s : State) (va : Nat) : Nat → Nat → Nat → Bool
  | 0, _, _ => false
  | fuel + 1, level, table =>
    let a := table + 8 * (va / 2 ^ levelSize level % 8192)
    s.missWait a 8 || (match s.homeNat a 8 with
      | none => false
      | some v =>
        let e : DWord := BitVec.ofNat 64 v
        e.getLsbD 0 && entryOk e level && !e.getLsbD 9 && s.tablesWait va fuel (level + 1) (leafFrame e))

/-- Whether the translation of an address waits for a channel that retrains (R474). -/
def State.transWaits (s : State) (via : Via) (ctx : Nat) (va : DWord) : Bool :=
  s.task.isSome && !(s.heldTlbs via).any (·.hits ctx va.toNat) &&
  (FMap.get s.ctxs ctx).any (fun x => s.tablesWait va.toNat 3 1 x.root.toNat)

/-- Whether an access of `n` bytes at an address waits at its tables or its frame: for the host link, which it does for 100 ms,
or for a channel that retrains, which only a read does (R453, R474). -/
def State.frameWaits (s : State) (via : Via) (ctx : Nat) (va : DWord) (reads : Bool) (n : Nat) : Bool :=
  (s.hostHeld || s.task.isSome) && (s.transWaits via ctx va ||
    (match (s.translate via ctx va.toNat).2 with
      | .ok (leaf, size) =>
        if leafSys leaf then s.hostHeld
        else reads && !leafPeer leaf && s.missWait (leafFrame leaf + va.toNat % 2 ^ size) n
      | .error _ => false))

/-! ### Sealed pages (R237, R424, R425) -/

inductive PageCheck where
  | verified | waiting | bad
  deriving DecidableEq, Repr

/-- The sealed region of a context that holds a virtual address, with its number. -/
def State.regionOf (s : State) (ctx va : Nat) : Option (Nat × Sealed) :=
  s.sealed.find? (fun (e : Nat × Sealed) => e.2.ctx == ctx && decide (e.2.base.toNat ≤ va) &&
    decide (va < e.2.base.toNat + 65536 * e.2.pages))

/-- The mark of the page of a region that holds an address, on the frame where the address lies. -/
def State.markOf (s : State) (ctx va k : Nat) : Option (Nat × Nat × Nat) :=
  (s.regionOf ctx va).map (fun r => (k / 65536, r.1, (va - r.2.base.toNat) / 65536))

/-- The state of a page with `SEAL`: bad when its check has failed or when no region of the context holds it. A mark is of one page
of a region on one frame: another page that is mapped to that frame is checked anew (R237). -/
def State.pageCheck (s : State) (ctx va k : Nat) : PageCheck :=
  match s.markOf ctx va k with
  | none => .bad
  | some m => if s.badPages.contains m.2 then .bad else if s.verified.contains m then .verified else .waiting

/-- A digest as a byte string (R427). -/
def digestBytes (d : BitVec 384) : List Byte := (leBytes 48 d.toNat).reverse
/-- Little-endian field of a byte list. -/
def fieldAt (bs : List Byte) (o n : Nat) : Nat := leWord ((bs.drop o).take n)
/-- A digest read from bytes. -/
def digestOf (bs : List Byte) : BitVec 384 := BitVec.ofNat 384 (leWord bs.reverse)

/-- Where the device's own reads of a context find an address, whatever uses its leaf allows: the check of a page is no read by a
client, so the page and its tree need no `RD` (R424, R425). -/
def State.frameAt (s : State) (ctx : Nat) (va : DWord) : Option Place :=
  match (s.translate .device ctx va.toNat).2 with
  | .error _ => none
  | .ok (leaf, size) =>
    if leafPeer leaf && (s.peerFault ctx).isSome then none
    else some { key := s.leafKey ctx leaf size va.toNat, cpol := leafCpol leaf, sealed := leafSeal leaf, nch := leafNch leaf, page := size }

/-- Bytes of a context at the homes, one translation a byte; `none` when one cannot be read. -/
def State.digestRead (s : State) (ctx : Nat) (va : DWord) : Nat → Option (List Byte)
  | 0 => some []
  | n + 1 => match s.frameAt ctx va with
    | none => none
    | some p => match s.homeRead p.key 1 with
      | none => none
      | some b => (s.digestRead ctx (va + 1) n).map (fun r => b ++ r)

/-- Levels above the leaves of a tree over `n` pages (R424). -/
def treeLevels (n : Nat) : Nat := if n ≤ 1 then 0 else Nat.log2 (n - 1) + 1
/-- Address of digest `j` of level `l` of a tree with `L` levels above the leaves. -/
def treeVa (tree : DWord) (L l j : Nat) : DWord := tree + BitVec.ofNat 64 (48 * (2 ^ (L + 1) - 2 ^ (L - l + 1) + j))

/-- Climb from digest `h` of index `j` at level `l` to the root, reading each sibling (R425). -/
def State.climb (s : State) (r : Sealed) (L : Nat) : Nat → Nat → BitVec 384 → Option (BitVec 384)
  | 0, _, h => some h
  | n + 1, j, h => match s.digestRead r.ctx (treeVa r.tree L (L - (n + 1)) (if j % 2 = 0 then j + 1 else j - 1)) 48 with
    | none => none
    | some sib => s.climb r L n (j / 2)
        (Config.sha384 (if j % 2 = 0 then digestBytes h ++ sib else sib ++ digestBytes h))

/-- A verified mark as the most recently used; a slice keeps 128 and drops the least recently used (R237). -/
def State.addMark (s : State) (m : Nat × Nat × Nat) : State :=
  let h := fun (p : Nat × Nat × Nat) => homeSlice (p.1 * 65536)
  let rest := s.verified.filter (· != m)
  let same := rest.filter (fun p => h p == h m)
  { s with verified := m :: rest.filter (fun p => !((same.drop 127).contains p)) }

/-- A sealed page's mark, when it has one, is the most recently used (R237). -/
def State.touchMark (s : State) (sealed : Bool) (ctx va k : Nat) : State :=
  match s.markOf ctx va k with
  | some m => if sealed && s.verified.contains m then s.addMark m else s
  | none => s

/-- Check frame `f` as page `i` of region `n`: a mark on a match, poison for the life of the seal on a mismatch (R237, R425). A frame on
a channel that retrains waits (R474). -/
def State.verifyFrame (s : State) (n : Nat) (r : Sealed) (i f : Nat) : State :=
  if s.badPages.contains (n, i) || s.verified.contains (f, n, i) || s.missWait (65536 * f) 65536 then s
  else
    let L := treeLevels r.pages
    let ok := match s.homeRead (65536 * f) 65536 with
      | none => false
      | some bs => s.climb r L L i (Config.sha384 bs) == some r.root
    if ok then s.addMark (f, n, i) else { s with badPages := (n, i) :: s.badPages }

/-- Frames that reads in flight have translated page `i` of region `n` to, also where it has been mapped anew since (R413; log entry
110). -/
def State.framesRead (s : State) (n i : Nat) : List Nat :=
  (s.cores.flatMap (fun e => e.2.ops.flatMap (fun o => o.lanes.filterMap (fun a =>
    if !a.sealed then none
    else match s.markOf (s.ctxOf (s.wave e.1 o.wave)) a.va.toNat a.key with
      | some m => if m.2 = (n, i) then some m.1 else none
      | none => none)))).eraseDups

/-- Verify page `i` of region `n`: the frame that its address has now, where its leaf is sealed, and those that reads in flight wait
for (R237, R425). -/
def State.verifyPage (s : State) (n : Nat) (r : Sealed) (i : Nat) : State :=
  let here := match s.frameAt r.ctx (r.base + BitVec.ofNat 64 (65536 * i)) with
    | some p => if p.sealed then [p.key / 65536] else []
    | none => []
  (here ++ s.framesRead n i).foldl (fun s f => s.verifyFrame n r i f) s

/-- Whether the verification of page `i` of a region waits: for the page, or for a sibling of its path (R425, R453, R474). -/
def State.verifyWaits (s : State) (r : Sealed) (i : Nat) : Bool :=
  s.frameWaits .device r.ctx (r.base + BitVec.ofNat 64 (65536 * i)) true 65536 ||
  (List.range (treeLevels r.pages)).any (fun l => (List.range 48).any (fun b =>
    s.frameWaits .device r.ctx (treeVa r.tree (treeLevels r.pages) l ((i / 2 ^ l) ^^^ 1) + BitVec.ofNat 64 b) true 1))

/-- Whether a read of a sealed page waits for what its verification reads. -/
def State.sealWaits (s : State) (ctx va k : Nat) : Bool :=
  (s.hostHeld || s.task.isSome) && s.pageCheck ctx va k == .waiting &&
  (s.regionOf ctx va).any (fun r => s.verifyWaits r.2 ((va - r.2.base.toNat) / 65536))

/-- Whether an access of `n` bytes at an address waits, with the verification of its page (R237, R453, R474). -/
def State.vaWaits (s : State) (via : Via) (ctx : Nat) (va : DWord) (reads : Bool) (n : Nat) : Bool :=
  s.frameWaits via ctx va reads n || (reads && (s.hostHeld || s.task.isSome) &&
    (match (s.place via ctx va .read).2 with
      | .ok p => p.sealed && s.sealWaits ctx va.toNat p.key
      | .error _ => false))

/-- The check of a page before a read that the model performs in one step: a page not yet verified is verified first. -/
def State.sealOk (s : State) (ctx va k : Nat) : State × Bool :=
  match s.pageCheck ctx va k with
  | .verified => (s.touchMark true ctx va k, true)
  | .bad => (s, false)
  | .waiting => match s.regionOf ctx va with
    | none => (s, false)
    | some r =>
      let s := s.verifyFrame r.1 r.2 ((va - r.2.base.toNat) / 65536) (k / 65536)
      (s, s.pageCheck ctx va k == .verified)

/-! ### L1 (R229-R232) -/

def Core.line? (c : Core) (l : Nat) : Option Line := c.l1.find? (·.addr == l)

/-- The sector mask bits and the dirty bytes as tests. -/
def Line.hasByte (x : Line) (i : Nat) : Bool := x.valid.getLsbD (i / 64) || x.dirty.getLsbD i

/-- Replace a line and make it the most recent; `last` puts it last, as the next victim (`STREAM`, R232). -/
def Core.putLine (c : Core) (x : Line) (last : Bool) : Core :=
  let rest := c.l1.filter (·.addr != x.addr)
  let x := { x with stream := last }
  { c with l1 := if last then rest ++ [x] else x :: rest }

/-- Whether a line's home cannot be written now: host memory whose link is down (R453). -/
def State.homeHeld (s : State) (l : Nat) : Bool := isHost l && s.hostHeld
/-- Whether a line's home is out of reach for good: its write-backs are lost (R423, R453, log entry 61). -/
def State.homeLost (s : State) (l : Nat) : Bool := (isHost l && !s.hostUp && s.hostLate) || (isPartner l && !s.paired)

/-- Kill the load-reuse entries of a core that read one of some lines or spans, and the entries that loads in flight would
make (R277). -/
def State.killLoads (s : State) (c : Nat) (global : Bool) (spans : List Nat) : State :=
  let span := fun (o : Op) (a : LaneAcc) => if o.bench then a.key / 128 * 128 else lineOf a.key
  s.modCore c (fun k => { k with
    slices := k.slices.map (fun (i, sl) =>
      (i, { sl with reuse := sl.reuse.filter (fun e => match e.load with
        | some r => !(r.global == global && r.spans.any (fun x => spans.contains x))
        | none => true) }))
    ops := k.ops.map (fun o =>
      if o.bench != global && o.key.isSome && o.lanes.any (fun a => spans.contains (span o a)) then { o with key := none } else o) })

/-- Write the dirty bytes of a line back to its home (R230). The line stays, clean. Bytes for a POISON line that do not
cover it are dropped and counted (R234); the line then holds nothing, as where its home is out of reach, so that the next read finds
what the home has, and load entries of it are killed (R261, R277). -/
def State.writeBack (s : State) (c l : Nat) : State :=
  match (s.core c).line? l with
  | none => s
  | some x =>
    if x.dirty = 0 || s.homeHeld l then s
    else
      let idx := (List.range 256).filter (fun i => x.dirty.getLsbD i)
      let full := fun (v : BitVec 4) => if idx.length = 256 then (0xF : BitVec 4) else v
      let lost := s.homeLost l
      let dropped := (s.poisoned l && idx.length != 256) || (isLocal l && s.badSpan l 256)
      let s := s.modCore c (fun k => { k with l1 := k.l1.map (fun y =>
        if y.addr = l then { y with dirty := 0, mark := false, valid := if lost || dropped then 0 else full y.valid } else y) })
      if lost then s.killLoads c true [l]
      else if dropped then { s.killLoads c true [l] with droppedWb := s.droppedWb + 1 }
      else
        let s := { s with
          mem := idx.foldl (fun m i => Memory.write m (l + i) (nth x.data i 0)) s.mem
          tags := if s.poisoned l then FMap.erase s.tags l else s.tags
          verified := s.verified.filter (fun p => p.1 != l / 65536) }
        if isLocal l then ((s.wakeLine l).l2Put l true x.stream).nodeUpdate l else s

/-- Whether dirty lines of a core wait for a home that cannot be reached yet: a release that writes them back waits for them
(R230, R243, R453). -/
def State.homesPending (s : State) (c : Nat) : Bool := (s.core c).l1.any (fun x => x.dirty != 0 && s.homeHeld x.addr)

/-- Remove a line, after its write-back; one whose write-back is held back stays. -/
def State.dropLine (s : State) (c l : Nat) : State :=
  ((s.writeBack c l).modCore c (fun k => { k with l1 := k.l1.filter (fun x => x.addr != l || x.dirty != 0) })).killLoads c true [l]

/-- Room for a line in its set of 8 ways: the least recent unpinned way goes (R229). `false`: every way is pinned. -/
def State.l1Room (s : State) (c l : Nat) : State × Bool :=
  let set := (s.core c).l1.filter (fun x => x.addr / 256 % 64 == l / 256 % 64 && x.addr != l)
  if set.length < 8 then (s, true)
  else match (set.reverse).find? (fun x => x.pins.isEmpty && !(x.dirty != 0 && s.homeHeld x.addr)) with
    | some v => (let t := s.dropLine c v.addr; (t, ((t.core c).line? v.addr).isNone))
    | none => (s, false)

/-- The line with the sectors of `[i, i + n)` filled from the home; dirty bytes stand. `none`: the home's line is
POISON. -/
def State.fillLine (s : State) (c l i n : Nat) (last : Bool) : Option State :=
  let old : Line := match (s.core c).line? l with
    | some x => x
    | none => { addr := l, valid := 0, dirty := 0, data := List.replicate 256 0 }
  let need := (List.range 4).filter (fun q => decide (q * 64 < i + n) && decide (i < q * 64 + 64) && !old.valid.getLsbD q)
  if need.isEmpty then some (s.modCore c (fun k => k.putLine old last))
  else match s.fillPort l with
    | none => none
    | some bs =>
      let s := s.l2Use l 256 (if last then 2 else 0)
      let data := (List.range 256).map (fun j =>
        if need.contains (j / 64) && !old.dirty.getLsbD j then nth bs j 0 else nth old.data j 0)
      let valid := need.foldl (fun v q => v ||| BitVec.ofNat 4 (2 ^ q)) old.valid
      let (s, ok) := match (s.core c).line? l with
        | some _ => (s, true)
        | none => s.l1Room c l
      if ok then some (s.modCore c (fun k => k.putLine { old with data := data, valid := valid, checked := false } last)) else some s

/-- Read through the L1 on a policy that allocates, else at the home (R229, R232). `none`: UNCORRECTABLE. -/
def State.readGlobal (s : State) (c : Nat) (k cpol n : Nat) (vol : Bool) : State × Option (List Byte) :=
  if vol || cpol == 1 || cpol == 3 then (s.l2Use k n cpol, s.homeRead k n)
  else
    let l := lineOf k
    match s.fillLine c l (k - l) n (cpol == 2) with
    | none => (s, none)
    | some s' => match (s'.core c).line? l with
      | some x => (s', some (s'.seen k ((List.range n).map (fun j => nth x.data (k - l + j) 0))))
      | none => (s', s.homeRead k n)

/-- Write into the L1 as dirty bytes (R230), or at the home where no way is free for the line. -/
def State.writeL1 (s : State) (c k : Nat) (bs : List Byte) (last : Bool) : State × Bool :=
  let l := lineOf k
  let (s, ok) := match (s.core c).line? l with
    | some _ => (s, true)
    | none => s.l1Room c l
  if !ok then
    let (s, ok) := s.homeWrite k bs
    (if last && ok then s.l2Use k bs.length 2 else s, ok)
  else
    let old : Line := match (s.core c).line? l with
      | some x => x
      | none => { addr := l, valid := 0, dirty := 0, data := List.replicate 256 0 }
    let o := k - l
    let data := (List.range 256).map (fun j =>
      if o ≤ j ∧ j < o + bs.length then nth bs (j - o) 0 else nth old.data j 0)
    let dirty := (List.range bs.length).foldl (fun (d : BitVec 256) j => d ||| BitVec.ofNat 256 (2 ^ (o + j))) old.dirty
    (s.modCore c (fun q => q.putLine { old with data := data, dirty := dirty, checked := false } last), true)

/-- The issuing core's copy of a line goes home and is invalidated before an access at the home (R302, R311). -/
def State.pushHome (s : State) (c k : Nat) : State :=
  if isBench k then s
  else
    let l := lineOf k
    match (s.core c).line? l with
    | none => s
    | some x => if x.pins.isEmpty then s.dropLine c l
      else ((s.writeBack c l).modCore c (fun q => { q with l1 := q.l1.map (fun y =>
        if y.addr = l then { y with valid := 0 } else y) })).killLoads c true [l]

/-- A sealed read finds in L1 only what was filled from a verified page and not changed since: any other copy goes home first, which
takes the page's mark, and is filled anew (R237, R425; log entry 110). -/
def State.sealLine (s : State) (c k : Nat) : State :=
  if ((s.core c).line? (lineOf k)).any (fun x => x.dirty != 0 || !x.checked) then s.pushHome c k else s

/-- The line that a sealed read has filled. -/
def State.lineChecked (s : State) (c k : Nat) : State :=
  s.modCore c (fun q => { q with l1 := q.l1.map (fun x => if x.addr = lineOf k then { x with checked := true } else x) })

/-- Every dirty line of a core goes home, and its owner notes for them go (a DEVICE-scope release, R230, R250, R251). -/
def State.flushDirty (s : State) (c : Nat) : State :=
  let ls := ((s.core c).l1.filter (·.dirty != 0)).map (·.addr)
  ls.foldl (fun s l => s.writeBack c l) { s with notes := s.notes.filter (fun n => !(n.2.2 == c && ls.contains n.2.1)) }

/-- Every clean line of a core is invalidated, and in a line with dirty bytes every other byte (log entry 62); pinned lines
stay pinned, without their sectors (R230). The load entries of the lines are killed (R277). -/
def State.invalidateClean (s : State) (c : Nat) : State :=
  (s.modCore c (fun k => { k with l1 := (k.l1.filter (fun x => !(x.dirty == 0 && x.pins.isEmpty))).map (fun x =>
    { x with valid := 0 }) })).killLoads c true ((s.core c).l1.map (·.addr))

end Sys2Proof.Machine
end

