-- ==== Sys2Proof/Machine/Dovetail.lean ====
section
/-! DEFINITION. The Dovetail register file: names and rotation (R263-R265), physical registers and deduplication
(R266-R269), charges and borrowing (R270, R342), and the reuse table (R273-R279). -/
namespace Sys2Proof.Machine

/-! ### Names -/

/-- The physical register of a name. -/
def Wave.reg (x : Wave) (n : Nat) : Nat := FMap.getD x.names n 0
def Wave.setReg (x : Wave) (n p : Nat) : Wave :=
  { x with names := if p = 0 then FMap.erase x.names n else FMap.set x.names n p }
/-- Whether the block of a name is mapped (R263). -/
def Wave.mapped (x : Wave) (n : Nat) : Bool := x.blocks.getLsbD (n / 64)

/-- A name after the rotating window, `none` for ROT_RANGE (R264). -/
def Wave.rotate (x : Wave) (n : Nat) : Option Nat :=
  if x.rotSize = 0 ∨ n < 1536 then some n
  else if x.rotSize ≤ n - 1536 then none
  else some (1536 + (n - 1536 + x.rotBase) % x.rotSize)

/-! ### Physical registers -/

/-- A register written with a value of a context, with the parts of its tag that hold until it is freed (R266). -/
def PReg.written (v : VReg) (ctx : Nat) : PReg :=
  { data := v, ctx := ctx, hash := crcReg v, zero := v == vzero, uniform := v == vbuild (fun _ => vlane v 0) }

/-- Register `p` of a register file; register 0 is the constant zero (R267). -/
def pregOf (ph : FMap PReg) (p : Nat) : PReg :=
  if p = 0 then .written vzero 0 else FMap.getD ph p { data := vzero }

/-- The waves of a slice. -/
def State.sliceWaves (s : State) (c k : Nat) : List (Nat × Wave) :=
  (s.core c).waves.filter (fun x => sliceOf x.1 == k)

/-- Every register that a name of the slice maps, once a name. -/
def State.named (s : State) (c k : Nat) : List Nat :=
  (s.sliceWaves c k).flatMap (fun x => x.2.names.map (·.2))

/-- `COUNT` of a register (R266). -/
def State.countOf (s : State) (c k p : Nat) : Nat := ((s.named c k).filter (· == p)).length

/-- The tag of a register as a debug dump of its slice shows it (R266, R267). -/
def State.regTag (s : State) (c k p : Nat) : DWord :=
  let r := pregOf (s.slice c k).phys p
  BitVec.ofNat 64 (r.hash.toNat * 2 ^ 32 + (if r.zero then 2 ^ 31 else 0) + (if r.uniform then 2 ^ 30 else 0) +
    (if r.pending then 2 ^ 29 else 0) + r.ctx % 64 * 2 ^ 23 + s.countOf c k p % 1024 * 2 ^ 13)

def Dest.regs : Dest → List Nat
  | .vec _ ps => ps
  | _ => []

/-- Registers that an operation in flight holds (R271): those of its destination, those that it reads when it completes, and the
sources on which an `SMOV` waits (R111). -/
def Op.holds (o : Op) : List Nat :=
  o.dest.regs ++ o.transit ++ (if o.kind == .smov then (o.lanes.filter (fun a => a.data.isEmpty)).map (·.key) else [])

/-- Registers that operations in flight of the slice hold (R271). -/
def State.held (s : State) (c k : Nat) : List Nat :=
  (s.slice c k).sfu.flatMap (fun e => e.dest.regs ++ e.transit) ++
  ((s.core c).eng.filter (fun e => sliceOf e.wave == k)).flatMap (fun e => e.dest.regs ++ e.regs) ++
  ((s.core c).ops.filter (fun o => sliceOf o.wave == k)).flatMap Op.holds

/-- Transit registers of a wave: those that its operations in flight hold and no name of it maps (R271). -/
def State.transits (s : State) (c w : Nat) : List Nat :=
  let mine := (s.wave c w).names.map (·.2)
  ((((s.slice c (sliceOf w)).sfu.filter (·.wave == w)).flatMap (fun e => e.dest.regs ++ e.transit) ++
    ((s.core c).eng.filter (·.wave == w)).flatMap (fun e => e.dest.regs ++ e.regs) ++
    ((s.core c).ops.filter (·.wave == w)).flatMap Op.holds).filter
      (fun p => p != 0 && !mine.contains p)).eraseDups

/-- A key item that names a physical register; other items lie below this. -/
def regItem (p : Nat) : Nat := 2 ^ 80 + p
/-- Key items of a scalar value and of a predicate mask; an immediate is its value itself (R274). -/
def scalarItem (v : Nat) : Nat := 2 ^ 70 + v
def maskItem (v : Nat) : Nat := 2 ^ 71 + v

/-- Whether the registers of a key are referenced. -/
def keyLive (key named : List Nat) : Bool := key.all (fun i => decide (i < 2 ^ 80 + 1) || named.contains (i - 2 ^ 80))

/-- A reuse entry lives while its result registers and the registers of its key are referenced (R273, R282; log
entry 10). -/
def ReuseEntry.live (e : ReuseEntry) (named : List Nat) : Bool :=
  (match e.result with
    | .regs ps => ps.all (fun p => p == 0 || named.contains p)
    | .pred _ => true) &&
  keyLive e.key named

/-- A load in flight whose key names a register that is free makes no entry: another value may take the register before the load
completes (R273, R282). -/
def State.dropKeys (s : State) (c k : Nat) (named : List Nat) : State :=
  s.modCore c (fun x => { x with ops := x.ops.map (fun o =>
    if sliceOf o.wave == k && o.key.any (fun q => !keyLive q named) then { o with key := none } else o) })

/-- Free every register without a reference; a register held by an operation in flight keeps its contents (R266,
R268, R271, R273). -/
def State.sweep (s : State) (c k : Nat) : State :=
  let nm := s.named c k
  let hd := s.held c k
  (s.modSlice c k (fun x => { x with
    phys := x.phys.filter (fun e => nm.contains e.1 || hd.contains e.1)
    dir := x.dir.map (fun b => (b.1, b.2.filter (fun e => nm.contains e.2)))
    reuse := x.reuse.filter (fun e => e.live nm) })).dropKeys c k nm

/-- The lowest free register (R266, R267). -/
def State.freeReg (s : State) (c k : Nat) : Option Nat :=
  let nm := s.named c k
  let hd := s.held c k
  (List.range 1024).find? (fun p => p != 0 && (FMap.get (s.slice c k).phys p).isNone && !nm.contains p && !hd.contains p)

/-- Map every name of register `p` to `q`, and the entries that name it (R268). -/
def State.renameReg (s : State) (c k p q : Nat) : State :=
  let s := s.modCore c (fun x => { x with
    waves := x.waves.map (fun y =>
    if sliceOf y.1 = k then (y.1, { y.2 with names := (y.2.names.map (fun e => if e.2 = p then (e.1, q) else e)).filter (fun e => e.2 != 0) })
    else y)
    ops := x.ops.map (fun o => if sliceOf o.wave == k then
      { o with key := o.key.map (fun l => l.map (fun i => if i = regItem p then regItem q else i)) } else o) })
  s.modSlice c k (fun x => { x with
    phys := FMap.erase x.phys p
    reuse := x.reuse.map (fun e => { e with
      result := (match e.result with
        | .regs ps => .regs (ps.map (fun r => if r = p then q else r))
        | r => r)
      key := e.key.map (fun i => if i = regItem p then regItem q else i) }) })

/-- Add to the counters of the wave that names `p` (R285). -/
def State.countWrite (s : State) (c k p : Nat) (hit : Bool) : State :=
  match (s.sliceWaves c k).find? (fun y => (y.2.names.map (·.2)).contains p) with
  | some y =>
    let s := if s.snap.isNone then s
      else { s with offers := (y.2.names.filter (fun e => e.2 == p)).map (fun e => (y.1, e.1, hit)) ++ s.offers }
    s.modWave c y.1 (fun x => if hit then { x with dhit := x.dhit + 1 } else { x with dfull := x.dfull + 1 })
  | none => s

/-- Place a register in its bucket, lowest free slot first (R268). -/
def State.placeReg (s : State) (c k p b : Nat) : State :=
  let slots := FMap.getD (s.slice c k).dir b []
  match (List.range 4).find? (fun i => (FMap.get slots i).isNone) with
  | some i => s.modSlice c k (fun x => { x with dir := FMap.set x.dir b (FMap.set slots i p) })
  | none => s.countWrite c k p false

/-- A scalar result of an operation arrives in `m` scalars from `n`, with values unless it has no active lane; scalars
that a debugger has written meanwhile keep its value (R460). -/
def Wave.arrive (x : Wave) (id n m : Nat) (vs : Option (List Word)) : Wave :=
  let keep := (List.range m).filter (fun i => !x.sDrop.contains (id, n + i))
  { x with
    sreg := (match vs with
      | some l => keep.foldl (fun r i => setNth r (n + i) (nth l i 0)) x.sreg
      | none => x.sreg)
    sPend := keep.foldl (fun b i => b &&& ~~~(BitVec.ofNat 128 (2 ^ (n + i)))) x.sPend
    sDrop := x.sDrop.filter (fun e => e.1 != id) }

/-- Fill scalars that an `SMOV` left PENDING on register `p` with the value that its source name, the `va` of its lane, has in its
wave (R111). -/
def State.fillSmov (s : State) (c k p : Nat) (v : Nat → Nat → VReg) : State :=
  let upd := fun (o : Op) => if o.kind == .smov && sliceOf o.wave == k then
    { o with lanes := o.lanes.map (fun a => if a.key = p && a.data.isEmpty then
      { a with data := leBytes 4 (vlane (v o.wave a.va.toNat) a.lane).toNat } else a) } else o
  let s := s.modCore c (fun x => { x with ops := x.ops.map upd })
  let full := fun (o : Op) => o.kind == .smov && o.lanes.all (fun a => !a.data.isEmpty)
  let done := (s.core c).ops.filter full
  let s := done.foldl (fun s o => match o.dest with
    | .sca n _ => s.modWave c o.wave (fun x => x.arrive o.id n o.lanes.length
        (some (o.lanes.map (fun a => BitVec.ofNat 32 (leWord a.data)))))
    | _ => s) s
  s.modCore c (fun x => { x with ops := x.ops.filter (fun o => !full o) })

/-- A write completes into register `p` (R268): all-zero values go to register 0, a value shared while PENDING stays,
and any other value is merged with an equal register of its context or placed in the directory. -/
def State.settle (s : State) (c k p : Nat) (v : VReg) : State :=
  let n := s.countOf c k p
  let s := s.fillSmov c k p (fun _ _ => v)
  if v = vzero then s.renameReg c k p 0
  else
    let ctx := (pregOf (s.slice c k).phys p).ctx
    let s := s.modSlice c k (fun x => { x with phys := FMap.set x.phys p (.written v ctx) })
    if n ≠ 1 then s
    else
      let b := (crcReg v).toNat % 256
      let slots := FMap.getD (s.slice c k).dir b []
      match slots.find? (fun e => let r := pregOf (s.slice c k).phys e.2
          e.2 != p && r.ctx == ctx && r.hash == crcReg v && r.data == v && !r.pending && !r.poison) with
      | some e =>
        if s.countOf c k e.2 < 1023 then (s.countWrite c k p true).renameReg c k p e.2
        else (s.modSlice c k (fun x => { x with dir := FMap.set x.dir b (FMap.erase slots e.1) })).placeReg c k p b
      | none => s.placeReg c k p b

/-- A fresh register becomes the PENDING destination of a name (R265). `none`: no register is free (R272). -/
def State.pendVec (s : State) (c w n : Nat) : Option (Nat × State) :=
  match s.freeReg c (sliceOf w) with
  | none => none
  | some p =>
    let ctx := s.ctxOf (s.wave c w)
    let s := s.modSlice c (sliceOf w) (fun x => { x with
      phys := FMap.set x.phys p { data := vzero, pending := true, ctx := ctx } })
    some (p, ({ s with wrote := (c, w, n) :: s.wrote } : State).modWave c w (fun x => x.setReg n p))

/-- Write a value to a name (R95, R268); the register that the name leaves is freed first, when nothing else names it.
`none`: no register is free (R272). -/
def State.writeVec (s : State) (c w n : Nat) (v : VReg) : Option State :=
  match s.pendVec c w n with
  | none => none
  | some (p, s) => some (((s.sweep c (sliceOf w)).settle c (sliceOf w) p v).sweep c (sliceOf w))

/-- Make names PENDING, with the registers that they got. -/
def State.pendVecs (s : State) (c w : Nat) : List Nat → Option (List Nat × State)
  | [] => some ([], s)
  | n :: r => match s.pendVec c w n with
    | none => none
    | some (p, s) => match s.pendVecs c w r with
      | none => none
      | some (ps, s) => some (p :: ps, s)

/-- Results reach their registers (R265, R268). -/
def State.settles (s : State) (c k : Nat) : List (Nat × VReg) → State
  | [] => s
  | (p, v) :: r => (s.settle c k p v).settles c k r

/-- Write names: each gets a register of its own before one of those that they leave is free again (R95, R268). -/
def State.writeVecs (s : State) (c w : Nat) (vs : List (Nat × VReg)) : Option State :=
  (s.pendVecs c w (vs.map (·.1))).map (fun r =>
    ((r.2.sweep c (sliceOf w)).settles c (sliceOf w) (r.1.zip (vs.map (·.2)))).sweep c (sliceOf w))

/-! ### Charges (R270, R342) -/

def Wave.charge (x : Wave) : Nat := 64 * popcount x.blocks + 8

/-- Sum of the charges of the reserved waves of a slice that have not ended (R270, R342). -/
def State.reservedSum (s : State) (c k : Nat) : Nat :=
  (((s.sliceWaves c k).filter (fun x => !x.2.borrowing && x.2.ended != 0xFFFFFFFF)).map (fun x => x.2.charge)).foldl (· + ·) 0

/-- Free registers of a slice. -/
def State.freeRegs (s : State) (c k : Nat) : Nat :=
  let nm := s.named c k
  ((List.range 1024).filter (fun p => p != 0 && (FMap.get (s.slice c k).phys p).isNone && !nm.contains p)).length

/-- Borrowing waves become reserved, oldest first, while the sum allows (R270). -/
def State.promote (s : State) (c k : Nat) : State :=
  ((s.sliceWaves c k).filter (fun x => x.2.borrowing)).foldl (fun s _ =>
    let bs := (s.sliceWaves c k).filter (fun x => x.2.borrowing)
    match bs.foldl (fun m x => match m with
        | none => some x
        | some y => if x.2.admitted < y.2.admitted then some x else some y) (none : Option (Nat × Wave)) with
    | none => s
    | some x => if s.reservedSum c k + x.2.charge ≤ 1023 then s.modWave c x.1 (fun y => { y with borrowing := false })
      else s) s

/-- A slice that needs a register saves its youngest borrowing wave (R272), of all but `but`. -/
def State.spillBut (s : State) (c k : Nat) (but : Option Nat) : State :=
  let bs := (s.sliceWaves c k).filter (fun x => x.2.borrowing && !x.2.saving && some x.1 != but)
  if (s.sliceWaves c k).any (fun x => x.2.saving) then s
  else match bs.foldl (fun (m : Option (Nat × Wave)) x => match m with
      | none => some x
      | some y => if y.2.admitted < x.2.admitted then some x else some y) none with
    | none => s
    | some x => s.modWave c x.1 (fun y => { y with saving := true })
def State.spillWave (s : State) (c k : Nat) : State := s.spillBut c k none

/-- Mapping blocks makes every name of them FULL and zero (R263); unmapping drops their references. -/
def Wave.mapBlocks (x : Wave) (m : Word) : Wave := { x with blocks := x.blocks ||| m }
def Wave.unmapBlocks (x : Wave) (m : Word) : Wave :=
  { x with
    blocks := x.blocks &&& ~~~m
    names := x.names.filter (fun e => !(m.getLsbD (e.1 / 64))) }

/-- The `n` lowest-numbered unmapped blocks (R404). -/
def Wave.lowestUnmapped (x : Wave) (n : Nat) : Word :=
  maskOf (fun b => ((((List.range 32).filter (fun q => !x.blocks.getLsbD q)).take n).contains b))

/-! ### Reuse (R273-R279) -/

/-- A live entry with the key, of the context. -/
def State.reuseFind (s : State) (c k ctx : Nat) (key : List Nat) : Option ReuseEntry :=
  (s.slice c k).reuse.find? (fun e => e.ctx == ctx && e.key == key)

/-- Entries with a new one, most recently hit first: a set keeps 4 ways, and its least recently hit way goes (R273). -/
def reuseInsert (e : ReuseEntry) (l : List ReuseEntry) : List ReuseEntry :=
  let rest := l.filter (fun y => !(y.ctx == e.ctx && y.key == e.key))
  if rest.length < 4 then e :: rest
  else
    let gone := (rest.filter (fun y => Config.reuseSet y.key == Config.reuseSet e.key)).drop 3
    e :: rest.filter (fun y => !gone.contains y)

/-- A new entry of the table (R273); none when a register that it names is already free (R282). -/
def State.reuseAdd (s : State) (c k : Nat) (e : ReuseEntry) : State :=
  if e.live (s.named c k) then s.modSlice c k (fun x => { x with reuse := reuseInsert e x.reuse }) else s

/-- A hit makes the entry the most recent. -/
def State.reuseTouch (s : State) (c k : Nat) (e : ReuseEntry) : State := s.reuseAdd c k e

/-- A tile changes: its write generation advances, and the entries of `MACR`s that have read it are killed (R156, R277). -/
def Core.changeTile (k : Core) (t : Nat) (f : Tile → Tile) : Core :=
  { k with
    tiles := FMap.mod k.tiles t {} (fun y => { f y with gen := y.gen + 1 })
    slices := k.slices.map (fun e => (e.1, { e.2 with reuse := e.2.reuse.filter (fun r => r.tile != some t) })) }

/-- Fence generations of the 16 wave slots of a slice (R279). -/
def State.gensOf (s : State) (c k : Nat) : List Word :=
  (List.range 16).map (fun i => (s.wave c (16 * k + i)).fgen)

/-- Advance a wave's fence generation; a wrap kills every load entry of the slice (R279). -/
def State.advanceGen (s : State) (c w : Nat) : State :=
  let g := (s.wave c w).fgen + 1
  let s := s.modWave c w (fun x => { x with fgen := g })
  if g = 0 then s.modSlice c (sliceOf w) (fun x => { x with reuse := x.reuse.filter (fun e => e.load.isNone) }) else s

end Sys2Proof.Machine
end

