-- ==== Sys2Proof/Machine/Flags.lean ====
section
/-! DEFINITION. The status register's fields, its sticky and enable bits, the flag set of an instruction and the
cause that an enabled flag reports (R84-R86). -/
namespace Sys2Proof.Machine

/-! ### Status register (R84) -/

def srS (v : Word) : Bool := v.getLsbD 31
def srH (v : Word) : Bool := v.getLsbD 30
def srPP (v : Word) : Bool := v.getLsbD 29
def setBit32 (v : Word) (n : Nat) (b : Bool) : Word :=
  if b then v ||| BitVec.ofNat 32 (2 ^ n) else v &&& ~~~(BitVec.ofNat 32 (2 ^ n))
/-- The sticky bits and the enable bits as flag sets (R84). -/
def srSticky (v : Word) : Flags := v.extractLsb' 2 7
def srEnable (v : Word) : Flags := v.extractLsb' 11 7
/-- OR a flag set into the sticky bits (R85). -/
def srOr (v : Word) (f : Flags) : Word := v ||| (BitVec.zeroExtend 32 f <<< 2)
/-- The effective rounding mode (R57, R84). -/
def rmEff (v : Word) (r : Rm) : Rm := match r with | .rdyn => rmOfMode (v.extractLsb' 0 2).toNat | r => r

/-! ### Flag sets (R85, R86) -/

/-- The cause that an enabled flag set reports, in the order of R86. -/
def flagCause (f : Flags) : Option (Cause × Flags) :=
  if f &&& fIDZ ≠ 0 then some (.intDivZero, fIDZ)
  else if f &&& fIV ≠ 0 then some (.fpInvalid, fIV)
  else if f &&& fDZ ≠ 0 then some (.fpDivzero, fDZ)
  else if f &&& fOF ≠ 0 then some (.fpOverflow, fOF)
  else if f &&& fUF ≠ 0 then some (.fpUnderflow, fUF)
  else if f &&& fIX ≠ 0 then some (.fpInexact, fIX)
  else if f &&& fLAC ≠ 0 then some (.lacOverflow, fLAC)
  else none

/-- The OR of the flag sets of active lanes. -/
def flagsOf (act : Mask) (fl : Nat → Flags) : Flags := (lanesOf act).foldl (fun a l => a ||| fl l) 0

end Sys2Proof.Machine
end

