-- ==== Sys2Proof/Machine/Records.lean ====
section
/-! DEFINITION. Cause codes and classes (R431), and the records that the device writes: fault records (R414, R415),
completion records (R346), trace records (R461-R463). -/
namespace Sys2Proof.Machine

/-- Cause codes (R431). -/
def Cause.num : Cause → Nat
  | .none => 0
  | .illegalOpcode => 0x01 | .illegalFunction => 0x02 | .reservedField => 0x03 | .illegalOperand => 0x04
  | .zeroWord => 0x05 | .prefixMisuse => 0x06 | .prefixDouble => 0x07 | .privileged => 0x08
  | .convergence => 0x09 | .misalignedPc => 0x0A
  | .fpInvalid => 0x11 | .fpDivzero => 0x12 | .fpOverflow => 0x13 | .fpUnderflow => 0x14 | .fpInexact => 0x15
  | .intDivZero => 0x16 | .lacOverflow => 0x17 | .quantGroup => 0x18 | .sparseMeta => 0x19
  | .pageNotPresent => 0x20 | .protection => 0x21 | .misaligned => 0x22 | .benchRange => 0x23
  | .remoteBench => 0x24 | .integrity => 0x25 | .sealedWrite => 0x26 | .uncorrectable => 0x27
  | .indexRange => 0x28 | .atomicSpan => 0x29
  | .barrierTimeout => 0x30 | .deadlockReported => 0x31 | .joinMismatch => 0x32
  | .regEmpty => 0x40 | .regUnmapped => 0x41 | .rotRange => 0x42 | .retUnderflow => 0x43 | .callSpillFault => 0x44
  | .copySuspended => 0x60 | .jigIllegal => 0x61 | .lxNotLoaded => 0x62
  | .breakpoint => 0x70 | .singleStep => 0x71 | .watchpoint => 0x72 | .userTrap => 0x74 | .linkDown => 0x75
  | .machineCheck => 0x7F

/-- Every cause, for reading a code back from a record. -/
def causeList : List Cause :=
  [.none, .illegalOpcode, .illegalFunction, .reservedField, .illegalOperand, .zeroWord, .prefixMisuse, .prefixDouble,
   .privileged, .convergence, .misalignedPc, .fpInvalid, .fpDivzero, .fpOverflow, .fpUnderflow, .fpInexact,
   .intDivZero, .lacOverflow, .quantGroup, .sparseMeta, .pageNotPresent, .protection, .misaligned, .benchRange,
   .remoteBench, .integrity, .sealedWrite, .uncorrectable, .indexRange, .atomicSpan, .barrierTimeout,
   .deadlockReported, .joinMismatch, .regEmpty, .regUnmapped, .rotRange, .retUnderflow, .callSpillFault,
   .copySuspended, .jigIllegal, .lxNotLoaded, .breakpoint, .singleStep, .watchpoint, .userTrap, .linkDown,
   .machineCheck]

/-- The cause of a code. -/
def Cause.ofNum (n : Nat) : Option Cause := causeList.find? (fun c => Cause.num c == n)

/-- Delivery classes W, L, A and B (R431) as two bits. -/
def clsW : BitVec 2 := 0
def clsL : BitVec 2 := 1
def clsA : BitVec 2 := 2
def clsB : BitVec 2 := 3

/-- The team slot of a team on a core (R333). -/
def State.slotOn (s : State) (c t : Nat) : Nat :=
  match ((s.team t).members).find? (·.core == c) with | some m => m.slot | none => 0

/-- `WHO` of a wave (R415, R462). -/
def State.whoOf (s : State) (c : Nat) (x : Wave) : Nat := s.slotOn c x.team * 256 + x.index

/-- Raise an MSI-X vector (R416). -/
def State.msi (s : State) (v : Nat) : State := { s with msix := s.msix ++ [v] }

/-- Write at a host bus address, when the host link is up (R453). -/
def State.hostWrite (s : State) (a : DWord) (bs : List Byte) : State × Bool :=
  if s.hostUp then ((s.homeWrite (hostKey a.toNat) bs).1, true) else (s, false)

/-! ### Fault records (R414, R415) -/

/-- What a fault record says. -/
structure FaultRec where
  va : DWord := 0
  ctx : Nat
  client : Nat
  access : Nat := 0
  cause : Cause
  /-- A walk status in place of a cause (R431). -/
  code : Option Nat := none
  core : Nat := 0
  who : Nat := 0
  mask : Word := 0
  /-- What the fault leaves without a meaning, and so free: nothing, `WAVE.INDEX`, `WHO`, or `WHO` and `CORE` (log entry 8). -/
  anon : Nat := 0
  deriving DecidableEq, Repr

/-- The record with free values where the fault has no wave, team or core. -/
def FaultRec.named (r : FaultRec) (free : Nat) : FaultRec :=
  match r.anon with
  | 0 => r
  | 1 => { r with who := r.who + free % 128 }
  | 2 => { r with who := free / 128 % 64 * 256 + free % 128 }
  | _ => { r with who := free / 128 % 64 * 256 + free % 128, core := free / 8192 % 256 }

def FaultRec.bytes (r : FaultRec) (replay : Bool) (fid : Word) (time : Nat) : List Byte :=
  leBytes 8 r.va.toNat ++ leBytes 1 r.ctx ++ leBytes 1 (r.client + if replay then 128 else 0) ++
  leBytes 1 r.access ++ leBytes 1 (r.code.getD (Cause.num r.cause)) ++ leBytes 2 r.core ++ leBytes 2 r.who ++
  leBytes 4 fid.toNat ++ leBytes 4 r.mask.toNat ++ leBytes 8 time

/-- Whether the management processor is restarting: fault records wait (R471). -/
def State.restarting (s : State) : Bool :=
  match s.task with
  | some (.restart _) => true
  | _ => false

/-- Whether the ring has room for a record: indices wrap modulo the record count (log entry 11). -/
def State.faultRoom (s : State) : Bool := decide ((s.ftail + 1) % s.faultCount ≠ s.fhead)

/-- Put a record's bytes at the ring's tail and announce it; the SYSTEM-scope release of the record writes back the dirty
lines of the core that it names (R415, log entry 71). -/
def State.ringPut (s : State) (bs : List Byte) : State :=
  let s := if fieldAt bs 9 1 % 8 < 5 then s.flushDirty (fieldAt bs 12 2) else s
  let (s, ok) := s.hostWrite (s.faultBase + BitVec.ofNat 64 (32 * s.ftail)) bs
  if ok then ({ s with ftail := (s.ftail + 1) % s.faultCount }).msi 1 else { s with lost := s.lost + 1 }

/-- Post a fault record; answers its identifier. A replayable record waits for room, another is dropped and counted
(R415); every record waits 100 ms for the host link, and is then dropped and counted (R453). -/
def State.postFault (s : State) (r : FaultRec) (replay : Bool) : State × Word :=
  if s.faultCount = 0 then ({ s with lost := s.lost + 1 }, 0)
  else
    let fid := s.fid
    let bs := (r.named (Config.freeWord s.freeCount).toNat).bytes replay fid s.time
    let s := { s with fid := s.fid + 1, freeCount := if r.anon = 0 then s.freeCount else s.freeCount + 1 }
    if s.hostLate then ({ s with lost := s.lost + 1 }, fid)
    else if s.faultRoom && !s.restarting && s.hostUp && s.faultWait.isEmpty then (s.ringPut bs, fid)
    else if replay || s.restarting || s.hostHeld then ({ s with faultWait := s.faultWait ++ [bs] }, fid)
    else ({ s with lost := s.lost + 1 }, fid)

/-- Whether the bytes of a fault record have the replayable bit (R415). -/
def recReplays (bs : List Byte) : Bool := fieldAt bs 9 1 ≥ 128

/-- Post the records that waited, while there is room: one without the replayable bit that finds none is dropped and counted,
and so is every record whose link did not come back (R415, R453). -/
def State.drainFaults (s : State) : State :=
  if s.hostLate then { s with faultWait := [], lost := s.lost + BitVec.ofNat 32 s.faultWait.length }
  else (s.faultWait).foldl (fun s _ => match s.faultWait with
    | b :: r =>
      if s.faultCount = 0 ∨ s.restarting = true ∨ s.hostUp = false then s
      else if s.faultRoom then ({ s with faultWait := r }).ringPut b
      else if recReplays b then s
      else { s with faultWait := r, lost := s.lost + 1 }
    | [] => s) s

/-- Whether a PAGE_NOT_PRESENT of a context is offered to the host (R414, R415). -/
def State.replays (s : State) (ctx : Nat) (e : Cause) : Bool :=
  e == .pageNotPresent && (FMap.get s.ctxs ctx).any (·.replay) && s.faultCount != 0

/-- Hold a client for the host: the record is posted with the replayable bit (R414). -/
def State.holdFault (s : State) (r : FaultRec) (who : Nat) : State × Nat :=
  let (s, fid) := s.postFault r true
  ({ s with heldFaults := s.heldFaults ++ [{ fid := fid.toNat, ctx := r.ctx, client := r.client, core := r.core,
                                              who := who, va := r.va, cause := r.cause }] }, fid.toNat)

/-! ### Device accesses to a context's memory -/

/-- The cause that the partner's side answers for an access to its window, if it does: its translation and permission faults
return to the requester (R422). -/
def State.farFault (s : State) (k : Nat) : Option Cause :=
  if !isPartner k then none
  else match Cause.ofNum (Config.partnerAnswer k s.turns).toNat with
    | some e => if [Cause.pageNotPresent, .protection, .uncorrectable, .integrity, .sealedWrite].contains e then some e else none
    | none => none

/-- Write bytes at a virtual address of a context on the CORE path, at the homes, with the permissions of a use; the access
must lie in one page. -/
def State.vaAccess (s : State) (via : Via) (ctx : Nat) (va : DWord) (u : Use) (bs : List Byte) : State × Option Cause :=
  match s.place via ctx va u with
  | (s, .error (_, e)) => (s, some e)
  | (s, .ok p) =>
    if isHost p.key && !s.hostUp then (s, some .linkDown)
    else match s.farFault p.key with
      | some e => (s, some e)
      | none => match s.homeWrite p.key bs with
        | (s, true) => (s.l2Use p.key bs.length p.cpol, none)
        | (s, false) => (s, some .uncorrectable)

/-- The same as a plain write. -/
def State.vaWrite (s : State) (via : Via) (ctx : Nat) (va : DWord) (bs : List Byte) : State × Option Cause :=
  s.vaAccess via ctx va .write bs

/-- Read bytes at a virtual address of a context at the homes, with the checks of sealed pages (R237, R425). -/
def State.vaRead (s : State) (via : Via) (ctx : Nat) (va : DWord) (n : Nat) : State × Except Cause (List Byte) :=
  match s.place via ctx va .read with
  | (s, .error (_, e)) => (s, .error e)
  | (s, .ok p) =>
    let (s, ok) := if p.sealed then s.sealOk ctx va.toNat p.key else (s, true)
    if !ok then (s, .error .integrity)
    else if isHost p.key && !s.hostUp then (s, .error .linkDown)
    else if (s.farFault p.key).isSome then (s, .error ((s.farFault p.key).getD .protection))
    else match s.homeRead p.key n with
      | none => (s, .error .uncorrectable)
      | some bs => (s.l2Use p.key n p.cpol, .ok bs)

/-- Pieces of at most 64 KiB. -/
def pieces : Nat → List Byte → List (List Byte)
  | 0, _ => []
  | n + 1, bs => if bs.isEmpty then [] else bs.take 65536 :: pieces n (bs.drop 65536)

/-- Whether an access of any length from such an address waits, by its pieces. -/
def State.spanWaits (s : State) (via : Via) (ctx : Nat) (va : DWord) (reads : Bool) (n : Nat) : Bool :=
  (List.range (ceilDiv n 65536)).any (fun i => s.vaWaits via ctx (va + BitVec.ofNat 64 (65536 * i)) reads (min 65536 (n - 65536 * i)))

def State.putPieces (s : State) (via : Via) (ctx : Nat) (va : DWord) : List (List Byte) → State × Option (Cause × DWord)
  | [] => (s, none)
  | b :: r => match s.vaWrite via ctx va b with
    | (s, some e) => (s, some (e, va))
    | (s, none) => s.putPieces via ctx (va + 65536) r

/-- Write bytes from an address that is a multiple of 64 KiB. -/
def State.vaPut (s : State) (via : Via) (ctx : Nat) (va : DWord) (bs : List Byte) : State × Option (Cause × DWord) :=
  s.putPieces via ctx va (pieces 16 bs)

/-! ### Completion records (R346) -/

/-- A completion record: value, status, reason, cause of a header fault, killed teams. -/
def completionBytes (value : DWord) (status reason cause killed : Nat) : List Byte :=
  leBytes 8 value.toNat ++ leBytes 1 status ++ leBytes 1 reason ++ leBytes 1 cause ++ leBytes 1 0 ++
  leBytes 4 (min killed 0xFFFFFFFF)

/-- Write a completion record at its home and announce it; one that would fall on a POISON line answers false. -/
def State.putRec (s : State) (r : WaitRec) : State × Bool :=
  match s.homeWrite r.key r.bytes with
  | (s, true) =>
    let s := s.l2Use r.key r.bytes.length r.cpol
    (if r.announce then s.msi 2 else s, true)
  | (s, false) => (s, false)

/-- The completion records that waited for the host link are written, or dropped and counted after 100 ms (R346, R453). -/
def State.settleRecs (s : State) : State :=
  if s.recWait.isEmpty || s.hostHeld then s
  else if s.hostLate then { s with recWait := [], lost := s.lost + BitVec.ofNat 32 s.recWait.length }
  else s.recWait.foldl (fun s r => (s.putRec r).1) { s with recWait := [] }

/-- Write a launch's completion record, or drop it as R346 states; that of a host launch is announced (R416). -/
def State.complete (s : State) (o : Origin) (status reason cause killed : Nat) : State :=
  let put := fun (host : Bool) (ctx : Nat) (done value : DWord) =>
    if done.toNat % 16 ≠ 0 then (s.postFault { va := done, ctx := ctx, client := 6, anon := 3, access := 1, cause := .misaligned } false).1
    else match s.place .device ctx done .write with
      | (s, .error (_, e)) => (s.postFault { va := done, ctx := ctx, client := 6, anon := 3, access := 1, cause := e } false).1
      | (s, .ok p) =>
        let r : WaitRec := {
          key := p.key, cpol := p.cpol, bytes := completionBytes value status reason cause killed, announce := host }
        if isHost p.key && s.hostLate then { s with lost := s.lost + 1 }
        else if isHost p.key && s.hostHeld then { s with recWait := s.recWait ++ [r] }
        else match s.farFault p.key with
        | some e => (s.postFault { va := done, ctx := ctx, client := 6, anon := 3, access := 1, cause := e } false).1
        | none => match s.putRec r with
          | (s, true) => s
          | (s, false) => (s.postFault { va := done, ctx := ctx, client := 6, anon := 3, access := 1, cause := .uncorrectable } false).1
  match o with
  | .host ctx done value => if done = 0 then s else put true ctx done value
  | .program ctx (some done) value => put false ctx done value
  | .program _ none _ => s
  | .queue _ => s

/-! ### Trace records (R461-R463) -/

/-- A trace record without its time. -/
structure TraceRec where
  kind : Nat
  slice : Nat := 0
  core : Nat := 0
  phase : Nat := 0
  who : Nat := 0
  ctx : Nat := 0
  pay : List Byte
  deriving DecidableEq, Repr

def TraceRec.bytes (r : TraceRec) (time : Nat) : List Byte :=
  leBytes 8 time ++ leBytes 1 r.kind ++ leBytes 1 r.slice ++ leBytes 2 r.core ++ leBytes 4 r.phase ++
  leBytes 2 r.who ++ leBytes 1 r.ctx ++ leBytes 1 0 ++ (r.pay ++ List.replicate 12 0).take 12

/-- Write a trace record at a device time, when a ring is configured and the kind is enabled, with a SYSTEM-scope release
of the core that it names (R461, log entry 71). -/
def State.traceAt (s : State) (r : TraceRec) (time : Nat) : State :=
  let t := s.trace
  if t.count = 0 then s
  else if !(r.kind == 6 || r.kind == 7 || r.kind == 9 || t.mask.getLsbD r.kind) then s
  else if t.mode = 1 ∧ t.count ≤ t.windex then { s with trace := { t with dropped := t.dropped + 1, full := true } }
  else
    let s := if r.kind < 7 then s.flushDirty r.core else s
    let s := (s.homeWrite (t.base.toNat + 32 * (t.windex % t.count)) (r.bytes time)).1
    { s with trace := { t with windex := t.windex + 1 } }

def State.traceRec (s : State) (r : TraceRec) : State := s.traceAt r s.time

/-- `PHASE` of a launch, 0 for one that is not phased (R462). -/
def Launch.phased (l : Launch) : Bool := l.hdr.flags % 2 == 1
def Launch.retain (l : Launch) : Bool := l.hdr.flags / 2 % 2 == 1
def Launch.auto (l : Launch) : Bool := l.hdr.flags / 4 % 2 == 1
def Launch.tracePhase (l : Launch) : Nat := if l.phased then l.phase.toNat else 0

/-- A trace record about a wave. -/
def State.traceWave (s : State) (c w kind : Nat) (pay : List Byte) : State :=
  let x := s.wave c w
  s.traceRec { kind := kind, slice := sliceOf w, core := c, phase := (s.launchOf x).tracePhase, who := s.whoOf c x,
               ctx := s.ctxOf x, pay := pay }

end Sys2Proof.Machine
end

