-- ==== Sys2Proof/Machine/Perform.lean ====
section
/-! DEFINITION. One lane's access at its place: reads (R229, R232, R294), stores (R230, R298), atomics (R300-R303),
with releases, acquires and owner notes (R243, R250, R251). -/
namespace Sys2Proof.Machine

/-- Whether a team spans several cores (R222). -/
def Team.cluster (t : Team) : Bool := decide (1 < t.members.length)

/-- Whether a scope reaches beyond the core's L1: DEVICE, SYSTEM, and TEAM of a cluster team (R243). -/
def State.wide (s : State) (t : Nat) (sc : Scope) : Bool :=
  match sc with
  | .device => true
  | .system => true
  | .team => (s.team t).cluster
  | .wave => false

/-! ### Release and acquire (R230, R243, R250, R251) -/

/-- Whether a release at a scope is performed at DEVICE scope: it reaches beyond the L1, or it is a TEAM-scope release of a
global word whose home can keep no owner note of it (R251). -/
def State.relWide (s : State) (c t : Nat) (sc : Scope) (k : Nat) : Bool :=
  s.wide t sc || (sc == .team && !isBench k && (!isLocal k ||
    (decide (256 ≤ (s.notes.filter (fun n => n.1 == homeSlice (lineOf k))).length) &&
      !s.notes.contains (homeSlice (lineOf k), lineOf k, c))))

/-- A release at a scope, before its own write: dirty lines go home, or at TEAM scope of one core they are marked and
an owner note is left at the released line's home (R251). -/
def State.release (s : State) (c t : Nat) (sc : Scope) (line : Option Nat) : State :=
  match line with
  | none => if s.wide t sc then s.flushDirty c else s
  | some k =>
    if s.relWide c t sc k then s.flushDirty c
    else if sc == .team && isLocal k then
      let n := (homeSlice (lineOf k), lineOf k, c)
      { s.modCore c (fun q => { q with l1 := q.l1.map (fun x => if x.dirty = 0 then x else { x with mark := true }) }) with
        notes := s.notes.filter (fun m => m != n) ++ [n] }
    else s

/-- Whether a release of an access must wait: it writes lines back, and the home of one cannot be reached yet (R243, R453). -/
def State.relWaits (s : State) (c t : Nat) (o : Op) (line : Option Nat) : Bool :=
  o.rel && s.homesPending c && (match line with | none => s.wide t o.scope | some k => s.relWide c t o.scope k)

/-- An acquire at a scope invalidates the core's clean lines when it reaches beyond the L1 (R230). -/
def State.acquire (s : State) (c t : Nat) (sc : Scope) : State := if s.wide t sc then s.invalidateClean c else s

/-- The owner notes of other cores for the line of a key (R251). -/
def State.notesFor (s : State) (c k : Nat) : List (Nat × Nat × Nat) :=
  if isLocal k then s.notes.filter (fun n => n.1 == homeSlice (lineOf k) && n.2.1 == lineOf k && n.2.2 != c) else []

/-- Whether a `.RMT` acquire waits: a marked line of a core of its notes cannot be written back yet (R251 step 3, R453). -/
def State.notesWait (s : State) (c k : Nat) : Bool :=
  (s.notesFor c k).any (fun n => (s.core n.2.2).l1.any (fun x => x.dirty != 0 && (x.mark || x.addr == lineOf k) && s.homeHeld x.addr))

/-- A `.RMT` acquire reaching a home asks the cores of its notes to write back their marked lines (R251). -/
def State.promoteNotes (s : State) (c k : Nat) : State :=
  let mine := s.notesFor c k
  mine.foldl (fun s n =>
    let lines := ((s.core n.2.2).l1.filter (·.mark)).map (·.addr)
    let s := lines.foldl (fun s a => s.writeBack n.2.2 a) s
    s.writeBack n.2.2 (lineOf k)) { s with notes := s.notes.filter (fun n => !mine.contains n) }

/-! ### Reads -/

/-- What one lane of an access comes to. -/
inductive LaneRes where
  | got (bs : List Byte)
  | wait
  /-- `far`: the partner's side answered with it (R422). -/
  | fault (c : Cause) (far : Bool := false)
  deriving DecidableEq, Repr

/-- Whether the far side of an access can be reached: the partner link, and the host link, for which an access waits
100 ms (R423, R453). -/
def State.reach (s : State) (ctx k : Nat) : Option LaneRes :=
  if isPartner k && (s.peerFault ctx).isSome then (s.peerFault ctx).map (fun e => .fault e)
  else if isHost k && !s.hostUp then some (if s.hostLate then .fault .linkDown else .wait)
  else none

/-- What stops an access that goes to its home: it cannot be reached, or the partner's side refuses (R422). -/
def State.atHome (s : State) (ctx k : Nat) : Option LaneRes :=
  match s.reach ctx k with
  | some r => some r
  | none => (s.farFault k).map (fun e => .fault e true)

/-- Whether a core's L1 holds the sectors of a span. -/
def State.inL1 (s : State) (c k n : Nat) : Bool :=
  ((s.core c).line? (lineOf k)).any (fun x => (List.range n).all (fun i => x.hasByte (k % 256 + i)))

/-- Read `n` bytes for a lane of core `c`, of a team (R229, R232, R237). A read that the home serves comes after the core's own
dirty bytes of the line, whichever page of the frame they were stored through (R232, R247). -/
def State.readLane (s : State) (c t ctx : Nat) (o : Op) (a : LaneAcc) : State × LaneRes :=
  if isBench a.key then
    match s.homeRead a.key o.size with
    | some bs => (if o.acq then s.acquire c t o.scope else s, .got bs)
    | none => (s, .fault .uncorrectable)
  else
    let home := o.vol || a.cpol == 1 || a.cpol == 3
    let s := if a.sealed then s.sealLine c a.key else s
    match (if home || (o.acq && s.wide t o.scope) || !s.inL1 c a.key o.size then s.atHome ctx a.key else s.reach ctx a.key) with
    | some r => (s, r)
    | none =>
      match (if a.sealed then s.pageCheck ctx a.va.toNat a.key else .verified) with
      | .waiting => (s, .wait)
      | .bad => (s, .fault .integrity)
      | .verified =>
        let wide := o.acq && s.wide t o.scope
        if s.missWait a.key o.size && (wide || home || !s.inL1 c a.key o.size) then (s, .wait)
        else if o.acq && o.rmt && s.notesWait c a.key then (s, .wait)
        else
          let s := s.touchMark a.sealed ctx a.va.toNat a.key
          let s := if o.acq && o.rmt then s.promoteNotes c a.key else s
          let s := if wide then s.invalidateClean c else s
          let s := if home then s.pushHome c a.key else s
          match s.readGlobal c a.key a.cpol o.size o.vol with
          | (s, some bs) => (if a.sealed then s.lineChecked c a.key else s, .got bs)
          | (s, none) => (s, .fault .uncorrectable)

/-! ### Writes -/

/-- Kill the load entries that a write by core `c` at a key touches (R277). -/
def State.writeKills (s : State) (c k n : Nat) : State :=
  if isBench k then
    s.killLoads (benchCore k) false ((List.range ((k + n + 127) / 128 - k / 128)).map (fun i => (k / 128 + i) * 128))
  else s.killLoads c true (linesOf k n)

/-- Whether a store of core `c` is held in its L1 (R230, R298). -/
def storeInL1 (o : Op) (wide : Bool) (a : LaneAcc) : Bool :=
  !isBench a.key && !o.vol && !(o.rel && wide) && (a.cpol == 0 || a.cpol == 2)

/-- Store a lane's bytes at its place (R298). -/
def State.storeLane (s : State) (c t ctx : Nat) (o : Op) (a : LaneAcc) : State × LaneRes :=
  let wide := s.relWide c t o.scope a.key
  if isBench a.key then
    if s.relWaits c t o none then (s, .wait)
    else
      let s := if o.rel then s.release c t o.scope none else s
      ((s.homeWrite a.key a.data).1.writeKills c a.key a.data.length, .got [])
  else match (if storeInL1 o wide a then s.reach ctx a.key else s.atHome ctx a.key) with
    | some r => (s, r)
    | none =>
      if s.relWaits c t o (some a.key) then (s, .wait)
      else
      let s := if o.rel then s.release c t o.scope (some a.key) else s
      let s := s.writeKills c a.key a.data.length
      if storeInL1 o wide a then
        match s.writeL1 c a.key a.data (a.cpol == 2) with
        | (s, true) => (s, .got [])
        | (s, false) => (s, .fault .uncorrectable)
      else
        let s := s.pushHome c a.key
        match s.homeWrite a.key a.data with
        | (s, true) => (s.l2Use a.key a.data.length a.cpol, .got [])
        | (s, false) => (s, .fault .uncorrectable)

/-! ### Atomics (R300-R303) -/

/-- The new value of an atomic of width `w` bits (R300); `v2` is the new value of `.CAS`. -/
def atomicNew (op w old v v2 : Nat) : Nat :=
  let m := 2 ^ w
  let f := if w = 64 then Fmt.f64 else Fmt.f32
  match op with
  | 0 => (old + v) % m
  | 1 => (old + m - v) % m
  | 2 => if intOf old w true ≤ intOf v w true then old else v
  | 3 => if intOf v w true ≤ intOf old w true then old else v
  | 4 => min old v
  | 5 => max old v
  | 6 => old &&& v
  | 7 => old ||| v
  | 8 => old ^^^ v
  | 9 => v
  | 10 => if v ≤ old then 0 else (old + 1) % m
  | 11 => if old = 0 ∨ v < old then v else old - 1
  | 12 => (fpAdd f .rne (value f old) (value f v)).1
  | 13 => (fpMinMax f false old v).1
  | 14 => (fpMinMax f true old v).1
  | _ => if old = v then v2 else old

/-- Old and new bytes of an atomic of an operation on a lane's operands. -/
def atomicBytes (o : Op) (a : LaneAcc) (old : List Byte) : List Byte :=
  if o.kind == .cas128 then (if old = a.data then a.data2 else old)
  else leBytes o.size (atomicNew o.aop (8 * o.size) (leWord old) (leWord a.data) (leWord a.data2))

/-- Apply a lane's atomic at its place, answering the old bytes (R301, R302). -/
def State.atomicLane (s : State) (c t ctx : Nat) (o : Op) (a : LaneAcc) : State × LaneRes :=
  if isBench a.key then
    match s.homeRead a.key o.size with
    | none => (s, .fault .uncorrectable)
    | some old =>
      if s.relWaits c t o none then (s, .wait)
      else
      let s := if o.rel then s.release c t o.scope none else s
      let s := if o.acq then s.acquire c t o.scope else s
      ((s.homeWrite a.key (atomicBytes o a old)).1.writeKills c a.key o.size, .got old)
  else match s.atHome ctx a.key with
    | some r => (s, r)
    | none =>
      let wide := s.wide t o.scope || (o.rel && s.relWide c t o.scope a.key)
      if s.missWait a.key o.size && (wide || !s.inL1 c a.key o.size) then (s, .wait)
      else if s.relWaits c t o (some a.key) || (o.acq && o.rmt && s.notesWait c a.key) then (s, .wait)
      else
      let s := if o.rel then s.release c t o.scope (some a.key) else s
      let s := if o.acq && o.rmt then s.promoteNotes c a.key else s
      let s := if o.acq && wide then s.invalidateClean c else s
      let s := s.writeKills c a.key o.size
      if isLocal a.key && !wide && !(s.team t).cluster && (a.cpol == 0 || a.cpol == 2) && o.kind != .cas128 then
        match s.readGlobal c a.key a.cpol o.size false with
        | (s, none) => (s, .fault .uncorrectable)
        | (s, some old) => match s.writeL1 c a.key (atomicBytes o a old) (a.cpol == 2) with
          | (s, true) => (s, .got old)
          | (s, false) => (s, .fault .uncorrectable)
      else
        let s := s.pushHome c a.key
        if isHost a.key && !Config.hostAtomicDone s.freeCount then ({ s with freeCount := s.freeCount + 1 }, .fault .protection)
        else match s.homeRead a.key o.size with
        | none => (s, .fault .uncorrectable)
        | some old =>
          let s := if isHost a.key then { s with freeCount := s.freeCount + 1 } else s
          (((s.homeWrite a.key (atomicBytes o a old)).1).l2Use a.key o.size a.cpol, .got old)

/-! ### Remote Bench (R224) -/

/-- Whether a team's Bench image lies in its save window (R339). -/
def Team.isSaved (t : Team) : Bool := t.saved.any (fun v => v.area)

/-- The key of a remote Bench address of an access of `n` bytes by a context, `none` when the target refuses. -/
def State.remoteKey (s : State) (ctx : Nat) (va n : Nat) : Option Nat :=
  let c := va / 2 ^ 24 % 256
  let slot := va / 2 ^ 18 % 64
  let off := va % 2 ^ 18
  let k := s.core c
  if !(k.service == .inService || k.service == .draining) then none
  else match FMap.get k.slots slot with
    | none => none
    | some t =>
      let x := s.team t
      if x.ctx ≠ ctx ∨ x.bench < off + n ∨ x.isSaved = true then none
      else match x.members.find? (fun m => m.core == c && m.slot == slot) with
        | some m => some (benchKey c (m.base + off))
        | none => none

/-- Address of the team area of slot `k` on core `c` in the save window (R437). -/
def teamAreaVa (c k : Nat) : DWord := BitVec.ofNat 64 (8191 * 2 ^ 42 + 2 ^ 40 + 2 ^ 19 * (64 * c + k))
/-- Address of the record of wave `i` of slot `k` on core `c` (R437). -/
def waveRecVa (c k i : Nat) : DWord := BitVec.ofNat 64 (8191 * 2 ^ 42 + 2 ^ 19 * (128 * (64 * c + k) + i))

/-- Where a remote Bench address of a saved team lies in its save window (R339): the key and the page's policy. -/
def State.savedKey (s : State) (ctx : Nat) (va n : Nat) : Option (Nat × Nat) :=
  let c := va / 2 ^ 24 % 256
  let slot := va / 2 ^ 18 % 64
  match (FMap.get (s.core c).slots slot).map s.team with
  | none => none
  | some x =>
    if !((s.core c).service == .inService || (s.core c).service == .draining) then none
    else if !x.isSaved || x.ctx != ctx || decide (x.bench < va % 2 ^ 18 + n) then none
    else match (s.place (.core c) ctx (teamAreaVa c slot + BitVec.ofNat 64 (va % 2 ^ 18)) .write).2 with
      | .ok p => some (p.key, p.cpol)
      | .error _ => none

/-- A remote access to a saved image, at its home, with the release and the acquire of its instruction (R243, R339). A
partial write to a POISON line is dropped and faults (R234). -/
def State.savedLane (s : State) (c t : Nat) (o : Op) (a : LaneAcc) (k cpol : Nat) : State × LaneRes :=
  if s.relWaits c t o none || (isHost k && s.hostHeld) || (o.kind != .store && s.missWait k o.size) then (s, .wait)
  else
  let s := if o.rel then s.release c t o.scope none else s
  match o.kind with
  | .store => match s.homeWrite k a.data with
    | (s, true) => (s.l2Use k a.data.length cpol, .got [])
    | (s, false) => (s, .fault .uncorrectable)
  | _ => match s.homeRead k o.size with
    | none => (s, .fault .uncorrectable)
    | some old =>
      let s := if o.acq then s.acquire c t o.scope else s
      ((s.homeWrite k (atomicBytes o a old)).1.l2Use k o.size cpol, .got old)

/-- Bench key of a local Bench address of an access of `n` bytes by a wave of a team on core `c` (R222). -/
def State.localBench (s : State) (t va n : Nat) : Option Nat :=
  let x := s.team t
  let off := va % 2 ^ 18
  if 2 ^ 20 ≤ va ∨ x.bench < off + n then none
  else match x.members[va / 2 ^ 18]? with
    | some m => some (benchKey m.core (m.base + off))
    | none => none

/-- The member number of a core in a team. -/
def Team.memberOf (x : Team) (c : Nat) : Nat :=
  match (List.range x.members.length).find? (fun i => (x.members[i]?).any (·.core == c)) with
  | some i => i
  | none => 0

/-- Bench key of an offset of a team on one of its cores. -/
def State.benchAt (s : State) (t c off : Nat) : Nat :=
  match ((s.team t).members).find? (·.core == c) with
  | some m => benchKey c (m.base + off)
  | none => benchKey c off

/-! ### Accesses of an operation -/

/-- Lanes of an operation that have not been performed. -/
def Op.left (o : Op) : List LaneAcc :=
  o.lanes.filter (fun a => !(o.done.map (·.1)).contains a.lane && !(o.faults.map (·.1)).contains a.lane &&
    !o.refused.getLsbD a.lane)

/-- The team and the context of an operation: of its wave, also when that has ended. -/
def State.opOwner (s : State) (c : Nat) (o : Op) : Nat × Nat :=
  match o.orphan with
  | some p => (p.1, p.2.1)
  | none => ((s.wave c o.wave).team, s.ctxOf (s.wave c o.wave))

/-- Perform one lane's access. A remote access finds its place at the target (R224). -/
def State.performLane (s : State) (c : Nat) (o : Op) (a : LaneAcc) : State × Option LaneRes :=
  let (team, ctx) := s.opOwner c o
  let go := fun (a : LaneAcc) =>
    let r := match o.kind with
      | .store => s.storeLane c team ctx o a
      | .atomic => s.atomicLane c team ctx o a
      | .cas128 => s.atomicLane c team ctx o a
      | _ => s.readLane c team ctx o a
    (r.1, some r.2)
  if o.remote then
    match s.remoteKey ctx a.va.toNat o.size, s.savedKey ctx a.va.toNat o.size with
    | some k, _ => go { a with key := k }
    | none, some k => (fun (r : State × LaneRes) => (r.1, some r.2)) (s.savedLane c team o a k.1 k.2)
    | none, none => (s, none)
  else go a

/-- Write what an access came to into its operation: `none` is a refusal of the target. -/
def Op.note (o : Op) (a : LaneAcc) (r : Option LaneRes) : Op :=
  match r with
  | none => { o with refused := o.refused ||| laneBit a.lane }
  | some (.got bs) => { o with done := o.done ++ [(a.lane, bs)] }
  | some .wait => o
  | some (.fault e far) =>
    let item := match e with
      | .linkDown => 4 | .protection => 4 | .pageNotPresent => 4 | .sealedWrite => 6 | .integrity => 7 | _ => 8
    { o with faults := o.faults ++ [(a.lane, item, e, a.va)], far := if far then o.far ||| laneBit a.lane else o.far }

/-- Change an operation. -/
def State.modOp (s : State) (c id : Nat) (f : Op → Op) : State :=
  s.modCore c (fun k => { k with ops := k.ops.map (fun o => if o.id = id then f o else o) })

/-- Address of the lowest refused lane of an operation (R224). -/
def Op.refusedVa (o : Op) : DWord :=
  match o.lanes.find? (fun a => o.refused.getLsbD a.lane) with | some a => a.va | none => 0

/-- The fault record of a refusal whose wave has ended (R224). -/
def State.dropRefusal (s : State) (c : Nat) (o : Op) : State :=
  if o.refused = 0 then s
  else
    let r : FaultRec := {
      va := o.refusedVa, ctx := (s.opOwner c o).2, client := 0, access := if o.kind == .store then 1 else 2,
      cause := .remoteBench, core := c, who := (o.orphan.map (·.2.2)).getD (s.whoOf c (s.wave c o.wave)) }
    (s.postFault r false).1

/-! ### Draining (R438, R449) -/

/-- The number of a queued entry's wave that has left its slot: no wave has it, and it lies in the same slice. -/
def goneWave (w id : Nat) : Nat := w % 64 + 64 * (id + 1)

/-- Whether an access comes after one of an earlier operation that still waits: a release, an acquire, a remote access or one line. -/
def Op.behind (o : Op) (a : LaneAcc) (e : Op) : Bool :=
  !e.left.isEmpty && (e.acq || o.rel || e.remote || o.remote || e.left.any (fun b => lineOf b.key == lineOf a.key))

/-- Perform every store and atomic still in flight of a wave, in order, and drop its other operations. One whose home cannot be
reached yet stays in flight, without its wave (R453, R474); one on the Bench of its own team goes with that. -/
def State.drainOps (s : State) (c w : Nat) : State :=
  let mine := (s.core c).ops.filter (·.wave == w)
  let x := s.wave c w
  let own := (x.team, s.ctxOf x, s.whoOf c x)
  let (s, late) := mine.foldl (fun (q : State × List Op) o =>
    if o.kind == .store || o.kind == .atomic || o.kind == .cas128 then
      let (s, o) := o.left.foldl (fun (p : State × Op) a =>
        if q.2.any (fun e => o.behind a e) then p
        else
          let (s, r) := p.1.performLane c p.2 a
          (s, p.2.note a r)) (q.1, o)
      if o.left.isEmpty || (o.bench && !o.remote) then (s.dropRefusal c o, q.2)
      else (s, q.2 ++ [{ o with orphan := some own, ofLaunch := some (s.team x.team).launch, dest := .none, transit := [], key := none, hold := false }])
    else q) (s, [])
  s.modCore c (fun k => { k with
    ops := k.ops.filter (·.wave != w) ++ late.map (fun o => { o with wave := goneWave w s.fresh }) })

end Sys2Proof.Machine
end

