-- ==== Sys2Proof/Machine/Teams.lean ====
section
/-! DEFINITION. Launches and teams from take-up to end: the header and its checks (R330, R331), the state of a
starting wave (R334, R335), the end and kill of waves, teams and launches (R340, R341, R444, R449, R450). -/
namespace Sys2Proof.Machine

/-! ### The launch header (R330, R331) -/

def Header.ofBytes (bs : List Byte) : Header :=
  { entry := BitVec.ofNat 64 (fieldAt bs 0 8), param := BitVec.ofNat 64 (fieldAt bs 8 8),
    handler := BitVec.ofNat 64 (fieldAt bs 16 8), next := BitVec.ofNat 64 (fieldAt bs 24 8),
    sdtp := BitVec.ofNat 64 (fieldAt bs 32 8), jigp := BitVec.ofNat 64 (fieldAt bs 40 8),
    widw := (List.range 6).map (fun i => fieldAt bs (48 + i) 1),
    widc := (List.range 4).map (fun i => fieldAt bs (56 + 8 * i) 8),
    waves := fieldAt bs 88 1, shape := fieldAt bs 89 1, bench := fieldAt bs 92 4, acc := fieldAt bs 96 1,
    blocks := fieldAt bs 97 1, prio := fieldAt bs 98 1, ctx := fieldAt bs 99 1, flags := fieldAt bs 100 2,
    sqb := fieldAt bs 102 1, maxf := fieldAt bs 103 1, cqn := fieldAt bs 104 1, cqd := fieldAt bs 106 2 }

/-- Member cores of a shape. -/
def shapeCores : Nat → Nat
  | 0 => 1 | 1 => 2 | _ => 4

/-- Count of WID field `k` + 3: 1 when the field is absent. -/
def Header.count (h : Header) (k : Nat) : Nat := if nth h.widw (k + 2) 0 = 0 then 1 else nth h.widc k 0 + 1

/-- Teams of a launch: the product of the counts of fields 3 to 6 (R330). -/
def Header.teams (h : Header) : Nat := h.count 0 * h.count 1 * h.count 2 * h.count 3

/-- Waves of a team on each member core. -/
def Header.perCore (h : Header) : Nat := h.waves / shapeCores h.shape
/-- Bytes of a Bench range (R223). -/
def Header.benchSize (h : Header) : Nat := roundUp h.bench 4096
/-- Charge of a wave at admission (R270, R342). -/
def Header.charge (h : Header) : Nat := 64 * (1 + h.blocks) + 8

/-- Waves of a team on slice `k` of a core: wave `i` runs on slice `i` mod 4 (R332). -/
def Header.onSlice (h : Header) (k : Nat) : Nat := (h.perCore + 3 - k) / 4

/-- Admit `n` waves of a charge: reserved while the sum stays at or below 1,023, else borrowing while free registers
suffice (R270). Answers whether each borrows. -/
def admitWaves (charge sum free : Nat) : Nat → Option (List Bool)
  | 0 => some []
  | n + 1 =>
    if sum + charge ≤ 1023 then (admitWaves charge (sum + charge) free n).map (fun l => false :: l)
    else if charge + 64 ≤ free then (admitWaves charge sum free n).map (fun l => true :: l)
    else none

/-- Teams of a header that one empty core holds its share of, at most `fuel`. -/
def Header.capacity (h : Header) : Nat → Nat
  | 0 => 0
  | fuel + 1 =>
    let n := 64 - fuel
    let ok := (List.range 4).all (fun k => decide (n * h.onSlice k ≤ 16) && (admitWaves h.charge 0 1023 (n * h.onSlice k)).isSome) &&
      decide (n * h.benchSize ≤ 262144) && decide (n * h.acc * h.perCore ≤ 16) && (h.jigp == 0 || decide (n ≤ 1))
    if ok then 1 + h.capacity fuel else 0

def CoreState.takes : CoreState → Bool
  | .inService => true
  | _ => false

/-- A core that is out of service for good or for a while, with no team left (R472). -/
def CoreState.closed : CoreState → Bool
  | .parked => true
  | .failed => true
  | _ => false

/-- Member cores of a cluster by its origin (R222). -/
def clusterCores (shape origin : Nat) : List Nat :=
  match shape with
  | 0 => [origin] | 1 => [origin, origin + 1] | _ => [origin, origin + 1, origin + 16, origin + 17]

/-- Origins of a shape in increasing core number (R334). -/
def origins (shape : Nat) : List Nat :=
  (List.range Config.cores).filter (fun c => shape == 0 || (c % 2 == 0 && (shape == 1 || c / 16 % 2 == 0)))

def State.inService (s : State) (c : Nat) : Bool := (s.core c).service.takes

/-- The first failing check of R331 from reason 1 to 10, or 0; `ctx` submitted the header. A queue to be bound that the
context does not own is reason 6 (log entry 69). -/
def State.headerReason (s : State) (bs : List Byte) (ctx : Nat) : Nat :=
  let h := Header.ofBytes bs
  let w := fun (i : Nat) => nth h.widw i 0
  let zeroGap := (List.range 6).any (fun i => (List.range 6).any (fun j => decide (i < j) && w i == 0 && w j != 0))
  let sum := w 0 + w 1 + w 2 + w 3 + w 4 + w 5
  let cores := shapeCores h.shape
  let badCount := (List.range 4).any (fun k =>
    if w (k + 2) = 0 then nth h.widc k 0 != 0 else decide (2 ^ w (k + 2) < nth h.widc k 0 + 1))
  let badF2 := decide (h.shape ≤ 2) && (h.waves % cores != 0 || decide (2 ^ w 1 < h.waves / cores))
  let bound := h.sqb / 128 % 2 == 1
  let auto := h.flags / 4 % 2 == 1
  let phased := h.flags % 2 == 1
  let retain := h.flags / 2 % 2 == 1
  let zeros := (List.range 128).filter (fun i => (i == 54 || i == 55 || i == 90 || i == 91 || i == 105 || decide (108 ≤ i)))
  if h.entry = 0 ∨ h.entry.toNat % 8 ≠ 0 then 1
  else if w 0 ≠ 5 ∨ 5 < w 1 ∨ zeroGap ∨ 64 < sum ∨ badCount ∨ badF2 then 2
  else if 2 < h.shape ∨ h.waves = 0 ∨ 32 * cores < h.waves ∨ h.waves % cores ≠ 0 then 3
  else if 262144 < h.bench then 4
  else if 4 < h.acc ∨ 16 < h.acc * h.perCore ∨ 31 < h.blocks then 5
  else if 31 < h.prio ∨ h.ctx ≠ ctx ∨ (FMap.get s.ctxs ctx).isNone ∨
    (auto = true ∧ bound = true ∧ (FMap.get s.queues (h.sqb % 64)).all (fun x => x.ctx != ctx) = true) then 6
  else if h.flags / 8 ≠ 0 ∨ h.sqb / 64 % 2 ≠ 0 ∨ (auto != bound) = true ∨ (auto = true ∧ h.teams ≠ 1) ∨
    (retain = true ∧ h.next = 0) then 7
  else if 8 < h.cqn ∨ (h.cqn = 0 ∧ h.cqd ≠ 0) ∨
    (h.cqn ≠ 0 ∧ !([16, 32, 64, 128, 256, 512, 1024, 2048, 4096].contains h.cqd)) ∨ h.bench < h.cqn * h.cqd * 16 then 8
  else if zeros.any (fun i => nth bs i 0 != 0) then 9
  else
    let cap := h.capacity 64
    let spots := ((origins h.shape).filter (fun o => (clusterCores h.shape o).all s.inService)).length
    if cap = 0 ∨ (phased = true ∧ spots * cap < h.teams) then 10 else 0

/-! ### Taking a launch up -/

/-- Trace record of a launch's start or end, with the `PHASE` of a phased one (R462, R463). -/
def State.traceLaunch (s : State) (ctx : Nat) (addr : DWord) (code : Nat) (phase : Nat := 0) : State :=
  s.traceRec { kind := 8, phase := phase, ctx := ctx, pay := leBytes 8 addr.toNat ++ leBytes 1 code }

/-- Append a launch to its list, or put it first. -/
def State.enlist (s : State) (l prio : Nat) (front : Bool) : State :=
  let q := FMap.getD s.pending prio []
  { s with pending := FMap.set s.pending prio (if front then l :: q else q ++ [l]) }

/-- Zero a team's Bench on every member (R223): its bytes and the poison of its words go, and the load entries that read it
(R277). -/
def State.zeroBench (s : State) (ms : List Member) (size : Nat) : State :=
  ms.foldl (fun s m =>
    let k := benchKey m.core m.base
    (({ s with mem := Memory.zero s.mem k size }).modCore m.core (fun q => { q with
      benchPoison := q.benchPoison.filter (fun w => decide (4 * w < k) || decide (k + size ≤ 4 * w)) })).killLoads m.core false
        ((List.range (size / 128)).map (fun i => k + 128 * i))) s

/-- Free retained Benches, zeroed, with their team slots (R341). -/
def State.freeRetained (s : State) (size : Nat) (rs : List (Nat × List Member)) : State :=
  rs.foldl (fun s r => r.2.foldl (fun s m => s.modCore m.core (fun k => { k with slots := FMap.erase k.slots m.slot })) (s.zeroBench r.2 size)) s

/-- What a successor takes over of a retained Bench: the members that lie on the cores of its team of that ordinal, when its
shape lets it start there; the second part is freed (R341). -/
def Header.takesOver (h : Header) (r : Nat × List Member) : List Member × List Member :=
  let o := match r.2 with | m :: _ => m.core | [] => 0
  let cs := clusterCores h.shape o
  if r.1 < h.teams ∧ (origins h.shape).contains o = true then (r.2.filter (fun m => cs.contains m.core), r.2.filter (fun m => !cs.contains m.core))
  else ([], r.2)

/-- Take up the header at `addr` (R331, R334, R340): a failing header starts no team and reports HDRBAD; a header with
AUTO binds its queue (R350), also one that is bound already (log entry 99). `prio`: the list of a successor, which goes first. `retained`: Benches of `size` bytes that an
ended launch leaves to a successor; those that it does not take over are freed (R341). The launch waits while its header
cannot be read yet (R453, R474). An address that is no multiple of 128 fails as a header that cannot be read (log entry 98). -/
def State.takeUp (s : State) (ctx : Nat) (addr : DWord) (o : Origin) (prio : Option Nat)
    (retained : List (Nat × List Member)) (size : Nat) : State :=
  if addr.toNat % 128 = 0 ∧ s.vaWaits .device ctx addr true 128 = true then
    { s with takeUps := s.takeUps ++ [{ ctx := ctx, addr := addr, origin := o, prio := prio, retained := retained, size := size }] }
  else
  let bad := fun (s : State) (reason cause : Nat) =>
    ((s.freeRetained size retained).complete o 2 reason cause 0).traceLaunch ctx addr 3
  let rd := if addr.toNat % 128 ≠ 0 then (s, .error Cause.misaligned) else s.vaRead .device ctx addr 128
  match rd with
  | (s, .error e) =>
    bad (s.postFault { va := addr, ctx := ctx, client := 6, anon := 3, cause := e } false).1 11 (Cause.num e)
  | (s, .ok bs) =>
    let r := s.headerReason bs ctx
    let h := Header.ofBytes bs
    let q := h.sqb % 64
    if r ≠ 0 then bad s r 0
    else
      let split := fun (x : Nat × List Member) => if h.benchSize = size then h.takesOver x else ([], x.2)
      let kept := (retained.map (fun x => (x.1, (split x).1))).filter (fun x => !x.2.isEmpty)
      let s := s.freeRetained size (retained.map (fun x => (x.1, (split x).2)))
      let (id, s) := s.newId
      let p := prio.getD h.prio
      let l : Launch := { hdr := h, addr := addr, origin := o, prio := p, teams := h.teams, retained := kept }
      let s := { s with launches := FMap.set s.launches id l }
      let s := s.traceLaunch ctx addr 0
      if h.flags / 4 % 2 = 1 then
        { s with
          queues := FMap.mod s.queues q {} (fun x => { x with bound := some addr })
          launches := FMap.set s.launches id { l with teams := 0, entryQ := some q } }
      else s.enlist id p prio.isSome

/-- A launch whose header could not be read is tried again. -/
def State.takeUpAgain (s : State) (t : TakeUp) : State := s.takeUp t.ctx t.addr t.origin t.prio t.retained t.size

/-- Launches whose header can be read now are taken up, in their order (R331, R453, R474). -/
def State.settleTakeUps (s : State) : State :=
  if s.takeUps.isEmpty || s.missQ.contains .takeUp || s.agenda.any (fun t => t.act == .takeUp) then s
  else s.takeUps.foldl State.takeUpAgain { s with takeUps := [] }

/-- The launch that has waited longest for its header is taken up; the others keep their order (R474). -/
def State.serveTakeUp (s : State) : State :=
  match s.takeUps with
  | [] => s
  | t :: r => let u := ({ s with takeUps := [] }).takeUpAgain t; { u with takeUps := u.takeUps ++ r }

/-! ### Starting a wave and a team (R334, R335) -/

/-- `WID` of a wave without its lane (R332). -/
def widOf (h : Header) (field2 ordinal : Nat) : DWord :=
  let c := fun (k : Nat) => h.count k
  let v := [field2, ordinal % c 0, ordinal / c 0 % c 1, ordinal / (c 0 * c 1) % c 2, ordinal / (c 0 * c 1 * c 2)]
  let step := fun (acc : Nat × Nat) (i : Nat) => (acc.1 + nth v i 0 * 2 ^ acc.2, acc.2 + nth h.widw (i + 1) 0)
  BitVec.ofNat 64 ((List.range 5).foldl step (0, 5)).1

/-- A wave at its first instruction (R335). -/
def newWave (h : Header) (team index member field2 ordinal prio : Nat) (acc : List Nat) (borrow : Bool) (stamp : Nat) :
    Wave :=
  { team := team, index := index, member := member, wid := widOf h field2 ordinal,
    pcs := List.replicate 32 h.entry,
    sreg := setNth (setNth (List.replicate 128 0) 0 (loWord h.param)) 1 (hiWord h.param),
    blocks := BitVec.ofNat 32 (2 ^ (h.blocks + 1) - 1), acc := acc, prio := prio, borrowing := borrow,
    admitted := stamp, lastIssue := stamp }

/-- Free wave slots of a slice, lowest first. -/
def State.freeWaveSlots (s : State) (c k : Nat) : List Nat :=
  ((List.range 16).map (fun i => 16 * k + i)).filter (fun w => (FMap.get (s.core c).waves w).isNone)

/-- Unassigned tiles of a core, lowest first. -/
def State.freeTiles (s : State) (c : Nat) : List Nat :=
  (List.range 16).filter (fun t => ((FMap.getD (s.core c).tiles t {}).owner).isNone)

/-- Put a wave on slice `k` of core `c` with fresh tiles, whose write generations advance (R156, log entry 66). Its group
fetches code anew, so that it runs what was written before its launch (R258, R352; log entry 68). -/
def State.addWave (s : State) (h : Header) (team c k index member field2 ordinal prio : Nat) : State :=
  match (s.freeWaveSlots c k).head? with
  | none => s
  | some w =>
    let tiles := (s.freeTiles c).take h.acc
    let borrow := decide (1023 < s.reservedSum c k + h.charge)
    let (stamp, s) := s.newId
    let s := s.modCore c (fun x => tiles.foldl (fun x t => x.changeTile t (fun _ =>
      { elems := List.replicate 256 {}, owner := some w, poison := [] })) x)
    let s := { s with icache := FMap.erase s.icache (groupOf c) }
    s.setWave c w (newWave h team index member field2 ordinal prio tiles borrow stamp)

/-- Load `n` Jig words from a global address over the JIG path, or a fault (R317). -/
def State.readJigWords (s : State) (c ctx : Nat) (ga : DWord) : Nat → State × Except (Cause × DWord) (List Word)
  | 0 => (s, .ok [])
  | n + 1 => match s.vaRead (.core c) ctx ga 4 with
    | (s, .error e) => (s, .error (e, ga))
    | (s, .ok bs) => match s.readJigWords c ctx (ga + 4) n with
      | (s, .error e) => (s, .error e)
      | (s, .ok ws) => (s, .ok (BitVec.ofNat 32 (leWord bs) :: ws))

/-- Load the Jig program of a header as `JLOAD` loads one: an address that is no multiple of 4 is MISALIGNED (R314, R317). -/
def State.readProgram (s : State) (c ctx : Nat) (ga : DWord) : State × Except (Cause × DWord) (List Word) :=
  if ga.toNat % 4 ≠ 0 then (s, .error (.misaligned, ga)) else s.readJigWords c ctx ga 256

/-- Whether loading `n` Jig words waits for the host link or for a channel that retrains (R453, R474). -/
def State.jigWordsWait (s : State) (via : Via) (ctx : Nat) (ga : DWord) (n : Nat) : Bool :=
  (List.range n).any (fun i => s.vaWaits via ctx (ga + BitVec.ofNat 64 (4 * i)) true 4)

/-- Whether a launch cannot be placed yet: the Jig program of its header cannot be read now (R453, R474). -/
def State.programWaits (s : State) (l : Nat) : Bool :=
  let h := (s.launch l).hdr
  (s.hostHeld || s.task.isSome) && h.jigp != 0 && s.jigWordsWait .device h.ctx h.jigp 256

/-- The Jig of core `c` holds a program of `ws` (R317). -/
def Jig.loaded (j : Jig) (ws : List Word) (len : Nat) : Jig :=
  { j with prog := (ws ++ List.replicate 256 0).take 256, len := len }

/-- Start a team on its members: Bench zeroed unless handed over, waves at ENTRY, the Jig loaded (R334, R314). A fault of that load is
reported and leaves the program of zero words (log entry 96). The first member of a cluster team is the last core placed on, which the
model chooses (log entry 106). A queue's entry is written whole in the first member's Bench (log
entry 99). -/
def State.startTeam (s : State) (l ordinal : Nat) (ms fresh : List Member) (entry : List Byte) : State :=
  let L := s.launch l
  let h := L.hdr
  let (id, s) := s.newId
  let t : Team := { launch := l, ctx := h.ctx, ordinal := ordinal, members := ms, bench := h.bench,
                    perCore := h.perCore, retain := L.retain, cqn := h.cqn, cqd := h.cqd,
                    fromQueue := L.entryQ, quietSince := s.clocks }
  let s := s.zeroBench fresh h.benchSize
  let s := { s with teams := FMap.set s.teams id t, lastCore := (match ms with | m :: _ => m.core | [] => s.lastCore) }
  let s := ms.foldl (fun s m => s.modCore m.core (fun x => { x with slots := FMap.set x.slots m.slot id, reserved := x.reserved.filter (fun r => r.1 != l) })) s
  let s := match ms with
    | m :: _ => { s with mem := Memory.writeBytes s.mem (benchKey m.core m.base) entry }
    | [] => s
  let s := (List.range ms.length).foldl (fun s i => match ms[i]? with
    | none => s
    | some m => (List.range h.perCore).foldl (fun s j =>
        s.addWave h id m.core (j % 4) (i * h.perCore + j) i j ordinal h.prio) s) s
  let s := if h.jigp = 0 then s
    else ms.foldl (fun s m => match s.readProgram m.core h.ctx h.jigp with
      | (s, .ok ws) => s.modCore m.core (fun x => { x with jig := ({ ({} : Jig) with holder := some id }).loaded ws 256 })
      | (s, .error e) =>
        (s.postFault { va := e.2, ctx := h.ctx, client := 3, cause := e.1, core := m.core, who := m.slot * 256, anon := 1 } false).1.modCore m.core
          (fun x => { x with jig := ({ ({} : Jig) with holder := some id }).loaded [] 256 })) s
  s.modLaunch l (fun x => { x with
    placed := x.placed + 1
    grants := []
    spot := []
    gcores := (x.gcores ++ ms.map (·.core)).eraseDups
    ran := (x.ran ++ ms.map (·.core)).eraseDups })

/-! ### Ends (R340, R341, R444, R449, R450) -/

/-- Give the status of a deposit back to its sender (R393): it leaves the receiving core behind what has left that core for the
sender's before (R8). -/
def State.depositStatus (s : State) (id : Nat) (st : Word) : State :=
  let (n, s) := s.newId
  { s with deposits := s.deposits.map (fun d =>
      if d.id = id then { d with held := false, refused := false, seq := n, status := some st } else d) }

/-- The target fields of `SEND` (R393): core, slot, wave index, mailbox. -/
def sendCore (t : Word) : Nat := (t.extractLsb' 24 8).toNat
def sendSlot (t : Word) : Nat := (t.extractLsb' 18 6).toNat
def sendWave (t : Word) : Nat := (t.extractLsb' 11 7).toNat
def sendBox (t : Word) : Nat := (t.extractLsb' 0 3).toNat

/-- Held deposits of a wave are discarded (R393, R450). -/
def State.discardDeposits (s : State) (c : Nat) (x : Wave) : State :=
  let slot := s.slotOn c x.team
  (s.deposits.filter (fun d => d.held && sendCore d.target == c && sendSlot d.target == slot &&
    sendWave d.target == x.index)).foldl (fun s d => s.depositStatus d.id 1) s

/-- Deposits held for the waves of a member's slot, resident or saved, are discarded (R339, R393, R450). -/
def State.discardAll (s : State) (m : Member) : State :=
  (s.deposits.filter (fun d => d.held && sendCore d.target == m.core && sendSlot d.target == m.slot)).foldl
    (fun s d => s.depositStatus d.id 1) s

/-- The waves of a team: (core, wave). -/
def State.teamWaves (s : State) (t : Nat) : List (Nat × Nat) :=
  ((s.team t).members).flatMap (fun m => ((s.core m.core).waves.filter (fun x => x.2.team == t)).map (fun x => (m.core, x.1)))

/-- A Bench byte of a team as the address of R222: its member's ordinal and the offset there. -/
def State.benchName (s : State) (t key : Nat) : Nat :=
  ((List.range (s.team t).members.length).findSome? (fun i => (s.team t).members[i]?.bind (fun m =>
    if benchKey m.core m.base ≤ key ∧ key < benchKey m.core m.base + roundUp (s.team t).bench 4096 then
      some (i * 2 ^ 18 + (key - benchKey m.core m.base)) else none))).getD 0

/-- The 16-bit elements that the LX reads from Bench, as Bench holds them when the entry starts (log entry 73), or the key of the first
that is poisoned (R451). -/
def State.readHalves (s : State) (key n : Nat) : Except Nat (List (BitVec 16)) :=
  match s.homeRead key (2 * n) with
  | some bs => .ok ((List.range n).map (fun i => BitVec.ofNat 16 (leWord ((bs.drop (2 * i)).take 2))))
  | none => .error (key + 2 * ((List.range n).find? (fun i => (s.homeRead (key + 2 * i) 2).isNone)).getD 0)

/-- `LXLD` and `LXINV` that a wave which ends leaves in the queue take effect in their order; the matrix of an
`LXLD` is read before the team's Bench is freed (R149, R157). One whose matrix is poisoned goes with its wave (log entry 73). -/
def State.keepLx (s : State) (c w : Nat) : State :=
  let mine := (s.core c).eng.filter (fun e => e.wave == w && (e.kind == .lxld || e.kind == .lxinv))
  mine.foldl (fun s e =>
    match (if e.kind = .lxld ∧ e.rows = [] then s.readHalves e.x0 (e.x1 * e.x2) else .ok e.rows) with
    | .error _ => s
    | .ok m => s.modCore c (fun k => { k with eng := k.eng.map (fun y =>
      if y.id = e.id then { y with wave := goneWave w e.id, rows := m, hold := false } else y) })) s

/-- Remove a wave's registrations and requests (R351, R438, R450). -/
def State.unregister (s : State) (c w : Nat) : State :=
  ({ s with
     waiters := s.waiters.filter (fun x => !(x.2.1 == c && x.2.2 == w))
     queues := s.queues.map (fun (q : Nat × StageQ) => (q.1, { q.2 with
       pushers := q.2.pushers.filter (fun p => !(p.1 == c && p.2.1 == w))
       poppers := q.2.poppers.filter (fun p => !(p.1 == c && p.2.1 == w)) })) }).modCore c (fun k => { k with
    slices := k.slices.map (fun (x : Nat × Slice) => (x.1, { x.2 with racq := x.2.racq.filter (· != w) }))
    sp := { k.sp with want := k.sp.want.filter (fun p => p.1 != w) } })

/-- Free a wave's registers, tiles and queue entries and remove it from its slot (R450 step 6). SFU entries whose
result another wave shares, or has shared and takes flags of, or waits for with an `SMOV`, complete (R111, R125, R275), for that wave
alone. An `MMAL` that was checked against an `LXLD` that goes runs on
the LX as it is (log entry 73). -/
def State.removeWave (s : State) (c w : Nat) : State :=
  let x := s.wave c w
  let k := sliceOf w
  let ctx := s.ctxOf x
  let s := s.unregister c w
  let s := { s with
    heldFaults := s.heldFaults.filter (fun h => !(h.client != 1 && h.core == c && h.who == w))
    imiss := s.imiss.filter (fun m => !(m.2.2.1 == c && m.2.2.2.1 == w)) }
  let s := if x.ended == 0xFFFFFFFF && (s.team x.team).killed.isNone then s.keepLx c w else s
  let s := s.modCore c (fun q => { q with
    waves := FMap.erase q.waves w
    eng := (q.eng.filter (fun e => e.wave != w)).map (fun e => { e with sharers := e.sharers.filter (· != w) })
    ops := q.ops.filter (fun o => o.wave != w)
    tiles := q.tiles.map (fun t => if t.2.owner = some w then (t.1, { t.2 with owner := none }) else t) })
  let nm := s.named c k
  let awaited := ((s.core c).ops.filter (fun o => o.kind == .smov && sliceOf o.wave == k)).flatMap Op.holds
  let s := s.modSlice c k (fun q => { q with
    sfu := (q.sfu.filter (fun e => (e.wave != w && decide (e.wave < 64)) || e.sharers.any (· != w) ||
      e.dest.regs.any (fun p => nm.contains p || awaited.contains p))).map (fun e =>
      { e with
        wave := if e.wave = w then goneWave w e.id else e.wave
        hold := e.hold && e.wave != w
        sharers := e.sharers.filter (· != w) }) })
  let left := (s.sliceWaves c k).any (fun y => s.ctxOf y.2 == ctx)
  let s := if left then s else s.modSlice c k (fun q => { q with reuse := q.reuse.filter (fun e => e.ctx != ctx) })
  (s.sweep c k).promote c k

/-- Stop and remove the walks of a team; walks handed off are stopped at the partner (R368, R450 step 1). -/
def State.stopWalks (s : State) (t c : Nat) : State :=
  let gone := (s.core c).sp.walks.filter (fun x => x.2.team == t && x.2.remote.isNone)
  let s := gone.foldl (fun s (x : Nat × Walk) => match x.2.wait with
    | .handoff _ _ false => { s with outbox := s.outbox ++ [.kill c x.1 x.2.hid] }
    | _ => s) s
  s.modCore c (fun k => { k with sp := { k.sp with
    walks := k.sp.walks.filter (fun x => !(x.2.team == t && x.2.remote.isNone)) } })

/-- Whether a completion record is to be written: its release, at SYSTEM scope, covers what the launch and those before it in
its chain have stored (R346, R401). -/
def Origin.reports : Origin → Bool
  | .host _ done _ => done != 0
  | .program _ done _ => done.isSome
  | .queue _ => false

/-- End a launch (R340, R341, R346): its successor is taken up first in the ended launch's list, or it reports. -/
def State.endLaunch (s : State) (l : Nat) : State :=
  let L := s.launch l
  let s := if L.origin.reports then L.ran.foldl (fun s c => s.flushDirty c) s else s
  let s := { s with
    launches := FMap.erase s.launches l
    checks := FMap.erase s.checks l
    pending := s.pending.map (fun (p : Nat × List Nat) => (p.1, p.2.filter (· != l))) }
  let status := if L.cancelled then 3 else if L.killed ≠ 0 then 1 else 0
  let s := s.traceLaunch L.hdr.ctx L.addr (1 + status) L.tracePhase
  if status = 0 ∧ L.hdr.next ≠ 0 then s.takeUp L.hdr.ctx L.hdr.next L.origin (some L.prio) L.retained L.hdr.benchSize
  else (s.freeRetained L.hdr.benchSize L.retained).complete L.origin status 0 0 L.killed

/-- A launch whose last team has ended ends (R340); one that is bound to a queue goes on (log entry 99). -/
def State.checkLaunchEnd (s : State) (l : Nat) : State :=
  match FMap.get s.launches l with
  | none => s
  | some L => if L.entryQ.isNone && decide (L.teams ≤ L.ended) then s.endLaunch l else s

/-- What stands for a saved wave where a resident wave's slot would (log entry 40). -/
def savedId (t index : Nat) : Nat := 1000000 + 1000 * t + index

/-- Faults that the host holds for a team's saved waves, its copy jobs and its save are let go. -/
def State.dropHeld (s : State) (t : Nat) : State :=
  { s with heldFaults := s.heldFaults.filter (fun h =>
      !(decide (h.who / 1000 = 1000 + t) || (h.client == 1 && h.team == t) || (s.team t).saveHeld == some h.fid)) }

/-- Release a team's resources in the order of R450. -/
def State.releaseTeam (s : State) (t : Nat) : State :=
  let T := s.team t
  let s := s.dropHeld t
  let l := T.launch
  let cs := T.members.map (·.core)
  let ws := s.teamWaves t
  let s := ws.foldl (fun s x => s.drainOps x.1 x.2) s
  let s := cs.foldl (fun s c => (s.stopWalks t c).modCore c (fun k =>
    if k.jig.holder = some t then { k with jig := {} } else k)) s
  let s := cs.foldl (fun s c => s.modCore c (fun k => { k with
    copies := k.copies.filter (fun j => j.2.team != t)
    copyTurn := k.copyTurn.filter (fun i => (FMap.get k.copies i).all (fun j => j.team != t)) })) s
  let s := T.members.foldl (fun s m => s.discardAll m) s
  let s := ws.foldl (fun s x => s.unregister x.1 x.2) s
  let s := cs.foldl (fun s c => s.modCore c (fun k => { k with l1 := k.l1.map (fun x =>
    { x with pins := x.pins.filter (· != t) }) })) s
  let s := ws.foldl (fun s x => s.removeWave x.1 x.2) s
  let gone := fun (a : Arrival) => ws.contains (a.core, a.wave) || decide (a.wave / 1000 = 1000 + t)
  let s := s.modLaunch l (fun x => { x with tbar := x.tbar.filter (fun a => !gone a), gbar := x.gbar.filter (fun a => !gone a) })
  let L := s.launch l
  let hand := T.retain && T.killed.isNone && L.killed == 0 && !L.cancelled && L.hdr.next != 0 && !T.recruit
  let s := if hand then s.modLaunch l (fun x => { x with retained := x.retained ++ [(T.ordinal, T.members)] })
    else
      let s := s.zeroBench T.members (roundUp T.bench 4096)
      T.members.foldl (fun s m => s.modCore m.core (fun k => { k with slots := FMap.erase k.slots m.slot })) s
  let s := { s with teams := FMap.erase s.teams t }
  let s := match T.fromQueue with
    | some q => { s with queues := FMap.mod s.queues q {} (fun x => { x with running := x.running - 1 }) }
    | none => s
  (s.modLaunch l (fun x => { x with
    ended := x.ended + 1
    killed := if T.killed.isSome then x.killed + 1 else x.killed })).checkLaunchEnd l

/-- All 32 threads of a wave have ended. -/
def Wave.isOver (x : Wave) : Bool := x.ended == 0xFFFFFFFF

/-- A wave that has ended: its held deposits are discarded, its blocks and its place among the reserved waves are released, and its
team ends with the last wave (R270, R340, R342, R393). -/
def State.waveOver (s : State) (c w : Nat) : State :=
  let x := s.wave c w
  let s := s.discardDeposits c x
  let s := s.unregister c w
  let s := s.modWave c w (fun y => { y.unmapBlocks y.blocks with borrowing := false })
  let s := (s.sweep c (sliceOf w)).promote c (sliceOf w)
  let ws := s.teamWaves x.team
  if ws.all (fun y => (s.wave y.1 y.2).isOver) && (s.team x.team).saved.all (fun v => v.waves.isEmpty) then s.releaseTeam x.team else s

/-- End threads of a wave (R444). -/
def State.endThreads (s : State) (c w : Nat) (m : Mask) : State :=
  s.modWave c w (fun x => { x with
    ended := x.ended ||| m
    handler := x.handler &&& ~~~m
    waits := x.waits.map (fun v => { v with lanes := v.lanes &&& ~~~m, active := v.active &&& ~~~m })
    stepS := x.stepS &&& ~~~m
    stepDbg := x.stepDbg &&& ~~~m })

/-- Kill a team for a cause (R449): its waves stop where they are, and its resources are released. -/
def State.killTeam (s : State) (t : Nat) (e : Cause) : State :=
  if (FMap.get s.teams t).isSome then
    (s.modTeam t (fun x => { x with killed := some e })).releaseTeam t
  else s

/-- An unhandled trap of a wave kills its team, with the fault record of its cause and access (R433). -/
def State.killReport (s : State) (c w : Nat) (e : Cause) (va : DWord) (access : Nat) : State :=
  let x := s.wave c w
  let r : FaultRec := { va := va, ctx := s.ctxOf x, client := 0, access := access, cause := e, core := c, who := s.whoOf c x }
  (s.postFault r false).1.killTeam x.team e

end Sys2Proof.Machine
end

