-- ==== Sys2Proof/Machine/Ops.lean ====
section
/-! DEFINITION. The shared operations of an issuing bundle: its view of the wave (R97), its guard (R5, R95), retiring
(R85, R96), taking a trap (R432-R434), returning from one (R435), and debug stops (R455-R458). -/
namespace Sys2Proof.Machine

/-! ### Addresses of threads -/

/-- Set the addresses of lanes. In handler mode a thread that is not a handler thread, and in a debug stop every thread,
keeps the address as its resume address too (R432, R434, R455). -/
def Wave.goTo (x : Wave) (m : Mask) (f : Nat → DWord) : Wave :=
  { x with
    pcs := (List.range 32).map (fun l => if m.getLsbD l then f l else nth x.pcs l 0)
    resume := (List.range 32).map (fun l =>
      if m.getLsbD l && (if srH x.sr then !x.handler.getLsbD l else x.dbg.isSome) then f l else nth x.resume l 0) }

/-- Threads that have not ended. -/
def Wave.live (x : Wave) : Mask := ~~~x.ended

/-! ### The issuing bundle -/

/-- The issuing bundle with the registers it reads: those before the clock's first bundle for the second (R97). -/
structure Iss where
  c : Nat
  w : Nat
  lanes : Mask
  pc : DWord
  len : Nat
  base : DWord
  second : Bool
  src : Wave
  phys : FMap PReg
  ctx : Nat
  /-- The clock in which it issued (R434). -/
  clk : Option Nat := none
  deriving DecidableEq, Repr

/-- The issuing bundle of the state, `none` when it names no live wave. -/
def State.issuing (s : State) : Option Iss :=
  match s.cur with
  | none => none
  | some u => match (if u.agent = .wave then s.wave? u.core u.wave else none) with
    | none => none
    | some x =>
      let v := if u.second then s.snap else none
      let (src, ph) := match v with
        | some (y, p) => (y, p)
        | none => (x, (s.slice u.core (sliceOf u.wave)).phys)
      some { c := u.core, w := u.wave, lanes := u.lanes, pc := u.pc, len := u.len, base := u.base, second := u.second,
             src := src, phys := ph, ctx := s.ctxOf x, clk := some s.clocks }

/-- Address of the next instruction. -/
def Iss.next (x : Iss) : DWord := x.pc + BitVec.ofNat 64 x.len
def Iss.slice (x : Iss) : Nat := sliceOf x.w
/-- The wave as it stands. -/
def State.now (s : State) (x : Iss) : Wave := s.wave x.c x.w
def State.modNow (s : State) (x : Iss) (f : Wave → Wave) : State := s.modWave x.c x.w f

/-- Why a bundle does not complete: it is not eligible, a fetch that its instruction makes has missed (R14, R435), it needs a register
(R272), it waits inside the instruction (R370), or it traps. -/
inductive Stop where
  | block
  | miss (s : State)
  | noReg
  | wait (s : State) (k : WaitKind)
  | trap (t : Trap)

/-- What an instruction did: the state with its destinations written, the flag sets of its lanes, a trap after it, and
where its active lanes go. -/
structure Fx where
  s : State
  fl : Nat → Flags := fun _ => 0
  /-- One flag set for the bundle (R85). -/
  once : Bool := false
  after : Option Trap := none
  goes : Option (Nat → DWord) := none
  /-- The instruction acts for every thread of its bundle. -/
  whole : Bool := false

/-! ### Debug stops (R455) -/

/-- Waits that are not abandoned (R436): `SEND`; and an instruction between issue and retirement, which is no boundary. -/
def Wait.stays (v : Wait) : Bool :=
  match v.kind with
  | .send _ _ _ => true
  | .result _ => true
  | .copy _ _ _ => true
  | _ => false

/-- Whether a destination is a mailbox. -/
def Dest.isBox : Dest → Bool
  | .mbox _ => true
  | _ => false

/-- Whether a deposit has entered a mailbox of a wave in a clock (R394). -/
def Wave.boxNow (x : Wave) (clk : Nat) : Bool := x.boxClk == some clk

/-- Whether the wave is at a boundary. -/
def Wave.atBoundary (x : Wave) : Bool := !(x.waits.any Wait.stays)

/-- A wave stops: steps 1 and 2 of R432 are made, a stop record is traced and vector 3 is raised. A stop at a boundary
writes the trap registers as an asynchronous trap does; in handler mode it leaves them (log entry 43). -/
def State.debugStop (s : State) (c w : Nat) (d : DbgStop) (slot : Nat) : State :=
  let t := d.trap
  let d := { d with since := s.time }
  let s := s.modWave c w (fun x => match t with
    | some t => { x with
        dbg := some d
        stops := []
        stepDbg := 0
        stepDrain := false
        drainStop := none
        trap := { trapc := BitVec.ofNat 32 (Cause.num t.cause + t.aux * 2 ^ 16 + (if t.cls = clsA then 2 ^ 30 else 0)),
                  trappc := t.pc, trapmask := t.mask, trapaddr := t.addr, resm := if t.cls = clsA then 0 else t.again }
        resume := x.pcs }
    | none => { x with
        dbg := some d
        stops := []
        stepDbg := 0
        stepDrain := false
        drainStop := none
        trap := if srH x.sr then x.trap else { trapc := BitVec.ofNat 32 (Cause.num d.cause + 2 ^ 31) }
        resume := if srH x.sr then x.resume else x.pcs })
  (s.traceWave c w 6 (leBytes 8 (s.wave c w).trap.trappc.toNat ++ leBytes 1 (Cause.num d.cause) ++ leBytes 1 slot)).msi 3

/-- The end of a debugger's step in handler mode, which leaves the trap registers as they are (R455, R458). -/
def DbgStop.handlerStep : DbgStop := { cause := .singleStep, asked := true }
def DbgStop.steps (d : DbgStop) : Bool := d.asked && d.cause == .singleStep

/-- Whether a stop that is no trap's may be made: at a boundary (R436), and in handler mode only when `DBG_RUN` asked
for it (R455); the end of a step at once (R458). A wave whose fault the host holds is inside its instruction. -/
def Wave.mayStop (x : Wave) (d : DbgStop) : Bool := d.steps || (x.atBoundary && x.replayHeld.isEmpty && (d.asked || !srH x.sr))

/-- A wave stops at its next boundary, which may be now; a wave that is stopped stays so. -/
def State.askStop (s : State) (c w : Nat) (d : DbgStop) : State :=
  let x := s.wave c w
  if x.dbg.isSome then s
  else if x.mayStop d then s.debugStop c w d 0xFF
  else s.modWave c w (fun x => { x with stops := x.stops ++ [d] })

/-- A saved wave as a debugger sees it: one that has been let go on is not stopped (R439, R454). -/
def SavedWave.shown (v : SavedWave) : Wave := if v.freed then { v.copy with dbg := none } else v.copy

/-- A saved wave stops at its next boundary, which it reaches when it is restored (R455); one that is stopped stays so. -/
def SavedWave.askStop (v : SavedWave) (d : DbgStop) : SavedWave :=
  if v.copy.isOver || v.shown.dbg.isSome then v else { v with copy := { v.copy with stops := v.copy.stops ++ [d] } }
def Team.modSaved (T : Team) (f : SavedWave → SavedWave) : Team :=
  { T with saved := T.saved.map (fun (y : Saved) => { y with waves := y.waves.map f }) }
def Team.askSaved (T : Team) (d : DbgStop) : Team := T.modSaved (fun v => v.askStop d)

/-- The freeze policy stops other waves with a wave, each at its boundary, saved ones among them (R455). -/
def State.freezeFrom (s : State) (ctx t : Nat) (me : Nat × Nat) (d : Cause) : State :=
  let l := (s.team t).launch
  let ts : List Nat := match FMap.get s.armed ctx with
    | some 1 => [t]
    | some 2 => (s.teams.filter (fun (y : Nat × Team) => y.2.launch == l)).map (fun (y : Nat × Team) => y.1)
    | _ => []
  let s := ts.foldl (fun s u => s.modTeam u (fun T => T.askSaved { cause := d })) s
  ((ts.flatMap s.teamWaves).filter (fun (y : Nat × Nat) => y != me && !(s.wave y.1 y.2).isOver)).foldl
    (fun s (y : Nat × Nat) => s.askStop y.1 y.2 { cause := d }) s

/-- The freeze policy for a wave that stops. -/
def State.freeze (s : State) (c w : Nat) (d : Cause) : State :=
  let x := s.wave c w
  s.freezeFrom (s.ctxOf x) x.team (c, w) d

/-- The order of the causes of one clock: hardware breakpoint, watchpoint, `BRK`, single step (R455). -/
def DbgStop.rank (d : DbgStop) : Nat :=
  match d.cause with
  | .breakpoint => if d.trap.any (fun t => t.cls == clsW) then 0 else 2
  | .watchpoint => 1
  | _ => 3

/-- The threads of hardware breakpoints among some causes. -/
def tripped (l : List DbgStop) : Mask :=
  l.foldl (fun m d => match d.trap with | some t => if d.rank = 0 then m ||| t.again else m | none => m) 0

/-- What the causes of a wave come to at the end of a clock: outside handler mode those of instructions are one stop, of the first
cause in the order of R455, and the threads of each breakpoint re-issue once without tripping; else a stop at a boundary. -/
def State.settleStop (s : State) (c w : Nat) : State :=
  let x := s.wave c w
  let best := (x.stops.filter (fun d => d.trap.isSome)).foldl (fun (m : Option DbgStop) d => match m with
    | none => some d
    | some y => if d.rank < y.rank then some d else some y) none
  if x.dbg.isSome then s.modWave c w (fun y => { y with stops := [] })
  else match best, srH x.sr with
  | some d, false =>
    let s := s.debugStop c w d ((d.trap.map (·.slot)).getD 0xFF)
    (s.modWave c w (fun y => { y with noTrip := y.noTrip ||| tripped x.stops })).freeze c w d.cause
  | _, _ => match x.stops.find? (fun d => d.trap.isNone && x.mayStop d) with
    | some d =>
      let s := s.debugStop c w d 0xFF
      if d.steps then s.freeze c w d.cause else s
    | none => s

/-- Stops that have fallen due are made at the end of each clock: not between the two bundles of one. -/
def State.settleStops (s : State) : State :=
  if s.snap.isSome then s
  else s.cores.foldl (fun s (e : Nat × Core) => e.2.waves.foldl (fun s (y : Nat × Wave) =>
    if y.2.stops.isEmpty then s else s.settleStop e.1 y.1) s) s

/-! ### Taking a trap (R432-R434) -/

/-- Move the prefix aside (R63). -/
def Wave.asidePrefix (x : Wave) : Wave :=
  { x with
    asidePfx := if srPP x.sr then x.pfx else 0
    asideMask := if srPP x.sr then x.pfxMask else 0
    asidePP := srPP x.sr
    sr := setBit32 x.sr 29 false }

/-- `TRAPC` of a trap. -/
def Trap.code (t : Trap) (pend : Bool) : Word :=
  BitVec.ofNat 32 (Cause.num t.cause + t.aux % 256 * 2 ^ 16 + (if pend then 2 ^ 29 else 0) +
    (if t.cls = clsA then 2 ^ 30 else 0) + (if t.cls = clsB then 2 ^ 31 else 0))

/-- `RESM` of a trap (R432 step 1). -/
def Trap.resm (t : Trap) : Mask := if t.cls = clsA ∨ t.cls = clsB then 0 else t.again

/-- Write the trap registers (R432 step 1). -/
def Trap.regs (t : Trap) (pend : Bool) : TrapRegs :=
  { trapc := t.code pend, trappc := if t.cls = clsB then 0 else t.pc, trapmask := t.mask, trapaddr := t.addr,
    resm := t.resm, stands := if t.cls = clsB then none else some t.pc }

/-- The threads that run the handler: the trapping bundle, or every live thread for class B (R432 step 5). -/
def Trap.handlers (t : Trap) (x : Wave) : Mask := if t.cls = clsB then x.live else t.bundle &&& x.live

/-- Put lanes into a bundle of their own (R326). -/
def regroup (bs : List Mask) (m : Mask) : List Mask :=
  if m = 0 then bs else m :: (bs.map (fun b => b &&& ~~~m)).filter (fun b => b != 0)

/-- Enter the handler for a trap (R432). The addresses of threads are those their instructions left them at; the
re-executing threads are still at the trapping instruction. -/
def Wave.enter (x : Wave) (t : Trap) (handler : DWord) : Wave :=
  let h := t.handlers x
  let hs : List HeldTrap := if t.cls = clsB then [] else x.async.map (fun a => { trap := a })
  let x := { x with
    trap := t.regs (!hs.isEmpty)
    held := hs
    async := if t.cls = clsB then x.async else []
    resume := x.pcs
    waits := x.waits.map (fun (v : Wait) => { v with lanes := v.lanes &&& ~~~h }) }
  let x := x.asidePrefix
  { x with
    waits := x.waits.filter (fun v => v.lanes != 0)
    sr := setBit32 x.sr 30 true
    handler := h
    bundles := regroup x.bundles h
    stuck := []
    pcs := (List.range 32).map (fun l => if h.getLsbD l then handler else nth x.pcs l 0)
    stepDbg := 0
    stepDrain := false }

/-- Whether debugging is armed for a wave's context, outside handler mode. -/
def State.armedFor (s : State) (x : Wave) : Bool := (FMap.get s.armed (s.ctxOf x)).isSome

/-- Offer a fault to the host (R414): the wave is held with its trap. -/
def State.offer (s : State) (c w : Nat) (t : Trap) (p : Nat × Nat) : State :=
  let x := s.wave c w
  let r : FaultRec := {
    va := t.addr, ctx := s.ctxOf x, client := p.1, access := p.2, cause := t.cause, core := c, who := s.whoOf c x,
    mask := t.mask }
  let (s, fid) := s.holdFault r w
  s.modWave c w (fun x => { x with replayHeld := x.replayHeld ++ [(fid, t)] })

/-- Post the record of a fault that is not held (R414, R415). -/
def State.postTrap (s : State) (c w : Nat) (t : Trap) : State :=
  match t.post with
  | none => s
  | some p =>
    let x := s.wave c w
    let r : FaultRec := {
      va := t.addr, ctx := s.ctxOf x, client := p.1, access := p.2, cause := t.cause, core := c, who := s.whoOf c x }
    (s.postFault r false).1

/-- Whether a trap and the one that entered the handler are of two instructions that issued in one clock (R434). -/
def Wave.pairs (x : Wave) (t : Trap) : Bool :=
  match x.first with
  | some (u, _) => t.cls != clsB && t.clk.isSome && u.clk == t.clk
  | none => false

/-- The trap that entered the handler, when it gives its place to the trap of the other instruction of its pair: that one has the
lower address, and no instruction of the handler has issued (R434; log entry 100). -/
def Wave.yields (x : Wave) (t : Trap) : Option Trap :=
  match x.first with
  | some (u, n) => if x.pairs t && decide (t.pc.toNat < u.pc.toNat) && x.lastIssue == n then some u else none
  | none => none

/-- Hold a trap as it stands, with the resume addresses of its bundle, and set `TRAPC.PEND` (R434). -/
def Wave.hold (x : Wave) (t : Trap) : Wave :=
  { x with
    held := x.held ++ [{ trap := t, resume := (lanesOf t.bundle).map (fun l => (l, nth x.resume l 0)) }]
    trap := { x.trap with trapc := setBit32 x.trap.trapc 29 true } }

/-- Deliver `t` in the place of `u`, which entered the handler and is held behind it (R434). -/
def Wave.swap (x : Wave) (t u : Trap) (handler : DWord) : Wave :=
  let h := t.handlers x
  { x with
    trap := t.regs true
    held := { trap := u, resume := (lanesOf u.bundle).map (fun l => (l, nth x.resume l 0)) } :: x.held
    waits := (x.waits.map (fun (v : Wait) => { v with lanes := v.lanes &&& ~~~h })).filter (fun v => v.lanes != 0)
    handler := h
    bundles := regroup x.bundles h
    stuck := []
    pcs := (List.range 32).map (fun l => if h.getLsbD l then handler else nth x.resume l 0)
    first := none }

/-- A trap takes a drained step's place as the cause of its stop (R458). -/
def Wave.stepTrapped (x : Wave) (e : Cause) : Wave := { x with drainStop := some { cause := e } }

/-- Deliver a trap (R432), hold it for the host (R414) or behind the one that entered the handler (R434), stop the wave for a debugger
(R455), or kill the team when it is unhandled (R433). In handler mode a trap outside the handler's threads is held when it arises in
the clock of the first one or is of the other instruction of its pair, the cause of a stop waits for the end of handler mode (R455),
and any other is unhandled. A step, drained or not, that enters the handler stops there with the trap's cause (R458). -/
def State.deliver (s : State) (c w : Nat) (t : Trap) : State :=
  let x := s.wave c w
  let apart := t.cls == clsB || t.bundle &&& x.handler == 0
  let dbg := t.cause == .breakpoint || t.cause == .singleStep || t.cause == .watchpoint
  match (if !t.unheld && s.replays (s.ctxOf x) t.cause then t.post.filter (fun p => p.1 == 0 || p.1 == 4) else none) with
  | some p => s.offer c w { t with post := none, access := p.2 } p
  | none =>
    if dbg && s.armedFor x && (!srH x.sr || apart) then
      s.modWave c w (fun x => { x with stops := x.stops ++ [{ cause := t.cause, trap := some t }] })
    else if srH x.sr && apart && (x.trapClk == some (s.clkOf c) || x.pairs t) then
      match x.yields t with
      | some u =>
        let s := (s.postTrap c w t).modWave c w (fun y => y.swap t u (s.launchOf x).hdr.handler)
        if x.drainStop.isSome then s.modWave c w (fun y => y.stepTrapped t.cause) else s
      | none => (s.postTrap c w t).modWave c w (fun y => y.hold t)
    else if srH x.sr ∨ (s.launchOf x).hdr.handler = 0 ∨ t.cause = .machineCheck then s.killReport c w t.cause t.addr ((t.post.map (·.2)).getD t.access)
    else
      let s := (s.postTrap c w t).modWave c w (fun y => { (y.enter t (s.launchOf x).hdr.handler) with
        trapClk := some (s.clkOf c)
        first := some (t, y.lastIssue) })
      if x.stepDrain || x.drainStop.isSome then s.modWave c w (fun y => y.stepTrapped t.cause)
      else if x.stepDbg = 0 then s
      else (s.debugStop c w { cause := t.cause } 0xFF).freeze c w t.cause

/-- Whether the clock's first bundle has ended the handler mode in which this one issued: an `ERET`, which sends the handler threads
to their resume addresses or to the handler of the held trap (R434, R435). -/
def State.leftHandler (s : State) (x : Iss) : Bool :=
  srH x.src.sr && (!srH (s.now x).sr || decide ((s.now x).held.length < x.src.held.length))

/-- Deliver a trap of an instruction. One that issued in handler mode traps in handler mode, also beside the `ERET` that ends it (R433;
log entry 100). -/
def State.raise (s : State) (x : Iss) (t : Trap) : State :=
  if s.leftHandler x then s.killReport x.c x.w t.cause t.addr ((t.post.map (·.2)).getD t.access)
  else s.deliver x.c x.w { t with clk := x.clk }

/-- A trap of the issuing bundle (R7, R431): the threads that do not re-execute have gone on. -/
def State.trapNow (s : State) (x : Iss) (t : Trap) : State :=
  let s := s.modNow x (fun y => y.goTo (x.lanes &&& ~~~t.again) (fun _ => x.next))
  s.raise x t

/-- A class W trap before the guard (R431): every thread of the bundle. -/
def Iss.pre (x : Iss) (e : Cause) (addr : DWord) (aux : Nat) : Stop :=
  .trap { cause := e, cls := clsW, mask := x.lanes, addr := addr, pc := x.pc, aux := aux, bundle := x.lanes, again := x.lanes }

/-- A class W trap of the active lanes (R7). -/
def Iss.trap (x : Iss) (act : Mask) (e : Cause) (addr : DWord) (aux : Nat := 0) : Stop :=
  .trap { cause := e, cls := clsW, mask := act, addr := addr, pc := x.pc, aux := aux, bundle := x.lanes, again := act }

/-- A class L trap of faulted lanes (R7, R290). -/
def Iss.faulted (x : Iss) (e : Cause) (m : Mask) (addr : DWord) : Trap :=
  { cause := e, cls := clsL, mask := m, addr := addr, pc := x.pc, bundle := x.lanes, again := m }

/-- A class A trap (R85). -/
def Iss.after (x : Iss) (e : Cause) (m : Mask) (addr : DWord) : Trap :=
  { cause := e, cls := clsA, mask := m, addr := addr, pc := x.pc, bundle := x.lanes }

/-! ### Retiring -/

/-- The trap of the enabled flags of an instruction, with the lanes that raised it (R85, R86). -/
def enabledTrap (x : Iss) (sr : Word) (act : Mask) (fl : Nat → Flags) (once : Bool) : Option Trap :=
  match flagCause (flagsOf act fl &&& srEnable sr) with
  | none => none
  | some (e, f) => some (x.after e (if once then act else maskOf (fun l => act.getLsbD l && fl l &&& f != 0)) 0)

/-- The read of a deposited value is an acquire at the scope of its `SEND` (R243); `was` is the mailbox as read. -/
def State.seeBox (s : State) (c w : Nat) (was : Mailbox) : State :=
  match was.from_ with
  | some sc => (s.acquire c (s.wave c w).team sc).advanceGen c w
  | none => s

/-- Empty a mailbox (R96); a local write of the same clock comes after (R394 steps 2 and 3). -/
def Wave.emptyBox (x : Wave) (n : Nat) : Wave :=
  if x.boxWrote.contains n then x
  else { x with mbox := setNth x.mbox n { (nth x.mbox n {}) with full := false, from_ := none } }

/-- A read with `.TAKE` (R96, R394). -/
def State.takeBox (s : State) (c w n : Nat) (was : Mailbox) : State :=
  (s.modWave c w (fun x => x.emptyBox n)).seeBox c w was

/-- Mailboxes that sources name with `.TAKE`, and those named without it (R50). -/
def takesOf (o : Opnds) : List Nat :=
  [(o.ca, o.a), (o.cb, o.b), (o.cc, o.c)].filterMap (fun p =>
    if p.1 = .sca ∧ 192 ≤ p.2.toNat ∧ p.2.toNat < 200 then some (p.2.toNat - 192) else none)
def boxesOf (o : Opnds) : List Nat :=
  [(o.ca, o.a), (o.cb, o.b), (o.cc, o.c)].filterMap (fun p =>
    if p.1 = .sca ∧ 128 ≤ p.2.toNat ∧ p.2.toNat < 136 then some (p.2.toNat - 128) else none)

/-- A team makes progress (R465). -/
def State.progress (s : State) (t : Nat) (handler : Bool) : State :=
  s.modTeam t (fun x => { x with progress := x.progress + 1, quietSince := s.clocks, reported := if handler then x.reported else [] })

/-- A single step ends after an instruction that retires: SINGLE_STEP by `SR.S` (R435) or a debugger's step, in handler mode too
(R458). -/
def State.stepEnd (s : State) (x : Iss) : State :=
  let y := s.now x
  let d := if srH y.sr then DbgStop.handlerStep else { cause := .singleStep, trap := some (x.after .singleStep x.lanes 0) }
  if y.stepDbg &&& x.lanes ≠ 0 then
    if y.stepDrain then s.modNow x (fun y => { y with stepDbg := 0, stepDrain := false, drainStop := some d })
    else s.modNow x (fun y => { y with stepDbg := 0, stops := y.stops ++ [d] })
  else if srH x.src.sr then s
  else if srS y.sr && (y.stepS &&& x.lanes) != 0 then
    (s.modNow x (fun y => { y with stepS := 0 })).deliver x.c x.w (x.after .singleStep x.lanes 0)
  else s

/-- The instruction at a wait, or the one issuing, retires: addresses, mailboxes taken, sticky flags, the prefix
consumed when `pfx`, and then its trap, by the enables that it read (R97, R446), or a single step. The threads of a handler bundle whose
clock's first bundle was an `ERET` stay at their resume addresses (R435). -/
def State.retire (s : State) (x : Iss) (act : Mask) (o : Opnds) (pfx : Bool) (fx : Fx) : State :=
  let act := if fx.whole then x.lanes else act
  let again := match fx.after with | some t => t.again | none => 0
  let s := if s.leftHandler x then s
    else (s.modNow x (fun y => y.goTo (x.lanes &&& ~~~act) (fun _ => x.next))).modNow x (fun y =>
      y.goTo (act &&& ~~~again) (fx.goes.getD (fun _ => x.next)))
  let s := (boxesOf o).foldl (fun s n => s.seeBox x.c x.w (nth x.src.mbox n {})) s
  let s := (takesOf o).foldl (fun s n => s.takeBox x.c x.w n (nth x.src.mbox n {})) s
  let s := s.modNow x (fun y => { y with
    sr := (let v := srOr y.sr (flagsOf act fx.fl); if pfx && srPP x.src.sr then setBit32 v 29 false else v) })
  let s := s.progress x.src.team (srH x.src.sr)
  match fx.after with
  | some t => s.raise x t
  | none => match enabledTrap x x.src.sr act fx.fl fx.once with
    | some t => s.raise x t
    | none => s.stepEnd x

/-! ### Waits that are left (R436) -/

/-- Remove a wait. -/
def State.dropWait (s : State) (c w : Nat) (v : Wait) : State :=
  s.modWave c w (fun x => { x with waits := x.waits.filter (fun u => u != v) })

/-- Withdraw what a wait has registered, as R436 states for each form; a `TRAV` keeps the walks of its started lanes,
which go on. -/
def State.abandon (s : State) (c w : Nat) (v : Wait) : State :=
  let x := s.wave c w
  let l := (s.team x.team).launch
  let out := fun (a : Arrival) => !(a.core == c && a.wave == w && a.lanes &&& v.lanes != 0)
  let s := match v.kind with
    | .bar b => s.modTeam x.team (fun t => { t with bars := FMap.mod t.bars b {} (fun y =>
        { y with arrived := FMap.set y.arrived x.index (FMap.getD y.arrived x.index 0 &&& ~~~v.lanes) }) })
    | .tbar => s.modLaunch l (fun y => { y with tbar := y.tbar.filter out })
    | .gbar _ => s.modLaunch l (fun y => { y with gbar := y.gbar.filter out })
    | .sqpush q k => { s with queues := FMap.mod s.queues q {} (fun y =>
        { y with pushers := y.pushers.filter (fun p => p.2.2.1 != k) }) }
    | .sqpop q k _ => { s with queues := FMap.mod s.queues q {} (fun y =>
        { y with poppers := y.poppers.filter (fun p => p.2.2 != k) }) }
    | .waita q _ _ _ _ => { s with waiters := s.waiters.filter (fun y => !(y.1 == q.line && y.2.1 == c && y.2.2 == w)) }
    | .racq _ _ => s.modSlice c (sliceOf w) (fun k => { k with racq := k.racq.erase w })
    | .trav left fs =>
      let started := v.active &&& ~~~(maskOf (fun i => (left.map TravReq.lane ++ fs.map (fun (f : Nat × Nat × Cause × DWord) => f.1)).contains i))
      (s.modCore c (fun k => { k with sp := { k.sp with want := k.sp.want.filter (fun y => y.1 != w || !v.lanes.getLsbD y.2) } })).modWave c w
        (fun y => y.goTo (v.lanes &&& (started ||| ~~~v.active)) (fun _ => v.pc + BitVec.ofNat 64 v.len))
    | _ => s
  s.dropWait c w v

/-- A bundle that waits inside its instruction (R327, R370). One whose handler mode the clock's first bundle has ended leaves the wait
for its resume address (R435). -/
def State.startWait (s : State) (x : Iss) (act : Mask) (takes : List Nat) (k : WaitKind) : State :=
  let v : Wait := { lanes := x.lanes, active := act, pc := x.pc, len := x.len, kind := k, takes := takes, clk := x.clk }
  let t := s.modNow x (fun y => { y with stepDbg := if y.stepDbg = 0 then 0 else x.lanes, waits := y.waits ++ [v] })
  if s.leftHandler x then
    (if v.stays then t.dropWait x.c x.w v else t.abandon x.c x.w v).modNow x (fun y => { y with
      pcs := (s.now x).pcs
      resume := (s.now x).resume })
  else t

/-! ### Issuing -/

/-- The predicates that a `ZFLG` in the engine queue (R165), and those that a `PFCH.PIN` in flight (R296), will write. -/
def Dest.pred? (d : Dest) : Option Nat := match d with | .pred n => some n | _ => Option.none
def State.zflgPreds (s : State) (x : Iss) : List Nat :=
  ((s.core x.c).eng.filter (fun e => e.wave == x.w)).filterMap (fun e => e.dest.pred?)
def State.pinPreds (s : State) (x : Iss) : List Nat :=
  ((s.core x.c).ops.filter (fun e => e.wave == x.w)).filterMap (fun e => e.dest.pred?)
def State.pendingPreds (s : State) (x : Iss) : List Nat := s.zflgPreds x ++ s.pinPreds x

/-- The destination class with a form's default (R54). -/
def dclsOf (o : Opnds) (dflt : DCls) : DCls := match o.ext with | some e => e.cd | none => dflt

/-- The predicate of a class 01 name, if it names one (R50). -/
def predName (cls : Cls) (n : Nat) : List Nat := if cls = .sca ∧ 144 ≤ n ∧ n < 192 then [n - 144] else []

/-- The predicates that an instruction names as a source or a destination, beside its guard (R154): `dflt` is the destination class
of a word without an extension, and `more` the predicates that other fields of it name. -/
def namedPreds (o : Opnds) (dflt : DCls) (more : List Nat) : List Nat :=
  predName o.ca o.a.toNat ++ predName o.cb o.b.toNat ++ predName o.cc o.c.toNat ++
  (match dclsOf o dflt with
    | .pred => [o.d.toNat]
    | .sca => predName .sca o.d.toNat
    | .vec => []
    | .none => []) ++ more

/-- Active lanes of the bundle (R5); `none` while the predicate is PENDING. -/
def State.guard (s : State) (x : Iss) (o : Opnds) : Option Mask :=
  if o.prd.toNat = 63 then some x.lanes
  else if (s.pendingPreds x).contains o.prd.toNat then none
  else
    let p := nth x.src.preg o.prd.toNat 0
    some (x.lanes &&& (if o.pn then ~~~p else p))

/-- Whether an issue that leads to `t` makes the wave hold more than 8 transit registers (R271). -/
def State.transitsOver (s : State) (x : Iss) (t : State) : Bool :=
  let n := (t.transits x.c x.w).length
  decide (8 < n) && decide ((s.transits x.c x.w).length < n)

/-- Finish what a body came to. An instruction that would leave the wave with more than 8 transit registers does not
issue (R271). -/
def State.finish (s : State) (x : Iss) (act : Mask) (o : Opnds) (pfx : Bool) : Except Stop Fx → State
  | .ok fx => if s.transitsOver x fx.s then { s with blocked := true } else fx.s.retire x act o pfx fx
  | .error .block => { s with blocked := true }
  | .error (.miss s1) => { s1 with blocked := true }
  | .error .noReg => { s with blocked := true, agenda := { act := .spill x.c x.slice } :: s.agenda }
  | .error (.wait s1 k) =>
    if s.transitsOver x s1 then { s with blocked := true }
    else ((boxesOf o).foldl (fun s n => s.seeBox x.c x.w (nth x.src.mbox n {})) s1).startWait x act (takesOf o) k
  | .error (.trap t) => s.trapNow x t

/-- The acquire of a wave's first instruction (R243, R279). -/
def State.firstAcquire (s : State) (x : Iss) : State :=
  if x.src.started then s
  else ((s.modNow x (fun y => { y with started := true })).acquire x.c x.src.team .device).advanceGen x.c x.w

/-- Whether a breakpoint lies at the instruction (R456), with its slot. -/
def State.bkptAt (s : State) (x : Iss) : Bool :=
  s.armedFor x.src && !srH x.src.sr && s.bkpts.any (fun b => b.2.ctx == x.ctx && b.2.addr == x.pc)

/-- Execute a SIMT instruction: the prefix rules (R62), the traps of `pre` before the guard, the guard, and the body on
the active lanes. With no active lane nothing happens (R95). A word that names a predicate which a pending `ZFLG` will write does
not issue (R154); the wave's other bundles go on (log entry 94). -/
def simt (s : State) (o : Opnds) (pfx : Bool) (pre : Iss → Option Stop) (body : State → Iss → Mask → Except Stop Fx)
    (dflt : DCls := .none) (more : List Nat := []) : Host.Outcome State Fault Refusal :=
  match s.issuing with
  | none => .fault .noAgent
  | some x =>
    let s := s.firstAcquire x
    .next (
      if (namedPreds o dflt more).any (fun p => (s.zflgPreds x).contains p) then { s with blocked := true }
      else if srPP x.src.sr && !pfx then s.finish x x.lanes o false (.error (x.pre .prefixMisuse x.base 0))
      else match pre x with
        | some e => s.finish x x.lanes o false (.error e)
        | none => match s.guard x o with
          | none => { s with blocked := true }
          | some act =>
            if act = 0 then s.retire x 0 { o with ca := .none, cb := .none, ext := none } pfx { s := s }
            else s.finish x act o pfx (body s x act))

/-- No trap before the guard. -/
def noPre : Iss → Option Stop := fun _ => none

/-! ### Returning from a handler (R434, R435) -/

/-- Where each thread resumes: a thread at the trapping instruction re-executes at `TRAPPC`, or skips the instruction there
when it is not in `RESM` (R435 steps 2 and 3); a handler that wrote another address to `TRAPPC` sends both there. -/
def Wave.resumed (x : Wave) (len : Nat) (l : Nat) : DWord :=
  let r := nth x.resume l 0
  if x.trap.stands = some r then (if x.trap.resm.getLsbD l || x.trap.trappc != r then x.trap.trappc else r + BitVec.ofNat 64 len)
  else r

/-- The bundle of a pending prefix (R62): the threads of the prefix mask at the address after the `FMT`, which is the lowest
among theirs, since the others of a trapped instruction have gone on past it (log entry 63). -/
def Wave.pfxBundle (x : Wave) : Mask :=
  let m := x.pfxMask &&& x.live
  let low := ((lanesOf m).map (fun l => (nth x.pcs l 0).toNat)).min?.getD 0
  maskOf (fun l => m.getLsbD l && (nth x.pcs l 0).toNat == low)

/-- The bundle of a prefix that is pending again stands alone. -/
def Wave.groupPrefix (x : Wave) : Wave := if srPP x.sr then { x with bundles := regroup x.bundles x.pfxBundle } else x

/-- The wave with the special registers of its handler as an instruction of the clock reads them, from `src`: another bundle of the clock
may have written them since (R97, R446). -/
def Wave.asRead (y src : Wave) : Wave :=
  { y with trap := src.trap, asidePfx := src.asidePfx, asideMask := src.asideMask, asidePP := src.asidePP }

/-- Whether a live thread goes on at the instruction after the one at `TRAPPC` (R435 step 2). -/
def Wave.skips (x : Wave) : Bool :=
  (lanesOf x.live).any (fun l => x.trap.stands == some (nth x.resume l 0) && !x.trap.resm.getLsbD l && x.trap.trappc == nth x.resume l 0)

/-- `ERET` (R435): resume addresses, the re-executing bundle, the prefix, `SR.H`, and the step of `SR.S`. -/
def Wave.eret (x : Wave) (len : Nat) : Wave :=
  let m := x.live
  let pcs := (List.range 32).map (fun l => if m.getLsbD l then x.resumed len l else nth x.pcs l 0)
  let again := maskOf (fun l => m.getLsbD l && x.trap.resm.getLsbD l && x.trap.stands == some (nth x.resume l 0))
  let sr := setBit32 (setBit32 x.sr 30 false) 29 x.asidePP
  Wave.groupPrefix { x with
    pcs := pcs
    bundles := regroup x.bundles again
    sr := sr
    pfx := x.asidePfx
    pfxMask := x.asideMask
    handler := 0
    stepS := if srS sr then m else 0 }

/-- `ERET` with a held trap (R434, R435 step 1): its registers are written, its bundle takes the addresses recorded
with it, and the handler starts again. -/
def Wave.eretHeld (x : Wave) (len : Nat) (h : HeldTrap) (rest : List HeldTrap) (handler : DWord) : Wave :=
  let m := x.live
  let res := (List.range 32).map (fun l => if m.getLsbD l then x.resumed len l else nth x.resume l 0)
  let res := if h.trap.cls = clsB then res
    else (List.range 32).map (fun l => match h.resume.find? (·.1 == l) with | some r => r.2 | none => nth res l 0)
  let hs := h.trap.handlers x
  { x with
    trap := h.trap.regs (!rest.isEmpty)
    held := rest
    first := none
    resume := res
    handler := hs
    bundles := regroup x.bundles hs
    pcs := (List.range 32).map (fun l => if hs.getLsbD l then handler else nth res l 0) }

/-- Handler mode ends with no handler thread left (R444): the held trap is delivered, or the prefix moved aside is
dropped and the other threads resume. -/
def Wave.handlerOver (x : Wave) (len : Nat) (handler : DWord) : Wave :=
  match x.held with
  | h :: r => x.eretHeld len h r handler
  | [] =>
    { x with
      pcs := (List.range 32).map (fun l => if x.live.getLsbD l then nth x.resume l 0 else nth x.pcs l 0)
      sr := setBit32 (setBit32 x.sr 30 false) 29 false
      asidePP := false
      asidePfx := 0
      asideMask := 0
      handler := 0 }

/-- Resume a wave that a debug stop held: its threads go on at their resume addresses (R455). -/
def Wave.resumeStopped (x : Wave) : Wave :=
  if srH x.sr then { x with dbg := none }
  else
    { x with
      dbg := none
      pcs := (List.range 32).map (fun l => if x.live.getLsbD l then nth x.resume l 0 else nth x.pcs l 0)
      stepS := if srS x.sr then x.live else x.stepS }

end Sys2Proof.Machine
end

