-- ==== Sys2Proof/Machine/Operands.lean ====
section
/-! DEFINITION. Operands: names and rotation (R263-R264), empties (R96, R265), special registers (R51), immediates
(R52), destinations (R95), and the combinator of the computing groups with its reuse (R100, R273-R276, R280). -/
namespace Sys2Proof.Machine

/-! ### Special registers (R51) -/

/-- `CQBASE` of a team (R358). With `CQN` 0 the formula of `OFF` is applied all the same and its low 18 bits are taken, which the model
chooses (log entry 108). -/
def Team.cqBase (t : Team) : Nat :=
  let n := t.cqn
  let off := (t.bench - 16 * n * t.cqd) / 256 * 256
  n * 2 ^ 28 + (if n = 0 then 0 else Nat.log2 t.cqd - 4) * 2 ^ 24 + off % 2 ^ 18

/-- Registers of a slice with references (R285). -/
def State.liveRegs (s : State) (c k : Nat) : Nat :=
  let nm := s.named c k
  ((List.range 1024).filter (fun p => p != 0 && nm.contains p)).length

def State.dvStat (s : State) (c w : Nat) (x : Wave) : Nat :=
  let k := sliceOf w
  x.rhit.toNat * 2 ^ 48 + x.dhit.toNat * 2 ^ 32 + s.liveRegs c k % 1024 * 2 ^ 22 + (if x.borrowing then 2 ^ 21 else 0) +
    ((s.sliceWaves c k).filter (fun y => y.2.borrowing)).length * 2 ^ 16 + x.dfull.toNat

/-- `CAPLINK` (R24). -/
def State.capLinkNow (s : State) : DWord :=
  s.capLinkHeld.getD <|
  (s.capLink &&& ~~~(0xFF : DWord)) ||| (if s.paired then BitVec.zeroExtend 64 Config.partnerId <<< 16 else 0) |||
    BitVec.ofNat 64 ((if s.ports.any id then 16 else 0) + (if s.paired then 8 else 0) +
      (if nth s.ports 1 false then 4 else 0) + (if nth s.ports 0 false then 2 else 0) + (if s.hostUp then 1 else 0))

/-- A special register as lane `l` of a wave reads it (R51, R264, R332, R358, R390, R391, R430, R445). -/
def State.special (s : State) (c w : Nat) (x : Wave) (n l : Nat) : DWord :=
  let T := s.team x.team
  let L := s.launch T.launch
  let h := L.hdr
  let ofN := fun (v : Nat) => BitVec.ofNat 64 v
  match n with
  | 256 => x.sr.zeroExtend 64
  | 257 => if srPP x.sr then x.pfx else 0
  | 258 => if srH x.sr && x.asidePP then x.asidePfx else 0
  | 259 => ofN (x.rotSize * 2 ^ 16 + x.rotBase)
  | 260 => x.wid ||| ofN l
  | 261 => ofN l
  | 262 => ofN x.index
  | 263 => ofN (x.member * 64 + s.slotOn c x.team)
  | 264 => ofN c
  | 265 => ofN (sliceOf w)
  | 266 => ofN (s.clkOf c)
  | 267 => ofN s.time
  | 268 => L.phase.zeroExtend 64
  | 269 => x.trap.trapc.zeroExtend 64
  | 270 => x.trap.trappc
  | 271 => x.trap.trapmask.zeroExtend 64
  | 272 => x.trap.trapaddr
  | 273 => x.trap.resm.zeroExtend 64
  | 274 => x.rsp
  | 275 => ofN T.cqBase
  | 276 => h.sdtp
  | 277 => ofN (s.dvStat c w x)
  | 278 => L.imb
  | 288 => s.capFlit
  | 289 => s.capCores
  | 290 => s.capMem
  | 291 => s.capLinkNow
  | _ => 0

/-! ### Reading sources -/

/-- An operand field: its position (R430), class, name, empty policy, registers, and how it reads an immediate. -/
structure Opd where
  pos : Nat
  cls : Cls
  name : Nat
  ep : Bool
  n : Nat := 1
  /-- A P position: the lane's bit of a predicate (R94). -/
  p : Bool := false
  /-- A 64-bit immediate takes IMM as bits [63:32] (R52). -/
  fp : Bool := false
  /-- LOAD, STORE, ATOM: an immediate is always the name field (R52). -/
  field : Bool := false
  deriving DecidableEq, Repr

/-- A source as read: one value a register, its reuse key items, and whether it is never eligible for reuse (R275). -/
structure Src where
  vals : List VReg
  key : List Nat
  dyn : Bool := false
  deriving DecidableEq, Repr

/-- The value of an operand in a lane, its registers lowest first (R12). -/
def Src.nat (x : Src) (l : Nat) : Nat :=
  (x.vals.map (fun v => (vlane v l).toNat)).foldr (fun v acc => v + 2 ^ 32 * acc) 0

/-- An absent operand. -/
def Src.none : Src := { vals := [], key := [2 ^ 79] }

/-- Resolve the `n` names of a vector operand: rotation, then mapping (R263, R264). -/
def Iss.names (x : Iss) (act : Mask) (pos name : Nat) : Nat → Except Stop (List Nat)
  | 0 => .ok []
  | k + 1 =>
    match x.names act pos name k with
    | .error e => .error e
    | .ok ns => match x.src.rotate (name + k) with
      | none => .error (x.trap act .rotRange (BitVec.ofNat 64 (name + k)) pos)
      | some r =>
        if x.src.mapped r then .ok (ns ++ [r])
        else .error (x.trap act .regUnmapped (BitVec.ofNat 64 (name + k)) pos)

/-- Check the names of every vector operand before any is read (R153, R263). -/
def Iss.namesOk (x : Iss) (act : Mask) : List Opd → Except Stop Unit
  | [] => .ok ()
  | d :: r =>
    if d.cls = .vec then
      match x.names act d.pos d.name d.n with
      | .error e => .error e
      | .ok _ => x.namesOk act r
    else x.namesOk act r

/-- An empty name blocks or traps by its policy (R96). -/
def Iss.empty (x : Iss) (act : Mask) (d : Opd) (name : Nat) : Stop :=
  if d.ep then x.trap act .regEmpty (BitVec.ofNat 64 name) d.pos else .block

/-- Read the physical registers of names. -/
def Iss.readRegs (x : Iss) (act : Mask) (d : Opd) : List Nat → Except Stop (List VReg × List Nat)
  | [] => .ok ([], [])
  | n :: r =>
    let p := x.src.reg n
    let v := pregOf x.phys p
    if v.pending then .error (x.empty act d n)
    else if v.poison then .error (x.trap act .uncorrectable 0)
    else match x.readRegs act d r with
      | .error e => .error e
      | .ok (vs, ps) => .ok (v.data :: vs, regItem p :: ps)

/-- The immediate of a class 10 operand as bits of its width (R52). -/
def immOf (o : Opnds) (d : Opd) : Nat :=
  let short := (BitVec.ofNat 11 d.name).signExtend 64
  if o.ext.isSome && d.name == 0 && !d.field then
    if d.n = 2 then (if d.fp then o.imm.toNat * 2 ^ 32 else (o.imm.signExtend 64).toNat) else o.imm.toNat
  else short.toNat % 2 ^ (32 * d.n)

/-- Words of a number. -/
def wordsOf (n v : Nat) : List Word := (List.range n).map (fun i => BitVec.ofNat 32 (v / 2 ^ (32 * i)))

/-- Read a source (R94, R96, R50-R52). A predicate mask that a `PFCH.PIN` or a `ZFLG` is still to write blocks under either policy
(R154; log entry 86). -/
def State.readOpd (s : State) (x : Iss) (act : Mask) (o : Opnds) (d : Opd) : Except Stop Src :=
  let one := fun (v : Word) (dyn : Bool) => Except.ok { vals := [vbuild (fun _ => v)], key := [maskItem v.toNat], dyn := dyn }
  match d.cls with
  | .none => .ok Src.none
  | .imm => .ok { vals := (wordsOf d.n (immOf o d)).map (fun v => vbuild (fun _ => v)), key := [immOf o d] }
  | .vec => match x.names act d.pos d.name d.n with
    | .error e => .error e
    | .ok ns => match x.readRegs act d ns with
      | .error e => .error e
      | .ok (vs, ks) => .ok { vals := vs, key := ks }
  | .sca =>
    let n := d.name
    if n < 128 then
      if (List.range d.n).any (fun i => x.src.sPend.getLsbD (n + i)) then .error (x.empty act d n)
      else
        let vs := (List.range d.n).map (fun i => nth x.src.sreg (n + i) 0)
        .ok { vals := vs.map (fun v => vbuild (fun _ => v)), key := [scalarItem (vs.foldr (fun v a => v.toNat + 2 ^ 32 * a) 0)] }
    else if n < 136 ∨ (192 ≤ n ∧ n < 200) then
      let b := nth x.src.mbox (n % 64) {}
      if b.full then one b.val true else .error (x.empty act d n)
    else if n < 192 then
      if (s.pendingPreds x).contains (n - 144) then .error .block
      else
        let m := nth x.src.preg (n - 144) 0
        if d.p then .ok { vals := [vbuild (fun l => if m.getLsbD l then 1 else 0)], key := [maskItem m.toNat] }
        else one m false
    else
      .ok { vals := [vbuild (fun l => loWord (s.special x.c x.w x.src n l))], key := [], dyn := true }

/-- Read sources in order. -/
def State.readOpds (s : State) (x : Iss) (act : Mask) (o : Opnds) : List Opd → Except Stop (List Src)
  | [] => .ok []
  | d :: r => match s.readOpd x act o d with
    | .error e => .error e
    | .ok v => match s.readOpds x act o r with
      | .error e => .error e
      | .ok vs => .ok (v :: vs)

/-! ### Operand fields of a word -/

def fieldA (o : Opnds) (n : Nat := 1) : Opd := { pos := 0, cls := o.ca, name := o.a.toNat, ep := o.ea, n := n }
def fieldB (o : Opnds) (n : Nat := 1) : Opd := { pos := 1, cls := o.cb, name := o.b.toNat, ep := o.eb, n := n }
def fieldC (o : Opnds) (n : Nat := 1) : Opd := { pos := 2, cls := o.cc, name := o.c.toNat, ep := o.ec, n := n }

/-! ### Writing destinations (R95) -/

/-- Write scalar registers. -/
def Wave.setScalars (x : Wave) (n : Nat) (vs : List Word) : Wave :=
  { x with sreg := (List.range vs.length).foldl (fun r i => setNth r (n + i) (nth vs i 0)) x.sreg }

/-- A local write to a mailbox (R394 step 3). One that becomes full ends the sleep of the wave's bundles (R447): their
deadline is reached. -/
def Wave.setBox (x : Wave) (n : Nat) (v : Word) : Wave :=
  let woken := fun (y : Wait) => match y.kind with | .sleep _ => { y with kind := .sleep 0 } | _ => y
  { x with
    mbox := setNth x.mbox n { val := v, full := true, from_ := none }
    boxWrote := n :: x.boxWrote
    waits := if (nth x.mbox n {}).full then x.waits else x.waits.map woken }

/-- Set the predicate of the lanes of a mask. -/
def Wave.setPred (x : Wave) (n : Nat) (m v : Mask) : Wave :=
  { x with preg := setNth x.preg n ((nth x.preg n 0 &&& ~~~m) ||| (v &&& m)) }

/-- The present values of vector names, for a partial bundle: a PENDING one blocks, a poisoned one traps (R95, R451). -/
def State.prior (s : State) (x : Iss) (act : Mask) : List Nat → Except Stop (List VReg)
  | [] => .ok []
  | n :: r =>
    let v := pregOf (s.slice x.c x.slice).phys ((s.now x).reg n)
    if v.pending then .error .block
    else if v.poison then .error (x.trap act .uncorrectable 0)
    else match s.prior x act r with
      | .error e => .error e
      | .ok vs => .ok (v.data :: vs)

/-- Whether the other bundle of this clock has written one of the names (R97, R280). -/
def State.twice (s : State) (x : Iss) (ns : List Nat) : Bool := x.second && ns.any (fun n => s.wrote.contains (x.c, x.w, n))

/-- The first bundle's writes of names that the second one writes too are not counted: the merged register is offered once
(R280). -/
def State.unoffer (s : State) (x : Iss) (ns : List Nat) : State :=
  let mine := s.offers.filter (fun e => e.1 == x.w && ns.contains e.2.1)
  let count := fun (hit : Bool) => BitVec.ofNat 16 (mine.filter (fun e => e.2.2 == hit)).length
  { s with offers := s.offers.filter (fun e => !(e.1 == x.w && ns.contains e.2.1)) }.modNow x (fun y =>
    { y with dhit := y.dhit - count true, dfull := y.dfull - count false })

/-- Write the active lanes of vector names; a name that the clock's other bundle has written too is counted and offered once (R280). -/
def State.putVec (s : State) (x : Iss) (act : Mask) (ns : List Nat) (vs : List VReg) : Except Stop State :=
  let full := act = 0xFFFFFFFF
  match (if full then .ok (ns.map (fun _ => vzero)) else s.prior x act ns) with
  | .error e => .error e
  | .ok ps =>
    let vals := (List.range ns.length).map (fun i => (nth ns i 0, vmerge act (nth vs i vzero) (nth ps i vzero)))
    match (if s.twice x ns then s.unoffer x ns else s).writeVecs x.c x.w vals with
    | some s => .ok s
    | none => .error .noReg

/-- Write a class 01 destination: scalars, a mailbox, or a predicate mask (R50, R95). A scalar that is still PENDING holds its writer
back (log entry 89). -/
def State.putScalar (s : State) (x : Iss) (act : Mask) (n : Nat) (vs : List Word) : Except Stop State :=
  if n < 128 then
    if (List.range vs.length).any (fun i => (s.now x).sPend.getLsbD (n + i)) then .error .block
    else .ok (s.modNow x (fun y => y.setScalars n vs))
  else if n < 136 then .ok (s.modNow x (fun y => y.setBox (n - 128) (nth vs 0 0)))
  else if (s.pendingPreds x).contains (n - 144) then .error .block
  else .ok (s.modNow x (fun y => y.setPred (n - 144) act (nth vs 0 0)))

/-- Write the predicate of the active lanes. -/
def State.putPred (s : State) (x : Iss) (act : Mask) (n : Nat) (v : Mask) : Except Stop State :=
  if (s.pendingPreds x).contains n then .error .block
  else .ok (s.modNow x (fun y => y.setPred n act v))

/-- Values that names hold, for lanes whose results are discarded (R444): a PENDING one has a free value. -/
def State.leftIn (s : State) (x : Iss) : List Nat → State × List VReg
  | [] => (s, [])
  | n :: r =>
    let v := pregOf (s.slice x.c x.slice).phys ((s.now x).reg n)
    let (s1, d) := if v.pending then
        ({ s with freeCount := s.freeCount + 32 }, vbuild (fun l => Config.freeWord (s.freeCount + l)))
      else (s, v.data)
    let (s2, ds) := s1.leftIn x r
    (s2, d :: ds)

/-- Registers that a partial bundle reads for its inactive lanes (R95, R271). -/
def State.priorRegs (s : State) (x : Iss) (act : Mask) (ns : List Nat) : List Nat :=
  if act = 0xFFFFFFFF then [] else ns.map (s.now x).reg

/-- Make vector names PENDING; a partial bundle needs their present values first (R95, R265). -/
def State.pendNames (s : State) (x : Iss) (act : Mask) (ns : List Nat) : Except Stop (List Nat × List VReg × State) :=
  match (if act = 0xFFFFFFFF then .ok [] else s.prior x act ns) with
  | .error e => .error e
  | .ok ps =>
    let (s, ds) := if act = 0xFFFFFFFF then s.leftIn x ns else (s, ps)
    match s.pendVecs x.c x.w ns with
    | none => .error .noReg
    | some (rs, s) => .ok (rs, ds, s)

/-- Make scalar names PENDING (R111). -/
def Wave.pendScalars (x : Wave) (n k : Nat) : Wave :=
  { x with sPend := (List.range k).foldl (fun v i => v ||| BitVec.ofNat 128 (2 ^ (n + i))) x.sPend }

/-! ### Reuse (R273-R276, R280) -/

/-- The key of an instruction (R274): its operation, sources, prefix, lane mask with prior destinations, destination. -/
def reuseKey (x : Iss) (act : Mask) (op : List Nat) (srcs : List Src) (pred : Option Nat) (ns : List Nat) : List Nat :=
  op ++ srcs.flatMap (·.key) ++ [if srPP x.src.sr then x.src.pfx.toNat else 2 ^ 78] ++
  (if act = 0xFFFFFFFF then [2 ^ 79] else act.toNat :: ns.map (fun n => regItem (x.src.reg n))) ++
  [match pred with | some p => p | none => 2 ^ 79]

/-- The key of an entry that an instruction may make: not when the clock's other bundle has written one of its names (R280), nor
when a register of the key no longer holds the value that the instruction read (R282). -/
def State.entryKey (s : State) (x : Iss) (ns : List Nat) (key : Option (List Nat)) : Option (List Nat) :=
  let named := s.named x.c x.slice
  let same := fun (p : Nat) => (pregOf x.phys p).data == (pregOf (s.slice x.c x.slice).phys p).data
  key.filter (fun k => !s.twice x ns && keyLive k named && k.all (fun i => decide (i < 2 ^ 80 + 1) || same (i - 2 ^ 80)))

/-- A queued result that a reuse hit shares gives its flags to the sharing wave too (R275), and leaves the values `ds` that the names
held before in lanes whose threads end (R282, R444). -/
def State.share (s : State) (x : Iss) (ps ns : List Nat) (ds : List VReg) : State :=
  let mine := (ns.zip ds).map (fun e => (x.w, e.1, e.2))
  let s := s.modSlice x.c x.slice (fun k => { k with sfu := k.sfu.map (fun e =>
    if e.dest.regs.any (fun p => ps.contains p) then { e with sharers := e.sharers ++ [x.w], owns := mine ++ e.owns } else e) })
  s.modCore x.c (fun k => { k with eng := k.eng.map (fun e =>
    if e.dest.regs.any (fun p => ps.contains p) && sliceOf e.wave == x.slice then
      { e with sharers := e.sharers ++ [x.w], owns := mine ++ e.owns } else e) })

/-- Whether an acquire or a fence of the wave has yet to be performed: no load entry serves a load after it (R261). -/
def State.acquiring (s : State) (x : Iss) : Bool := (s.core x.c).ops.any (fun e => e.wave == x.w && (e.acq || e.kind == .fence))

/-- Threads that an access is made for. -/
def Op.threads (o : Op) (a : LaneAcc) : Mask := if o.once then o.active else laneBit a.lane

/-- The line of a global access, or the banks of a Bench access, in one numbering. -/
def Op.units (o : Op) (a : LaneAcc) : List Nat :=
  let words := (List.range (ceilDiv o.size 4))
  if o.remote then words.map (fun i => a.va.toNat / 2 ^ 24 % 256 * 32 + (a.va.toNat / 4 + i) % 32)
  else if isBench a.key then words.map (fun i => benchCore a.key * 32 + (a.key / 4 + i) % 32)
  else [2 ^ 20 + a.key / 256]

def OpKind.reads : OpKind → Bool
  | .load => true | .atomic => true | .cas128 => true | _ => false
def OpKind.writes : OpKind → Bool
  | .store => true | .atomic => true | .cas128 => true | _ => false
def OpKind.accesses (k : OpKind) : Bool := k.reads || k.writes

/-- Whether an earlier access of a thread to a line or bank that it has read for a load entry has not been performed: a later load of
the thread comes after it (R247, R248), so the entry does not serve it. -/
def State.behind (s : State) (x : Iss) (r : LoadRec) : Bool :=
  (s.core x.c).ops.any (fun e => e.wave == x.w && e.kind.accesses &&
    e.left.any (fun b => r.units.any (fun u => e.threads b &&& u.1 != 0 && (e.units b).contains u.2)))

/-- Whether a store or an atomic that comes first has not been performed: one of the wave to a line or span of a load entry, or one that
is ahead in a bank of its span (R226, R247). -/
def State.storesTo (s : State) (x : Iss) (r : LoadRec) : Bool :=
  (s.core x.c).ops.any (fun e => (e.wave == x.w || (e.bench && !r.global)) && e.kind.writes &&
    e.left.any (fun a => r.spans.contains (if r.global then lineOf a.key else a.key / 128 * 128)))

/-- Whether a load entry serves a load of the wave (R247, R248, R261, R279); any other entry may. -/
def State.serves (s : State) (x : Iss) (e : ReuseEntry) : Bool :=
  match e.load with
  | some r => nth r.gens (x.w % 16) 0 == (s.now x).fgen && !s.behind x r && !s.storesTo x r && !s.acquiring x
  | none => true

/-- Try to retire from the reuse table: `raise` is the flags the instruction can raise (R275). A name that the clock's other
bundle has written takes the merge of both results, offered to the directory once, out of results that are FULL (R280); a hit
on a PENDING result is a miss for either bundle that writes a name of the other. -/
def State.reuseHit (s : State) (x : Iss) (act : Mask) (key : List Nat) (ns : List Nat) (pred : Option Nat)
    (raise : Flags) : Option (Except Stop Fx) :=
  match s.reuseFind x.c x.slice x.ctx key with
  | none => none
  | some e =>
    let en := srEnable x.src.sr
    let s1 := (s.reuseTouch x.c x.slice e).modNow x (fun y => { y with rhit := y.rhit + 1 })
    if e.flags &&& en ≠ 0 || !s.serves x e then none
    else match e.result, pred with
      | .pred b, some n => some (match s1.putPred x act n b with
          | .error st => .error st
          | .ok s2 => .ok { s := s2, fl := fun _ => e.flags })
      | .regs ps, none =>
        let pend := ps.any (fun p => (pregOf (s.slice x.c x.slice).phys p).pending)
        if pend && (raise &&& en) != 0 then none
        else if ps.any (fun p => p != 0 && decide (1023 < s.countOf x.c x.slice p + (ps.filter (· == p)).length)) then none
        else if pend && (s.twice x ns || ns.any (s.twin.contains ·)) then none
        else if s.twice x ns then
            some (match s1.putVec x act ns (ps.map (fun p => (pregOf (s.slice x.c x.slice).phys p).data)) with
              | .error st => .error st
              | .ok s2 => .ok { s := s2, fl := fun _ => e.flags })
        else
          let (s1, ds) := if pend then s1.leftIn x ns else (s1, [])
          let s2 := ({ s1 with wrote := ns.map (fun n => (x.c, x.w, n)) ++ s1.wrote } : State).modNow x (fun y =>
            (ns.zip ps).foldl (fun y np => y.setReg np.1 np.2) y)
          let s2 := s2.sweep x.c x.slice
          some (.ok (if pend then { s := s2.share x ps ns ds } else { s := s2, fl := fun _ => e.flags }))
      | _, _ => none

/-! ### The combinator of the computing groups -/

/-- Registers of the operands of a form, 0 where it has none, and how they read. -/
structure Shape where
  a : Nat := 1
  b : Nat := 0
  c : Nat := 0
  d : Nat := 1
  /-- P positions (R94). -/
  pa : Bool := false
  pb : Bool := false
  pc : Bool := false
  fp : Bool := false
  dflt : DCls := .vec
  elig : Bool := true
  raise : Flags := 0
  deriving DecidableEq, Repr

/-- The sources of a shape. -/
def Shape.srcs (h : Shape) (o : Opnds) : List Opd :=
  (if h.a = 0 then [] else [{ fieldA o h.a with p := h.pa, fp := h.fp }]) ++
  (if h.b = 0 then [] else [{ fieldB o h.b with p := h.pb, fp := h.fp }]) ++
  (if h.c = 0 then [] else [{ fieldC o h.c with p := h.pc, fp := h.fp }])

/-- The vector destination as an operand field, for its name checks. -/
def dstOpd (o : Opnds) (n : Nat) : Opd := { pos := 3, cls := .vec, name := o.d.toNat, ep := false, n := n }

/-- A computation: the active lanes, the operand values by lane, and a lane give a result and flags. -/
abbrev LaneFn := Mask → (Nat → Nat) → (Nat → Nat) → (Nat → Nat) → Nat → Nat × Flags

/-- Vector value `i` of a per-lane result. -/
def resultReg (f : Nat → Nat) (i : Nat) : VReg := vbuild (fun l => BitVec.ofNat 32 (f l / 2 ^ (32 * i)))

/-- The operand values in the order A, B, C of the sources that the shape has. -/
def Shape.pick (h : Shape) (vs : List Src) : (Nat → Nat) × (Nat → Nat) × (Nat → Nat) :=
  let a := if h.a = 0 then Src.none else nth vs 0 Src.none
  let rest := if h.a = 0 then vs else vs.drop 1
  let b := if h.b = 0 then Src.none else nth rest 0 Src.none
  let rest := if h.b = 0 then rest else rest.drop 1
  let c := if h.c = 0 then Src.none else nth rest 0 Src.none
  (a.nat, b.nat, c.nat)

/-- Write a computed result to its destination and make its reuse entry (R95, R276). A name that both bundles of a
clock write is offered to the directory once, and makes no entry (R280). -/
def State.putResult (s : State) (x : Iss) (act : Mask) (o : Opnds) (h : Shape) (key : Option (List Nat)) (ns : List Nat)
    (r : Nat → Nat × Flags) : Except Stop Fx :=
  let cls := dclsOf o h.dflt
  let fl := fun l => (r l).2
  let flags := flagsOf act fl
  let ok := flags &&& srEnable x.src.sr = 0
  let entry := fun (s1 : State) (res : ReuseResult) => match s.entryKey x (if cls = .vec then ns else []) key with
    | some k => if ok then s1.reuseAdd x.c x.slice { key := k, ctx := x.ctx, result := res, flags := flags } else s1
    | none => s1
  match cls with
  | .vec =>
    match s.putVec x act ns ((List.range h.d).map (fun i => resultReg (fun l => (r l).1) i)) with
    | .error e => .error e
    | .ok s2 => .ok { s := entry s2 (.regs (ns.map (s2.now x).reg)), fl := fl }
  | .pred =>
    let bits := maskOf (fun l => act.getLsbD l && (r l).1 != 0)
    match s.putPred x act o.d.toNat bits with
    | .error e => .error e
    | .ok s => .ok { s := entry s (.pred bits), fl := fl }
  | .sca =>
    let l0 := (lowest act).getD 0
    match s.putScalar x act o.d.toNat (wordsOf h.d (r l0).1) with
    | .error e => .error e
    | .ok s => .ok { s := s, fl := fun _ => (r l0).2, once := true }
  | .none => .ok { s := s, fl := fl }

/-- A check of the operand values that comes before any effect (R120). -/
abbrev OperandCheck := Iss → Mask → (Nat → Nat) → (Nat → Nat) → (Nat → Nat) → Option Stop

/-- No check. -/
def noCheck : OperandCheck := fun _ _ _ _ _ => none

/-- The body of a computing instruction (R94-R97, R275). -/
def aluBody (o : Opnds) (op : Iss → List Nat) (h : Shape) (chk : OperandCheck) (f : Iss → LaneFn) (s : State) (x : Iss)
    (act : Mask) : Except Stop Fx :=
  let cls := dclsOf o h.dflt
  let dst := if cls = .vec then [dstOpd o h.d] else []
  match x.namesOk act (h.srcs o ++ dst) with
  | .error e => .error e
  | .ok _ => match s.readOpds x act o (h.srcs o) with
    | .error e => .error e
    | .ok vs => match (if cls = .vec then x.names act 3 o.d.toNat h.d else .ok []) with
      | .error e => .error e
      | .ok ns =>
        let v := h.pick vs
        match chk x act v.1 v.2.1 v.2.2 with
        | some e => .error e
        | none =>
          let r := f x act v.1 v.2.1 v.2.2
          let pred := if cls = .pred then some o.d.toNat else none
          let elig := h.elig && (cls == .vec || cls == .pred) && !vs.any (·.dyn)
          if elig then
            let key := reuseKey x act (op x) vs pred ns
            match s.reuseHit x act key ns pred h.raise with
            | some r => r
            | none => s.putResult x act o h (some key) ns r
          else s.putResult x act o h none ns r

/-- A computing instruction (R94-R97). -/
def alu (s : State) (o : Opnds) (op : Iss → List Nat) (h : Shape) (f : Iss → LaneFn) : Host.Outcome State Fault Refusal :=
  simt s o false noPre (aluBody o op h noCheck f) h.dflt

/-- The operation items of a key without a rounding mode (R274). -/
def opItems (i : Instr) : Iss → List Nat := fun _ =>
  match simtParts i with
  | some (maj, minor, m, o) => [maj, minor, m.toNat, if o.ext.isSome then o.xm.toNat else 2 ^ 16]
  | none => []

/-- The operation items with the effective rounding mode in place of `.RDYN` (R274). -/
def opItemsRm (i : Instr) (r : Rm) : Iss → List Nat := fun x =>
  match simtParts i with
  | some (maj, minor, m, o) => [maj, minor, m.toNat / 8 * 8 + (rmEff x.src.sr r).code.toNat,
      if o.ext.isSome then o.xm.toNat else 2 ^ 16]
  | none => []

/-- A lane-wise computation of two words and flags that never arise. -/
def laneFn (f : Word → Word → Word → Word) : Iss → LaneFn := fun _ _ a b c l =>
  ((f (BitVec.ofNat 32 (a l)) (BitVec.ofNat 32 (b l)) (BitVec.ofNat 32 (c l))).toNat, 0)

end Sys2Proof.Machine
end

