-- ==== Sys2Proof/Machine/Conv.lean ====
section
/-! DEFINITION. Conversions (R117-R121): the effective formats of a CONV instruction, one element (shared with the
Jig's `JCVT`), grouped codes, and the meanings of CVT, PACKQ and UNPQ. -/
namespace Sys2Proof.Machine

/-! ### The pending prefix (R61, R62) -/

/-- Fields of a prefix word. -/
def pfxA (p : DWord) : Nat := (p.extractLsb' 48 4).toNat
def pfxB (p : DWord) : Nat := (p.extractLsb' 44 4).toNat
def pfxC (p : DWord) : Nat := (p.extractLsb' 40 4).toNat
def pfxD (p : DWord) : Nat := (p.extractLsb' 36 4).toNat
def pfxGs (p : DWord) : Nat := (p.extractLsb' 34 2).toNat
/-- The prefix of a bundle; the zero word asks for nothing when none is pending. -/
def Iss.pfx (x : Iss) : DWord := if srPP x.src.sr then x.src.pfx else 0
/-- Elements of a group-size code (R61). -/
def groupSize : Nat → Nat
  | 1 => 32 | 2 => 64 | 3 => 128 | _ => 0

/-! ### One element (R118) -/

/-- Whether `CVT` accepts a format code. -/
def cvtFmt (c : Nat) : Bool := (fmtOfCode c).isSome || (intOfCode c).isSome

/-- Convert an element between two formats. -/
def convElem (src dst : Nat) (m : Rm) (sat : Bool) (b : Nat) : Nat × Flags :=
  match fmtOfCode src, intOfCode src, fmtOfCode dst, intOfCode dst with
  | some f, _, some g, _ => roundTo g m (value f b) sat
  | some f, _, none, some (w, sg) => toInt w sg m (value f b)
  | none, some (w, sg), some g, _ => roundTo g m (ofInt (intOf b w sg)) sat
  | none, some (w, sg), none, some (v, sv) =>
    let n := intOf b w sg
    (truncInt (if sat && decide (v < w) then satInt n v sv else n) v, 0)
  | _, _, _, _ => (0, 0)

/-- Elements that one `CVT` converts a lane (R118). -/
def convCount (wa wd : Nat) : Nat := if 32 < max wa wd then 1 else 32 / max wa wd

/-- The `PART` values that a conversion accepts, as a bound. -/
def convParts (wa wd : Nat) : Nat := if 32 ≤ min wa wd then 1 else 32 / min wa wd / convCount wa wd

/-- `CVT` of a lane: `a` the source, `c` the elements kept when narrowing. -/
def convLane (src dst : Nat) (m : Rm) (sat : Bool) (part a c : Nat) : Nat × Flags :=
  let wa := codeWidth src
  let wd := codeWidth dst
  let n := convCount wa wd
  let elem := fun (k : Nat) => convElem src dst m sat (elemNat a (if wa ≤ wd then n * part + k else k) wa)
  let fl := (List.range n).foldl (fun f k => f ||| (elem k).2) (0 : Flags)
  if wa ≤ wd then (packElems wd (fun k => (elem k).1) n, fl)
  else
    (packElems wd (fun i => if n * part ≤ i ∧ i < n * part + n then (elem (i - n * part)).1 else elemNat c i wd) (32 / wd), fl)

/-! ### Effective formats (R117) -/

def convSrc (x : Iss) (o : Opnds) : Nat := if pfxA x.pfx ≠ 0 then pfxA x.pfx else (o.xm.extractLsb' 12 4).toNat
def convDst (x : Iss) (o : Opnds) : Nat := if pfxD x.pfx ≠ 0 then pfxD x.pfx else (o.xm.extractLsb' 8 4).toNat
/-- The source of a CONV word as it reads an immediate: a 16-bit float takes its bits [15:0] (R52; log entry 109). -/
def convImm (x : Iss) (o : Opnds) (a : Nat) : Nat :=
  if o.ca = .imm ∧ (convSrc x o = 2 ∨ convSrc x o = 3) then a % 2 ^ 16 else a
/-- The effective rounding mode of a CONV word. -/
def convMode (x : Iss) (o : Opnds) : Rm := rmEff x.src.sr ((Rm.ofCode (o.xm.extractLsb' 5 3)).getD .rne)
def convPart (o : Opnds) : Nat := (o.xm.extractLsb' 0 2).toNat
/-- A prefix with a field that CONV has no use for. -/
def convPfxBad (x : Iss) : Bool := pfxB x.pfx != 0 || pfxC x.pfx != 0 || pfxGs x.pfx != 0

/-- An operand that the effective formats make a run of `n` registers. -/
def runOk (cls : Cls) (name : BitVec 11) (n : Nat) : Bool :=
  match cls with
  | .vec => name.toNat % n == 0
  | .sca => decide (name.toNat < 128) && name.toNat % n == 0
  | _ => true

/-- `PART` out of range for effective formats that `CVT` accepts: ILLEGAL_FUNCTION (R118). -/
def cvtPartBad (x : Iss) (o : Opnds) : Bool :=
  cvtFmt (convSrc x o) && cvtFmt (convDst x o) &&
    decide (convParts (codeWidth (convSrc x o)) (codeWidth (convDst x o)) ≤ convPart o)

/-- The traps of `CVT` before the guard (R117, R118). -/
def cvtPre (o : Opnds) (x : Iss) : Option Stop :=
  let wa := codeWidth (convSrc x o)
  let wd := codeWidth (convDst x o)
  if cvtPartBad x o then some (x.pre .illegalFunction x.base 0)
  else if convPfxBad x || !cvtFmt (convSrc x o) || !cvtFmt (convDst x o) then some (x.pre .illegalOperand x.base 0)
  else if wa = 64 ∧ !runOk o.ca o.a 2 then some (x.pre .illegalOperand x.base 0)
  else if wa ≤ wd ∧ o.cc ≠ .none then some (x.pre .illegalOperand x.base 2)
  else if wd = 64 ∧ o.d.toNat % 2 ≠ 0 then some (x.pre .illegalOperand x.base 3)
  else none

/-- Key items of a CONV instruction: the effective mode stands in its place in `XM` (R274). -/
def convItems (minor : Nat) (o : Opnds) : Iss → List Nat := fun x =>
  [11, minor, 0, (o.xm.toNat / 256) * 256 + (convMode x o).code.toNat * 32 + o.xm.toNat % 32]

def execCvt (o : Opnds) (s : State) : Host.Outcome State Fault Refusal :=
  simt s o true (cvtPre o) (fun s x act =>
    let src := convSrc x o
    let dst := convDst x o
    let pair := fun (c : Nat) => if codeWidth c = 64 then 2 else 1
    let h : Shape := { a := pair src, c := if o.cc = .none then 0 else 1, d := pair dst, fp := src == 13 }
    let lane : Iss → LaneFn := fun x _ a _ c l =>
      convLane src dst (convMode x o) (o.xm.getLsbD 4) (convPart o) (convImm x o (a l)) (if o.cc = .none then 0 else c l)
    aluBody o (convItems 0 o) h noCheck lane s x act)

/-! ### Grouped codes (R119-R121) -/

/-- Codes in a lane of a grouped format. -/
def codesOf (c : Nat) : Nat := if c = 10 then 4 else 8
def isGrouped (c : Nat) : Bool := c == 10 || c == 11
def isHalf (c : Nat) : Bool := c == 2 || c == 3

/-- The active lanes of the groups that R120 rejects; `per` lanes a group. -/
def badGroups (per qmax : Nat) (act : Mask) (sc z : Nat → Nat) : Mask :=
  let group := fun (l : Nat) => (lanesOf act).filter (fun k => k / per == l / per)
  let wrong := fun (k : Nat) => decide (qmax < z k) ||
    (match value .f16 (sc k % 2 ^ 16) with | .num _ n _ => n == 0 | _ => true)
  maskOf (fun l => act.getLsbD l &&
    (group l).any (fun k => wrong k || (group l).any (fun j => sc j % 2 ^ 16 != sc k % 2 ^ 16 || z j != z k)))

/-- QUANT_GROUP of `n` codes a lane (R120); with group size 0 each lane is its own group. -/
def groupCheck (o : Opnds) (n : Nat) : OperandCheck := fun x act _ b c =>
  let g := groupSize (o.xm.extractLsb' 2 2).toNat
  let bad := badGroups (if g = 0 then 1 else g / n) (2 ^ (32 / n) - 1) act b c
  if bad = 0 then none
  else some (.trap { cause := .quantGroup, cls := clsW, mask := bad, pc := x.pc, bundle := x.lanes, again := act })

/-- x / s exactly. -/
def divExact (x s : FVal) : FVal :=
  match x, s with
  | .num a n d, .num b m e => .num (a != b) (n * e) (d * m)
  | v, _ => v

/-- One code of `PACKQ` (R119). -/
def packCode (src : Fmt) (m : Rm) (qmax : Nat) (b sc z : Nat) : Nat × Flags :=
  match value src b with
  | .nan _ _ _ _ => (z, fIV)
  | .inf neg => (if neg then 0 else qmax, fIV)
  | .num neg n d =>
    match divExact (.num neg n d) (value .f16 sc) with
    | .num g p q =>
      let t := rndInt m g p q + (z : Int)
      ((max 0 (min t qmax)).toNat, if p % q = 0 then 0 else fIX)
    | _ => (z, 0)

/-- `PACKQ` of a lane. -/
def packLane (src dst : Nat) (m : Rm) (a sc z : Nat) : Nat × Flags :=
  let n := codesOf dst
  let w := 32 / n
  let e := fun (i : Nat) => packCode ((fmtOfCode src).getD .f16) m (2 ^ w - 1) (elemNat a i 16) (sc % 2 ^ 16) z
  (packElems w (fun i => (e i).1) n, (List.range n).foldl (fun f i => f ||| (e i).2) (0 : Flags))

/-- `grp_value` (R73): a code equal to its zero point is +0; the product with an infinite or NaN scale has the flags of
R79. -/
def grpValue (q sc z : Nat) : FVal × Flags :=
  let k := (q : Int) - z
  match value .f16 sc with
  | .num s n d => (if k = 0 then .num false 0 1 else .num (s != decide (k < 0)) (n * k.natAbs) d, 0)
  | v => mulExact v (ofInt k)

/-- `UNPQ` of a lane (R121). -/
def unpackLane (src dst : Nat) (m : Rm) (a sc z : Nat) : Nat × Flags :=
  let n := codesOf src
  let e := fun (i : Nat) =>
    let v := grpValue (elemNat a i (32 / n)) (sc % 2 ^ 16) z
    let r := roundTo ((fmtOfCode dst).getD .f16) m v.1
    (r.1, r.2 ||| v.2)
  (packElems 16 (fun i => (e i).1) n, (List.range n).foldl (fun f i => f ||| (e i).2) (0 : Flags))

/-- The traps of `PACKQ` and `UNPQ` before the guard (R117, R119, R121): `half` the 16-bit side, `grp` the grouped
side, `run` the name of the run and its position. -/
def grpPre (x : Iss) (half grp : Nat) (run : BitVec 11) (pos : Nat) : Option Stop :=
  if convPfxBad x || !isHalf half || !isGrouped grp then some (x.pre .illegalOperand x.base 0)
  else if run.toNat % (codesOf grp / 2) ≠ 0 then some (x.pre .illegalOperand x.base pos)
  else none

def execPackq (o : Opnds) (s : State) : Host.Outcome State Fault Refusal :=
  simt s o true (fun x => grpPre x (convSrc x o) (convDst x o) o.a 0) (fun s x act =>
    let n := codesOf (convDst x o)
    let lane : Iss → LaneFn := fun x _ a b c l => packLane (convSrc x o) (convDst x o) (convMode x o) (a l) (b l) (c l)
    aluBody o (convItems 1 o) { a := n / 2, b := 1, c := 1 } (groupCheck o n) lane s x act)

def execUnpq (o : Opnds) (s : State) : Host.Outcome State Fault Refusal :=
  simt s o true (fun x => grpPre x (convDst x o) (convSrc x o) o.d 3) (fun s x act =>
    let n := codesOf (convSrc x o)
    let lane : Iss → LaneFn := fun x _ a b c l => unpackLane (convSrc x o) (convDst x o) (convMode x o) (a l) (b l) (c l)
    aluBody o (convItems 2 o) { b := 1, c := 1, d := n / 2 } (groupCheck o n) lane s x act)

end Sys2Proof.Machine
end

