-- ==== Sys2Proof/Machine/Issue.lean ====
section
/-! DEFINITION. From a turn of the schedule to an instruction: time (R20), partitions (R326), instruction fetch (R14,
R352, R60), which bundles may issue (R327), the choice of a wave and its bundles (R328, R329, R380), the ends of waits
(R370) and the mailboxes at the end of a clock (R394). -/
namespace Sys2Proof.Machine

/-! ### Bundles (R326) -/

/-- Threads that wait inside an instruction (R370). -/
def Wave.waiting (x : Wave) : Mask := x.waits.foldl (fun m v => m ||| v.lanes) 0

/-- The masks of the distinct program counters of some lanes, lowest lane first. -/
def Wave.byPc (x : Wave) (m : Mask) : List Mask :=
  let ls := lanesOf m
  let heads := ls.filter (fun l => (ls.find? (fun k => nth x.pcs k 0 == nth x.pcs l 0)) == some l)
  heads.map (fun h => maskOf (fun l => m.getLsbD l && nth x.pcs l 0 == nth x.pcs h 0))

/-- A bundle whose threads have gone to several addresses splits at once; ended threads leave. -/
def Wave.splitBundles (x : Wave) : Wave := { x with bundles := x.bundles.flatMap (fun b => x.byPc (b &&& x.live)) }

/-- Whether a bundle waits at an instruction that its last turn could not issue. -/
def Wave.isStuck (x : Wave) (b : Mask) : Bool :=
  x.stuck.any (fun e => e.1 &&& x.live == b && (lanesOf b).all (fun l => nth x.pcs l 0 == e.2))

/-- What a bundle's turn leaves: it waits at its instruction, or does so no more (R326; log entry 82). -/
def Wave.sticks (x : Wave) (b : Mask) (pc : DWord) (blocked : Bool) : Wave :=
  { x with stuck := (if blocked then [(b, pc)] else []) ++ x.stuck.filter (fun e => e.1 &&& b == 0) }

/-- A partition: waiting bundles stay whole, and the threads of a handler and of a prefix stay apart from the others. -/
def Wave.partition (x : Wave) : Wave :=
  let w := x.waiting &&& x.live
  let h := if srH x.sr then x.handler else 0
  let p := if srPP x.sr then x.pfxMask else 0
  let keep := (x.bundles.map (fun b => b &&& x.live)).filter (fun b => b != 0 && (b &&& ~~~w == 0 || x.isStuck b))
  let free := x.live &&& ~~~(keep.foldl (fun m b => m ||| b) 0)
  { x with bundles := keep ++ [h &&& p, h &&& ~~~p, ~~~h &&& p, ~~~h &&& ~~~p].flatMap (fun m => x.byPc (free &&& m)) }

/-- Insert by an order. -/
def insertBy {α : Type} (le : α → α → Bool) (a : α) : List α → List α
  | [] => [a]
  | b :: r => if le a b then a :: b :: r else b :: insertBy le a r
def sortBy {α : Type} (le : α → α → Bool) (l : List α) : List α := l.foldr (insertBy le) []

/-- Refused deposits whose 64 clocks have passed since `was` leave their cores again, those due first before the others (R8, R393). -/
def State.leaveAgain (s was : State) : State :=
  let due := s.deposits.filter (fun d => d.refused && decide (d.retryAt ≤ s.clkOf d.srcCore) && !decide (d.retryAt ≤ was.clkOf d.srcCore))
  (sortBy (fun (a b : Deposit) => decide (a.retryAt < b.retryAt) || (a.retryAt == b.retryAt && decide (a.seq ≤ b.seq))) due).foldl
    (fun s d =>
      let (n, s) := s.newId
      { s with deposits := s.deposits.map (fun e => if e.id = d.id then { e with seq := n } else e) }) s

/-- Time passes before a turn (R20, R475); a core whose `CLK` passes a multiple of 4 partitions its waves (R326). -/
def State.advance (s : State) (ns clocks lost : Nat) : State :=
  let old := s.clocks
  let stretched := fun (c : Nat) => s.droop.contains (c / 64 * 4 + c % 16 / 4)
  let was := s
  let s := { s with time := s.time + ns, clocks := s.clocks + clocks }
  let s := { s with cores := s.cores.map (fun (e : Nat × Core) =>
      let lag := if stretched e.1 then e.2.lag + min lost (clocks / 2) else e.2.lag
      let k := { e.2 with lag := lag }
      (e.1, if (old - e.2.lag) / 4 = (s.clocks - lag) / 4 then k
        else { k with waves := k.waves.map (fun (v : Nat × Wave) => (v.1, v.2.partition)) })) }
  s.leaveAgain was

/-! ### Instruction fetch (R14, R60, R352, R411) -/

/-- What reading one word of code comes to. -/
inductive Fetched where
  | word (w : DWord)
  | miss
  /-- `far`: the partner's side answered with it (R422). -/
  | fault (c : Cause) (far : Bool := false)
  deriving DecidableEq, Repr

/-- Read a word through the instruction cache of a wave's 2x2 group. A miss counts one slip and waits for its line, which comes
from its home (R14, R352); a line that cannot be read comes back as the fault that the fetch then takes (R60, R422). The host link or a
channel may hold the translation or the check of a sealed page (R453, R474). -/
def State.fetchWord (s : State) (c w ctx : Nat) (va : DWord) : State × Fetched :=
  if s.transWaits (.group c) ctx va then (s, .miss)
  else match s.place (.group c) ctx va .fetch with
  | (s, .error (_, e)) => (s, .fault e)
  | (s, .ok p) =>
    let l := lineOf p.key
    let g := groupOf c
    if p.sealed && s.sealWaits ctx va.toNat p.key then (s, .miss) else
    let (s, ok) := if p.sealed then s.sealOk ctx va.toNat p.key else (s, true)
    if !ok then (s, .fault .integrity)
    else match FMap.get (FMap.getD s.icache g []) l, (s.wave c w).ifault.find? (·.1 == l) with
    | some bs, _ => (s, .word (BitVec.ofNat 64 (leWord ((bs.drop (p.key - l)).take 8))))
    | none, some e => (s.modWave c w (fun x => { x with ifault := x.ifault.filter (·.1 != l) }), .fault e.2.1 e.2.2)
    | none, none =>
      if s.imiss.any (fun m => m.1 == g && m.2.1 == l && m.2.2.1 == c && m.2.2.2.1 == w) then (s, .miss)
      else
        let s := { s with imiss := s.imiss ++ [(g, l, c, w, p.cpol)] }
        let s := s.modCore c (fun k => { k with slips := k.slips + 1 })
        (s.traceWave c w 4 (leBytes 8 (va.toNat / 256 * 256)), .miss)

/-- What a fetch of a context finds at the home of a line, when it finds no bytes: the partner's side may refuse it (R422). -/
def State.lineFault (s : State) (ctx l : Nat) : Option (Cause × Bool) :=
  match s.atHome ctx l with
  | some (.fault e far) => some (e, far)
  | _ => if (s.homeRead l 256).isNone then some (.uncorrectable, false) else none

/-- A line of code arrives for a group, for every wave that waits for it, through L2 by the policy of its page (R232, R352; of a hint,
log entry 68); the group keeps 1,024 lines (R12). A line that cannot be read comes back as a fault. -/
def State.fillCode (s : State) (g l : Nat) : State :=
  if s.missWait l 256 || s.homeHeld l then s
  else
  let mine := s.imiss.filter (fun m => m.1 == g && m.2.1 == l)
  let s := { s with imiss := s.imiss.filter (fun m => !(m.1 == g && m.2.1 == l)) }
  let bad := fun (m : Nat × Nat × Nat × Nat × Nat) => s.lineFault (s.ctxOf (s.wave m.2.2.1 m.2.2.2.1)) l
  let t := mine.foldl (fun t m => match bad m with
    | some e => t.modWave m.2.2.1 m.2.2.2.1 (fun x => { x with ifault := (l, e) :: x.ifault.filter (·.1 != l) })
    | none => t) s
  match mine.any (fun m => (bad m).isSome), s.homeRead l 256 with
  | false, some bs =>
    let m := FMap.erase (FMap.getD s.icache g []) l
    let t := { t with icache := FMap.set s.icache g (FMap.set (if m.length < 1024 then m else m.drop 1) l bs) }
    t.l2Use l 256 ((mine.head?.map (·.2.2.2.2)).getD 0)
  | _, _ => t

/-- What fetching an instruction comes to: the instruction with its base word and length, or a fault at an address. -/
inductive FetchedInstr where
  | instr (i : Instr) (base : DWord) (len : Nat)
  | miss
  | fault (c : Cause) (va : DWord) (far : Bool := false)
  deriving DecidableEq, Repr

/-- Fetch and decode the instruction at an address (R47, R53, R60). -/
def State.fetchInstr (s : State) (c w ctx : Nat) (pc : DWord) : State × FetchedInstr :=
  match s.fetchWord c w ctx pc with
  | (s, .miss) => (s, .miss)
  | (s, .fault e far) => (s, .fault e pc far)
  | (s, .word b) =>
    if hasExt b then
      match s.fetchWord c w ctx (pc + 8) with
      | (s, .miss) => (s, .miss)
      | (s, .fault e far) => (s, .fault e (pc + 8) far)
      | (s, .word x) => (s, .instr (decodeSimt b x) b 16)
    else (s, .instr (decodeSimt b 0) b 8)

/-- Bytes of the instruction at an address as `ERET` reads its base word through the wave's fetch: 8 when that read faults, as it does at
an address that is no multiple of 8, and `none` when it misses (R14, R435 step 2). -/
def State.lenThere (s : State) (c w ctx : Nat) (pc : DWord) : State × Option Nat :=
  if pc.toNat % 8 ≠ 0 then (s, some 8)
  else match s.fetchWord c w ctx pc with
  | (s, .word b) => (s, some (if hasExt b then 16 else 8))
  | (s, .fault _ _) => (s, some 8)
  | (s, .miss) => (s, none)

/-! ### Waits that end (R370) -/

/-- The bundle of a wait as an issuing bundle. -/
def Wait.iss (v : Wait) (s : State) (c w : Nat) : Iss :=
  { c := c, w := w, lanes := v.lanes, pc := v.pc, len := v.len, base := 0, second := false, src := s.wave c w,
    phys := (s.slice c (sliceOf w)).phys, ctx := s.ctxOf (s.wave c w), clk := v.clk }

/-- Operand fields that name nothing. -/
def noOpnds : Opnds :=
  { prd := 63, pn := false, d := 0, a := 0, b := 0, ea := false, eb := false, ca := .none, cb := .none, ext := none }

/-- A wait ends with an effect: its instruction retires. -/
def State.endWaitWith (c w : Nat) (v : Wait) (fx : Fx) : State :=
  let s := fx.s.dropWait c w v
  let s := v.takes.foldl (fun s n => s.takeBox c w n (nth (s.wave c w).mbox n {})) s
  s.retire (v.iss s c w) v.active noOpnds false { fx with s := s }

/-- A wait ends: its instruction retires. -/
def State.endWait (s : State) (c w : Nat) (v : Wait) : State := State.endWaitWith c w v { s := s }

/-- A wait ends in a trap of its instruction, with what its fault record says. -/
def State.trapWait (s : State) (c w : Nat) (v : Wait) (e : Cause) (addr : DWord) (post : Option (Nat × Nat) := none)
    (unheld : Bool := true) : State :=
  let s := s.dropWait c w v
  let x := v.iss s c w
  match x.trap v.active e addr with
  | .trap t => s.trapNow x { t with post := post, unheld := unheld }
  | _ => s

/-! ### Mailboxes at the end of a clock (R394, R447) -/

/-- Bundles asleep wake when a mailbox of their wave becomes full (R447). -/
def State.wakeSleepers (s : State) (c w : Nat) : State :=
  ((s.wave c w).waits.filter (fun v => match v.kind with | .sleep _ => true | _ => false)).foldl
    (fun s v => s.endWait c w v) s

/-- Oldest deposit held for a mailbox of a wave (R393). -/
def State.heldFor (s : State) (c w n : Nat) : Option Deposit :=
  let x := s.wave c w
  s.deposits.find? (fun d => d.held && sendCore d.target == c && sendSlot d.target == s.slotOn c x.team &&
    sendWave d.target == x.index && sendBox d.target == n)

/-- A deposit enters a mailbox (R393, R394 step 4). -/
def State.enterBox (s : State) (c w n : Nat) (d : Deposit) : State :=
  let s := s.modWave c w (fun x => { x with mbox := setNth x.mbox n { val := d.value, full := true, from_ := some d.scope }, boxClk := some (s.clkOf c) })
  (s.depositStatus d.id 0).wakeSleepers c w

/-- Steps 4 and 5 of R394 for every mailbox of a wave; sleepers that a local write woke go on. -/
def State.settleBoxes (s : State) (c w : Nat) : State :=
  let s := s.modWave c w (fun x => { x with boxWrote := [] })
  let s := if (s.wave c w).waits.any (fun v => v.kind == .sleep 0) then s.wakeSleepers c w else s
  if (s.wave? c w).isNone then s
  else (List.range 8).foldl (fun s n =>
    if (nth (s.wave c w).mbox n {}).full then s
    else match s.heldFor c w n with
      | some d => s.enterBox c w n d
      | none => s) s

/-! ### Which bundles may issue (R62, R327, R414, R455) -/

/-- Operations after which the wave issues nothing until they complete (R124, R155, R290, R304, R309). -/
def State.holdsIssue (s : State) (c w : Nat) : Bool :=
  (s.wave c w).waits.any (fun v => match v.kind with | .copy _ _ _ => true | _ => false) ||
  (s.core c).ops.any (fun o => o.wave == w && o.hold) ||
  ((s.slice c (sliceOf w)).sfu).any (fun e => e.wave == w && e.hold) ||
  (s.core c).eng.any (fun e => e.wave == w && e.hold)

/-- Whether a slice of the core from number `k` on has issued in this clock. -/
def State.slicesFrom (s : State) (c k : Nat) : Bool :=
  (s.core c).slices.any (fun (e : Nat × Slice) => decide (k ≤ e.1) && e.2.issued.any (fun i => i.clock == s.clkOf c))

/-- Whether a decoder of a bundle's slice is free for it in this clock: one wave a clock, its first bundle, and then one with
other threads that lies no lower (R13, R97); and no higher slice of the core has issued before it in the clock (R15,
R357, R360), nor has a deposit of the clock entered a mailbox of its wave, whose local reads and writes come first (R394). -/
def State.decoder (s : State) (c w : Nat) (b : Mask) (pc : DWord) (second : Bool) : Bool :=
  !s.slicesFrom c (sliceOf w + 1) && !(s.wave c w).boxNow (s.clkOf c) &&
  match (s.slice c (sliceOf w)).issued with
  | some i =>
    if second then i.clock == s.clkOf c && i.wave == w && !i.both && i.lanes &&& b == 0 && decide (i.pc.toNat ≤ pc.toNat)
    else i.clock != s.clkOf c
  | none => !second

/-- The decoder that a bundle has issued on is taken for the clock. -/
def State.tookDecoder (s : State) (u : Cur) : State :=
  s.modSlice u.core (sliceOf u.wave) (fun k => { k with
    issued := match k.issued with
      | some i => if u.second then some { i with both := true }
        else some { clock := s.clkOf u.core, wave := u.wave, lanes := u.lanes, pc := u.pc }
      | none => some { clock := s.clkOf u.core, wave := u.wave, lanes := u.lanes, pc := u.pc } })

/-- Whether a bundle of a wave may issue its next instruction. What the clock's first bundle did holds its second one back no
more (R434): `x` is then the wave from before it. -/
def State.mayIssue (s : State) (c w : Nat) (x : Wave) (b : Mask) (second : Bool := false) : Bool :=
  b != 0 && x.bundles.contains b && b &&& x.ended == 0 && b &&& x.waiting == 0 && x.dbg.isNone && x.drainStop.isNone && x.replayHeld.isEmpty && !x.saving &&
  (x.stepDbg == 0 || (!second && b &&& x.stepDbg != 0 && x.waiting &&& x.stepDbg == 0)) &&
  !(s.imiss.any (fun m => m.2.2.1 == c && m.2.2.2.1 == w)) && (second || !s.holdsIssue c w) &&
  (!srH x.sr || b &&& ~~~x.handler == 0) && (!srPP x.sr || b == x.pfxBundle)

/-! ### Asynchronous traps (R436) -/

/-- Abandon every wait of a wave that can be abandoned. -/
def State.abandonAll (s : State) (c w : Nat) : State :=
  ((s.wave c w).waits.filter (fun v => !v.stays)).foldl (fun s v => s.abandon c w v) s

/-- Waits at the barriers of teams and launches. -/
def Wait.atBarrier (v : Wait) : Bool :=
  match v.kind with | .bar _ => true | .tbar => true | .gbar _ => true | _ => false

/-- Abandon the waits of a wave that is saved, all but its barrier arrivals, which are kept (R381, R392, R438). -/
def State.abandonSaved (s : State) (c w : Nat) : State :=
  ((s.wave c w).waits.filter (fun v => !v.stays && !v.atBarrier)).foldl (fun s v => s.abandon c w v) s

/-- Deliver the oldest asynchronous trap at a boundary (R436), which a wave whose fault the host holds is not at. In handler
mode it is unhandled (R433). A wave that R124 or R155 holds for a queued result is at a boundary: the model's choice (log entry 103). -/
def State.deliverAsync (s : State) (c w : Nat) : State :=
  let x := s.wave c w
  match x.async with
  | [] => s
  | t :: r =>
    if x.atBoundary && x.dbg.isNone && x.replayHeld.isEmpty then
      let s := s.modWave c w (fun y => { y with async := r })
      let s := s.abandonAll c w
      s.deliver c w { t with bundle := (s.wave c w).live, mask := t.mask }
    else s

/-! ### Debug stops that end (R455) -/

/-- A stopped wave goes on: a wait whose threads get another address is left, bundles whose threads have gone apart split (R460),
and the time of the stop does not count for its time-outs (R455). -/
def State.resumeWave (s : State) (c w : Nat) : State :=
  match (s.wave c w).dbg with
  | none => s
  | some d =>
    let n := s.time - d.since
    let late := fun (v : Wait) => match v.kind with
      | .cqpop q k (some u) ns p t => { v with kind := .cqpop q k (some (u + n)) ns p t }
      | _ => v
    let shift := fun (as : List Arrival) (came : FMap Nat) => as.map (fun (a : Arrival) => if a.core = c ∧ a.wave = w then
        { a with paused := a.paused + (s.time - max d.since (FMap.getD came c s.time)) } else a)
    let x := s.wave c w
    let l := (s.team x.team).launch
    let goes := fun (v : Wait) => !srH x.sr && (lanesOf (v.lanes &&& x.live)).any (fun l => nth x.resume l 0 != v.pc)
    let s := (x.waits.filter goes).foldl (fun s v => if v.stays then s.dropWait c w v else s.abandon c w v) s
    (s.modWave c w (fun x => { x.resumeStopped.splitBundles with waits := x.waits.map late })).modLaunch l (fun L => { L with
      stopped := false, tbar := shift L.tbar L.tcame, gbar := shift L.gbar L.gcame })

/-! ### The turn of a bundle -/

/-- What a bundle's turn comes to before its instruction executes. -/
inductive Prep where
  /-- The bundle may not issue. -/
  | idle
  /-- Its instruction is not in the cache. -/
  | miss (s : State)
  /-- A trap or a stop takes the place of an instruction. -/
  | done (s : State)
  /-- The instruction executes. -/
  | run (s : State) (i : Instr)

/-- A fetch fault of a bundle traps before the guard, unless the host holds it (R60, R414). -/
def State.fetchFault (s : State) (x : Iss) (e : Cause) (va : DWord) (far : Bool) : State :=
  match x.pre e va 0 with
  | .trap t => s.trapNow x { t with post := some (4, 3), unheld := far }
  | _ => s

/-- Prepare the turn of bundle `b` of wave `w`: asynchronous traps first (R436), then alignment, breakpoint and fetch
(R60, R456). -/
def State.prepare (s : State) (c w : Nat) (b : Mask) (second : Bool) : Prep :=
  match s.wave? c w with
  | none => .idle
  | some y =>
    let x := if second then (s.snap.map (·.1)).getD y else y
    let pc := nth x.pcs ((lowest b).getD 0) 0
    if !(s.decoder c w b pc second && s.mayIssue c w x b second) then .idle
    else if !second && !x.async.isEmpty && x.atBoundary then .done (s.deliverAsync c w)
    else
      let s := { s with cur := some { core := c, wave := w, lanes := b, second := second, pc := pc } }
      match s.issuing with
      | none => .idle
      | some y =>
        if pc.toNat % 8 ≠ 0 then
          match y.pre .misalignedPc pc 0 with
          | .trap t => .done (s.trapNow y t)
          | _ => .idle
        else if s.bkptAt y && b &&& x.noTrip == 0 then
          match y.pre .breakpoint 0 0 with
          | .trap t =>
            let slot := (s.bkpts.find? (fun b => b.2.ctx == y.ctx && b.2.addr == pc)).map (·.1)
            .done (s.trapNow y { t with slot := slot.getD 0xFF })
          | _ => .idle
        else match s.fetchInstr c w y.ctx pc with
          | (s, .miss) => .miss { s with cur := none }
          | (s, .fault e va far) => .done (s.fetchFault y e va far)
          | (s, .instr i base len) =>
            .run { s with cur := some { core := c, wave := w, lanes := b, second := second, pc := pc, base := base, len := len } } i

/-- A second bundle that does not issue ends its clock: the mailboxes settle (R394). -/
def State.noSecond (s : State) (c w : Nat) (second : Bool) : State :=
  if second then State.settleBoxes { s with snap := none, twin := [], offers := [], wrote := [] } c w else s

/-- After a bundle's turn: its decoder is taken, bundles that diverged split (R326), a re-issued instruction may trip again,
and after the clock's last bundle the mailboxes settle (R394). -/
def State.endTurn (s : State) : State :=
  match s.cur with
  | none => { s with wrote := [] }
  | some u =>
    let more := match s.agenda with
      | t :: _ => (match t.act with | .bundle c w _ true => t.clocks == 0 && c == u.core && w == u.wave | _ => false)
      | [] => false
    let s1 := { s with
      cur := none
      blocked := false
      snap := if more then s.snap else none
      twin := if more then s.twin else []
      offers := if more then s.offers else []
      wrote := if more then s.wrote else [] }
    let s1 := if u.agent != .wave || s.blocked then s1 else s1.tookDecoder u
    if u.agent != .wave then s1
    else
      let s2 := s1.modWave u.core u.wave (fun x =>
        { (x.sticks u.lanes u.pc s.blocked).splitBundles with noTrip := if s.blocked then x.noTrip else x.noTrip &&& ~~~u.lanes })
      if more then s2 else s2.settleBoxes u.core u.wave

/-! ### The choice of a wave and its bundles (R328, R329, R380) -/

/-- Highest starvation count of a bundle. -/
def Wave.starveOf (x : Wave) (b : Mask) : Nat := (lanesOf b).foldl (fun m l => max m (nth x.starve l 0)) 0
def Wave.pcOf (x : Wave) (b : Mask) : Nat := (nth x.pcs ((lowest b).getD 0) 0).toNat

/-- The order in which a wave takes its eligible bundles: starving ones, then the most populous (R328), of which `RGHINT`
holds back one at its hold address while another lies below (R380). -/
def Wave.order (x : Wave) (el : List Mask) : List Mask :=
  let starving := el.filter (fun b => decide (48 ≤ x.starveOf b))
  let rest := el.filter (fun b => !decide (48 ≤ x.starveOf b))
  let rest := match x.rghint with
    | some (h, _ + 1) => rest.filter (fun b => !(x.pcOf b == h.toNat && el.any (fun q => decide (x.pcOf q < h.toNat))))
    | _ => rest
  let st := sortBy (fun a b => decide (x.starveOf b < x.starveOf a) ||
    (x.starveOf a == x.starveOf b && decide (x.pcOf a ≤ x.pcOf b))) starving
  let po := sortBy (fun a b => decide (popcount b < popcount a) ||
    (popcount a == popcount b && decide (x.pcOf a ≤ x.pcOf b))) rest
  st ++ po

/-- The bundles that a wave issues, lower address first: the first of the order, and the next one that can issue beside
it. -/
def Wave.choose (x : Wave) (el : List Mask) (beside : Mask → Mask → Bool) : List Mask :=
  let pair := fun (a q : Mask) => if x.pcOf a ≤ x.pcOf q then (a, q) else (q, a)
  match x.order el with
  | [] => []
  | a :: r => match r.find? (fun q => beside (pair a q).1 (pair a q).2) with
    | some q => [(pair a q).1, (pair a q).2]
    | none => [a]

/-- Starvation counts after an issue opportunity. -/
def Wave.starved (x : Wave) (el ch : List Mask) : Wave :=
  let e := el.foldl (fun m b => m ||| b) (0 : Mask)
  let c := ch.foldl (fun m b => m ||| b) (0 : Mask)
  { x with starve := (List.range 32).map (fun l =>
      if e.getLsbD l && !c.getLsbD l then min 63 (nth x.starve l 0 + 1) else 0) }

/-- The `RGHINT` window after an issue opportunity (R380). -/
def Wave.hintTick (x : Wave) : Wave :=
  match x.rghint with
  | some (h, n + 1) =>
    if n = 0 ∨ (lanesOf x.live).all (fun l => decide (h.toNat ≤ (nth x.pcs l 0).toNat)) then { x with rghint := none }
    else { x with rghint := some (h, n) }
  | _ => { x with rghint := none }

/-- A ready wave that was not chosen ages by the clocks since it was last found ready, from the clock on in which it became so; every
4,096 clocks its effective priority number falls (R329). -/
def Wave.age (x : Wave) (clk : Nat) : Wave :=
  { x with unchosen := x.unchosen + (match x.readyAt with | some t => clk - t | none => 1), readyAt := some clk }
def Wave.rise (x : Wave) : Wave :=
  if x.unchosen < 4096 then x else { x with unchosen := x.unchosen - 4096, prio := x.prio - 1 }
def execPriorityPromotion (c w : Nat) (s : State) : Host.Outcome State Fault Refusal := .next (s.modWave c w Wave.rise)

/-- A partition falls due every 4 clocks (R326). -/
def execBundlePartition (c w : Nat) (s : State) : Host.Outcome State Fault Refusal :=
  .next (if s.clkOf c % 4 = 0 then s.modWave c w Wave.partition else s)

/-- A code line arrives: one that fetches wait for, or one that a prefetch hint asked for, which stops no wave (R14, R352;
log entry 68). -/
def execFetchLineArrival (group line : Nat) (s : State) : Host.Outcome State Fault Refusal :=
  .next (if isLocal line && line % 256 == 0 || s.imiss.any (fun m => m.1 == group && m.2.1 == line) then s.fillCode group line else s)

/-- An asynchronous trap reaches its wave (R436). -/
def execAsyncTrapDelivery (c w : Nat) (s : State) : Host.Outcome State Fault Refusal := .next (s.deliverAsync c w)

/-- A bundle's turn keeps the registers from before the clock's first bundle when a second one follows (R97). -/
def State.withSnap (s : State) (c w : Nat) (second : Bool) : State :=
  if second then s
  else match s.agenda with
    | t :: _ => (match t.act with
      | .bundle c' w' _ true => if c' = c ∧ w' = w then
          { s with snap := some (s.wave c w, (s.slice c (sliceOf w)).phys) } else { s with snap := none }
      | _ => { s with snap := none })
    | [] => { s with snap := none }

end Sys2Proof.Machine
end

