-- ==== Sys2Proof/Machine/Sfu.lean ====
section
/-! DEFINITION. The special-function unit (R91, R92, R122-R125): its queue, its ten functions, the divisions of IMUL
(R105, R106) that share it, and its two events. -/
namespace Sys2Proof.Machine

/-! ### The queue (R123) -/

/-- Whether the queue takes an entry of a wave: 16 places, 4 a wave, of entries whose service has not ended. -/
def State.sfuRoom (s : State) (c w : Nat) : Bool :=
  let q := (s.slice c (sliceOf w)).sfu.filter (fun e => !e.started)
  decide (q.length < 16) && decide ((q.filter (·.wave == w)).length < 4)

/-- Physical registers that sources name, in the order in which they are read, out of their key items. -/
def srcRegs (vs : List Src) : List Nat := (vs.flatMap (·.key)).filterMap (fun i => if 2 ^ 80 ≤ i then some (i - 2 ^ 80) else none)

/-- The scalar operand values of a withdrawn record (R440): B, then C; a scalar A stands in the upper half of B's place
(log entry 41). -/
def scalarB (cls : Cls) (vs : List Src) (hasB : Bool) : DWord :=
  let a := if cls = .vec ∨ cls = .none then 0 else (nth vs 0 Src.none).nat 0
  let b := if hasB then (nth vs 1 Src.none).nat 0 else 0
  BitVec.ofNat 64 (if hasB then b % 2 ^ 32 + 2 ^ 32 * (a % 2 ^ 32) else a)

/-- The extension word of an instruction, 0 when it has none. -/
def extWord (o : Opnds) : DWord := match o.ext with | some e => encodeExt e | none => 0

/-- Enter the queue: the operands are read, the destination becomes PENDING, and a mailbox destination waits
(R95, R123, R124). -/
def State.sfuEnter (s : State) (x : Iss) (act : Mask) (o : Opnds) (h : Shape) (vs : List Src) (ns : List Nat)
    (key : Option (List Nat)) (r : Nat → Nat × Flags) : Except Stop Fx :=
  let hold := decide (h.raise &&& srEnable x.src.sr ≠ 0)
  let (id, s1) := s.newId
  let l0 := (lowest act).getD 0
  let once := dclsOf o .vec = .sca
  let rr := fun (l : Nat) => if once then r l0 else r l
  let e : SfuEntry := {
    id := id, wave := x.w, lanes := x.lanes, pc := x.pc, clk := x.clk, dest := .none, active := act, hold := hold, base := x.base,
    ext := extWord o, bundle := x.lanes, sclB := scalarB o.ca vs (h.b != 0 && o.cb != .vec)
    vals := (List.range h.d).map (fun i => resultReg (fun l => (rr l).1) i)
    flags := lanes32.map (fun l => (rr l).2) }
  let add := fun (s : State) (e : SfuEntry) => s.modSlice x.c x.slice (fun k => { k with sfu := k.sfu ++ [e] })
  if once then
    let n := o.d.toNat
    if n < 128 then
      if (List.range h.d).any (fun i => (s.now x).sPend.getLsbD (n + i)) then .error .block
      else .ok { s := (add s1 { e with dest := .sca n h.d }).modNow x (fun y => y.pendScalars n h.d) }
    else .error (.wait (add s1 { e with dest := .mbox (n - 128) }) (.result id))
  else
    let transit := srcRegs vs ++ s.priorRegs x act ns
    match s1.pendNames x act ns with
    | .error st => .error st
    | .ok (ps, prior, s2) =>
      let s3 := add s2 { e with dest := .vec (nth ns 0 0) ps, prior := prior, transit := transit }
      let s3 := s3.sweep x.c x.slice
      match (if hold then none else s.entryKey x ns key) with
      | some k => .ok { s := s3.reuseAdd x.c x.slice {
          key := k, ctx := x.ctx, result := .regs ps, flags := flagsOf act (fun l => (r l).2) } }
      | none => .ok { s := s3 }

/-- The body of a queued instruction. -/
def sfuBody (o : Opnds) (op : Iss → List Nat) (h : Shape) (f : Iss → LaneFn) (s : State) (x : Iss) (act : Mask) :
    Except Stop Fx :=
  let vec := dclsOf o .vec = .vec
  match x.namesOk act (h.srcs o ++ (if vec then [dstOpd o h.d] else [])) with
  | .error e => .error e
  | .ok _ => match s.readOpds x act o (h.srcs o) with
    | .error e => .error e
    | .ok vs => match (if vec then x.names act 3 o.d.toNat h.d else .ok []) with
      | .error e => .error e
      | .ok ns =>
        let v := h.pick vs
        let r := f x act v.1 v.2.1 v.2.2
        let key := if vec && !vs.any (·.dyn) then some (reuseKey x act (op x) vs none ns) else none
        let hit := match key with
          | some k => s.reuseHit x act k ns none h.raise
          | none => none
        match hit with
        | some r => r
        | none => if s.sfuRoom x.c x.w then s.sfuEnter x act o h vs ns key r else .error .block

/-- A queued instruction. -/
def queued (s : State) (o : Opnds) (op : Iss → List Nat) (h : Shape) (f : Iss → LaneFn) : Host.Outcome State Fault Refusal :=
  simt s o false noPre (sfuBody o op h f)

/-! ### SFU (R122) -/

/-- Flags that the SFU group can raise (R124). -/
def sfuRaise : Flags := fIV ||| fDZ ||| fOF ||| fUF ||| fIX
def sfuShape : Shape := { fp := true, raise := sfuRaise }
def sfuPair : Shape := { a := 2, d := 2, fp := true, raise := sfuRaise }
def sfuLane (fn : Sfu) (f : Fmt) (r : Rm) : Iss → LaneFn := fun x _ a _ _ l => sfu fn f (rmEff x.src.sr r) (a l)

def execRcp (o : Opnds) (r : Rm) (s : State) : Host.Outcome State Fault Refusal :=
  queued s o (opItemsRm (.rcp o r) r) sfuShape (sfuLane .rcp .f32 r)
def execRsq (o : Opnds) (s : State) : Host.Outcome State Fault Refusal :=
  queued s o (opItems (.rsq o)) sfuShape (sfuLane .rsq .f32 .rne)
def execSqrt (o : Opnds) (r : Rm) (s : State) : Host.Outcome State Fault Refusal :=
  queued s o (opItemsRm (.sqrt o r) r) sfuShape (sfuLane .sqrt .f32 r)
def execEx2 (o : Opnds) (s : State) : Host.Outcome State Fault Refusal :=
  queued s o (opItems (.ex2 o)) sfuShape (sfuLane .ex2 .f32 .rne)
def execLg2 (o : Opnds) (s : State) : Host.Outcome State Fault Refusal :=
  queued s o (opItems (.lg2 o)) sfuShape (sfuLane .lg2 .f32 .rne)
def execSin (o : Opnds) (s : State) : Host.Outcome State Fault Refusal :=
  queued s o (opItems (.sin o)) sfuShape (sfuLane .sin .f32 .rne)
def execCos (o : Opnds) (s : State) : Host.Outcome State Fault Refusal :=
  queued s o (opItems (.cos o)) sfuShape (sfuLane .cos .f32 .rne)
def execTanh (o : Opnds) (s : State) : Host.Outcome State Fault Refusal :=
  queued s o (opItems (.tanh o)) sfuShape (sfuLane .tanh .f32 .rne)
def execDrcp (o : Opnds) (r : Rm) (s : State) : Host.Outcome State Fault Refusal :=
  queued s o (opItemsRm (.drcp o r) r) sfuPair (sfuLane .rcp .f64 r)
def execDsqrt (o : Opnds) (r : Rm) (s : State) : Host.Outcome State Fault Refusal :=
  queued s o (opItemsRm (.dsqrt o r) r) sfuPair (sfuLane .sqrt .f64 r)

/-! ### IDIV and IREM (R105, R106) -/

def divFn (t : ITy) (rem : Bool) : Iss → LaneFn := fun _ _ a b _ l =>
  let r := divLane t rem (BitVec.ofNat 32 (a l)) (BitVec.ofNat 32 (b l))
  (r.1.toNat, if r.2 then fIDZ else 0)

def execIdiv (o : Opnds) (t : ITy) (s : State) : Host.Outcome State Fault Refusal :=
  queued s o (opItems (.idiv o t)) { b := 1, raise := fIDZ } (divFn t false)
def execIrem (o : Opnds) (t : ITy) (s : State) : Host.Outcome State Fault Refusal :=
  queued s o (opItems (.irem o t)) { b := 1, raise := fIDZ } (divFn t true)

/-! ### Service and results (R123, R124) -/

/-- The last lanes of the oldest waiting entry start service. -/
def startFirst : List SfuEntry → List SfuEntry
  | [] => []
  | e :: r => if e.started then e :: startFirst r else { e with started := true } :: r

def execSfuServiceStart (c slice : Nat) (s : State) : Host.Outcome State Fault Refusal :=
  .next (if (s.slice c slice).sfu.all (·.started) then s
    else s.modSlice c slice (fun k => { k with sfu := startFirst k.sfu }))

/-- OR the flags of a result into the `SR` of the waves that share it (R275): those of the lanes whose threads have not ended. -/
def State.shareFlags (s : State) (c : Nat) (ws : List Nat) (act : Mask) (fl : Nat → Flags) : State :=
  ws.foldl (fun s w => s.modWave c w (fun x => { x with sr := srOr x.sr (flagsOf (act &&& x.live) fl) })) s

/-- The trap of a held queued instruction, when an enabled flag was set (R85, R124). -/
def State.heldTrap (s : State) (c w : Nat) (t : Iss) (act : Mask) (fl : Nat → Flags) (once : Bool) : State :=
  match enabledTrap t (s.wave c w).sr act fl once with
  | some u => s.deliver c w { u with clk := t.clk }
  | none => s

/-- A queued result of a live wave: its flags enter `SR`, and an enabled one traps when the wave was held, so that an enable bit that is
set after the instruction issued counts for none of its traps: the model's choice (R85, R124, R155; log entry 103). -/
def State.queuedFlags (s : State) (c w : Nat) (pc : DWord) (clk : Option Nat) (bundle act : Mask) (fl : Nat → Flags) (once hold : Bool) : State :=
  match s.wave? c w with
  | none => s
  | some x =>
    let act := act &&& x.live
    let s := s.modWave c w (fun x => { x with sr := srOr x.sr (flagsOf act fl) })
    if hold then
      let t : Iss := {
        c := c, w := w, lanes := bundle &&& x.live, pc := pc, len := 8, base := 0, second := false, src := x, phys := [],
        ctx := s.ctxOf x, clk := clk }
      s.heldTrap c w t act fl once
    else s

/-- The value that a name held before a queued result: of a name that shares it by a reuse hit, that name's own. -/
def ownPrior (owns : List (Nat × Nat × VReg)) (w n : Nat) (dflt : VReg) : VReg :=
  match owns.find? (fun o => o.1 == w && o.2.1 == n) with | some o => o.2.2 | none => dflt

/-- A queued result reaches register `p` of a slice: `val` are the computed lanes and `prior` what the destination held before. Each
name of the register keeps its earlier value in the lanes of its wave whose threads have ended (R282, R444): the register takes what
executing gives and such names take registers of their own, or it takes the value of one of them and no reuse entry offers it. `none`:
no register is free (R272). An `SMOV` of a name takes that name's value (R111). -/
def State.settleResult (s : State) (c k : Nat) (active : Mask) (owns : List (Nat × Nat × VReg)) (p : Nat) (val prior : VReg) :
    Option State :=
  let full : VReg := vmerge active val prior
  let users := (s.sliceWaves c k).flatMap (fun y => (y.2.names.filter (fun e => e.2 == p)).map (fun e =>
    (y.1, e.1, vmerge (active &&& y.2.live) val (ownPrior owns y.1 e.1 prior))))
  let s := s.fillSmov c k p (fun w n => vmerge (active &&& (s.wave c w).live) val (ownPrior owns w n prior))
  let keep : VReg := match users with
    | u :: _ => if users.any (fun u => u.2.2 == full) then full else u.2.2
    | [] => full
  let s := if keep = full then s else s.modSlice c k (fun q => { q with reuse := q.reuse.filter (fun e => match e.result with
    | .regs rs => !rs.contains p
    | .pred _ => true) })
  ((users.filter (fun u => u.2.2 != keep)).foldl (fun (m : Option State) u => m.bind (fun s => s.writeVec c u.1 u.2.1 u.2.2)) (some s)).map
    (fun s => s.settle c k p keep)

/-- The results of a queued instruction reach their registers, each its own. -/
def State.settleResults (s : State) (c k : Nat) (active : Mask) (owns : List (Nat × Nat × VReg)) :
    List (Nat × VReg × VReg) → Option State
  | [] => some s
  | (p, v, q) :: r => (s.settleResult c k active owns p v q).bind (fun s => s.settleResults c k active owns r)

/-- The registers of a destination with the computed and the earlier values. -/
def resultsOf (ps : List Nat) (vals prior : List VReg) : List (Nat × VReg × VReg) :=
  (List.range ps.length).map (fun i => (nth ps i 0, nth vals i vzero, nth prior i vzero))

/-- The result of an entry is written (R123): its destination fills, its flags enter `SR`, and a wave that it held goes
on or traps (R124). Results of ended threads are discarded (R444). A result that needs a register which is not free waits for the
youngest borrowing wave to be saved (R272). -/
def State.sfuWrite (s0 : State) (c k : Nat) (e : SfuEntry) : State :=
  let s := s0.modSlice c k (fun q => { q with sfu := q.sfu.filter (fun y => y.id != e.id) })
  let live := match s.wave? c e.wave with | some x => x.live | none => e.active
  let fl := fun (l : Nat) => nth e.flags l 0
  let done := fun (s : State) (once : Bool) =>
    s.queuedFlags c e.wave e.pc e.clk e.bundle e.active fl once e.hold
  match e.dest with
  | .vec _ ps =>
    (match s.settleResults c k e.active e.owns (resultsOf ps e.vals e.prior) with
      | some s => done ((s.sweep c k).shareFlags c e.sharers e.active fl) false
      | none => s0.spillWave c k)
  | .sca n m =>
    let s := s.modWave c e.wave (fun x =>
      x.arrive e.id n m (if e.active &&& live = 0 then none else some (e.vals.map (fun v => vlane v 0))))
    done s true
  | .mbox n =>
    match (s.wave c e.wave).waits.find? (fun v => v.kind == .result e.id) with
    | some v =>
      let s := s.modWave c e.wave (fun x => x.setBox n (vlane (nth e.vals 0 vzero) 0))
      (State.endWaitWith c e.wave v { s := s, fl := fl, once := true }).settleBoxes c e.wave
    | none => s
  | _ => s

def execSfuResultWrite (c slice op : Nat) (s : State) : Host.Outcome State Fault Refusal :=
  .next (match (s.slice c slice).sfu.find? (fun e => e.id == op && e.started) with
    | some e => if e.dest.isBox && (s.wave c e.wave).boxNow (s.clkOf c) then s else s.sfuWrite c slice e
    | none => s)

end Sys2Proof.Machine
end

