-- ==== Sys2Proof/Machine/Lane.lean ====
section
/-! DEFINITION. The cross-lane instructions (R126-R130) and the long-accumulator instructions of a wave (R131, R132). -/
namespace Sys2Proof.Machine

/-! ### LANE (R127, R128) -/

/-- Source lane of `SHFL`. -/
def shflLane (m : Shfl) (l b : Nat) : Nat :=
  match m with
  | .idx => b % 32
  | .up => if l < b then l else l - b
  | .down => if 32 ≤ l + b then l else l + b
  | .xor => l ^^^ (b % 32)

def execShfl (o : Opnds) (m : Shfl) (s : State) : Host.Outcome State Fault Refusal :=
  alu s o (opItems (.shfl o m)) { b := 1 } (fun _ _ a b _ l => (a (shflLane m l (b l)), 0))

def execBcst (o : Opnds) (s : State) : Host.Outcome State Fault Refusal :=
  alu s o (opItems (.bcst o)) { b := if o.cb = .none then 0 else 1 } (fun _ act a b _ l =>
    (a (if o.cb = .none then (lowest act).getD 0 else b l % 32), 0))

/-- The result of a vote over the active lanes (R128). -/
def voteOf (v : Vote) (act : Mask) (a : Nat → Nat) : Nat :=
  let ls := lanesOf act
  match v with
  | .all => if ls.all (fun l => a l != 0) then 1 else 0
  | .any => if ls.any (fun l => a l != 0) then 1 else 0
  | .eq => if ls.all (fun l => a l == a ((lowest act).getD 0)) then 1 else 0
  | .ballot => (maskOf (fun l => act.getLsbD l && a l != 0)).toNat

def execVote (o : Opnds) (v : Vote) (s : State) : Host.Outcome State Fault Refusal :=
  alu s o (opItems (.vote o v)) { pa := true, dflt := .sca } (fun _ act a _ _ _ => (voteOf v act a, 0))

/-- Identities of R129. -/
def scanId (op : ScanOp) (t : ScanTy) : Nat :=
  match op, t with
  | .add, .f32 => 0x80000000
  | .add, _ => 0
  | .min, .si32 => 0x7FFFFFFF
  | .min, .ui32 => 0xFFFFFFFF
  | .min, .f32 => Fmt.infBits .f32
  | .max, .si32 => 0x80000000
  | .max, .ui32 => 0
  | .max, .f32 => Fmt.signBit .f32 true + Fmt.infBits .f32
  | .and, _ => 0xFFFFFFFF
  | .or, _ => 0
  | .xor, _ => 0

/-- `combine` of R129. -/
def scanStep (op : ScanOp) (t : ScanTy) (acc x : Nat) : Nat × Flags :=
  let sg := t == .si32
  match op, t with
  | .add, .f32 => fpAdd .f32 .rne (value .f32 acc) (value .f32 x)
  | .add, _ => ((acc + x) % 2 ^ 32, 0)
  | .min, .f32 => fpMinMax .f32 false acc x
  | .min, _ => (if intOf acc 32 sg ≤ intOf x 32 sg then acc else x, 0)
  | .max, .f32 => fpMinMax .f32 true acc x
  | .max, _ => (if intOf acc 32 sg ≤ intOf x 32 sg then x else acc, 0)
  | .and, _ => (acc &&& x, 0)
  | .or, _ => (acc ||| x, 0)
  | .xor, _ => (acc ^^^ x, 0)

/-- The accumulation over lanes in order, with the flags of its steps. -/
def scanOver (op : ScanOp) (t : ScanTy) (a : Nat → Nat) (ls : List Nat) : Nat × Flags :=
  ls.foldl (fun (r : Nat × Flags) l => let n := scanStep op t r.1 (a l); (n.1, r.2 ||| n.2)) (scanId op t, 0)

def execScan (o : Opnds) (op : ScanOp) (excl : Bool) (t : ScanTy) (s : State) : Host.Outcome State Fault Refusal :=
  alu s o (opItems (.scan o op excl t)) {} (fun _ act a _ _ l =>
    let acc := (scanOver op t a ((lanesOf act).filter (fun k => decide (k < l)))).1
    let n := scanStep op t acc (a l)
    (if excl then acc else n.1, n.2))

def execRed (o : Opnds) (op : ScanOp) (t : ScanTy) (s : State) : Host.Outcome State Fault Refusal :=
  alu s o (opItems (.red o op t)) { dflt := .sca } (fun _ act a _ _ _ => scanOver op t a (lanesOf act))

def execCnfl (o : Opnds) (s : State) : Host.Outcome State Fault Refusal :=
  alu s o (opItems (.cnfl o)) {} (fun _ act a _ _ l =>
    ((maskOf (fun k => act.getLsbD k && decide (k < l) && a k == a l)).toNat, 0))

def execLmatch (o : Opnds) (s : State) : Host.Outcome State Fault Refusal :=
  alu s o (opItems (.lmatch o)) {} (fun _ act a _ _ l => ((maskOf (fun k => act.getLsbD k && a k == a l)).toNat, 0))

/-- Rank of an active lane among some lanes. -/
def rankOf (ls : List Nat) (l : Nat) : Nat := (ls.filter (fun k => decide (k < l))).length

def execCmpr (o : Opnds) (s : State) : Host.Outcome State Fault Refusal :=
  alu s o (opItems (.cmpr o)) { b := 1, pb := true } (fun _ act a b _ l =>
    match ((lanesOf act).filter (fun k => b k != 0))[rankOf (lanesOf act) l]? with
    | some k => (a k, 0)
    | none => (0, 0))

def execXpnd (o : Opnds) (s : State) : Host.Outcome State Fault Refusal :=
  alu s o (opItems (.xpnd o)) { b := 1, pb := true } (fun _ act a b _ l =>
    if b l = 0 then (0, 0)
    else match (lanesOf act)[rankOf ((lanesOf act).filter (fun k => b k != 0)) l]? with
      | some k => (a k, 0)
      | none => (0, 0))

/-! ### LACC (R131, R132) -/

/-- Put a long accumulator; its poison is cleared by a full write only (R451). -/
def Wave.setLa (x : Wave) (n : Nat) (v : Lac) : Wave := { x with la := setNth x.la n v }

def execLacz (o : Opnds) (s : State) : Host.Outcome State Fault Refusal :=
  simt s o false noPre (fun s x _ =>
    let n := o.d.toNat - 140
    .ok { s := s.modNow x (fun y => { y.setLa n {} with laPoison := y.laPoison &&& ~~~(BitVec.ofNat 4 (2 ^ n)) }) })

/-- Format codes of R61 for the product formats of `LACA`. -/
def LacFmt.fmtCode : LacFmt → Nat
  | .f32 => 1 | .f16 => 2 | .bf16 => 3
def lacaA (x : Iss) (f : LacFmt) : Nat := if pfxA x.pfx ≠ 0 then pfxA x.pfx else LacFmt.fmtCode f
def lacaB (x : Iss) (f : LacFmt) : Nat := if pfxB x.pfx ≠ 0 then pfxB x.pfx else LacFmt.fmtCode f
/-- Formats that a prefix may give (R132). -/
def lacaFmt (c : Nat) : Bool := decide (1 ≤ c) && decide (c ≤ 5)

def lacaPre (f : LacFmt) (x : Iss) : Option Stop :=
  let a := lacaA x f
  let b := lacaB x f
  if pfxC x.pfx ≠ 0 ∨ pfxD x.pfx ≠ 0 ∨ pfxGs x.pfx ≠ 0 ∨ !lacaFmt a ∨ !lacaFmt b ∨ codeWidth a ≠ codeWidth b then
    some (x.pre .illegalOperand x.base 0)
  else none

/-- The exact sum of the products of every element of every active lane (R132). -/
def dotSum (fa fb : Nat) (act : Mask) (a b : Nat → Nat) : Sum :=
  let w := codeWidth fa
  let f := (fmtOfCode fa).getD .f32
  let g := (fmtOfCode fb).getD .f32
  (lanesOf act).foldl (fun t l => (List.range (32 / w)).foldl (fun t i =>
    let p := mulExact (value f (elemNat (a l) i w)) (value g (elemNat (b l) i w))
    t.add p.1 p.2) t) {}

/-- The accumulator as the bundle sees it before this clock: R97 orders two bundles by program counter, and each reads
its sources first. -/
def lacaBody (o : Opnds) (f : LacFmt) (s : State) (x : Iss) (act : Mask) : Except Stop Fx :=
  let h : Shape := { b := 1, elig := false, dflt := .sca }
  match x.namesOk act (h.srcs o) with
  | .error e => .error e
  | .ok _ => match s.readOpds x act o (h.srcs o) with
    | .error e => .error e
    | .ok vs =>
      let n := o.d.toNat - 140
      let v := h.pick vs
      let t := (dotSum (lacaA x f) (lacaB x f) act v.1 v.2.1).value
      let r := lacAdd (nth x.src.la n {}) t.1
      .ok { s := s.modNow x (fun y => y.setLa n r.1), fl := fun _ => t.2 ||| r.2, once := true }

def execLaca (o : Opnds) (f : LacFmt) (s : State) : Host.Outcome State Fault Refusal :=
  simt s o true (lacaPre f) (lacaBody o f)

/-- Result of `LACR` in a format. -/
def lacrValue (f : LacrFmt) (m : Rm) (a : Lac) : Nat × Flags :=
  lacRead (match f with | .f32 => .f32 | .f16 => .f16 | .bf16 => .bf16 | .f64 => .f64) m a

def execLacr (o : Opnds) (f : LacrFmt) (r : Rm) (s : State) : Host.Outcome State Fault Refusal :=
  simt s o false noPre (fun s x act =>
    let n := o.a.toNat - 140
    let h : Shape := { a := 0, d := if f = .f64 then 2 else 1, elig := false }
    match (if dclsOf o .vec = .vec then x.names act 3 o.d.toNat h.d else .ok []) with
    | .error e => .error e
    | .ok ns =>
      if x.src.laPoison.getLsbD n then .error (x.trap act .uncorrectable 0)
      else
        let v := lacrValue f (rmEff x.src.sr r) (nth x.src.la n {})
        match s.putResult x act o h none ns (fun _ => v) with
        | .error e => .error e
        | .ok fx => .ok { fx with fl := fun _ => v.2, once := true })

end Sys2Proof.Machine
end

