-- ==== Sys2Proof/Machine/Node.lean ====
section
/-! DEFINITION. Nodes: the built-in formats (R177-R180), decode descriptors and their checks (R182-R186). -/
namespace Sys2Proof.Machine

/-- Bits `[o + w - 1 : o]` of a little-endian number (R184). -/
def bitsAt (v o w : Nat) : Nat := v / 2 ^ o % 2 ^ w

/-- An FP32 frame component plus code · 2^exp, rounded down or up; an origin that is not finite stands, a NaN
quietened (R177, R184). -/
def qrel (up : Bool) (origin : Word) (code : Nat) (exp : Int) : Word :=
  let m : Rm := if up then .ru else .rd
  match value .f32 origin.toNat with
  | .num s n d => BitVec.ofNat 32 (roundTo .f32 m (addNum m (.num s n d) (scaled false code exp)).1).1
  | v => BitVec.ofNat 32 (roundTo .f32 .rne v).1

/-- Word at a byte offset of a node. -/
def nodeWord (v o : Nat) : Word := BitVec.ofNat 32 (bitsAt v (8 * o) 32)

/-- Pointer value modulo 2^63 under bit 63 of `top`. -/
def ptrMod (v : Int) (top : Nat) : DWord := BitVec.ofNat 64 (truncInt v 63 + (if bitsAt top 63 1 = 1 then 2 ^ 63 else 0))

/-- A list of 16 values by slot. -/
def slots16 {α : Type} (f : Nat → α) : List α := (List.range 16).map f

/-- WN8 (R177): both node registers. -/
def decodeWn8 (v : Nat) (addr : DWord) : NodeReg × NodeReg :=
  let org := fun (a : Nat) => nodeWord v (4 * a)
  let exp := fun (a : Nat) => intOf (bitsAt v (96 + 8 * a) 8) 8 true
  let code := fun (s k : Nat) => bitsAt v (8 * (32 + 6 * s + k)) 8
  let base := bitsAt v 128 64
  let on := fun (s : Nat) (x : Word) => if s < 8 then x else 0
  let ptr := slots16 (fun s => if s < 8 then ptrMod ((base % 2 ^ 63 + 64 * bitsAt v (8 * (24 + s)) 8 : Nat) : Int) base else 0)
  let cnt := min (bitsAt v 120 4) 8
  let reg := fun (up : Bool) (k0 : Nat) (f3 : Nat → Word) =>
    ({ f0 := slots16 (fun s => on s (qrel up (org 0) (code s k0) (exp 0)))
       f1 := slots16 (fun s => on s (qrel up (org 1) (code s (k0 + 1)) (exp 1)))
       f2 := slots16 (fun s => on s (qrel up (org 2) (code s (k0 + 2)) (exp 2)))
       f3 := slots16 (fun s => on s (f3 s))
       ptr := ptr, count := cnt, addr := addr, fmt := 0 } : NodeReg)
  (reg false 0 (fun s => nodeWord v (80 + 4 * s)), reg true 3 (fun s => BitVec.ofNat 32 (bitsAt v (8 * (112 + 2 * s)) 16)))

/-- TL4 (R178). -/
def decodeTl4 (v : Nat) (addr : DWord) : NodeReg :=
  let w := fun (s k : Nat) => if s < 12 then nodeWord v (16 + 44 * (s / 3) + 12 * (s % 3) + 4 * k) else 0
  { f0 := slots16 (fun s => w s 0)
    f1 := slots16 (fun s => w s 1)
    f2 := slots16 (fun s => w s 2)
    f3 := slots16 (fun s => if 12 ≤ s then 0
      else if s % 3 = 0 then nodeWord v (16 + 44 * (s / 3) + 36)
      else if s % 3 = 1 then nodeWord v (16 + 44 * (s / 3) + 40) else 0)
    count := 3 * min (bitsAt v 0 3) 4
    h := [nodeWord v 0, 0, 0, 0]
    addr := addr
    fmt := 1 }

/-- KN7 (R179). -/
def decodeKn7 (v : Nat) (addr : DWord) : NodeReg :=
  { f0 := slots16 (fun s => if s < 7 then nodeWord v (4 * s) else 0)
    f1 := slots16 (fun s => if s < 8 then nodeWord v (28 + 4 * s) else 0)
    ptr := slots16 (fun s => if s < 8 then
      BitVec.ofNat 64 (truncInt (addr.toNat + 16 * intOf (nodeWord v (28 + 4 * s)).toNat 32 true) 64) else 0)
    count := if bitsAt v 488 1 = 1 then bitsAt v 480 3 else bitsAt v 480 3 + 1
    h := [nodeWord v 60, 0, 0, 0]
    addr := addr
    fmt := 2 }

/-- VN32 (R180, R175). -/
def decodeVn32 (v : Nat) (addr : DWord) : NodeReg × NodeReg :=
  let c := min (bitsAt v 1088 6) 32
  let h := [nodeWord v 128, nodeWord v 132, BitVec.ofNat 32 (bitsAt v 1088 8), 0]
  ({ f0 := slots16 (fun s => nodeWord v (4 * s)), count := min c 16, h := h, addr := addr, fmt := 3 },
   { f0 := slots16 (fun s => nodeWord v (64 + 4 * s)), count := c - 16, h := h, addr := addr, fmt := 3 })

/-- Bytes of the built-in formats. -/
def builtinSize (f : Nat) : Nat := match f with | 0 => 128 | 1 => 192 | 2 => 64 | _ => 192

/-! ### Descriptors (R182, R183) -/

/-- Header word 0. -/
structure DHead where
  pmode : Nat
  dbl : Bool
  slots : Nat
  nfld : Nat
  cntw : Nat
  cntoff : Nat
  size : Nat
  stride : Nat
  deriving DecidableEq, Repr

def DHead.of (w0 w1 : DWord) : DHead :=
  let v := w0.toNat
  { pmode := bitsAt v 56 2, dbl := bitsAt v 55 1 == 1, slots := bitsAt v 49 6, nfld := bitsAt v 43 6,
    cntw := bitsAt v 37 6, cntoff := bitsAt v 25 12, size := bitsAt v 19 6, stride := bitsAt w1.toNat 48 16 }

/-- The checks of the header words (R186). -/
def DHead.ok (h : DHead) (w0 w1 : DWord) : Bool :=
  bitsAt w0.toNat 58 6 == 0 && bitsAt w0.toNat 0 19 == 0 && bitsAt w1.toNat 0 48 == 0 && h.pmode != 3 &&
  decide (1 ≤ h.size) && decide (h.size ≤ 32) && decide (1 ≤ h.slots) &&
  decide (h.slots ≤ (if h.dbl then 32 else 16)) && decide (1 ≤ h.nfld) && decide (h.nfld ≤ 32) && decide (h.cntw ≤ 6) &&
  (h.cntw == 0 || decide (h.cntoff + h.cntw ≤ 128 * h.size))

/-- A field entry. -/
structure DField where
  dest : Nat
  idx : Nat
  ty : Nat
  axis : Nat
  up : Bool
  reg : Nat
  off : Nat
  stride : Nat
  width : Nat
  deriving DecidableEq, Repr

def DField.of (w : DWord) : DField :=
  let v := w.toNat
  { dest := bitsAt v 58 3, idx := bitsAt v 55 3, ty := bitsAt v 52 3, axis := bitsAt v 50 2, up := bitsAt v 49 1 == 1,
    reg := bitsAt v 48 1, off := bitsAt v 36 12, stride := bitsAt v 24 12, width := bitsAt v 17 7 }

/-- Types and widths of a destination (R184): `F16`, `BF16` and `F32` give no pointer value (DEDUCED, log entry 12). -/
def DField.typeOk (f : DField) : Bool :=
  if f.dest = 7 then (if f.idx < 3 then f.ty == 4 && f.width == 32 else f.ty == 1 && decide (1 ≤ f.width) && decide (f.width ≤ 8))
  else match f.ty with
    | 0 => decide (1 ≤ f.width) && decide (f.width ≤ if f.dest = 4 ∨ f.dest = 5 then 64 else 32)
    | 1 => decide (1 ≤ f.width) && decide (f.width ≤ if f.dest = 4 ∨ f.dest = 5 then 64 else 32)
    | 2 => f.width == 16 && f.dest != 4 && f.dest != 5
    | 3 => f.width == 16 && f.dest != 4 && f.dest != 5
    | 4 => f.width == 32 && f.dest != 4 && f.dest != 5
    | 5 => decide (1 ≤ f.width) && decide (f.width ≤ 16) && f.dest != 4 && f.dest != 5
    | _ => false

/-- The destination that an entry claims. -/
def DField.claim (f : DField) : Nat × Nat × Nat := (f.dest, f.idx, if f.dest < 4 then f.reg else 0)

/-- The checks of one field entry (R186; log entries 12, 14 and 75). -/
def DField.ok (f : DField) (w : DWord) (h : DHead) : Bool :=
  let last := if f.dest < 5 then f.stride * (h.slots - 1) else 0
  bitsAt w.toNat 61 3 == 0 && bitsAt w.toNat 0 17 == 0 && decide (f.ty ≤ 5) &&
  (if f.dest = 6 then decide (f.idx ≤ 3) else if f.dest = 7 then f.idx != 3 && f.idx != 7 else f.idx == 0) &&
  f.typeOk && (if f.ty = 5 then f.axis != 3 else f.axis == 0 && !f.up) &&
  (f.reg == 0 || (h.dbl && decide (h.slots ≤ 16) && decide (f.dest < 5))) && (decide (f.dest < 5) || f.stride == 0) &&
  decide (f.off + last + f.width ≤ 128 * h.size)

/-- Index of the first failing entry; of two that claim one destination the later fails (log entry 75). -/
def badField (h : DHead) : Nat → List (Nat × Nat × Nat) → List DWord → Option Nat
  | _, _, [] => none
  | i, seen, w :: r =>
    let f := DField.of w
    if f.ok w h && !seen.contains f.claim then badField h (i + 1) (f.claim :: seen) r else some i

/-- The failing part of a descriptor (R186), `none` when it passes; the missing entry of `PMODE` 2 is reported last, as the header
(log entry 75). -/
def descBad (ws : List DWord) : Option Nat :=
  let w0 := nth ws 0 0
  let w1 := nth ws 1 0
  let h := DHead.of w0 w1
  if !h.ok w0 w1 then some 0xFFFFFFFF
  else match badField h 0 [] (ws.drop 2) with
    | some i => some i
    | none => if h.pmode = 2 ∧ (ws.drop 2).all (fun w => (DField.of w).dest != 5) then some 0xFFFFFFFF else none

/-- The value of a field by its type (R184), as an integer. -/
def DField.conv (f : DField) (v : Nat) (org : Nat → Word) (exp : Nat → Int) : Int :=
  match f.ty with
  | 1 => intOf v f.width true
  | 2 => ((roundTo .f32 .rne (value .f16 v)).1 : Nat)
  | 3 => ((roundTo .f32 .rne (value .bf16 v)).1 : Nat)
  | 5 => ((qrel f.up (org f.axis) v (exp f.axis)).toNat : Nat)
  | _ => (v : Nat)

/-- Decode a node by a descriptor that passed its checks (R175, R184, R185). -/
def decodeDesc (ws : List DWord) (v : Nat) (addr : DWord) (fmt : Nat) : NodeReg × Option NodeReg :=
  let h := DHead.of (nth ws 0 0) (nth ws 1 0)
  let fs := (ws.drop 2).map DField.of
  let raw := fun (f : DField) (s : Nat) => bitsAt v (f.off + s * f.stride) f.width
  let frame := fun (i : Nat) => fs.find? (fun f => f.dest == 7 && f.idx == i)
  let org := fun (a : Nat) => match frame a with | some f => BitVec.ofNat 32 (raw f 0) | none => (0 : Word)
  let exp := fun (a : Nat) => match frame (4 + a) with | some f => intOf (raw f 0) f.width true | none => 0
  let base : Nat := match fs.find? (fun f => f.dest == 5) with
    | some f => truncInt (f.conv (raw f 0) org exp) 64
    | none => 0
  let split := h.dbl && decide (16 < h.slots)
  let slot := fun (r s : Nat) => if split then 16 * r + s else s
  let field := fun (d r s : Nat) => match fs.find? (fun f => f.dest == d && (split || f.reg == r)) with
    | some f => if slot r s < h.slots then BitVec.ofNat 32 (truncInt (f.conv (raw f (slot r s)) org exp) 32) else 0
    | none => 0
  let ptr := fun (r s : Nat) => match fs.find? (fun f => f.dest == 4) with
    | some f =>
      if slot r s < h.slots then
        let x := f.conv (raw f (slot r s)) org exp
        (match h.pmode with
          | 0 => BitVec.ofNat 64 (truncInt x 64)
          | 1 => ptrMod (addr.toNat + 16 * x) 0
          | _ => ptrMod (Int.ofNat base + 16 * Int.ofNat h.stride * x) base)
      else 0
    | none => 0
  let hdr := (List.range 4).map (fun i => match fs.find? (fun f => f.dest == 6 && f.idx == i) with
    | some f => BitVec.ofNat 32 (truncInt (f.conv (raw f 0) org exp) 32)
    | none => (0 : Word))
  let valid := if h.cntw = 0 then h.slots else min (bitsAt v h.cntoff h.cntw) h.slots
  let mk := fun (r cnt : Nat) => ({ f0 := slots16 (field 0 r), f1 := slots16 (field 1 r), f2 := slots16 (field 2 r),
                                    f3 := slots16 (field 3 r), ptr := slots16 (ptr r), count := cnt, h := hdr,
                                    addr := addr, fmt := fmt } : NodeReg)
  if !h.dbl then (mk 0 valid, none)
  else if split then (mk 0 (min valid 16), some (mk 1 (valid - 16)))
  else (mk 0 valid, some (mk 1 valid))

/-- Decode the bytes of a node of any format: `n1` is answered by a double format (R175). -/
def decodeNode (fmt : Nat) (desc : List DWord) (bs : List Byte) (addr : DWord) : NodeReg × Option NodeReg :=
  let v := leWord bs
  match fmt with
  | 0 => let r := decodeWn8 v addr; (r.1, some r.2)
  | 1 => (decodeTl4 v addr, none)
  | 2 => (decodeKn7 v addr, none)
  | 3 => let r := decodeVn32 v addr; (r.1, some r.2)
  | _ => decodeDesc desc v addr fmt

end Sys2Proof.Machine
end

