-- ==== Sys2Proof/Machine/Geom.lean ====
section
/-! DEFINITION. The geometric tests of walks, in exact arithmetic (R197-R201). A finite FP32 value is a whole number of
2^-149, so products and sums of them are whole numbers of powers of it. -/
namespace Sys2Proof.Machine

/-- A word as an exact FP32 value, and whether it is finite. -/
def fv (w : Word) : FVal := value .f32 w.toNat
def fFin (w : Word) : Bool := match fv w with | .num _ _ _ => true | _ => false
def fNan (w : Word) : Bool := (fv w).isNan
/-- A finite FP32 value in units of 2^-149. -/
def units (w : Word) : Int :=
  match fv w with
  | .num s n d => if s then -((n * 2 ^ 149 / d : Nat) : Int) else ((n * 2 ^ 149 / d : Nat) : Int)
  | _ => 0
/-- ± n/d from integers. -/
def ratio (n : Int) (d : Nat) : FVal := .num (decide (n < 0)) n.natAbs d
def fpLe (a b : Word) : Bool := !ltNum (fv b) (fv a)
def fpInf : Word := 0x7F800000

/-- Maximum and minimum of FP32 words as R81 orders them. -/
def fmaxW (a b : Word) : Word := BitVec.ofNat 32 (fpMinMax .f32 true a.toNat b.toNat).1
def fminW (a b : Word) : Word := BitVec.ofNat 32 (fpMinMax .f32 false a.toNat b.toNat).1

/-- The outward-rounded product of R198: (p - o)·v, with 0·∞ replaced by `zinf`; `none` for ∞ - ∞. -/
def boundOf (m : Rm) (p o v zinf : Word) : Option Word :=
  let e := addNum m (fv p) (fv o).negate
  if e.2 != 0 then none
  else
    let x := mulNum e.1 (fv v)
    if x.2 != 0 then some zinf else some (BitVec.ofNat 32 (roundTo .f32 m x.1).1)

/-- One slot of `BOX8`: κ of a hit (R198). -/
def boxSlot (lo hi q : Nat → Word) : Option Word :=
  let nan := (List.range 3).any (fun a => fNan (lo a) || fNan (hi a) || fNan (q a) || fNan (q (6 + a))) || fNan (q 9) ||
    fNan (q 10)
  let ordered := (List.range 3).all (fun a => fpLe (lo a) (hi a))
  if nan || !ordered then none
  else
    let axis := fun (a : Nat) =>
      let pos := !(q (6 + a)).getLsbD 31
      let near := boundOf .rd (if pos then lo a else hi a) (q a) (q (6 + a)) 0xFF800000
      let far := boundOf .ru (if pos then hi a else lo a) (q a) (q (6 + a)) fpInf
      match near, far with
      | some n, some f => some (n, f)
      | _, _ => none
    match axis 0, axis 1, axis 2 with
    | some x, some y, some z =>
      let near := fmaxW (fmaxW (fmaxW x.1 y.1) z.1) (q 9)
      let far := fminW (fminW (fminW x.2 y.2) z.2) (q 10)
      if fpLe near far then some near else none
    | _, _, _ => none

/-- One slot of `OVL8` (R199). -/
def ovlSlot (inn : Bool) (lo hi q : Nat → Word) : Option Word :=
  let nan := (List.range 3).any (fun a => fNan (lo a) || fNan (hi a) || fNan (q a) || fNan (q (3 + a)))
  let ok := (List.range 3).all (fun a =>
    if inn then fpLe (q a) (lo a) && fpLe (hi a) (q (3 + a)) else fpLe (lo a) (q (3 + a)) && fpLe (q a) (hi a))
  if !nan && ok then some 0 else none

/-! ### Triangles (R200) -/

abbrev Vec3 := Int × Int × Int
def Vec3.sub (x y : Vec3) : Vec3 := (x.1 - y.1, x.2.1 - y.2.1, x.2.2 - y.2.2)
def Vec3.dot (x y : Vec3) : Int := x.1 * y.1 + x.2.1 * y.2.1 + x.2.2 * y.2.2
def Vec3.cross (x y : Vec3) : Vec3 :=
  (x.2.1 * y.2.2 - x.2.2 * y.2.1, x.2.2 * y.1 - x.1 * y.2.2, x.1 * y.2.1 - x.2.1 * y.1)
/-- `lexpos` of R200. -/
def Vec3.lexpos (x : Vec3) : Bool :=
  if x.1 ≠ 0 then decide (0 < x.1) else if x.2.1 ≠ 0 then decide (0 < x.2.1) else decide (0 < x.2.2)
def vec3 (f : Nat → Word) : Vec3 := (units (f 0), units (f 1), units (f 2))

/-- Compare n/d with m/e for positive or negative denominators: n/d ≤ m/e. -/
def ratLe (n d m e : Int) : Bool :=
  let a := if d < 0 then -n else n
  let b := if e < 0 then -m else m
  decide (a * e.natAbs ≤ b * d.natAbs)

/-- The rounded quotient n/d; a zero one is +0, whatever the sign of d (R200; log entry 95). -/
def roundRatio (n d : Int) : Word := BitVec.ofNat 32 (roundTo .f32 .rne (ratio (if d < 0 then -n else n) d.natAbs)).1

/-- A hit of a triangle: numerators of t, u and v over det. -/
structure TriHit where
  t : Int
  v : Int
  w : Int
  det : Int
  deriving DecidableEq, Repr

/-- One triangle of `TRI`, from its vertices and the ray block; tmin and tmax may be infinite (DEDUCED, log entry 13). -/
def triSlot (cb cf : Bool) (va vb vc q : Nat → Word) : Option TriHit :=
  let fin := (List.range 3).all (fun k => fFin (va k) && fFin (vb k) && fFin (vc k) && fFin (q k) && fFin (q (3 + k)))
  if !fin || fNan (q 9) || fNan (q 10) then none
  else
    let A := vec3 va
    let B := vec3 vb
    let C := vec3 vc
    let o := vec3 q
    let dir := vec3 (fun k => q (3 + k))
    let a := A.sub o
    let b := B.sub o
    let c := C.sub o
    let U := dir.dot (c.cross b)
    let V := dir.dot (a.cross c)
    let W := dir.dot (b.cross a)
    let det := U + V + W
    let inside := fun (e : Int) (p r : Vec3) =>
      decide (0 < e * det) || (e == 0 && ((r.sub p).lexpos != decide (det < 0)))
    let t := -(a.dot (b.cross c))
    -- t/det against tmin and tmax, in units of 2^-149
    let ge : Bool := match fv (q 9) with
      | .inf neg => neg
      | _ => ratLe (units (q 9)) (2 ^ 149) t det
    let le : Bool := match fv (q 10) with
      | .inf neg => !neg
      | _ => ratLe t det (units (q 10)) (2 ^ 149)
    if det ≠ 0 ∧ inside U B C ∧ inside V C A ∧ inside W A B ∧ ge ∧ le ∧ !(cb && decide (det < 0)) ∧ !(cf && decide (0 < det))
    then some { t := t, v := V, w := W, det := det } else none

/-! ### Spheres (R201) -/

/-- The FP32 encoding of ordinal `k`: 0 is +0, negative ordinals are negative values. -/
def ofOrdinal (k : Int) : Word := if k < 0 then BitVec.ofNat 32 (2 ^ 31 + k.natAbs) else BitVec.ofNat 32 k.toNat

/-- The largest ordinal in [lo, hi] that satisfies a test true up to a point, or lo. -/
def searchOrd (le : Int → Bool) : Nat → Int → Int → Int
  | 0, lo, _ => lo
  | n + 1, lo, hi =>
    if hi ≤ lo then lo
    else
      let m := (lo + hi + 1) / 2
      if le m then searchOrd le n m hi else searchOrd le n lo (m - 1)

/-- Whether √D ≥ y. -/
def rootGe (D y : Int) : Bool := decide (y ≤ 0) || decide (y * y ≤ D)

/-- One slot of `SPHR`: κ of a hit. `c` is the centre, `r` the radius. -/
def sphSlot (ray : Bool) (c : Nat → Word) (r : Word) (q : Nat → Word) : Option Word :=
  let three := List.range 3
  let e := (vec3 q).sub (vec3 c)
  let e2 := e.dot e
  let R := units r
  if !(three.all (fun k => fFin (c k) && fFin (q k))) || !fFin r || decide (R < 0) then none
  else if !ray then
    let rq := units (q 3)
    if fFin (q 3) && decide (0 ≤ rq) && decide (e2 ≤ (R + rq) * (R + rq)) then
      some (BitVec.ofNat 32 (roundTo .f32 .rd (ratio e2 (2 ^ 298))).1)
    else none
  else if !(three.all (fun k => fFin (q (3 + k)))) || !fFin (q 9) || !fFin (q 10) then none
  else
    let d := vec3 (fun k => q (3 + k))
    let A := d.dot d
    let B := d.dot e
    let K := e2 - R * R
    let lo := units (q 9)
    let hi := units (q 10)
    -- t in units of 2^-149: A t² + 2 B t + K scaled by 2^298
    let D := B * B - A * K
    let one : Int := 2 ^ 149
    if hi < lo then none
    else if A = 0 then (if K ≤ 0 then some (q 9) else none)
    else if D < 0 then none
    else if !rootGe (D * one * one) (-B * one - hi * A) || !rootGe (D * one * one) (lo * A + B * one) then none
    else if rootGe (D * one * one) (-B * one - lo * A) then some (q 9)
    else
      let le := fun (k : Int) =>
        let z := -(units (ofOrdinal k) * A + B * one)
        decide (0 ≤ z) && decide (D * one * one ≤ z * z)
      let m := searchOrd le 34 (-0x7F800000) 0x7F7FFFFF
      some (if m = -0x7F800000 then 0xFF800000 else ofOrdinal m)

end Sys2Proof.Machine
end

