-- ==== Sys2Proof/Machine/Walk.lean ====
section
/-! DEFINITION. Walks in flight: reads over the WALK path with the copies kept near the Spindle (R187, R252, R355,
R363), completion queues (R188-R190, R358-R361), starting, ending and cancelling a walk (R169, R354-R357, R362), its
stack (R172) and its nodes (R193). -/
namespace Sys2Proof.Machine

def State.walk? (s : State) (c k : Nat) : Option Walk := FMap.get (s.core c).sp.walks k
def State.setWalk (s : State) (c k : Nat) (x : Walk) : State :=
  s.modCore c (fun q => { q with sp := { q.sp with walks := FMap.set q.sp.walks k x } })
/-- Change a walk that is resident. -/
def State.modWalk (s : State) (c k : Nat) (f : Walk → Walk) : State :=
  match s.walk? c k with
  | some x => s.setWalk c k (f x)
  | none => s

/-! ### Reads over the WALK path -/

/-- The copies that the Spindle keeps: node L0 lines, walk-program lines, walk-kind records beside them, decode tables and
descriptors. -/
inductive WCopy where
  | node | prog | kind | desc
  deriving DecidableEq, Repr

def Spindle.copies (p : Spindle) : WCopy → FMap (List Byte)
  | .node => p.nodes | .prog => p.progs | .kind => p.progs | .desc => p.descs
def Spindle.withCopies (p : Spindle) (k : WCopy) (m : FMap (List Byte)) : Spindle :=
  match k with
  | .node => { p with nodes := m } | .prog => { p with progs := m } | .kind => { p with progs := m } | .desc => { p with descs := m }

/-- Lines that a set of copies holds: 512 in 64 sets of 8 ways for the node L0 (R363), 256 for the others. -/
def roomFor (k : WCopy) (m : FMap (List Byte)) (line : Nat) : FMap (List Byte) :=
  match k with
  | .node =>
    let set := m.filter (fun e => e.1 / 64 % 64 == line / 64 % 64)
    if set.length < 8 then m else (match set with | e :: _ => FMap.erase m e.1 | [] => m)
  | _ => if m.length < 256 then m else m.drop 1

/-- What a WALK read comes to. `far`: the pairing does not let it reach the partner, which ends the walk with kind 0 whatever
it read (R422, R423). -/
inductive WRes where
  | ok (bs : List Byte)
  | wait
  | fault (c : Cause) (va : DWord) (far : Bool)
  deriving DecidableEq, Repr

/-- The `NODE_FAULT` kind of a fault of a read whose own kind is `k`. -/
def faultKind (far : Bool) (k : Nat) : Nat := if far then 0 else k

/-- Whether an access translates to the partner window, and the link or the pairing stops it there (R422, R423). -/
def State.peerStops (s : State) (via : Via) (ctx : Nat) (va : DWord) (e : Cause) : Bool :=
  match (s.translate via ctx va.toNat).2 with
  | .ok (leaf, _) => leafPeer leaf && s.peerFault ctx == some e
  | .error _ => false

/-- A 64-byte line from its home: through the node-cache partition when a node or descriptor read's page has the node-class
hint, else through the general L2 (R17, R18, R363); expanded at the fill port (R236). -/
def State.walkFillLine (s : State) (node : Bool) (p : Place) (l : Nat) : State × Option (List Byte) :=
  if !isLocal l then (s, s.homeRead l 64)
  else
    let whole := match s.ncache.find? (fun e => e.1 == lineOf l) with
      | some e => (s.homeRead (lineOf l) 256).map (fun bs => expandLine e.2 (storedLine e.2 bs))
      | none => s.fillPort (lineOf l)
    match whole with
    | none => (s, none)
    | some bs => (if node && p.nch then s.nodePut (lineOf l) p.cpol else s.l2Use (lineOf l) 1 p.cpol, some ((bs.drop (l % 256)).take 64))

/-- A copy of a line is kept. -/
def State.keepCopy (s : State) (k : WCopy) (c l : Nat) (bs : List Byte) : State :=
  s.modCore c (fun q => { q with sp := q.sp.withCopies k (FMap.set (roomFor k (q.sp.copies k) l) l bs) })

/-- The 64-byte line of a virtual address over the WALK path: a copy that the Spindle keeps, else the node L0 for all but
program words (R363), else its home. -/
def State.walkLine (s : State) (k : WCopy) (c ctx : Nat) (va : DWord) : State × WRes :=
  if s.transWaits (.core c) ctx va then (s, .wait)
  else match s.place (.core c) ctx va .read with
  | (s, .error (_, e)) => (s, .fault e va (s.peerStops (.core c) ctx va e))
  | (s, .ok p) =>
    match (if p.sealed then s.pageCheck ctx va.toNat p.key else .verified) with
    | .bad => (s, .fault .integrity va false)
    | .waiting => (s, .wait)
    | .verified =>
      let s := s.touchMark p.sealed ctx va.toNat p.key
      let l := p.key / 64 * 64
      match FMap.get ((s.core c).sp.copies k) l with
      | some bs => (s, .ok bs)
      | none => match (if k == .prog then none else FMap.get (s.core c).sp.nodes l) with
        | some bs => (s.keepCopy k c l bs, .ok bs)
        | none =>
          if isHost p.key && !s.hostUp then (s, if s.hostLate then .fault .linkDown va false else .wait)
          else if s.missWait l 64 && !s.ncache.any (fun e => e.1 == lineOf l) then (s, .wait)
          else match s.farFault p.key with
            | some e => (s, .fault e va false)
            | none => match s.walkFillLine (k != .prog) p l with
              | (s, none) => (s, .fault .uncorrectable va false)
              | (s, some bs) =>
                let s := if k == .prog then s else s.keepCopy .node c l bs
                (if k == .node then s else s.keepCopy k c l bs, .ok bs)

/-- Read `n` bytes over the WALK path, line by line, at most `fuel` lines. -/
def State.walkRead (s : State) (k : WCopy) (c ctx : Nat) : Nat → DWord → Nat → State × WRes
  | _, _, 0 => (s, .ok [])
  | 0, _, _ => (s, .ok [])
  | fuel + 1, va, n =>
    match s.walkLine k c ctx va with
    | (s, .ok bs) =>
      let o := va.toNat % 64
      let take := min n (64 - o)
      match s.walkRead k c ctx fuel (va + BitVec.ofNat 64 take) (n - take) with
      | (s, .ok r) => (s, .ok ((bs.drop o).take take ++ r))
      | r => r
    | r => r

/-! ### Completion queues (R358-R361) -/

/-- Write bytes of a team's Bench on one of its cores, or of its saved image (R339). -/
def State.benchPut (s : State) (t c off : Nat) (bs : List Byte) : State :=
  let T := s.team t
  if T.isSaved then (s.vaWrite (.core c) T.ctx (teamAreaVa c (s.slotOn c t) + BitVec.ofNat 64 off) bs).1
  else
    let k := s.benchAt t c off
    (s.homeWrite k bs).1.writeKills c k bs.length

/-- Offset of completion queue `n` (R358). -/
def Team.cqOff (t : Team) (n : Nat) : Nat :=
  (t.bench - 16 * t.cqn * t.cqd) / 256 * 256 + 16 * t.cqd * n

def Team.cq (t : Team) (c n : Nat) : Cq := FMap.getD t.cqs (8 * c + n) {}

/-- A completion entry (R188). -/
def cqEntry (tag : Word) (status count extra : Nat) (result value : Word) : List Byte :=
  leBytes 4 tag.toNat ++ leBytes 1 status ++ leBytes 1 (count % 256) ++ leBytes 2 (extra % 65536) ++
  leBytes 4 result.toNat ++ leBytes 4 value.toNat

/-- The state of a queue as the team area holds it (R440). -/
def Cq.image (q : Cq) : List Byte := leBytes 4 q.head ++ leBytes 4 q.tail ++ leBytes 8 q.count

/-- Whether the writes of the next `n` entries of a saved queue wait (R339, R453, R474). -/
def State.cqHeld (s : State) (t c q n : Nat) : Bool :=
  let T := s.team t
  let at_ := fun (off len : Nat) => s.vaWaits (.core c) T.ctx (teamAreaVa c (s.slotOn c t) + BitVec.ofNat 64 off) false len
  T.isSaved && (at_ (0x40000 + 16 * q) 16 ||
    (List.range n).any (fun i => at_ (T.cqOff q + 16 * (((T.cq c q).tail + i) % T.cqd)) 16))

/-- Write an entry at the tail of a queue, `none` when the queue is full (R190, R359) or its write waits. -/
def State.cqWrite (s : State) (t c n : Nat) (bs : List Byte) : Option State :=
  let T := s.team t
  let q := T.cq c n
  if T.cqd ≤ q.count ∨ s.cqHeld t c n 1 = true then none
  else
    let s := s.benchPut t c (T.cqOff n + 16 * q.tail) bs
    let q := { q with tail := (q.tail + 1) % T.cqd, count := q.count + 1 }
    let s := if T.isSaved then s.benchPut t c (0x40000 + 16 * n) q.image else s
    some (s.modTeam t (fun x => { x with cqs := FMap.set x.cqs (8 * c + n) q }))

/-! ### Ending a walk (R189, R190, R213) -/

/-- A walk's slot is free. -/
def State.freeWalk (s : State) (c k : Nat) : State :=
  s.modCore c (fun q => { q with sp := { q.sp with walks := FMap.erase q.sp.walks k } })

/-- Write a walk's entry to its queue, or to the origin's over the pairing link; a full queue holds the walk. A
terminal entry frees the slot. -/
def State.walkEntry (s : State) (c k : Nat) (status extra : Nat) (result value : Word) (terminal : Bool) : State :=
  match s.walk? c k with
  | none => s
  | some x =>
    let bs := cqEntry x.tag status x.emitted.toNat extra result value
    let next := fun (s : State) => if terminal then s.freeWalk c k
      else s.modWalk c k (fun x => { x with emitted := x.emitted + 1, wait := .ready })
    match x.remote with
    | some (oc, os, _) =>
      next { s with outbox := s.outbox ++ [OutMsg.entries oc os x.hid [BitVec.ofNat 128 (leWord bs)] x.pc] }
    | none => match s.cqWrite x.team c x.cq bs with
      | some s => next s
      | none => s.setWalk c k { x with wait := .queue status extra result value terminal, finished := terminal }

/-- The fault record of a walk that ends with a fault status (R414, R415, R431); a NODE_FAULT names its address. A partner's walk
has no team and no wave here: its `WHO` is a free value (log entry 8). -/
def State.walkRecord (s : State) (c status : Nat) (x : Walk) (result value : Word) : State :=
  let r : FaultRec := {
    va := if status = 0x51 then pairOf result value else 0, ctx := x.ctx, client := 2, cause := .none,
    access := match x.wait with | .spill _ => 1 | _ => 0
    code := some status, core := c
    who := s.slotOn c x.team * 256 + x.wave, anon := if x.remote.isSome then 2 else 0 }
  (s.postFault r false).1

/-- End a walk with a status (R189); the extra field carries a kind or reason and the `PC`. -/
def State.walkEnd (s : State) (c k status kind : Nat) (result value : Word) : State :=
  match s.walk? c k with
  | none => s
  | some x =>
    (if 0x50 ≤ status then s.walkRecord c status x result value else s).walkEntry c k status (kind * 4096 + x.pc % 4096)
      result value true

/-- WALK_PROGRAM_ILLEGAL with a reason. -/
def State.walkIllegal (s : State) (c k reason : Nat) : State := s.walkEnd c k 0x50 reason 0 0
/-- NODE_FAULT with a kind and the faulting address. -/
def State.walkFault (s : State) (c k kind : Nat) (va : DWord) : State :=
  s.walkEnd c k 0x51 kind (loWord va) (hiWord va)
/-- STACK_DEPTH. -/
def State.walkDepth (s : State) (c k depth : Nat) : State := s.walkEnd c k 0x52 0 (BitVec.ofNat 32 depth) 0

/-- WALK_CANCELLED (R362): what the walk waited to write is dropped. -/
def State.walkCancel (s : State) (c k : Nat) : State :=
  (s.modWalk c k (fun x => { x with wait := .ready, cancelled := true })).walkEntry c k 0x02 0 0 0 true

/-- The walk goes on at the next word; past the last one it ends with reason 1 (R220). -/
def State.walkNext (s : State) (c k : Nat) : State :=
  match s.walk? c k with
  | none => s
  | some x => if x.pc + 1 < x.plen then s.setWalk c k { x with pc := x.pc + 1, wait := .ready } else s.walkIllegal c k 1

/-! ### Starting a walk (R169, R354-R357) -/

/-- Check a walk-kind record (R354): program, decode table, entry, length, spill base, and whether it is sound. -/
def kindFields (bs : List Byte) : DWord × DWord × Nat × Nat × DWord × Bool :=
  let f := fun (o n : Nat) => leWord ((bs.drop o).take n)
  let prog := f 0 8
  let entry := f 16 2
  let plen := f 18 2
  let ok := prog % 64 == 0 && decide (entry < 4096) && decide (1 ≤ plen) && decide (plen ≤ 4096) && decide (entry < plen) &&
    f 20 4 == 0 && f 24 8 % 256 == 0
  (BitVec.ofNat 64 prog, BitVec.ofNat 64 (f 8 8), entry, plen, BitVec.ofNat 64 (f 24 8), ok)

/-- Free walk slot of a core, lowest first. -/
def State.freeWalkSlot (s : State) (c : Nat) : Option Nat :=
  (List.range 512).find? (fun k => (s.walk? c k).isNone)

/-- The line of a spill area, as it translates (R364, R411). -/
def State.areaLine (s : State) (c ctx : Nat) (va : DWord) : Option Nat :=
  match (s.place (.core c) ctx va .atomic).2 with
  | .ok p => some (lineOf p.key)
  | .error _ => none

/-- Give a walk its program from its kind's record; a bad record ends it at once (R354). `entry` names another entry
word, also one past the program, at which the walk then ends (log entry 76). -/
def State.walkKind (s : State) (c k : Nat) (sdtab : DWord) (entry : Option Nat) : State :=
  match s.walk? c k with
  | none => s
  | some x =>
    match s.walkRead .kind c x.ctx 2 x.kind 32 with
    | (s, .wait) => s.setWalk c k { x with wait := .kind sdtab entry }
    | (s, .fault _ va far) => (s.modWalk c k (fun x => { x with pc := 0 })).walkFault c k (faultKind far 3) va
    | (s, .ok bs) =>
      let (prog, dtab, e, plen, spill, ok) := kindFields bs
      let e := entry.getD e
      let spill := spill + BitVec.ofNat 64 (256 * (512 * c + k))
      let s := s.modWalk c k (fun x => { x with
        prog := prog, dtab := if dtab = 0 then sdtab else dtab, pc := e % 4096, plen := plen
        spill := spill, area := s.areaLine c x.ctx spill, wait := .ready })
      if ok && decide (e < plen) then s else s.walkIllegal c k 0

/-- A walk of a wave's lane in a slot with the query block `bs` (R169, R356). -/
def State.startWalk (s : State) (c k w : Nat) (tag : Word) (cq : Nat) (kind : DWord) (bs : List Byte) : State :=
  let x := s.wave c w
  let L := s.launchOf x
  let y : Walk := { ctx := s.ctxOf x, team := x.team, wave := x.index, tag := tag, cq := cq, kind := kind,
                    q := (List.range 16).map (fun i => BitVec.ofNat 32 (leWord ((bs.drop (4 * i)).take 4))),
                    kappa := List.replicate 16 fpInf, originCore := c, originSlot := k }
  (s.setWalk c k y).walkKind c k L.hdr.sdtp none

/-! ### The stack (R172) -/

def Walk.depth (x : Walk) : Nat := x.chip.length + x.spilled

/-- Push words, as many as find room on chip; the rest wait for a spill. -/
def Walk.pushWords (x : Walk) : List Word → Walk
  | [] => { x with wait := .ready }
  | v :: r => if x.chip.length < 8 then { x with chip := v :: x.chip }.pushWords r else { x with wait := .spill (v :: r) }

/-- Push words and complete the instruction; too deep a push ends the walk (R172, R212). -/
def State.walkPush (s : State) (c k : Nat) (vs : List Word) : State :=
  match s.walk? c k with
  | none => s
  | some x =>
    if 64 < x.depth + vs.length then s.walkDepth c k x.depth
    else
      let y := x.pushWords vs
      let s := s.setWalk c k y
      if y.wait == .ready then s.walkNext c k else s

/-- Spill the lowest word on chip to its place in the spill area for a push that found no room, and go on with it (R172, R364).
The area needs `RD` and `WR` (R411). -/
def State.walkSpill (s : State) (c k : Nat) : State :=
  match s.walk? c k with
  | none => s
  | some x => match x.wait, x.chip.reverse with
    | .spill left, v :: r =>
      let va := x.spill + BitVec.ofNat 64 (4 * x.spilled)
      if s.vaWaits (.core c) x.ctx va false 4 then s
      else match s.vaAccess (.core c) x.ctx va .atomic (leBytes 4 v.toNat) with
        | (s, some e) => s.walkFault c k (faultKind (s.peerStops (.core c) x.ctx va e) 1) va
        | (s, none) =>
          let y := { x with
            chip := r.reverse, spilled := x.spilled + 1, under := v :: x.under, area := s.areaLine c x.ctx x.spill }.pushWords left
          let s := s.setWalk c k y
          if y.wait == .ready then s.walkNext c k else s
    | _, _ => s

/-- A spilled word as its Spindle reads it: where another agent has written its place, the word pushed or the word written
(R173). -/
def State.spilledWord (s : State) (pushed read : Word) : Word := if Config.spillKept s.freeCount then pushed else read

/-- Fill one word from the spill area (R172, R364); a pop that waited executes anew. -/
def State.walkFill (s : State) (c k : Nat) : State :=
  match s.walk? c k with
  | none => s
  | some x =>
    if 8 ≤ x.chip.length ∨ x.finished = true then s
    else match x.under with
    | [] => s
    | w :: r =>
      let va := x.spill + BitVec.ofNat 64 (4 * (x.spilled - 1))
      if s.vaWaits (.core c) x.ctx va true 4 then s
      else match s.place (.core c) x.ctx va .atomic with
      | (s, .error (_, e)) => s.walkFault c k (faultKind (s.peerStops (.core c) x.ctx va e) 1) va
      | (s, .ok p) =>
        if isHost p.key && !s.hostUp then s.walkFault c k 1 va
        else if (s.farFault p.key).isSome then s.walkFault c k 1 va
        else match s.stored p.key 4 with
          | none => s.walkFault c k 1 va
          | some bs =>
            ({ s.l2Use p.key 4 p.cpol with freeCount := s.freeCount + 1 } : State).setWalk c k { x with
              chip := x.chip ++ [s.spilledWord w (BitVec.ofNat 32 (leWord bs))], spilled := x.spilled - 1, under := r
              wait := if x.wait == WalkWait.fill then .ready else x.wait }

/-! ### The turn of a walk (R170) -/

/-- Whether a walk is ready to issue. -/
def Walk.ready (x : Walk) : Bool := x.wait == .ready && !x.killed && !x.finished

/-- The next ready walk of a core in round robin of slot numbers (R170). -/
def State.nextWalk (s : State) (c : Nat) : Option Nat :=
  let p := (s.core c).sp
  let ks := (p.walks.filter (fun e => e.2.ready)).map (·.1)
  match ks.find? (fun k => decide (p.last < k)) with
  | some k => some k
  | none => ks.head?

/-- The issuing walk. -/
def State.walkNow (s : State) : Option (Nat × Nat × Walk) :=
  match s.cur with
  | some u => if u.agent = .walk then (s.walk? u.core u.wave).map (fun x => (u.core, u.wave, x)) else none
  | none => none

/-- Fetch the word of a walk (R354, R355). -/
def State.fetchWalkWord (s : State) (c k : Nat) (x : Walk) : State × Option Word :=
  match s.walkRead .prog c x.ctx 2 (x.prog + BitVec.ofNat 64 (4 * x.pc)) 4 with
  | (s, .ok bs) => (s, some (BitVec.ofNat 32 (leWord bs)))
  | (s, .wait) => (s, none)
  | (s, .fault _ va far) => (s.walkFault c k (faultKind far 3) va, none)

/-- Execute a walk's word: `f` gets the core, the slot and the walk. -/
def walkRun (s : State) (f : State → Nat → Nat → Walk → State) : Host.Outcome State Fault Refusal :=
  match s.walkNow with
  | none => .fault .noAgent
  | some (c, k, x) => .next (f s c k x)

/-- A word that changes the walk's own registers and completes. -/
def walkStep (s : State) (f : Walk → Walk) : Host.Outcome State Fault Refusal :=
  walkRun s (fun s c k x => (s.setWalk c k (f x)).walkNext c k)

/-- Spindle registers. -/
def Walk.qr (x : Walk) (n : Nat) : Word := nth x.q (n % 16) 0
def Walk.setQ (x : Walk) (n : Nat) (v : Word) : Walk := { x with q := setNth x.q (n % 16) v }
def Walk.dq (x : Walk) (n : Nat) : DWord := pairOf (x.qr n) (x.qr (n + 1))
def Walk.setDq (x : Walk) (n : Nat) (v : DWord) : Walk := (x.setQ n (loWord v)).setQ (n + 1) (hiWord v)
def Walk.mr (x : Walk) (n : Nat) : BitVec 16 := nth x.m (n % 4) 0
def Walk.setM (x : Walk) (n : Nat) (v : BitVec 16) : Walk := { x with m := setNth x.m (n % 4) v }
def Walk.node (x : Walk) (n : Nat) : NodeReg := if n % 2 = 0 then x.n0 else x.n1
/-- Bits of a slot mask from a test. -/
def mask16 (f : Nat → Bool) : BitVec 16 :=
  (List.range 16).foldl (fun m i => if f i then m ||| BitVec.ofNat 16 (2 ^ i) else m) 0

/-! ### Node and LDQ reads (R193, R219) -/

/-- Descriptor words of a format above 15, or why there are none: a fault, or the failing part (R181, R186). -/
inductive DescRes where
  | ok (ws : List DWord)
  | wait
  | bad (part : Nat)
  | fault (va : DWord) (far : Bool)

def wordsLe8 (bs : List Byte) (n : Nat) : List DWord :=
  (List.range n).map (fun i => BitVec.ofNat 64 (leWord ((bs.drop (8 * i)).take 8)))

/-- The words of descriptor `i` of the walk's decode table, read where it stands (R181, R182; log entry 74). -/
def State.readDesc (s : State) (c : Nat) (x : Walk) (i : Nat) : State × DescRes :=
  match s.walkRead .desc c x.ctx 2 x.dtab 16 with
  | (s, .wait) => (s, .wait)
  | (s, .fault _ va far) => (s, .fault va far)
  | (s, .ok hb) =>
    if leWord (hb.take 2) ≤ i ∨ leWord (hb.drop 2) ≠ 0 then (s, .bad 0xFFFFFFFE)
    else match s.walkRead .desc c x.ctx 2 (x.dtab + BitVec.ofNat 64 (16 + 8 * i)) 8 with
      | (s, .wait) => (s, .wait)
      | (s, .fault _ va far) => (s, .fault va far)
      | (s, .ok ab) =>
        let a : DWord := BitVec.ofNat 64 (leWord ab)
        if a.toNat % 16 ≠ 0 then (s, .bad 0xFFFFFFFE)
        else match s.walkRead .desc c x.ctx 2 a 16 with
          | (s, .wait) => (s, .wait)
          | (s, .fault _ va far) => (s, .fault va far)
          | (s, .ok bs) =>
            let ws := wordsLe8 bs 2
            let h := DHead.of (nth ws 0 0) (nth ws 1 0)
            if !h.ok (nth ws 0 0) (nth ws 1 0) then (s, .bad 0xFFFFFFFF)
            else match s.walkRead .desc c x.ctx 6 (a + 16) (8 * h.nfld) with
              | (s, .wait) => (s, .wait)
              | (s, .fault _ va far) => (s, .fault va far)
              | (s, .ok es) =>
                let ws := ws ++ wordsLe8 es h.nfld
                match descBad ws with
                | some p => (s, .bad p)
                | none => (s, .ok ws)

/-- Bytes of a node of a format. -/
def nodeSize (fmt : Nat) (desc : List DWord) : Nat :=
  if fmt < 4 then builtinSize fmt else 16 * (DHead.of (nth desc 0 0) (nth desc 1 0)).size

/-- A line of a node read, `old` being a first look at it. A line that no copy holds may come apart at its 32-byte boundary:
the second look then meets the halves in either order (R176; log entry 74). -/
def State.nodeLine (s : State) (c ctx : Nat) (va : DWord) (old : List Byte) : State × WRes × List Byte :=
  match s.walkLine .node c ctx va with
  | (t, .ok bs) =>
    let filled := ((t.core c).sp.nodes.find? (fun e => (FMap.get (s.core c).sp.nodes e.1).isNone)).map (·.1)
    let u : State := { t with freeCount := t.freeCount + 1 }
    match filled, old with
    | none, _ => (t, .ok bs, [])
    | some _, [] =>
      if Config.nodeApart t.freeCount then
        (u.modCore c (fun q => { q with sp := { q.sp with nodes := (s.core c).sp.nodes } }), .wait, bs)
      else (u, .ok bs, [])
    | some l, _ =>
      let whole := if Config.nodeOlder t.freeCount then old.take 32 ++ bs.drop 32 else bs.take 32 ++ old.drop 32
      (u.modCore c (fun q => { q with sp := { q.sp with nodes := FMap.set q.sp.nodes l whole } }), .ok whole, [])
  | (t, .wait) => (t, .wait, old)
  | (t, r) => (t, r, [])

/-- A node read goes on: the lines that come in this turn, after the bytes `got` of earlier ones. What has come of a read
that waits stands in the walk (R176; log entry 74). -/
def State.nodeRead (s : State) (c ctx : Nat) (addr : DWord) (n : Nat) : Nat → List Byte → List Byte → State × WRes × List Byte × List Byte
  | 0, got, _ => (s, .ok got, [], [])
  | fuel + 1, got, old =>
    if n ≤ got.length then (s, .ok got, [], [])
    else
      let va := addr + BitVec.ofNat 64 got.length
      match s.nodeLine c ctx va old with
      | (t, .ok bs, _) =>
        let got := got ++ (bs.drop (va.toNat % 64)).take (n - got.length)
        if got.length < n ∧ Config.nodeApart t.freeCount = true then ({ t with freeCount := t.freeCount + 1 }, .wait, got, [])
        else ({ t with freeCount := t.freeCount + 1 } : State).nodeRead c ctx addr n fuel got []
      | (t, r, old) => (t, r, got, old)

/-- The read of an `NFETCH` or `LDQ` arrives, of a node what comes of it in this turn (R176, R193, R219). -/
def State.walkArrive (s : State) (c k : Nat) : State :=
  match s.walk? c k with
  | none => s
  | some x => match x.wait with
    | .node d addr fmt desc =>
      (match s.nodeRead c x.ctx addr (nodeSize fmt desc) 10 x.got x.half with
        | (s, .wait, got, half) => s.setWalk c k { x with got := got, half := half }
        | (s, .fault _ va _, _, _) => s.walkFault c k 0 va
        | (s, .ok bs, _, _) =>
          let x := { x with got := [], half := [] }
          let r := decodeNode fmt desc bs addr
          let y := match r.2 with
            | some n1 => { x with n0 := r.1, n1 := n1 }
            | none => if d = 0 then { x with n0 := r.1 } else { x with n1 := r.1 }
          (s.setWalk c k { y with kappa := List.replicate 16 fpInf, order := List.range 16 }).walkNext c k)
    | .ldq d addr n =>
      (match s.walkRead .node c x.ctx 3 addr (4 * n) with
        | (s, .wait) => s
        | (s, .fault _ va far) => s.walkFault c k (faultKind far 2) va
        | (s, .ok bs) =>
          let y := (List.range n).foldl (fun (y : Walk) i => y.setQ (d + i) (BitVec.ofNat 32 (leWord ((bs.drop (4 * i)).take 4)))) x
          (s.setWalk c k y).walkNext c k)
    | .kind sdtab e => s.walkKind c k sdtab e
    | _ => s

/-! ### Entries that wait for queue space (R190, R208) -/

/-- Write the entries of an `EMITK`, which finds room for all of them or waits (R208). Those of a walk that runs for the
partner cross the link together, and the origin finds room for them. -/
def State.walkEmitAll (s : State) (c k : Nat) (left : List (Word × Word)) (x : Nat) : State :=
  match s.walk? c k with
  | none => s
  | some y =>
    let done := fun (s : State) => (s.modWalk c k (fun y => { y with
        topk := y.topk.map (fun t => { t with entries := [] }), wait := .ready })).walkNext c k
    match y.remote with
    | some (oc, os, _) =>
      if left.isEmpty then done s
      else
        let es := (List.range left.length).map (fun i =>
          BitVec.ofNat 128 (leWord (cqEntry y.tag 0x00 (y.emitted.toNat + i) x (nth left i (0, 0)).2 (nth left i (0, 0)).1)))
        done (({ s with outbox := s.outbox ++ [OutMsg.entries oc os y.hid es y.pc] } : State).setWalk c k
          { y with emitted := y.emitted + BitVec.ofNat 32 left.length })
    | none =>
      let T := s.team y.team
      if T.cqd < (T.cq c y.cq).count + left.length ∨ s.cqHeld y.team c y.cq left.length = true then
        s.setWalk c k { y with wait := .emitk left x }
      else done (left.foldl (fun s e => s.walkEntry c k 0x00 x e.2 e.1 false) s)

/-- Write an `EMIT` entry and complete the word, or wait (R208). -/
def State.walkEmit (s : State) (c k extra : Nat) (result value : Word) : State :=
  let s := s.walkEntry c k 0x00 extra result value false
  match s.walk? c k with
  | some y => if y.wait == .ready then s.walkNext c k else s
  | none => s

/-- A walk that waits for queue space tries again. -/
def State.walkRetry (s : State) (c k : Nat) : State :=
  match s.walk? c k with
  | none => s
  | some y => match y.wait with
    | .queue st ex r v true => s.walkEntry c k st ex r v true
    | .queue _ ex r v false => s.walkEmit c k ex r v
    | .emitk left x => s.walkEmitAll c k left x
    | _ => s

end Sys2Proof.Machine
end

