-- ==== Sys2Proof/Machine/Jig.lean ====
section
/-! DEFINITION. The Jig: the JIG-major instructions (R314-R319), the Jig's words (R320-R323), its faults and stops
(R67, R321), and the delivery of its queue entries (R319). -/
namespace Sys2Proof.Machine

def State.jig (s : State) (c : Nat) : Jig := (s.core c).jig
def State.modJig (s : State) (c : Nat) (f : Jig → Jig) : State := s.modCore c (fun k => { k with jig := f k.jig })

/-! ### JIG major (R314-R319) -/

/-- A JIG-major instruction of a team that does not hold the Jig traps (R314). -/
def jigBody (f : State → Iss → Mask → Except Stop Fx) (s : State) (x : Iss) (act : Mask) : Except Stop Fx :=
  if (s.jig x.c).holder = some x.src.team then f s x act
  else .error (x.trap act .jigIllegal (BitVec.ofNat 64 (2 ^ 64 - 1)))

/-- A once-acting source value. -/
def onceNat (act : Mask) (v : Src) : Nat := v.nat ((lowest act).getD 0)

/-- A trap of an access that a fault record names; only that of a vector memory instruction is offered to the host
(R414). -/
def Stop.posted (st : Stop) (client access : Nat) (held : Bool := false) : Stop :=
  match st with
  | .trap t => .trap { t with post := some (client, access), unheld := !held }
  | e => e

def jloadBody (o : Opnds) (s : State) (x : Iss) (act : Mask) : Except Stop Fx :=
  match s.readOpds x act o [fieldA o 2, fieldB o] with
  | .error e => .error e
  | .ok vs =>
    let ga := BitVec.ofNat 64 (onceNat act (nth vs 0 Src.none))
    let n := onceNat act (nth vs 1 Src.none)
    if (s.jig x.c).running then .error .block
    else if n = 0 ∨ 256 < n then .error (x.trap act .indexRange 0)
    else if ga.toNat % 4 ≠ 0 then .error (x.trap act .misaligned ga)
    else if (s.hostHeld || s.task.isSome) && s.jigWordsWait (.core x.c) x.ctx ga n then .error .block
    else match s.readJigWords x.c x.ctx ga n with
      | (_, .error e) => .error ((x.trap act e.1 e.2).posted 3 0)
      | (s, .ok ws) => .ok { s := s.modJig x.c (fun j => j.loaded ws n) }

def execJload (o : Opnds) (s : State) : Host.Outcome State Fault Refusal := simt s o false noPre (jigBody (jloadBody o))

/-- The Jig starts (R317). -/
def Jig.start (j : Jig) (w entry : Nat) (x0 x1 : Word) : Jig :=
  { j with
    g := setNth (setNth (List.replicate 8 0) 0 x0) 1 x1
    w := List.replicate 4 0
    pc := entry
    running := true
    starter := some w }

def jstartBody (o : Opnds) (s : State) (x : Iss) (act : Mask) : Except Stop Fx :=
  match s.readOpds x act o [fieldA o, fieldB o, fieldC o] with
  | .error e => .error e
  | .ok vs =>
    let entry := onceNat act (nth vs 0 Src.none)
    let arg := fun (i : Nat) => BitVec.ofNat 32 (onceNat act (nth vs i Src.none))
    if (s.jig x.c).running then .error .block
    else if 255 < entry then .error (x.trap act .indexRange 0)
    else .ok { s := s.modJig x.c (fun j => j.start x.w entry (arg 1) (arg 2)) }

def execJstart (o : Opnds) (s : State) : Host.Outcome State Fault Refusal := simt s o false noPre (jigBody (jstartBody o))

/-- `JSTOP` (R318): between two turns the Jig is at an instruction boundary, so it is idle at once. -/
def execJstop (o : Opnds) (s : State) : Host.Outcome State Fault Refusal :=
  simt s o false noPre (jigBody (fun s x _ => .ok { s := s.modJig x.c (fun j => { j with running := false }) }))

/-- Unclaimed entries of a queue (R319). -/
def Jig.unclaimed (j : Jig) (q : Nat) : Nat := (nth j.q q []).length - (j.claims.filter (fun e => e.1 == q)).length

/-- The extension word of an instruction, 0 when it has none. -/
def extOf64 (o : Opnds) : DWord := match o.ext with | some e => encodeExt e | none => 0

def jpopBody (o : Opnds) (s : State) (x : Iss) (act : Mask) : Except Stop Fx :=
  let q := immOf o (fieldA o)
  let j := s.jig x.c
  if dclsOf o .vec = .pred then
    match s.putPred x act o.d.toNat (if 0 < j.unclaimed q then act else 0) with
    | .error e => .error e
    | .ok s => .ok { s := s }
  else match x.names act 3 o.d.toNat 1 with
    | .error e => .error e
    | .ok ns =>
      let transit := s.priorRegs x act ns
      match s.pendNames x act ns with
      | .error e => .error e
      | .ok (ps, prior, s) =>
        let (id, s) := s.newId
        let op : Op := {
          id := id, wave := x.w, kind := .jpop, pc := x.pc, clk := x.clk, bundle := x.lanes, active := act,
          dest := .vec (nth ns 0 0) ps, prior := prior, transit := transit, base := x.base, ext := extOf64 o }
        let s := s.modCore x.c (fun k => { k with ops := k.ops ++ [op] })
        .ok { s := (s.modJig x.c (fun j => { j with claims := j.claims ++ [(q, id)] })).sweep x.c x.slice }

def execJpop (o : Opnds) (s : State) : Host.Outcome State Fault Refusal := simt s o false noPre (jigBody (jpopBody o))

/-- Results of an operation of a wave reach its vector registers; results of ended threads are discarded (R444). -/
def State.fillOp (s : State) (c : Nat) (op : Op) (vals : List VReg) : State :=
  let live := (s.wave c op.wave).live
  let k := sliceOf op.wave
  let s := s.modCore c (fun q => { q with ops := q.ops.filter (fun y => y.id != op.id) })
  match op.dest with
  | .vec _ ps =>
    let vs := (List.range ps.length).map (fun i =>
      (nth ps i 0, vmerge (op.active &&& live) (nth vals i vzero) (nth op.prior i vzero)))
    (s.settles c k vs).sweep c k
  | .sca n m =>
    s.modWave c op.wave (fun x =>
      x.arrive op.id n m (if op.active &&& live = 0 then none else some (vals.map (fun v => vlane v 0))))
  | _ => s

/-- The oldest claim of a queue takes its oldest entry (R319). -/
def execJpopDelivery (c q : Nat) (s : State) : Host.Outcome State Fault Refusal :=
  let j := s.jig c
  .next (match j.claims.find? (fun e => e.1 == q), nth j.q q [] with
    | some e, v :: r =>
      let s := s.modJig c (fun j => { j with claims := j.claims.filter (fun y => y.2 != e.2), q := setNth j.q q r })
      match (s.core c).ops.find? (fun o => o.id == e.2) with
      | none => s
      | some op => s.fillOp c op [vbuild (fun l => v.extractLsb' (32 * l) 32)]
    | _, _ => s)

/-! ### The Jig's turn -/

/-- The core and the Jig that issue. -/
def State.jigNow (s : State) : Option (Nat × Jig) :=
  match s.cur with
  | some u => if u.agent = .jig && (s.jig u.core).running then some (u.core, s.jig u.core) else none
  | none => none

/-- An asynchronous trap for a wave that has not ended (R436). -/
def State.sendAsync (s : State) (c w : Nat) (t : Trap) : State :=
  if (s.wave? c w).any (fun x => !x.isOver) then s.modWave c w (fun x => { x with async := x.async ++ [t] })
  else if 1000000 ≤ w then
    s.modTeam (w / 1000 - 1000) (fun T => { T with saved := T.saved.map (fun v => { v with waves := v.waves.map (fun y =>
      if y.index = w % 1000 ∧ !y.copy.isOver then { y with copy := { y.copy with async := y.copy.async ++ [t] } } else y) }) })
  else s

/-- The Jig stops, and its starter learns the cause (R67, R321). -/
def State.jigStop (s : State) (c : Nat) (e : Cause) (addr : DWord) : State :=
  let j := s.jig c
  let s := s.modJig c (fun j => { j with running := false })
  match j.starter with
  | some w => s.sendAsync c w { cause := e, cls := clsB, mask := 0, addr := addr }
  | none => s

/-- A word that is not an instruction (R67): its byte address in the program store. -/
def State.jigIllegal (s : State) (c : Nat) : State := s.jigStop c .jigIllegal (BitVec.ofNat 64 (4 * (s.jig c).pc))

/-- `WAVE.INDEX` of the Jig's starter, resident or saved; 0xFF without one (R415, R440). -/
def State.starterIndex (s : State) (c : Nat) : Nat :=
  let t := (s.jig c).holder.getD 0
  match (s.jig c).starter with
  | some w => if (s.wave? c w).isSome then (s.wave c w).index
    else ((((s.team t).saved.getD {}).waves.find? (fun v => savedId t v.index == w)).map (·.index)).getD 0xFF
  | none => 0xFF

/-- A read that faults (R321), with its fault record (R414). -/
def State.jigFault (s : State) (c : Nat) (e : Cause) (va : DWord) : State :=
  let t := (s.jig c).holder.getD 0
  let r : FaultRec := {
    va := va, ctx := (s.team t).ctx, client := 3, cause := e, core := c, who := s.slotOn c t * 256 + s.starterIndex c % 128
    anon := if (s.jig c).starter.isNone then 2 else 0 }
  (s.postFault r false).1.jigStop c e va

/-- Go on with the next word; `PC` has 8 bits (R315). -/
def Jig.next (j : Jig) : Jig := { j with pc := (j.pc + 1) % 256 }
def State.setJig (s : State) (c : Nat) (j : Jig) : State := s.modJig c (fun _ => j)

/-- Execute a Jig word. -/
def jigRun (s : State) (f : State → Nat → Jig → State) : Host.Outcome State Fault Refusal :=
  match s.jigNow with
  | none => .fault .noAgent
  | some (c, j) => .next (f s c j)

/-- A word that changes only the Jig's own registers. -/
def jigStep (s : State) (f : Jig → Jig) : Host.Outcome State Fault Refusal := jigRun s (fun s c j => s.setJig c (f j).next)

def Jig.gr (j : Jig) (n : Nat) : Word := nth j.g n 0
def Jig.setG (j : Jig) (n : Nat) (v : Word) : Jig := { j with g := setNth j.g n v }
def Jig.wr (j : Jig) (n : Nat) : Nat := (nth j.w n 0).toNat
def Jig.setW (j : Jig) (n v : Nat) : Jig := { j with w := setNth j.w n (BitVec.ofNat 1024 v) }

/-! ### Loads (R321) -/

/-- Read over the JIG path from a global address, in aligned 16-byte blocks, at most `fuel` of them. -/
def State.jigGlobal (s : State) (c ctx : Nat) : Nat → DWord → Nat → State × WRes
  | _, _, 0 => (s, .ok [])
  | 0, _, _ => (s, .ok [])
  | fuel + 1, va, n =>
    let m := min n 16
    if s.transWaits (.core c) ctx va then (s, .wait)
    else match s.place (.core c) ctx va .read with
    | (s, .error (_, e)) => (s, .fault e va false)
    | (s, .ok p) => match (if p.sealed then s.pageCheck ctx va.toNat p.key else .verified) with
      | .bad => (s, .fault .integrity va false)
      | .waiting => (s, .wait)
      | .verified => match s.atHome ctx p.key with
        | some .wait => (s, .wait)
        | some (.fault e far) => (s, .fault e va far)
        | _ =>
          if s.missWait p.key m then (s, .wait)
          else
            let s := (s.touchMark p.sealed ctx va.toNat p.key).l2Use p.key m p.cpol
            match s.homeRead p.key m with
            | none => (s, .fault .uncorrectable va false)
            | some bs => match s.jigGlobal c ctx fuel (va + 16) (n - m) with
              | (s, .ok r) => (s, .ok (bs ++ r))
              | r => r

/-- A Jig load of `n` bytes, aligned to `al` (R321). The `MEMB` of a local address may name any member of the holder's team: the
model's choice (log entry 105). -/
def State.jigLoad (s : State) (c : Nat) (j : Jig) (g : Bool) (a off n al : Nat) : State × WRes :=
  let t := j.holder.getD 0
  let va : DWord := if g then pairOf (j.gr a) (j.gr (a + 1)) + BitVec.ofNat 64 off
    else BitVec.ofNat 64 (((j.gr a).toNat + off) % 2 ^ 32)
  if va.toNat % al ≠ 0 then (s, .fault .misaligned va false)
  else if g then
    match s.jigGlobal c (s.team t).ctx 8 va n with
    | (s, .fault e _ far) => (s, .fault e va far)
    | r => r
  else match s.localBench t va.toNat n with
    | none => (s, .fault .benchRange va false)
    | some k => match s.homeRead k n with
      | none => (s, .fault .uncorrectable va false)
      | some bs => (s, .ok bs)

/-- A load word: `put` stores the bytes. A read that waits leaves the Jig at its word. -/
def jigLoads (s : State) (g : Bool) (a off n al : Nat) (put : Jig → Nat → Jig) : Host.Outcome State Fault Refusal :=
  jigRun s (fun s c j => match s.jigLoad c j g a off n al with
    | (s, .ok bs) => s.setJig c (put j (leWord bs)).next
    | (s, .wait) => s
    | (s, .fault e va _) => s.jigFault c e va)

def execJlds (g : Bool) (d : BitVec 2) (a : BitVec 3) (off : BitVec 17) (s : State) : Host.Outcome State Fault Refusal :=
  jigLoads s g a.toNat off.toNat 128 16 (fun j v => j.setW d.toNat v)

def execJrld (g : Bool) (d a : BitVec 3) (off : BitVec 17) (s : State) : Host.Outcome State Fault Refusal :=
  jigLoads s g a.toNat off.toNat 4 4 (fun j v => j.setG d.toNat (BitVec.ofNat 32 v))

/-! ### Element operations (R322) -/

def execJunpk (sg : Bool) (d a : BitVec 2) (src dst part : BitVec 3) (s : State) : Host.Outcome State Fault Refusal :=
  let f := jigWidth src
  let t := jigWidth dst
  jigStep s (fun j => j.setW d.toNat (packElems t (fun i =>
    truncInt (intOf (elemNat (j.wr a.toNat) (part.toNat * (1024 / t) + i) f) f sg) t) (1024 / t)))

def execJpack (sg sat : Bool) (d a : BitVec 2) (src dst part : BitVec 3) (s : State) : Host.Outcome State Fault Refusal :=
  let f := jigWidth src
  let t := jigWidth dst
  let n := 1024 / f
  jigStep s (fun j => j.setW d.toNat (packElems t (fun i =>
    if part.toNat * n ≤ i ∧ i < part.toNat * n + n then
      let x := intOf (elemNat (j.wr a.toNat) (i - part.toNat * n) f) f sg
      truncInt (if sat then satInt x t sg else x) t
    else elemNat (j.wr d.toNat) i t) (1024 / t)))

/-- The running sums of `JDELTA`: (vector, accumulator). -/
def deltaSums (w v : Nat) : Nat → Nat → Nat × Nat
  | 0, acc => (0, acc)
  | n + 1, acc =>
    let r := deltaSums w v n acc
    let a := (r.2 + elemNat v n w) % 2 ^ w
    (r.1 + a * 2 ^ (w * n), a)

def execJdelta (d a : BitVec 2) (b wid : BitVec 3) (s : State) : Host.Outcome State Fault Refusal :=
  let w := jigWidth wid
  jigStep s (fun j =>
    let r := deltaSums w (j.wr a.toNat) (1024 / w) (j.gr b.toNat).toNat
    (j.setW d.toNat r.1).setG b.toNat (BitVec.ofNat 32 r.2))

/-- `JCVT` (R322): elements as `CVT` places them with E = 1024 / max(wa, wd). -/
def jcvtVec (src dst : Nat) (m : Rm) (sat : Bool) (part a old : Nat) : Nat :=
  let wa := codeWidth src
  let wd := codeWidth dst
  let n := 1024 / max wa wd
  let elem := fun (k : Nat) => (convElem src dst m sat (elemNat a (if wa ≤ wd then n * part + k else k) wa)).1
  if wa ≤ wd then packElems wd elem n
  else packElems wd (fun i => if n * part ≤ i ∧ i < n * part + n then elem (i - n * part) else elemNat old i wd) (1024 / wd)

def execJcvt (d a : BitVec 2) (part : BitVec 2) (sat : Bool) (mode : BitVec 2) (dst src : BitVec 4) (s : State) :
    Host.Outcome State Fault Refusal :=
  jigStep s (fun j => j.setW d.toNat
    (jcvtVec src.toNat dst.toNat (rmOfMode mode.toNat) sat part.toNat (j.wr a.toNat) (j.wr d.toNat)))

def execJperm (d a b : BitVec 2) (s : State) : Host.Outcome State Fault Refusal :=
  jigStep s (fun j => j.setW d.toNat (packElems 8 (fun i =>
    let x := elemNat (j.wr b.toNat) i 8
    if 128 ≤ x then 0 else elemNat (j.wr a.toNat) x 8) 128))

/-! ### Queues, scalars and control (R323) -/

def execJput (q a : BitVec 2) (s : State) : Host.Outcome State Fault Refusal :=
  jigRun s (fun s c j =>
    let l := nth j.q q.toNat []
    if 32 ≤ l.length then s
    else s.setJig c { j with q := setNth j.q q.toNat (l ++ [nth j.w a.toNat 0]) }.next)

/-- Value of the second operand of a scalar word. -/
def Jig.gsrc (j : Jig) : GSrc → Word
  | .reg b => j.gr b.toNat
  | .imm i => i.signExtend 32

def execJgadd (d a : BitVec 3) (y : GSrc) (s : State) : Host.Outcome State Fault Refusal :=
  jigStep s (fun j => j.setG d.toNat (j.gr a.toNat + j.gsrc y))
def execJgand (d a : BitVec 3) (y : GSrc) (s : State) : Host.Outcome State Fault Refusal :=
  jigStep s (fun j => j.setG d.toNat (j.gr a.toNat &&& j.gsrc y))
def execJgshr (d a : BitVec 3) (y : GSrc) (s : State) : Host.Outcome State Fault Refusal :=
  jigStep s (fun j =>
    let n := (j.gsrc y).toInt
    let v := j.gr a.toNat
    j.setG d.toNat (if 0 ≤ n then (if 32 ≤ n then 0 else v >>> n.toNat) else (if n ≤ -32 then 0 else v <<< (-n).toNat)))

/-- Condition of `JBR`. -/
def jigCond (k : Nat) (v : Word) : Bool :=
  match k with
  | 0 => true
  | 1 => v == 0
  | 2 => v != 0
  | 3 => v.getLsbD 31
  | _ => !v.getLsbD 31

def execJbr (cond a : BitVec 3) (target : BitVec 8) (s : State) : Host.Outcome State Fault Refusal :=
  jigRun s (fun s c j =>
    if j.len ≤ target.toNat then s.jigIllegal c
    else if jigCond cond.toNat (j.gr a.toNat) then s.setJig c { j with pc := target.toNat } else s.setJig c j.next)

def execJloop (a : BitVec 3) (target : BitVec 8) (s : State) : Host.Outcome State Fault Refusal :=
  jigRun s (fun s c j =>
    if j.len ≤ target.toNat then s.jigIllegal c
    else
      let v := j.gr a.toNat - 1
      let j := j.setG a.toNat v
      s.setJig c (if v = 0 then j.next else { j with pc := target.toNat }))

def execJwait (q : BitVec 2) (k : BitVec 6) (s : State) : Host.Outcome State Fault Refusal :=
  jigRun s (fun s c j => if (nth j.q q.toNat []).length + k.toNat ≤ 32 then s.setJig c j.next else s)

def execJend (s : State) : Host.Outcome State Fault Refusal :=
  jigRun s (fun s c j => s.setJig c { j with running := false })

/-- A starter that its slice has saved has not ended: the word waits for its mailbox (R272, R323). -/
def execJflag (k : BitVec 3) (y : GSrc) (s : State) : Host.Outcome State Fault Refusal :=
  jigRun s (fun s c j =>
    let v : Word := match y with
      | .reg a => j.gr a.toNat
      | .imm i => i.zeroExtend 32
    let saved := j.holder.any (fun t => ((s.team t).saved.getD {}).waves.any (fun v => some (savedId t v.index) == j.starter))
    match j.starter.filter (fun w => (s.wave? c w).any (fun x => !x.isOver)) with
    | none => if saved then s else s.setJig c j.next
    | some w =>
      if (nth (s.wave c w).mbox k.toNat {}).full then s
      else ((s.modWave c w (fun x => x.setBox k.toNat v)).setJig c j.next).settleBoxes c w)

def execJigNonInstructionWord (_w : Word) (s : State) : Host.Outcome State Fault Refusal :=
  jigRun s (fun s c _ => s.jigIllegal c)

end Sys2Proof.Machine
end

