-- ==== Sys2Proof/Machine/MemIsa.lean ====
section
/-! DEFINITION. LOAD, STORE, ATOM and FENCE: addresses (R286-R289), faults at issue (R290, R291), the operation that an
issue leaves behind (R294-R303), the events that perform it in an order that R247-R251 and R260 allow, watchpoints
(R457), load reuse (R277, R279), fences (R250, R304), and the line write-backs of L1 and L2 (R230, R233, R235). -/
namespace Sys2Proof.Machine

/-! ### Forms and addresses (R286-R289) -/

/-- A form of LOAD, STORE or ATOM. -/
structure MemForm where
  kind : OpKind
  use : Use
  size : Nat
  /-- Registers of the destination. -/
  n : Nat := 1
  signed : Bool := false
  bench : Bool := false
  remote : Bool := false
  once : Bool := false
  acq : Bool := false
  rel : Bool := false
  vol : Bool := false
  aop : Nat := 0
  w64 : Bool := false
  /-- Destination class; `none` for a store. -/
  dst : DCls := .none
  /-- C of an atomic, the data operand of a store. -/
  data : List Opd := []
  reuse : Bool := false
  deriving DecidableEq, Repr

/-- Scope of an instruction (R58, R287). -/
def memScope (o : Opnds) : Scope :=
  match o.ext with
  | none => .device
  | some e => (Scope.ofCode (e.xm.extractLsb' 14 2)).getD .device

/-- `.CHK` and `.RMT` (R287). -/
def memChk (o : Opnds) : Bool := o.xm.getLsbD 3
def memRmt (o : Opnds) : Bool := o.xm.getLsbD 13

/-- The index scale (R287). -/
def memScale (o : Opnds) (size : Nat) : Nat := if o.ext.isSome then (o.xm.extractLsb' 0 3).toNat else Nat.log2 size

/-- A lane's address of its base and index word (R288). -/
def memEa (o : Opnds) (narrow : Bool) (size base idx : Nat) : DWord :=
  let w : Word := BitVec.ofNat 32 idx
  let i : DWord := if o.cb = .none then 0 else if memChk o then w.zeroExtend 64 else w.signExtend 64
  let off : DWord := if memChk o then 0 else o.imm.signExtend 64
  let v := BitVec.ofNat 64 base + BitVec.ofNat 64 (i.toNat * 2 ^ memScale o size) + off
  if narrow then (loWord v).zeroExtend 64 else v

/-- Whether the index of a lane breaks its bound (R288). -/
def memBound (o : Opnds) (idx : Nat) : Bool := memChk o && decide (o.imm.toNat ≤ idx % 2 ^ 32)

/-! ### Faults at issue (R290) -/

/-- Operations that a host page accepts as atomics (R302): `.ADD`, `.XCHG`, `.CAS` and `CAS128`. -/
def hostAtomic (f : MemForm) : Bool := f.kind == .cas128 || f.aop == 0 || f.aop == 9 || f.aop == 15

/-- The place of a lane's access, or the first fault of R290 that its issue finds, with its item. -/
def State.placeLane (s : State) (c t ctx : Nat) (f : MemForm) (va : DWord) (bad : Bool) :
    State × Except (Nat × Cause) Place :=
  if bad then (s, .error (1, .indexRange))
  else if va.toNat % f.size ≠ 0 then (s, .error (2, .misaligned))
  else if f.remote then (s, .ok { key := 0 })
  else if f.bench then
    match s.localBench t va.toNat f.size with
    | none => (s, .error (3, .benchRange))
    | some k => (s, .ok { key := k })
  else match s.place (.core c) ctx va f.use with
    | (s, .error (6, e)) =>
      match (s.place (.core c) ctx va .read).2 with
      | .ok p => if isHost p.key && f.use == .atomic && !hostAtomic f then (s, .error (5, .atomicSpan)) else (s, .error (6, e))
      | .error _ => (s, .error (6, e))
    | (s, .error e) => (s, .error e)
    | (s, .ok p) =>
      if f.use == .atomic && isHost p.key && !hostAtomic f then (s, .error (5, .atomicSpan))
      else if p.sealed && f.use == .read && s.pageCheck ctx va.toNat p.key == .bad then (s, .error (7, .integrity))
      else (s, .ok p)

/-- Place the lanes of an instruction in increasing order: its accesses and its faulted lanes. -/
def State.placeLanes (s : State) (c t ctx : Nat) (f : MemForm) (eas : List (Nat × DWord × Bool)) :
    State × List LaneAcc × List (Nat × Nat × Cause × DWord) :=
  eas.foldl (fun (p : State × List LaneAcc × List (Nat × Nat × Cause × DWord)) e =>
    match p.1.placeLane c t ctx f e.2.1 e.2.2 with
    | (s, .error r) => (s, p.2.1, p.2.2 ++ [(e.1, r.1, r.2, e.2.1)])
    | (s, .ok q) =>
      (s, p.2.1 ++ [{ lane := e.1, va := e.2.1, key := q.key, cpol := q.cpol, sealed := q.sealed, page := q.page }], p.2.2)) (s, [], [])

/-- The reported fault: the first item of R290 under which a lane faulted, and of that item the lowest lane. -/
def worstFault : List (Nat × Nat × Cause × DWord) → Option (Nat × Nat × Cause × DWord)
  | [] => none
  | f :: r => match worstFault r with
    | none => some f
    | some g => if f.2.1 < g.2.1 ∨ (f.2.1 = g.2.1 ∧ f.1 ≤ g.1) then some f else some g

/-- The trap of faulted lanes (R290), or of a once-acting instruction (R291). -/
def memTrap (once : Bool) (access : Nat) (pc : DWord) (bundle active live : Mask) (fs : List (Nat × Nat × Cause × DWord)) :
    Option Trap :=
  let fs := if once then fs else fs.filter (fun f => live.getLsbD f.1)
  match worstFault fs with
  | none => none
  | some f =>
    let m := if once then active &&& live else maskOf (fun l => (fs.map (·.1)).contains l)
    if m = 0 then none
    else some { cause := f.2.2.1, cls := if once then clsW else clsL, mask := m, addr := f.2.2.2, pc := pc, bundle := bundle,
                again := m, post := some (0, access) }

/-! ### Watchpoints (R457) -/

/-- Access kinds that a use makes: 1 read, 2 write. -/
def Use.kinds : Use → Nat
  | .read => 1 | .fetch => 1 | .write => 2 | .atomic => 3

/-- The accesses of lanes that a watchpoint watches: its slot, the lane and its address. -/
def State.watchHit (s : State) (x : Iss) (f : MemForm) (ls : List (Nat × DWord)) : List (Nat × Nat × DWord) :=
  if f.bench || f.remote || !s.armedFor x.src || srH x.src.sr then []
  else
    let hits := fun (w : Watch) (va : DWord) => w.ctx == x.ctx && w.access &&& f.use.kinds != 0 &&
      decide (va.toNat < w.addr.toNat + w.len) && decide (w.addr.toNat < va.toNat + f.size)
    ls.filterMap (fun e => (s.watches.find? (fun w => hits w.2 e.2)).map (fun w => (w.1, e.1, e.2)))

/-- The class A trap of the tripping lanes. -/
def watchTrap (pc : DWord) (bundle : Mask) : List (Nat × Nat × DWord) → Option Trap
  | [] => none
  | h :: r => some { cause := .watchpoint, cls := clsA, mask := maskOf (fun l => ((h :: r).map (fun e => e.2.1)).contains l),
                     addr := h.2.2, pc := pc, bundle := bundle, slot := h.1 }

/-! ### Issue (R294-R303) -/

/-- Whether a lane's access may yet fault or wait at its place: the wave then waits for it (R290, R298). -/
def State.risky (s : State) (f : MemForm) (ctx : Nat) (a : LaneAcc) : Bool :=
  !f.remote && ((s.homeRead a.key f.size).isNone || (isHost a.key && !s.hostUp) ||
    (a.sealed && s.pageCheck ctx a.va.toNat a.key != .verified))

/-- The destination of an issue: its names become PENDING. `ok`: the lanes that take results. -/
def State.memDest (s : State) (x : Iss) (ok : Mask) (o : Opnds) (f : MemForm) (ns : List Nat) :
    Except Stop (Dest × List VReg × List Nat × State) :=
  match f.dst with
  | .none => .ok (.none, [], [], s)
  | .pred => .ok (.pred o.d.toNat, [], [], s)
  | .vec =>
    let transit := s.priorRegs x ok ns
    match s.pendNames x ok ns with
    | .error e => .error e
    | .ok (ps, prior, s) => .ok (.vec (nth ns 0 0) ps, prior, transit, s)
  | .sca =>
    let n := o.d.toNat
    if 128 ≤ n then .ok (.mbox (n - 128), [], [], s)
    else if (List.range f.n).any (fun i => (s.now x).sPend.getLsbD (n + i)) then .error .block
    else .ok (.sca n f.n, [], [], s.modNow x (fun y => y.pendScalars n f.n))

/-- Whether a load may leave a reuse entry (R277): policy, and at most 4 lines or spans of its own core's Bench. -/
def reusable (c : Nat) (f : MemForm) (accs : List LaneAcc) : Bool :=
  f.reuse && decide (((accs.map (fun a => if f.bench then a.key / 128 else a.key / 256)).eraseDups).length ≤ 4) &&
  accs.all (fun a => if f.bench then benchCore a.key == c else (a.cpol == 0 || a.cpol == 2))

/-- Put the accesses of an instruction in flight. -/
def State.memStart (s : State) (x : Iss) (act : Mask) (o : Opnds) (f : MemForm) (vs : List Src) (ns : List Nat)
    (key : Option (List Nat)) (eas : List (Nat × DWord × Bool)) : Except Stop Fx :=
  if !f.bench && !f.remote && eas.any (fun e => s.transWaits (.core x.c) x.ctx e.2.1) then .error .block
  else
  let live := (s.now x).live
  let (s, accs, faults) := s.placeLanes x.c x.src.team x.ctx f eas
  let trap := memTrap f.once f.use.code x.pc x.lanes act live faults
  let watch := s.watchHit x f (accs.map (fun a => (a.lane, a.va)))
  match accs.isEmpty || f.once, trap with
  | true, some t => if f.once then .error (.trap t) else .ok { s := s, after := some t }
  | _, _ =>
    let v := nth vs 2 Src.none
    let accs := accs.map (fun a => { a with
      data := leBytes f.size (v.nat a.lane)
      data2 := leBytes f.size (v.nat a.lane / 2 ^ (8 * f.size)) })
    let ok := if f.once then act else maskOf (fun l => (accs.map (·.lane)).contains l)
    let gens := s.gensOf x.c x.slice
    let key := s.entryKey x ns key
    match s.memDest x ok o f ns with
    | .error e => .error e
    | .ok (dest, prior, transit, s) =>
      let late := !faults.isEmpty || accs.any (s.risky f x.ctx)
      let (id, s) := s.newId
      let op : Op := {
        id := id, wave := x.w, kind := f.kind, pc := x.pc, clk := x.clk, bundle := x.lanes, active := act, lanes := accs,
        size := f.size, signed := f.signed, acq := f.acq, rel := f.rel, vol := f.vol, rmt := memRmt o,
        scope := memScope o, aop := f.aop, w64 := f.w64, bench := f.bench, remote := f.remote, once := f.once,
        dest := dest, faults := faults, prior := prior, transit := transit,
        key := if reusable x.c f accs && faults.isEmpty then key else none
        gens := gens, watch := watch }
      let op := { op with hold := late && f.use == .write }
      let s := s.modCore x.c (fun k => { k with ops := k.ops ++ [op] })
      let s := s.sweep x.c x.slice
      let box := match dest with | .mbox _ => true | _ => false
      if late || box then .error (.wait s (.result id)) else .ok { s := s, after := watchTrap x.pc x.lanes watch }

/-- The body of a LOAD, STORE or ATOM form: names, operands, addresses, then a reuse hit (R277) or the accesses. -/
def memBody (o : Opnds) (f : MemForm) (op : Iss → List Nat) (s : State) (x : Iss) (act : Mask) : Except Stop Fx :=
  let opds := [{ fieldA o (if f.bench || f.remote then 1 else 2) with field := true }, { fieldB o with field := true }] ++ f.data
  let vec := f.dst == .vec
  match x.namesOk act (opds ++ (if vec then [dstOpd o f.n] else [])) with
  | .error e => .error e
  | .ok _ => match s.readOpds x act o opds with
    | .error e => .error e
    | .ok vs => match (if vec then x.names act 3 o.d.toNat f.n else .ok []) with
      | .error e => .error e
      | .ok ns =>
        let ls := if f.once then ((lowest act).map (fun l => [l])).getD [] else lanesOf act
        let base := (nth vs 0 Src.none).nat
        let idx := (nth vs 1 Src.none).nat
        let eas := ls.map (fun l => (l, memEa o (f.bench || f.remote) f.size (base l) (idx l), memBound o (idx l)))
        let key := if f.reuse && vec && !vs.any (·.dyn) then
            some (reuseKey x act (op x ++ [o.imm.toNat] ++ (if f.bench then [x.src.team] else [])) vs none ns)
          else none
        match key.bind (fun k => s.reuseHit x act k ns none 0) with
        | some (.ok fx) => .ok { fx with after := watchTrap x.pc x.lanes (s.watchHit x f (eas.map (fun e => (e.1, e.2.1)))) }
        | some (.error e) => .error e
        | none => s.memStart x act o f vs ns key eas

/-- A memory instruction. -/
def memory (s : State) (o : Opnds) (f : MemForm) (op : Iss → List Nat) : Host.Outcome State Fault Refusal :=
  simt s o false noPre (memBody o f op) f.dst

/-! ### Order (R247-R251, R260) -/

/-- Whether an earlier access of a thread holds a later one back: an acquire, a release, one line or bank, or a read
before a write (R243, R246, R248). -/
def before (e : Op) (b : LaneAcc) (o : Op) (a : LaneAcc) : Bool :=
  e.threads b &&& o.threads a != 0 &&
  (e.acq || o.rel || (e.units b).any (fun u => (o.units a).contains u) || (e.kind.reads && o.kind.writes))

/-- The other core whose Bench a lane's access travels to over the mesh (R224, R225). -/
def Op.target (o : Op) (c : Nat) (a : LaneAcc) : Option Nat :=
  if o.remote then some (a.va.toNat / 2 ^ 24 % 256)
  else if isBench a.key && benchCore a.key != c then some (benchCore a.key) else none

/-- A bank serves the requests of a core's own lanes in the order in which they entered it, whichever threads made them (R226),
and two accesses that leave for one core arrive in the order they left (R8). A remote access to the issuing core goes out to
the router and back: it is an arrival (R16, R224). -/
def queuedBefore (c : Nat) (e : Op) (b : LaneAcc) (o : Op) (a : LaneAcc) : Bool :=
  e.bench && o.bench && (match e.target c b, o.target c a with
    | none, none => (e.units b).any (fun u => (o.units a).contains u)
    | some d, some f => d == f
    | _, _ => false)

/-- Whether a deposit is on its way to its core: neither there, nor refused and yet to leave again. -/
def State.travels (s : State) (d : Deposit) : Bool :=
  !d.held && d.status.isNone && (!d.refused || decide (d.retryAt ≤ s.clkOf d.srcCore))

/-- The cores between which a deposit, or its status, is on its way (R8). -/
def State.leg (s : State) (d : Deposit) : Option (Nat × Nat) :=
  if d.status.isSome then some (sendCore d.target, d.srcCore)
  else if s.travels d then some (d.srcCore, sendCore d.target)
  else none

/-- Whether a deposit or a status that left a core before a number was given out is still on its way to another core (R8). -/
def State.depositAhead (s : State) (c id : Nat) (dst : Option Nat) : Bool :=
  dst.any (fun d => s.deposits.any (fun e => decide (e.seq < id) && s.leg e == some (c, d)))

/-- Whether an access may be performed now. A result for a mailbox is a local write, which comes before the deposits of its clock
(R394). -/
def State.memReady (s : State) (c : Nat) (o : Op) (a : LaneAcc) : Bool :=
  !(o.dest.isBox && (s.wave c o.wave).boxNow (s.clkOf c)) &&
  !s.depositAhead c o.id (o.target c a) &&
  (s.core c).ops.all (fun e => !(decide (e.id < o.id) && e.kind.accesses) ||
    e.left.all (fun b => !(e.wave == o.wave && before e b o a) && !queuedBefore c e b o a))

/-- Whether earlier accesses of threads of a wave have not been performed: a release or a fence of theirs waits. -/
def State.unperformed (s : State) (c w : Nat) (m : Mask) (id : Nat) : Bool :=
  (s.core c).ops.any (fun e => e.wave == w && decide (e.id < id) && e.kind.accesses &&
    e.left.any (fun b => e.threads b &&& m != 0))

/-- Lanes that are performed together: one address of a store or atomic (R260), one word of a Bench load (R226). -/
def sameGroup (o : Op) (a b : LaneAcc) : Bool :=
  if o.remote then a.va == b.va
  else if o.kind == .load then (if o.bench then a.key / 4 == b.key / 4 else a.lane == b.lane)
  else a.key == b.key

/-- Whether an access is performed with another, in its group (R226, R260), or before it, as a lower lane of its instruction
at one bank (R226). -/
def Op.pulls (o : Op) (a b : LaneAcc) : Bool :=
  sameGroup o a b || (o.bench && decide (b.lane < a.lane) && (o.units a).any (fun u => (o.units b).contains u))

/-- Some accesses with all that must be performed with or before them; each round adds those that the last one calls for. -/
def Op.closure (o : Op) : Nat → List LaneAcc → List LaneAcc
  | 0, ls => ls
  | n + 1, ls =>
    let more := o.left.filter (fun b => ls.any (fun a => a.lane == b.lane || o.pulls a b))
    if more.length = ls.length then ls else o.closure n more

/-! ### Completion (R227, R290, R294, R301) -/

/-- The register words of a lane's bytes (R293). -/
def Op.laneWords (o : Op) (n : Nat) (bs : List Byte) : List Word :=
  let v := leWord bs
  wordsOf n (if o.signed then truncInt (intOf v (8 * o.size) true) 32 else v)

/-- The registers that a completed load or atomic writes. -/
def Op.results (o : Op) (n : Nat) : List VReg :=
  let bytes := fun (l : Nat) => match (if o.once then o.done.head? else o.done.find? (·.1 == l)) with
    | some d => d.2
    | none => []
  (List.range n).map (fun i => vbuild (fun l => nth (o.laneWords n (bytes l)) i 0))

/-- Registers of a destination. -/
def Dest.count : Dest → Nat
  | .vec _ ps => ps.length | .sca _ n => n | .mbox _ => 1 | _ => 0

/-- The reuse entry of a completed load (R276, R277, R279), while its lines are still in L1. A register that keeps earlier
values in lanes of threads that have ended is no result (R282, R444). -/
def State.addLoadEntry (s : State) (c : Nat) (o : Op) : State :=
  match o.key, o.dest with
  | some k, .vec _ ps =>
    let spans := (o.lanes.map (fun a => if o.bench then a.key / 128 * 128 else lineOf a.key)).eraseDups
    if o.active &&& ~~~(s.wave c o.wave).live = 0 ∧ (o.bench || spans.all (fun l => ((s.core c).line? l).isSome)) = true then
      s.reuseAdd c (sliceOf o.wave) {
        key := k, ctx := s.ctxOf (s.wave c o.wave), result := .regs ps,
        load := some { global := !o.bench, spans := spans, gens := o.gens
                       units := o.lanes.flatMap (fun a => (o.units a).map (fun u => (o.threads a, u))) } }
    else s
  | _, _ => s

/-- A fault that an access found after its instruction retired: the faulted threads go back to it (R290, R431). -/
def State.lateTrap (s : State) (c w : Nat) (t : Trap) : State :=
  let s := ((s.wave c w).waits.filter (fun v => v.lanes &&& t.again != 0)).foldl (fun s v => s.abandon c w v) s
  let s := s.modWave c w (fun x => x.goTo (t.again &&& x.live) (fun _ => t.pc))
  s.deliver c w { t with bundle := t.bundle &&& (s.wave c w).live }

/-- An operation whose every lane has been performed, has faulted or was refused: results, then its trap. Where other lanes
trip a watchpoint, the wave stops for that, and the faulted ones re-execute when it goes on (R457; log entry 43). -/
def State.finishMem (s : State) (c : Nat) (o : Op) : State :=
  let live := (s.wave c o.wave).live
  let got := if o.once then (if o.done.isEmpty then 0 else o.active)
    else maskOf (fun l => (o.done.map (·.1)).contains l)
  let access := if o.kind == .load then 0 else if o.kind == .store then 1 else 2
  let trap := (memTrap o.once access o.pc o.bundle o.active live o.faults).map (fun t =>
    { t with clk := o.clk, unheld := o.faults.any (fun f => o.far.getLsbD f.1 && f.2.2.1 == t.cause && f.2.2.2 == t.addr) })
  let trip := if s.armedFor (s.wave c o.wave) then
      watchTrap o.pc o.bundle (o.watch.filter (fun h => o.faults.all (fun f => f.1 != h.2.1)))
    else none
  let vals := o.results o.dest.count
  let s := if o.faults.isEmpty && o.refused = 0 then s.addLoadEntry c o else s
  let s := s.fillOp c { o with active := got } vals
  let s := if o.acq then s.advanceGen c o.wave else s
  let s := match o.dest with
    | .mbox n => if got &&& live = 0 then s else s.modWave c o.wave (fun x => x.setBox n (vlane (nth vals 0 vzero) 0))
    | _ => s
  let s := match (s.wave c o.wave).waits.find? (fun v => v.kind == .result o.id) with
    | some v => match trap with
      | some t =>
        if o.once then
          let s := s.dropWait c o.wave v
          s.trapNow (v.iss s c o.wave) t
        else State.endWaitWith c o.wave v { s := s, after := some (match trip with
          | some u => { u with again := t.again }
          | none => t) }
      | none => State.endWaitWith c o.wave v { s := s, after := trip }
    | none => match trap with
      | some t => s.lateTrap c o.wave t
      | none => s
  s.settleBoxes c o.wave

/-- Finish an operation when nothing of it is left: one whose wave has ended brings no result and no trap (R444); a refused one waits for its refusal to return (R224). -/
def State.finishIfDone (s : State) (c id : Nat) : State :=
  match (s.core c).ops.find? (·.id == id) with
  | some o =>
    if o.orphan.isSome then (if o.left.isEmpty then (s.dropRefusal c o).modCore c (fun k => { k with ops := k.ops.filter (·.id != o.id) }) else s)
    else if o.kind.accesses && o.left.isEmpty && o.refused == 0 then s.finishMem c o else s
  | none => s

/-- Perform lanes of an operation, with the lanes that are performed with or before them, as far as their order allows. -/
def State.performLanes (s : State) (c : Nat) (o : Op) (lanes : Mask) : State :=
  let grp := o.closure 32 (o.left.filter (fun a => lanes.getLsbD a.lane))
  let grp := grp.filter (fun b => (o.closure 32 [b]).all (fun d => s.memReady c o d))
  let s := grp.foldl (fun s a =>
    let (s, r) := s.performLane c o a
    s.modOp c o.id (fun p => p.note a r)) s
  s.finishIfDone c o.id

/-- An event about lanes of operations of some kind. -/
def memEvent (s : State) (c id : Nat) (f : State → Op → State) : Host.Outcome State Fault Refusal :=
  .next (match (s.core c).ops.find? (·.id == id) with
    | some o => f s o
    | none => s)

/-! ### PFCH (R231, R296) -/

/-- Pin a line for a team, within the limits of R231: a cluster team's lines count on all its cores. -/
def State.pinLine (s : State) (c t : Nat) (a : LaneAcc) : State × Bool :=
  let l := lineOf a.key
  match (s.core c).line? l with
  | none => (s, false)
  | some y =>
    let mine : Nat := ((s.team t).members.map (fun m => ((s.core m.core).l1.filter (fun z => z.pins.contains t)).length)).foldl (· + ·) 0
    let ways := ((s.core c).l1.filter (fun z => z.addr / 256 % 64 == l / 256 % 64 && !z.pins.isEmpty)).length
    if y.pins.contains t then (s, true)
    else if a.cpol ≠ 0 ∨ 16 ≤ mine ∨ (y.pins.isEmpty ∧ 4 ≤ ways) then (s, false)
    else (s.modCore c (fun k => { k with l1 := k.l1.map (fun z => if z.addr = l then { z with pins := t :: z.pins } else z) }), true)

/-- Prefetch a lane's line: `none` while it waits, else whether it is pinned. -/
def State.prefetchLane (s : State) (c : Nat) (o : Op) (a : LaneAcc) : State × Option Bool :=
  let x := s.wave c o.wave
  let ctx := s.ctxOf x
  let s := if a.sealed then s.sealLine c a.key else s
  match (if s.inL1 c (lineOf a.key) 256 then s.reach ctx a.key else s.atHome ctx a.key) with
  | some .wait => (s, none)
  | some _ => (s, some false)
  | none => if s.missWait (lineOf a.key) 256 && !s.inL1 c (lineOf a.key) 256 then (s, none)
    else match (if a.sealed then s.pageCheck ctx a.va.toNat a.key else .verified) with
    | .waiting => (s, none)
    | .bad => (s, some false)
    | .verified => match (s.touchMark a.sealed ctx a.va.toNat a.key).fillLine c (lineOf a.key) 0 256 (a.cpol == 2) with
      | none => (s, some false)
      | some s =>
        let s := if a.sealed then s.lineChecked c a.key else s
        if o.pin then (let r := s.pinLine c x.team a; (r.1, some r.2)) else (s, some false)

/-- A prefetch whose lines are placed or refused: its predicates are written. -/
def State.finishPrefetch (s : State) (c : Nat) (o : Op) : State :=
  let pinned := maskOf (fun l => o.done.any (fun d => d.1 == l && d.2 != [0]))
  let s := s.modCore c (fun k => { k with ops := k.ops.filter (fun e => e.id != o.id) })
  match o.dest with
  | .pred n => s.modWave c o.wave (fun x => x.setPred n (o.active &&& x.live) pinned)
  | _ => s

/-- The lanes that an event of a prefetch names fill their lines, and the last one ends it (R296). -/
def State.prefetchLanes (s : State) (c : Nat) (o : Op) (lanes : Mask) : State :=
  let s := (o.left.filter (fun a => lanes.getLsbD a.lane)).foldl (fun s a =>
    let (s, r) := s.prefetchLane c o a
    match r with
    | none => s
    | some b => s.modOp c o.id (fun p => { p with done := p.done ++ [(a.lane, [if b then 1 else 0])] })) s
  match (s.core c).ops.find? (·.id == o.id) with
  | some p => if p.left.isEmpty then s.finishPrefetch c p else s
  | none => s

/-- The body of `PFCH`: lanes that would fault, or whose page allocates no L1 line, fetch nothing. -/
def prefetchBody (o : Opnds) (f : MemForm) (s : State) (x : Iss) (act : Mask) : Except Stop Fx :=
  let opds := [{ fieldA o 2 with field := true }, { fieldB o with field := true }]
  match x.namesOk act opds with
  | .error e => .error e
  | .ok _ => match s.readOpds x act o opds with
    | .error e => .error e
    | .ok vs =>
      let pred := dclsOf o .none = .pred
      if pred && (s.pendingPreds x).contains o.d.toNat then .error .block
      else
        let idx := (nth vs 1 Src.none).nat
        let eas := (lanesOf act).map (fun l =>
          (l, memEa o false 1 ((nth vs 0 Src.none).nat l) (idx l), memBound o (idx l)))
        if eas.any (fun e => s.transWaits (.core x.c) x.ctx e.2.1) then .error .block
        else
        let (s, accs, _) := s.placeLanes x.c x.src.team x.ctx f eas
        let accs := accs.filter (fun a => a.cpol == 0 || a.cpol == 2)
        let (id, s) := s.newId
        let op : Op := {
          id := id, wave := x.w, kind := .prefetch, pc := x.pc, clk := x.clk, bundle := x.lanes, active := act, lanes := accs,
          pin := o.xm.getLsbD 12, dest := if pred then .pred o.d.toNat else .none }
        let s := s.modCore x.c (fun k => { k with ops := k.ops ++ [op] })
        .ok { s := if accs.isEmpty then s.finishPrefetch x.c op else s }

/-! ### LOAD (R292-R296) -/

/-- Access size and signedness of a size code (R293). -/
def sizeBytes : MSize → Nat
  | .b8 => 1 | .s8 => 1 | .b16 => 2 | .s16 => 2 | .b32 => 4 | .b64 => 8 | .b128 => 16
def sizeSigned : MSize → Bool
  | .s8 => true | .s16 => true | _ => false

def loadForm (z : MSize) (r : MOrd) (dst : DCls) : MemForm :=
  { kind := .load, use := .read, size := sizeBytes z, n := sizeRegs z, signed := sizeSigned z, acq := r == .sync,
    vol := r == .vol, dst := dst, reuse := r == .plain }

def execLd (o : Opnds) (z : MSize) (r : MOrd) (s : State) : Host.Outcome State Fault Refusal :=
  memory s o (loadForm z r .vec) (opItems (.ld o z r))
def execLdk (o : Opnds) (z : MSize) (s : State) : Host.Outcome State Fault Refusal :=
  memory s o { loadForm z .plain (dclsOf o .vec) with once := true } (opItems (.ldk o z))
def execLdb (o : Opnds) (z : MSize) (r : MOrd) (s : State) : Host.Outcome State Fault Refusal :=
  memory s o { loadForm z r .vec with bench := true } (opItems (.ldb o z r))
def execLdbc (o : Opnds) (z : MSize) (s : State) : Host.Outcome State Fault Refusal :=
  memory s o { loadForm z .plain (dclsOf o .sca) with bench := true, once := true, reuse := false } (opItems (.ldbc o z))
def execPfch (o : Opnds) (s : State) : Host.Outcome State Fault Refusal :=
  simt s o false noPre (prefetchBody o { kind := .prefetch, use := .read, size := 1 })

/-! ### STORE (R297, R298) -/

/-- The data operand of a store, named in `D`. -/
def dataOpd (o : Opnds) (n : Nat) (dflt : DCls) : Opd :=
  { pos := 3, cls := if dclsOf o dflt = .sca then .sca else .vec, name := o.d.toNat, ep := false, n := n }

def storeForm (o : Opnds) (z : MSize) (r : MOrd) (dflt : DCls) : MemForm :=
  { kind := .store, use := .write, size := sizeBytes z, rel := r == .sync, vol := r == .vol,
    data := [dataOpd o (sizeRegs z) dflt] }

/-- The operand fields of a store as a retiring instruction reads them: scalar data is one more source, so that data
from a mailbox counts as a read of it (R243). `B` and `C` of these forms are free to name it. -/
def storeOpnds (o : Opnds) (dflt : DCls) : Opnds :=
  if dclsOf o dflt ≠ .sca then o
  else match o.ext with
    | some e => { o with ext := some { e with cc := .sca, c := o.d } }
    | none => { o with cb := .sca, b := o.d }

def store (s : State) (o : Opnds) (dflt : DCls) (f : MemForm) : Host.Outcome State Fault Refusal :=
  simt s (storeOpnds o dflt) false noPre (memBody o f (fun _ => []))

def execSt (o : Opnds) (z : MSize) (r : MOrd) (s : State) : Host.Outcome State Fault Refusal :=
  store s o .vec (storeForm o z r .vec)
def execStb (o : Opnds) (z : MSize) (r : MOrd) (s : State) : Host.Outcome State Fault Refusal :=
  store s o .vec { storeForm o z r .vec with bench := true }
def execStr (o : Opnds) (z : MSize) (r : MOrd) (s : State) : Host.Outcome State Fault Refusal :=
  store s o .vec { storeForm o z r .vec with remote := true, bench := true }
def execSts (o : Opnds) (z : MSize) (r : MOrd) (s : State) : Host.Outcome State Fault Refusal :=
  store s o .sca { storeForm o z r .sca with once := true }

/-! ### ATOM (R299-R303) -/

def atomForm (o : Opnds) (op : BitVec 4) (r : AOrd) : MemForm :=
  let w := if o.xm.getLsbD 4 then 2 else 1
  { kind := .atomic, use := .atomic, size := 4 * w, n := w, acq := r.isAcq, rel := r.isRel, aop := op.toNat,
    w64 := o.xm.getLsbD 4, dst := dclsOf o .vec,
    data := [{ fieldC o (if op = 15 then 2 * w else w) with field := true }] }

def execAtom (o : Opnds) (op : BitVec 4) (r : AOrd) (s : State) : Host.Outcome State Fault Refusal :=
  memory s o (atomForm o op r) (fun _ => [])
def execAtb (o : Opnds) (op : BitVec 4) (r : AOrd) (s : State) : Host.Outcome State Fault Refusal :=
  memory s o { atomForm o op r with bench := true } (fun _ => [])
def execAtr (o : Opnds) (op : BitVec 4) (r : AOrd) (s : State) : Host.Outcome State Fault Refusal :=
  memory s o { atomForm o op r with bench := true, remote := true } (fun _ => [])
def execCas128 (o : Opnds) (r : AOrd) (s : State) : Host.Outcome State Fault Refusal :=
  memory s o { kind := .cas128, use := .atomic, size := 16, n := 4, acq := r.isAcq, rel := r.isRel, dst := .vec,
               data := [{ fieldC o 8 with field := true }] } (fun _ => [])

/-! ### FENCE (R250, R304) -/

/-- The path set of a fence, bit 5 CORE to bit 0 INGR; CORE alone with `L` = 0 (R242). -/
def fencePaths (o : Opnds) : BitVec 6 := match o.ext with | none => 0x20 | some e => e.xm.extractLsb' 10 6

def execFnc (o : Opnds) (sc : Scope) (s : State) : Host.Outcome State Fault Refusal :=
  simt s o false noPre (fun s x act =>
    let (id, s) := s.newId
    let op : Op := {
      id := id, wave := x.w, kind := .fence, pc := x.pc, clk := x.clk, bundle := x.lanes, active := act, scope := sc,
      paths := fencePaths o, hold := true }
    let s := s.modCore x.c (fun k => { k with ops := k.ops ++ [op] })
    .ok { s := s })

/-- The actions of a fence (R187, R250, R252). Where its path set joins CORE to an engine path that reads at the homes, the
core's dirty lines go home at every scope; WALK discards the copies kept near the Spindles of every core of its scope. -/
def State.fence (s : State) (c t : Nat) (sc : Scope) (paths : BitVec 6) : State :=
  let s := if !paths.getLsbD 5 then s
    else if s.wide t sc then (s.flushDirty c).invalidateClean c
    else if paths &&& 0x1F != 0 then s.flushDirty c else s
  if paths.getLsbD 3 then
    let cs := match sc with
      | .wave => [c]
      | .team => c :: ((s.team t).members.map (fun (m : Member) => m.core)).filter (fun d => d != c)
      | _ => List.range Config.cores
    cs.foldl (fun (s : State) d => s.modCore d (fun k => { k with sp := { k.sp with nodes := [], progs := [], descs := [] } })) s
  else s

/-- Whether a fence writes the core's dirty lines back (R250, R252). -/
def State.flushes (s : State) (t : Nat) (sc : Scope) (paths : BitVec 6) : Bool :=
  paths.getLsbD 5 && (s.wide t sc || paths &&& 0x1F != 0)

def execFenceCompletion (c op : Nat) (s : State) : Host.Outcome State Fault Refusal :=
  memEvent s c op (fun s o =>
    if o.kind != .fence || (o.paths.getLsbD 5 && s.unperformed c o.wave o.active o.id) ||
        (s.flushes (s.wave c o.wave).team o.scope o.paths && s.homesPending c) then s
    else
      let s := s.modCore c (fun k => { k with ops := k.ops.filter (fun e => e.id != o.id) })
      (s.fence c (s.wave c o.wave).team o.scope o.paths).advanceGen c o.wave)

/-! ### Events (R225, R227, R230, R235, R237, R298, R301, R224) -/

/-- The registers that a taken entry fills: a stage-queue entry across the lanes of each register (R398, R399), or a
completion entry a lane (R360). -/
def Op.popVals (o : Op) : List VReg :=
  (List.range o.dest.count).map (fun i => vbuild (fun l =>
    if o.kind == .sqpop then
      let e := match o.done with | d :: _ => d.2 | [] => []
      BitVec.ofNat 32 (leWord ((e.drop (128 * i + 4 * l)).take 4))
    else match o.done.find? (fun d => d.1 == l) with
      | some d => BitVec.ofNat 32 (leWord ((d.2.drop (4 * i)).take 4))
      | none => 0))

def execLoadCompletion (c op : Nat) (lanes : Mask) (s : State) : Host.Outcome State Fault Refusal :=
  memEvent s c op (fun s o =>
    if o.kind == .load then s.performLanes c o lanes
    else if o.kind == .prefetch then s.prefetchLanes c o lanes
    else if o.kind == .sqpop || o.kind == .cqpop then s.fillOp c o o.popVals else s)

def execStoreWritePerform (c op : Nat) (lanes : Mask) (s : State) : Host.Outcome State Fault Refusal :=
  memEvent s c op (fun s o => if o.kind == .store && !o.remote then s.performLanes c o lanes else s)

def execAtomicCompletion (c op : Nat) (lanes : Mask) (s : State) : Host.Outcome State Fault Refusal :=
  memEvent s c op (fun s o =>
    if (o.kind == .atomic || o.kind == .cas128) && !o.remote then s.performLanes c o lanes else s)

def execRemoteBenchArrival (c op : Nat) (lanes : Mask) (s : State) : Host.Outcome State Fault Refusal :=
  memEvent s c op (fun s o => if o.remote then s.performLanes c o lanes else s)

/-- A refusal returns to the issuing wave, in the order of issue (R224). -/
def execRemoteBenchRefusal (c op : Nat) (s : State) : Host.Outcome State Fault Refusal :=
  memEvent s c op (fun s o =>
    let first := (s.core c).ops.all (fun e => !(e.wave == o.wave && decide (e.id < o.id) && e.remote && (e.refused != 0 || !e.left.isEmpty)))
    if o.refused = 0 ∨ !o.left.isEmpty ∨ !first then s
    else
      let gone := (s.wave c o.wave).isOver
      let s := s.finishMem c o
      if gone then s.dropRefusal c o
      else s.sendAsync c o.wave { cause := .remoteBench, cls := clsB, mask := o.refused, addr := o.refusedVa })

/-- An L1 line goes home, and leaves when it is evicted and not pinned (R229, R230). -/
def execL1WriteBack (c line : Nat) (evict : Bool) (s : State) : Host.Outcome State Fault Refusal :=
  .next (match (s.core c).line? line with
    | none => s
    | some y => if evict && y.pins.isEmpty then s.dropLine c line else s.writeBack c line)

/-- L2 writes a line back to GDDR 7 in its stored format (R233, R235). -/
def execLineWriteBack (line : Nat) (s : State) : Host.Outcome State Fault Refusal := .next (s.l2Clean line)

/-- The home slices verify a page of a sealed region, once all that its check reads can be read (R237, R425, R453, R474). -/
def execPageVerification (region page : Nat) (s : State) : Host.Outcome State Fault Refusal :=
  .next (match FMap.get s.sealed region with
    | none => s
    | some r =>
      if r.pages ≤ page then s
      else if s.verifyWaits r page then s else s.verifyPage region r page)

end Sys2Proof.Machine
end

