-- ==== Sys2Proof/Machine/Copy.lean ====
section
/-! DEFINITION. The copy unit: job records (R306), the COPY major (R307, R309, R313), byte barriers as Bench objects
(R382), and the unit's service, landing, completion and suspension (R308, R310-R312). -/
namespace Sys2Proof.Machine

/-! ### Byte barriers (R382) -/

/-- A byte barrier. -/
structure ByteBar where
  pend : Int := 0
  arrv : Nat := 0
  sense : Bool := false
  susp : Bool := false
  srec : Nat := 0
  expa : Nat := 0
  deriving DecidableEq, Repr

def ByteBar.ofBytes (bs : List Byte) : ByteBar :=
  { pend := intOf (fieldAt bs 0 6) 48 true, arrv := fieldAt bs 6 2, sense := fieldAt bs 8 1 % 2 == 1,
    susp := fieldAt bs 8 1 / 2 % 2 == 1, srec := fieldAt bs 10 2 % 2 ^ 13, expa := fieldAt bs 12 2 }

def ByteBar.bytes (b : ByteBar) : List Byte :=
  leBytes 6 (truncInt b.pend 48) ++ leBytes 2 b.arrv ++
  leBytes 1 ((if b.sense then 1 else 0) + if b.susp then 2 else 0) ++ leBytes 1 0 ++ leBytes 2 b.srec ++
  leBytes 2 b.expa ++ leBytes 2 0

/-- The completion of a phase, in the access that brings it about. -/
def ByteBar.settled (b : ByteBar) : ByteBar :=
  if b.arrv = 0 ∧ b.pend = 0 then { b with sense := !b.sense, arrv := b.expa } else b

def State.bbGet (s : State) (k : Nat) : ByteBar := .ofBytes (Memory.readBytes s.mem k 16)
/-- Write Bench bytes for any client (R277, R451). -/
def State.benchWrite (s : State) (k : Nat) (bs : List Byte) : State := ((s.homeWrite k bs).1).writeKills 0 k bs.length
/-- Change a byte barrier as one access. -/
def State.bbPut (s : State) (k : Nat) (b : ByteBar) : State := s.benchWrite k b.settled.bytes

/-! ### Job records (R306) -/

/-- The fields of a record. -/
structure CopyRec where
  maddr : DWord
  baddr : Nat
  iaddr : Nat
  bbar : Nat
  rowb : Nat
  count : Nat
  limit : Nat
  cursor : Nat
  kind : Nat
  status : Nat
  events : Nat
  deriving DecidableEq, Repr

def CopyRec.ofBytes (bs : List Byte) : CopyRec :=
  { maddr := BitVec.ofNat 64 (fieldAt bs 0 8), baddr := fieldAt bs 8 2, iaddr := fieldAt bs 10 2, bbar := fieldAt bs 12 2,
    rowb := fieldAt bs 14 2, count := fieldAt bs 16 4, limit := fieldAt bs 20 4, cursor := fieldAt bs 24 4,
    kind := fieldAt bs 28 1, status := fieldAt bs 29 1, events := fieldAt bs 31 1 }

def CopyRec.inUse (r : CopyRec) : Bool := r.status == 1 || r.status == 3
/-- Kind, bound mode and swizzle code of `KIND`. -/
def CopyRec.kd (r : CopyRec) : Nat := r.kind % 8
def CopyRec.bm (r : CopyRec) : Nat := r.kind / 8 % 4
def CopyRec.sw (r : CopyRec) : Nat := r.kind / 32 % 8

/-- The swizzle span of a code; 16 without a swizzle (R308). -/
def swzSpan (code : Nat) : Nat := 16 * 2 ^ code

/-- Whether bytes of a team's Bench lie within its Bench bytes per team (R223). -/
def State.inBench (s : State) (t off n : Nat) : Bool := decide (off + n ≤ (s.team t).bench)

/-- Step 3 of R309: the first failure of a record's fields, with its item in the order of R290; ILLEGAL_OPERAND, which
R290 does not list, comes first (log entry 20). A resumed record's bound mode 3 and swizzle codes 5 to 7 fail it too (log entry 97). -/
def State.recordFault (s : State) (t : Nat) (r : CopyRec) (queued : Bool) : Option (Nat × Cause) :=
  let rows := r.kd == 2 || r.kd == 3
  let data := if rows then r.count * r.rowb else r.count
  if 3 < r.kd ∨ r.bm = 3 ∨ 4 < r.sw ∨ 2 ^ 14 ≤ r.baddr ∨ 2 ^ 14 ≤ r.bbar ∨ (queued ∧ !rows ∧ r.bm ≠ 0) then
    some (0, .illegalOperand)
  else if rows ∧ (r.rowb = 0 ∨ r.rowb % 16 ≠ 0) then some (1, .indexRange)
  else if !rows ∧ r.count % 16 ≠ 0 then some (1, .indexRange)
  else if r.maddr.toNat % 16 ≠ 0 ∨ 16 * r.baddr % swzSpan r.sw ≠ 0 then some (2, .misaligned)
  else if !s.inBench t (16 * r.baddr) data || (rows && !s.inBench t (4 * r.iaddr) (4 * r.count)) ||
    !s.inBench t (16 * r.bbar) 16 then some (3, .benchRange)
  else none

def State.recKey (s : State) (c t rec_ : Nat) : Nat := s.benchAt t c rec_
def State.recGet (s : State) (c t rec_ : Nat) : CopyRec := .ofBytes (Memory.readBytes s.mem (s.recKey c t rec_) 32)
/-- Whether a word of a record, of those at some offsets of it, is poisoned: its reader takes UNCORRECTABLE (R309, R451). -/
def State.recPoison (s : State) (c t rec_ : Nat) (offs : List Nat) : Bool :=
  offs.any (fun o => (s.homeRead (s.recKey c t rec_ + o) 4).isNone)
/-- Words of a record that a start instruction reads: `STATUS` for its check, and the program-written fields, `CPYQ`'s with `MADDR`
and `COUNT` (R309 steps 1 and 2). -/
def startReads (queued : Bool) : List Nat := [28, 8, 12, 20] ++ (if queued then [0, 4, 16] else [])
/-- Write `n` bytes of a record at an offset of it. -/
def State.recPut (s : State) (c t rec_ off : Nat) (bs : List Byte) : State := s.benchWrite (s.recKey c t rec_ + off) bs

/-- `CPYR` and `CPYX` of the record that a barrier's `SREC` names clear its `SUSP` (R382). -/
def State.unsuspend (s : State) (c t rec_ : Nat) (r : CopyRec) : State :=
  let k := s.benchAt t c (16 * (r.bbar % 2 ^ 14))
  let b := s.bbGet k
  if s.inBench t (16 * (r.bbar % 2 ^ 14)) 16 && (s.homeRead k 16).isSome && b.susp && b.srec == rec_ / 32 then s.bbPut k { b with susp := false } else s

/-! ### Slots and starts (R309, R313) -/

/-- Lowest free job slot of a core's 16. -/
def Core.freeJob (k : Core) : Option Nat := (List.range 16).find? (fun i => (FMap.get k.copies i).isNone)

/-- Queue a job that the record describes. -/
def State.queueJob (s : State) (c t ctx rec_ slot : Nat) (r : CopyRec) : State :=
  let (id, s) := s.newId
  let rows := r.kd == 2 || r.kd == 3
  let job : CopyJob := {
    recOff := rec_, team := t, member := (s.team t).memberOf c, ctx := ctx, kind := r.kd,
    bound := (Bound.ofCode (BitVec.ofNat 2 r.bm)).getD .none, swz := (Swz.ofCode (BitVec.ofNat 3 r.sw)).getD .none,
    maddr := r.maddr, count := r.count, baddr := r.baddr, iaddr := r.iaddr, bbar := r.bbar, rowb := r.rowb,
    limit := r.limit, cursor := r.cursor, events := r.events, stamp := id,
    next := if rows then r.cursor else r.cursor / 256 }
  s.modCore c (fun k => { k with copies := FMap.set k.copies slot job, copyTurn := k.copyTurn ++ [slot] })

/-- What one lane's request comes to. -/
inductive ReqRes where
  | started
  | full
  | fault (item : Nat) (c : Cause)
  deriving DecidableEq, Repr

/-- The record-offset checks of R309 step 1. -/
def State.recOffset (s : State) (t rec_ : Nat) : Option (Nat × Cause) :=
  if rec_ % 32 ≠ 0 then some (2, .misaligned)
  else if 2 ^ 18 ≤ rec_ ∨ !s.inBench t rec_ 32 then some (3, .benchRange)
  else none

/-- Resume the job of a suspended record (R313). -/
def State.resumeReq (s : State) (c t ctx rec_ : Nat) : State × ReqRes :=
  let r := s.recGet c t rec_
  if s.recPoison c t rec_ [28] then (s, .fault 8 .uncorrectable)
  else if r.status ≠ 3 then (s, .started)
  else match (s.core c).freeJob with
    | none => (s, .full)
    | some i => match (if s.recPoison c t rec_ [0, 4, 8, 12, 16, 20, 24] then some (8, Cause.uncorrectable) else s.recordFault t r false) with
      | some e => (s, .fault e.1 e.2)
      | none =>
        let s := (s.unsuspend c t rec_ r).recPut c t rec_ 29 (leBytes 1 1 ++ leBytes 1 0)
        (s.queueJob c t ctx rec_ i r, .started)

/-- One lane of a start or resume instruction (R309, R313). `made`: records that it has started. -/
def State.copyReq (s : State) (c t ctx : Nat) (q : CopyReq) (made : List Nat) : State × ReqRes :=
  match s.recOffset t q.rec_ with
  | some e => (s, .fault e.1 e.2)
  | none =>
    if q.resume then s.resumeReq c t ctx q.rec_
    else
      let r0 := s.recGet c t q.rec_
      if made.contains q.rec_ then (s, .fault 0 .illegalOperand)
      else if s.recPoison c t q.rec_ [28] then (s, .fault 8 .uncorrectable)
      else if r0.inUse then (s, .fault 0 .illegalOperand)
      else if s.recPoison c t q.rec_ (startReads q.given.isNone) then (s, .fault 8 .uncorrectable)
      else
        let r := match q.given with
          | some g => { r0 with maddr := g.1, count := g.2, kind := q.kind }
          | none => { r0 with kind := r0.kd + q.kind }
        match s.recordFault t r q.given.isNone with
        | some e => (s, .fault e.1 e.2)
        | none =>
          let put := fun (s : State) (status : Nat) =>
            let s := if q.given.isNone then s
              else (s.recPut c t q.rec_ 0 (leBytes 8 r.maddr.toNat)).recPut c t q.rec_ 16 (leBytes 4 r.count)
            s.recPut c t q.rec_ 24 (leBytes 4 0 ++ leBytes 1 r.kind ++ leBytes 1 status ++ leBytes 1 0 ++ leBytes 1 0)
          if r.count = 0 then (put s 2, .started)
          else match (s.core c).freeJob with
            | none => (s, .full)
            | some i => ((put s 1).queueJob c t ctx q.rec_ i { r with cursor := 0, events := 0 }, .started)

/-- Serve requests in lane order until one finds no slot: what is left, the records started and the faults. -/
def State.copyReqs (s : State) (c t ctx : Nat) (made : List Nat) (fs : List (Nat × Nat × Cause × DWord)) :
    List CopyReq → State × List CopyReq × List Nat × List (Nat × Nat × Cause × DWord)
  | [] => (s, [], made, fs)
  | q :: r => match s.copyReq c t ctx q made with
    | (s, .started) => s.copyReqs c t ctx (if q.resume then made else q.rec_ :: made) fs r
    | (s, .full) => (s, q :: r, made, fs)
    | (s, .fault i e) => s.copyReqs c t ctx made (fs ++ [(q.lane, i, e, BitVec.ofNat 64 q.rec_)]) r

/-- The trap of the faulted lanes of a copy instruction (R309). -/
def copyTrap (x : Iss) (fs : List (Nat × Nat × Cause × DWord)) : Option Trap :=
  (worstFault fs).map (fun f => x.faulted f.2.2.1 (maskOf (fun l => (fs.map (·.1)).contains l)) f.2.2.2)

/-- Run the requests of a copy instruction; the bundle waits while lanes lack slots. -/
def State.copyIssue (s : State) (x : Iss) (qs : List CopyReq) : Except Stop Fx :=
  let (s, left, made, fs) := s.copyReqs x.c x.src.team x.ctx [] [] qs
  if left.isEmpty then .ok { s := s, after := copyTrap x fs } else .error (.wait s (.copy left made fs))

/-- The body of a COPY form: `mk` makes a lane's request of its `A`, `B` and `C`. -/
def copyBody (o : Opnds) (hasA : Bool) (mk : Nat → Nat → Nat → Nat → CopyReq) (s : State) (x : Iss) (act : Mask) : Except Stop Fx :=
  let opds := (if hasA then [fieldA o 2] else []) ++ [fieldB o] ++ (if hasA then [fieldC o] else [])
  match x.namesOk act opds with
  | .error e => .error e
  | .ok _ => match s.readOpds x act o opds with
    | .error e => .error e
    | .ok vs =>
      if s.unperformed x.c x.w act s.fresh then .error .block
      else
        let a := if hasA then (nth vs 0 Src.none).nat else fun _ => 0
        let b := (nth vs (if hasA then 1 else 0) Src.none).nat
        let n := if hasA then (nth vs 2 Src.none).nat else fun _ => 0
        s.copyIssue x ((lanesOf act).map (fun l => mk l (a l) (b l) (n l)))

/-- The bound and swizzle part of `KIND` (R306). -/
def kindBits (bm : Bound) (w : Swz) : Nat := 8 * bm.code.toNat + 32 * w.code.toNat

def startReq (kind : Nat) : Nat → Nat → Nat → Nat → CopyReq := fun l a b n =>
  { lane := l, rec_ := b, given := some (BitVec.ofNat 64 a, n), kind := kind }

def execCpy (o : Opnds) (w : Swz) (s : State) : Host.Outcome State Fault Refusal :=
  simt s o false noPre (copyBody o true (startReq ((if o.xm.getLsbD 0 then 1 else 0) + kindBits .none w)))
def execCpyg (o : Opnds) (bm : Bound) (w : Swz) (s : State) : Host.Outcome State Fault Refusal :=
  simt s o false noPre (copyBody o true (startReq (2 + kindBits bm w)))
def execCpys (o : Opnds) (bm : Bound) (w : Swz) (s : State) : Host.Outcome State Fault Refusal :=
  simt s o false noPre (copyBody o true (startReq (3 + kindBits bm w)))
def execCpyq (o : Opnds) (bm : Bound) (w : Swz) (s : State) : Host.Outcome State Fault Refusal :=
  simt s o false noPre (copyBody o false (fun l _ b _ => { lane := l, rec_ := b, kind := kindBits bm w }))
def execCpyr (o : Opnds) (s : State) : Host.Outcome State Fault Refusal :=
  simt s o false noPre (copyBody o false (fun l _ b _ => { lane := l, rec_ := b, resume := true }))

/-- The slot of the job of a record. -/
def State.jobOf (s : State) (c t rec_ : Nat) : Option (Nat × CopyJob) :=
  (s.core c).copies.find? (fun (e : Nat × CopyJob) => e.2.team == t && e.2.recOff == rec_)

def State.freeSlot (s : State) (c i : Nat) : State :=
  s.modCore c (fun k => { k with copies := FMap.erase k.copies i, copyTurn := k.copyTurn.filter (· != i) })

/-- The fault of `CPYX` for a record: its offset's, or a word that it reads is poisoned (R309, R313, R451). -/
def State.cancelFault (s : State) (c t rec_ : Nat) : Option (Nat × Cause) :=
  match s.recOffset t rec_ with
  | some e => some e
  | none => if s.recPoison c t rec_ [28] || ((s.recGet c t rec_).inUse && s.recPoison c t rec_ [12]) then some (8, .uncorrectable) else none

/-- `CPYX` of one record (R313). -/
def State.cancelCopy (s : State) (c t rec_ : Nat) : State :=
  let r := s.recGet c t rec_
  if !r.inUse then s
  else
    let s := match s.jobOf c t rec_ with
      | some (i, j) => ((s.recPut c t rec_ 24 (leBytes 4 j.cursor)).recPut c t rec_ 31 (leBytes 1 j.events)).freeSlot c i
      | none => s
    (s.recPut c t rec_ 29 (leBytes 1 4)).unsuspend c t rec_ r

def execCpyx (o : Opnds) (s : State) : Host.Outcome State Fault Refusal :=
  simt s o false noPre (fun s x act =>
    match x.namesOk act [fieldB o] with
    | .error e => .error e
    | .ok _ => match s.readOpds x act o [fieldB o] with
      | .error e => .error e
      | .ok vs =>
        if s.unperformed x.c x.w act s.fresh then .error .block
        else
          let b := (nth vs 0 Src.none).nat
          let fs := (lanesOf act).filterMap (fun l =>
            (s.cancelFault x.c x.src.team (b l)).map (fun e => (l, e.1, e.2, BitVec.ofNat 64 (b l))))
          let s := (lanesOf act).foldl (fun s l =>
            if (s.cancelFault x.c x.src.team (b l)).isNone then s.cancelCopy x.c x.src.team (b l) else s) s
          .ok { s := s, after := copyTrap x fs })

/-- The waiting copy instruction of a core that issued first. -/
def State.copyWaiter (s : State) (c : Nat) : Option (Nat × Wait) :=
  let ws := (s.core c).waves.flatMap (fun (e : Nat × Wave) => (e.2.waits.filter (fun v => match v.kind with
    | .copy _ _ _ => true
    | _ => false)).map (fun v => (e.1, e.2.lastIssue, v)))
  (ws.foldl (fun (m : Option (Nat × Nat × Wait)) e => match m with
    | none => some e
    | some b => if e.2.1 < b.2.1 then some e else m) none).map (fun e => (e.1, e.2.2))

/-- A job of a restored team that waits for a slot takes it (R438, log entry 40). -/
def State.unpark (s : State) (c i : Nat) : State :=
  match (s.core c).copies.find? (fun (e : Nat × CopyJob) => decide (16 ≤ e.1)) with
  | none => s
  | some e => s.modCore c (fun k => { k with
      copies := FMap.set (FMap.erase k.copies e.1) i e.2, copyTurn := k.copyTurn ++ [i] })

/-- A freed slot goes to a restored job, then to the copy instruction that has waited longest, else to a job that the host
resumes (R309, R414). -/
def execCopySlotGrant (c : Nat) (s : State) : Host.Outcome State Fault Refusal :=
  .next (
    match (s.core c).freeJob with
    | none => s
    | some i => if (s.core c).copies.any (fun (e : Nat × CopyJob) => decide (16 ≤ e.1)) then s.unpark c i
    else match s.copyWaiter c with
      | some (w, v) =>
        let x := v.iss s c w
        (match v.kind with
          | .copy left made fs =>
            let (s, left, made, fs) := s.copyReqs c x.src.team x.ctx made fs left
            if left.isEmpty then State.endWaitWith c w v { s := s, after := copyTrap x fs }
            else s.modWave c w (fun y => { y with waits := y.waits.map (fun u =>
              if u = v then { u with kind := .copy left made fs } else u) })
          | _ => s)
      | none => match s.heldFaults.find? (fun h => h.client == 1 && h.core == c && h.replied && !(s.team h.team).isSaved) with
        | some h =>
          let s := { s with heldFaults := s.heldFaults.filter (fun g => g.fid != h.fid) }
          (s.resumeReq c h.team h.ctx (32 * h.who)).1
        | none => s)

/-! ### Serving units (R308, R310, R311) -/

/-- Units of a job and bytes of a unit. -/
def CopyJob.rows (j : CopyJob) : Bool := j.kind == 2 || j.kind == 3
def CopyJob.units_ (j : CopyJob) : Nat := if j.rows then j.count else ceilDiv j.count 256
def CopyJob.unitBytes (j : CopyJob) (u : Nat) : Nat := if j.rows then j.rowb else min 256 (j.count - 256 * u)
/-- Whether the data goes into Bench. -/
def CopyJob.into (j : CopyJob) : Bool := j.kind == 0 || j.kind == 2

/-- Bench offset of byte `o` of unit `u`, a multiple of 16 (R308). -/
def CopyJob.benchOff (j : CopyJob) (u o : Nat) : Nat :=
  let span := swzSpan j.swz.code.toNat
  let p := if j.rows then j.rowb * u + o else 256 * u + o
  let r := if j.rows then u else p / 256
  16 * j.baddr + (p ^^^ (16 * (r % (span / 16))))

/-- What moving 16-byte pieces comes to. -/
inductive MoveRes where
  | ok
  | wait
  /-- `far`: the partner's side answered with it (R422). -/
  | fault (c : Cause) (va : DWord) (far : Bool := false)
  deriving DecidableEq, Repr

/-- The bytes of 16-byte pieces of Bench, or the number of the first that is poisoned (R451). -/
def State.benchPieces (s : State) : List Nat → Except Nat (List Byte)
  | [] => .ok []
  | k :: r => match s.homeRead k 16, s.benchPieces r with
    | none, _ => .error 0
    | some _, .error i => .error (i + 1)
    | some bs, .ok rest => .ok (bs ++ rest)

/-- Write bytes into Bench, 16 at a piece. -/
def State.putPiecesAt (s : State) (bs : List Byte) : List Nat → State
  | [] => s
  | k :: r => (s.benchWrite k (bs.take 16)).putPiecesAt (bs.drop 16) r

/-- Move the pieces at Bench keys `bks` and at a memory address, which lie in one line, as one access of its home (R234, R311). -/
def State.movePiece (s : State) (c ctx : Nat) (into : Bool) (bks : List Nat) (va : DWord) : State × MoveRes :=
  let n := 16 * bks.length
  if s.transWaits (.core c) ctx va then (s, .wait)
  else match s.place (.core c) ctx va (if into then .read else .write) with
  | (s, .error (_, e)) => (s, .fault e va)
  | (s, .ok p) =>
    match s.atHome ctx p.key with
    | some .wait => (s, .wait)
    | some (.fault e far) => (s, .fault e va far)
    | _ =>
      if into then
        match (if p.sealed then s.pageCheck ctx va.toNat p.key else .verified) with
        | .waiting => (s, .wait)
        | .bad => (s, .fault .integrity va)
        | .verified =>
          if s.missWait p.key n then (s, .wait)
          else
            let s := (s.touchMark p.sealed ctx va.toNat p.key).l2Use p.key n p.cpol
            match s.homeRead p.key n with
            | none => (s, .fault .uncorrectable va)
            | some bs => (s.putPiecesAt bs bks, .ok)
      else match s.benchPieces bks with
        | .error i => (s, .fault .uncorrectable (va + BitVec.ofNat 64 (16 * i)))
        | .ok bs =>
          let s := (s.pushHome c p.key).writeKills c p.key n
          match s.homeWrite p.key bs with
          | (s, true) => (s.l2Use p.key n p.cpol, .ok)
          | (s, false) => (s, .fault .uncorrectable va)

/-- Move `n` pieces of unit `u` of a job from byte offset `o` on, line by line, at most `fuel` lines. -/
def State.moveLines (s : State) (c : Nat) (j : CopyJob) (u : Nat) (va : DWord) : Nat → Nat → Nat → State × MoveRes
  | 0, _, _ => (s, .ok)
  | fuel + 1, n, o =>
    if n = 0 then (s, .ok)
    else
      let a := va + BitVec.ofNat 64 o
      let m := min n ((256 - a.toNat % 256) / 16)
      match s.movePiece c j.ctx j.into ((List.range m).map (fun i => s.benchAt j.team c (j.benchOff u (o + 16 * i)))) a with
      | (s, .ok) => s.moveLines c j u va fuel (n - m) (o + 16 * m)
      | r => r

/-- Move the pieces of unit `u` of a job from byte offset `o` on, `n` of them. -/
def State.movePieces (s : State) (c : Nat) (j : CopyJob) (u : Nat) (va : DWord) (n o : Nat) : State × MoveRes :=
  s.moveLines c j u va n n o

/-- Write `n` zero pieces of a clamped row. -/
def State.zeroPieces (s : State) (c : Nat) (j : CopyJob) (u : Nat) : Nat → Nat → State
  | 0, _ => s
  | n + 1, o => (s.benchWrite (s.benchAt j.team c (j.benchOff u o)) (List.replicate 16 0)).zeroPieces c j u n (o + 16)

/-- The index word of a row, through the group that the job read last (R310); `none` for one that was poisoned (R451). -/
def State.indexOf (s : State) (c : Nat) (j : CopyJob) (u : Nat) : CopyJob × Option Nat :=
  let a := 4 * j.iaddr + 4 * u
  let g := a / 32 * 32
  let j := match j.group with
    | some (q, _) => if q = g then j else { j with group := none }
    | none => j
  let k := s.benchAt j.team c g
  let ws := match j.group with
    | some (_, ws) => ws
    | none => (List.range 8).map (fun i => (s.homeRead (k + 4 * i) 4).map (fun bs => (BitVec.ofNat 32 (leWord bs) : Word)))
  ({ j with group := some (g, ws) }, (nth ws (a % 32 / 4) none).map (·.toNat))

/-- Put a job back into its slot. -/
def State.setJob (s : State) (c i : Nat) (j : CopyJob) : State := s.modCore c (fun k => { k with copies := FMap.set k.copies i j })

/-- Serve unit `j.next` of the job in slot `i`. -/
def State.serveUnit (s : State) (c i : Nat) (j : CopyJob) : State :=
  let u := j.next
  let n := j.unitBytes u
  let served := fun (s : State) (j : CopyJob) =>
    s.setJob c i { j with next := u + 1, units := j.units ++ [{ u := u, bytes := n }] }
  let failed := fun (s : State) (j : CopyJob) (e : Cause) (va : DWord) => s.setJob c i { j with failing := some (e, va) }
  let move := fun (s : State) (j : CopyJob) (va : DWord) => match s.movePieces c j u va (n / 16) 0 with
    | (s, .ok) => served s j
    | (s, .wait) => s.setJob c i j
    | (s, .fault e a far) => failed s { j with far := far } e a
  if !j.rows then move s j (j.maddr + BitVec.ofNat 64 (256 * u))
  else match s.indexOf c j u with
    | (j, none) => failed s j .uncorrectable (BitVec.ofNat 64 (4 * j.iaddr + 4 * u))
    | (j, some idx) =>
      let va := j.maddr + BitVec.ofNat 64 (j.rowb * idx)
      if idx < j.limit ∨ j.bound = .none then move s j va
      else if j.bound = .fault then failed s j .indexRange va
      else
        let t := s.team j.team
        let s := s.traceRec {
          kind := 5, core := c, phase := (s.launch t.launch).tracePhase, who := s.slotOn c j.team * 256, ctx := j.ctx,
          pay := leBytes 8 j.maddr.toNat ++ leBytes 2 (j.recOff / 32) ++ leBytes 2 u }
        let s := if j.kind = 2 then s.zeroPieces c j u (n / 16) 0 else s
        served s { j with events := min 255 (j.events + 1) }

/-- Whether a team's copy jobs start no further unit: it is saved, or it is to be and its waves have come to their boundaries (R438
steps 1 and 3). -/
def State.jobsStop (s : State) (t : Nat) : Bool :=
  ((s.team t).saving && (s.teamWaves t).all (fun y => (s.wave y.1 y.2).atBoundary)) || (s.team t).saved.any (fun v => v.area)

/-- The copy unit serves the next job in turn that has a unit to start. -/
def execCopyUnitServe (c : Nat) (s : State) : Host.Outcome State Fault Refusal :=
  .next (
    let ready := fun (i : Nat) => (FMap.get (s.core c).copies i).any (fun j => j.failing.isNone && decide (j.next < j.units_) &&
      !s.jobsStop j.team)
    match (s.core c).copyTurn.find? ready with
    | none => s
    | some i => match FMap.get (s.core c).copies i with
      | none => s
      | some j => (s.modCore c (fun k => { k with copyTurn := k.copyTurn.filter (· != i) ++ [i] })).serveUnit c i j)

/-! ### Landing (R311, R312) -/

/-- Units counted once they and every unit before them have landed: the units left, the cursor and the bytes of each counted. -/
def countUnits (rows : Bool) : List CopyUnit → Nat → List CopyUnit × Nat × List Nat
  | [], cur => ([], cur, [])
  | u :: r, cur =>
    if u.landed then
      let x := countUnits rows r (cur + if rows then 1 else u.bytes)
      (x.1, x.2.1, u.bytes :: x.2.2)
    else (u :: r, cur, [])

/-- Each counted unit takes its bytes off the barrier, one after the other (R311, R382). -/
def State.countDown (s : State) (k : Nat) (ns : List Nat) : State :=
  ns.foldl (fun s n => s.bbPut k { s.bbGet k with pend := (s.bbGet k).pend - n }) s

/-- Whether a byte barrier can be read: no word of it is poisoned. A job whose barrier is not suspends (R312, R451). -/
def State.barrierOk (s : State) (k : Nat) : Bool := (s.homeRead k 16).isSome

/-- A job whose units are all counted is done (R311). -/
def State.jobDone (s : State) (c i : Nat) (j : CopyJob) : State :=
  ((s.recPut c j.team j.recOff 24 (leBytes 4 j.count)).recPut c j.team j.recOff 31 (leBytes 1 j.events)
    |>.recPut c j.team j.recOff 29 (leBytes 1 2)).freeSlot c i

def execCopyUnitLanded (c job unit : Nat) (s : State) : Host.Outcome State Fault Refusal :=
  .next (match FMap.get (s.core c).copies job with
    | none => s
    | some j =>
      let landed := j.units.map (fun x => if x.u = unit then { x with landed := true } else x)
      let (us, cur, ns) := countUnits j.rows landed j.cursor
      let k := s.benchAt j.team c (16 * j.bbar)
      if !ns.isEmpty && !s.barrierOk k then
        s.setJob c job { j with
          units := if landed.all (·.landed) then [] else landed
          failing := some (j.failing.getD (.uncorrectable, BitVec.ofNat 64 (16 * j.bbar))) }
      else
        let j := { j with units := us, cursor := cur }
        let s := (s.setJob c job j).countDown k ns
        if us.isEmpty && j.failing.isNone && j.next == j.units_ then s.jobDone c job j else s)

/-- Suspend a job whose writes in flight have landed (R312), with its fault record (R415); a replayable one is held
(R414). -/
def State.suspendJob (s : State) (c i : Nat) (j : CopyJob) (e : Cause) (va : DWord) : State :=
  let k := s.benchAt j.team c (16 * j.bbar)
  let s := if s.barrierOk k then s.bbPut k { s.bbGet k with susp := true, srec := j.recOff / 32 } else s
  let s := s.recPut c j.team j.recOff 24 (leBytes 4 j.cursor)
  let s := s.recPut c j.team j.recOff 31 (leBytes 1 j.events)
  let s := s.recPut c j.team j.recOff 30 (leBytes 1 (Cause.num e))
  let s := (s.recPut c j.team j.recOff 29 (leBytes 1 3)).freeSlot c i
  let r : FaultRec := {
    va := va, ctx := j.ctx, client := 1, access := if j.into then 0 else 1, cause := e, core := c, who := j.recOff / 32 }
  if !j.far && s.replays j.ctx e then
    let (s, fid) := s.holdFault r (j.recOff / 32)
    { s with heldFaults := s.heldFaults.map (fun h => if h.fid = fid then { h with team := j.team } else h) }
  else (s.postFault r false).1

def execCopyJobSuspend (c job : Nat) (s : State) : Host.Outcome State Fault Refusal :=
  .next (match FMap.get (s.core c).copies job with
    | none => s
    | some j => match j.failing with
      | some (e, va) => if j.units.isEmpty && (s.team j.team).saved.all (fun v => !v.area) then s.suspendJob c job j e va else s
      | none => s)

end Sys2Proof.Machine
end

