-- ==== Sys2Proof/Machine/Sync.lean ====
section
/-! DEFINITION. SYNC: team barriers (R381), byte barriers (R382-R386), the global barriers with their time-outs and
reports (R387-R392), and the ends of these waits. -/
namespace Sys2Proof.Machine

/-! ### Operands read once (R370) -/

/-- Read sources after their names are checked. -/
def State.sources (s : State) (x : Iss) (act : Mask) (o : Opnds) (ds : List Opd) : Except Stop (List Src) :=
  match x.namesOk act ds with
  | .error e => .error e
  | .ok _ => s.readOpds x act o ds

/-- Value of operand `i`, read once. -/
def once (act : Mask) (vs : List Src) (i : Nat) : Nat := onceNat act (nth vs i Src.none)

/-- A release of the active threads at a scope: it waits for their earlier accesses, and for dirty lines whose home cannot be
reached yet (R243, R453). -/
def State.releaseNow (s : State) (x : Iss) (act : Mask) (sc : Scope) : Except Stop State :=
  if s.unperformed x.c x.w act s.fresh || (s.wide x.src.team sc && s.homesPending x.c) then .error .block else .ok (s.release x.c x.src.team sc none)

/-- An acquire of a wave at a scope (R243, R279). -/
def State.acquireFor (s : State) (c w : Nat) (sc : Scope) : State :=
  (s.acquire c (s.wave c w).team sc).advanceGen c w

/-- Waits of a core's waves of some kind: (wave, wait). -/
def State.waitsOn (s : State) (c : Nat) (f : Wave → WaitKind → Bool) : List (Nat × Wait) :=
  (s.core c).waves.flatMap (fun (e : Nat × Wave) => (e.2.waits.filter (fun v => f e.2 v.kind)).map (fun v => (e.1, v)))

/-! ### BAR (R381) -/

def execBar (o : Opnds) (s : State) : Host.Outcome State Fault Refusal :=
  simt s o false noPre (fun s x act => match s.sources x act o [fieldA o] with
    | .error e => .error e
    | .ok vs =>
      let b := once act vs 0
      if 15 < b then .error (x.trap act .indexRange 0)
      else match s.releaseNow x act .team with
        | .error e => .error e
        | .ok s => .error (.wait (s.modTeam x.src.team (fun t => { t with bars := FMap.mod t.bars b {} (fun y =>
            { y with arrived := FMap.set y.arrived x.src.index (FMap.getD y.arrived x.src.index 0 ||| act) }) })) (.bar b)))

/-- Whether every wave of a team that has not ended has arrived, and some wave has. -/
def State.barDone (s : State) (t : Nat) (y : BarSt) : Bool :=
  let ws := (s.teamWaves t).filter (fun e => !(s.wave e.1 e.2).isOver)
  let arr := fun (e : Nat × Nat) => FMap.getD y.arrived (s.wave e.1 e.2).index 0
  (s.team t).saved.all (fun v => v.waves.isEmpty) && !ws.isEmpty &&
  ws.all (fun e => arr e != 0 && (s.wave e.1 e.2).live &&& ~~~(arr e) == 0)

/-- Every waiting thread of a barrier continues. -/
def State.barRelease (s : State) (t b : Nat) : State :=
  let s := s.modTeam t (fun T => { T with bars := FMap.mod T.bars b {} (fun y => { y with gen := y.gen + 1, arrived := [] }) })
  (s.teamWaves t).foldl (fun s e =>
    ((s.wave e.1 e.2).waits.filter (fun v => v.kind == .bar b)).foldl (fun s v =>
      (s.acquireFor e.1 e.2 .team).endWait e.1 e.2 v) s) s

/-- Barriers that are complete let their threads go. -/
def State.settleBars (s : State) : State :=
  s.teams.foldl (fun s (e : Nat × Team) => e.2.bars.foldl (fun s (y : Nat × BarSt) =>
    if s.barDone e.1 y.2 then s.barRelease e.1 y.1 else s) s) s

/-! ### Byte barriers (R383-R386) -/

/-- The key of a byte barrier's operand, or its trap (R386). -/
def State.bbKey (s : State) (x : Iss) (act : Mask) (bb : Nat) : Except Stop Nat :=
  if bb % 16 ≠ 0 then .error (x.trap act .misaligned (BitVec.ofNat 64 bb))
  else match s.localBench x.src.team bb 16 with
    | none => .error (x.trap act .benchRange (BitVec.ofNat 64 bb))
    | some k => if (s.homeRead k 16).isNone then .error (x.trap act .uncorrectable (BitVec.ofNat 64 bb)) else .ok k

def execBbinit (o : Opnds) (s : State) : Host.Outcome State Fault Refusal :=
  simt s o false noPre (fun s x act => match s.sources x act o [fieldA o, fieldB o, fieldC o] with
    | .error e => .error e
    | .ok vs =>
      let bb := once act vs 0
      let arr := once act vs 2
      match (if bb % 16 ≠ 0 then Except.error (x.trap act .misaligned (BitVec.ofNat 64 bb))
        else match s.localBench x.src.team bb 16 with
          | none => Except.error (x.trap act .benchRange (BitVec.ofNat 64 bb))
          | some k => Except.ok k) with
      | .error e => .error e
      | .ok k =>
        if arr = 0 ∨ 65535 < arr then .error (x.trap act .indexRange 0)
        else if s.unperformed x.c x.w act s.fresh then .error .block
        else
          let b : ByteBar := { pend := once act vs 1, arrv := arr, expa := arr }
          let s := s.modTeam x.src.team (fun t => { t with byteCame := t.byteCame.filter (fun e => e.1 != k) })
          .ok { s := s.benchWrite k b.bytes })

def execBbarv (o : Opnds) (s : State) : Host.Outcome State Fault Refusal :=
  simt s o false noPre (fun s x act => match s.sources x act o [fieldA o, fieldB o] with
    | .error e => .error e
    | .ok vs =>
      let bb := once act vs 0
      match s.bbKey x act bb with
      | .error e => .error e
      | .ok k =>
        let b := s.bbGet k
        if b.arrv = 0 then .error (x.trap act .joinMismatch (BitVec.ofNat 64 bb))
        else match s.releaseNow x act .team with
          | .error e => .error e
          | .ok s =>
            let put := fun (s : State) => (s.bbPut k { b with pend := b.pend + once act vs 1, arrv := b.arrv - 1 }).modTeam
              x.src.team (fun t => { t with
                byteCame := t.byteCame.filter (fun e => e.1 != k || e.2.1 == b.sense) ++ [(k, b.sense, x.src.index)] })
            if dclsOf o .none = .sca then
              match s.putScalar x act o.d.toNat [if b.sense then 1 else 0] with
              | .error e => .error e
              | .ok s => .ok { s := put s }
            else .ok { s := put s })

def execBbwait (o : Opnds) (tr : Bool) (s : State) : Host.Outcome State Fault Refusal :=
  simt s o false noPre (fun s x act => match s.sources x act o [fieldA o, fieldB o] with
    | .error e => .error e
    | .ok vs =>
      match s.bbKey x act (once act vs 0) with
      | .error e => .error e
      | .ok k =>
        let b := s.bbGet k
        let sense := once act vs 1 % 2 == 1
        if s.unperformed x.c x.w act s.fresh then .error .block
        else if b.sense != sense then .ok { s := s.acquireFor x.c x.w .team }
        else if tr && b.susp then .error (x.trap act .copySuspended (BitVec.ofNat 64 (32 * b.srec)))
        else .error (.wait s (.bbwait k sense tr)))

/-- Waits at byte barriers end when the phase is over, or trap at a suspension (R385). -/
def State.settleByteBars (s : State) : State :=
  s.cores.foldl (fun s (e : Nat × Core) =>
    (s.waitsOn e.1 (fun _ k => match k with | .bbwait _ _ _ => true | _ => false)).foldl (fun s v => match v.2.kind with
      | .bbwait k sense tr =>
        let b := s.bbGet k
        if b.sense != sense then (s.acquireFor e.1 v.1 .team).endWait e.1 v.1 v.2
        else if tr && b.susp then s.trapWait e.1 v.1 v.2 .copySuspended (BitVec.ofNat 64 (32 * b.srec))
        else s
      | _ => s) s) s

/-! ### TBAR and GBAR (R387-R392) -/

/-- Whether a wait is at a barrier of the kind. -/
def WaitKind.isTbar : WaitKind → Bool
  | .tbar => true | _ => false
def WaitKind.isGbar : WaitKind → Bool
  | .gbar _ => true | _ => false

/-- The teams of a launch on a core. -/
def State.teamsOn (s : State) (l c : Nat) : List (Nat × Team) :=
  s.teams.filter (fun (e : Nat × Team) => e.2.launch == l && e.2.members.any (fun m => m.core == c))

/-- Whether every thread of a wave that has not ended waits at a barrier of the kind (R387). -/
def Wave.arrived (x : Wave) (k : WaitKind → Bool) : Bool :=
  x.live &&& ~~~((x.waits.filter (fun v => k v.kind)).foldl (fun m v => m ||| v.lanes) 0) == 0

/-- Whether a core has arrived at a barrier of a launch (R387). -/
def State.coreArrived (s : State) (l c : Nat) (k : WaitKind → Bool) : Bool :=
  let ts := s.teamsOn l c
  let up := (s.core c).service == .inService || (s.core c).service == .draining
  if ts.isEmpty then up
  else ts.all (fun e => e.2.saved.isNone && ((s.core c).waves.filter (fun (y : Nat × Wave) => y.2.team == e.1)).all (fun y =>
    y.2.isOver || y.2.arrived k)) && up

/-- The cores that a `TBAR` mask names for a core (R388). -/
def tbarCores (set : TSet) (mask : Word) (c : Nat) : List Nat :=
  let row := fun (m : Nat) => ((List.range 16).filter (fun x => m.testBit x)).map (fun x => c / 16 * 16 + x)
  let col := fun (m : Nat) => ((List.range 16).filter (fun y => m.testBit y)).map (fun y => y * 16 + c % 16)
  match set with
  | .row => row mask.toNat
  | .col => col mask.toNat
  | .both => row (mask.toNat % 2 ^ 16) ++ col (mask.toNat / 2 ^ 16)

/-- Whether a mask names the arriving core, in both masks for `BOTH` (R388). -/
def tbarNames (set : TSet) (mask : Word) (c : Nat) : Bool :=
  match set with
  | .row => mask.toNat.testBit (c % 16)
  | .col => mask.toNat.testBit (c / 16)
  | .both => mask.toNat.testBit (c % 16) && mask.toNat.testBit (16 + c / 16)

/-- `TBAR` (R388): its mask is judged before its time-out is read (R60). -/
def execTbar (o : Opnds) (set : TSet) (s : State) : Host.Outcome State Fault Refusal :=
  simt s o false noPre (fun s x act =>
    let l := (s.team x.src.team).launch
    if !(s.launch l).phased then .error (x.trap act .illegalOperand x.base 0)
    else match s.sources x act o [fieldA o] with
    | .error e => .error e
    | .ok va =>
    let mask : Word := BitVec.ofNat 32 (once act va 0)
    let other := (s.launch l).tbar.any (fun a => a.core == x.c && (a.set != set || a.mask != mask))
    if !tbarNames set mask x.c || other then .error (x.trap act .illegalOperand x.base 0)
    else match s.sources x act o [fieldA o, fieldB o] with
    | .error e => .error e
    | .ok vs =>
      let tmo := once act vs 1
      if 65535 < tmo then .error (x.trap act .indexRange 0)
      else match s.releaseNow x act .device with
        | .error e => .error e
        | .ok s =>
          let a : Arrival := { core := x.c, wave := x.w, lanes := x.lanes, time := s.time, tmo := tmo, set := set, mask := mask }
          .error (.wait (s.modLaunch l (fun y => { y with tbar := y.tbar ++ [a] })) .tbar))

def execGbar (o : Opnds) (s : State) : Host.Outcome State Fault Refusal :=
  simt s o false noPre (fun s x act =>
    let l := (s.team x.src.team).launch
    if !(s.launch l).phased then .error (x.trap act .illegalOperand x.base 0)
    else match s.sources x act o [fieldA o, fieldB o] with
    | .error e => .error e
    | .ok vs =>
      let tmo := once act vs 0
      let hasMap := o.cb != .none
      let map := once act vs 1
      let dest := if dclsOf o .none = .sca then some o.d.toNat else none
      if 65535 < tmo then .error (x.trap act .indexRange 0)
      else if hasMap ∧ map % 32 ≠ 0 then .error (x.trap act .misaligned (BitVec.ofNat 64 map))
      else if hasMap ∧ (s.localBench x.src.team map 32).isNone = true then .error (x.trap act .benchRange (BitVec.ofNat 64 map))
      else if dest.any (fun d => (List.range 8).any (fun i => x.src.sPend.getLsbD (d + i))) then .error .block
      else match s.releaseNow x act .device with
        | .error e => .error e
        | .ok s =>
          let a : Arrival := {
            core := x.c, wave := x.w, lanes := x.lanes, time := s.time, tmo := tmo,
            map := if hasMap then s.localBench x.src.team map 32 else none }
          .error (.wait (s.modLaunch l (fun y => { y with gbar := y.gbar ++ [a] })) (.gbar dest)))

/-- Waiting bundles of a launch on a core at a barrier of the kind: (wave, wait). -/
def State.barrierWaits (s : State) (l c : Nat) (k : WaitKind → Bool) : List (Nat × Wait) :=
  s.waitsOn c (fun x v => k v && (s.team x.team).launch == l)

/-- Threads of a core continue after a `TBAR`. -/
def State.tbarRelease (s : State) (l c : Nat) : State :=
  let ws := s.barrierWaits l c WaitKind.isTbar
  let s := s.modLaunch l (fun y => { y with
    tbar := y.tbar.filter (fun a => a.core != c), tcame := FMap.erase y.tcame c, tgen := FMap.set y.tgen c (FMap.getD y.tgen c 0 + 1) })
  ws.foldl (fun s v => (s.acquireFor c v.1 .device).endWait c v.1 v.2) s

/-- Whether every wave of a launch on a core has ended, as where it has no team there: such a core waits at no generation and counts
as arrived at each (R387, R388). -/
def State.coreOver (s : State) (l c : Nat) : Bool :=
  (s.teamsOn l c).all (fun e => ((s.core c).waves.filter (fun (y : Nat × Wave) => y.2.team == e.1)).all (fun y => y.2.isOver))

/-- Whether core `d` has arrived at the `TBAR` generation that core `c` waits at. -/
def State.tbarAt (s : State) (l c d : Nat) : Bool :=
  let g := fun (n : Nat) => FMap.getD (s.launch l).tgen n 0
  decide (g c < g d) || (s.coreArrived l d WaitKind.isTbar && (g c == g d || s.coreOver l d))

/-- Whether the `TBAR` of a core is complete: every core of its masks has arrived at its generation. -/
def State.tbarDone (s : State) (l c : Nat) : Bool :=
  match (s.launch l).tbar.find? (fun a => a.core == c) with
  | none => false
  | some a => s.coreArrived l c WaitKind.isTbar && (tbarCores a.set a.mask c).all (fun d => s.tbarAt l c d)

def State.settleTbars (s : State) : State :=
  s.launches.foldl (fun s (e : Nat × Launch) =>
    ((e.2.tbar.map (·.core)).eraseDups.filter (fun c => s.tbarDone e.1 c)).foldl (fun s c => s.tbarRelease e.1 c) s) s

/-- The arrival of a core's wave whose own arrival was complete last: its operands count (R392). -/
def lastArrival (as : List Arrival) (c : Nat) : Option Arrival :=
  (as.filter (fun a => a.core == c)).foldl (fun m a => match m with
    | none => some a
    | some b => if b.whole.getD 0 ≤ a.whole.getD 0 then some a else m) none

/-- The arrivals of waves that are complete since this turn. -/
def State.wholeNow (s : State) (as : List Arrival) (k : WaitKind → Bool) : List Arrival :=
  as.map (fun (a : Arrival) => if a.whole.isNone ∧ (s.wave? a.core a.wave).any (fun x => x.arrived k) = true then
    { a with whole := some s.fresh } else a)

/-- The arrival times of cores, as they stand after a turn: a core that has arrived keeps its time, while its teams are saved
too, and one that has not any more has none (R387, R392). -/
def State.cameOf (s : State) (l : Nat) (as : List Arrival) (came : FMap Nat) (k : WaitKind → Bool) : FMap Nat :=
  (as.map (·.core)).eraseDups.foldl (fun m c =>
    match FMap.get came c with
    | some t => if s.coreArrived l c k || (s.teamsOn l c).any (fun e => e.2.saved.isSome) then FMap.set m c t else m
    | none => if s.coreArrived l c k then FMap.set m c s.time else m) []
def State.settleCame (s : State) : State :=
  s.launches.foldl (fun s (e : Nat × Launch) =>
    if e.2.tbar.isEmpty && e.2.gbar.isEmpty && e.2.tcame.isEmpty && e.2.gcame.isEmpty then s
    else s.newId.2.modLaunch e.1 (fun L => { L with
      tbar := s.wholeNow L.tbar WaitKind.isTbar
      gbar := s.wholeNow L.gbar WaitKind.isGbar
      tcame := s.cameOf e.1 L.tbar L.tcame WaitKind.isTbar
      gcame := s.cameOf e.1 L.gbar L.gcame WaitKind.isGbar })) s

/-- The arrivals at a `GBAR` of its participants, the cores that held a team when the launch was placed (R389). -/
def Launch.joined (L : Launch) : List Arrival := L.gbar.filter (fun a => L.gcores.contains a.core)

/-- Earliest and latest arrival, the sum over the earliest, the last core, and the number of cores (R389). -/
def arrivalFigures (as : List Arrival) (came : FMap Nat) : Nat × Nat × Nat × Nat × Nat :=
  let cs := (as.map (·.core)).eraseDups
  let t := fun (c : Nat) => FMap.getD came c 0
  let early := (cs.map t).foldl min (match cs with | c :: _ => t c | [] => 0)
  let late := (cs.map t).foldl max 0
  let last := (cs.filter (fun c => t c == late)).foldl min 255
  (early, late, (cs.map (fun c => t c - early)).foldl (· + ·) 0, last, cs.length)

/-- Whether every participant of a `GBAR` has arrived, some of them with waves waiting. -/
def State.gbarReady (s : State) (l : Nat) : Bool :=
  let L := s.launch l
  !L.joined.isEmpty && L.gcores.all (fun c => s.coreArrived l c WaitKind.isGbar)

/-- `GBAR` completes (R389-R391): `PHASE`, `IMB`, the trace record, the report, and the waiting threads continue, those that
recruits have waiting on other cores among them (log entry 87). -/
def State.gbarComplete (s : State) (l : Nat) : State :=
  let L := s.launch l
  let (early, late, sum, last, n) := arrivalFigures L.joined L.gcame
  let ph := L.phase + 1
  let spread := min (late - early) 0xFFFFFFFF
  let ws := (L.gcores ++ L.gbar.map (·.core)).eraseDups.flatMap (fun c => (s.barrierWaits l c WaitKind.isGbar).map (fun v => (c, v.1, v.2)))
  let s := s.modLaunch l (fun y => { y with
    phase := ph, gbar := [], gcame := [], glate := []
    imb := BitVec.ofNat 64 (spread * 2 ^ 32 + ph.toNat % 2 ^ 16 * 2 ^ 8 + last) })
  let s := s.traceAt {
    kind := 2, core := last, phase := ph.toNat, ctx := L.hdr.ctx,
    pay := leBytes 4 spread ++ leBytes 4 (min sum 0xFFFFFFFF) ++ leBytes 2 last ++ leBytes 2 n } early
  let rep := wordsOf 2 early ++ wordsOf 2 late ++ wordsOf 2 sum ++ [BitVec.ofNat 32 last, ph]
  ws.foldl (fun s v =>
    let s := match v.2.2.kind with
      | .gbar (some d) => s.modWave v.1 v.2.1 (fun x => x.setScalars d rep)
      | _ => s
    (s.acquireFor v.1 v.2.1 .device).endWait v.1 v.2.1 v.2.2) s

/-- Barriers without an armed quiet stop complete when every core has arrived. -/
def State.settleGbars (s : State) : State :=
  s.launches.foldl (fun s (e : Nat × Launch) => if e.2.quiet.isNone && s.gbarReady e.1 then s.gbarComplete e.1 else s) s

/-- Bits of the cores of a list in the positions of a `TBAR` mask (R392). -/
def tbarMissing (c : Nat) (set : TSet) (missing : List Nat) : Nat :=
  let row := (List.range 16).filter (fun x => set != .col && missing.contains (c / 16 * 16 + x))
  let col := (List.range 16).filter (fun y => set != .row && missing.contains (y * 16 + c % 16))
  (row.map (fun x => 2 ^ x)).foldl (· + ·) 0 + (col.map (fun y => 2 ^ (16 + y))).foldl (· + ·) 0

/-- Every waiting thread of a launch on a core traps BARRIER_TIMEOUT, and the arrival is withdrawn. -/
def State.timeoutWaits (s : State) (c : Nat) (ws : List (Nat × Wait)) (addr : Nat) : State :=
  ws.foldl (fun s v => s.trapWait c v.1 v.2 .barrierTimeout (BitVec.ofNat 64 addr)) s

/-- Whether the time-out of a core's arrival has passed (R392). -/
def Arrival.late (a : Arrival) (came : Option Nat) (now : Nat) : Bool :=
  a.tmo != 0 && came.any (fun t => decide (t + a.paused + 1024 * a.tmo ≤ now))

/-- Whether core `d` had arrived at the `TBAR` generation of core `c`, an arrival that its own time-out withdrew among them
(R392, R492; DEDUCED, log entry 59). -/
def State.tbarHad (s : State) (l c d : Nat) : Bool :=
  s.tbarAt l c d || (((s.core d).service == .inService || (s.core d).service == .draining) &&
    FMap.get (s.launch l).tlate d == some (FMap.getD (s.launch l).tgen c 0))

/-- Whether core `d` had arrived at the present `GBAR` of a launch, in the same sense. -/
def State.gbarHad (s : State) (l d : Nat) : Bool :=
  s.coreArrived l d WaitKind.isGbar ||
    (((s.core d).service == .inService || (s.core d).service == .draining) && (s.launch l).glate.contains d)

/-- A core's time-out passes (R392). -/
def execBarrierTimeout (launch c : Nat) (s : State) : Host.Outcome State Fault Refusal :=
  .next (
    let L := s.launch launch
    let running := fun (ws : List (Nat × Wait)) => ws.all (fun v => (s.wave c v.1).dbg.isNone)
    let tw := s.barrierWaits launch c WaitKind.isTbar
    let gw := s.barrierWaits launch c WaitKind.isGbar
    match lastArrival L.tbar c, lastArrival L.gbar c with
    | some a, _ =>
      if a.late (FMap.get L.tcame c) s.time && s.coreArrived launch c WaitKind.isTbar && running tw then
        let missing := (tbarCores a.set a.mask c).filter (fun d => !s.tbarHad launch c d)
        (s.modLaunch launch (fun y => { y with
          tbar := y.tbar.filter (fun b => b.core != c), tcame := FMap.erase y.tcame c, tlate := FMap.set y.tlate c (FMap.getD y.tgen c 0) })).timeoutWaits c tw
          (tbarMissing c a.set missing)
      else s
    | none, some a =>
      if a.late (FMap.get L.gcame c) s.time && s.coreArrived launch c WaitKind.isGbar && running gw && !s.gbarReady launch then
        let missing := L.gcores.filter (fun d => !s.gbarHad launch d)
        let s := match a.map with
          | some k => s.benchWrite k ((List.range 32).map (fun i =>
              BitVec.ofNat 8 (((List.range 8).filter (fun b => missing.contains (8 * i + b))).map (fun b => 2 ^ b)).sum))
          | none => s
        (s.modLaunch launch (fun y => { y with gbar := y.gbar.filter (fun b => b.core != c), gcame := FMap.erase y.gcame c, glate := c :: y.glate })).timeoutWaits c gw
          (missing.length * 2 ^ 16 + missing.foldl min 255)
      else s
    | none, none => s)

end Sys2Proof.Machine
end

