-- ==== Sys2Proof/Machine/Mail.lean ====
section
/-! DEFINITION. MAIL: deposits from issue to status (R393, R394, R339), `MBCLR` (R395), and the end of `SEND`. -/
namespace Sys2Proof.Machine

/-! ### The receiver (R393, R339) -/

/-- The wave that a deposit names. -/
inductive Receiver where
  | none
  | resident (w : Nat)
  /-- A saved wave: its team, its `WAVE.INDEX` and the address of its record. -/
  | saved (t index : Nat) (rec_ : DWord)
  deriving DecidableEq, Repr

/-- Whether a target's reserved bits are 0 (R393). -/
def sendClear (t : Word) : Bool := t.extractLsb' 3 8 == 0

/-- The wave of the sender's context that a target names, on a core in service. -/
def State.receiver (s : State) (ctx : Nat) (target : Word) : Receiver :=
  let c := sendCore target
  let k := s.core c
  let i := sendWave target
  if !sendClear target || !(k.service == .inService || k.service == .draining) then .none
  else match FMap.get k.slots (sendSlot target) with
    | none => .none
    | some t =>
      let T := s.team t
      if T.ctx ≠ ctx then .none
      else match k.waves.find? (fun (e : Nat × Wave) => e.2.team == t && e.2.index == i && !e.2.isOver) with
        | some e => .resident e.1
        | none =>
          if T.saved.any (fun v => v.waves.any (fun y => y.member == T.memberOf c && y.index == i && !y.copy.isOver)) then
            .saved t i (waveRecVa c (sendSlot target) (i % max T.perCore 1))
          else .none

/-- Offsets of a mailbox's value and of the full bits in a wave record (R439). -/
def recBoxOff (n : Nat) : Nat := 0x270 + 4 * n
def recFullOff : Nat := 0x290

/-- Whether the mailbox of a deposit is full; a save window that cannot be read answers `none`. -/
def State.boxFull (s : State) (d : Deposit) : Receiver → Option Bool
  | .none => none
  | .resident w => some (nth (s.wave (sendCore d.target) w).mbox (sendBox d.target) {}).full
  | .saved _ _ a => match (s.vaRead (.core (sendCore d.target)) d.ctx (a + BitVec.ofNat 64 recFullOff) 1).2 with
    | .ok bs => some ((leWord bs).testBit (sendBox d.target))
    | .error _ => none

/-- A deposit enters a saved mailbox. -/
def State.enterSaved (s : State) (d : Deposit) (t i : Nat) (a : DWord) : State :=
  let c := sendCore d.target
  let n := sendBox d.target
  let full := match (s.vaRead (.core c) d.ctx (a + BitVec.ofNat 64 recFullOff) 1).2 with | .ok bs => leWord bs | .error _ => 0
  let s := (s.vaWrite (.core c) d.ctx (a + BitVec.ofNat 64 (recBoxOff n)) (leBytes 4 d.value.toNat)).1
  let s := (s.vaWrite (.core c) d.ctx (a + BitVec.ofNat 64 recFullOff) (leBytes 1 (full ||| 2 ^ n))).1
  (s.modTeam t (fun T => { T with saved := T.saved.map (fun v => { v with boxes := v.boxes ++ [(i, n, d.scope)] }) })).depositStatus
    d.id 0

/-! ### Arrival (R393, R394) -/

/-- Deposits held at a core. -/
def State.heldAt (s : State) (c : Nat) : List Deposit := s.deposits.filter (fun d => d.held && sendCore d.target == c)

/-- Change a deposit. -/
def State.modDeposit (s : State) (id : Nat) (f : Deposit → Deposit) : State :=
  { s with deposits := s.deposits.map (fun d => if d.id = id then f d else d) }

/-- Whether a deposit is held for the mailbox of another one, which it enters before that one (R393, R394 step 4). -/
def State.heldBefore (s : State) (d : Deposit) : Bool :=
  s.deposits.any (fun e => e.held && e.target == d.target && e.id != d.id)

/-- A deposit reaches its core: it enters an empty mailbox, is held for a full one or behind one that is held, is refused when four
are held, or finds no target. One for a saved wave waits while its record cannot be reached (R453, R474). -/
def State.depositArrives (s : State) (d : Deposit) : State :=
  let r := s.receiver d.ctx d.target
  let waits := match r with
    | .saved _ _ a => s.vaWaits (.core (sendCore d.target)) d.ctx (a + BitVec.ofNat 64 recFullOff) true 1 ||
        s.vaWaits (.core (sendCore d.target)) d.ctx (a + BitVec.ofNat 64 (recBoxOff (sendBox d.target))) false 4
    | _ => false
  if waits then s
  else match r, (s.boxFull d r).map (fun full => full || s.heldBefore d) with
  | .resident w, some false => s.enterBox (sendCore d.target) w (sendBox d.target) d
  | .saved t i a, some false => s.enterSaved d t i a
  | .saved t _ _, none => (s.killTeam t .protection).depositStatus d.id 1
  | .none, _ => s.depositStatus d.id 2
  | _, _ =>
    if (s.heldAt (sendCore d.target)).length < 4 then
      let s := s.modDeposit d.id (fun d => { d with held := true, refused := false })
      -- held deposits of one mailbox enter in the order they reached the core
      { s with deposits := s.deposits.filter (fun e => e.id != d.id) ++ s.deposits.filter (fun e => e.id == d.id) }
    else s.modDeposit d.id (fun d => { d with refused := true, retryAt := s.clkOf d.srcCore + 64 })

/-- Held deposits enter the mailboxes that are empty at the end of a turn, the oldest of a mailbox first (R394 step 4); after the
first bundle of a clock the second one's turn comes before. -/
def State.settleHeld (s : State) : State :=
  if s.snap.isSome then s
  else s.deposits.foldl (fun s (d : Deposit) =>
    if d.held then match s.receiver d.ctx d.target with
      | .resident w => if s.boxFull d (.resident w) = some false then s.enterBox (sendCore d.target) w (sendBox d.target) d else s
      | _ => s
    else s) s

/-- Whether what travels from one core to another is in its turn: no deposit and no status that left for there before is on its way
(R8), nor any Bench access. -/
def State.legClear (s : State) (src dst seq : Nat) : Bool :=
  !s.depositAhead src seq (some dst) &&
  (s.core src).ops.all (fun o => !decide (o.id < seq) || o.left.all (fun a => o.target src a != some dst))

/-- Deposits of one instruction reach their cores in increasing lane order, and what leaves a core for one destination arrives
in the order it left (R8, R393). -/
def State.inTurn (s : State) (d : Deposit) : Bool :=
  s.deposits.all (fun e => !(decide (e.id < d.id) && e.first == d.first && !e.refused) || !s.travels e) &&
  s.legClear d.srcCore (sendCore d.target) d.seq

def execDepositArrival (id : Nat) (s : State) : Host.Outcome State Fault Refusal :=
  .next (match s.deposits.find? (·.id == id) with
    | some d => if d.held || d.refused || d.status.isSome || !s.inTurn d then s else s.depositArrives d
    | none => s)

/-- A refused deposit leaves its core again after 64 clocks, and arrives in its turn behind what left before it (R8, R393). -/
def execDepositRetry (id : Nat) (s : State) : Host.Outcome State Fault Refusal :=
  .next (match s.deposits.find? (·.id == id) with
    | some d => if d.refused && decide (d.retryAt ≤ s.clkOf d.srcCore) && s.inTurn d then s.depositArrives d else s
    | none => s)

/-! ### Status (R393) -/

/-- A lane of a `SEND` receives its status. -/
def WaitKind.sendStatus (k : WaitKind) (id : Nat) (st : Word) : WaitKind :=
  match k with
  | .send p r d => .send (p.filter (fun e => e.2 != id)) (r ++ (p.filter (fun e => e.2 == id)).map (fun e => (e.1, st))) d
  | k => k

/-- A `SEND` whose lanes all have their status writes them and retires; when it finds no free register, the slice saves its youngest
borrowing wave first (R272), of the others since this one is inside its instruction (log entry 85). -/
def State.endSend (s : State) (c w : Nat) (v : Wait) : State :=
  match v.kind with
  | .send [] r d =>
    let x := v.iss s c w
    let fx : Except Stop State := match d with
      | some n => s.putVec x v.active [n] [vbuild (fun l => match r.find? (·.1 == l) with | some e => e.2 | none => 0)]
      | none => .ok s
    (match fx with
      | .ok t => State.endWaitWith c w v { s := t }
      | .error (.trap t) => (s.dropWait c w v).trapNow x t
      | .error .noReg => s.spillBut c (sliceOf w) (some w)
      | .error _ => s)
  | _ => s

/-- Every `SEND` of a core that can retire does. -/
def State.settleSends (s : State) : State :=
  s.cores.foldl (fun s (e : Nat × Core) =>
    (s.waitsOn e.1 (fun _ k => match k with | .send [] _ _ => true | _ => false)).foldl (fun s v => s.endSend e.1 v.1 v.2) s) s

/-- A status reaches the sender, in the order in which it left (R8). -/
def execSendStatusReturn (id : Nat) (s : State) : Host.Outcome State Fault Refusal :=
  .next (match s.deposits.find? (·.id == id) with
    | some d => match d.status with
      | none => s
      | some st => if !s.legClear (sendCore d.target) d.srcCore d.seq then s else
        let s := { s with deposits := s.deposits.filter (fun e => e.id != id) }
        (s.modWave d.srcCore d.srcWave (fun x =>
          { x with waits := x.waits.map (fun v => { v with kind := v.kind.sendStatus id st }) })).settleSends
    | none => s)

/-! ### SEND and MBCLR (R393, R395) -/

/-- Put a deposit of each active lane on its way, lowest lane first. -/
def State.deposit (s : State) (x : Iss) (act : Mask) (sc : Scope) (target value : Nat → Word) :
    State × List (Nat × Nat) :=
  let first := s.fresh
  (lanesOf act).foldl (fun (p : State × List (Nat × Nat)) l =>
    let (id, s) := p.1.newId
    let d : Deposit := {
      id := id, seq := id, srcCore := x.c, srcWave := x.w, first := first, ctx := x.ctx, team := x.src.team, target := target l,
      value := value l, scope := sc }
    ({ s with deposits := s.deposits ++ [d] }, p.2 ++ [(l, id)])) (s, [])

/-- The body of `SEND`: a release of the sender at its scope, and a deposit of each lane. -/
def sendBody (o : Opnds) (sc : Scope) (s : State) (x : Iss) (act : Mask) : Except Stop Fx :=
  let opds := [fieldA o, fieldB o]
  let vec := dclsOf o .none == .vec
  match x.namesOk act (opds ++ (if vec then [dstOpd o 1] else [])) with
  | .error e => .error e
  | .ok _ => match s.readOpds x act o opds with
    | .error e => .error e
    | .ok vs => match (if vec then x.names act 3 o.d.toNat 1 else .ok []) with
      | .error e => .error e
      | .ok ns => match s.releaseNow x act sc with
        | .error e => .error e
        | .ok s =>
          let word := fun (i l : Nat) => BitVec.ofNat 32 ((nth vs i Src.none).nat l)
          let (s, ps) := s.deposit x act sc (word 0) (word 1)
          .error (.wait s (.send ps [] ns.head?))

def execSend (o : Opnds) (dev : Bool) (s : State) : Host.Outcome State Fault Refusal :=
  simt s o false noPre (sendBody o (if dev then .device else .team))

/-- `MBCLR` empties a mailbox and zeroes it, before the local writes of its clock. It reads nothing. -/
def execMbclr (o : Opnds) (s : State) : Host.Outcome State Fault Refusal :=
  simt s { o with ca := .none } false noPre (fun s x _ =>
    let n := o.a.toNat - 128
    .ok { s := s.modNow x (fun y =>
      if y.boxWrote.contains n then y else { y with mbox := setNth y.mbox n {} }) })

end Sys2Proof.Machine
end

