-- ==== Sys2Proof/Machine/WaitIsa.lean ====
section
/-! DEFINITION. WAIT: `WAITA` with its registrations, polls and wakes (R259, R351, R396), and `WAKE` (R397). -/
namespace Sys2Proof.Machine

/-! ### The test (R396) -/

/-- Whether a comparison of two words holds. -/
def cmpWord (c : Cmp) (signed : Bool) (a b : Word) : Bool :=
  let x := intOf a.toNat 32 signed
  let y := intOf b.toNat 32 signed
  match c with
  | .eq => x == y | .ne => x != y | .lt => decide (x < y) | .le => decide (x ≤ y)
  | .gt => decide (y < x) | .ge => decide (y ≤ x) | .un => false | .ord => true

/-- What a read of the word at its home comes to: the key, whether it must be polled, and the word, or nothing while its
far side cannot be reached or its channel retrains (R453, R474). -/
structure HomeWord where
  key : Nat
  word : Option Word
  deriving DecidableEq, Repr

/-- Read the word at its home, after the core's own bytes of its line have gone there (R259). -/
def State.homeWord (s : State) (c ctx : Nat) (va : DWord) : State × Except Cause HomeWord :=
  match s.place (.core c) ctx va .read with
  | (s, .error (_, e)) => (s, .error e)
  | (s, .ok p) => match s.atHome ctx p.key with
    | some (.fault e _) => (s, .error e)
    | some _ => (s, .ok { key := p.key, word := none })
    | none =>
      if s.transWaits (.core c) ctx va || s.missWait p.key 4 || (p.sealed && s.sealWaits ctx va.toNat p.key) then (s, .ok { key := p.key, word := none })
      else
      let (s, ok) := if p.sealed then s.sealOk ctx va.toNat p.key else (s, true)
      if !ok then (s, .error .integrity)
      else
        let s := s.pushHome c p.key
        match s.homeRead p.key 4 with
        | none => (s, .error .uncorrectable)
        | some bs => (s.l2Use p.key 4 p.cpol, .ok { key := p.key, word := some (BitVec.ofNat 32 (leWord bs)) })

/-- The request of a `WAITA` without its destination. -/
def waitaReq (o : Opnds) (va : DWord) (value : Word) : WaitaReq :=
  let m := o.xm
  let l := o.ext.isSome
  { va := va, value := value, code := if l then (Cmp.ofCode (m.extractLsb' 0 3)).getD .ne else .ne,
    signed := l && m.getLsbD 3, acq := l && m.getLsbD 4 }

/-- The value goes to the destination: a scalar name, or every active lane of a vector name. -/
def State.waitaPut (s : State) (x : Iss) (act : Mask) (r : WaitaReq) (v : Word) : Except Stop State :=
  let s := if r.acq then s.acquireFor x.c x.w .device else s
  if r.vec then s.putVec x act [r.dest] [vbuild (fun _ => v)] else s.putScalar x act r.dest [v]

/-! ### Registration and polling (R351) -/

/-- Whether a wave has a `WAITA` registered. -/
def Wave.registered (x : Wave) : Bool :=
  x.waits.any (fun v => match v.kind with | .waita _ true _ _ _ => true | _ => false)

/-- Register a wave on a line when the line's home slice has one of its 128 entries free; a word away from local memory
is polled (R396). -/
def State.register (s : State) (c w key : Nat) : State × Bool :=
  let l := lineOf key
  if isLocal key && decide ((s.waiters.filter (fun e => homeSlice e.1 == homeSlice l)).length < 128) then
    ({ s with waiters := s.waiters ++ [(l, c, w)] }, true)
  else (s, false)

/-- The wait of a `WAITA` whose condition does not hold: registered, or the first poll 256 clocks later. -/
def State.waitaWait (s : State) (c w : Nat) (r : WaitaReq) (key : Nat) : State × WaitKind :=
  let (s, ok) := s.register c w key
  (s, .waita { r with line := lineOf key } ok 256 (s.clkOf c + 256) false)

/-- The body of `WAITA`. While another bundle of the wave is registered it does not issue. -/
def waitaBody (o : Opnds) (s : State) (x : Iss) (act : Mask) : Except Stop Fx :=
  let opds := [fieldA o 2, fieldB o]
  let vec := dclsOf o .sca == .vec
  match x.namesOk act (opds ++ (if vec then [dstOpd o 1] else [])) with
  | .error e => .error e
  | .ok _ => match s.readOpds x act o opds with
    | .error e => .error e
    | .ok vs => match (if vec then x.names act 3 o.d.toNat 1 else .ok [o.d.toNat]) with
      | .error e => .error e
      | .ok ns =>
        let va := BitVec.ofNat 64 (once act vs 0)
        let r := { waitaReq o va (BitVec.ofNat 32 (once act vs 1)) with vec := vec, dest := nth ns 0 0 }
        if va.toNat % 4 ≠ 0 then .error ((x.trap act .misaligned va).posted 0 0)
        else match s.homeWord x.c x.ctx va with
          | (_, .error e) => .error ((x.trap act e va).posted 0 0)
          | (s, .ok h) =>
            let me : Op := { id := s.fresh, wave := x.w, kind := .load, active := act, once := true }
            if !s.memReady x.c me { lane := 0, va := va, key := h.key } || (h.word.isNone && isLocal h.key) then .error .block
            else match (h.word.filter (fun v => cmpWord r.code r.signed v r.value)) with
            | some v => (match s.waitaPut x act r v with
              | .error e => .error e
              | .ok s => .ok { s := s })
            | none =>
              if (s.now x).registered then .error .block
              else
                let (s, k) := s.waitaWait x.c x.w r h.key
                .error (.wait s k)

def execWaita (o : Opnds) (s : State) : Host.Outcome State Fault Refusal := simt s o false noPre (waitaBody o) .sca

/-! ### Wakes and polls (R259, R351) -/

/-- Replace the kind of a wait. -/
def State.setWait (s : State) (c w : Nat) (v : Wait) (k : WaitKind) : State :=
  s.modWave c w (fun x => { x with waits := x.waits.map (fun u => if u = v then { v with kind := k } else u) })

/-- A waiting wave tests its condition again: it retires, traps, or waits as `again` says. -/
def State.waitaTest (s : State) (c w : Nat) (v : Wait) (r : WaitaReq) (again : State → Nat → State × WaitKind) : State :=
  let x := v.iss s c w
  match s.homeWord c x.ctx r.va with
  | (s, .error e) =>
    (match (x.trap v.active e r.va).posted 0 0 with
      | .trap t => (s.dropWait c w v).trapNow x t
      | _ => s)
  | (s, .ok h) => if h.word.isNone && isLocal h.key then s
    else match (h.word.filter (fun u => cmpWord r.code r.signed u r.value)) with
    | some u => (match s.waitaPut x v.active r u with
      | .ok t => State.endWaitWith c w v { s := t }
      | .error (.trap t) => (s.dropWait c w v).trapNow x t
      | .error .noReg => s.spillWave c (sliceOf w)
      | .error _ => s)
    | none =>
      let (s, k) := again s h.key
      s.setWait c w v k

/-- Waves that a wake reached test again (R351). A wave in a debug stop tests when it resumes. -/
def State.settleWakes (s : State) : State :=
  s.cores.foldl (fun s (e : Nat × Core) =>
    (s.waitsOn e.1 (fun x k => x.dbg.isNone && (match k with | .waita _ _ _ _ true => true | _ => false))).foldl (fun s v =>
      match v.2.kind with
      | .waita r _ _ _ _ => s.waitaTest e.1 v.1 v.2 r (fun s key => s.waitaWait e.1 v.1 r key)
      | _ => s) s) s

/-- A polling interval ends; each interval doubles, to at most 65,536 clocks. -/
def execWaitaPoll (c w : Nat) (s : State) : Host.Outcome State Fault Refusal :=
  .next ((s.wave c w).waits.foldl (fun s v => match v.kind with
    | .waita r false n next _ =>
      if next ≤ s.clkOf c then
        let m := min (2 * n) 65536
        s.waitaTest c w v r (fun s _ => (s, .waita r false m (s.clkOf c + m) false))
      else s
    | _ => s) s)

/-- The waves registered on a line test again. -/
def execWaitaWake (line : Nat) (s : State) : Host.Outcome State Fault Refusal := .next (s.wakeLine line).settleWakes

/-! ### WAKE (R397) -/

def execWake (o : Opnds) (s : State) : Host.Outcome State Fault Refusal :=
  simt s o false noPre (fun s x act => match s.sources x act o [fieldA o 2] with
    | .error e => .error e
    | .ok vs =>
      let va := BitVec.ofNat 64 (once act vs 0)
      match s.place (.core x.c) x.ctx va .read with
      | (_, .error (_, e)) => .error ((x.trap act e va).posted 0 0)
      | (s, .ok p) => .ok { s := s.wakeLine (lineOf p.key) })

end Sys2Proof.Machine
end

