-- ==== Sys2Proof/Machine/Queue.lean ====
section
/-! DEFINITION. QUEUE: stage queues with their drops and alarms (R347-R349, R398-R400), and `CQPOP` (R360, R374). -/
namespace Sys2Proof.Machine

/-! ### Stage queues (R347-R349) -/

def State.sq (s : State) (q : Nat) : StageQ := FMap.getD s.queues q {}
def State.modSq (s : State) (q : Nat) (f : StageQ → StageQ) : State := { s with queues := FMap.mod s.queues q {} f }

/-- Ordinary entries (R348). -/
def StageQ.ordinary (y : StageQ) : Nat := (y.entries.filter (fun e => e.1.isNone)).length
/-- Whether a push finds the queue full. -/
def StageQ.full (y : StageQ) : Bool := decide (y.cap - y.rsv ≤ y.ordinary)

/-- Entries without the oldest ordinary one. -/
def dropOldest : List (Option Nat × List Byte) → List (Option Nat × List Byte)
  | [] => []
  | e :: r => if e.1.isNone then r else e :: dropOldest r

/-- An alarm entry of a source queue (R349): kind 1 a discard, 2 a push fault (R419). -/
def alarmBytes (kind src count time size : Nat) : List Byte :=
  (leBytes 1 kind ++ leBytes 1 src ++ leBytes 2 0 ++ leBytes 4 count ++ leBytes 8 time ++ List.replicate 256 0).take size

/-- Write bytes at an address of a queue's context, in each 64 KiB page that they touch; a fault of either page writes nothing
(R419). -/
def State.sqBytes (s : State) (ctx : Nat) (va : DWord) (bs : List Byte) : State × Option Cause :=
  let n := 65536 - va.toNat % 65536
  if bs.length ≤ n then s.vaWrite .device ctx va bs
  else match (s.place .device ctx va .write).2 with
    | .error e => (s, some e.2)
    | .ok _ => match s.vaWrite .device ctx (va + BitVec.ofNat 64 n) (bs.drop n) with
      | (s, some e) => (s, some e)
      | (s, none) => s.vaWrite .device ctx va (bs.take n)

/-- Address of a queue's next entry in its storage (R347), and of the reserved entry of a source's alarms (R349; log entry
42). -/
def StageQ.slotVa (y : StageQ) : DWord := y.base + BitVec.ofNat 64 (y.entsz * (y.written % (y.cap - y.rsv)))
def State.alarmVa (s : State) (a src : Nat) : DWord :=
  let y := s.sq a
  let below := (s.queues.filter (fun (e : Nat × StageQ) => e.2.alarm == some a && decide (e.1 < src))).length
  y.base + BitVec.ofNat 64 (y.entsz * (y.cap - y.rsv + below))

/-- Whether a push to a queue, or the alarm of its discard, waits for the host link or for a channel that retrains (R453,
R474). -/
def State.entryWaits (s : State) (q : Nat) : Bool :=
  let at_ := fun (y : StageQ) (va : DWord) => [va, va + BitVec.ofNat 64 (y.entsz - 1)].any (fun a =>
    s.vaWaits .device y.ctx a false 1 || (match s.task, (s.place .device y.ctx a .write).2 with
      | some (.retrain _ _), .ok p => isLocal p.key && s.retraining p.key
      | _, _ => false))
  at_ (s.sq q) (s.sq q).slotVa || (s.sq q).alarm.any (fun a => at_ (s.sq a) (s.alarmVa a q))

/-- Raise an alarm of queue `q`: the count of the entry that is still there grows, or a new one is written, in the reserved
entries of the storage too. -/
def State.raiseAlarm (s : State) (q kind : Nat) : State :=
  match (s.sq q).alarm with
  | none => s
  | some a =>
    let y := s.sq a
    let old := y.entries.find? (fun e => e.1 == some q)
    let e := match old with
      | some e => e.2.take 4 ++ leBytes 4 (leWord ((e.2.drop 4).take 4) + 1) ++ e.2.drop 8
      | none => alarmBytes kind q 1 s.time y.entsz
    let s := (s.sqBytes y.ctx (s.alarmVa a q) e).1
    s.modSq a (fun y => { y with entries :=
      if old.isSome then y.entries.map (fun d => if d.1 = some q then (d.1, e) else d) else y.entries ++ [(some q, e)] })

/-- A discard of queue `q` (R348, R419). -/
def State.discard (s : State) (q kind : Nat) : State :=
  (s.modSq q (fun y => { y with drops := y.drops + 1 })).raiseAlarm q kind

/-- What a push comes to. -/
inductive PushRes where
  | done (s : State)
  /-- A STALL queue is full. -/
  | full
  | fault (s : State) (c : Cause) (va : DWord)

/-- Write an entry to the queue's storage and append it in place of `old` entries (R348, R419). -/
def State.sqStore (s : State) (q : Nat) (e : List Byte) (old : List (Option Nat × List Byte)) : PushRes :=
  let y := s.sq q
  match s.sqBytes y.ctx y.slotVa e with
  | (s, some c) => .fault s c y.slotVa
  | (s, none) => .done (s.modSq q (fun y => { y with entries := old ++ [(none, e)], written := y.written + 1 }))

/-- A push under the queue's policy (R348). -/
def State.sqApply (s : State) (q : Nat) (e : List Byte) : PushRes :=
  let y := s.sq q
  if !y.full then s.sqStore q e y.entries
  else match y.policy with
    | 0 => .full
    | 1 => .done (s.discard q 1)
    | _ => match s.sqStore q e (dropOldest y.entries) with
      | .done s => .done (s.discard q 1)
      | r => r

/-! ### SQPUSH (R398) -/

/-- The queue that an instruction names, or its trap (R398). -/
def State.sqCheck (s : State) (x : Iss) (act : Mask) (q pos : Nat) (pop : Bool) : Except Stop StageQ :=
  match (if q ≤ 63 then FMap.get s.queues q else none) with
  | some y => if y.ctx ≠ x.ctx ∨ (pop && y.bound.isSome) = true then .error (x.trap act .illegalOperand x.base pos) else .ok y
  | none => .error (x.trap act .illegalOperand x.base pos)

/-- The outcome predicate of a form (R370). -/
def outcomeOf (o : Opnds) : Nat := (o.xm.extractLsb' 0 6).toNat

/-- Registers of an entry. -/
def StageQ.regs (y : StageQ) : Nat := ceilDiv y.entsz 128

/-- The bytes of an entry from its registers (R398). -/
def entryOf (size : Nat) (v : Src) : List Byte :=
  (List.range size).map (fun b => BitVec.ofNat 8 ((vlane (nth v.vals (b / 128) vzero) (b % 128 / 4)).toNat / 2 ^ (8 * (b % 4))))

/-- The vector operand or destination of an entry, which must not pass `v2047`. -/
def pastEnd (d : Opd) : Bool := decide (2048 < d.name + d.n)

def sqpushBody (o : Opnds) (nb : Bool) (s : State) (x : Iss) (act : Mask) : Except Stop Fx :=
  match s.readOpds x act o [fieldB o] with
  | .error e => .error e
  | .ok qs =>
    let q := once act qs 0
    match s.sqCheck x act q 1 false with
    | .error e => .error e
    | .ok y =>
      let va := fieldA o y.regs
      if pastEnd va then .error (x.trap act .illegalOperand x.base 0)
      else match s.sources x act o [va] with
        | .error e => .error e
        | .ok vs => match s.releaseNow x act .device with
          | .error e => .error e
          | .ok s =>
            if s.entryWaits q then .error .block
            else
            let e := entryOf y.entsz (nth vs 0 Src.none)
            let p := fun (s : State) (v : Mask) => match (if nb then s.putPred x act (outcomeOf o) v else .ok s) with
              | .error st => Except.error st
              | .ok s => .ok { s := s : Fx }
            match s.sqApply q e with
            | .done s => p s act
            | .fault _ c va => .error ((x.trap act c va).posted 0 1)
            | .full =>
              if nb then p s 0
              else
                let (id, s) := s.newId
                .error (.wait (s.modSq q (fun y => { y with pushers := y.pushers ++ [(x.c, x.w, id, e)] })) (.sqpush q id))

def execSqpush (o : Opnds) (nb : Bool) (s : State) : Host.Outcome State Fault Refusal :=
  simt s o false noPre (sqpushBody o nb) .none (if nb then [outcomeOf o] else [])

/-! ### SQPOP (R399) -/

/-- An entry taken goes on its way to its registers; the pop is a DEVICE-scope acquire. -/
def State.sqTake (s : State) (x : Iss) (act : Mask) (ns : List Nat) (e : List Byte) : Except Stop State :=
  let transit := s.priorRegs x act ns
  match s.pendNames x act ns with
  | .error st => .error st
  | .ok (ps, prior, s) =>
    let (id, s) := s.newId
    let op : Op := {
      id := id, wave := x.w, kind := .sqpop, pc := x.pc, clk := x.clk, bundle := x.lanes, active := act, done := [(0, e)],
      dest := .vec (nth ns 0 0) ps, prior := prior, transit := transit }
    let s := s.modCore x.c (fun k => { k with ops := k.ops ++ [op] })
    .ok ((s.sweep x.c x.slice).acquireFor x.c x.w .device)

def sqpopBody (o : Opnds) (nb : Bool) (s : State) (x : Iss) (act : Mask) : Except Stop Fx :=
  match s.readOpds x act o [fieldA o] with
  | .error e => .error e
  | .ok qs =>
    let q := once act qs 0
    match s.sqCheck x act q 0 true with
    | .error e => .error e
    | .ok y =>
      let d := dstOpd o y.regs
      if pastEnd d then .error (x.trap act .illegalOperand x.base 3)
      else match x.names act 3 d.name d.n with
        | .error e => .error e
        | .ok ns =>
          let p := fun (s : State) (v : Mask) => match (if nb then s.putPred x act (outcomeOf o) v else .ok s) with
            | .error st => Except.error st
            | .ok s => .ok { s := s : Fx }
          match y.entries with
          | e :: r =>
            -- waiting pops come first
            if y.poppers.isEmpty then
              match s.sqTake x act ns e.2 with
              | .error st => .error st
              | .ok s => p (s.modSq q (fun y => { y with entries := r })) act
            else if nb then p s 0
            else
              let (id, s) := s.newId
              .error (.wait (s.modSq q (fun y => { y with poppers := y.poppers ++ [(x.c, x.w, id)] })) (.sqpop q id ns))
          | [] =>
            if nb then p s 0
            else
              let (id, s) := s.newId
              .error (.wait (s.modSq q (fun y => { y with poppers := y.poppers ++ [(x.c, x.w, id)] })) (.sqpop q id ns))

def execSqpop (o : Opnds) (nb : Bool) (s : State) : Host.Outcome State Fault Refusal :=
  simt s o false noPre (sqpopBody o nb) .none (if nb then [outcomeOf o] else [])

/-! ### SQSTAT (R400) -/

def execSqstat (o : Opnds) (s : State) : Host.Outcome State Fault Refusal :=
  simt s o false noPre (fun s x act => match s.readOpds x act o [fieldA o] with
    | .error e => .error e
    | .ok qs => match s.sqCheck x act (once act qs 0) 0 false with
      | .error e => .error e
      | .ok y => match s.putScalar x act o.d.toNat [BitVec.ofNat 32 y.entries.length, y.drops] with
        | .error e => .error e
        | .ok s => .ok { s := s })

/-! ### Waiting pushes and pops (R348, R399) -/

/-- The oldest waiting push of a queue with room is applied. -/
def State.servePush (s : State) (q : Nat) : State :=
  let y := s.sq q
  match y.pushers with
  | [] => s
  | p :: r =>
    if y.full || s.entryWaits q then s
    else match (s.wave p.1 p.2.1).waits.find? (fun v => v.kind == .sqpush q p.2.2.1) with
      | none => s.modSq q (fun y => { y with pushers := r })
      | some v =>
        let s := s.modSq q (fun y => { y with pushers := r })
        (match s.sqStore q p.2.2.2 y.entries with
          | .fault s c va => s.trapWait p.1 p.2.1 v c va (some (0, 1))
          | .done s => s.endWait p.1 p.2.1 v
          | .full => s)

/-- The oldest waiting pop of a queue with an entry takes it, once its wave has room for the registers that it then holds (R271); where
it finds no free register the slice's youngest borrowing wave is saved (R272). -/
def State.servePop (s : State) (q : Nat) : State :=
  let y := s.sq q
  match y.poppers, y.entries with
  | p :: r, e :: es =>
    (match (s.wave p.1 p.2.1).waits.find? (fun v => match v.kind with | .sqpop a k _ => a == q && k == p.2.2 | _ => false) with
      | none => s.modSq q (fun y => { y with poppers := r })
      | some v =>
        let ns := match v.kind with | .sqpop _ _ ns => ns | _ => []
        match s.sqTake (v.iss s p.1 p.2.1) v.active ns e.2 with
        | .ok t => if s.transitsOver (v.iss s p.1 p.2.1) t then s
          else State.endWaitWith p.1 p.2.1 v { s := t.modSq q (fun y => { y with poppers := r, entries := es }) }
        | .error .noReg => s.spillWave p.1 (sliceOf p.2.1)
        | .error (.trap t) =>
          ((s.modSq q (fun y => { y with poppers := r })).dropWait p.1 p.2.1 v).trapNow (v.iss s p.1 p.2.1) t
        | .error _ => s)
  | _, _ => s

/-- Serve the waiters of a queue, at most `fuel` of each kind. -/
def State.serveQueue (s : State) (q : Nat) : Nat → State
  | 0 => s
  | fuel + 1 => ((s.servePush q).servePop q).serveQueue q fuel

/-- Serve every queue's waiters. -/
def State.settleQueues (s : State) : State :=
  s.queues.foldl (fun s (e : Nat × StageQ) => s.serveQueue e.1 (e.2.pushers.length + e.2.poppers.length)) s

/-! ### CQPOP (R360, R361, R374) -/

/-- Take entries for the active lanes: the receiving lanes' destinations are on their way, and the predicate says which
lanes received (R360). -/
def State.cqTake (s : State) (x : Iss) (act : Mask) (q : Nat) (ns : List Nat) (pred : Nat) : Except Stop State :=
  let T := s.team x.src.team
  let y := T.cq x.c q
  let ls := (lanesOf act).take y.count
  let got := maskOf (fun l => ls.contains l)
  let off := fun (i : Nat) => T.cqOff q + 16 * ((y.head + i) % T.cqd)
  let at_ := fun (i : Nat) => s.homeRead (s.benchAt x.src.team x.c (off i)) 16
  let bad := (List.range ls.length).find? (fun i => (at_ i).isNone)
  match bad with
  | some i => .error (x.trap act .uncorrectable (BitVec.ofNat 64 (off i)))
  | none =>
    let bs := (List.range ls.length).map (fun i => (nth ls i 0, (at_ i).getD []))
    let reads := (List.range ls.length).map (fun i => ({
      lane := nth ls i 0, va := BitVec.ofNat 64 (off i), key := s.benchAt x.src.team x.c (off i) } : LaneAcc))
    let s := s.modTeam x.src.team (fun t => { t with
      cqs := FMap.set t.cqs (8 * x.c + q) { y with head := (y.head + ls.length) % max T.cqd 1, count := y.count - ls.length } })
    match (if got = 0 then .ok s else
        let transit := s.priorRegs x got ns
        match s.pendNames x got ns with
        | .error e => Except.error e
        | .ok (ps, prior, s) =>
          let (id, s) := s.newId
          let op : Op := {
            id := id, wave := x.w, kind := .cqpop, pc := x.pc, clk := x.clk, bundle := x.lanes, active := got, size := 16,
            lanes := reads, done := bs, dest := .vec (nth ns 0 0) ps, prior := prior, transit := transit }
          .ok ((s.modCore x.c (fun k => { k with ops := k.ops ++ [op] })).sweep x.c x.slice)) with
    | .error e => .error e
    | .ok s => s.putPred x act pred got

/-- Entries that a waiting form waits for. -/
def State.cqEnough (s : State) (x : Iss) (q k : Nat) : Bool :=
  let T := s.team x.src.team
  decide (min k T.cqd ≤ (T.cq x.c q).count)

/-- `CQPOP` (R374): a queue that the team does not have traps before anything else that the instruction meets (R60). -/
def cqpopBody (o : Opnds) (wait : Bool) (s : State) (x : Iss) (act : Mask) : Except Stop Fx :=
  let opds := [fieldA o, fieldB o, fieldC o]
  match s.sources x act o [fieldA o] with
  | .error e => .error e
  | .ok va =>
  if (s.team x.src.team).cqn ≤ once act va 0 then .error (x.trap act .illegalOperand x.base 0)
  else match x.namesOk act (opds ++ [dstOpd o 4]) with
  | .error e => .error e
  | .ok _ => match s.readOpds x act o opds with
    | .error e => .error e
    | .ok vs => match x.names act 3 o.d.toNat 4 with
      | .error e => .error e
      | .ok ns =>
        let q := once act vs 0
        let k := once act vs 1
        let tmo := once act vs 2
        if wait && (k == 0 || decide (32 < k)) then .error (x.trap act .indexRange 0)
        else if wait && !s.cqEnough x q k then
          if (s.pendingPreds x).contains (outcomeOf o) then .error .block
          else
          let (id, s) := s.newId
          .error (.wait s (.cqpop q k (if tmo = 0 then none else some (s.time + 1024 * tmo)) ns (outcomeOf o) id))
        else match s.cqTake x act q ns (outcomeOf o) with
          | .error e => .error e
          | .ok s => .ok { s := s }

def execCqpop (o : Opnds) (wait : Bool) (s : State) : Host.Outcome State Fault Refusal :=
  simt s o false noPre (cqpopBody o wait) .none [outcomeOf o]

/-- A waiting `CQPOP` takes what is there and retires, once its wave has room for the registers that it then holds (R271); where it
finds no free register the slice's youngest borrowing wave is saved (R272). -/
def State.cqServe (s : State) (c w : Nat) (v : Wait) : State :=
  match v.kind with
  | .cqpop q _ _ ns pred _ =>
    let x := v.iss s c w
    (match s.cqTake x v.active q ns pred with
      | .ok t => if s.transitsOver x t then s else State.endWaitWith c w v { s := t }
      | .error (.trap t) => (s.dropWait c w v).trapNow x t
      | .error .noReg => s.spillWave c (sliceOf w)
      | .error _ => s)
  | _ => s

/-- Order of issue of a waiting `CQPOP`. -/
def WaitKind.ticket : WaitKind → Nat
  | .cqpop _ _ _ _ _ t => t
  | _ => 0

/-- Waiting `CQPOP`s whose conditions hold are served in the order of issue. -/
def State.settleCqpops (s : State) : State :=
  s.cores.foldl (fun s (e : Nat × Core) =>
    let ws := s.waitsOn e.1 (fun _ k => match k with | .cqpop _ _ _ _ _ _ => true | _ => false)
    (sortBy (fun (a b : Nat × Wait) => decide (a.2.kind.ticket ≤ b.2.kind.ticket)) ws).foldl (fun s v => match v.2.kind with
      | .cqpop q k _ _ _ _ => if s.cqEnough (v.2.iss s e.1 v.1) q k then s.cqServe e.1 v.1 v.2 else s
      | _ => s) s) s

/-- A time-out passes: the bundle takes what is present, possibly nothing. -/
def execCqpopTimeout (c w : Nat) (lanes : Mask) (s : State) : Host.Outcome State Fault Refusal :=
  .next (match (s.wave c w).waits.find? (fun v => v.lanes == lanes && (match v.kind with | .cqpop _ _ _ _ _ _ => true | _ => false)) with
    | some v => match v.kind with
      | .cqpop _ _ (some u) _ _ _ => if u ≤ s.time ∧ (s.wave c w).dbg.isNone = true then s.cqServe c w v else s
      | _ => s
    | none => s)

end Sys2Proof.Machine
end

