-- ==== Sys2Proof/Machine/Matrix.lean ====
section
/-! DEFINITION. The matrix engine and the latent expander (R133-R167): formats, fragments and tiles, what each engine
instruction computes, its checks and its entry into the queue, and the events of the queue. -/
namespace Sys2Proof.Machine

/-! ### Formats (R133, R143) -/

/-- The kinds of format that R133 pairs. -/
inductive MatCls where
  | f32 | half | e8 | i8 | i4 | g8 | g4
  deriving DecidableEq, Repr

def matCls : Nat → Option MatCls
  | 1 => some .f32
  | 2 => some .half | 3 => some .half
  | 4 => some .e8 | 5 => some .e8
  | 6 => some .i8 | 7 => some .i8
  | 8 => some .i4 | 9 => some .i4
  | 10 => some .g8 | 11 => some .g4
  | _ => none

/-- The rows of R133 with the operands in the order of the table. -/
def matRow : MatCls → MatCls → Bool
  | .half, .half => true | .e8, .e8 => true | .i8, .i8 => true | .i4, .i4 => true | .f32, .f32 => true
  | .half, .g8 => true | .half, .g4 => true
  | .e8, .g8 => true | .i8, .g8 => true | .e8, .g4 => true | .i8, .g4 => true
  | .i4, .g4 => true
  | _, _ => false

/-- Whether the engine accepts a pair of formats, in either order (R133). -/
def matPair (fa fb : Nat) : Bool :=
  match matCls fa, matCls fb with
  | some a, some b => matRow a b || matRow b a
  | _, _ => false

/-- K of a pair (R133). -/
def matK (fa fb : Nat) : Nat := 16 * (32 / max (codeWidth fa) (codeWidth fb))
/-- Registers read of an operand of `k` elements of width `w` a row. -/
def fragRegs (k w : Nat) : Nat := k * w / 64

/-! ### Fragments and tiles (R135, R136) -/

/-- Element (x, k) of a fragment of width `w`. -/
def fragElem (regs : List VReg) (w x k : Nat) : Nat :=
  let e := 32 / w
  elemNat (vlane (nth regs (k / (2 * e)) vzero) (x + 16 * (k / e % 2))).toNat (k % e) w

/-- Element (i, n) of a tile in registers, of a format of width `w`. -/
def tileElem (regs : List VReg) (w i n : Nat) : Nat :=
  if w = 32 then (vlane (nth regs (i / 2) vzero) (16 * (i % 2) + n)).toNat
  else elemNat (vlane (nth regs (i / 4) vzero) (16 * (i % 2) + n)).toNat (i / 2 % 2) 16

/-- The registers that hold a tile of a format of width `w`; `f` gives the element at 16·i + n. -/
def tileRegs (w : Nat) (f : Nat → Nat) : List VReg :=
  if w = 32 then (List.range 8).map (fun r => vbuild (fun l => BitVec.ofNat 32 (f (16 * (2 * r + l / 16) + l % 16))))
  else (List.range 4).map (fun r => vbuild (fun l =>
    BitVec.ofNat 32 (packElems 16 (fun j => f (16 * (4 * r + 2 * j + l / 16) + l % 16)) 2)))

/-- Value of an element of a format code that is not grouped (R141). -/
def matValue (f b : Nat) : FVal :=
  match fmtOfCode f, intOfCode f with
  | some g, _ => value g b
  | none, some (w, sg) => ofInt (intOf b w sg)
  | none, none => .num false 0 1

/-- Value of an element of any format code, a grouped one by its scale and zero point, with the flags of the latter's product
(R73, R141, R142). -/
def matElem (f b sc z : Nat) : FVal × Flags := if isGrouped f then grpValue b sc z else (matValue f b, 0)

/-- Scale or zero point of row or column `x` at depth `k` (R142). -/
def groupItem (l : List Word) (g kk x k : Nat) : Nat := (nth l (16 * (if g = 0 ∨ kk ≤ g then 0 else k / g) + x) 0).toNat

/-! ### What the engine computes (R141, R144, R150, R158-R161) -/

/-- Add the sum of products `terms i n` into every element of a tile; one flag set (R141). -/
def tileAdd (t : List Lac) (terms : Nat → Nat → Sum) : List Lac × Flags :=
  let rs := (List.range 256).map (fun p =>
    let v := (terms (p / 16) (p % 16)).value
    let r := lacAdd (nth t p {}) v.1
    (r.1, v.2 ||| r.2))
  (rs.map (·.1), rs.foldl (fun f r => f ||| r.2) 0)

/-- The exact sum of products over a list of pairs of factors (R141). -/
def sumProducts (ps : List (FVal × FVal)) : Sum :=
  ps.foldl (fun a p => let m := mulExact p.1 p.2; a.add m.1 m.2) {}

/-- Whether the zero flag of a fragment is set for an entry (R147). -/
def EngEntry.zero (e : EngEntry) (n : Nat) : Bool := e.zskip && e.mask.getLsbD (n % 32)

/-- The products of `MMA` for an element (R158). -/
def EngEntry.mmaTerms (e : EngEntry) (i n : Nat) : Sum :=
  let wa := codeWidth e.fa
  let wb := codeWidth e.fb
  let kk := matK e.fa e.fb
  let ra := e.srcs.take e.nA
  let rb := e.srcs.drop e.nA
  if e.zero e.x0 || e.zero e.x1 then {}
  else
    let a := fun (k : Nat) => matElem e.fa (fragElem ra wa i k) (groupItem e.scl e.gs kk i k) (groupItem e.zp e.gs kk i k)
    let b := fun (k : Nat) => matElem e.fb (fragElem rb wb n k) (groupItem e.scl e.gs kk n k) (groupItem e.zp e.gs kk n k)
    (List.range kk).foldl (fun (t : Sum) k =>
      let p := a k
      let q := b k
      let m := mulExact p.1 q.1
      t.add m.1 (m.2 ||| p.2 ||| q.2)) {}

/-- Kept blocks of `nk` of a row of sparse metadata: the logical block of stored block `b` (R144). -/
def keptBlock (out : Outer) (lo b : Nat) : Nat :=
  match out with
  | .dense => b
  | .o24 => 4 * (b / 2) + lo / 2 ^ (24 + 4 * (b / 2) + 2 * (b % 2)) % 4
  | .o12 => 2 * b + lo / 2 ^ (24 + b) % 2

/-- The pair of an inner code (R144). -/
def innerPair (code j : Nat) : Nat :=
  match code with
  | 0 => j
  | 1 => 2 * j
  | 2 => 3 * j
  | 3 => 1 + j
  | 4 => 1 + 2 * j
  | _ => 2 + j

/-- The inner code of stored group `g` of a row whose metadata words are `lo` and `hi`. -/
def innerCode (lo hi g : Nat) : Nat := if g < 8 then elemNat lo g 3 else elemNat hi (g - 8) 3

/-- `logical_k` (R144). -/
def logicalK (out : Outer) (inner : Bool) (lo hi m : Nat) : Nat :=
  if inner then
    let g := m / 2
    16 * keptBlock out lo (g / 4) + 4 * (g % 4) + innerPair (innerCode lo hi g) (m % 2)
  else 16 * keptBlock out lo (m / 16) + m % 16

/-- The products of `MMAS` for an element (R159). -/
def EngEntry.mmasTerms (e : EngEntry) (i n : Nat) : Sum :=
  let wa := codeWidth e.fa
  let wb := codeWidth e.fb
  let kk := 16 * (32 / wa)
  let ra := e.srcs.take 8
  let meta_ := nth e.srcs 8 vzero
  let rb := e.srcs.drop 9
  if e.zero e.x0 then {}
  else sumProducts ((List.range kk).filterMap (fun m =>
    let k := logicalK e.out e.inner (vlane meta_ i).toNat (vlane meta_ (i + 16)).toNat m
    let c := k / kk
    if e.zero (e.x1 + c) then none
    else some (matValue e.fa (fragElem ra wa i m), matValue e.fb (fragElem (rb.drop (8 * c)) wb n (k % kk)))))

/-- Whether the metadata of a row breaks a rule of R145; `nk` kept blocks. -/
def rowMetaBad (out : Outer) (inner : Bool) (nk lo hi : Nat) : Bool :=
  let used := match out with | .dense => 0 | .o24 => 4 * (nk / 2) | .o12 => nk
  (lo / 2 ^ 24) / 2 ^ used != 0 || hi / 2 ^ 24 != 0 ||
  (if inner then (List.range 16).any (fun g => decide (5 < innerCode lo hi g))
    else lo % 2 ^ 24 != 0 || hi % 2 ^ 24 != 0) ||
  (out == .o24 && (List.range (nk / 2)).any (fun h =>
    decide (lo / 2 ^ (26 + 4 * h) % 4 ≤ lo / 2 ^ (24 + 4 * h) % 4)))

/-- SPARSE_META (R145) of stored K `kk`. -/
def sparseBad (out : Outer) (inner : Bool) (kk : Nat) (m : VReg) : Bool :=
  (List.range 16).any (fun i =>
    rowMetaBad out inner (if inner then kk / 8 else kk / 16) (vlane m i).toNat (vlane m (i + 16)).toNat)

/-- A rounded intermediate value with the flags of its sum and its rounding (R150). -/
def roundSum (f : Fmt) (a : Sum) : FVal × Flags :=
  let v := a.value
  let r := roundTo f .rne v.1
  (value f r.1, v.2 ||| r.2)

/-- `MMAL` (R150, R161): the tile and the flag set. `w` is W of `dc` rows and `dh` columns. -/
def EngEntry.mmal (e : EngEntry) (w : List (BitVec 16)) (dc dh : Nat) (t : List Lac) : List Lac × Flags :=
  let c := fun (r k : Nat) => value .bf16 (nth e.rows (r * dc + k) 0).toNat
  let wv := fun (k h : Nat) => value .bf16 (nth w (k * dh + 32 * e.x1 + h) 0).toNat
  let q := fun (i h : Nat) => matValue e.fa (fragElem e.srcs 16 i h)
  if e.abs then
    let qa := (List.range (16 * dc)).map (fun p =>
      roundSum .f32 (sumProducts ((List.range 32).map (fun h => (q (p / dc) h, wv (p % dc) h)))))
    let r := tileAdd t (fun i n => sumProducts ((List.range dc).map (fun k => ((nth qa (i * dc + k) (canonExt, 0)).1, c n k))))
    (r.1, qa.foldl (fun f p => f ||| p.2) r.2)
  else
    let ks := (List.range (16 * 32)).map (fun p =>
      roundSum (if e.k32 then .f32 else .bf16) (sumProducts ((List.range dc).map (fun k => (c (p / 32) k, wv k (p % 32))))))
    let r := tileAdd t (fun i n => sumProducts ((List.range 32).map (fun h => (q i h, (nth ks (32 * n + h) (canonExt, 0)).1))))
    (r.1, ks.foldl (fun f p => f ||| p.2) r.2)

/-- `MACW` (R163). -/
def EngEntry.macw (e : EngEntry) (t : List Lac) : List Lac × Flags :=
  let rs := (List.range 256).map (fun p =>
    lacOf (nth t p {}) (matValue e.fa (tileElem e.srcs (codeWidth e.fa) (p / 16) (p % 16))))
  (rs.map (·.1), rs.foldl (fun f r => f ||| r.2) 0)

/-- One element of `MACR` (R164). -/
def macrElem (f : Nat) (m : Rm) (a : Lac) : Nat × Flags :=
  match fmtOfCode f with
  | some g => lacRead g m a
  | none => lacReadInt m a

/-! ### The queue (R15, R154) -/

/-- Free places of the queue. -/
def Core.engRoom (k : Core) : Nat := 8 - (k.eng.map (·.places)).foldl (· + ·) 0

/-- The LX as every `LXLD` and `LXINV` in the queue leaves it (R153). -/
def Core.lxQueued (k : Core) : Lx :=
  k.eng.foldl (fun x e => match e.kind with
    | .lxld => { x with dc := e.x1, dh := e.x2, loaded := true, ctx := e.gs, version := x.version + 1 }
    | .lxinv => { x with loaded := false, version := x.version + 1 }
    | _ => x) k.lx

/-- The tile that a class 01 name names (R140). -/
def Iss.tile (x : Iss) (name : BitVec 11) : Nat := nth x.src.acc (name.toNat - 136) 0

/-- An instruction enters the queue and retires (R153, R154); one that changes a tile does so in the tile's write generation at once
(R156). -/
def State.engEnter (s : State) (x : Iss) (o : Opnds) (raise : Flags) (bump : Bool) (e : EngEntry) : Except Stop Fx :=
  if (s.core x.c).engRoom < e.places then .error .block
  else
    let (id, s) := s.newId
    let e := { e with
      id := id, wave := x.w, pc := x.pc, clk := x.clk, bundle := x.lanes, base := x.base, ext := extWord o, pfx := x.pfx,
      hold := decide (raise &&& srEnable x.src.sr ≠ 0) }
    .ok { s := s.modCore x.c (fun k =>
      let k := { k with eng := k.eng ++ [e] }
      if bump then k.changeTile e.tile (fun y => y) else k) }

/-! ### Checks at issue (R137, R151-R153) -/

def allLanes : Mask := 0xFFFFFFFF

/-- The checks before the guard: a tile name of the wave, and a bundle of all 32 threads. `pos` is the tile's position. -/
def tilePre (name : Option (BitVec 11)) (pos : Nat) (conv : Bool) (x : Iss) : Option Stop :=
  if (name.any (fun n => decide (x.src.acc.length ≤ n.toNat - 136))) = true then some (x.pre .illegalOperand x.base pos)
  else if conv = true ∧ x.lanes ≠ allLanes then some (x.pre .convergence 0 0)
  else none

/-- A predicate that is true in some lanes only (R137). -/
def convergedBody (f : State → Iss → Mask → Except Stop Fx) (s : State) (x : Iss) (act : Mask) : Except Stop Fx :=
  if act ≠ allLanes then .error (x.pre .convergence 0 0) else f s x act

/-- ILLEGAL_OPERAND of a format combination (R152). -/
def Iss.badFormats (x : Iss) : Stop := .trap {
  cause := .illegalOperand, cls := clsW, mask := x.lanes, addr := x.base, pc := x.pc, bundle := x.lanes, again := x.lanes }

/-- The scale and zero-point operands of a prefix (R61, R142); an empty one holds its wave (log entry 65). -/
def pfxScl (p : DWord) : Opd :=
  { pos := 4, cls := if p.getLsbD 22 then .sca else .vec, name := (p.extractLsb' 23 11).toNat, ep := false }
def pfxZp (p : DWord) : Opd :=
  { pos := 5, cls := if p.getLsbD 10 then .sca else .vec, name := (p.extractLsb' 11 11).toNat, ep := false }

/-- The 64 scales or zero points that an operand gives, of `w` bits each (R142). -/
def groupVals (d : Opd) (v : VReg) (w : Nat) : List Word :=
  (List.range 64).map (fun p =>
    let x := p % 16
    let t := p / 16
    BitVec.ofNat 32 (if d.cls = .sca then elemNat (vlane v 0).toNat 0 w
      else elemNat (vlane v (x + 16 * (t % 2))).toNat (t / 2) w))

/-- The mask operand of `.ZSKIP` (R147). -/
def maskOpds (o : Opnds) (zskip : Bool) : List Opd := if zskip then [fieldC o] else []
def maskOf0 (v : Src) : Mask := vlane (nth v.vals 0 vzero) 0

/-- Name of a fragment's zero flag (R147). -/
def flagNo (name : BitVec 11) : Nat := name.toNat / 8

/-- Half formats of an instruction without a prefix. -/
def halfCode (bf : Bool) : Nat := if bf then 3 else 2
/-- A prefix code over the instruction's own. -/
def overCode (p own : Nat) : Nat := if p = 0 then own else p

/-! ### MMA and MMAS (R158, R159) -/

def execMma (o : Opnds) (bf zskip : Bool) (s : State) : Host.Outcome State Fault Refusal :=
  simt s o true (tilePre (some o.d) 3 true) (convergedBody (fun s x act =>
    let fa := overCode (pfxA x.pfx) (halfCode bf)
    let fb := overCode (pfxB x.pfx) (halfCode bf)
    let g := groupSize (pfxGs x.pfx)
    let grouped := isGrouped fa || isGrouped fb
    let kk := matK fa fb
    if !matPair fa fb || pfxC x.pfx != 0 || decide (1 < pfxD x.pfx) || (pfxGs x.pfx != 0) != grouped then .error x.badFormats
    else
      let na := fragRegs kk (codeWidth fa)
      let nb := fragRegs kk (codeWidth fb)
      match s.sources x act o ([fieldA o na, fieldB o nb] ++ (if grouped then [pfxScl x.pfx, pfxZp x.pfx] else []) ++
          maskOpds o zskip) with
      | .error e => .error e
      | .ok vs =>
        let reg := fun (i : Nat) => nth (nth vs i Src.none).vals 0 vzero
        let zp := if grouped then groupVals (pfxZp x.pfx) (reg 3) 8 else []
        let nt := if kk ≤ g then 1 else kk / g
        if grouped && (fa == 11 || fb == 11) && (zp.take (16 * nt)).any (fun z => decide (15 < z.toNat)) then
          .error (x.trap act .quantGroup 0)
        else s.engEnter x o (fIV ||| fLAC) true {
          id := 0, wave := x.w, kind := .mma, places := if fa = 1 then 4 else 1, tile := x.tile o.d
          srcs := (nth vs 0 Src.none).vals ++ (nth vs 1 Src.none).vals, regs := srcRegs vs, fa := fa, fb := fb, gs := g
          scl := if grouped then groupVals (pfxScl x.pfx) (reg 2) 16 else []
          zp := zp, mask := if zskip then maskOf0 (nth vs (if grouped then 4 else 2) Src.none) else 0
          zskip := zskip, nA := na, nB := nb, x0 := flagNo o.a, x1 := flagNo o.b
          sclB := if grouped then BitVec.ofNat 64 (
              (if (pfxScl x.pfx).cls = .sca then (nth vs 2 Src.none).nat 0 else 0) +
              2 ^ 32 * (if (pfxZp x.pfx).cls = .sca then (nth vs 3 Src.none).nat 0 else 0)) else 0
          sclC := if zskip then BitVec.ofNat 64 ((nth vs (if grouped then 4 else 2) Src.none).nat 0) else 0 }))

def outRatio : Outer → Bool → Nat
  | .dense, false => 1 | .dense, true => 2 | _, false => 2 | _, true => 4

/-- `MMAS`; the empty policy of the metadata register is that of A (log entry 65). -/
def execMmas (o : Opnds) (bf : Bool) (out : Outer) (inner zskip : Bool) (s : State) : Host.Outcome State Fault Refusal :=
  simt s o true (tilePre (some o.d) 3 true) (convergedBody (fun s x act =>
    let fa := overCode (pfxA x.pfx) (halfCode bf)
    let fb := overCode (pfxB x.pfx) (halfCode bf)
    let okA := decide (2 ≤ fa) && decide (fa ≤ 7) && (!inner || codeWidth fa == 16)
    let r := outRatio out inner
    if !okA || isGrouped fb || codeWidth fb != codeWidth fa || !matPair fa fb || pfxC x.pfx != 0 || decide (1 < pfxD x.pfx) ||
        pfxGs x.pfx != 0 then .error x.badFormats
    else
      match s.sources x act o ([fieldA o 8, fieldB o (8 * r),
          { fieldA o with pos := 6, name := o.a.toNat + 8 }] ++ maskOpds o zskip) with
      | .error e => .error e
      | .ok vs =>
        let m := nth (nth vs 2 Src.none).vals 0 vzero
        if sparseBad out inner (16 * (32 / codeWidth fa)) m then .error (x.trap act .sparseMeta 0)
        else s.engEnter x o (fIV ||| fLAC) true {
          id := 0, wave := x.w, kind := .mmas, tile := x.tile o.d
          srcs := (nth vs 0 Src.none).vals ++ [m] ++ (nth vs 1 Src.none).vals, regs := srcRegs vs, fa := fa, fb := fb
          mask := if zskip then maskOf0 (nth vs 3 Src.none) else 0
          zskip := zskip, out := out, inner := inner, nA := 8, nB := 8 * r, x0 := flagNo o.a, x1 := flagNo o.b
          sclC := if zskip then BitVec.ofNat 64 ((nth vs 3 Src.none).nat 0) else 0 }))

/-! ### MMAL (R160) -/

/-- A Bench operand of the LX: MISALIGNED, then BENCH_RANGE over `n` bytes of the issuing core's Bench. -/
def State.lxBench (s : State) (x : Iss) (act : Mask) (a n : Nat) : Except Stop Nat :=
  if a % 64 ≠ 0 then .error (x.trap act .misaligned (BitVec.ofNat 64 a))
  else match s.localBench x.src.team a n with
    | none => .error (x.trap act .benchRange (BitVec.ofNat 64 a))
    | some k => if benchCore k ≠ x.c then .error (x.trap act .benchRange (BitVec.ofNat 64 a))
      else if (s.homeRead k n).isNone then .error (x.trap act .uncorrectable (BitVec.ofNat 64 a))
      else .ok k

def execMmal (o : Opnds) (bf abs k32 : Bool) (s : State) : Host.Outcome State Fault Refusal :=
  simt s o true (tilePre (some o.d) 3 true) (convergedBody (fun s x act =>
    let fq := overCode (pfxA x.pfx) (halfCode bf)
    if !isHalf fq || (pfxB x.pfx != 0 && pfxB x.pfx != 3) || pfxC x.pfx != 0 || decide (1 < pfxD x.pfx) || pfxGs x.pfx != 0 then
      .error x.badFormats
    else match s.sources x act o ([fieldA o 8, fieldB o] ++ (if o.cc = .none then [] else [fieldC o])) with
      | .error e => .error e
      | .ok vs =>
        let lx := (s.core x.c).lxQueued
        let j := if o.cc = .none then 0 else once act vs 2
        if !lx.loaded || lx.ctx != x.ctx then .error (x.trap act .lxNotLoaded 0)
        else if lx.dh / 32 ≤ j then .error (x.trap act .indexRange 0)
        else match s.lxBench x act (once act vs 1) (32 * lx.dc) with
          | .error e => .error e
          | .ok k => s.engEnter x o (fIV ||| fLAC ||| fIX ||| fUF ||| fOF) true {
              id := 0, wave := x.w, kind := .mmal, tile := x.tile o.d, srcs := (nth vs 0 Src.none).vals
              regs := srcRegs vs, fa := fq, nA := 8, abs := abs, k32 := k32, x0 := k, x1 := j, lxVersion := lx.version
              sclB := BitVec.ofNat 64 (once act vs 1), sclC := BitVec.ofNat 64 j }))

/-! ### Tiles (R162-R164) -/

def execMacz (o : Opnds) (s : State) : Host.Outcome State Fault Refusal :=
  simt s o false (tilePre (some o.d) 3 false) (fun s x _ =>
    s.engEnter x o 0 true { id := 0, wave := x.w, kind := .macz, tile := x.tile o.d })

def tileCode : TileFmt → Nat
  | .f32 => 1 | .f16 => 2 | .bf16 => 3 | .i32 => 14

/-- The formats of a tile moved to or from registers (R152). -/
def tileFmtOk (c : Nat) : Bool := c == 1 || c == 2 || c == 3 || c == 14

def execMacw (o : Opnds) (f : TileFmt) (s : State) : Host.Outcome State Fault Refusal :=
  simt s o true (tilePre (some o.d) 3 true) (convergedBody (fun s x act =>
    let fa := overCode (pfxA x.pfx) (tileCode f)
    if !tileFmtOk fa || pfxB x.pfx != 0 || pfxC x.pfx != 0 || pfxD x.pfx != 0 || pfxGs x.pfx != 0 then .error x.badFormats
    else match s.sources x act o [fieldA o (codeWidth fa / 4)] with
      | .error e => .error e
      | .ok vs => s.engEnter x o fIV true {
          id := 0, wave := x.w, kind := .macw, tile := x.tile o.d, srcs := (nth vs 0 Src.none).vals
          regs := srcRegs vs, fa := fa, nA := codeWidth fa / 4 }))

/-- Whether a tile holds a poisoned element that no write in the queue clears (R451). -/
def Core.tilePoisoned (k : Core) (t : Nat) : Bool :=
  !(FMap.getD k.tiles t {}).poison.isEmpty && !k.eng.any (fun e => e.tile == t && (e.kind == .macz || e.kind == .macw))

/-- Flags that `MACR` can raise (R155). -/
def macrRaise : Flags := fIV ||| fIX ||| fUF ||| fOF

def execMacr (o : Opnds) (f : TileFmt) (r : Rm) (s : State) : Host.Outcome State Fault Refusal :=
  simt s o true (tilePre (some o.a) 0 true) (convergedBody (fun s x act =>
    let fd := overCode (pfxD x.pfx) (tileCode f)
    let n := codeWidth fd / 4
    let t := x.tile o.a
    let k := s.core x.c
    if !tileFmtOk fd || pfxA x.pfx != 0 || pfxB x.pfx != 0 || pfxC x.pfx != 0 || pfxGs x.pfx != 0 then .error x.badFormats
    else match x.names act 3 o.d.toNat n with
      | .error e => .error e
      | .ok ns =>
        if k.tilePoisoned t then .error (x.trap act .uncorrectable 0)
        else
          let src : Src := { vals := [], key := [t, (FMap.getD k.tiles t {}).gen] }
          let key := reuseKey x act (opItemsRm (.macr o f r) r x) [src] none ns
          match s.reuseHit x act key ns none macrRaise with
          | some h => h
          | none =>
            if k.engRoom < 1 then .error .block
            else match s.pendNames x act ns with
              | .error e => .error e
              | .ok (ps, prior, s) =>
                match s.engEnter x o macrRaise false {
                    id := 0, wave := x.w, kind := .macr, tile := t, fa := fd, rm := (rmEff x.src.sr r).code.toNat
                    dest := .vec (nth ns 0 0) ps, prior := prior } with
                | .error e => .error e
                | .ok fx =>
                  let s := fx.s.sweep x.c x.slice
                  if macrRaise &&& srEnable x.src.sr ≠ 0 then .ok { s := s }
                  else .ok { s := s.reuseAdd x.c x.slice { key := key, ctx := x.ctx, result := .regs ps, tile := some t } }))

/-! ### ZFLG (R165) -/

def execZflg (o : Opnds) (s : State) : Host.Outcome State Fault Refusal :=
  simt s o false (tilePre none 0 true) (convergedBody (fun s x act =>
    match s.sources x act o [fieldB o] with
    | .error e => .error e
    | .ok cs =>
      let cnt := once act cs 0
      if cnt < 1 ∨ 32 < cnt ∨ 2047 < o.a.toNat + 8 * cnt - 1 then .error (x.trap act .indexRange 0)
      else match s.sources x act o [fieldA o (8 * cnt)] with
        | .error e => .error e
        | .ok vs =>
          let rs := (nth vs 0 Src.none).vals
          let zero := fun (c : Nat) => ((rs.drop (8 * c)).take 8).all (fun v => v == vzero)
          let at_ := fun (l : Nat) => (List.range cnt).filter (fun c => (flagNo o.a + c) % 32 == l)
          if (s.pendingPreds x).contains (o.d.toNat - 144) then .error .block
          else s.engEnter x o 0 false {
            id := 0, wave := x.w, kind := .zflg, regs := srcRegs vs, dest := .pred (o.d.toNat - 144)
            mask := maskOf (fun l => !(at_ l).isEmpty), sclB := BitVec.ofNat 64 cnt
            x0 := (maskOf (fun l => (at_ l).any zero)).toNat })) .none [o.d.toNat - 144]

/-! ### LXLD and LXINV (R166, R167) -/

def execLxld (o : Opnds) (s : State) : Host.Outcome State Fault Refusal :=
  simt s o false noPre (fun s x act => match s.sources x act o [fieldA o, fieldB o, fieldC o] with
    | .error e => .error e
    | .ok vs =>
      let dc := once act vs 1
      let dh := once act vs 2
      if dc % 32 ≠ 0 ∨ dc < 32 ∨ 512 < dc ∨ dh % 32 ≠ 0 ∨ dh = 0 ∨ 32768 < dc * dh then .error (x.trap act .indexRange 0)
      else match s.lxBench x act (once act vs 0) (2 * dc * dh) with
        | .error e => .error e
        | .ok k => s.engEnter x o 0 false {
            id := 0, wave := x.w, kind := .lxld, gs := x.ctx, x0 := k, x1 := dc, x2 := dh
            sclB := BitVec.ofNat 64 (dc + 2 ^ 32 * once act vs 0), sclC := BitVec.ofNat 64 dh })

def execLxinv (o : Opnds) (s : State) : Host.Outcome State Fault Refusal :=
  simt s o false noPre (fun s x _ => s.engEnter x o 0 false { id := 0, wave := x.w, kind := .lxinv })

/-! ### Events of the queue (R154) -/

def State.modEntry (s : State) (c id : Nat) (f : EngEntry → EngEntry) : State :=
  s.modCore c (fun k => { k with eng := k.eng.map (fun e => if e.id == id then f e else e) })
def State.dropEntry (s : State) (c id : Nat) : State :=
  s.modCore c (fun k => { k with eng := k.eng.filter (fun e => e.id != id) })
def State.modTile (s : State) (c t : Nat) (f : Tile → Tile) : State :=
  s.modCore c (fun k => { k with tiles := FMap.mod k.tiles t {} f })

/-- The oldest entry that still takes a place. -/
def Core.engHead (k : Core) : Option EngEntry := k.eng.find? (fun e => decide (0 < e.places))

/-- Elements of a tile as `MACR` reads them. -/
def State.readTile (s : State) (c : Nat) (e : EngEntry) : State :=
  let t := FMap.getD (s.core c).tiles e.tile {}
  let m := (Rm.ofCode (BitVec.ofNat 3 e.rm)).getD .rne
  let r := (List.range 256).map (fun p => macrElem e.fa m (nth t.elems p {}))
  s.modEntry c e.id (fun e => { e with
    vals := tileRegs (codeWidth e.fa) (fun p => (nth r p (0, 0)).1)
    flags := r.foldl (fun f v => f ||| v.2) 0 })

/-- An entry starts, or its next pass does: it holds its registers no longer (R138). -/
def State.startEntry (s : State) (c : Nat) (e : EngEntry) : State :=
  let s := s.modEntry c e.id (fun e => { e with
    running := true, places := e.places - 1, regs := [] })
  s.sweep c (sliceOf e.wave)

/-- The instruction of a queue entry traps UNCORRECTABLE late: it acts once for its bundle (R431, R451; log entry 73). -/
def State.entryTrap (s : State) (c : Nat) (e : EngEntry) (addr : Nat) : State :=
  s.lateTrap c e.wave {
    cause := .uncorrectable, cls := clsW, mask := e.bundle, addr := BitVec.ofNat 64 addr, pc := e.pc,
    bundle := e.bundle, again := e.bundle, clk := e.clk }

/-- An `LXLD` or an `MMAL` that finds a poisoned Bench word when it starts has no effect but its trap, with the word's address. -/
def State.lxFault (s : State) (c : Nat) (e : EngEntry) (key : Nat) : State :=
  let s := s.dropEntry c e.id
  if (s.wave? c e.wave).isNone then s else s.entryTrap c e (s.benchName (s.wave c e.wave).team key)

/-- A `MACR` that finds a poisoned element when it starts traps, and its names hold what they held before; no reuse entry offers its
result (R451, R277; log entry 73). -/
def State.tileFault (s0 : State) (c : Nat) (e : EngEntry) : State :=
  let k := sliceOf e.wave
  let s := (s0.dropEntry c e.id).modSlice c k (fun q => { q with reuse := q.reuse.filter (fun r => r.result != .regs e.dest.regs) })
  match s.settleResults c k 0 e.owns (resultsOf e.dest.regs [] e.prior) with
  | some s => let s := s.sweep c k; if (s.wave? c e.wave).isNone then s else s.entryTrap c e 0
  | none => s0.spillWave c k

def execEngineStart (c : Nat) (s : State) : Host.Outcome State Fault Refusal :=
  .next (if (s.core c).eng.any (·.running) then s
    else match (s.core c).engHead with
      | none => s
      | some e => match e.kind with
        | .macz => (s.modTile c e.tile (fun t => { t with elems := List.replicate 256 {}, poison := [] })).dropEntry c e.id
        | .lxinv => (s.modCore c (fun k => { k with lx := { k.lx with loaded := false, version := k.lx.version + 1 } })).dropEntry c e.id
        | .lxld =>
          if (s.core c).lx.loading then s
          else
            match (if e.rows = [] then s.readHalves e.x0 (e.x1 * e.x2) else .ok e.rows) with
            | .error k => s.lxFault c e k
            | .ok w => (s.modCore c (fun k => { k with lx := {
              w := w, dc := e.x1, dh := e.x2, version := k.lx.version + 1, loaded := true, ctx := e.gs, loading := true } })).dropEntry c e.id
        | .mmal =>
          if (s.core c).lx.loading then s
          else
            match s.readHalves e.x0 (16 * (s.core c).lx.dc) with
            | .error k => s.lxFault c e k
            | .ok w => (s.modEntry c e.id (fun e => { e with rows := w })).startEntry c e
        | .macr =>
          if !(FMap.getD (s.core c).tiles e.tile {}).poison.isEmpty then s.tileFault c e else (s.readTile c e).startEntry c e
        | _ => s.startEntry c e)

def execLxLoadDone (c : Nat) (s : State) : Host.Outcome State Fault Refusal :=
  .next (s.modCore c (fun k => { k with lx := { k.lx with loading := false } }))

/-- What an entry does to its tile. -/
def EngEntry.result (e : EngEntry) (k : Core) : List Lac × Flags :=
  let t := (FMap.getD k.tiles e.tile {}).elems
  match e.kind with
  | .mma => tileAdd t e.mmaTerms
  | .mmas => tileAdd t e.mmasTerms
  | .mmal => e.mmal k.lx.w k.lx.dc k.lx.dh t
  | .macw => e.macw t
  | _ => (t, 0)

/-- An entry takes its effect and its flags reach `SR` (R154, R155). -/
def State.entryEffect (s : State) (c : Nat) (e : EngEntry) : State :=
  match e.kind with
  | .zflg =>
    let s := match e.dest with
      | .pred n => s.modWave c e.wave (fun x => x.setPred n e.mask (BitVec.ofNat 32 e.x0))
      | _ => s
    s.dropEntry c e.id
  | .macr => s
  | _ =>
    let r := e.result (s.core c)
    let s := s.modTile c e.tile (fun t => { t with elems := r.1, poison := if e.kind = .macw then [] else t.poison })
    (s.dropEntry c e.id).queuedFlags c e.wave e.pc e.clk e.bundle allLanes (fun _ => r.2) true e.hold

def execEngineEffect (c : Nat) (s : State) : Host.Outcome State Fault Refusal :=
  .next (match (s.core c).eng.find? (·.running) with
    | none => s
    | some e =>
      let s := s.modEntry c e.id (fun e => { e with running := false })
      if e.places = 0 then s.entryEffect c e else s)

/-- A reuse entry made at the issue of a readout takes its flags (R275, R276). -/
def State.reuseFlags (s : State) (c k : Nat) (ps : List Nat) (f : Flags) : State :=
  s.modSlice c k (fun y => { y with reuse := y.reuse.map (fun r => if r.result == .regs ps then { r with flags := f } else r) })

def execMacrResultWrite (c op : Nat) (s : State) : Host.Outcome State Fault Refusal :=
  .next (match (s.core c).eng.find? (fun e => e.id == op && e.kind == .macr && e.places == 0 && !e.running) with
    | none => s
    | some e =>
      let k := sliceOf e.wave
      (match ((s.dropEntry c e.id).reuseFlags c k e.dest.regs e.flags).settleResults c k allLanes e.owns (resultsOf e.dest.regs e.vals e.prior) with
        | some s => ((s.sweep c k).shareFlags c e.sharers allLanes (fun _ => e.flags)).queuedFlags c e.wave e.pc e.clk e.bundle allLanes (fun _ => e.flags) true e.hold
        | none => s.spillWave c k))

end Sys2Proof.Machine
end

