-- ==== Sys2Proof/Machine/Place.lean ====
section
/-! DEFINITION. Where a team fits (R223, R270, R333), the choice of its place (R334), the two phases of a cluster
(R336), phased launches (R337) and handed-over Benches (R341). -/
namespace Sys2Proof.Machine

/-! ### What a core has free (R333) -/

/-- The header, slot and Bench base of each granted reservation on a core (R336). -/
def State.aside (s : State) (c : Nat) : List (Header × Nat × Nat) :=
  (s.core c).reserved.map (fun r => ((s.launch r.1).hdr, r.2.1, r.2.2))

/-- What the reservations of a core set aside in all: waves and charges of each slice, tiles, and whether the Jig. -/
structure Aside where
  waves : Nat → Nat
  charge : Nat → Nat
  tiles : Nat
  jig : Bool
def State.asides (s : State) (c : Nat) : Aside :=
  let hs := (s.aside c).map (·.1)
  let sum := fun (f : Header → Nat) => (hs.map f).foldl (· + ·) 0
  { waves := fun k => sum (·.onSlice k), charge := fun k => sum (fun h => h.charge * h.onSlice k),
    tiles := sum (fun h => h.acc * h.perCore), jig := hs.any (fun h => h.jigp != 0) }

/-- Whether a core lies in the position that a launch of a lower priority number has teams saved for (log entry 41). -/
def State.keptFrom (s : State) (p c : Nat) : Bool :=
  s.launches.any (fun (e : Nat × Launch) => e.2.spot.contains c && decide (e.2.prio < p))

/-- Team slots in use on a core, or set aside. -/
def State.usedSlots (s : State) (c : Nat) : List Nat := (s.core c).slots.map (·.1) ++ (s.aside c).map (·.2.1)
def State.freeTeamSlot (s : State) (c : Nat) : Option Nat := (List.range 64).find? (fun k => !(s.usedSlots c).contains k)

/-- Bench ranges in use on a core: resident and saved teams, ranges kept for a successor, also while its header cannot be read yet,
and those set aside. -/
def State.usedRanges (s : State) (c : Nat) : List (Nat × Nat) :=
  (s.teams.flatMap (fun (e : Nat × Team) =>
    (e.2.members.filter (fun m => m.core == c)).map (fun m => (m.base, roundUp e.2.bench 4096)))) ++
  (s.launches.flatMap (fun (e : Nat × Launch) => e.2.retained.flatMap (fun r =>
    (r.2.filter (fun m => m.core == c)).map (fun m => (m.base, e.2.hdr.benchSize))))) ++
  (s.takeUps.flatMap (fun (u : TakeUp) => u.retained.flatMap (fun r =>
    (r.2.filter (fun m => m.core == c)).map (fun m => (m.base, u.size))))) ++
  (s.aside c).map (fun a => (a.2.2, a.1.benchSize))

/-- The lowest free Bench range of a size (R223). -/
def State.freeBase (s : State) (c size : Nat) : Option Nat :=
  if size = 0 then some 0
  else ((List.range 64).map (4096 * ·)).find? (fun b => decide (b + size ≤ 262144) &&
    (s.usedRanges c).all (fun r => r.2 == 0 || decide (b + size ≤ r.1) || decide (r.1 + r.2 ≤ b)))

/-- Whether slice `k` of a core takes `n` waves of a charge besides those set aside (R270). -/
def State.sliceTakes (s : State) (c k n charge : Nat) : Bool :=
  decide (n + (s.asides c).waves k ≤ (s.freeWaveSlots c k).length) &&
  (admitWaves charge (s.reservedSum c k + (s.asides c).charge k) (s.freeRegs c k) n).isSome

/-- Waves, tiles and Jig of a header on a core. -/
def State.takesWaves (s : State) (c : Nat) (h : Header) : Bool :=
  s.inService c && !s.keptFrom h.prio c && (List.range 4).all (fun k => s.sliceTakes c k (h.onSlice k) h.charge) &&
  decide (h.acc * h.perCore + (s.asides c).tiles ≤ (s.freeTiles c).length) &&
  (h.jigp == 0 || ((s.core c).jig.holder.isNone && !(s.asides c).jig))

/-- A core's share for a team: its member, or `none` when it does not fit. -/
def State.fits (s : State) (c : Nat) (h : Header) : Option Member :=
  if !s.takesWaves c h then none
  else match s.freeTeamSlot c, s.freeBase c h.benchSize with
    | some k, some b => some { core := c, slot := k, base := b }
    | _, _ => none

/-- Shares on every core of a cluster. -/
def State.fitsAll (s : State) (h : Header) : List Nat → Option (List Member)
  | [] => some []
  | c :: r => match s.fits c h with
    | none => none
    | some m => (s.fitsAll h r).map (fun l => m :: l)

/-- Origins in the order of the scan: after the last core placed on (R334). -/
def State.scan (s : State) (shape : Nat) : List Nat :=
  let os := origins shape
  os.filter (fun o => decide (s.lastCore < o)) ++ os.filter (fun o => decide (o ≤ s.lastCore))

/-- The first place of the scan that fits. -/
def State.findPlace (s : State) (h : Header) : Option (List Member) :=
  (s.scan h.shape).findSome? (fun o => s.fitsAll h (clusterCores h.shape o))

/-! ### Placing teams (R334, R336, R341) -/

/-- The next ordinal that has not been placed. -/
def Launch.nextTeam (L : Launch) : Nat :=
  ((List.range (L.handed.length + 1)).map (L.nextOrd + ·)).find? (fun n => !L.handed.contains n) |>.getD L.nextOrd

/-- The header of a launch as it asks for places: at the priority of its list (R340). -/
def Launch.asks (L : Launch) : Header := { L.hdr with prio := L.prio }

/-- Whether a queue lets its launch start a team: it holds an entry, and fewer than `MAXF` teams run, 0 being no limit
(R330, R350). -/
def StageQ.launches (q : StageQ) (maxf : Nat) : Bool := !q.entries.isEmpty && (maxf == 0 || decide (q.running < maxf))

/-- Teams of a launch that wait to be placed: of a queue's launch one at a time (R350). -/
def State.left (s : State) (l : Nat) : Nat :=
  let L := s.launch l
  match L.entryQ with
  | some q => if (FMap.getD s.queues q {}).launches L.hdr.maxf then 1 else 0
  | none => L.teams - L.placed

/-- Cancel the grants of a launch (R336). -/
def State.cancelGrants (s : State) (l : Nat) : State :=
  let cs := (s.launch l).grants
  (cs.foldl (fun s c => s.modCore c (fun k => { k with reserved := k.reserved.filter (fun r => r.1 != l) })) s).modLaunch
    l (fun x => { x with grants := [] })

/-- Start a team of a launch on members of which `fresh` are zeroed: the next ordinal, or the one of a Bench handed over; of
a queue's launch ordinal 0, with the oldest entry, which leaves the queue (R350). -/
def State.startNext (s : State) (l : Nat) (handed : Option Nat) (ms fresh : List Member) : State :=
  let L := s.launch l
  match L.entryQ with
  | some q => match (FMap.getD s.queues q {}).entries with
    | [] => s
    | e :: r => ({ s with queues := FMap.mod s.queues q {} (fun y => { y with entries := r, running := y.running + 1 }) }).startTeam
        l 0 ms fresh e.2
  | none => match handed with
    | some n => (s.startTeam l n ms fresh []).modLaunch l (fun x => { x with handed := x.handed ++ [n] })
    | none => (s.startTeam l L.nextTeam ms fresh []).modLaunch l (fun x => { x with nextOrd := L.nextTeam + 1 })

/-- The members of a team that takes over a Bench (R341): those that keep it, and fresh shares on the other cores of its
cluster; the second part is the fresh ones. -/
def State.handedOn (s : State) (h : Header) (kept : List Member) : Option (List Member × List Member) :=
  let o := match kept with | m :: _ => m.core | [] => 0
  (clusterCores h.shape o).foldl (fun (r : Option (List Member × List Member)) c => r.bind (fun p =>
    match kept.find? (fun m => m.core == c) with
    | some m => if s.takesWaves c h then some (p.1 ++ [m], p.2) else none
    | none => (s.fits c h).map (fun m => (p.1 ++ [m], p.2 ++ [m])))) (some ([], []))

/-- Place the first handed-over team of a launch on its own members (R341). -/
def State.placeHanded (s : State) (l : Nat) : Option State :=
  let L := s.launch l
  match L.retained with
  | [] => none
  | r :: rest => (s.handedOn L.asks r.2).map (fun p =>
      (s.modLaunch l (fun x => { x with retained := rest })).startNext l (some r.1) p.1 p.2)

/-- Place one team of a launch in one go. -/
def State.placeTeam (s : State) (l : Nat) : Option State :=
  let L := s.launch l
  if !L.retained.isEmpty then s.placeHanded l
  else (s.findPlace L.asks).map (fun ms => s.startNext l none ms ms)

/-- Place every team of a launch, at most `fuel` (R337). -/
def State.placeAll (s : State) (l : Nat) : Nat → Option State
  | 0 => some s
  | fuel + 1 => if s.left l = 0 then some s
    else match s.placeTeam l with
      | none => none
      | some s => s.placeAll l fuel

/-- The later launches whose reservations reach their members in this clock, and contend with one of an earlier launch
(R336). -/
def State.rivals (s : State) (l : Nat) : List Nat :=
  (s.launches.filter (fun (e : Nat × Launch) => decide (l < e.1) && !e.2.grants.isEmpty && e.2.grantedAt == s.clocks)).map (·.1)

/-- The first phase of a cluster team: every member of the first origin that fits grants, and a member that a later launch
contends for in the clock refuses that one (R336). Origins that refuse count; after a full scan the launch waits. -/
def State.reserveCluster (s : State) (l : Nat) : State :=
  let L := s.launch l
  let s0 := (s.rivals l).foldl State.cancelGrants s
  let os := s.scan L.hdr.shape
  let refused := (os.takeWhile (fun o => (s0.fitsAll L.asks (clusterCores L.hdr.shape o)).isNone)).length
  match s0.findPlace L.asks with
  | some ms =>
    let s := ((s.rivals l).filter (fun r => (s.launch r).grants.any (fun c => ms.any (fun m => m.core == c)))).foldl State.cancelGrants s
    (ms.foldl (fun s m => s.modCore m.core (fun k => { k with reserved := k.reserved ++ [(l, m.slot, m.base)] })) s).modLaunch l
      (fun x => { x with refusals := x.refusals + refused, grants := ms.map (·.core), grantedAt := s.clocks })
  | none =>
    let k := L.refusals + refused
    s.modLaunch l (fun x => { x with refusals := k, retryAt := s.clocks + 64 * 2 ^ min k 10 })

/-- The second phase: every member has granted, and the team starts on all at once. -/
def State.commitCluster (s : State) (l : Nat) : State :=
  let L := s.launch l
  let ms := L.grants.filterMap (fun c => ((s.core c).reserved.find? (fun r => r.1 == l)).map (fun r =>
    ({ core := c, slot := r.2.1, base := r.2.2 } : Member)))
  if ms.length = L.grants.length ∧ ms.all (fun m => s.inService m.core) = true then
    (s.startNext l none ms ms).modLaunch l (fun x => { x with refusals := 0, retryAt := 0 })
  else s.cancelGrants l

/-- Place as much of a launch as one turn of the dispatcher does: the whole of a phased launch, one team of another, one
phase of a cluster. `none`: nothing can be placed. -/
def State.placeSome (s : State) (l : Nat) : Option State :=
  let L := s.launch l
  if s.left l = 0 then none
  else if L.phased then
    if L.channel.isNone then none else s.placeAll l (max L.teams 1)
  else if L.hdr.shape = 0 ∨ !L.retained.isEmpty then s.placeTeam l
  else if !L.grants.isEmpty then some (s.commitCluster l)
  else if s.clocks < L.retryAt then none
  else
    let t := s.reserveCluster l
    if (t.launch l).grants.isEmpty && L.refusals == (t.launch l).refusals then none else some t

end Sys2Proof.Machine
end

