-- ==== Sys2Proof/Machine/BankQueue.lean ====
section
/-! DEFINITION. The request queue of a Bench bank (R12, R16, R226): whether a request may enter it in the present clock, what entering
and being refused leave, and the requests of a turn that enter one after the other (log entry 80). -/
namespace Sys2Proof.Machine

/-! ### Requests -/

/-- The order of R16: mesh arrivals, copy unit, Spindle, Jig, LX, and then the lanes by slice and lane. -/
def rankMesh : Nat := 1
def rankCopy : Nat := 2
def rankSpindle : Nat := 3
def rankJig : Nat := 4
def rankLx : Nat := 5
def rankLane (k l : Nat) : Nat := 6 + 32 * k + l

/-- The client of a request: the lanes of a core are one. -/
def clientOf (rank : Nat) : Nat := min rank 6

/-- The requests of `n` bytes of Bench from a key on, one for each 4-byte word (R226). -/
def benchReqs (rank key n : Nat) : List BankReq :=
  if n = 0 then []
  else (List.range ((key % 4 + n + 3) / 4)).map (fun i => { core := benchCore key, bank := (key / 4 + i) % 32, rank := rank })

/-! ### One bank -/

/-- The client that a bank has refused in the last 16 clocks and that enters first in this one; of several the first in the order of
R16, which the model chooses (log entry 80). -/
def BankQ.due (q : BankQ) (clk : Nat) : Option Nat :=
  (q.refused.find? (fun e => e.2.1 + 1 == clk && decide (16 ≤ e.2.2))).map (·.1)

/-- Whether a request comes after one that stands behind it in the order of R16 and has entered in the clock: it presents itself in the
next one. -/
def BankQ.late (q : BankQ) (clk rank : Nat) : Bool := (q.due clk).isNone && q.clk == clk && decide (rank < q.rank)

/-- Whether a request enters in a clock: a place of the 8 is free, a client that is due goes first, and no later one in the order of R16
has entered in the clock. -/
def BankQ.admits (q : BankQ) (clk rank : Nat) : Bool :=
  decide (q.busy < clk + 8) &&
  match q.due clk with
  | some f => f == clientOf rank
  | none => !q.late clk rank

/-- A request enters: the bank serves one a clock. -/
def BankQ.enter (q : BankQ) (clk rank : Nat) : BankQ :=
  { clk := clk
    rank := if (q.due clk).isSome then 0 else rank
    busy := max q.busy clk + 1
    refused := FMap.erase q.refused (clientOf rank) }

/-- A request is refused, in one more of consecutive clocks; one that is late in its clock has not presented itself in it. -/
def BankQ.refuse (q : BankQ) (clk rank : Nat) : BankQ :=
  let n := match FMap.get q.refused (clientOf rank) with
    | some (u, n) => if u = clk then n else if u + 1 = clk then n + 1 else 1
    | none => 1
  if q.late clk rank then q else { q with refused := FMap.set q.refused (clientOf rank) (clk, n) }

/-! ### The banks of the cores -/

/-- Apply to a bank of a core. -/
def State.modBank (s : State) (r : BankReq) (f : BankQ → BankQ) : State :=
  s.modCore r.core (fun k => { k with banks := FMap.mod k.banks r.bank {} f })

/-- Whether a request may enter its bank in the present clock of its core. -/
def State.admits (s : State) (r : BankReq) : Bool := (FMap.getD (s.core r.core).banks r.bank {}).admits (s.clkOf r.core) r.rank

def State.enterBank (s : State) (r : BankReq) : State := s.modBank r (fun q => q.enter (s.clkOf r.core) r.rank)
def State.refuseBank (s : State) (r : BankReq) : State := s.modBank r (fun q => q.refuse (s.clkOf r.core) r.rank)

/-- Requests enter their banks, all of them or none. -/
def State.enterAll (s : State) : List BankReq → Option State
  | [] => some s
  | r :: rs => if s.admits r then (s.enterBank r).enterAll rs else none

/-- Requests present themselves one after the other: those that find room enter and are kept for their turn, and the others are
refused. -/
def State.offerReqs (s : State) : List BankReq → State
  | [] => s
  | r :: rs =>
    (if s.admits r then { s.enterBank r with asked := r :: s.asked } else s.refuseBank r).offerReqs rs

/-- Requests without those that have entered before. -/
def lacking (rs asked : List BankReq) : List BankReq := asked.foldl List.erase rs

/-- A turn that takes `s` to `t` is made in the clock in which the last of its requests enters; otherwise the clock passes for it,
while those that find room enter (R16). -/
def State.bank (s t : State) (rs : List BankReq) : State :=
  match t.enterAll (lacking rs s.asked) with
  | some u => { u with asked := lacking u.asked rs }
  | none => s.offerReqs (lacking rs s.asked)

end Sys2Proof.Machine
end

