-- ==== Sys2Proof/Machine/Spindle.lean ====
section
/-! DEFINITION. The meanings of the Spindle words (R191-R220). -/
namespace Sys2Proof.Machine

/-- A word that is not an instruction ends the walk with reason 0 (R65, R192). -/
def execWalkNonInstructionWord (_w : Word) (s : State) : Host.Outcome State Fault Refusal :=
  walkRun s (fun s c k _ => s.walkIllegal c k 0)

/-! ### Node access (R193-R196) -/

/-- `NFETCH` (R193): the checks, then the wait for the node. A descriptor of two nodes for `n1` ends the walk with reason 0 after them
(log entry 90). -/
def execNfetch (d : BitVec 1) (a : BitVec 4) (f : BitVec 8) (s : State) : Host.Outcome State Fault Refusal :=
  walkRun s (fun s c k x =>
    let p := x.dq a.toNat
    if p.getLsbD 63 then s.walkFault c k 5 p
    else if p.toNat % 16 ≠ 0 then s.walkFault c k 4 p
    else if f.toNat < 16 then s.setWalk c k { x with wait := .node d.toNat p f.toNat [] }
    else match s.readDesc c x (f.toNat - 16) with
      | (s, .wait) => s
      | (s, .fault va far) => s.walkFault c k (faultKind far 3) va
      | (s, .bad part) => s.walkEnd c k 0x53 0 (BitVec.ofNat 32 (f.toNat - 16)) (BitVec.ofNat 32 part)
      | (s, .ok ws) =>
        if d = 1 ∧ (DHead.of (nth ws 0 0) (nth ws 1 0)).dbl then s.walkIllegal c k 0
        else s.setWalk c k { x with wait := .node d.toNat p f.toNat ws })

/-- The value of a selector (R194). -/
def ngetValue (x : Walk) (n : NodeReg) (sel s : Nat) : Word :=
  match sel with
  | 0 => nth n.f0 s 0 | 1 => nth n.f1 s 0 | 2 => nth n.f2 s 0 | 3 => nth n.f3 s 0
  | 4 => loWord (nth n.ptr s 0) | 5 => hiWord (nth n.ptr s 0)
  | 6 => if s < n.count then 1 else 0
  | 7 => nth x.kappa s 0
  | 8 => nth n.h 0 0 | 9 => nth n.h 1 0 | 10 => nth n.h 2 0 | 11 => nth n.h 3 0
  | 12 => BitVec.ofNat 32 n.count
  | 13 => loWord n.addr | 14 => hiWord n.addr
  | _ => BitVec.ofNat 32 n.fmt

def execNget (d : BitVec 4) (a : BitVec 1) (sel : BitVec 4) (idx : Bool) (slot : BitVec 4) (b : BitVec 4) (s : State) :
    Host.Outcome State Fault Refusal :=
  walkStep s (fun x =>
    let k := if idx then (x.qr b.toNat).toNat % 16 else slot.toNat
    x.setQ d.toNat (ngetValue x (x.node a.toNat) sel.toNat k))

/-- Mask of the valid slots (R195). -/
def validMask (n : NodeReg) : BitVec 16 := mask16 (fun s => decide (s < n.count))

def execNcnt (m : Bool) (d : BitVec 4) (a : BitVec 1) (s : State) : Host.Outcome State Fault Refusal :=
  walkStep s (fun x =>
    if m then x.setM d.toNat (validMask (x.node a.toNat))
    else x.setQ d.toNat (BitVec.ofNat 32 (x.node a.toNat).count))

/-- `NPTR` (R196). -/
def execNptr (m : Bool) (d : BitVec 4) (a : BitVec 1) (slot : BitVec 4) (b : BitVec 2) (s : State) :
    Host.Outcome State Fault Refusal :=
  walkStep s (fun x =>
    let n := x.node a.toNat
    if m then
      match x.order.find? (fun k => (x.mr b.toNat).getLsbD k) with
      | some k => { (x.setDq d.toNat (nth n.ptr k 0)).setM b.toNat (x.mr b.toNat &&& ~~~(BitVec.ofNat 16 (2 ^ k))) with
                    cf := true }
      | none => { x with cf := false }
    else x.setDq d.toNat (nth n.ptr slot.toNat 0))

/-! ### Geometric tests (R197-R201) -/

/-- Write the mask bits and keys of the tested slots (R197). -/
def Walk.tested (x : Walk) (d first n count : Nat) (one : Nat → Option Word) : Walk :=
  let inR := fun (k : Nat) => decide (first ≤ k) && decide (k < first + n)
  let r := fun (k : Nat) => if k < count then one k else none
  { x.setM d (mask16 (fun k => if inR k then (r k).isSome else (x.mr d).getLsbD k)) with
    kappa := (List.range 16).map (fun k => if inR k then (r k).getD fpInf else nth x.kappa k 0) }

/-- `BOX8` (R197, R198); the valid slots are those of the count of `n0` (log entry 90). -/
def execBox8 (hi : Bool) (d : BitVec 2) (b : BitVec 4) (s : State) : Host.Outcome State Fault Refusal :=
  walkStep s (fun x =>
    let lo := fun (k a : Nat) => nth (nth [x.n0.f0, x.n0.f1, x.n0.f2] a []) k 0
    let up := fun (k a : Nat) => nth (nth [x.n1.f0, x.n1.f1, x.n1.f2] a []) k 0
    x.tested d.toNat (if hi then 8 else 0) 8 x.n0.count (fun k => boxSlot (lo k) (up k) (fun i => x.qr (b.toNat + i))))

/-- `OVL8` (R197, R199); the valid slots are those of the count of `n0` (log entry 90). -/
def execOvl8 (hi inn : Bool) (d : BitVec 2) (b : BitVec 4) (s : State) : Host.Outcome State Fault Refusal :=
  walkStep s (fun x =>
    let lo := fun (k a : Nat) => nth (nth [x.n0.f0, x.n0.f1, x.n0.f2] a []) k 0
    let up := fun (k a : Nat) => nth (nth [x.n1.f0, x.n1.f1, x.n1.f2] a []) k 0
    x.tested d.toNat (if hi then 8 else 0) 8 x.n0.count (fun k => ovlSlot inn (lo k) (up k) (fun i => x.qr (b.toNat + i))))

/-- `TRI` (R200): the hits of triangles 0-3 and the nearest one's four words. A triangle is valid when its three slots are (log
entry 90). -/
def execTri (cb cf : Bool) (d : BitVec 2) (a : BitVec 1) (b c : BitVec 4) (s : State) : Host.Outcome State Fault Refusal :=
  walkStep s (fun x =>
    let n := x.node a.toNat
    let vtx := fun (t v k : Nat) => nth (nth [n.f0, n.f1, n.f2] k []) (3 * t + v) 0
    let hit := fun (t : Nat) => if 3 * t + 2 < n.count then
      triSlot cb cf (vtx t 0) (vtx t 1) (vtx t 2) (fun i => x.qr (b.toNat + i)) else none
    let y := x.tested d.toNat 0 4 4 (fun t => (hit t).map (fun h => roundRatio h.t h.det))
    let best := (List.range 4).foldl (fun (m : Option (Nat × TriHit)) t => match hit t, m with
      | none, m => m
      | some h, none => some (t, h)
      | some h, some g => if ratLe g.2.t g.2.det h.t h.det then m else some (t, h)) none
    match best with
    | none => y
    | some (t, h) =>
      (((y.setQ c.toNat (roundRatio h.t h.det)).setQ (c.toNat + 1) (roundRatio h.v h.det)).setQ (c.toNat + 2)
        (roundRatio h.w h.det)).setQ (c.toNat + 3) (BitVec.ofNat 32 t))

def execSphr (ray : Bool) (d : BitVec 2) (a : BitVec 1) (b : BitVec 4) (s : State) : Host.Outcome State Fault Refusal :=
  walkStep s (fun x =>
    let n := x.node a.toNat
    x.tested d.toNat 0 16 n.count (fun k =>
      sphSlot ray (fun i => nth (nth [n.f0, n.f1, n.f2] i []) k 0) (nth n.f3 k 0) (fun i => x.qr (b.toNat + i))))

/-! ### Keys and distances (R202-R206) -/

/-- A key as an integer. -/
def keyInt (sgn : Bool) (w : Word) : Int := intOf w.toNat 32 sgn

def execKcmp (c : Cmp) (sg sel : Bool) (d : BitVec 4) (a : BitVec 1) (b : BitVec 4) (s : State) :
    Host.Outcome State Fault Refusal :=
  walkStep s (fun x =>
    let n := x.node a.toNat
    let ok := fun (k : Nat) => decide (k < n.count) && intCmp c (keyInt sg (nth n.f0 k 0)) (keyInt sg (x.qr b.toNat))
    if sel then
      match (List.range 16).find? ok with
      | some k => x.setQ d.toNat (BitVec.ofNat 32 k)
      | none => x.setQ d.toNat (BitVec.ofInt 32 ((n.count : Int) - 1))
    else x.setM d.toNat (mask16 ok))

def execKrng (node sg : Bool) (d : BitVec 2) (a : BitVec 1) (b : BitVec 4) (s : State) : Host.Outcome State Fault Refusal :=
  walkStep s (fun x =>
    let n := x.node a.toNat
    let lo := keyInt sg (x.qr b.toNat)
    let hi := keyInt sg (x.qr (b.toNat + 1))
    let f := fun (k : Nat) => keyInt sg (nth n.f0 k 0)
    let ok := fun (k : Nat) => decide (k < n.count) &&
      (if node then (k == 0 || decide (f (k - 1) ≤ hi)) && (k + 1 == n.count || decide (lo < f k))
       else decide (lo ≤ f k) && decide (f k ≤ hi))
    x.setM d.toNat (if hi < lo then 0 else mask16 ok))

/-- The 16 terms of `DIST` (R205). -/
def distSum (ty : Nat) (dot : Bool) (x y : Nat → Word) : FVal :=
  let el := fun (v : Nat → Word) (i : Nat) =>
    if ty = 0 then value .bf16 (elemNat (v (i / 2)).toNat (i % 2) 16)
    else ofInt (intOf (elemNat (v (i / 4)).toNat (i % 4) 8) 8 (ty == 1))
  let term := fun (i : Nat) =>
    if dot then (mulExact (el x i) (el y i)).1
    else
      let e := match firstNan [el x i, el y i] with
        | some r => r.1
        | none => (addNum .rne (el x i) (el y i).negate).1
      (mulExact e e).1
  ((List.range 16).foldl (fun (a : Sum) i => a.add (term i) 0) {}).value.1

def execDist (ty : BitVec 2) (dot z : Bool) (a b : BitVec 4) (s : State) : Host.Outcome State Fault Refusal :=
  walkStep s (fun x =>
    let d0 := if z then {} else x.d0
    { x with d0 := (lacAdd d0 (distSum ty.toNat dot (fun i => x.qr (a.toNat + i)) (fun i => x.qr (b.toNat + i)))).1 })

/-- The explicit mode of a walk (R191). -/
def walkMode (m : BitVec 2) : Rm := rmOfMode m.toNat

def execDfin (int : Bool) (mode : BitVec 2) (z : Bool) (d : BitVec 4) (s : State) : Host.Outcome State Fault Refusal :=
  walkStep s (fun x =>
    let v := if int then (lacReadInt (walkMode mode) x.d0).1 else (lacRead .f32 (walkMode mode) x.d0).1
    { x.setQ d.toNat (BitVec.ofNat 32 v) with d0 := if z then {} else x.d0 })

/-- `KDS` (R204). -/
def execKds (d : BitVec 4) (a : BitVec 1) (b slot : BitVec 4) (s : State) : Host.Outcome State Fault Refusal :=
  walkStep s (fun x =>
    let n := x.node a.toNat
    let S := nth n.f0 slot.toNat 0
    let q := x.qr (b.toNat + (nth n.f1 slot.toNat 0).toNat % 16)
    let nan := fNan S || fNan q
    let side : Word := if !nan && ltNum (fv q) (fv S) then 0 else 1
    let dist : Word := if nan then 0 else if !fFin S || !fFin q then fpInf
      else
        let e := (addNum .rd (fv q) (fv S).negate).1
        BitVec.ofNat 32 (roundTo .f32 .rd (mulNum e e).1).1
    (x.setQ d.toNat side).setQ (d.toNat + 1) dist)

/-! ### Results (R207-R209) -/

/-- Whether key `a` is strictly better than key `b`; a NaN is never inserted (R207). -/
def keyBetter (ty : ScanTy) (desc : Bool) (a b : Word) : Bool :=
  let lt := fun (p q : Word) => match ty with
    | .si32 => decide (keyInt true p < keyInt true q)
    | .ui32 => decide (p.toNat < q.toNat)
    | .f32 => ltNum (fv p) (fv q)
  if desc then lt b a else lt a b

/-- The bound of a list that is not full (R207). -/
def topkBound (ty : ScanTy) (desc : Bool) : Word :=
  match ty, desc with
  | .f32, false => 0x7F800000 | .f32, true => 0xFF800000
  | .si32, false => 0x7FFFFFFF | .si32, true => 0x80000000
  | .ui32, false => 0xFFFFFFFF | .ui32, true => 0

/-- Insert after the entries that are not worse, and keep the best `cap`. -/
def topkInsert (t : TopK) (key value : Word) : TopK :=
  if t.ty = .f32 ∧ fNan key then t
  else
    let before := t.entries.takeWhile (fun e => !keyBetter t.ty t.desc key e.1)
    let after := t.entries.dropWhile (fun e => !keyBetter t.ty t.desc key e.1)
    { t with entries := (before ++ [(key, value)] ++ after).take t.cap }

def execTopk (ty : ScanTy) (desc : Bool) (d a b : BitVec 4) (k : BitVec 6) (s : State) : Host.Outcome State Fault Refusal :=
  walkRun s (fun s c slot x =>
    let t := match x.topk with
      | some t => t
      | none => { cap := k.toNat, ty := ty, desc := desc, entries := [] }
    if t.cap ≠ k.toNat ∨ t.ty ≠ ty ∨ t.desc ≠ desc then s.walkIllegal c slot 2
    else
      let t := topkInsert t (x.qr a.toNat) (x.qr b.toNat)
      let bound := if t.entries.length = t.cap then ((t.entries.getLast?).map (·.1)).getD 0 else topkBound ty desc
      (s.setWalk c slot ({ x with topk := some t }.setQ d.toNat bound)).walkNext c slot)

def execEmit (a b : BitVec 4) (x : BitVec 14) (s : State) : Host.Outcome State Fault Refusal :=
  walkRun s (fun s c k y => s.walkEmit c k x.toNat (y.qr a.toNat) (y.qr b.toNat))

/-- `EMITK` (R208): result the entry's value, value its key. -/
def execEmitk (x : BitVec 14) (s : State) : Host.Outcome State Fault Refusal :=
  walkRun s (fun s c k y =>
    let es := match y.topk with | some t => t.entries | none => []
    if y.remote.isNone ∧ (s.team y.team).cqd < es.length then s.walkIllegal c k 3
    else s.walkEmitAll c k es x.toNat)

/-- `DONE` (R209); a walk that runs for the partner returns (R213). -/
def execDone (a b : BitVec 4) (x : BitVec 14) (s : State) : Host.Outcome State Fault Refusal :=
  walkRun s (fun s c k y =>
    match y.remote with
    | some (oc, os, _) =>
      let r : HoffRet := { q := y.q, m := y.m, emitted := y.emitted, topk := y.topk }
      { s with outbox := s.outbox ++ [OutMsg.ret oc os y.hid r] }.freeWalk c k
    | none => s.walkEntry c k 0x01 x.toNat (y.qr a.toNat) (y.qr b.toNat) true)

/-! ### Order and stack (R210-R212) -/

/-- Order of the slots of a mask by key, then the others (R210). -/
def sortedSlots (desc : Bool) (m : BitVec 16) (kappa : List Word) : List Nat :=
  let sel := (List.range 16).filter (fun s => m.getLsbD s)
  let lt := fun (a b : Nat) => ltNum (fv (nth kappa a 0)) (fv (nth kappa b 0))
  let ins := fun (a : Nat) (l : List Nat) =>
    let stays := fun (b : Nat) => if desc then !lt b a else !lt a b
    l.takeWhile stays ++ [a] ++ l.dropWhile stays
  sel.foldl (fun l a => ins a l) [] ++ (List.range 16).filter (fun s => !m.getLsbD s)

def execSortm (desc : Bool) (a : BitVec 2) (s : State) : Host.Outcome State Fault Refusal :=
  walkStep s (fun x => { x with order := sortedSlots desc (x.mr a.toNat) x.kappa })

def execPush (pair : Bool) (a : BitVec 4) (s : State) : Host.Outcome State Fault Refusal :=
  walkRun s (fun s c k x => s.walkPush c k (if pair then [x.qr a.toNat, x.qr (a.toNat + 1)] else [x.qr a.toNat]))

/-- `PUSHM` (R212): the valid slots of the mask in reverse order; the pointer's words, and κ with `.K`. -/
def execPushm (kk : Bool) (a : BitVec 1) (b : BitVec 2) (s : State) : Host.Outcome State Fault Refusal :=
  walkRun s (fun s c k x =>
    let n := x.node a.toNat
    let sel := x.order.reverse.filter (fun p => (x.mr b.toNat).getLsbD p && decide (p < n.count))
    s.walkPush c k (sel.flatMap (fun p =>
      [loWord (nth n.ptr p 0), hiWord (nth n.ptr p 0)] ++ (if kk then [nth x.kappa p 0] else []))))

/-- `POP` (R211): too few words clear `CF`; words still in the spill area are waited for. -/
def execPop (pair : Bool) (d : BitVec 4) (s : State) : Host.Outcome State Fault Refusal :=
  walkRun s (fun s c k x =>
    let n := if pair then 2 else 1
    if x.depth < n then (s.setWalk c k { x with cf := false }).walkNext c k
    else if x.chip.length < n then s.setWalk c k { x with wait := .fill }
    else
      let top := nth x.chip 0 0
      let y := if pair then (x.setQ (d.toNat + 1) top).setQ d.toNat (nth x.chip 1 0) else x.setQ d.toNat top
      (s.setWalk c k { y with chip := x.chip.drop n, cf := true }).walkNext c k)

def execSclr (s : State) : Host.Outcome State Fault Refusal :=
  walkStep s (fun x => { x with chip := [], spilled := 0, under := [] })

/-! ### Hand-off (R213) -/

/-- The partner's core that takes a message of a core: the one of its number, or the next in service there (R365). -/
def partnerCore (c : Nat) : Nat := (((List.range 256).map (fun i => (c + i) % 256)).find? Config.partnerServes).getD c

/-- Send the message of a walk that hands off, when the credits of the core that it goes to allow: it queues 16 (R365). -/
def State.sendHandoff (s : State) (c k : Nat) : State :=
  match s.walk? c k with
  | none => s
  | some x => match x.wait with
    | .handoff ptr entry true =>
      let d := partnerCore c
      let used := FMap.getD s.handoffUsed d 0
      if 16 ≤ used then s
      else
        let (hid, s) := s.newId
        let m : HoffMsg := {
          ctx := x.ctx, partnerCtx := s.peerCtx x.ctx, tag := x.tag, cq := x.cq, originCore := c, hid := hid
          originSlot := k, kind := x.kind, sdtab := (s.launch (s.team x.team).launch).hdr.sdtp, entry := entry, ptr := ptr,
          q := x.q, m := x.m, emitted := x.emitted, topk := x.topk }
        let s := { s with outbox := s.outbox ++ [OutMsg.handoff m], handoffUsed := FMap.set s.handoffUsed d (used + 1) }
        s.setWalk c k { x with wait := .handoff ptr entry false, hid := hid }
    | _ => s

/-- `HOFF` (R213): the checks, in the model's order (log entry 90), and the message; the walk then waits for its return. -/
def execHoff (a : BitVec 4) (entry : BitVec 12) (s : State) : Host.Outcome State Fault Refusal :=
  walkRun s (fun s c k x =>
    let p := x.dq a.toNat
    let ptr := p &&& ~~~(0x8000000000000000 : DWord)
    let cx := FMap.getD s.ctxs x.ctx {}
    if x.remote.isSome then s.walkIllegal c k 5
    else if !p.getLsbD 63 ∨ (x.topk.any (fun t => decide (20 < t.cap))) = true then s.walkIllegal c k 4
    else if !s.paired then s.walkEnd c k 0x54 0 0 0
    else match cx.pair with
      | none => s.walkFault c k 6 ptr
      | some _ => (s.setWalk c k { x with wait := .handoff ptr entry.toNat true }).sendHandoff c k)

/-! ### Branches (R220) -/

/-- A taken branch by a signed number of words. -/
def State.walkBranch (s : State) (c k : Nat) (x : Walk) (off : Int) : State :=
  let t := (x.pc : Int) + off
  if t < 0 ∨ (x.plen : Int) ≤ t then s.walkIllegal c k 1 else s.setWalk c k { x with pc := t.toNat }

def execBr (off : BitVec 14) (s : State) : Host.Outcome State Fault Refusal :=
  walkRun s (fun s c k x => s.walkBranch c k x off.toInt)

/-- The condition of `BRC`. -/
def wcondHolds (x : Walk) : WCond → Bool
  | .cf => x.cf | .ncf => !x.cf
  | .mnz a => x.mr a.toNat != 0 | .mz a => x.mr a.toNat == 0
  | .sne => x.depth != 0 | .se => x.depth == 0
  | .rmt a => (x.qr a.toNat).getLsbD 31
  | .qz a => x.qr a.toNat == 0 | .qnz a => x.qr a.toNat != 0

def execBrc (cd : WCond) (off : BitVec 10) (s : State) : Host.Outcome State Fault Refusal :=
  walkRun s (fun s c k x => if wcondHolds x cd then s.walkBranch c k x off.toInt else s.walkNext c k)

/-- `YLDW` (R220): the walk that issued last is already last in the round robin. -/
def execYldw (s : State) : Host.Outcome State Fault Refusal :=
  walkRun s (fun s c k _ => (s.modCore c (fun q => { q with sp := { q.sp with last := k } })).walkNext c k)

/-! ### Scalar words (R215-R219) -/

/-- The ALU group on a word or, with `.W`, a pair (R215). -/
def walkAlu (w : Bool) (d a : BitVec 4) (y : QSrc) (f : Nat → Nat → Nat → Nat) (s : State) : Host.Outcome State Fault Refusal :=
  walkStep s (fun x =>
    if w then
      let v := match y with | .reg b => (x.dq b.toNat).toNat | .imm i => (i.signExtend 64).toNat
      x.setDq d.toNat (BitVec.ofNat 64 (f 64 (x.dq a.toNat).toNat v))
    else
      let v := match y with | .reg b => (x.qr b.toNat).toNat | .imm i => (i.signExtend 32).toNat
      x.setQ d.toNat (BitVec.ofNat 32 (f 32 (x.qr a.toNat).toNat v)))

def execWadd (w : Bool) (d a : BitVec 4) (y : QSrc) (s : State) : Host.Outcome State Fault Refusal :=
  walkAlu w d a y (fun _ p q => p + q) s
def execWsub (w : Bool) (d a : BitVec 4) (y : QSrc) (s : State) : Host.Outcome State Fault Refusal :=
  walkAlu w d a y (fun n p q => p + (2 ^ n - q)) s
def execWand (w : Bool) (d a : BitVec 4) (y : QSrc) (s : State) : Host.Outcome State Fault Refusal :=
  walkAlu w d a y (fun _ p q => p &&& q) s
def execWor (w : Bool) (d a : BitVec 4) (y : QSrc) (s : State) : Host.Outcome State Fault Refusal :=
  walkAlu w d a y (fun _ p q => p ||| q) s
def execWxor (w : Bool) (d a : BitVec 4) (y : QSrc) (s : State) : Host.Outcome State Fault Refusal :=
  walkAlu w d a y (fun _ p q => p ^^^ q) s
def execWshl (w : Bool) (d a : BitVec 4) (y : QSrc) (s : State) : Host.Outcome State Fault Refusal :=
  walkAlu w d a y (fun n p q => if n ≤ q % 2 ^ 32 then 0 else p * 2 ^ (q % 2 ^ 32)) s
def execWshr (w : Bool) (d a : BitVec 4) (y : QSrc) (s : State) : Host.Outcome State Fault Refusal :=
  walkAlu w d a y (fun n p q => if n ≤ q % 2 ^ 32 then 0 else p / 2 ^ (q % 2 ^ 32)) s

def execMinmax (ty : ScanTy) (max_ : Bool) (d a b : BitVec 4) (s : State) : Host.Outcome State Fault Refusal :=
  walkStep s (fun x =>
    let p := x.qr a.toNat
    let q := x.qr b.toNat
    let v := match ty with
      | .si32 => if max_ then (if keyInt true p ≤ keyInt true q then q else p) else (if keyInt true p ≤ keyInt true q then p else q)
      | .ui32 => if max_ then (if p.toNat ≤ q.toNat then q else p) else (if p.toNat ≤ q.toNat then p else q)
      | .f32 => if max_ then fmaxW p q else fminW p q
    x.setQ d.toNat v)

/-- `FMAD` (R216): the product is negated with `.NEG`. -/
def execFmad (mode : BitVec 2) (neg : Bool) (d a b : BitVec 4) (s : State) : Host.Outcome State Fault Refusal :=
  walkStep s (fun x =>
    let p := fv (x.qr a.toNat)
    let r := fpMac .f32 (walkMode mode) (if neg then p.negate else p) (fv (x.qr b.toNat)) (fv (x.qr d.toNat))
    x.setQ d.toNat (BitVec.ofNat 32 r.1))

def execCmps (c : Cmp) (ty : ScanTy) (a : BitVec 4) (y : CSrc) (s : State) : Host.Outcome State Fault Refusal :=
  walkStep s (fun x =>
    let p := x.qr a.toNat
    let q : Word := match y with | .reg b => x.qr b.toNat | .imm i => i.signExtend 32
    { x with cf := match ty with
        | .si32 => intCmp c (keyInt true p) (keyInt true q)
        | .ui32 => intCmp c (keyInt false p) (keyInt false q)
        | .f32 => (fpCmp c (fv p) (fv q)).1 })

def execMovq (d a : BitVec 4) (s : State) : Host.Outcome State Fault Refusal :=
  walkStep s (fun x => x.setQ d.toNat (x.qr a.toNat))
def execMovqImm (d : BitVec 4) (i : BitVec 12) (s : State) : Host.Outcome State Fault Refusal :=
  walkStep s (fun x => x.setQ d.toNat (i.signExtend 32))
def execMovqShi (d : BitVec 4) (i : BitVec 12) (s : State) : Host.Outcome State Fault Refusal :=
  walkStep s (fun x => x.setQ d.toNat ((x.qr d.toNat <<< 12) ||| i.zeroExtend 32))

/-- `MOVQ.SPC` (R218). -/
def execMovqSpc (d : BitVec 4) (src : BitVec 3) (s : State) : Host.Outcome State Fault Refusal :=
  walkRun s (fun s c k x =>
    let v : Word := match src.toNat with
      | 0 => x.tag
      | 1 => BitVec.ofNat 32 k
      | 2 => x.emitted
      | 3 => BitVec.ofNat 32 x.depth
      | 4 => BitVec.ofNat 32 (match x.topk with | some t => t.entries.length | none => 0)
      | 5 => BitVec.ofNat 32 x.originCore
      | _ => if x.remote.isSome then 1 else 0
    (s.setWalk c k (x.setQ d.toNat v)).walkNext c k)

/-- `LDQ` (R219): the checks, then the wait for the words. -/
def execLdq (d a : BitVec 4) (off : BitVec 10) (n : BitVec 3) (s : State) : Host.Outcome State Fault Refusal :=
  walkRun s (fun s c k x =>
    let p := x.dq a.toNat + BitVec.ofNat 64 (4 * off.toNat)
    if p.getLsbD 63 then s.walkFault c k 5 p
    else if p.toNat % 4 ≠ 0 then s.walkFault c k 4 p
    else s.setWalk c k { x with wait := .ldq d.toNat p (2 ^ n.toNat) })

end Sys2Proof.Machine
end

