-- ==== Sys2Proof/Machine/Task.lean ====
section
/-! DEFINITION. TASK: `LAUNCH` (R401), `RFORK` with its recruits (R343, R402), `JOIN` (R344, R403); and REGS: register
blocks and the rotating window (R263, R264, R342, R404-R406). -/
namespace Sys2Proof.Machine

/-! ### LAUNCH (R401) -/

/-- Whether a program of a context launched it. -/
def Origin.ofProgram (ctx : Nat) : Origin → Bool
  | .program c _ _ => c == ctx
  | _ => false

/-- Program launches of a context taken up and not wholly placed, those whose header cannot be read yet among them. -/
def State.unplaced (s : State) (ctx : Nat) : Nat :=
  (s.launches.filter (fun (e : Nat × Launch) => e.2.origin.ofProgram ctx && decide (e.2.placed < e.2.teams))).length +
  (s.takeUps.filter (fun t => t.ctx == ctx && t.origin.ofProgram ctx)).length

/-- Take up the header of a program's `LAUNCH`. -/
def State.programLaunch (s : State) (ctx : Nat) (hdr : DWord) (rec_ : Option DWord) : State :=
  s.takeUp ctx hdr (.program ctx rec_ hdr) none [] 0

def execLaunch (o : Opnds) (s : State) : Host.Outcome State Fault Refusal :=
  simt s o false noPre (fun s x act => match s.sources x act o [fieldA o 2, fieldB o 2] with
    | .error e => .error e
    | .ok vs =>
      let h := BitVec.ofNat 64 (once act vs 0)
      let r : Option DWord := if o.cb = .none then none else some (BitVec.ofNat 64 (once act vs 1))
      if h.toNat % 128 ≠ 0 then .error ((x.trap act .misaligned h).posted 0 0)
      else if (r.getD 0).toNat % 16 ≠ 0 then .error ((x.trap act .misaligned (r.getD 0)).posted 0 1)
      else match s.releaseNow x act .device with
        | .error e => .error e
        | .ok s =>
          if 64 ≤ s.unplaced x.ctx then .error (.wait s (.launch h r))
          else .ok { s := s.programLaunch x.ctx h r })

/-- Waiting launches go on, in the order of their cores and waves, while fewer than 64 are unplaced. -/
def State.settleLaunches (s : State) : State :=
  s.cores.foldl (fun s (e : Nat × Core) =>
    (s.waitsOn e.1 (fun _ k => match k with | .launch _ _ => true | _ => false)).foldl (fun s v => match v.2.kind with
      | .launch h r =>
        let ctx := s.ctxOf (s.wave e.1 v.1)
        if s.unplaced ctx < 64 then (s.programLaunch ctx h r).endWait e.1 v.1 v.2 else s
      | _ => s) s) s

/-! ### RFORK (R343, R402) -/

/-- Whether core `d` lies in the 2x2 group, and in the 8x8 quadrant, of core `c` (R12, R343). -/
def sameQuad (c d : Nat) : Bool := c / 128 == d / 128 && c % 16 / 8 == d % 16 / 8

/-- Cores in the order of the search. -/
def recruitCores (c : Nat) : List Nat :=
  let all := List.range Config.cores
  [c] ++ all.filter (fun d => d != c && groupOf d == groupOf c) ++
  all.filter (fun d => groupOf d != groupOf c && sameQuad c d) ++ all.filter (fun d => !sameQuad c d)

/-- The header of a recruit's team: one wave with its base block, no Bench, tiles, queues or Jig. -/
def recruitHeader (h : Header) (entry : DWord) : Header :=
  { h with entry := entry, waves := 1, shape := 0, bench := 0, acc := 0, blocks := 0, cqn := 0, cqd := 0, jigp := 0 }

/-- Whether slice `k` of a core takes a recruit of priority `p`: reserved, and beside what is set aside. -/
def State.recruitFits (s : State) (p c k : Nat) : Bool :=
  s.inService c && !s.keptFrom p c && (s.freeTeamSlot c).isSome && s.sliceTakes c k 1 72 &&
  decide (s.reservedSum c k + (s.asides c).charge k + 72 ≤ 1023)

/-- Start a recruit of a launch on slice `k` of core `c`; the wave slot it takes is the lowest free one. -/
def State.startRecruit (s : State) (l c k : Nat) (entry : DWord) : State × Nat :=
  let L := s.launch l
  let h := recruitHeader L.hdr entry
  let slot := (s.freeTeamSlot c).getD 0
  let w := ((s.freeWaveSlots c k).head?).getD 0
  let (id, s) := s.newId
  let t : Team := {
    launch := l, ctx := h.ctx, members := [{ core := c, slot := slot, base := 0 }], quietSince := s.clocks, recruit := true }
  let s := { s with teams := FMap.set s.teams id t }
  let s := s.modCore c (fun q => { q with slots := FMap.set q.slots slot id })
  let s := s.addWave h id c k 0 0 0 0 L.hdr.prio
  (s.modLaunch l (fun y => { y with
    teams := y.teams + 1, placed := y.placed + 1, ran := if y.ran.contains c then y.ran else y.ran ++ [c] }), w)

/-- Recruit on slices of a core until `n` are found: the waves found so far, as core and slot. -/
def State.recruitSlice (s : State) (l c k : Nat) (entry : DWord) (n : Nat) : Nat → List (Nat × Nat) → State × List (Nat × Nat)
  | 0, got => (s, got)
  | fuel + 1, got =>
    if got.length < n ∧ s.recruitFits (s.launch l).prio c k = true then
      let (s, w) := s.startRecruit l c k entry
      s.recruitSlice l c k entry n fuel (got ++ [(c, w)])
    else (s, got)

/-- Recruit at most `n` waves (R343). -/
def State.recruit (s : State) (l c : Nat) (entry : DWord) (n : Nat) : State × List (Nat × Nat) :=
  (recruitCores c).foldl (fun (p : State × List (Nat × Nat)) d =>
    (List.range 4).foldl (fun (p : State × List (Nat × Nat)) k => p.1.recruitSlice l d k entry n 16 p.2) p) (s, [])

/-- The participants' scalars: number, participants and cell (R402). -/
def forkScalars (k r : Nat) (cell : DWord) : List Word :=
  [BitVec.ofNat 32 k, BitVec.ofNat 32 (r + 1), loWord cell, hiWord cell]

/-- A forked join cell with its participants; one whose continuation is reached is known no more (R465). -/
def State.forkCell (s : State) (ctx : Nat) (cell : DWord) (parts : List (Nat × Nat)) : State :=
  s.modCtx ctx (fun y => { y with forks := y.forks.filter (fun f => f.1 != cell) ++ (if parts.isEmpty then [] else [(cell, parts)]) })

def rforkBody (o : Opnds) (s : State) (x : Iss) (act : Mask) : Except Stop Fx :=
  match s.sources x act o [fieldA o 2, fieldB o, fieldC o] with
  | .error e => .error e
  | .ok vs =>
    let cell := BitVec.ofNat 64 (once act vs 0)
    let trip := once act vs 1
    let chunk := once act vs 2
    let t := ceilDiv trip chunk
    let d := o.d.toNat
    if chunk = 0 then .error (x.trap act .indexRange 0)
    else if cell.toNat % 16 ≠ 0 then .error ((x.trap act .misaligned cell).posted 0 1)
    else match s.place (.core x.c) x.ctx cell .write with
      | (_, .error (_, e)) => .error ((x.trap act e cell).posted 0 1)
      | (s, .ok p) => if s.transWaits (.core x.c) x.ctx cell then .error .block
        else match s.atHome x.ctx p.key with
        | some (.fault e _) => .error ((x.trap act e cell).posted 0 1)
        | some _ => .error .block
        | none => match s.releaseNow x act .device with
          | .error e => .error e
          | .ok s =>
            let (s, got) := s.recruit (s.team x.src.team).launch x.c x.next (min (t - 1) 1023)
            let r := got.length
            match ((s.pushHome x.c p.key).writeKills x.c p.key 16).homeWrite p.key
                (leBytes 4 (r + 1) ++ leBytes 4 0 ++ leBytes 4 t ++ leBytes 4 0) with
            | (_, false) => .error ((x.trap act .uncorrectable cell).posted 0 1)
            | (s, true) =>
              let s := s.l2Use p.key 16 p.cpol
              let s := (List.range r).foldl (fun s i =>
                let e := nth got i (0, 0)
                s.modWave e.1 e.2 (fun y => y.setScalars d (forkScalars (i + 1) r cell))) s
              let s := s.forkCell x.ctx cell ((x.src.team, x.src.index) :: got.map (fun e => ((s.wave e.1 e.2).team, 0)))
              match s.putScalar x act d (forkScalars 0 r cell) with
              | .error e => .error e
              | .ok s => .ok { s := s }

def execRfork (o : Opnds) (s : State) : Host.Outcome State Fault Refusal := simt s o false noPre (rforkBody o)

/-! ### JOIN (R344, R403) -/

/-- A bundle that is not the whole wave traps before its guard (R137, R403). -/
def wholeWave (x : Iss) : Option Stop := if x.lanes = x.src.live then none else some (x.pre .convergence 0 0)

/-- A wave ends as `HALT` ends it: its threads go on past the instruction, then end, and the team may end with them. -/
def State.endWave (s : State) (c w : Nat) : State := (s.endThreads c w 0xFFFFFFFF).waveOver c w

/-- The body of `JOIN`: all of the wave's accesses come before the continuation (R258). -/
def joinBody (o : Opnds) (s : State) (x : Iss) (act : Mask) : Except Stop Fx :=
  match s.sources x act o [fieldA o 2, fieldB o] with
  | .error e => .error e
  | .ok vs =>
    let cell := BitVec.ofNat 64 (once act vs 0)
    let off := (BitVec.ofNat 32 (once act vs 1)).signExtend 64
    if cell.toNat % 16 ≠ 0 then .error ((x.trap act .misaligned cell).posted 0 2)
    else match s.place (.core x.c) x.ctx cell .atomic with
      | (_, .error (_, e)) => .error ((x.trap act e cell).posted 0 2)
      | (s, .ok p) => if s.transWaits (.core x.c) x.ctx cell || s.missWait p.key 4 then .error .block
        else match s.atHome x.ctx p.key with
        | some (.fault e _) => .error ((x.trap act e cell).posted 0 2)
        | some _ => .error .block
        | none => match s.releaseNow x x.lanes .device with
          | .error e => .error e
          | .ok s =>
            let s := s.pushHome x.c p.key
            match s.homeNat p.key 4 with
            | none => .error ((x.trap act .uncorrectable cell).posted 0 2)
            | some 0 => .error (x.trap act .joinMismatch cell)
            | some (n + 1) =>
              let s := ((s.writeKills x.c p.key 4).homeWrite p.key (leBytes 4 n)).1.l2Use p.key 4 p.cpol
              let s := s.acquireFor x.c x.w .device
              if n = 0 then .ok { s := s.forkCell x.ctx cell [], whole := true, goes := some (fun _ => x.pc + off * 8) }
              else .ok { s := s.endThreads x.c x.w x.lanes, whole := true }

/-- `JOIN`; a wave whose threads it ended is over. -/
def execJoin (o : Opnds) (s : State) : Host.Outcome State Fault Refusal :=
  match simt s o false wholeWave (joinBody o) with
  | .next t => .next (match s.issuing with
    | some x => if (t.wave? x.c x.w).any Wave.isOver then t.waveOver x.c x.w else t
    | none => t)
  | r => r

/-! ### Register blocks (R263, R342, R404, R405) -/

/-- Grant the request of a wave: `n` blocks, and the mask of those mapped to the destination. -/
def State.grantBlocks (s : State) (x : Iss) (act : Mask) (n : Nat) (dest : Option Nat) : Except Stop State :=
  let m := (s.now x).lowestUnmapped n
  let s := s.modNow x (fun y => y.mapBlocks m)
  match dest with
  | some d => s.putScalar x act d [m]
  | none => .ok s

/-- Whether the head request can be granted now (R342). -/
def State.canGrant (s : State) (c w n : Nat) : Bool :=
  !(s.wave c w).borrowing && decide (s.reservedSum c (sliceOf w) + 64 * n ≤ 1023)

/-- Whether another bundle of the wave waits in `RACQ`. -/
def Wave.asking (x : Wave) : Bool := x.waits.any (fun v => match v.kind with | .racq _ _ => true | _ => false)

def racqBody (o : Opnds) (s : State) (x : Iss) (act : Mask) : Except Stop Fx :=
  match s.sources x act o [fieldA o] with
  | .error e => .error e
  | .ok vs =>
    let n := once act vs 0
    let y := s.now x
    let dest := if dclsOf o .none = .sca then some o.d.toNat else none
    if n = 0 ∨ 31 < n ∨ 32 - popcount y.blocks < n ∨ 1023 < y.charge + 64 * n then .error (x.trap act .indexRange 0)
    else if y.asking then .error .block
    else if (s.slice x.c x.slice).racq.isEmpty && s.canGrant x.c x.w n then
      match s.grantBlocks x act n dest with
      | .error e => .error e
      | .ok s => .ok { s := s }
    else .error (.wait (s.modSlice x.c x.slice (fun k => { k with racq := k.racq ++ [x.w] })) (.racq n dest))

def execRacq (o : Opnds) (s : State) : Host.Outcome State Fault Refusal := simt s o false noPre (racqBody o)

/-- The head request of a slice's FIFO is granted, when it can be. -/
def State.serveRacq (s : State) (c k : Nat) : State :=
  match (s.slice c k).racq with
  | [] => s
  | w :: r =>
    match (s.wave c w).waits.find? (fun v => match v.kind with | .racq _ _ => true | _ => false) with
    | none => s.modSlice c k (fun q => { q with racq := r })
    | some v => match v.kind with
      | .racq n dest =>
        if s.canGrant c w n && (s.wave c w).dbg.isNone then
          (match s.grantBlocks (v.iss s c w) v.active n dest with
            | .ok t => State.endWaitWith c w v { s := t.modSlice c k (fun q => { q with racq := r }) }
            | .error _ => s)
        else s
      | _ => s

def execRacqGrant (c slice : Nat) (s : State) : Host.Outcome State Fault Refusal := .next (s.serveRacq c slice)

/-- `RREL` frees at once what no other name reaches, and the FIFO's head is examined again. -/
def execRrel (o : Opnds) (s : State) : Host.Outcome State Fault Refusal :=
  simt s o false noPre (fun s x act => match s.sources x act o [fieldA o] with
    | .error e => .error e
    | .ok vs =>
      let m : Word := BitVec.ofNat 32 (once act vs 0)
      if m.getLsbD 0 then .error (x.trap act .illegalOperand x.base 0)
      else
        let s := s.modNow x (fun y => y.unmapBlocks m)
        .ok { s := ((s.sweep x.c x.slice).promote x.c x.slice).serveRacq x.c x.slice })

/-! ### The rotating window (R264, R406) -/

def execRsetw (o : Opnds) (s : State) : Host.Outcome State Fault Refusal :=
  simt s o false noPre (fun s x act => match s.sources x act o [fieldA o] with
    | .error e => .error e
    | .ok vs =>
      let n := once act vs 0
      if n % 8 ≠ 0 ∨ 512 < n then .error (x.trap act .indexRange 0)
      else .ok { s := s.modNow x (fun y => { y with rotSize := n, rotBase := 0 }) })

/-- `ROTB`: the step is signed, and the base it adds to is the one this bundle reads (R97). -/
def execRotb (o : Opnds) (s : State) : Host.Outcome State Fault Refusal :=
  simt s o false noPre (fun s x act => match s.sources x act o [fieldA o] with
    | .error e => .error e
    | .ok vs =>
      let k := intOf (once act vs 0) 32 true
      let n := x.src.rotSize
      if n = 0 then .error (x.trap act .rotRange 0)
      else
        let b := (((x.src.rotBase : Nat) : Int) + k) % ((n : Nat) : Int)
        .ok { s := s.modNow x (fun y => { y with rotBase := b.toNat }) })

end Sys2Proof.Machine
end

