-- ==== Sys2Proof/Machine/Trav.lean ====
section
/-! DEFINITION. `TRAV` and `TRAVX` (R356, R357, R362, R372, R373), the grants of walk slots, the arrivals at a Spindle
(R172, R193), and the messages of the pairing link (R213, R214, R362, R365-R368). -/
namespace Sys2Proof.Machine

/-! ### TRAV (R353, R356, R357, R372) -/

/-- The query block of a lane, or its fault with its item of R290. -/
def State.queryBlock (s : State) (x : Iss) (va : Nat) : Except (Nat × Cause) (List Byte) :=
  if va % 64 ≠ 0 then .error (2, .misaligned)
  else match s.localBench x.src.team va 64 with
    | none => .error (3, .benchRange)
    | some k =>
      if benchCore k ≠ x.c then .error (3, .benchRange)
      else match s.homeRead k 64 with
        | none => .error (8, .uncorrectable)
        | some bs => .ok bs

/-- Whether the reads of query blocks may be made now, after the thread's earlier accesses to their banks (R248). -/
def State.queryReady (s : State) (x : Iss) (act : Mask) (va : Nat → Nat) : Bool :=
  let o : Op := { id := s.fresh, wave := x.w, kind := .load, size := 64, bench := true, active := act }
  (lanesOf act).all (fun l => match s.localBench x.src.team (va l) 64 with
    | some k => s.memReady x.c o { lane := l, va := BitVec.ofNat 64 (va l), key := k }
    | none => true)

/-- Start the walk of a request in a free slot; `none` when there is none. -/
def State.travStart (s : State) (c w : Nat) (r : TravReq) : Option State :=
  (s.freeWalkSlot c).map (fun k => s.startWalk c k w r.tag r.cq r.kind r.block)

/-- Start requests in lane order while slots are free: the state and the requests left. -/
def State.travStarts (s : State) (c w : Nat) : List TravReq → State × List TravReq
  | [] => (s, [])
  | r :: rs => match s.travStart c w r with
    | none => (s, r :: rs)
    | some s => s.travStarts c w rs

def travBody (o : Opnds) (s : State) (x : Iss) (act : Mask) : Except Stop Fx :=
  let cq := (o.xm.extractLsb' 0 3).toNat
  if (s.team x.src.team).cqn ≤ cq then .error (x.trap act .illegalOperand x.base 0)
  else match s.sources x act o [fieldA o, fieldB o, fieldC o] with
  | .error e => .error e
  | .ok vs =>
    let va := (nth vs 0 Src.none).nat
    let handle := once act vs 1
    let sdtp := (s.launchOf x.src).hdr.sdtp
    let kind := pairOf (BitVec.ofNat 32 handle) (hiWord sdtp)
    if handle % 32 ≠ 0 then .error (x.trap act .misaligned kind)
    else if !s.queryReady x act va then .error .block
    else
      let blocks := (lanesOf act).map (fun l => (l, s.queryBlock x (va l)))
      let reqs := blocks.filterMap (fun e => match e.2 with
        | .ok bs => some ({ lane := e.1, tag := BitVec.ofNat 32 ((nth vs 2 Src.none).nat e.1), cq := cq, kind := kind, block := bs } : TravReq)
        | .error _ => none)
      let faults := blocks.filterMap (fun e => match e.2 with
        | .ok _ => none
        | .error f => some (e.1, f.1, f.2, BitVec.ofNat 64 (va e.1)))
      let sp := (s.core x.c).sp
      let (s, left) := if sp.want.isEmpty && sp.arrivals.isEmpty then s.travStarts x.c x.w reqs else (s, reqs)
      if left.isEmpty then .ok { s := s, after := memTrap false 0 x.pc x.lanes act (s.now x).live faults }
      else
        let s := s.modCore x.c (fun k => { k with sp := { k.sp with want := k.sp.want ++ left.map (fun r => (x.w, r.lane)) } })
        .error (.wait s (.trav left faults))

def execTrav (o : Opnds) (s : State) : Host.Outcome State Fault Refusal := simt s o false noPre (travBody o)

/-- A waiting `TRAV` whose lanes have all started retires, and its faulted lanes trap (R356). -/
def State.travEnd (s : State) (c w : Nat) (v : Wait) : State :=
  match v.kind with
  | .trav [] fs =>
    State.endWaitWith c w v { s := s, after := memTrap false 0 v.pc v.lanes v.active (s.wave c w).live fs }
  | _ => s

/-- The first waiting lane takes a free slot (R357). -/
def State.grantLane (s : State) (c : Nat) : State :=
  match (s.core c).sp.want with
  | [] => s
  | (w, l) :: r =>
    let s1 := s.modCore c (fun k => { k with sp := { k.sp with want := r } })
    match (s.wave c w).waits.find? (fun v => match v.kind with | .trav left _ => left.any (fun q => q.lane == l) | _ => false) with
    | none => s1
    | some v => match v.kind with
      | .trav left fs =>
        (match left.find? (fun q => q.lane == l) with
          | none => s1
          | some q => match s1.travStart c w q with
            | none => s
            | some t =>
              let k := WaitKind.trav (left.filter (fun q => q.lane != l)) fs
              (t.setWait c w v k).travEnd c w { v with kind := k })
      | _ => s1

/-- A hand-off arrival takes a free slot and starts a partner walk; its queue place is given back (R213, R365). -/
def State.grantArrival (s : State) (c k : Nat) (m : HoffMsg) : State :=
  let y : Walk := {
    ctx := m.partnerCtx, tag := m.tag, cq := m.cq, kind := m.kind, q := m.q, m := m.m, kappa := List.replicate 16 fpInf,
    chip := [hiWord m.ptr, loWord m.ptr], topk := m.topk, emitted := m.emitted,
    remote := some (m.originCore, m.originSlot, m.ctx), hid := m.hid, originCore := m.originCore, originSlot := m.originSlot }
  let s := s.modCore c (fun q => { q with sp := { q.sp with arrivals := q.sp.arrivals.drop 1 } })
  (({ s with outbox := s.outbox ++ [OutMsg.credit (m.charged.getD c)] }).setWalk c k y).walkKind c k m.sdtab (some m.entry)

/-! ### TRAVX (R362, R373) -/

/-- Cancel a walk: at the partner for one that is handed off, whose terminal entry comes back. -/
def State.cancelWalk (s : State) (c k : Nat) : State :=
  match s.walk? c k with
  | none => s
  | some x => match x.wait with
    | .handoff _ _ false =>
      if x.cancelled then s
      else (({ s with outbox := s.outbox ++ [OutMsg.cancel c k x.hid] }).setWalk c k { x with cancelled := true })
    | _ => s.walkCancel c k

def execTravx (o : Opnds) (s : State) : Host.Outcome State Fault Refusal :=
  simt s o false noPre (fun s x act => match s.sources x act o [fieldA o, fieldB o] with
    | .error e => .error e
    | .ok vs =>
      let word := fun (i l : Nat) => (BitVec.ofNat 32 ((nth vs i Src.none).nat l) : Word)
      let mask := fun (l : Nat) => if o.cb = .none then (0xFFFFFFFF : Word) else word 1 l
      let named := fun (y : Walk) => y.team == x.src.team && y.remote.isNone &&
        (lanesOf act).any (fun l => y.tag &&& mask l == word 0 l &&& mask l)
      .ok { s := ((s.core x.c).sp.walks.filter (fun e => named e.2)).foldl (fun s e => s.cancelWalk x.c e.1) s })

/-! ### Arrivals at the Spindle (R172, R193, R219) -/

def execNodeArrival (c slot : Nat) (s : State) : Host.Outcome State Fault Refusal := .next (s.walkArrive c slot)
def execStackSpill (c slot : Nat) (s : State) : Host.Outcome State Fault Refusal := .next (s.walkSpill c slot)
def execStackFill (c slot : Nat) (s : State) : Host.Outcome State Fault Refusal := .next (s.walkFill c slot)

/-- The requests of the completion entries that the Spindle of a core writes when it takes `s` to `t` (R16, R190, R358). -/
def State.spindleReqs (s t : State) (c : Nat) : List BankReq :=
  s.teams.flatMap (fun (e : Nat × Team) =>
    if e.2.isSaved then []
    else (List.range 8).flatMap (fun n =>
      if (e.2.cq c n).tail = ((t.team e.1).cq c n).tail then []
      else benchReqs rankSpindle (s.benchAt e.1 c (e.2.cqOff n + 16 * (e.2.cq c n).tail)) 16))

/-- Walks that wait for queue space go on when it is there and the banks take their entries (R16, R190); of several that wait for one
queue the one in the lowest slot goes first, which the model chooses (log entry 74). -/
def State.settleWalks (s : State) : State :=
  s.cores.foldl (fun s (e : Nat × Core) =>
    (e.2.sp.walks.filter (fun w => match w.2.wait with | .queue _ _ _ _ _ => true | .emitk _ _ => true | _ => false)).foldl
      (fun s w => let t := s.walkRetry e.1 w.1; s.bank t (s.spindleReqs t e.1)) s) s

/-! ### The pairing link: messages that arrive here for the partner's walks (R365, R366, R368) -/

/-- The core that takes a message for core `c`: itself, or the next one in service (R365), as a core is until it is parked (R472). -/
def State.handoffCore (s : State) (c : Nat) : Option Nat :=
  ((List.range 256).map (fun i => (c + i) % 256)).find? (fun d => s.inService d || (s.core d).service == .draining)

/-- The first message that waits at a core out of service goes to the queue of the next core in service, when that has a place
(R365, R472). -/
def State.moveArrival (s : State) (c : Nat) : State :=
  match (s.core c).sp.arrivals, s.handoffCore c with
  | m :: r, some d =>
    if 16 ≤ (s.core d).sp.arrivals.length then s
    else (s.modCore c (fun k => { k with sp := { k.sp with arrivals := r } })).modCore d (fun k => { k with sp := { k.sp with
      arrivals := k.sp.arrivals ++ [{ m with charged := some (m.charged.getD c) }] } })
  | _, _ => s

/-- A free walk slot goes to its first claimant (R357); on a core that is parked the claimant goes on to another (R365, R472). -/
def execWalkSlotGrant (c : Nat) (s : State) : Host.Outcome State Fault Refusal :=
  .next (if (s.core c).service.closed then s.moveArrival c
    else match s.freeWalkSlot c, (s.core c).sp.arrivals with
      | none, _ => s
      | some k, m :: _ => s.grantArrival c k m
      | some _, [] => s.grantLane c)

/-- Whether a message of a context is accepted for one of ours (R422). -/
def State.accepts (s : State) (theirs ours : Nat) : Bool := (FMap.get s.ctxs ours).any (fun x => x.pair == some theirs)

def execHandoffArrival (msg : HoffMsg) (s : State) : Host.Outcome State Fault Refusal :=
  .next (
    if !s.ports.any id then s
    else match s.handoffCore msg.originCore with
      | none => s
      | some c =>
        if !s.accepts msg.ctx msg.partnerCtx then
          { s with outbox := s.outbox ++ [OutMsg.refuse msg.originCore msg.originSlot msg.hid, OutMsg.credit c] }
        else
        if 16 ≤ (s.core c).sp.arrivals.length then s
        else s.modCore c (fun k => { k with sp := { k.sp with arrivals := k.sp.arrivals ++ [{ msg with charged := none }] } }))

/-- A partner walk that runs for a hand-off of an origin core and slot. -/
def forOrigin (oc os hid : Nat) (x : Walk) : Bool := x.remote.any (fun r => r.1 == oc && r.2.1 == os) && x.hid == hid
/-- A queued message of a hand-off. -/
def msgFor (m : HoffMsg) (oc os hid : Nat) : Bool := m.originCore == oc && m.originSlot == os && m.hid == hid

/-- Take the queued messages of a hand-off out of a core's queue; their places are given back (R365). -/
def State.dropArrivals (s : State) (c oc os hid : Nat) : State :=
  let gone := (s.core c).sp.arrivals.filter (fun m => msgFor m oc os hid)
  { s.modCore c (fun k => { k with sp := { k.sp with arrivals := k.sp.arrivals.filter (fun m => !msgFor m oc os hid) } }) with
    outbox := s.outbox ++ gone.map (fun m => OutMsg.credit (m.charged.getD c)) }

/-- A cancel message stops a partner walk: its terminal entry WALK_CANCELLED goes back behind its other entries. -/
def execCancelMessage (originCore : Nat) (originSlot : HoffRef) (s : State) : Host.Outcome State Fault Refusal :=
  let slot := originSlot.slot
  let hid := originSlot.hid
  .next (s.cores.foldl (fun s (e : Nat × Core) =>
    let gone := e.2.sp.arrivals.filter (fun m => msgFor m originCore slot hid)
    let s := s.dropArrivals e.1 originCore slot hid
    let back := fun (m : HoffMsg) => OutMsg.entries originCore slot hid
      [BitVec.ofNat 128 (leWord (cqEntry m.tag 0x02 m.emitted.toNat 0 0 0))] 0
    let s := { s with outbox := s.outbox ++ gone.map back }
    (e.2.sp.walks.filter (fun w => forOrigin originCore slot hid w.2)).foldl (fun s w => s.walkCancel e.1 w.1) s) s)

/-- A kill message stops a partner walk, which writes nothing further. -/
def execKillMessage (originCore : Nat) (originSlot : HoffRef) (s : State) : Host.Outcome State Fault Refusal :=
  .next (s.cores.foldl (fun s (e : Nat × Core) =>
    (s.dropArrivals e.1 originCore originSlot.slot originSlot.hid).modCore e.1 (fun k => { k with sp := { k.sp with
      walks := k.sp.walks.filter (fun w => !forOrigin originCore originSlot.slot originSlot.hid w.2) } })) s)

/-! ### The pairing link: messages that arrive here for our own walks (R213, R214, R362, R366) -/

/-- A walk of ours that is handed off, and has not been stopped since (R214, R368). -/
def State.away? (s : State) (c : Nat) (r : HoffRef) : Option (Walk × DWord) :=
  (s.walk? c r.slot).bind (fun x => match x.wait with | .handoff p _ false => if x.hid = r.hid then some (x, p) else none | _ => none)

/-- The return of a partner walk's `DONE`; a walk cancelled meanwhile ends. -/
def execHandoffReturn (c : Nat) (slot : HoffRef) (ret : HoffRet) (s : State) : Host.Outcome State Fault Refusal :=
  .next (match s.away? c slot with
    | none => s
    | some (x, _) =>
      if x.cancelled then s.walkCancel c slot.slot
      else (s.setWalk c slot.slot { x with q := ret.q, m := ret.m, emitted := ret.emitted, topk := ret.topk, cf := true }).walkNext c slot.slot)

/-- Write entries of a partner walk at consecutive positions of the origin's queue. -/
def State.partnerEntries (s : State) (c slot : Nat) (x : Walk) : List (BitVec 128) → State
  | [] => s
  | e :: es => match s.cqWrite x.team c x.cq (leBytes 16 e.toNat) with
    | none => s
    | some s => (s.modWalk c slot (fun y => { y with emitted := y.emitted + 1 })).partnerEntries c slot x es

/-- Entries of the partner walk go to the origin queue together; a queue without room for all of them holds the link back, and
more than its depth end the walk with reason 3 (R208), or as cancelled (R362), the partner's being stopped. A terminal entry ends the origin walk, as
WALK_CANCELLED when it was cancelled. -/
def execPartnerEntryArrival (c : Nat) (slot : HoffRef) (entry : HoffEntries) (s : State) : Host.Outcome State Fault Refusal :=
  let k := slot.slot
  .next (match s.away? c slot with
    | none => s
    | some (x, _) =>
      let T := s.team x.team
      let last := entry.es.any (fun e => nth (leBytes 16 e.toNat) 4 0 != 0)
      if last && x.cancelled then s.walkCancel c k
      else if T.cqd < entry.es.length then
        let s := { s with outbox := s.outbox ++ [OutMsg.kill c k slot.hid] }
        if x.cancelled then s.walkCancel c k else (s.setWalk c k { x with pc := entry.pc, wait := .ready }).walkIllegal c k 3
      else if T.cqd < (T.cq c x.cq).count + entry.es.length ∨ s.cqHeld x.team c x.cq entry.es.length = true then s
      else
        let s := s.partnerEntries c k x entry.es
        if last then s.freeWalk c k else s)

/-- The partner refuses a message: NODE_FAULT kind 6 with the pointer. -/
def execHandoffRefusal (c : Nat) (slot : HoffRef) (s : State) : Host.Outcome State Fault Refusal :=
  .next (match s.away? c slot with
    | none => s
    | some (x, p) => if x.cancelled then s.walkCancel c slot.slot else s.walkFault c slot.slot 6 p)

/-- A message that waits for a credit of a core of the partner: the first by origin core and slot. -/
def State.heldHandoff (s : State) (d : Nat) : Option (Nat × Nat) :=
  s.cores.findSome? (fun (e : Nat × Core) => if partnerCore e.1 ≠ d then none
    else (e.2.sp.walks.find? (fun w => match w.2.wait with | .handoff _ _ true => true | _ => false)).map (fun w => (e.1, w.1)))

/-- A credit returns for the messages to a core of the partner, and the first message held back is sent. -/
def execHandoffCredit (c : Nat) (s : State) : Host.Outcome State Fault Refusal :=
  .next (
    let s := { s with handoffUsed := FMap.set s.handoffUsed c (FMap.getD s.handoffUsed c 0 - 1) }
    match s.heldHandoff c with
    | some e => s.sendHandoff e.1 e.2
    | none => s)

/-- The pairing link is down: walks handed off end with HANDOFF_LINK_DOWN (R214), or as cancelled. That walks that run here for the
partner and messages that wait go at once, and that the credits start anew, is the model's choice (log entry 104). -/
def State.handoffsDown (s : State) : State :=
  let s := s.cores.foldl (fun s (e : Nat × Core) =>
    let s := (e.2.sp.walks.filter (fun w => match w.2.wait with | .handoff _ _ _ => true | _ => false)).foldl
      (fun s w => if w.2.cancelled then s.walkCancel e.1 w.1 else s.walkEnd e.1 w.1 0x54 0 0 0) s
    s.modCore e.1 (fun k => { k with sp := { k.sp with
      arrivals := [], walks := k.sp.walks.filter (fun w => w.2.remote.isNone) } })) s
  { s with handoffUsed := [], outbox := [] }

end Sys2Proof.Machine
end

