-- ==== Sys2Proof/Machine/Save.lean ====
section
/-! DEFINITION. Saving and restoring teams and waves (R157, R272, R284, R338, R339, R437-R441): the wave record, the team
area, when a wave can be saved, and what a restore checks and reinstates (log entry 40). -/
namespace Sys2Proof.Machine

/-! ### Images (R90, R439, R440) -/

def zeros (n : Nat) : List Byte := List.replicate n 0

def LacCls.num : LacCls → Nat
  | .fin => 0 | .pinf => 1 | .ninf => 2 | .nan => 3
def LacCls.ofNum (n : Nat) : LacCls := match n % 4 with | 0 => .fin | 1 => .pinf | 2 => .ninf | _ => .nan

/-- A long accumulator, 96 bytes. -/
def Lac.image (a : Lac) : List Byte := leBytes 80 a.n.toNat ++ leBytes 1 a.cls.num ++ zeros 15
def Lac.ofImage (bs : List Byte) : Lac := { cls := .ofNum (fieldAt bs 80 1), n := BitVec.ofNat 640 (fieldAt bs 0 80) }

/-- A tile, 20,544 bytes. -/
def tileImage (es : List Lac) : List Byte :=
  es.flatMap (fun a => leBytes 80 a.n.toNat) ++ leBytes 64 (es.foldr (fun a m => a.cls.num + 4 * m) 0)
def tileOfImage (bs : List Byte) : List Lac :=
  let cs := fieldAt bs 20480 64
  (List.range 256).map (fun e => { cls := .ofNum (cs / 4 ^ e), n := BitVec.ofNat 640 (fieldAt bs (80 * e) 80) })

/-- A block of trap registers, 48 bytes; the moved-aside prefix stands in the current trap's only. -/
def trapImage (t : TrapRegs) (pfx : DWord) (mask : Mask) (pp : Bool) : List Byte :=
  leBytes 4 t.trapc.toNat ++ leBytes 4 t.trapmask.toNat ++ leBytes 8 t.resm.toNat ++ leBytes 8 t.trappc.toNat ++
  leBytes 8 t.trapaddr.toNat ++ leBytes 8 pfx.toNat ++ leBytes 4 mask.toNat ++ leBytes 4 (if pp then 1 else 0)
def trapOfImage (bs : List Byte) : TrapRegs :=
  { trapc := BitVec.ofNat 32 (fieldAt bs 0 4), trapmask := BitVec.ofNat 32 (fieldAt bs 4 4), resm := BitVec.ofNat 32 (fieldAt bs 8 4),
    trappc := BitVec.ofNat 64 (fieldAt bs 16 8), trapaddr := BitVec.ofNat 64 (fieldAt bs 24 8) }

/-- Name in a destination field. -/
def Dest.name : Dest → Nat
  | .vec n _ => n
  | .sca n _ => n
  | .pred n => n
  | .mbox n => n
  | .none => 0

/-- Index of a register in a list of registers, from 1; 0 for register 0. -/
def regIndex (l : List Nat) (p : Nat) : Nat := if p = 0 then 0 else l.idxOf p + 1

/-- A withdrawn operation (R440) without its source slots. -/
structure Withdrawn where
  kind : Nat
  regs : List Nat
  lanes : Mask
  base : DWord
  ext : DWord
  pfx : DWord := 0
  lx : Word := 0
  dest : Nat
  b : DWord := 0
  c : DWord := 0
  jq : Nat := 0
  deriving DecidableEq, Repr

def Withdrawn.image (o : Withdrawn) (transit : List Nat) : List Byte :=
  let slots := (o.regs.take 64).map (regIndex transit)
  leBytes 2 o.kind ++ leBytes 2 slots.length ++ leBytes 4 o.lanes.toNat ++ leBytes 8 o.base.toNat ++ leBytes 8 o.ext.toNat ++
  leBytes 8 o.pfx.toNat ++ leBytes 4 o.lx.toNat ++ leBytes 4 o.dest ++ leBytes 8 o.b.toNat ++ leBytes 8 o.c.toNat ++
  leBytes 8 o.jq ++ (slots ++ List.replicate (64 - slots.length) 0).flatMap (leBytes 2)

def SfuEntry.withdrawn (e : SfuEntry) : Withdrawn :=
  { kind := 1, regs := e.transit, lanes := e.active, base := e.base, ext := e.ext, dest := e.dest.name, b := e.sclB, c := e.sclC }
def EngEntry.withdrawn (e : EngEntry) : Withdrawn :=
  { kind := 2, regs := e.regs, lanes := 0xFFFFFFFF, base := e.base, ext := e.ext, pfx := e.pfx, lx := e.lxVersion,
    dest := e.dest.name, b := e.sclB, c := e.sclC }
def Op.withdrawn (q : Nat) (o : Op) : Withdrawn :=
  { kind := 3, regs := o.transit, lanes := o.active, base := o.base, ext := o.ext, dest := o.dest.name, jq := q }

/-! ### What a wave withdraws (R125, R157, R319) -/

/-- Waiting SFU entries of a wave. -/
def State.waitingSfu (s : State) (c w : Nat) : List SfuEntry :=
  (s.slice c (sliceOf w)).sfu.filter (fun e => e.wave == w && !e.started)
/-- Whether an engine entry has started. -/
def EngEntry.begun (e : EngEntry) : Bool := e.running || e.places == 0 || (e.kind == .mma && e.fa == 1 && decide (e.places < 4))
def State.waitingEng (s : State) (c w : Nat) : List EngEntry := (s.core c).eng.filter (fun e => e.wave == w && !e.begun)
/-- Claims of `JPOP` in claim order, and scalars that an `SMOV` will fill, under queue 4. -/
def State.claimsOf (s : State) (c w : Nat) : List (Nat × Op) :=
  (s.jig c).claims.filterMap (fun e => ((s.core c).ops.find? (fun o => o.id == e.2 && o.wave == w)).map (fun o => (e.1, o))) ++
  ((s.core c).ops.filter (fun o => o.wave == w && o.kind == .smov)).map (fun o => (4, o))

/-- Registers that the withdrawn operations of a wave will fill. -/
def State.refilled (s : State) (c w : Nat) : List Nat :=
  (s.waitingSfu c w).flatMap (fun e => e.dest.regs) ++ (s.waitingEng c w).flatMap (fun e => e.dest.regs) ++
  (s.claimsOf c w).flatMap (fun o => o.2.dest.regs)

/-- Whether a wave is at a boundary with nothing in flight but what it withdraws (R438 step 1). An entry whose result
another wave shares is withdrawn too, and completes for that wave (R125, `removeWave`); a wave that shares another's entry waits for its
flags (R275, R282). -/
def State.savable (s : State) (c w : Nat) : Bool :=
  let x := s.wave c w
  let ph := (s.slice c (sliceOf w)).phys
  let fill := s.refilled c w
  x.atBoundary && (s.core c).ops.all (fun o => o.wave != w || o.kind == .jpop || (o.kind == .smov &&
    o.lanes.all (fun a => !a.data.isEmpty || !(pregOf ph a.key).pending || fill.contains a.key))) &&
  (s.slice c (sliceOf w)).sfu.all (fun e => if e.wave == w then !e.started else !e.sharers.contains w) &&
  (s.core c).eng.all (fun e => e.wave != w || !e.begun) &&
  x.names.all (fun e => !(pregOf ph e.2).pending || fill.contains e.2)

/-! ### The wave record (R284, R439) -/

/-- Distinct FULL registers of a wave's names, in order of first appearance. -/
def Wave.uniques (x : Wave) (ph : FMap PReg) : List Nat :=
  ((x.names.filter (fun e => x.mapped e.1 && !(pregOf ph e.2).pending)).map (·.2)).eraseDups

def Wave.nameCode (x : Wave) (ph : FMap PReg) (us : List Nat) (n : Nat) : Nat :=
  if !x.mapped n then 0xFFFF
  else
    let p := x.reg n
    if p = 0 then 0 else if (pregOf ph p).pending then 0xFFFE else us.idxOf p + 1

def vregBytes (v : VReg) : List Byte := v.flatMap (fun w => leBytes 4 w.toNat)

/-- The operations that a wave withdraws, SFU entries first. -/
def State.withdrawals (s : State) (c w : Nat) : List Withdrawn :=
  (s.waitingSfu c w).map SfuEntry.withdrawn ++ (s.waitingEng c w).map EngEntry.withdrawn ++
  ((s.claimsOf c w).filter (fun o => o.1 != 4)).map (fun o => o.2.withdrawn o.1)

/-- Blocks that a waiting `RACQ` asks for, or one whose request the save has withdrawn (R438 step 2). -/
def Wave.asked (x : Wave) : Nat :=
  (x.waits.findSome? (fun v => match v.kind with | .racq n _ => some n | _ => none)).getD x.racqAsked

/-- Whether the record holds trap state, and the registers it holds. -/
def Wave.recTrap (x : Wave) : Option TrapRegs :=
  if srH x.sr ∨ x.dbg.isSome = true then some x.trap
  else x.replayHeld.head?.map (fun t => t.2.regs false)

/-- The resume addresses that a record holds: those of a fault held for the host are where its threads stand (R432 step 2, R439). -/
def Wave.resumes (x : Wave) : List DWord := if srH x.sr ∨ x.dbg.isSome = true then x.resume else x.pcs

/-- Word 0 of a record. -/
def Wave.recFlags (x : Wave) (asked len : Nat) : Nat :=
  1 + 2 ^ 16 * x.acc.length + (if srH x.sr then 2 ^ 24 else 0) + (if x.held.isEmpty then 0 else 2 ^ 25) +
  (if asked = 0 then 0 else 2 ^ 26) + (if x.dbg.isSome then 2 ^ 27 else 0) + (if x.replayHeld.isEmpty then 0 else 2 ^ 28) +
  2 ^ 32 * len

/-- Bytes 0x0010 to 0x027F of a record. -/
def Wave.recMid (x : Wave) (asked : Nat) : List Byte :=
  let lane := fun (n : Nat) (f : Nat → Nat) => (List.range 32).flatMap (fun l => leBytes n (f l))
  let hint := match x.rghint with | some (_, n) => 32 + 64 * n | none => 0
  leBytes 4 x.sr.toNat ++ leBytes 4 (x.rotSize * 2 ^ 16 + x.rotBase) ++ leBytes 8 x.pfx.toNat ++ leBytes 4 x.pfxMask.toNat ++
  leBytes 4 x.fgen.toNat ++ leBytes 8 x.rsp.toNat ++ leBytes 8 (x.prio % 32 + hint + 2 ^ 13 * asked) ++
  leBytes 8 (match x.rghint with | some (a, _) => a.toNat | none => 0) ++ lane 8 (fun l => (nth x.pcs l 0).toNat) ++
  lane 1 (fun l => nth x.starve l 0 % 64 + if x.ended.getLsbD l then 64 else 0) ++ lane 2 (fun l => nth x.rspill l 0) ++
  leBytes 16 (~~~x.sPend).toNat ++ x.preg.flatMap (fun p => leBytes 4 p.toNat)

/-- Bytes 0x0270 to 0x27BF. -/
def Wave.recRest (x : Wave) (ph : FMap PReg) (us : List Nat) : List Byte :=
  let lane := fun (n : Nat) (f : Nat → Nat) => (List.range 32).flatMap (fun l => leBytes n (f l))
  let full := (List.range 8).foldl (fun m n => if (nth x.mbox n {}).full then m + 2 ^ n else m) 0
  let stack := fun (l : Nat) => (nth x.rstack l []).reverse
  x.mbox.flatMap (fun b => leBytes 4 b.val.toNat) ++ leBytes 16 full ++ x.sreg.flatMap (fun v => leBytes 4 v.toNat) ++
  x.la.flatMap Lac.image ++
  (List.range 32).flatMap (fun l => (List.range 16).flatMap (fun e => leBytes 8 (nth (stack l) e 0).toNat)) ++
  lane 1 (fun l => (stack l).length) ++
  (match x.recTrap with
    | some t => trapImage t x.asidePfx x.asideMask x.asidePP
    | none => zeros 48) ++
  (match x.held with | h :: _ => trapImage (h.trap.regs false) 0 0 false | [] => zeros 48) ++
  (if x.recTrap.isSome then lane 8 (fun l => (nth x.resumes l 0).toNat) else zeros 256) ++ zeros 32 ++
  (List.range 2048).flatMap (fun n => leBytes 2 (x.nameCode ph us n))

/-- Registers that the withdrawn operations of a wave read, in order of first reference. -/
def transitList (ws : List Withdrawn) : List Nat := ((ws.flatMap (fun o => o.regs.take 64)).filter (· != 0)).eraseDups

/-- The record of a wave whose waits are abandoned, with what stands beside it; a poisoned part fails. -/
def State.waveRecord (s : State) (c w asked : Nat) : Except Cause (List Byte × SavedWave) :=
  let x := s.wave c w
  let ph := (s.slice c (sliceOf w)).phys
  let us := x.uniques ph
  let ws := s.withdrawals c w
  let ts := transitList ws
  let tiles := x.acc.map (fun t => FMap.getD (s.core c).tiles t {})
  if (us ++ ts).any (fun p => (pregOf ph p).poison) || x.laPoison != 0 || tiles.any (fun t => !t.poison.isEmpty) then
    .error .uncorrectable
  else
    let vals := fun (l : List Nat) => l.flatMap (fun p => vregBytes (pregOf ph p).data)
    let len := 0x27C0 + 20544 * x.acc.length + 128 * us.length + 192 * ws.length + 128 * ts.length
    let head := leBytes 8 (x.recFlags asked len) ++ leBytes 4 us.length ++ leBytes 2 ws.length ++ leBytes 2 ts.length
    let tail := ws.flatMap (fun o => o.image ts) ++ vals ts
    let bs := head ++ x.recMid asked ++ x.recRest ph us ++ tiles.flatMap (fun t => tileImage t.elems) ++ vals us ++ tail
    .ok (bs, {
      member := x.member, index := x.index, copy := x, sfu := s.waitingSfu c w, eng := s.waitingEng c w, pops := s.claimsOf c w
      tail := tail })

/-! ### Accesses of the save window (R437) -/

/-- Read `n` bytes from such an address, at most `fuel` pieces. -/
def State.vaGet (s : State) (c ctx : Nat) (va : DWord) (n : Nat) : Nat → State × Except (Cause × DWord) (List Byte)
  | 0 => (s, .ok [])
  | fuel + 1 =>
    if n = 0 then (s, .ok [])
    else match s.vaRead (.core c) ctx va (min n 65536) with
      | (s, .error e) => (s, .error (e, va))
      | (s, .ok bs) => match s.vaGet c ctx (va + 65536) (n - 65536) fuel with
        | (s, .error e) => (s, .error e)
        | (s, .ok r) => (s, .ok (bs ++ r))

/-- A save or restore that fails kills its team; a save write on an absent page may be held for the host (R437). -/
def State.saveFails (s : State) (t c : Nat) (write : Bool) (e : Cause) (va : DWord) : State :=
  let T := s.team t
  let r : FaultRec := { va := va, ctx := T.ctx, client := 1, access := if write then 1 else 0, cause := e, core := c, anon := 2 }
  if write && s.replays T.ctx e then
    let (s, fid) := s.holdFault r 0
    let s := { s with heldFaults := s.heldFaults.map (fun (h : HeldFault) => if h.fid = fid then { h with team := t } else h) }
    s.modTeam t (fun x => { x with saveHeld := some fid })
  else (s.postFault r false).1.killTeam t e

/-! ### Saving (R438) -/

/-- Offset of a wave's record by its member's core and slot. -/
def Team.recVa (T : Team) (member index : Nat) : DWord :=
  match T.members[member]? with
  | some m => waveRecVa m.core m.slot (index % max T.perCore 1)
  | none => 0

/-- Write the records of waves; the waits of each are abandoned but for barrier arrivals, with which its copy stands beside
the record. An error is the state of a save that has failed, or that waits for the host or for its link (R414, R453). -/
def State.putRecords (s : State) (t : Nat) : List (Nat × Nat) → List (Nat × Nat × SavedWave) →
    Except State (State × List (Nat × Nat × SavedWave))
  | [], done => .ok (s, done)
  | (c, w) :: r, done =>
    let asked := (s.wave c w).asked
    let s := (s.abandonSaved c w).modWave c w (fun x => { x with racqAsked := asked })
    match s.waveRecord c w asked with
    | .error e => .error (s.saveFails t c false e 0)
    | .ok (bs, v) =>
      let T := s.team t
      if s.spanWaits (.core c) T.ctx (T.recVa v.member v.index) false bs.length then .error s
      else match s.vaPut (.core c) T.ctx (T.recVa v.member v.index) bs with
      | (s, some (e, va)) => .error (s.saveFails t c true e va)
      | (s, none) => s.putRecords t r (done ++ [(c, w, { v with since := s.time })])

/-- Jobs of a team on a core in the order they were started. -/
def State.jobsOf (s : State) (c t : Nat) : List (Nat × CopyJob) :=
  sortBy (fun a b => decide (a.2.stamp ≤ b.2.stamp)) ((s.core c).copies.filter (fun e => e.2.team == t))

/-- The records of a team's copy jobs hold their cursors. -/
def State.parkJobs (s : State) (c t : Nat) : State :=
  (s.jobsOf c t).foldl (fun s e =>
    (s.recPut c t e.2.recOff 24 (leBytes 4 e.2.cursor)).recPut c t e.2.recOff 31 (leBytes 1 e.2.events)) s

/-- Bytes 0x4_0140 to 0x4_47BF of a team area: the Jig, when the team holds it. -/
def Jig.image (j : Jig) (starter : Nat) : List Byte :=
  let fill := fun (n : Nat) (bs : List Byte) => (bs ++ zeros n).take n
  j.q.flatMap (fun q => fill 4096 (q.flatMap (fun v => leBytes 128 v.toNat))) ++ j.prog.flatMap (fun v => leBytes 4 v.toNat) ++
  j.g.flatMap (fun v => leBytes 4 v.toNat) ++ j.w.flatMap (fun v => leBytes 128 v.toNat) ++ zeros 32 ++
  leBytes 1 j.pc ++ leBytes 1 (if j.running then 1 else 0) ++ leBytes 2 j.len ++ leBytes 4 starter ++
  j.q.flatMap (fun q => leBytes 1 q.length) ++ zeros 52

/-- Waves of a team, its saved ones among them, that have arrived at `BAR` `b`. -/
def State.cameTo (s : State) (t b : Nat) : Nat :=
  let T := s.team t
  let saved := ((T.saved.getD {}).waves.map (fun v => v.copy)).filter (fun x =>
    !(s.teamWaves t).any (fun y => (s.wave y.1 y.2).index == x.index))
  let y := FMap.getD T.bars b {}
  (((s.teamWaves t).map (fun y => s.wave y.1 y.2) ++ saved).filter (fun x => let m := FMap.getD y.arrived x.index 0
    m != 0 && x.live &&& ~~~m == 0)).length

/-- Bytes 0x4_0000 to 0x4_47BF of the team area on a core. -/
def State.areaImage (s : State) (t c : Nat) : List Byte :=
  let T := s.team t
  let bar := fun (b : Nat) => leBytes 4 (FMap.getD T.bars b {}).gen.toNat ++ leBytes 4 (s.cameTo t b)
  let jobs := (s.jobsOf c t).map (fun e => e.2.recOff / 32) ++ [0xFFFF]
  let j := s.jig c
  (List.range 8).flatMap (fun n => (T.cq c n).image) ++ (List.range 16).flatMap bar ++
  ((jobs.flatMap (leBytes 2)) ++ zeros 64).take 64 ++
  (if j.holder = some t then j.image (s.starterIndex c) else zeros 18048)

/-- Write the team areas of members. -/
def State.putAreas (s : State) (t : Nat) : List Member → Except State State
  | [] => .ok s
  | m :: r =>
    let T := s.team t
    let s := s.parkJobs m.core t
    let va := teamAreaVa m.core m.slot
    match s.homeRead (benchKey m.core m.base) (roundUp T.bench 4096) with
    | none => .error (s.saveFails t m.core false .uncorrectable 0)
    | some bs =>
      if s.spanWaits (.core m.core) T.ctx va false bs.length || s.spanWaits (.core m.core) T.ctx (va + 0x40000) false 18368 then .error s
      else match s.vaPut (.core m.core) T.ctx va bs with
      | (s, some (e, a)) => .error (s.saveFails t m.core true e a)
      | (s, none) => match s.vaPut (.core m.core) T.ctx (va + 0x40000) (s.areaImage t m.core) with
        | (s, some (e, a)) => .error (s.saveFails t m.core true e a)
        | (s, none) => s.putAreas t r

/-- What names a wave by its slot names it by another number. -/
def State.renameWave (s : State) (c a b : Nat) : State :=
  let f := fun (w : Nat) => if w = a then b else w
  let g := fun (as : List Arrival) => as.map (fun (y : Arrival) => if y.core = c then { y with wave := f y.wave } else y)
  let s := { s with
    heldFaults := s.heldFaults.map (fun (h : HeldFault) => if h.core = c ∧ h.client ≠ 1 then { h with who := f h.who } else h)
    launches := s.launches.map (fun (e : Nat × Launch) => (e.1, { e.2 with tbar := g e.2.tbar, gbar := g e.2.gbar })) }
  s.modCore c (fun k => { k with
    copies := k.copies.map (fun (e : Nat × CopyJob) => (e.1, { e.2 with wave := f e.2.wave }))
    jig := { k.jig with starter := k.jig.starter.map f } })

/-- A saved wave leaves its slot: registers, tiles, queue entries and claims are freed (R438 step 5). Its entries of the engine queue
are those of its record, also when all its threads have ended (R157). -/
def State.leaveSlot (s : State) (c w : Nat) (v : SavedWave) : State :=
  let t := (s.wave c w).team
  let s := s.renameWave c w (savedId t v.index)
  let s := { s with imiss := s.imiss.filter (fun m => !(m.2.2.1 == c && m.2.2.2.1 == w)) }
  let s := s.modCore c (fun k => { k with eng := k.eng.filter (fun e => e.wave != w) })
  let s := s.modJig c (fun j => { j with claims := j.claims.filter (fun e => !(v.pops.map (fun p => p.2.id)).contains e.2) })
  (s.removeWave c w).modTeam t (fun T =>
    let o := T.saved.getD {}
    { T with saved := some { o with waves := o.waves ++ [v] } })

/-- Save waves of a team, and its area when `whole`. -/
def State.saveNow (s : State) (t : Nat) (ws : List (Nat × Nat)) (whole : Bool) : State :=
  match s.putRecords t ws [] with
  | .error s => s
  | .ok (s, vs) =>
    match (if whole then s.putAreas t (s.team t).members else .ok s) with
    | .error s => s
    | .ok s =>
      let s := vs.foldl (fun s e => s.leaveSlot e.1 e.2.1 e.2.2) s
      if !whole then s
      else
        let s := ((s.team t).members).foldl (fun s m => s.modCore m.core (fun k => { k with
          jig := if k.jig.holder = some t then {} else k.jig
          copies := k.copies.filter (fun e => e.2.team != t)
          copyTurn := k.copyTurn.filter (fun i => (FMap.get k.copies i).all (fun j => j.team != t)) })) s
        s.modTeam t (fun T =>
          let o := T.saved.getD {}
          { T with saving := false, saved := some { o with area := true } })

/-- Whether a team's copy jobs have landed and none is to be suspended. -/
def State.jobsQuiet (s : State) (t : Nat) : Bool :=
  ((s.team t).members).all (fun m => (s.core m.core).copies.all (fun e => e.2.team != t || (e.2.units.isEmpty && e.2.failing.isNone)))

/-- Teams and waves that are to be saved are, once they can be. -/
def State.settleSaves (s : State) : State :=
  s.teams.foldl (fun s (e : Nat × Team) => match FMap.get s.teams e.1 with
    | none => s
    | some T =>
      if T.saveHeld.isSome then s
      else
        let ws := s.teamWaves e.1
        if T.saving then
          if ws.all (fun y => s.savable y.1 y.2) && s.jobsQuiet e.1 then s.saveNow e.1 ws true else s
        else
          (ws.filter (fun y => (s.wave y.1 y.2).saving)).foldl (fun s y =>
            if (FMap.get s.teams e.1).isSome && (s.wave y.1 y.2).saving && s.savable y.1 y.2 then s.saveNow e.1 [y] false else s) s) s

/-- A team is to be saved. -/
def State.startSave (s : State) (t : Nat) : State :=
  (s.teamWaves t).foldl (fun s y => s.modWave y.1 y.2 (fun x => { x with saving := true })) (s.modTeam t (fun T => { T with saving := true }))

/-! ### What a restore checks (R441) -/

/-- Whether a prefix word is none that `FMT` leaves: 0, or a word of its own (R61, R62). -/
def prefixBad (p : Nat) : Bool := p != 0 && (p / 2 ^ 52 != 0xFFF || p % 2 ^ 10 != 0)

/-- Whether a block of trap registers holds a reserved bit or what no trap moves aside (R430, R439). -/
def trapBad (bs : List Byte) : Bool :=
  BitVec.ofNat 32 (fieldAt bs 0 4) &&& 0x1F00FF80 != 0 || fieldAt bs 12 4 != 0 || prefixBad (fieldAt bs 32 8) ||
  decide (1 < fieldAt bs 44 4) || (fieldAt bs 44 4 == 1 && fieldAt bs 32 8 == 0)

/-- A withdrawn operation from its bytes; its registers are the source slots (R440). -/
def Withdrawn.ofImage (bs : List Byte) : Withdrawn :=
  let f := fieldAt bs
  { kind := f 0 2, regs := (List.range (f 2 2)).map (fun i => f (64 + 2 * i) 2), lanes := BitVec.ofNat 32 (f 4 4)
    base := BitVec.ofNat 64 (f 8 8), ext := BitVec.ofNat 64 (f 16 8), pfx := BitVec.ofNat 64 (f 24 8)
    lx := BitVec.ofNat 32 (f 32 4), dest := f 36 4, b := BitVec.ofNat 64 (f 40 8), c := BitVec.ofNat 64 (f 48 8), jq := f 56 8 }

/-- Whether a withdrawn operation has a kind or a count out of range, an index beyond `T`, or a field that its kind leaves 0. -/
def withdrawnBad (bs : List Byte) (t : Nat) : Bool :=
  let o := Withdrawn.ofImage bs
  o.kind == 0 || decide (3 < o.kind) || decide (64 < o.regs.length) || o.regs.any (fun r => decide (t < r)) ||
  (List.range 64).any (fun i => decide (o.regs.length ≤ i) && fieldAt bs (64 + 2 * i) 2 != 0) || decide (2047 < o.dest) ||
  (o.kind != 2 && (o.pfx != 0 || o.lx != 0)) || prefixBad o.pfx.toNat || (o.kind == 3 && (o.b != 0 || o.c != 0)) ||
  (if o.kind = 3 then decide (3 < o.jq) else o.jq != 0)

/-- Where a record's values start, and its withdrawn operations (R439). -/
def valuesAt (bs : List Byte) : Nat := 0x27C0 + 20544 * fieldAt bs 2 1
def withdrawnAt (bs : List Byte) : Nat := valuesAt bs + 128 * fieldAt bs 8 4
/-- The bytes of a record's withdrawn operations. -/
def recordOps (bs : List Byte) : List (List Byte) :=
  (List.range (fieldAt bs 12 2)).map (fun i => (bs.drop (withdrawnAt bs + 192 * i)).take 192)

/-- The length of a record by its own fields, when its counts are in range and agree with it (R284, R439). -/
def recordLen (bs : List Byte) : Option Nat :=
  let f := fieldAt bs
  let n := 0x27C0 + 20544 * f 2 1 + 128 * f 8 4 + 192 * f 12 2 + 128 * f 14 2
  if f 4 4 = n ∧ n ≤ 2 ^ 19 ∧ f 8 4 ≤ 1023 ∧ f 12 2 ≤ 64 ∧ f 14 2 ≤ 1023 then some n else none

/-- A record's reserved fields and values, for a wave that was saved as `x` (R441): what the architecture can hold passes, changed or
not. -/
def recordBad (x : Wave) (bs : List Byte) : Bool :=
  let f := fieldAt bs
  let u := f 8 4
  let t := f 14 2
  let flag := fun (n : Nat) => (f 0 4).testBit n
  let held := flag 24 || flag 27 || flag 28
  let sr := BitVec.ofNat 32 (f 0x10 4)
  let rot := f 0x14 4
  let hint := f 0x30 4
  let names := (List.range 2048).map (fun n => f (0x17C0 + 2 * n) 2)
  let zero := fun (o n : Nat) => f o n == 0
  f 0 2 != 1 || f 2 1 != x.acc.length || (f 3 1) / 32 != 0 || (recordLen bs).isNone ||
  flag 24 != srH sr || flag 25 != (held && (BitVec.ofNat 32 (f 0x1640 4)).getLsbD 29) || flag 26 != (hint / 2 ^ 13 != 0) ||
  (flag 28 && x.replayHeld.isEmpty) ||
  sr &&& 0x1FFC0600 != 0 || decide (512 < rot / 2 ^ 16) || rot / 2 ^ 16 % 8 != 0 ||
  decide (max 1 (rot / 2 ^ 16) ≤ rot % 2 ^ 16) || prefixBad (f 0x18 8) || (srPP sr && f 0x18 8 == 0) ||
  decide (2 ^ 27 ≤ hint) || decide (64 < hint / 64 % 128) || (hint.testBit 5 != (hint / 64 % 128 != 0)) || decide (31 < hint / 2 ^ 13) || !zero 0x34 4 ||
  (List.range 32).any (fun l => decide (128 ≤ f (0x140 + l) 1)) || !zero 0x291 15 ||
  (List.range 4).any (fun n => decide (4 ≤ f (0x4A0 + 96 * n + 80) 1) || !zero (0x4A0 + 96 * n + 81) 15) ||
  (List.range 32).any (fun l => decide (16 < f (0x1620 + l) 1)) || !zero 0x17A0 32 ||
  (if held then trapBad (bs.drop 0x1640) else (List.range 48).any (fun i => !zero (0x1640 + i) 1) ||
    (List.range 256).any (fun i => !zero (0x16A0 + i) 1)) ||
  (if flag 25 then trapBad (bs.drop 0x1670) || (Cause.ofNum (f 0x1670 1 % 128)).isNone
   else (List.range 48).any (fun i => !zero (0x1670 + i) 1)) ||
  (recordOps bs).any (fun o => withdrawnBad o t) ||
  (List.range 2048).any (fun n => let v := nth names n 0
    if x.mapped n then decide (u < v) && v != 0xFFFE else v != 0xFFFF)

/-! ### What a restore reinstates (R441) -/

/-- Registers of a wave from its record; `x` is the wave as saved. -/
def recWave (x : Wave) (bs : List Byte) : Wave :=
  let f := fieldAt bs
  let lane := fun (g : Nat → Nat) => (List.range 32).map g
  let hint := f 0x30 4
  { x with
    sr := BitVec.ofNat 32 (f 0x10 4)
    rotSize := f 0x16 2
    rotBase := f 0x14 2
    pfx := BitVec.ofNat 64 (f 0x18 8)
    pfxMask := BitVec.ofNat 32 (f 0x20 4)
    fgen := BitVec.ofNat 32 (f 0x24 4)
    rsp := BitVec.ofNat 64 (f 0x28 8)
    prio := hint % 32
    rghint := if hint.testBit 5 then some (BitVec.ofNat 64 (f 0x38 8), hint / 64 % 128) else none
    pcs := (lane (fun l => f (0x40 + 8 * l) 8)).map (BitVec.ofNat 64)
    starve := lane (fun l => f (0x140 + l) 1 % 64)
    ended := maskOf (fun l => (f (0x140 + l) 1).testBit 6)
    rspill := lane (fun l => f (0x160 + 2 * l) 2)
    sPend := ~~~(BitVec.ofNat 128 (f 0x1A0 16))
    preg := (List.range 48).map (fun n => BitVec.ofNat 32 (f (0x1B0 + 4 * n) 4))
    mbox := (List.range 8).map (fun n => {
      val := BitVec.ofNat 32 (f (0x270 + 4 * n) 4)
      full := (f 0x290 1).testBit n
      from_ := if (f 0x290 1).testBit n then (nth x.mbox n {}).from_ else none })
    sreg := (List.range 128).map (fun n => BitVec.ofNat 32 (f (0x2A0 + 4 * n) 4))
    la := (List.range 4).map (fun n => Lac.ofImage (bs.drop (0x4A0 + 96 * n)))
    rstack := (List.range 32).map (fun l => ((List.range (f (0x1620 + l) 1)).map (fun e =>
      BitVec.ofNat 64 (f (0x620 + 128 * l + 8 * e) 8))).reverse)
    names := []
    saving := false
    racqAsked := 0 }

/-- A trap as the registers of a block describe it. -/
def TrapRegs.trap (r : TrapRegs) (t : Trap) : Trap :=
  { t with cause := (Cause.ofNum (r.trapc.toNat % 128)).getD t.cause, mask := r.trapmask, addr := r.trapaddr, pc := r.trappc,
           again := r.resm }

/-- Trap state of a wave from its record, whose flags say which it has; what a record does not hold stays as it was saved, and where
the flags bring a state about that was not saved, every live thread is in handler mode (log entry 43). -/
def recTraps (x : Wave) (bs : List Byte) : Wave :=
  let flag := fun (n : Nat) => (fieldAt bs 0 4).testBit n
  let cur := trapOfImage (bs.drop 0x1640)
  let h := trapOfImage (bs.drop 0x1670)
  let addrs := (List.range 32).map (fun l => BitVec.ofNat 64 (fieldAt bs (0x16A0 + 8 * l) 8))
  let fresh : Trap := { cause := .none, cls := if h.trapc.getLsbD 31 then clsB else if h.trapc.getLsbD 30 then clsA else clsW,
                        mask := h.trapmask, bundle := h.trapmask }
  let x := { x with
    held := if !flag 25 then [] else match x.held with
      | y :: r => { y with trap := h.trap y.trap } :: r
      | [] => [{ trap := h.trap fresh }]
    handler := if !flag 24 then 0 else if x.handler &&& x.live = 0 then x.live else x.handler
    dbg := if flag 27 then some (x.dbg.getD { cause := (Cause.ofNum (cur.trapc.toNat % 128)).getD .none }) else none
    replayHeld := if !flag 28 then [] else x.replayHeld }
  if !(flag 24 || flag 27 || flag 28) then x
  else
    let x := { x with
      asidePfx := BitVec.ofNat 64 (fieldAt bs 0x1660 8)
      asideMask := BitVec.ofNat 32 (fieldAt bs 0x1668 4)
      asidePP := fieldAt bs 0x166C 4 == 1 }
    if flag 24 || flag 27 then { x with resume := addrs, trap := { cur with stands := x.trap.stands } }
    else { x with
      pcs := addrs
      replayHeld := (match x.replayHeld with
        | e :: r => (e.1, cur.trap e.2) :: r
        | [] => []) }

/-- Values from a record's value list. -/
def recValue (bs : List Byte) (o i : Nat) : VReg := (List.range 32).map (fun l => BitVec.ofNat 32 (fieldAt bs (o + 128 * i + 4 * l) 4))

/-- Map the FULL names of a restored wave: `seen` are indices with a name that holds their value. A register that 1,023 names
map takes no more, and the value is written again (R269). -/
def State.mapNames (s : State) (c w : Nat) (bs : List Byte) (o : Nat) : List Nat → FMap Nat → Option State
  | [], _ => some s
  | n :: r, seen =>
    let v := fieldAt bs (0x17C0 + 2 * n) 2
    if v = 0 ∨ 0xFFFE ≤ v then s.mapNames c w bs o r seen
    else match (FMap.get seen v).filter (fun m =>
        let p := (s.wave c w).reg m
        p == 0 || decide (s.countOf c (sliceOf w) p < 1023)) with
      | some m => (s.modWave c w (fun x => x.setReg n (x.reg m))).mapNames c w bs o r seen
      | none => match s.writeVec c w n (recValue bs o (v - 1)) with
        | none => none
        | some s => s.mapNames c w bs o r (FMap.set seen v n)

/-- Map the PENDING names as they were: `old` gives their former registers, and the result the new ones. -/
def State.mapPending (s : State) (c w : Nat) : List (Nat × Nat) → FMap Nat → Option (State × FMap Nat)
  | [], m => some (s, m)
  | (n, p) :: r, m => match FMap.get m p with
    | some q => (s.modWave c w (fun x => x.setReg n q)).mapPending c w r m
    | none => match s.pendVec c w n with
      | none => none
      | some (q, s) => s.mapPending c w r (FMap.set m p q)

/-- A register with a transit value, which is offered to the dedup directory under the wave's context (R268, R441): it stands in no
bucket itself, since no name maps it. `none`: no register is free. -/
def State.offerHeld (s : State) (c w : Nat) (d : VReg) : Option (Nat × State) :=
  let k := sliceOf w
  let ctx := s.ctxOf (s.wave c w)
  let equal := fun (p : Nat) => let r := pregOf (s.slice c k).phys p
    r.ctx == ctx && r.data == d && !r.pending && !r.poison && decide (s.countOf c k p < 1023)
  if d = vzero then some (0, s)
  else match (FMap.getD (s.slice c k).dir ((crcReg d).toNat % 256) []).find? (fun e => equal e.2) with
    | some e => some (e.2, s.modWave c w (fun x => { x with dhit := x.dhit + 1 }))
    | none => (s.freeReg c k).map (fun q => (q, s.modSlice c k (fun x => { x with phys := FMap.set x.phys q (.written d ctx) })))

/-- A register for each former one that operations hold: PENDING for a destination, with its value for a source. -/
def State.mapHeld (s : State) (c w : Nat) (ts : List (Nat × Option VReg)) (m : FMap Nat) : Option (State × FMap Nat) :=
  let k := sliceOf w
  match ts with
  | [] => some (s, m)
  | (p, v) :: r =>
    if p = 0 ∨ (FMap.get m p).isSome then s.mapHeld c w r m
    else match v with
      | some d => match s.offerHeld c w d with
        | none => none
        | some (q, s) => s.mapHeld c w r (FMap.set m p q)
      | none => match s.freeReg c k with
        | none => none
        | some q =>
          let pend : PReg := { data := vzero, pending := true, ctx := s.ctxOf (s.wave c w) }
          (s.modSlice c k (fun x => { x with phys := FMap.set x.phys q pend })).mapHeld c w r (FMap.set m p q)

def Dest.mapRegs (d : Dest) (f : Nat → Nat) : Dest :=
  match d with
  | .vec n ps => .vec n (ps.map f)
  | d => d

/-! ### Withdrawn operations as the record has them (R440, R441) -/

/-- Numbers that stand for registers until the restored wave has them: a transit value, and a name marked PENDING that no withdrawn
operation had as its destination. -/
def slotKey (n : Nat) : Nat := if n = 0 then 0 else 2 ^ 30 + n
def nameKey (n : Nat) : Nat := 2 ^ 29 + n

/-- The saved operations with their sources by transit slot; tiles are those of the restored wave. -/
def SavedWave.slotted (v : SavedWave) (acc : List Nat) : SavedWave :=
  let ts := transitList (v.sfu.map SfuEntry.withdrawn ++ v.eng.map EngEntry.withdrawn ++
    (v.pops.filter (fun p => p.1 != 4)).map (fun p => p.2.withdrawn p.1))
  let g := fun (p : Nat) => slotKey (regIndex ts p)
  { v with
    sfu := v.sfu.map (fun e => { e with transit := e.transit.map g })
    eng := v.eng.map (fun e => { e with regs := e.regs.map g, tile := nth acc (v.copy.acc.idxOf e.tile) e.tile })
    pops := v.pops.map (fun p => if p.1 = 4 then p else (p.1, { p.2 with transit := p.2.transit.map g })) }

/-- The instructions that wait in a queue of the SFU or of the matrix engine. -/
def reissue (i : Instr) (s : State) : Option (Host.Outcome State Fault Refusal) :=
  match i with
  | .rcp o r => some (execRcp o r s)
  | .rsq o => some (execRsq o s)
  | .sqrt o r => some (execSqrt o r s)
  | .ex2 o => some (execEx2 o s)
  | .lg2 o => some (execLg2 o s)
  | .sin o => some (execSin o s)
  | .cos o => some (execCos o s)
  | .tanh o => some (execTanh o s)
  | .drcp o r => some (execDrcp o r s)
  | .dsqrt o r => some (execDsqrt o r s)
  | .idiv o t => some (execIdiv o t s)
  | .irem o t => some (execIrem o t s)
  | .mma o bf z => some (execMma o bf z s)
  | .mmas o bf q inner z => some (execMmas o bf q inner z s)
  | .mmal o bf a k => some (execMmal o bf a k s)
  | .macz o => some (execMacz o s)
  | .macw o f => some (execMacw o f s)
  | .macr o f r => some (execMacr o f r s)
  | .zflg o => some (execZflg o s)
  | .lxld o => some (execLxld o s)
  | .lxinv o => some (execLxinv o s)
  | _ => none

/-- Scalar operand values of a withdrawn operation by field: the class, the name and the value. -/
def Withdrawn.fields (o : Withdrawn) (i : Instr) (p : Opnds) : List (Cls × Nat × Nat) :=
  let lo := o.b.toNat % 2 ^ 32
  let hi := o.b.toNat / 2 ^ 32
  let two := match i with | .idiv _ _ => true | .irem _ _ => true | .lxld _ => true | _ => false
  [(p.ca, p.a.toNat, if two then hi else o.b.toNat), (p.cb, p.b.toNat, if two then lo else o.b.toNat), (p.cc, p.c.toNat, o.c.toNat)] ++
  (if o.pfx = 0 then [] else [((pfxScl o.pfx).cls, (pfxScl o.pfx).name, lo), ((pfxZp o.pfx).cls, (pfxZp o.pfx).name, hi)])

/-- A scalar operand holds a value. -/
def Wave.giveScalar (x : Wave) (pair : Bool) (e : Cls × Nat × Nat) : Wave :=
  if e.1 ≠ .sca then x
  else if e.2.1 < 128 then { (x.setScalars e.2.1 (wordsOf (if pair then 2 else 1) e.2.2)) with sPend := 0 }
  else if e.2.1 < 136 ∨ (192 ≤ e.2.1 ∧ e.2.1 < 200) then
    { x with mbox := setNth x.mbox (e.2.1 % 64) { val := BitVec.ofNat 32 e.2.2, full := true } }
  else if e.2.1 < 192 then x.setPred (e.2.1 - 144) 0xFFFFFFFF (BitVec.ofNat 32 e.2.2)
  else x

/-- Register of name `n` in the bench on which a changed operation is issued again. -/
def spareReg (n : Nat) : Nat := 2 ^ 16 + n

/-- The state in which a withdrawn operation issues again: its wave with every name a register of its own that holds `val`, its
scalars as recorded, its guard true in its lanes, and empty queues. -/
def State.benchFor (s : State) (c w : Nat) (o : Withdrawn) (i : Instr) (val : Nat → VReg) : State :=
  let p := match simtParts i with | some (_, _, _, p) => p | none => noOpnds
  let pair := match i with | .drcp _ _ => true | .dsqrt _ _ => true | _ => false
  let x := s.wave c w
  let names := List.range 2048
  let x := { x with
    names := names.map (fun n => (n, spareReg n)), waits := [], dbg := none, started := true
    pfx := o.pfx, pfxMask := o.lanes, sr := setBit32 (setBit32 x.sr 29 (o.pfx != 0)) 30 false }
  let x := (o.fields i p).foldl (fun x e => x.giveScalar pair e) x
  let x := if p.prd.toNat = 63 then x else x.setPred p.prd.toNat 0xFFFFFFFF (if p.pn then ~~~o.lanes else o.lanes)
  let lx := (s.core c).lxQueued
  let s := (s.setWave c w x).modSlice c (sliceOf w) (fun k => { k with
    phys := names.map (fun n => (spareReg n, ({ data := val n, ctx := s.ctxOf x } : PReg))), dir := [], reuse := [], sfu := [] })
  let s := s.modCore c (fun k => { k with
    ops := [], eng := [], lx := { lx with loaded := true, ctx := s.ctxOf x, version := o.lx, loading := false } })
  { s with agenda := [], snap := none, blocked := false
           cur := some { core := c, wave := w, lanes := o.lanes, pc := 0, base := o.base, len := if hasExt o.base then 16 else 8 } }

/-- A withdrawn operation of the SFU or of the engine as its record has it, issued again with the transit values `vals`: its entry,
whose sources are transit slots, and the names of its destination. The first trial finds which names its slots are. -/
def State.rework (s : State) (c w : Nat) (o : Withdrawn) (vals : Nat → VReg) : Option ((Option SfuEntry × Option EngEntry) × List Nat) :=
  let i := decodeSimt o.base o.ext
  let p := match simtParts i with | some (_, _, _, p) => p | none => noOpnds
  let run := fun (val : Nat → VReg) => match reissue i (s.benchFor c w o i val) with
    | some (.next t) => if t.blocked then none else
      (match (t.slice c (sliceOf w)).sfu, (t.core c).eng with
        | [e], [] => if o.kind = 1 then some (t, some e, (none : Option EngEntry), e.transit) else none
        | [], [e] => if o.kind = 2 then some (t, (none : Option SfuEntry), some e, e.regs) else none
        | _, _ => none)
    | _ => none
  let splat := fun (n : Nat) => match (o.fields i p).find? (fun e => e.1 == .vec && (s.wave c w).rotate e.2.1 == some n) with
    | some e => vbuild (fun _ => BitVec.ofNat 32 e.2.2)
    | none => vzero
  match ([0, 0x44444444] : List Word).findSome? (fun v => run (fun n => if splat n = vzero then vbuild (fun _ => v) else splat n)) with
  | none => none
  | some (_, _, _, rs) =>
    if (rs.take 64).length ≠ o.regs.length then none
    else match run (fun n => match (rs.take 64).idxOf? (spareReg n) with
        | some q => vals (nth o.regs q 0)
        | none => splat n) with
      | none => none
      | some (t, e, g, _) =>
        let dest : Dest := match e, g with | some e, _ => e.dest | none, some g => g.dest | none, none => .none
        let ns := dest.regs.filterMap (fun q => ((t.wave c w).names.find? (fun m => m.2 == q)).map (·.1))
        if dest.name ≠ o.dest ∨ ns.length ≠ dest.regs.length then none
        else
          let slots := (o.regs ++ List.replicate (rs.length - 64) 0).map slotKey
          let d := match dest with | .vec n _ => Dest.vec n (ns.map nameKey) | d => d
          some ((e.map (fun e => { e with transit := slots, dest := d }), g.map (fun g => { g with regs := slots, dest := d })), ns)

/-- An operation from the record has the place, the address and the bundle of the one that was saved there, and keeps the registers
of an unchanged destination. -/
def Dest.keep (d old : Dest) : Dest :=
  if d.name = old.name ∧ d.regs.length = old.regs.length then (match d, old with
    | .vec _ _, .vec _ _ => old
    | .sca _ _, .sca _ _ => old
    | .pred _, .pred _ => old
    | _, _ => d) else d
def SfuEntry.keep (e : SfuEntry) (old : Option SfuEntry) : SfuEntry :=
  match old with
  | none => e
  | some y => { e with id := y.id, lanes := y.lanes, pc := y.pc, clk := y.clk, bundle := y.bundle, hold := y.hold, dest := e.dest.keep y.dest }
def EngEntry.keep (e : EngEntry) (old : Option EngEntry) : EngEntry :=
  match old with
  | none => e
  | some y => { e with id := y.id, pc := y.pc, clk := y.clk, bundle := y.bundle, hold := y.hold, dest := e.dest.keep y.dest }

/-- Every result of a list, or none. -/
def allSome {α : Type} : List (Option α) → Option (List α)
  | [] => some []
  | none :: _ => none
  | some a :: r => (allSome r).map (fun l => a :: l)

/-- A `JPOP` claim as its record has it (R319, R440): the word of a `JPOP` of that queue, its lanes, and the prior value of a partial
bundle's destination. -/
def State.claimAgain (s : State) (w : Nat) (o : Withdrawn) (old : Option (Nat × Op)) (vals : Nat → VReg) : Option (Nat × Op) :=
  match decodeSimt o.base o.ext with
  | .jpop p =>
    if dclsOf p .vec ≠ .vec ∨ immOf p (fieldA p) ≠ o.jq ∨ o.lanes = 0 ∨ o.regs.length ≠ (if o.lanes = 0xFFFFFFFF then 0 else 1) then none
    else
      let y := ((old.map (·.2)).getD { id := s.fresh, wave := w, kind := .jpop, bundle := o.lanes, base := o.base, ext := o.ext })
      some (o.jq, { y with
        base := o.base, ext := o.ext, active := o.lanes, transit := o.regs.map slotKey, prior := o.regs.map vals
        dest := (Dest.vec o.dest [nameKey o.dest]).keep y.dest })
  | _ => none

/-- The operations of a record: those saved when its bytes are, else each as it stands there; `none` when no instruction of its kind
makes it. -/
def State.recordWork (s : State) (c w : Nat) (v : SavedWave) (bs : List Byte) (vals : Nat → VReg) : Option SavedWave :=
  let old := v.slotted (s.wave c w).acc
  if bs.drop (withdrawnAt bs) = v.tail then some old
  else
    let os := (recordOps bs).map Withdrawn.ofImage
    let of := fun (k : Nat) => os.filter (fun o => o.kind == k)
    let works := fun (k : Nat) => allSome ((of k).map (fun o => s.rework c w o vals))
    let claims := old.pops.filter (fun p => p.1 != 4)
    let pops := allSome ((List.range (of 3).length).map (fun n => ((of 3)[n]?).bind (fun o => s.claimAgain w o (claims[n]?) vals)))
    if 4 < (of 1).length ∨ 8 < (of 2).length then none else
    match works 1, works 2, pops with
    | some ss, some es, some ps =>
      let ss := ss.filterMap (fun r => r.1.1)
      let es := es.filterMap (fun r => r.1.2)
      some { old with
        sfu := (List.range ss.length).filterMap (fun n => (ss[n]?).map (fun e => e.keep (old.sfu[n]?)))
        eng := (List.range es.length).filterMap (fun n => (es[n]?).map (fun e => e.keep (old.eng[n]?)))
        pops := ps ++ old.pops.filter (fun p => p.1 == 4) }
    | _, _, _ => none

/-- The destinations of a wave's withdrawn operations. -/
def SavedWave.dests (v : SavedWave) : List Nat :=
  v.sfu.flatMap (fun e => e.dest.regs) ++ v.eng.flatMap (fun e => e.dest.regs) ++ v.pops.flatMap (fun e => e.2.dest.regs)

/-- What names of a wave held before a result that they share, for the wave in its new slot. -/
def movedOwns (a b : Nat) (l : List (Nat × Nat × VReg)) : List (Nat × Nat × VReg) :=
  (l.filter (fun o => o.1 == a)).map (fun o => (b, o.2))

/-- Re-enter the withdrawn operations of a wave (R125, R157, R319), also past the engine queue's 8 places, the SFU queue's 16 and the
wave's 4 of them (log entry 67). Each is a new one: an SFU entry that was saved may still complete for a wave that shares its
result. The threads of an `MMAL` whose LX is another go back to it, with no prefix but one that is pending now (log entry 84), and its
later operations re-enter all the same, unless the trap kills the team, which discards them. -/
def State.reenter (s : State) (c w : Nat) (v : SavedWave) (f : Nat → Nat) : State :=
  let x := s.wave c w
  let k := sliceOf w
  let s := v.sfu.foldl (fun s e =>
    let (id, s) := s.newId
    let s := s.modWave c w (fun y => { y with sDrop := y.sDrop.map (fun d => if d.1 = e.id then (id, d.2) else d) })
    s.modSlice c k (fun y => { y with sfu := y.sfu ++ [{ e with
      id := id, wave := w, dest := e.dest.mapRegs f, transit := e.transit.map f, sharers := [], owns := movedOwns e.wave w e.owns }] })) s
  let s := v.eng.foldl (fun s e =>
    let (id, s) := s.newId
    let s := s.modWave c w (fun y => { y with sDrop := y.sDrop.map (fun d => if d.1 = e.id then (id, d.2) else d) })
    let e := { e with id := id, wave := w, dest := e.dest.mapRegs f, regs := e.regs.map f, sharers := [], owns := movedOwns e.wave w e.owns }
    let lx := (s.core c).lxQueued
    if (s.wave? c w).isNone then s
    else if e.kind = .mmal ∧ (lx.version ≠ e.lxVersion ∨ lx.ctx ≠ s.ctxOf x ∨ lx.loaded = false) then
      s.lateTrap c w { cause := .lxNotLoaded, cls := clsW, mask := e.bundle, pc := e.pc, clk := e.clk, bundle := e.bundle, again := e.bundle }
    else s.modCore c (fun q => { q with eng := q.eng ++ [e] })) s
  if (s.wave? c w).isNone then s else
  v.pops.foldl (fun s e =>
    let (id, s) := if e.1 = 4 then (e.2.id, s) else s.newId
    let o := { e.2 with id := id, wave := w, dest := e.2.dest.mapRegs f, transit := e.2.transit.map f,
                        lanes := e.2.lanes.map (fun a => if e.1 = 4 then { a with key := f a.key } else a) }
    let s := s.modCore c (fun q => { q with ops := q.ops ++ [o] })
    if e.1 = 4 then s else s.modJig c (fun j => { j with claims := j.claims ++ [(e.1, o.id)] })) s

/-! ### When a team can be restored (R333, R339) -/

/-- Admit waves of charges on a slice (R270). -/
def admitCharges (sum free : Nat) : List Nat → Option (List Bool)
  | [] => some []
  | q :: r =>
    if sum + q ≤ 1023 then (admitCharges (sum + q) free r).map (fun l => false :: l)
    else if q + 64 ≤ free then (admitCharges sum free r).map (fun l => true :: l)
    else none

/-- Whether the saved waves of a team fit on one of its cores, with its Jig. -/
def State.takesSaved (s : State) (t : Nat) (v : Saved) (i : Nat) (m : Member) : Bool :=
  let T := s.team t
  let ws := v.waves.filter (fun y => y.member == i)
  let h := (s.launch T.launch).hdr
  let a := s.asides m.core
  !s.keptFrom (s.launch T.launch).prio m.core && (s.inService m.core || (s.core m.core).service == .draining) && (List.range 4).all (fun k =>
    let mine := ws.filter (fun y => y.index % max T.perCore 1 % 4 == k)
    decide (mine.length + a.waves k ≤ (s.freeWaveSlots m.core k).length) &&
    (admitCharges (s.reservedSum m.core k + a.charge k) (s.freeRegs m.core k) (mine.map (fun y => y.copy.charge))).isSome) &&
  decide ((ws.map (fun y => y.copy.acc.length)).foldl (· + ·) 0 + a.tiles ≤ (s.freeTiles m.core).length) &&
  (!v.area || h.jigp == 0 || T.recruit || ((s.core m.core).jig.holder.isNone && !a.jig))

def State.canRestore (s : State) (t : Nat) : Bool :=
  let T := s.team t
  match T.saved with
  | none => false
  | some v => !T.saving && T.saveHeld.isNone && (List.range T.members.length).all (fun i =>
      (T.members[i]?).all (fun m => s.takesSaved t v i m))

/-! ### Restoring (R438, R441) -/

/-- A record that fails a check kills the team (R441). -/
def State.badRecord (s : State) (t c : Nat) (va : DWord) : State :=
  let r : FaultRec := { va := va, ctx := (s.team t).ctx, client := 0, cause := .reservedField, core := c, who := s.slotOn c t * 256, anon := 1 }
  (s.postFault r false).1.killTeam t .reservedField

/-- Why a restore stops: a check or a read has failed, with what that does to the team; the wave that it reinstated has gone with its
team; slice `k` of core `c` has no register (R272); or it waits (R453, R474). -/
inductive RestoreStop where
  | failed (f : State → State)
  | gone (s : State)
  | noReg (c k : Nat)
  | waits

/-- Time in which a core's time-out did not run, since the wave whose operands it takes was saved (R392). -/
def State.pauseArrivals (s : State) (l c w since : Nat) : State :=
  let g := fun (as : List Arrival) (came : FMap Nat) => as.map (fun (y : Arrival) => if y.core = c ∧ y.wave = w then
      { y with paused := y.paused + (s.time - max since (FMap.getD came c s.time)) } else y)
  s.modLaunch l (fun x => { x with tbar := g x.tbar x.tcame, gbar := g x.gbar x.gcame })

/-- The bytes of a wave record: as many as its own length says. -/
def State.readRecord (s : State) (c ctx : Nat) (va : DWord) : State × Except (Cause × DWord) (List Byte) :=
  match s.vaGet c ctx va 16 1 with
  | (s, .error e) => (s, .error e)
  | (s, .ok head) => s.vaGet c ctx va ((recordLen head).getD 16) 16

/-- Restore one wave: its record is checked whole before anything is reinstated. -/
def State.restoreWave (s : State) (t : Nat) (boxes : List (Nat × Nat × Scope)) (v : SavedWave) : Except RestoreStop State :=
  let T := s.team t
  match T.members[v.member]? with
  | none => .error (.failed (fun s => s.badRecord t 0 0))
  | some m =>
    let c := m.core
    let va := T.recVa v.member v.index
    match s.readRecord c T.ctx va with
    | (_, .error (e, a)) => .error (.failed (fun s => s.saveFails t c false e a))
    | (s, .ok bs) =>
      let k := v.index % max T.perCore 1 % 4
      if recordBad v.copy bs then .error (.failed (fun s => s.badRecord t c va))
      else match (s.freeWaveSlots c k).head? with
        | none => .ok s
        | some w =>
          let n := v.copy.acc.length
          let tiles := (s.freeTiles c).take n
          let x := recTraps (recWave v.copy bs) bs
          let x := { x with
            replayHeld := x.replayHeld.filter (fun e => s.heldFaults.any (fun h => h.fid == e.1))
            acc := tiles
            borrowing := decide (1023 < s.reservedSum c k + x.charge)
            mbox := (List.range 8).map (fun b => match boxes.find? (fun (y : Nat × Nat × Scope) => y.1 == v.index && y.2.1 == b) with
              | some y => { (nth x.mbox b {}) with from_ := some y.2.2 }
              | none => nth x.mbox b {}) }
          let (stamp, s) := s.newId
          let s := s.modCore c (fun q => (List.range n).foldl (fun q i => q.changeTile (nth tiles i 0) (fun _ =>
            { elems := tileOfImage (bs.drop (0x27C0 + 20544 * i)), owner := some w })) q)
          let s := s.setWave c w { x with admitted := stamp, lastIssue := stamp }
          let vo := withdrawnAt bs + 192 * fieldAt bs 12 2
          let vals := fun (i : Nat) => if i = 0 then vzero else recValue bs vo (i - 1)
          match s.recordWork c w v bs vals with
          | none => .error (.failed (fun s => s.badRecord t c va))
          | some y =>
            let marked := (List.range 2048).filter (fun n => v.copy.mapped n && fieldAt bs (0x17C0 + 2 * n) 2 == 0xFFFE)
            let key := fun (n : Nat) => if y.dests.contains (v.copy.reg n) then v.copy.reg n else nameKey n
            if marked.any (fun n => !y.dests.contains (key n)) then .error (.failed (fun s => s.badRecord t c va))
            else match s.mapNames c w bs (valuesAt bs) (List.range 2048) [] with
            | none => .error (.noReg c k)
            | some s => match s.mapPending c w (marked.map (fun n => (n, key n))) [] with
              | none => .error (.noReg c k)
              | some (s, mm) => match s.mapHeld c w (y.dests.map (fun p => (p, none)) ++
                  (List.range (fieldAt bs 14 2)).map (fun i => (slotKey (i + 1), some (vals (i + 1))))) mm with
                | none => .error (.noReg c k)
                | some (s, mm) =>
                  let s := s.reenter c w y (fun p => if p = 0 then 0 else FMap.getD mm p p)
                  let s := (s.renameWave c (savedId t v.index) w).modWave c w Wave.splitBundles
                  let s := s.pauseArrivals T.launch c w v.since
                  let x := s.wave c w
                  let s := x.rejected.foldl (fun s tr => s.deliver c w tr) (s.modWave c w (fun y => { y with rejected := [] }))
                  let s := if v.freed then s.resumeWave c w else s
                  if (s.wave? c w).isSome then .ok (s.settleBoxes c w) else .error (.gone s)

/-- The Jig from a team area; `none` when the area holds what no Jig can. -/
def jigOfImage (bs : List Byte) (t : Nat) (starter : Nat → Option Nat) : Option Jig :=
  let f := fieldAt bs
  let o := 18048 - 64
  let n := fun (q : Nat) => f (o + 8 + q) 1
  if decide (1 < f (o + 1) 1) || f (o + 2) 2 == 0 || decide (256 < f (o + 2) 2) || f (o + 5) 3 != 0 || f (o + 12) 52 != 0 || f (o - 32) 32 != 0 ||
    (List.range 4).any (fun q => decide (32 < n q)) || (f (o + 4) 1 != 0xFF && (starter (f (o + 4) 1)).isNone) then none
  else some {
    prog := (List.range 256).map (fun i => BitVec.ofNat 32 (f (16384 + 4 * i) 4))
    len := f (o + 2) 2
    pc := f o 1
    g := (List.range 8).map (fun i => BitVec.ofNat 32 (f (17408 + 4 * i) 4))
    w := (List.range 4).map (fun i => BitVec.ofNat 1024 (f (17440 + 128 * i) 128))
    q := (List.range 4).map (fun q => (List.range (n q)).map (fun i => BitVec.ofNat 1024 (f (4096 * q + 128 * i) 128)))
    running := f (o + 1) 1 == 1
    starter := starter (f (o + 4) 1)
    holder := some t }

/-- Start the parked jobs of a team again, at record offsets in their order; `none` for a record that no job has. -/
def State.restartJobs (s : State) (c t : Nat) : List Nat → Option State
  | [] => some s
  | r :: rest =>
    let y := s.recGet c t (32 * r)
    if (s.recOffset t (32 * r)).isSome || y.status != 1 || (s.recordFault t y false).isSome then none
    else match (s.core c).freeJob with
      | some i => (s.queueJob c t (s.team t).ctx (32 * r) i y).restartJobs c t rest
      | none =>
        let (id, s) := s.newId
        let s := s.queueJob c t (s.team t).ctx (32 * r) (16 + id) y
        (s.modCore c (fun k => { k with copyTurn := k.copyTurn.filter (fun i => decide (i < 16)) })).restartJobs c t rest

/-- Restore the team area of one member. An error is what a failed check or read does to the team. The waves arrived at a `BAR` are the restored ones
that wait at it: another count is none that the architecture can hold (log entry 40). -/
def State.restoreArea (s : State) (t : Nat) (m : Member) : Except (State → State) State :=
  let T := s.team t
  let va := teamAreaVa m.core m.slot
  match s.vaGet m.core T.ctx va (roundUp T.bench 4096) 16 with
  | (_, .error (e, a)) => .error (fun s => s.saveFails t m.core false e a)
  | (s, .ok bench) => match s.vaGet m.core T.ctx (va + 0x40000) 18368 16 with
    | (_, .error (e, a)) => .error (fun s => s.saveFails t m.core false e a)
    | (s, .ok bs) =>
      let f := fieldAt bs
      let cq := fun (n : Nat) => ({ head := f (16 * n) 4, tail := f (16 * n + 4) 4, count := f (16 * n + 8) 4 } : Cq)
      let cqBad := (List.range 8).any (fun n => f (16 * n + 12) 4 != 0 ||
        (if n < T.cqn then decide (T.cqd ≤ (cq n).head) || decide (T.cqd ≤ (cq n).tail) || decide (T.cqd < (cq n).count)
         else cq n != {}))
      let jobs := ((List.range 32).map (fun i => f (256 + 2 * i) 2)).takeWhile (· != 0xFFFF)
      let starter := fun (n : Nat) => match (s.core m.core).waves.find? (fun (e : Nat × Wave) => e.2.team == t && e.2.index == n) with
        | some e => some e.1
        | none => if (T.saved.getD {}).waves.any (fun y => y.index == n && (T.members[y.member]?).any (fun q => q.core == m.core)) then
            some (savedId t n) else none
      let needs := (s.launch T.launch).hdr.jigp != 0 && !T.recruit
      let jig := if needs then jigOfImage (bs.drop 320) t starter else some {}
      let barBad := T.members.head? = some m ∧ ((List.range 16).any (fun b => f (128 + 8 * b + 4) 4 != s.cameTo t b)) = true
      if cqBad || decide barBad || decide (16 < jobs.length) || jig.isNone then .error (fun s => s.badRecord t m.core va)
      else
        let k := benchKey m.core m.base
        let s := ({ s with mem := Memory.writeBytes s.mem k bench }).killLoads m.core false
          ((List.range (ceilDiv bench.length 128)).map (fun i => k + 128 * i))
        let s := s.modTeam t (fun T => { T with
          cqs := (List.range T.cqn).foldl (fun q n => FMap.set q (8 * m.core + n) (cq n)) T.cqs
          bars := if T.members.head? = some m then
              (List.range 16).foldl (fun b n => FMap.mod b n {} (fun y => { y with gen := BitVec.ofNat 32 (f (128 + 8 * n) 4) })) T.bars
            else T.bars })
        let claims := (s.jig m.core).claims
        let s := if needs then s.modJig m.core (fun _ => { jig.getD {} with claims := claims }) else s
        match s.restartJobs m.core t jobs with
        | none => .error (fun s => s.badRecord t m.core va)
        | some s => .ok s

def State.restoreWaves (s : State) (t : Nat) (boxes : List (Nat × Nat × Scope)) : List SavedWave → Except RestoreStop State
  | [] => .ok s
  | v :: r => match s.restoreWave t boxes v with
    | .error e => .error e
    | .ok s => s.restoreWaves t boxes r

def State.restoreAreas (s : State) (t : Nat) : List Member → Except (State → State) State
  | [] => .ok s
  | m :: r => match s.restoreArea t m with
    | .error f => .error f
    | .ok s => s.restoreAreas t r

/-- How many bytes of a record a restore reads: its own length, or its first bytes when they are of no record. -/
def State.recordSpan (s : State) (c ctx : Nat) (va : DWord) : Nat :=
  match (s.vaGet c ctx va 16 1).2 with
  | .ok head => (recordLen head).getD 16
  | .error _ => 16

/-- Whether a restore waits for the host link, or for a channel that retrains (R453, R474). -/
def State.restoreWaits (s : State) (t : Nat) (v : Saved) : Bool :=
  let T := s.team t
  v.waves.any (fun y => (T.members[y.member]?).any (fun m =>
    let va := T.recVa y.member y.index
    s.spanWaits (.core m.core) T.ctx va true 16 || s.spanWaits (.core m.core) T.ctx va true (s.recordSpan m.core T.ctx va))) ||
  (v.area && T.members.any (fun m => s.spanWaits (.core m.core) T.ctx (teamAreaVa m.core m.slot) true 0x44800))

/-- What the first failing check or read of a restore does, every record being checked, and the areas with them, before anything is
reinstated (R441); `none` when none fails. -/
def State.restoreFault (s : State) (t : Nat) (v : Saved) : Option (State → State) :=
  let T := s.team t
  let seen := fun (y : SavedWave) => match (T.members[y.member]?).map (fun m => (s.readRecord m.core T.ctx (T.recVa y.member y.index)).2) with
    | some (.ok bs) => { y with copy := recWave y.copy bs }
    | _ => y
  match v.waves.findSome? (fun y => match s.restoreWave t v.boxes y with | .error (.failed f) => some f | _ => none) with
  | some f => some f
  | none =>
    if !v.area then none
    else match (s.modTeam t (fun T => { T with saved := some { v with waves := v.waves.map seen } })).restoreAreas t T.members with
      | .error f => some f
      | .ok _ => none

/-- Restore what is saved of a team, its waves in their order, after the checks. -/
def State.restoring (s : State) (t : Nat) : Except RestoreStop State :=
  match (s.team t).saved with
  | none => .ok s
  | some v =>
    if s.restoreWaits t v then .error .waits
    else match s.restoreFault t v with
    | some f => .error (.failed f)
    | none => match s.restoreWaves t v.boxes v.waves with
      | .error e => .error e
      | .ok s => match (if v.area then s.restoreAreas t (s.team t).members else .ok s) with
        | .error f => .error (.failed f)
        | .ok s => .ok (s.modTeam t (fun T => { T with saved := none }))

/-- What a restore leaves that stops. A slice without a free register saves its youngest borrowing wave first, and the restore begins
anew when that has left (R272, R284). -/
def State.stopRestore (s : State) : RestoreStop → State
  | .failed f => f s
  | .gone s => s
  | .noReg c k => s.spillWave c k
  | .waits => s

/-- Restore what is saved of a team. -/
def State.restoreTeam (s : State) (t : Nat) : State :=
  match s.restoring t with
  | .ok s => s
  | .error e => s.stopRestore e

end Sys2Proof.Machine
end

