-- ==== Sys2Proof/Machine/Dispatcher.lean ====
section
/-! DEFINITION. The dispatcher (R334, R336-R339, R387): placing the teams of pending launches, preemption, restoring, and
teams launched from stage queues (R350). -/
namespace Sys2Proof.Machine

/-! ### Placing -/

/-- The lowest barrier channel that no phased launch holds (R387). -/
def State.freeChannel (s : State) : Option Nat :=
  (List.range 4).find? (fun k => s.launches.all (fun (e : Nat × Launch) => e.2.channel != some k))

/-- Remove a launch from its list once no team of it waits to be placed. -/
def State.delist (s : State) (l : Nat) : State :=
  if s.left l = 0 then
    { s with pending := s.pending.map (fun (p : Nat × List Nat) => (p.1, p.2.filter (fun x => x != l))) }
  else s

/-- One placement of a launch; a phased launch takes a channel first. `none`: nothing can be placed. -/
def State.placeOne (s : State) (l : Nat) : Option State :=
  if s.programWaits l then none
  else if (s.launch l).phased && (s.launch l).channel.isNone then
    match s.freeChannel with
    | none => none
    | some k => ((s.modLaunch l (fun x => { x with channel := some k })).placeSome l).map (fun t => t.delist l)
  else (s.placeSome l).map (fun t => t.delist l)

/-! ### Preemption (R338) -/

/-- What saving a team would leave: its waves, tiles and Jig are free, its slot and Bench are not. -/
def State.withoutTeam (s : State) (t : Nat) : State :=
  let s := (s.teamWaves t).foldl (fun s y => s.removeWave y.1 y.2) s
  ((s.team t).members).foldl (fun s m => s.modCore m.core (fun k => if k.jig.holder = some t then { k with jig := {} } else k)) s

/-- Teams that are saved with a team: those of its phased launch (R337). -/
def State.savedWith (s : State) (t : Nat) : List Nat :=
  if (s.launch (s.team t).launch).phased then
    (s.teams.filter (fun (e : Nat × Team) => e.2.launch == (s.team t).launch && !e.2.isSaved)).map (·.1)
  else [t]

/-- Resident teams of priority number above `p` on cores, the youngest first; one with a wave that is saved for register space is
resident (R272). -/
def State.victims (s : State) (p : Nat) (cs : List Nat) : List Nat :=
  ((s.teams.filter (fun (e : Nat × Team) => !e.2.isSaved && !e.2.saving && decide (p < (s.launch e.2.launch).prio) &&
    e.2.members.any (fun m => cs.contains m.core))).map (·.1)).reverse

/-- Sublists of a length, those with earlier members first. -/
def sublistsOf : List Nat → Nat → List (List Nat)
  | _, 0 => [[]]
  | [], _ + 1 => []
  | a :: r, n + 1 => (sublistsOf r n).map (fun l => a :: l) ++ sublistsOf r (n + 1)

/-- Whether a header fits on cores, or on the members that keep its Bench (R341). -/
def State.fitsAt (s : State) (l : Nat) (cs : List Nat) : Bool :=
  let L := s.launch l
  match L.retained with
  | r :: _ => (s.handedOn L.asks r.2).isSome
  | [] => (s.fitsAll L.asks cs).isSome

/-- Team numbers with the youngest first, and whether one set of teams is younger than another. -/
def youngestFirst (l : List Nat) : List Nat := sortBy (fun a b => decide (b ≤ a)) l
def younger : List Nat → List Nat → Bool
  | a :: r, b :: t => decide (b < a) || (a == b && younger r t)
  | _, _ => false

/-- The fewest teams, those saved along with them among them, whose saving lets the next team of a launch fit at one
position, the youngest among equals; with the position's cores (R337, R338). -/
def State.chooseVictims (s : State) (l : Nat) : Option (List Nat × List Nat) :=
  let L := s.launch l
  let spots : List (List Nat) := match L.retained with
    | r :: _ => [clusterCores L.hdr.shape (match r.2 with | m :: _ => m.core | [] => 0)]
    | [] => (s.scan L.hdr.shape).map (clusterCores L.hdr.shape)
  (List.range 256).findSome? (fun n =>
    let sets := spots.flatMap (fun cs => (List.range (n + 1)).flatMap (fun k => (sublistsOf (s.victims L.prio cs) (k + 1)).filterMap (fun vs =>
      let all := youngestFirst (vs.flatMap s.savedWith).eraseDups
      if all.length = n + 1 ∧ (all.foldl State.withoutTeam s).fitsAt l cs = true then some (all, cs) else none)))
    sets.foldl (fun (m : Option (List Nat × List Nat)) v => match m with
      | none => some v
      | some b => if younger v.1 b.1 then some v else m) none)

/-- Teams to save for all teams of a phased launch, at most `fuel`. -/
def State.victimsFor (s : State) (l : Nat) : Nat → List Nat → List Nat → Option (List Nat × List Nat)
  | 0, vs, cs => some (vs, cs)
  | fuel + 1, vs, cs =>
    if s.left l = 0 then some (vs, cs)
    else match s.placeTeam l with
      | some t => t.victimsFor l fuel vs cs
      | none => match s.chooseVictims l with
        | none => none
        | some ws => match (ws.1.foldl State.withoutTeam s).placeTeam l with
          | some t => t.victimsFor l fuel (vs ++ ws.1) (cs ++ ws.2)
          | none => none

/-- Whether teams are being saved at the position of a launch. -/
def State.savingFor (s : State) (l : Nat) : Bool :=
  s.teams.any (fun (e : Nat × Team) => e.2.saving && e.2.saveHeld.isNone && e.2.members.any (fun m => (s.launch l).spot.contains m.core))

/-- Save the teams that keep a launch's next team from fitting, unless it fits without; `none`: no saving would help, or it
is being made. -/
def State.preempt (s : State) (l : Nat) : Option State :=
  let L := s.launch l
  if (L.phased && L.channel.isNone && s.freeChannel.isNone) || s.savingFor l || s.programWaits l ||
      (!L.phased && L.retained.isEmpty && (s.findPlace L.asks).isSome) then none
  else
    match (if L.phased then s.victimsFor l (max L.teams 1) [] [] else s.chooseVictims l) with
    | none => none
    | some ([], _) => none
    | some (vs, cs) => some ((vs.foldl State.startSave s).modLaunch l (fun x => { x with retryAt := 0, spot := cs }))

/-! ### Restoring (R339) -/

/-- Restore teams one after the other, or none of them: one that fits nowhere answers `none`, and when one waits or a slice lacks a
register for it the others wait with it. A team that a check or its own trap kills does not keep the others. -/
def State.restoreEach (s0 s : State) : List Nat → Option State
  | [] => some s
  | t :: r =>
    if !s.canRestore t then none
    else match s.restoring t with
      | .ok u => s0.restoreEach u r
      | .error (.failed f) => s0.restoreEach (f s) r
      | .error (.gone u) => s0.restoreEach u r
      | .error e => some (s0.stopRestore e)

/-- Restore a team, with the saved teams of its phased launch (R337); `none` when they do not all fit. -/
def State.restoreGroup (s : State) (t : Nat) : Option State :=
  let T := s.team t
  if (s.launch T.launch).checkpoint then none
  else s.restoreEach s (if T.isSaved && (s.launch T.launch).phased then
      (s.teams.filter (fun (e : Nat × Team) => e.2.launch == T.launch && e.2.isSaved)).map (·.1)
    else [t])

def execTeamRestore (team : Nat) (s : State) : Host.Outcome State Fault Refusal := .next ((s.restoreGroup team).getD s)

/-! ### Turns of the dispatcher (R334) -/

/-- What the dispatcher does for a priority: saved teams first, then the launch at the head of the list, then preemption
for it. `none`: nothing. A saved team that does not fit holds no pending launch back, which the model chooses (R339; log entry
106). -/
def State.dispatchAt (s : State) (p : Nat) : Option State :=
  let back := (s.teams.filter (fun (e : Nat × Team) => e.2.saved.isSome && (s.launch e.2.launch).prio == p)).map (·.1)
  match back.findSome? s.restoreGroup with
  | some t => some t
  | none => match FMap.getD s.pending p [] with
    | [] => none
    | l :: _ =>
      if s.left l = 0 then some (s.delist l)
      else match s.placeOne l with
        | some t => some t
        | none => match s.preempt l with
          | some t => some t
          | none => if (s.launch l).spot.isEmpty || s.savingFor l then none else some (s.modLaunch l (fun x => { x with spot := [] }))

/-- A turn of the dispatcher. While teams are being saved for a launch, its list waits, and the others go on beside the
position that it is to have (log entry 41). -/
def execTeamPlacement (s : State) : Host.Outcome State Fault Refusal := .next (((List.range 32).findSome? s.dispatchAt).getD s)

/-- A cluster team's back-off passes: its launch, at the head of its list, tries again (R336). -/
def execClusterRetry (launch : Nat) (s : State) : Host.Outcome State Fault Refusal :=
  .next (
    let L := s.launch launch
    if (FMap.getD s.pending L.prio []).head? = some launch ∧ L.retryAt ≤ s.clocks ∧ L.grants.isEmpty = true then
      (s.placeOne launch).getD s
    else s)

/-- Grants that have waited 2,000 clocks for a commit are cancelled (R336). -/
def execReservationExpiry (launch : Nat) (s : State) : Host.Outcome State Fault Refusal :=
  .next (
    let L := s.launch launch
    if !L.grants.isEmpty && decide (L.grantedAt + 2000 ≤ s.clocks) then s.cancelGrants launch else s)

/-! ### Auto-launch (R350) -/

/-- The launch that binds a queue. -/
def State.binder (s : State) (q : Nat) : Option (Nat × Launch) := s.launches.find? (fun (e : Nat × Launch) => e.2.entryQ == some q)

/-- A launch bound to a queue waits in its list while the queue lets it start a team (R334, R350). -/
def State.settleAuto (s : State) : State :=
  s.launches.foldl (fun s (e : Nat × Launch) =>
    if e.2.entryQ.isNone then s
    else
      let q := FMap.getD s.pending e.2.prio []
      if s.left e.1 = 0 then (if q.contains e.1 then s.delist e.1 else s)
      else if q.contains e.1 then s else s.enlist e.1 e.2.prio false) s

/-- A queue's launch takes its turn: lists of lower priority numbers, and launches ahead of it, are served first (R334,
R350). -/
def execAutoLaunch (q : Nat) (s : State) : Host.Outcome State Fault Refusal :=
  let s := s.settleAuto
  .next (match s.binder q with
    | some (l, L) => if s.left l = 0 then s else ((List.range (L.prio + 1)).findSome? s.dispatchAt).getD s
    | none => s)

end Sys2Proof.Machine
end

