-- ==== Sys2Proof/Machine/Device.lean ====
section
/-! DEFINITION. Events of the device outside its programs: bring-up (R469), power (R475, R476), the links (R24, R25, R422,
R453), soft errors (R451, R452), parking and recalibration of cores (R472), channels (R474) and firmware (R471). -/
namespace Sys2Proof.Machine

/-! ### Command responses (R417) -/

/-- Answer a command: status 0 `OK`, 1 `BUSY`, 2 `BADARG`, 3 `REFUSED`, the tag and data from byte 8. -/
def State.respond (s : State) (tag : Word) (status : Nat) (data : List Byte) : State :=
  ({ s with resp := (leBytes 4 status ++ leBytes 4 tag.toNat ++ data ++ zeros 56).take 64 }).msi 0
def State.okay (s : State) (tag : Word) : State := s.respond tag 0 []
def State.badArg (s : State) (tag : Word) : State := s.respond tag 2 []
def State.refuse (s : State) (tag : Word) : State := s.respond tag 3 []

/-- An `INVALIDATE` ends when no core is left to acknowledge it (R413). -/
def State.invalidated (s : State) : State :=
  match s.task with
  | some (.invalidate _ _ _ tag []) => ({ s with task := none }).okay tag
  | _ => s

/-! ### `CAPCORES` (R22) -/

def State.coresIn (s : State) (f : CoreState → Bool) : Nat := ((List.range Config.cores).filter (fun c => f (s.core c).service)).length

/-- `CAPCORES` after a change of core states; `GEN` advances by `step`. -/
def State.recount (s : State) (step : Nat) : State :=
  let gen := (s.capCores.toNat / 2 ^ 48 + step) % 2 ^ 16
  { s with capCores := BitVec.ofNat 64 (gen * 2 ^ 48 + s.coresIn (· == .parked) * 2 ^ 27 + s.coresIn (· == .failed) * 2 ^ 18 +
      s.coresIn (fun x => x == .inService || x == .draining) * 2 ^ 9 + 256) }

/-! ### Bring-up (R469) -/

/-- The image of a slot, 0 for A. -/
def State.slotImage (s : State) (k : Nat) : List Byte := if k = 0 then s.fwA else s.fwB

/-- Whether the management processor runs an image (R428): magic, version, key, signature, security version, body. -/
def imageValid (im : List Byte) : Bool :=
  let body := fieldAt im 12 4
  decide (im.take 4 = [0x4C, 0x55, 0x46, 0x57]) && fieldAt im 4 4 == 1 && Config.keyTrusted (Config.sha384 ((im.drop 64).take 96)) &&
  Config.signatureOk ((im.drop 64).take 96) ((im.drop 160).take 96) (Config.sha384 (im.take 160)) &&
  decide (Config.minVersion.toNat ≤ fieldAt im 8 4) && body % 16 == 0 && decide (body ≤ 2 ^ 24) &&
  decide (512 + body ≤ im.length) && (Config.sha384 ((im.drop 512).take body) == digestOf ((im.drop 16).take 48))

/-- Steps 4 to 6: channels, cores and links. `GEN` of `CAPCORES` stays 0: its boot write counts as no change (R22; log entry 92). -/
def State.bringUp (s : State) : State :=
  let chans : BitVec 16 := BitVec.ofNat 16 ((List.range 16).foldl (fun m k => if Config.channelTrains k then m + 2 ^ k else m) 0)
  let s := { s with
    bootStep := 6
    channels := chans
    badChannels := ~~~chans
    capMem := BitVec.ofNat 64 (96 * 2 ^ 40 + chans.toNat * 2 ^ 24 + Config.usableMiB)
    cores := (List.range Config.cores).map (fun c => (c, { s.core c with service := if Config.coreTests c then .inService else .failed }))
    hostUp := true
    capLink := (BitVec.zeroExtend 64 Config.hostWidth <<< 44) ||| (BitVec.zeroExtend 64 Config.hostGen <<< 40)
    ports := (List.range 2).map Config.portTrains }
  s.recount 0

/-- The state of a reset of a machine that has run: the flash, memory outside Bench and the model's own fields stay. -/
def State.restarted (s : State) : State :=
  let s := s.l2.foldl (fun s e => s.l2Clean e.1) { s with task := none }
  { State.reset with
    mem := s.mem.filter (fun e => !isBench e.1), tags := s.tags, fwA := s.fwA, fwB := s.fwB, active := s.active,
    agenda := s.agenda, turns := s.turns, fresh := s.fresh, freeCount := s.freeCount }

/-- Bring-up from the fuses to link training; when both images fail R428 the recovery code runs, `bootStep` 2. -/
def execReset (s : State) : Host.Outcome State Fault Refusal :=
  .next (
    let s := { (if s.booted then s.restarted else s) with booted := true }
    let other := 1 - s.active % 2
    if imageValid (s.slotImage s.active) then ({ s with running := s.active }).bringUp
    else if imageValid (s.slotImage other) then ({ s with running := other }).bringUp
    else { s with bootStep := 2, hostUp := true })

/-! ### Clock and power (R475, R476) -/

/-- Regions are numbered by their 4x4 position. -/
def execSupplyDroop (region : Nat) (s : State) : Host.Outcome State Fault Refusal :=
  .next (if region < 16 ∧ s.droop.contains region = false then { s with droop := region :: s.droop } else s)
def execSupplyRecovery (region : Nat) (s : State) : Host.Outcome State Fault Refusal :=
  .next { s with droop := s.droop.filter (fun r => r != region) }

def execPowerMeasurement (watts : Nat) (s : State) : Host.Outcome State Fault Refusal :=
  .next { s with
    watts := watts
    mhz := if s.powerLimit < watts then max Config.lowestMHz (s.mhz - 25)
      else if 100 * watts < 95 * s.powerLimit then min Config.nominalMHz (s.mhz + 25) else s.mhz }

/-! ### Links (R24, R25, R422, R453) -/

/-- The host link goes down (R453). `HWIDTH` and `HGEN` keep the values of the last training (R24; log entry 92). -/
def execHostLinkDown (s : State) : Host.Outcome State Fault Refusal :=
  .next (if s.hostUp then { s with hostUp := false, hostDownSince := s.time } else s)

/-- The lines that waited for the host link go home before anything else crosses it, and so before the host sees what a
SYSTEM-scope release ordered after them (R262, R453). -/
def State.flushHost (s : State) : State :=
  s.cores.foldl (fun s (e : Nat × Core) =>
    (((s.core e.1).l1.filter (fun x => x.dirty != 0 && isHost x.addr)).map (·.addr)).foldl (fun s l => s.writeBack e.1 l) s) s

def execHostLinkUp (width gen : Nat) (s : State) : Host.Outcome State Fault Refusal :=
  .next (if s.booted && (s.bootStep == 6 || s.bootStep == 2) then
    (({ s with hostUp := true, capLink := BitVec.ofNat 64 (width % 16 * 2 ^ 44 + gen % 16 * 2 ^ 40) }).flushHost).msi 3
  else s)

/-- An access toward host memory that has waited 100 ms for the link fails (R453). -/
def execHostAccessTimeout (c op : Nat) (s : State) : Host.Outcome State Fault Refusal :=
  .next (match (s.core c).ops.find? (fun o => o.id == op) with
    | none => s
    | some o =>
      if !s.hostLate then s
      else
        let (s, o) := (o.left.filter (fun a => isHost a.key)).foldl (fun (p : State × Op) a =>
          let (s, r) := p.1.performLane c p.2 a
          (s, p.2.note a r)) (s, o)
        s.modOp c op (fun _ => o))

def execPairingPortDown (p : Nat) (s : State) : Host.Outcome State Fault Refusal :=
  .next (if nth s.ports p false then
    let s := { s with ports := setNth s.ports p false }
    (if s.ports.any id then s else s.handoffsDown).msi 3
  else s)

/-- Our pairing entries, as the partner board learns them. -/
def State.pairEntries (s : State) : List (Nat × Nat) :=
  s.ctxs.filterMap (fun (e : Nat × Ctx) => e.2.pair.map (fun p => (e.1, p)))

def execPairingPortUp (p : Nat) (s : State) : Host.Outcome State Fault Refusal :=
  .next (if p < 2 ∧ nth s.ports p false = false ∧ s.bootStep = 6 then
    ({ s with ports := setNth s.ports p true, outbox := s.outbox ++ [OutMsg.pairing s.pairEntries] }).msi 3
  else s)

/-- The partner board's pairing entries change: each is its context and the context of ours that it names. -/
def execPartnerPairingChange (entries : List (Nat × Nat)) (s : State) : Host.Outcome State Fault Refusal :=
  .next { s with partnerPairs := entries }

/-- Reply to the partner, with an informational record of a fault of this side (R422). -/
def State.partnerReply (s : State) (data : List Byte) : State := { s with outbox := s.outbox ++ [OutMsg.reply data .none] }
/-- Reply to a read: local lines in their stored form with their tags, other bytes as they are (R236). -/
def State.partnerData (s : State) (ctx : Nat) (va : DWord) (bs : List Byte) : State :=
  match s.place .device ctx va .read with
  | (s, .ok p) => if isLocal p.key then { s with outbox := s.outbox ++ [OutMsg.lines ((linesOf p.key bs.length).map s.linkLine)] }
    else s.partnerReply bs
  | (s, .error _) => s.partnerReply bs
def State.partnerFault (s : State) (ctx access : Nat) (va : DWord) (e : Cause) : State :=
  let s := (s.postFault { va := va, ctx := ctx, client := 5, anon := 3, access := access, cause := e } false).1
  { s with outbox := s.outbox ++ [OutMsg.reply [] e] }

/-- An atomic of the partner at its home. -/
def State.partnerAtomic (s : State) (ctx : Nat) (va : DWord) (n : Nat) (f : List Byte → List Byte) : State :=
  match s.place .device ctx va .atomic with
  | (s, .error (_, e)) => s.partnerFault ctx 2 va e
  | (s, .ok p) => if isHost p.key && !s.hostUp then s.partnerFault ctx 2 va .linkDown
    else match s.homeRead p.key n with
    | none => s.partnerFault ctx 2 va .uncorrectable
    | some old => (((s.homeWrite p.key (f old)).1).l2Use p.key n p.cpol).partnerReply old

/-- Where a request of the partner reads and writes: the address, whether it reads, and how many bytes. -/
def partnerSpan : PartnerReq → DWord × Bool × Nat
  | .read va n => (va, true, n)
  | .write va data => (va, false, data.length)
  | .atomic va w64 _ _ _ => (va, true, if w64 then 8 else 4)
  | .cas128 va _ _ => (va, true, 16)

/-- A request of the partner's context `ctx` for our context `target`: accepted when that exists and is paired with the
sender (R422), and translated here (R421). It waits where its access does (R453, R474). -/
def State.partnerServe (s : State) (ctx target : Nat) (req : PartnerReq) : State :=
  if !s.accepts ctx target then { s with outbox := s.outbox ++ [OutMsg.reply [] .protection] }
  else if s.vaWaits .device target (partnerSpan req).1 (partnerSpan req).2.1 (partnerSpan req).2.2 then
    { s with outside := s.outside ++ [.partner ctx target req] }
  else match req with
    | .read va n => match s.vaRead .device target va n with
      | (s, .error e) => s.partnerFault target 0 va e
      | (s, .ok bs) => s.partnerData target va bs
    | .write va data => match s.vaWrite .device target va data with
      | (s, some e) => s.partnerFault target 1 va e
      | (s, none) => s.partnerReply []
    | .atomic va w64 op v cmp =>
      let n := if w64 then 8 else 4
      let two := op.toNat == 15
      s.partnerAtomic target va n (fun old => leBytes n (atomicNew op.toNat (8 * n) (leWord old)
        ((if two then cmp else v).toNat % 2 ^ (8 * n)) (v.toNat % 2 ^ (8 * n))))
    | .cas128 va cmp new => s.partnerAtomic target va 16 (fun old => if leWord old = cmp.toNat then leBytes 16 new.toNat else old)

def execPartnerRequest (ctx target : Nat) (req : PartnerReq) (s : State) : Host.Outcome State Fault Refusal :=
  .next (if !s.ports.any id then s else s.partnerServe ctx target req)

/-! ### Parking (R452, R472) -/

/-- Teams that hold a slot of a core. -/
def State.teamsAt (s : State) (c : Nat) : List Nat :=
  (s.teams.filter (fun (e : Nat × Team) => e.2.members.any (fun m => m.core == c))).map (·.1)

/-- Partner walks of a core end at their origin with NODE_FAULT kind 0. -/
def State.endGuests (s : State) (c : Nat) : State :=
  ((s.core c).sp.walks.filter (fun (e : Nat × Walk) => e.2.remote.isSome)).foldl (fun s e => s.walkFault c e.1 0 0) s

/-- A core without teams is parked, and its recalibration starts. Lines whose write-back waits for the host link are kept until
then (R453). -/
def State.parkCore (s : State) (c : Nat) : State :=
  let s := (s.endGuests c).flushDirty c
  let s := s.modCore c (fun k => { k with
    l1 := k.l1.filter (fun x => x.dirty != 0), tlb := [], sp := { k.sp with nodes := [], progs := [], descs := [] }, reserved := [], service := .parked, recal := true })
  let s := { s with launches := s.launches.map (fun (e : Nat × Launch) => (e.1, { e.2 with
    grants := e.2.grants.filter (fun d => d != c) })) }
  s.recount 1

/-- Kill every team of a core; `record`: with a fault record. -/
def State.killCore (s : State) (c : Nat) (e : Cause) (record : Bool) : State :=
  (s.teamsAt c).foldl (fun s t =>
    let r : FaultRec := { ctx := (s.team t).ctx, client := 0, cause := e, core := c, who := s.slotOn c t * 256, anon := 1 }
    (if record then (s.postFault r false).1 else s).killTeam t e) s

/-- A draining core whose last team has ended parks, and its command completes (R472). -/
def State.settlePark (s : State) : State :=
  match s.task with
  | some (.park c tag) => if (s.teamsAt c).isEmpty then (({ s with task := none }).parkCore c).okay tag else s
  | _ => s

/-- MACHINE_CHECK kills the teams of a core and parks it (R452). -/
def State.machineCheck (s : State) (c : Nat) : State :=
  let s := s.killCore c .machineCheck true
  let s := match s.task with
    | some (.park d tag) => if d = c then ({ s with task := none }).okay tag else s
    | some (.invalidate ctx va n tag left) => ({ s with task := some (.invalidate ctx va n tag (left.filter (fun d => d != c))) }).invalidated
    | _ => s
  s.parkCore c

/-- A parked core's recalibration ends (R472). -/
def execRecalibrationDone (c : Nat) (ok : Bool) (s : State) : Host.Outcome State Fault Refusal :=
  .next (
    if !(s.core c).recal then s
    else
      let s := s.modCore c (fun k => { k with recal := false })
      let s := if ok then s else (s.modCore c (fun k => { k with service := .failed })).recount 1
      match s.task with
      | some (.giveBack d tag) =>
        if d ≠ c then s
        else if ok then (((({ s with task := none }).modCore c (fun k => { k with service := .inService })).recount 1).okay tag)
        else ({ s with task := none }).refuse tag
      | _ => s)

/-! ### Soft errors (R451) -/

/-- Single-bit errors are corrected and counted. -/
def execSingleBitError (_site : ErrSite) (s : State) : Host.Outcome State Fault Refusal :=
  .next { s with singleBit := s.singleBit + 1 }

def State.countDouble (s : State) : State := { s with doubleBit := s.doubleBit + 1 }

/-- A line becomes POISON. -/
def State.poisonLine (s : State) (l : Nat) : State :=
  { s with tags := FMap.set s.tags (lineOf l) tagPoison, l2 := s.l2.filter (fun e => e.1 != lineOf l) }

/-- A double-bit error, by where it lies. -/
def execDoubleBitError (site : ErrSite) (s : State) : Host.Outcome State Fault Refusal :=
  .next (match site with
    | .line a => if isLocal a && decide (a < Config.usableBytes) then (s.poisonLine a).countDouble else s
    | .l1 c a => match (s.core c).line? (lineOf a) with
      | none => s
      | some y =>
        let s := (s.modCore c (fun k => { k with l1 := k.l1.filter (fun z => z.addr != y.addr) })).killLoads c true [y.addr]
        if y.dirty = 0 ∨ s.homeLost y.addr then s else (s.poisonLine y.addr).countDouble
    | .copies c =>
      let s := s.modCore c (fun k => { k with tlb := [], sp := { k.sp with nodes := [], progs := [], descs := [] } })
      { s with icache := FMap.erase s.icache (groupOf c), gtlb := FMap.erase s.gtlb (groupOf c) }
    | .bench c w =>
      if 65536 ≤ w then s
      else (s.modCore c (fun k => { k with benchPoison := (benchKey c (4 * w)) / 4 :: k.benchPoison })).countDouble
    | .vreg c k p =>
      if p = 0 ∨ (FMap.get (s.slice c k).phys p).isNone then s
      else (s.modSlice c k (fun y => { y with phys := FMap.mod y.phys p { data := vzero } (fun r => { r with poison := true }) })).countDouble
    | .tile c t e =>
      if 256 ≤ e ∨ 16 ≤ t then s
      else (s.modTile c t (fun y => { y with poison := if y.poison.contains e then y.poison else e :: y.poison })).countDouble
    | .la c w n =>
      if (s.wave? c w).isNone ∨ 4 ≤ n then s
      else (s.modWave c w (fun x => { x with laPoison := x.laPoison ||| BitVec.ofNat 4 (2 ^ n) })).countDouble
    | .walk c k => if (s.walk? c k).isSome then s.walkFault c k 0 0 else s
    | .control c => if (s.core c).service == .inService || (s.core c).service == .draining then s.machineCheck c else s)

/-! ### Channels and firmware (R471, R474) -/

/-- A channel's retraining ends: it serves again, or its lines become POISON. -/
def execRetrainDone (ok : Bool) (s : State) : Host.Outcome State Fault Refusal :=
  .next (match s.task with
    | some (.retrain k tag) =>
      let s := { s with task := none }
      let b : BitVec 16 := BitVec.ofNat 16 (2 ^ k)
      let s := if ok then s else { s with
        channels := s.channels &&& ~~~b, badChannels := s.badChannels ||| b
        capMem := s.capMem &&& ~~~(BitVec.zeroExtend 64 b <<< 24) }
      s.okay tag
    | _ => s)

/-- The management processor's restart ends on the new slot, or on the old one when the new image does not start. -/
def execFwRestart (s : State) : Host.Outcome State Fault Refusal :=
  .next (match s.task with
    | some (.restart tag) =>
      let other := 1 - s.running
      let s := { s with task := none, capLinkHeld := none }
      if Config.imageStarts (s.slotImage other) then ({ s with running := other, active := other }).okay tag else s.refuse tag
    | _ => s)

end Sys2Proof.Machine
end

