-- ==== Sys2Proof/Machine/Host.lean ====
section
/-! DEFINITION. The host interface: BAR4 (R416), ingress windows (R418, R419), host command queues (R345), the management
commands (R407, R413, R417, R424-R429), the service commands (R470-R476) and answers to held faults (R414). -/
namespace Sys2Proof.Machine

/-! ### BAR4 and BAR0 (R416, R417) -/

/-- The 8-byte register of BAR0 at a multiple of 8: those of access W, and offsets not listed, read 0. -/
def State.bar0Reg (s : State) (off : Nat) : Nat :=
  if off = 0x108 then s.fhead
  else if off = 0x110 then s.ftail
  else if off = 0x118 then s.lost.toNat
  else if 0x18000 ≤ off ∧ off < 0x18200 then (match FMap.get s.ctxs ((off - 0x18000) / 8) with | some x => x.head | none => 0)
  else if 0x20000 ≤ off ∧ off < 0x20200 then (nth s.ierr ((off - 0x20000) / 8) 0).toNat
  else 0

/-- The byte that a host read of BAR0 returns. -/
def State.bar0Byte (s : State) (off : Nat) : Byte :=
  if off < 0x40 then nth s.cmd off 0
  else if 0x80 ≤ off ∧ off < 0xC0 then nth s.resp (off - 0x80) 0
  else nth (leBytes 8 (s.bar0Reg (off / 8 * 8))) (off % 8) 0

/-- The answer to a read: BAR2 reads zeros, BAR4 reads lines at their homes. -/
def State.barRead (s : State) (bar off n : Nat) : HostAnswer :=
  if bar = 0 then .data ((List.range n).map (fun i => s.bar0Byte (off + i)))
  else if bar = 2 then .data (zeros n)
  else if bar = 4 ∧ off + n ≤ 2 ^ 37 then (match s.homeRead off n with | some bs => .data bs | none => .aborted)
  else .unsupported

/-- A write reaches lines at their homes; a read and an AtomicOp are answered. Nothing crosses a host link that is down. -/
def execHostMemoryAccess (access : HostAccess) (addr : Nat) (data : List Byte) (s : State) : Host.Outcome State Fault Refusal :=
  .next (
    if !(s.booted && s.hostUp) then s
    else match access with
      | .write => if addr + data.length ≤ 2 ^ 37 then (s.homeWrite addr data).1 else s
      | .read bar n =>
        if bar = 4 && s.missWait addr n then { s with outside := s.outside ++ [.read bar addr n] }
        else { s with hostGot := some (s.barRead bar addr n) }
      | .atomic _ => { s with hostGot := some .unsupported })

/-- A request from outside that waited is tried again. -/
def State.outsideAgain (s : State) : OutsideReq → State
  | .partner ctx target req => s.partnerServe ctx target req
  | .read bar off n =>
    if s.missWait off n then { s with outside := s.outside ++ [.read bar off n] }
    else { s with hostGot := some (s.barRead bar off n) }

/-- Whether a turn is to serve what has waited for a channel in its place among the reads (R474). -/
def State.inLine (s : State) (a : Act) : Bool := s.missQ.contains a || s.agenda.any (fun t => t.act == a)

/-- Requests from outside that waited are served, in their order (R453, R474). -/
def State.settleOutside (s : State) : State :=
  if s.outside.isEmpty || s.inLine .outside then s
  else s.outside.foldl State.outsideAgain { s with outside := [] }

/-- The request from outside that has waited longest is served; the others keep their order. -/
def State.serveOutside (s : State) : State :=
  match s.outside with
  | [] => s
  | q :: r => let t := ({ s with outside := [] }).outsideAgain q; { t with outside := t.outside ++ r }

/-- `CMD` takes bytes of the write; the other registers without behaviour ignore it. -/
def execRegisterWrite (off : Nat) (data : List Byte) (s : State) : Host.Outcome State Fault Refusal :=
  .next { s with cmd := (List.range 64).map (fun i => if off ≤ i ∧ i < off + data.length then nth data (i - off) 0 else nth s.cmd i 0) }

/-- The host's read index; its indices wrap modulo the record count (log entry 11). -/
def execFhead (v : DWord) (s : State) : Host.Outcome State Fault Refusal :=
  .next { s with fhead := if s.faultCount = 0 then v.toNat else v.toNat % s.faultCount }

/-! ### Ingress windows (R418, R419) -/

/-- A discarded write or commit. -/
def State.ingressErr (s : State) (w : Nat) : State := { s with ierr := setNth s.ierr w (nth s.ierr w 0 + 1) }

/-- The window's entry size, when it is mapped. -/
def State.windowSize (s : State) (w : Nat) : Option Nat :=
  (FMap.get s.ingress w).bind (fun g => g.queue.map (fun q => (s.sq q).entsz))

/-- A commit takes a copy of the slot into the FIFO. -/
def State.commitSlot (s : State) (w slot : Nat) : State :=
  match FMap.get s.ingress w, s.windowSize w with
  | some g, some n =>
    if 16 ≤ slot ∨ 16 ≤ g.commits.length then s.ingressErr w
    else { s with ingress := FMap.set s.ingress w { g with commits := g.commits ++ [(nth g.staging slot []).take n] } }
  | _, _ => s.ingressErr w

def execIngressCommit (w slot : Nat) (s : State) : Host.Outcome State Fault Refusal :=
  .next (if w < 64 then s.commitSlot w slot else s)

/-- A write into the staging slots; one that reaches commit words commits their slots. -/
def execIngressWrite (w off : Nat) (data : List Byte) (s : State) : Host.Outcome State Fault Refusal :=
  .next (
    if 64 ≤ w then s
    else match FMap.get s.ingress w, s.windowSize w with
      | some g, some n =>
        if 0xFF000 ≤ off ∧ off + data.length ≤ 0xFF080 ∧ !data.isEmpty = true then
          (List.range ((off + data.length + 7) / 8 - off / 8)).foldl (fun s i => s.commitSlot w (off / 8 + i - 0xFF000 / 8)) s
        else if (List.range data.length).all (fun i => decide (off + i < 4096) && decide ((off + i) % 256 < n)) then
          { s with ingress := FMap.set s.ingress w { g with staging := (List.range 16).map (fun k =>
              (List.range 256).map (fun b =>
                let a := 256 * k + b
                if off ≤ a ∧ a < off + data.length then nth data (a - off) 0 else nth (nth g.staging k []) b 0)) } }
        else s.ingressErr w
      | _, _ => s.ingressErr w)

/-- The oldest committed copy is pushed under the queue's policy; a fault discards it with an alarm of kind 2 (R419). -/
def execIngressEntryPush (w : Nat) (s : State) : Host.Outcome State Fault Refusal :=
  .next (match FMap.get s.ingress w with
    | none => s
    | some g => match g.queue, g.commits with
      | some q, e :: r =>
        if s.entryWaits q then s
        else
          let s := { s with ingress := FMap.set s.ingress w { g with commits := r } }
          (match s.sqApply q e with
            | .done s => s
            | .full => s.discard q 1
            | .fault s _ _ => s.discard q 2)
      | _, _ => s)

/-! ### Host command queues (R345) -/

/-- The tail index of a context's queue. -/
def execDoorbell (ctx tail : Nat) (s : State) : Host.Outcome State Fault Refusal :=
  .next (match FMap.get s.ctxs ctx with
    | some x => { s with ctxs := FMap.set s.ctxs ctx { x with tail := tail % 256 } }
    | none => s)

/-- The next command of a queue, and the state with the head past it. Commands wait while the management processor
restarts (R471). -/
def State.nextCommand (s : State) (ctx : Nat) : Option (List Byte × State) :=
  match FMap.get s.ctxs ctx with
  | none => none
  | some x =>
    if x.head = x.tail ∨ s.restarting = true ∨ s.missWait (x.ring.toNat + 32 * x.head) 32 = true then none
    else (s.homeRead (x.ring.toNat + 32 * x.head) 32).map (fun bs =>
      (bs, { s with ctxs := FMap.set s.ctxs ctx { x with head := (x.head + 1) % 256 } }))

/-- Where a command's completion is reported. -/
def commandOrigin (ctx : Nat) (bs : List Byte) : Origin :=
  .host ctx (BitVec.ofNat 64 (fieldAt bs 16 8)) (BitVec.ofNat 64 (fieldAt bs 24 8))

def execHostNop (ctx : Nat) (s : State) : Host.Outcome State Fault Refusal :=
  .next (match s.nextCommand ctx with
    | some (bs, t) => if fieldAt bs 0 1 = 0 then t else s
    | none => s)

def execHostLaunch (ctx : Nat) (s : State) : Host.Outcome State Fault Refusal :=
  .next (match s.nextCommand ctx with
    | some (bs, t) => if fieldAt bs 0 1 = 1 then t.takeUp ctx (BitVec.ofNat 64 (fieldAt bs 8 8)) (commandOrigin ctx bs) none [] 0 else s
    | none => s)

def execHostCommandInvalid (ctx : Nat) (s : State) : Host.Outcome State Fault Refusal :=
  .next (match s.nextCommand ctx with
    | some (bs, t) => if 2 ≤ fieldAt bs 0 1 then t.complete (commandOrigin ctx bs) 4 0 0 0 else s
    | none => s)

/-- The next command of a queue, whichever it is. -/
def State.hostCommand (ctx : Nat) (s : State) : Host.Outcome State Fault Refusal :=
  match s.nextCommand ctx with
  | some (bs, _) => if fieldAt bs 0 1 = 0 then execHostNop ctx s else if fieldAt bs 0 1 = 1 then execHostLaunch ctx s
    else execHostCommandInvalid ctx s
  | none => .next s

/-! ### Running a command (R417, R469) -/

/-- A submission: `BUSY` before bring-up has ended or while a command runs, `REFUSED` by the recovery code unless it
accepts the command. With the host link down none arrives. -/
def State.command (s : State) (tag : Word) (recovery : Bool) (f : State → State) : Host.Outcome State Fault Refusal :=
  .next (
    if !s.booted then s.respond tag 1 []
    else if !s.hostUp then s
    else if s.bootStep = 2 ∧ recovery = false then s.refuse tag
    else if s.task.isSome then s.respond tag 1 []
    else f s)

def execCmdUnknownOpcode (tag _opcode : Word) (s : State) : Host.Outcome State Fault Refusal := s.command tag false (fun s => s.badArg tag)

/-- Whether a context exists (R407). -/
def State.hasCtx (s : State) (ctx : Nat) : Bool := decide (ctx < 64) && (FMap.get s.ctxs ctx).isSome

/-! ### Contexts (R407, R413, R422) -/

def execCtxSet (tag : Word) (ctx root : Nat) (replay : Bool) (ring : DWord) (s : State) : Host.Outcome State Fault Refusal :=
  s.command tag false (fun s =>
    if 64 ≤ ctx then s.badArg tag
    else if s.hasCtx ctx then s.refuse tag
    else if root % 65536 ≠ 0 ∨ Config.usableBytes < root + 65536 then s.badArg tag
    else ({ s with ctxs := FMap.set s.ctxs ctx { root := BitVec.ofNat 64 root, replay := replay, ring := ring } }).okay tag)

/-- A region record of the measurement log and of reports (R427). -/
def regionRecord (r : Sealed) (event : Nat) : List Byte :=
  leBytes 1 r.ctx ++ leBytes 1 event ++ leBytes 2 0 ++ leBytes 4 r.pages ++ leBytes 8 r.base.toNat ++ digestBytes r.root

def State.logEvent (s : State) (r : Sealed) (event : Nat) : State :=
  { s with measure := Config.sha384 (digestBytes s.measure ++ regionRecord r event) }

/-- A region's root, marks and poison go, and the log is extended (R426). -/
def State.unsealRegion (s : State) (k : Nat) (r : Sealed) : State :=
  ({ s with
    sealed := FMap.erase s.sealed k
    verified := s.verified.filter (fun m => m.2.1 != k)
    badPages := s.badPages.filter (fun m => m.1 != k) }).logEvent r 2

/-- A launch without resident teams ends: `KILLED` when a team of it was killed, else `CANCELLED`; a bound queue is
unbound (R407 step 2). -/
def State.dropLaunch (s : State) (l : Nat) : State :=
  let L := s.launch l
  let s := (s.cancelGrants l).modLaunch l (fun x => { x with cancelled := x.killed == 0 })
  let s := match L.entryQ with
    | some q => { s with queues := FMap.mod s.queues q {} (fun y => { y with bound := none, running := 0 }) }
    | none => s
  s.endLaunch l

/-- Drop the translations of a context that a predicate on page and size selects, in the device's and the groups' TLBs. -/
def State.dropShared (s : State) (f : Tlb → Bool) : State :=
  { s with
    tlb := s.tlb.filter (fun t => !f t)
    gtlb := s.gtlb.map (fun (e : Nat × List Tlb) => (e.1, e.2.filter (fun t => !f t))) }
def State.dropCoreTlb (s : State) (c : Nat) (f : Tlb → Bool) : State := s.modCore c (fun k => { k with tlb := k.tlb.filter (fun t => !f t) })

/-- Tell the partner board of a change of our pairing entries. -/
def State.tellPairing (s : State) : State :=
  if s.ports.any id then { s with outbox := s.outbox ++ [OutMsg.pairing s.pairEntries] } else s

def State.clearCtx (s : State) (ctx : Nat) : State :=
  let s := ((s.teams.filter (fun (e : Nat × Team) => e.2.ctx == ctx)).map (·.1)).foldl (fun s t => s.killTeam t .none) s
  let s := ((s.launches.filter (fun (e : Nat × Launch) => e.2.hdr.ctx == ctx)).map (·.1)).foldl State.dropLaunch s
  let s := (s.sealed.filter (fun (e : Nat × Sealed) => e.2.ctx == ctx)).foldl (fun s (e : Nat × Sealed) => s.unsealRegion e.1 e.2) s
  let paired := (FMap.get s.ctxs ctx).any (fun x => x.pair.isSome)
  let s := { s with
    ctxs := FMap.erase s.ctxs ctx
    armed := FMap.erase s.armed ctx
    bkpts := s.bkpts.filter (fun (e : Nat × Bkpt) => e.2.ctx != ctx)
    watches := s.watches.filter (fun (e : Nat × Watch) => e.2.ctx != ctx) }
  let s := if paired then s.tellPairing else s
  (List.range Config.cores).foldl (fun s c => s.dropCoreTlb c (fun t => t.ctx == ctx)) (s.dropShared (fun t => t.ctx == ctx))

def execCtxClear (tag : Word) (ctx : Nat) (s : State) : Host.Outcome State Fault Refusal :=
  s.command tag false (fun s => if s.hasCtx ctx then (s.clearCtx ctx).okay tag else s.badArg tag)

/-- Whether a translation lies in the range of an `INVALIDATE`. -/
def Tlb.inRange (t : Tlb) (ctx va pages : Nat) : Bool :=
  t.ctx == ctx && (pages == 0 || (decide (t.page * 2 ^ t.size < va / 65536 * 65536 + 65536 * pages) &&
    decide (va / 65536 * 65536 < (t.page + 1) * 2 ^ t.size)))

def execInvalidate (tag : Word) (ctx : Nat) (va : DWord) (pages : Nat) (s : State) : Host.Outcome State Fault Refusal :=
  s.command tag false (fun s =>
    if !s.hasCtx ctx then s.badArg tag
    else
      let cs := (List.range Config.cores).filter (fun c => (s.core c).service == .inService || (s.core c).service == .draining)
      ({ (s.dropShared (fun t => t.inRange ctx va.toNat pages)) with task := some (.invalidate ctx va.toNat pages tag cs) }).invalidated)

/-- Whether the accesses of a context that a core translated with an entry of a range, of any page size, have been performed
(R413 item 2), and no dirty line waits for its home (item 3). -/
def State.drained (s : State) (c ctx va pages : Nat) : Bool :=
  let inside := fun (a : LaneAcc) =>
    ({ ctx := ctx, page := a.va.toNat / 2 ^ a.page, size := a.page, leaf := 0 } : Tlb).inRange ctx va pages
  !s.homesPending c &&
  (s.core c).ops.all (fun o => (s.opOwner c o).2 != ctx || o.left.all (fun a => isBench a.key || !inside a)) &&
  (s.core c).copies.all (fun (e : Nat × CopyJob) => e.2.ctx != ctx || e.2.units.isEmpty)

/-- A core acknowledges (R413): its TLB entries and load-reuse entries go, its L1 is written back and invalidated, the
Spindle's copies are discarded and a node read of which a part has come is begun anew, and the lowest core of a group empties the group's instruction cache. -/
def State.acknowledge (s : State) (c ctx va pages : Nat) : State :=
  let s := (s.dropCoreTlb c (fun t => t.inRange ctx va pages)).modCore c (fun k => { k with
    slices := k.slices.map (fun (e : Nat × Slice) => (e.1, { e.2 with reuse := e.2.reuse.filter (fun r => r.load.all (fun l => !l.global)) }))
    ops := k.ops.map (fun o => if o.bench then o else { o with key := none }) })
  let s := (s.flushDirty c).invalidateClean c
  let s := s.modCore c (fun k => { k with sp := { k.sp with
    nodes := [], progs := [], descs := [], walks := k.sp.walks.map (fun e => (e.1, { e.2 with got := [], half := [] })) } })
  if c % 2 = 0 ∧ c / 16 % 2 = 0 then { s with icache := FMap.erase s.icache (groupOf c) } else s

def execCoreInvalidateAck (c : Nat) (s : State) : Host.Outcome State Fault Refusal :=
  .next (match s.task with
    | some (.invalidate ctx va n tag left) =>
      if left.contains c && s.drained c ctx va n then
        ({ (s.acknowledge c ctx va n) with task := some (.invalidate ctx va n tag (left.filter (fun d => d != c))) }).invalidated
      else s
    | _ => s)

def execPairSet (tag : Word) (ctx : Nat) (partner : Option Nat) (s : State) : Host.Outcome State Fault Refusal :=
  s.command tag false (fun s =>
    if !s.hasCtx ctx ∨ (partner.any (fun p => decide (64 ≤ p))) = true then s.badArg tag
    else (({ s with ctxs := FMap.mod s.ctxs ctx {} (fun x => { x with pair := partner }) }).tellPairing).okay tag)

/-! ### Stage queues and windows (R347, R418) -/

/-- A queue from its descriptor. -/
def StageQ.ofBytes (bs : List Byte) : StageQ :=
  { base := BitVec.ofNat 64 (fieldAt bs 0 8), entsz := fieldAt bs 8 2, cap := fieldAt bs 12 4, rsv := fieldAt bs 16 4,
    policy := fieldAt bs 20 1, alarm := if (fieldAt bs 21 1).testBit 7 then some (fieldAt bs 21 1 % 64) else none, ctx := fieldAt bs 22 1 }

def isPow2 (n : Nat) : Bool := n == 2 ^ Nat.log2 n

/-- The ranges of R347; its reserved bytes and the reserved bit of `ALARM` are ignored (R4). -/
def descOk (bs : List Byte) : Bool :=
  let y := StageQ.ofBytes bs
  bs.length == 64 && y.base.toNat % 256 == 0 && y.entsz % 16 == 0 && decide (16 ≤ y.entsz) && decide (y.entsz ≤ 256) && isPow2 y.cap &&
  decide (2 ≤ y.cap) && decide (y.cap ≤ 65536) && decide (y.rsv < y.cap) && decide (y.policy ≤ 2)

/-- Whether every alarm queue has room for its sources' alarms. -/
def alarmsFit (qs : FMap StageQ) : Bool :=
  qs.all (fun (e : Nat × StageQ) => match e.2.alarm with
    | none => true
    | some a => match FMap.get qs a with
      | none => false
      | some y => decide (16 ≤ y.entsz) && decide ((qs.filter (fun (f : Nat × StageQ) => f.2.alarm == some a)).length ≤ y.rsv))

/-- Bundles that wait in `SQPUSH` or `SQPOP` at a queue execute their instruction again. -/
def State.retryWaiters (s : State) (q : Nat) : State :=
  s.cores.foldl (fun s (e : Nat × Core) =>
    (s.waitsOn e.1 (fun _ k => match k with | .sqpush a _ => a == q | .sqpop a _ _ => a == q | _ => false)).foldl (fun s v =>
      s.abandon e.1 v.1 v.2) s) s

/-- A queue is configured (R347). It starts empty and its drop counter at 0, which the model chooses (log entry 107). -/
def execSqConfig (tag : Word) (q : Nat) (desc : List Byte) (s : State) : Host.Outcome State Fault Refusal :=
  s.command tag false (fun s =>
    let y := StageQ.ofBytes desc
    if 64 ≤ q then s.badArg tag
    else if !descOk desc ∨ !s.hasCtx y.ctx ∨ (s.sq q).bound.isSome = true ∨ (s.sq q).running ≠ 0 ∨
      (y.policy == 0 && s.ingress.any (fun (e : Nat × Ingress) => e.2.queue == some q)) = true ∨
      !alarmsFit (FMap.set s.queues q y) then s.refuse tag
    else
      let s := s.retryWaiters q
      ({ s with queues := FMap.set s.queues q y }).okay tag)

def execIngressMap (tag : Word) (w : Nat) (q : Option Nat) (s : State) : Host.Outcome State Fault Refusal :=
  s.command tag false (fun s =>
    if 64 ≤ w then s.badArg tag
    else match q with
      | none => ({ s with ingress := FMap.erase s.ingress w }).okay tag
      | some q =>
        if 64 ≤ q then s.badArg tag
        else match FMap.get s.queues q with
          | none => s.refuse tag
          | some y => if y.policy = 0 ∨ !s.hasCtx y.ctx then s.refuse tag
            else ({ s with ingress := FMap.set s.ingress w { queue := some q, staging := List.replicate 16 (zeros 256) } }).okay tag)

/-! ### Sealed regions (R424, R426, R427) -/

/-- Whether every page of a range has a valid local leaf with `SEAL`. -/
def State.sealable (s : State) (ctx : Nat) (base : DWord) (n : Nat) : Bool :=
  (List.range n).all (fun i => match (s.translate .device ctx (base.toNat + 65536 * i)).2 with
    | .ok (leaf, _) => leafSeal leaf && !leafSys leaf && !leafPeer leaf
    | .error _ => false)

def execSeal (tag : Word) (ctx : Nat) (base : DWord) (pages : Nat) (tree : DWord) (s : State) : Host.Outcome State Fault Refusal :=
  s.command tag false (fun s =>
    let last := base.toNat + 65536 * pages
    if !s.hasCtx ctx ∨ pages = 0 ∨ 2 ^ 21 < pages ∨ base.toNat % 65536 ≠ 0 ∨ 2 ^ 55 < last then s.badArg tag
    else if 16 ≤ s.sealed.length ∨ s.sealed.any (fun (e : Nat × Sealed) => e.2.ctx == ctx && decide (e.2.base.toNat < last) &&
        decide (base.toNat < e.2.base.toNat + 65536 * e.2.pages)) = true ∨ !s.sealable ctx base pages then s.refuse tag
    else { s with task := some (.seal ctx base pages tree tag) })

/-- The level above a level of digests. -/
def pairUp : List (BitVec 384) → List (BitVec 384)
  | a :: b :: r => Config.sha384 (digestBytes a ++ digestBytes b) :: pairUp r
  | _ => []

/-- The levels of a tree, from the leaves up to the root. -/
def treeOf : Nat → List (BitVec 384) → List (List (BitVec 384))
  | 0, ds => [ds]
  | n + 1, ds => ds :: treeOf n (pairUp ds)

/-- Write a digest of a tree, one translation a byte. -/
def State.digestWrite (s : State) (ctx : Nat) (va : DWord) : List Byte → Option State
  | [] => some s
  | b :: r => match s.vaWrite .device ctx va [b] with
    | (s, none) => s.digestWrite ctx (va + 1) r
    | _ => none

/-- Leaf digests of a range. -/
def State.leafDigests (s : State) (ctx : Nat) (base : DWord) (n : Nat) : Option (List (BitVec 384)) :=
  (List.range n).mapM (fun i =>
    let va := base.toNat + 65536 * i
    match (s.translate .device ctx va).2 with
    | .ok (leaf, size) => (s.homeRead (leafFrame leaf + va % 2 ^ size) 65536).map Config.sha384
    | .error _ => none)

/-- Whether sealing waits for the host link: at a page, or at a digest of the tree (R453). -/
def State.sealingWaits (s : State) (ctx : Nat) (base : DWord) (n : Nat) (tree : DWord) : Bool :=
  let L := treeLevels n
  (List.range n).any (fun i => s.vaWaits .device ctx (base + BitVec.ofNat 64 (65536 * i)) true 65536) ||
  (List.range (48 * (2 ^ (L + 1) - 1))).any (fun b => s.vaWaits .device ctx (tree + BitVec.ofNat 64 b) false 1)

/-- The sealing ends: the tree is stored, the root kept, the log extended and the region number answered. A page that
cannot be read or a tree that cannot be written refuses it (log entry 44). -/
def execSealCompletion (s : State) : Host.Outcome State Fault Refusal :=
  .next (match s.task with
    | some (.seal ctx base n tree tag) =>
      if s.hostHeld && s.sealingWaits ctx base n tree then s
      else
      let s := { s with task := none }
      (match s.leafDigests ctx base n with
        | none => s.refuse tag
        | some ds =>
          let L := treeLevels n
          let levels := treeOf L (ds ++ List.replicate (2 ^ L - n) 0)
          let put := (List.range (L + 1)).foldl (fun (o : Option State) l =>
            (List.range (2 ^ (L - l))).foldl (fun (o : Option State) j =>
              o.bind (fun s => s.digestWrite ctx (treeVa tree L l j) (digestBytes (nth (nth levels l []) j 0)))) o) (some s)
          (match put, (List.range 16).find? (fun k => (FMap.get s.sealed k).isNone) with
            | some s, some k =>
              let r : Sealed := { ctx := ctx, base := base, pages := n, tree := tree, root := nth (nth levels L []) 0 0 }
              (({ s with sealed := FMap.set s.sealed k r }).logEvent r 1).respond tag 0 (leBytes 4 k)
            | _, _ => s.refuse tag))
    | _ => s)

def execUnseal (tag : Word) (region : Nat) (s : State) : Host.Outcome State Fault Refusal :=
  s.command tag false (fun s => match FMap.get s.sealed region with
    | none => s.badArg tag
    | some r => (s.unsealRegion region r).okay tag)

/-! ### Attestation (R429) -/

/-- The report without its signature. -/
def State.attestation (s : State) (nonce : List Byte) : List Byte :=
  let image := s.slotImage s.running
  let other := s.slotImage (1 - s.running)
  [0x4C, 0x55, 0x41, 0x52].map (BitVec.ofNat 8) ++ leBytes 4 1 ++ leBytes 8 Config.serial.toNat ++ (nonce ++ zeros 48).take 48 ++
  leBytes 8 s.time ++ leBytes 4 s.running ++ (image.drop 8 ++ zeros 4).take 4 ++ digestBytes (Config.sha384 (image.take 256)) ++
  (if imageValid other then digestBytes (Config.sha384 (other.take 256)) else zeros 48) ++ digestBytes s.measure ++
  leBytes 4 s.sealed.length ++ zeros 28 ++
  (List.range 16).flatMap (fun k => match FMap.get s.sealed k with | some r => regionRecord r 0 | none => [])

/-- The signature of a report, 96 bytes. -/
def signBytes (bs : List Byte) : List Byte := (leBytes 96 (Config.deviceSign (Config.sha384 bs)).toNat).reverse

def execAttest (tag : Word) (nonce : List Byte) (addr : DWord) (s : State) : Host.Outcome State Fault Refusal :=
  s.command tag false (fun s =>
    let bs := s.attestation nonce
    ((s.hostWrite addr (bs ++ signBytes bs)).1).okay tag)

def execGetCert (tag : Word) (addr : DWord) (len : Nat) (s : State) : Host.Outcome State Fault Refusal :=
  s.command tag false (fun s => ((s.hostWrite addr (Config.certChain.take len)).1).okay tag)

/-! ### Fault ring and node cache (R18, R415) -/

def execFaultRing (tag : Word) (addr : DWord) (count : Nat) (s : State) : Host.Outcome State Fault Refusal :=
  s.command tag false (fun s =>
    if isPow2 count && decide (64 ≤ count) && decide (count ≤ 65536) then
      ({ s with faultBase := addr, faultCount := count, fhead := 0, ftail := 0 }).okay tag
    else s.badArg tag)

/-- `NODE_CACHE`: both parts of every slice then keep what they have room for. An argument above 32 MiB, for which the manual names
no answer, is BADARG (log entry 81). -/
def execNodeCache (tag : Word) (mib : Nat) (s : State) : Host.Outcome State Fault Refusal :=
  s.command tag false (fun s =>
    if !s.launches.isEmpty then s.refuse tag
    else if 32 < mib then s.badArg tag
    else
      let s := { s with capMem := (s.capMem &&& ~~~((0xFF : DWord) <<< 48)) ||| (BitVec.ofNat 64 mib <<< 48) }
      ((List.range 32).foldl (fun s h => (s.l2Trim h s.l2Cap).nodeTrim h) s).okay tag)

/-! ### Firmware (R470, R471) -/

def execFwWrite (tag : Word) (slot : Nat) (addr : DWord) (len : Nat) (s : State) : Host.Outcome State Fault Refusal :=
  s.command tag true (fun s =>
    if 2 ≤ slot ∨ 2 ^ 24 + 512 < len then s.badArg tag
    else if s.bootStep ≠ 2 ∧ slot = s.running then s.refuse tag
    else
      let bs := s.seen (hostKey addr.toNat) (Memory.readBytes s.mem (hostKey addr.toNat) len)
      (if slot = 0 then { s with fwA := bs } else { s with fwB := bs }).okay tag)

def execFwSwitch (tag : Word) (s : State) : Host.Outcome State Fault Refusal :=
  s.command tag false (fun s =>
    if imageValid (s.slotImage (1 - s.running)) then { s with task := some (.restart tag), capLinkHeld := some s.capLinkNow }
    else s.refuse tag)

/-! ### Cores (R472, R473) -/

def CoreState.out : CoreState → Bool
  | .parked => true
  | .failed => true
  | _ => false

def execCoreParkDrain (tag : Word) (c : Nat) (s : State) : Host.Outcome State Fault Refusal :=
  s.command tag false (fun s =>
    if Config.cores ≤ c then s.badArg tag
    else if (s.core c).service.out then s.refuse tag
    else ({ (s.modCore c (fun k => { k with service := .draining })) with task := some (.park c tag) }).settlePark)

def execCoreParkKill (tag : Word) (c : Nat) (s : State) : Host.Outcome State Fault Refusal :=
  s.command tag false (fun s =>
    if Config.cores ≤ c then s.badArg tag
    else if (s.core c).service.out then s.refuse tag
    else (((s.modCore c (fun k => { k with service := .draining })).killCore c .none false).parkCore c).okay tag)

/-- A core whose recalibration still runs returns when it has ended. -/
def execCoreReturn (tag : Word) (c : Nat) (s : State) : Host.Outcome State Fault Refusal :=
  s.command tag false (fun s =>
    if Config.cores ≤ c then s.badArg tag
    else if (s.core c).service ≠ .parked then s.refuse tag
    else if (s.core c).recal then { s with task := some (.giveBack c tag) }
    else ((s.modCore c (fun k => { k with service := .inService })).recount 1).okay tag)

/-! ### Channels and power (R470, R474, R476) -/

/-- L2 slices of channel `k` write back their dirty lines, and the retraining begins. A second retrain is refused. -/
def execChRetrain (tag : Word) (k : Nat) (s : State) : Host.Outcome State Fault Refusal :=
  match s.task with
  | some (.retrain _ _) => .next (if s.hostUp then s.refuse tag else s)
  | _ => s.command tag false (fun s =>
    if 16 ≤ k then s.badArg tag
    else
      let ls := (s.l2.filter (fun (e : Nat × Bool) => homeSlice e.1 / 2 == k)).map (·.1)
      let s := ls.foldl (fun s l => s.l2Clean l) s
      { s with task := some (.retrain k tag) })

def execPowerLimit (tag : Word) (watts : Nat) (s : State) : Host.Outcome State Fault Refusal :=
  s.command tag false (fun s => if 300 ≤ watts ∧ watts ≤ 600 then ({ s with powerLimit := watts }).okay tag else s.refuse tag)

def execQuietWindow (tag : Word) (e : Nat) (s : State) : Host.Outcome State Fault Refusal :=
  s.command tag false (fun s => if 20 ≤ e ∧ e ≤ 32 then ({ s with quietExp := e }).okay tag else s.refuse tag)

/-! ### The status page (R496) -/

/-- The byte of a core; one that bring-up has not tested reads as parked (log entry 45). -/
def CoreState.byte : CoreState → Nat
  | .inService => 0
  | .draining => 0
  | .failed => 2
  | _ => 1

def State.statusPage (s : State) : List Byte :=
  (List.range 256).flatMap (fun c => leBytes 1 (s.core c).service.byte) ++ leBytes 8 s.singleBit.toNat ++ leBytes 8 s.doubleBit.toNat ++
  leBytes 8 s.droppedWb.toNat ++ leBytes 4 s.mhz ++ leBytes 4 s.watts ++ leBytes 2 (s.capCores.toNat / 2 ^ 48) ++ zeros 222

def execStatus (tag : Word) (addr : DWord) (s : State) : Host.Outcome State Fault Refusal :=
  s.command tag true (fun s => ((s.hostWrite addr s.statusPage).1).okay tag)

/-! ### Answers to held faults (R414, R415) -/

/-- The saved wave that a number stands for: its team and index (log entry 40). -/
def savedWho (n : Nat) : Nat × Nat := ((n - 1000000) / 1000, n % 1000)

/-- Let a wave go whose fault `fid` the host answered. -/
def Wave.unheld (x : Wave) (fid : Nat) : Wave := { x with replayHeld := x.replayHeld.filter (fun e => e.1 != fid) }

/-- The held faults without one. -/
def State.unheld (s : State) (fid : Nat) : State := { s with heldFaults := s.heldFaults.filter (fun (h : HeldFault) => h.fid != fid) }

def execFaultReplyReplay (fid : Word) (s : State) : Host.Outcome State Fault Refusal :=
  .next (match s.heldFaults.find? (fun (h : HeldFault) => h.fid == fid.toNat) with
    | none => s
    | some h =>
      if h.client = 1 then
        if (s.team h.team).saveHeld = some h.fid then (s.unheld h.fid).modTeam h.team (fun T => { T with saveHeld := none })
        else { s with heldFaults := s.heldFaults.map (fun (g : HeldFault) => if g.fid = h.fid then { g with replied := true } else g) }
      else (s.unheld h.fid).modWave h.core h.who (fun x =>
        let again := match x.replayHeld.find? (fun e => e.1 == h.fid) with | some e => e.2.again | none => 0
        { (x.unheld h.fid) with bundles := regroup x.bundles (again &&& x.live) }))

def execFaultReplyReject (fid : Word) (s : State) : Host.Outcome State Fault Refusal :=
  .next (match s.heldFaults.find? (fun (h : HeldFault) => h.fid == fid.toNat) with
    | none => s
    | some h =>
      if h.client = 1 then
        if (s.team h.team).saveHeld = some h.fid then s.killTeam h.team .pageNotPresent else s.unheld h.fid
      else if 1000000 ≤ h.who then
        let (t, i) := savedWho h.who
        (s.unheld h.fid).modTeam t (fun T => { T with saved := T.saved.map (fun v => { v with waves := v.waves.map (fun y =>
          if y.index = i then { y with copy := { y.copy with
            rejected := y.copy.rejected ++ ((y.copy.replayHeld.filter (fun e => e.1 == h.fid)).map (·.2)) } } else y) }) })
      else match (s.wave h.core h.who).replayHeld.find? (fun e => e.1 == h.fid) with
        | none => s.unheld h.fid
        | some e => ((s.unheld h.fid).modWave h.core h.who (fun x => x.unheld h.fid)).deliver h.core h.who { e.2 with post := none })

end Sys2Proof.Machine
end

