-- ==== Sys2Proof/Machine/Debug.lean ====
section
/-! DEFINITION. The debug commands (R454-R463): arming, running and stepping waves, reading and writing their state,
breakpoints, watchpoints and trace; quiet stops, checkpoints and replay (R467, R468). -/
namespace Sys2Proof.Machine

/-! ### Waves that a command names (R454) -/

/-- A resident wave by core, team slot and `WAVE.INDEX`: its slot. -/
def State.waveAt (s : State) (c slot index : Nat) : Option Nat :=
  (FMap.get (s.core c).slots slot).bind (fun t =>
    ((s.core c).waves.find? (fun (e : Nat × Wave) => e.2.team == t && e.2.index == index)).map (·.1))

/-- Resident waves of a context that have not ended. -/
def State.ctxWaves (s : State) (ctx : Nat) : List (Nat × Nat) :=
  (((s.teams.filter (fun (e : Nat × Team) => e.2.ctx == ctx)).map (·.1)).flatMap s.teamWaves).filter (fun y => !(s.wave y.1 y.2).isOver)

/-- The waves of a selection that a command acts on: named ones must meet the test, of all those that do. -/
def State.selected (s : State) (ctx : Nat) (w : DbgSel) (f : Wave → Bool) : Option (List (Nat × Nat)) :=
  match w with
  | .all => some ((s.ctxWaves ctx).filter (fun y => f (s.wave y.1 y.2)))
  | .wave c slot i => match s.waveAt c slot i with
    | none => none
    | some k => if (s.ctxWaves ctx).contains (c, k) && f (s.wave c k) then some [(c, k)] else none

/-- Saved waves that a command names, as their team and index: they keep their team's slot (R438). -/
def State.savedSel (s : State) (ctx : Nat) (w : DbgSel) : List (Nat × SavedWave) :=
  (s.teams.filter (fun (e : Nat × Team) => e.2.ctx == ctx)).flatMap (fun (e : Nat × Team) =>
    (((e.2.saved.map (·.waves)).getD []).filter (fun v => !v.copy.isOver && (match w with
      | .all => true
      | .wave c slot i => v.index == i && (e.2.members[v.member]?).any (fun m => m.core == c && m.slot == slot)))).map (fun v => (e.1, v)))

/-- Apply to a saved wave of a team. -/
def State.modSavedWave (s : State) (t i : Nat) (f : SavedWave → SavedWave) : State :=
  s.modTeam t (fun T => T.modSaved (fun v => if v.index = i then f v else v))

/-! ### Running (R455, R458) -/

/-- The threads that a step lets issue: those that do not wait, or all when every thread waits. -/
def Wave.stepMask (x : Wave) : Mask :=
  let m := if srH x.sr then x.handler &&& x.live else x.live
  if m &&& ~~~x.waiting = 0 then m else m &&& ~~~x.waiting

def State.stepWave (s : State) (drain : Bool) (c w : Nat) : State :=
  (s.resumeWave c w).modWave c w (fun x => { x with stepDbg := x.stepMask, stepDrain := drain })

/-- A run command on a selection, whose named wave must meet `need`; it acts on the waves that meet `f`, by `g` on resident ones and by
`h` on saved ones. -/
def State.dbgRun (s : State) (tag : Word) (ctx : Nat) (w : DbgSel) (need f : Wave → Bool) (g : State → Nat → Nat → State)
    (h : State → Nat → Nat → State) : Host.Outcome State Fault Refusal :=
  s.command tag false (fun s =>
    let saved := fun (s : State) => ((s.savedSel ctx w).filter (fun y => f y.2.shown)).foldl (fun s y => h s y.1 y.2.index) s
    if !s.hasCtx ctx then s.badArg tag
    else match s.selected ctx w need, w with
      | some ws, .wave _ _ _ => (ws.foldl (fun s y => if f (s.wave y.1 y.2) then g s y.1 y.2 else s) s).okay tag
      | some ws, .all => (saved (ws.foldl (fun s y => if f (s.wave y.1 y.2) then g s y.1 y.2 else s) s)).okay tag
      | none, _ => if (s.savedSel ctx w).any (fun y => need y.2.shown) then (saved s).okay tag else s.badArg tag)

/-- Stops are made for a context that is armed, each at the wave's next boundary. -/
def execDbgRunStop (tag : Word) (ctx : Nat) (w : DbgSel) (s : State) : Host.Outcome State Fault Refusal :=
  let d : DbgStop := { cause := .none, asked := true }
  s.dbgRun tag ctx w (fun _ => true) (fun x => x.dbg.isNone)
    (fun s c k => if (FMap.get s.armed ctx).isNone then s else (s.askStop c k d).freeze c k .none)
    (fun s t i => if (FMap.get s.armed ctx).isNone then s
      else (s.modSavedWave t i (fun v => v.askStop d)).freezeFrom ctx t (256, 0) .none)

/-- A saved wave that is stopped goes on once it is restored; a step goes with it. -/
def SavedWave.step (v : SavedWave) (drain : Bool) : SavedWave :=
  { v with freed := true, copy := { v.copy with stepDbg := v.copy.stepMask, stepDrain := drain } }

def execDbgRunResume (tag : Word) (ctx : Nat) (w : DbgSel) (s : State) : Host.Outcome State Fault Refusal :=
  s.dbgRun tag ctx w (fun x => x.dbg.isSome) (fun x => x.dbg.isSome) State.resumeWave
    (fun s t i => s.modSavedWave t i (fun v => { v with freed := true }))

def execDbgRunStep (tag : Word) (ctx : Nat) (w : DbgSel) (s : State) : Host.Outcome State Fault Refusal :=
  s.dbgRun tag ctx w (fun x => x.dbg.isSome) (fun x => x.dbg.isSome) (fun s c k => s.stepWave false c k)
    (fun s t i => s.modSavedWave t i (fun v => v.step false))

def execDbgRunStepDrain (tag : Word) (ctx : Nat) (w : DbgSel) (s : State) : Host.Outcome State Fault Refusal :=
  s.dbgRun tag ctx w (fun x => x.dbg.isSome) (fun x => x.dbg.isSome) (fun s c k => s.stepWave true c k)
    (fun s t i => s.modSavedWave t i (fun v => v.step true))

/-- Whether a queued result of a wave is outstanding (R459). -/
def State.outstanding (s : State) (c w : Nat) : Bool :=
  (s.core c).ops.any (fun o => o.wave == w && o.dest != .none) || ((s.slice c (sliceOf w)).sfu).any (fun e => e.wave == w) ||
  (s.core c).eng.any (fun e => e.wave == w && e.dest != .none)

/-- Drained steps report their stop once nothing of the wave is queued (R458). -/
def State.settleDrains (s : State) : State :=
  s.cores.foldl (fun s (e : Nat × Core) => e.2.waves.foldl (fun s (y : Nat × Wave) => match (s.wave e.1 y.1).drainStop with
    | some d => if s.outstanding e.1 y.1 || (s.core e.1).eng.any (fun g => g.wave == y.1) then s
      else ((s.modWave e.1 y.1 (fun x => { x with drainStop := none })).debugStop e.1 y.1 d 0xFF).freeze e.1 y.1 d.cause
    | none => s) s) s

/-! ### Arming (R454) -/

def execDbgArm (tag : Word) (ctx policy : Nat) (s : State) : Host.Outcome State Fault Refusal :=
  s.command tag false (fun s =>
    if !s.hasCtx ctx ∨ 2 < policy then s.badArg tag
    else if s.trace.count = 0 then s.refuse tag
    else ({ s with armed := FMap.set s.armed ctx policy }).okay tag)

/-- What a debugger has begun with a wave is given up: a step, its drain, and a stop that has not been made. -/
def Wave.unstep (x : Wave) : Wave :=
  { x with stepDbg := 0, stepDrain := false, drainStop := none, stops := [] }

/-- Breakpoints and watchpoints go, and stopped waves resume, saved ones when they are restored; a quiet stop stands (log entry
43). Like arming it is refused without a trace ring. -/
def execDbgDisarm (tag : Word) (ctx : Nat) (s : State) : Host.Outcome State Fault Refusal :=
  s.command tag false (fun s =>
    if !s.hasCtx ctx then s.badArg tag
    else if s.trace.count = 0 then s.refuse tag
    else
      let s := { s with
        armed := FMap.erase s.armed ctx
        bkpts := s.bkpts.filter (fun (e : Nat × Bkpt) => e.2.ctx != ctx)
        watches := s.watches.filter (fun (e : Nat × Watch) => e.2.ctx != ctx) }
      let ws := (s.ctxWaves ctx).filter (fun y => let x := s.wave y.1 y.2
        x.dbg.isSome && !(s.launchOf x).stopped)
      let s := (s.ctxWaves ctx).foldl (fun s y => s.modWave y.1 y.2 Wave.unstep) s
      let free := fun (v : SavedWave) => ({ v with copy := v.copy.unstep, freed := true } : SavedWave)
      let s := { s with teams := s.teams.map (fun (e : Nat × Team) => (e.1,
        if e.2.ctx = ctx ∧ (s.launch e.2.launch).stopped = false then
          { e.2 with saved := e.2.saved.map (fun (v : Saved) => { v with waves := v.waves.map free }) }
        else e.2)) }
      (ws.foldl (fun s y => s.resumeWave y.1 y.2) s).okay tag)

def execBkptSet (tag : Word) (slot ctx : Nat) (addr : DWord) (s : State) : Host.Outcome State Fault Refusal :=
  s.command tag false (fun s =>
    if 16 ≤ slot ∨ !s.hasCtx ctx then s.badArg tag
    else if addr = 0 then ({ s with bkpts := FMap.erase s.bkpts slot }).okay tag
    else ({ s with bkpts := FMap.set s.bkpts slot { ctx := ctx, addr := addr } }).okay tag)

def execWatchSet (tag : Word) (slot ctx : Nat) (addr : DWord) (len access : Nat) (s : State) : Host.Outcome State Fault Refusal :=
  s.command tag false (fun s =>
    if 8 ≤ slot ∨ !s.hasCtx ctx ∨ 3 < access then s.badArg tag
    else if access = 0 then ({ s with watches := FMap.erase s.watches slot }).okay tag
    else if isPow2 len && decide (4 ≤ len) && decide (len ≤ 65536) then
      ({ s with watches := FMap.set s.watches slot {
          ctx := ctx, addr := BitVec.ofNat 64 (addr.toNat / len * len), len := len, access := access } }).okay tag
    else s.badArg tag)

/-- A new ring; the records that the old one dropped are stated in it (R461). -/
def execTraceCfg (tag : Word) (base count mode : Nat) (mask : Word) (k : Nat) (s : State) : Host.Outcome State Fault Refusal :=
  s.command tag false (fun s =>
    if base % 4096 ≠ 0 ∨ 2 ^ 37 < base + 32 * count ∨ isPow2 count = false ∨ count < 256 ∨ 2 ^ 24 < count ∨ 1 < mode ∨
      ¬(k = 0 ∨ (10 ≤ k ∧ k ≤ 24)) then s.badArg tag
    else
      let n := s.trace.dropped
      let s := { s with trace := { base := base, count := count, mode := mode, mask := mask, k := k } }
      (if n = 0 then s else s.traceRec { kind := 9, pay := leBytes 4 (min n 0xFFFFFFFF) }).okay tag)

/-! ### Reading and writing a wave (R459, R460) -/

/-- What a command on a saved wave comes to: an argument out of range, a refusal, or a record and what stands beside it. -/
inductive SavedRes where
  | bad
  | refused
  | wrote (s : State) (bs : List Byte) (v : SavedWave)

/-- A saved wave that a debug stop holds, by core, team slot and index: its team. -/
def State.savedAt (s : State) (c slot index : Nat) : Option (Nat × SavedWave) :=
  (FMap.get (s.core c).slots slot).bind (fun t =>
    (((s.savedSel (s.team t).ctx (.wave c slot index)).filter (fun y => y.1 == t && y.2.shown.dbg.isSome)).head?))

/-- The record of a saved wave. -/
def State.recordOf (s : State) (c t : Nat) (v : SavedWave) : State × Option (List Byte) :=
  let T := s.team t
  let va := T.recVa v.member v.index
  match s.vaGet c T.ctx va 16 1 with
  | (s, .error _) => (s, none)
  | (s, .ok head) => match s.vaGet c T.ctx va ((recordLen head).getD 16) 16 with
    | (s, .error _) => (s, none)
    | (s, .ok bs) => (s, if recordBad v.copy bs then none else some bs)

/-- A command on a stopped wave: on a resident one, or on the record of a saved one (R438, R439), where `g` changes it. A record that
cannot be read or written refuses it (log entry 102). -/
def State.atStopped (s : State) (tag : Word) (c slot w : Nat) (f : State → Nat → State)
    (g : State → SavedWave → List Byte → SavedRes) : State :=
  match s.waveAt c slot w with
  | some k => if (s.wave c k).dbg.isNone then s.badArg tag else f s k
  | none => match s.savedAt c slot w with
    | none => s.badArg tag
    | some (t, v) => match s.recordOf c t v with
      | (s, none) => s.refuse tag
      | (s, some bs) => match g s v bs with
        | .bad => s.badArg tag
        | .refused => s.refuse tag
        | .wrote s new y => match s.vaPut (.core c) (s.team t).ctx ((s.team t).recVa v.member v.index) new with
          | (s, some _) => s.refuse tag
          | (s, none) => (s.modSavedWave t v.index (fun _ => y)).okay tag

def State.onStopped (s : State) (tag : Word) (c slot w : Nat) (f : State → Nat → State)
    (g : State → SavedWave → List Byte → SavedRes) : Host.Outcome State Fault Refusal :=
  s.command tag false (fun s => s.atStopped tag c slot w f g)

/-- Bytes of a record replaced from an offset on. -/
def patchAt (bs : List Byte) (o : Nat) (new : List Byte) : List Byte := bs.take o ++ new ++ bs.drop (o + new.length)
/-- Lanes of a table of `n`-byte fields replaced. -/
def patchLanes (bs : List Byte) (o n : Nat) (m : Mask) (f : Nat → Nat) : List Byte :=
  (lanesOf m).foldl (fun bs l => patchAt bs (o + n * l) (leBytes n (f l))) bs

/-- The tiles of a saved wave that have withdrawn operations (R459). -/
def SavedWave.busyTile (v : SavedWave) (i : Nat) : Bool :=
  v.eng.any (fun e => e.tile == nth v.copy.acc i 0 && e.kind != .zflg && e.kind != .lxld && e.kind != .lxinv)

/-- Whether entries of the engine that are not yet in effect use a tile. -/
def State.tileBusy (s : State) (c tile : Nat) : Bool :=
  (s.core c).eng.any (fun e => e.tile == tile && e.kind != .zflg && e.kind != .lxld && e.kind != .lxinv)

/-- Core 0xFFFF names the trace's write index (R461). A poisoned part refuses the read. -/
def execDbgRead (tag : Word) (c slot w : Nat) (addr : DWord) (s : State) : Host.Outcome State Fault Refusal :=
  let answer := fun (s : State) (bs : List Byte) (marks : Nat) (out : Bool) =>
    ((s.hostWrite addr bs).1).respond tag 0 (leBytes 4 bs.length ++ leBytes 1 marks ++ leBytes 1 (if out then 1 else 0))
  let marked := fun (n : Nat) (busy : Nat → Bool) => (List.range n).foldl (fun m i => if busy i then m + 2 ^ i else m) 0
  if c = 0xFFFF then s.command tag false (fun s => s.respond tag 0 (leBytes 8 s.trace.windex))
  else s.command tag false (fun s => match s.waveAt c slot w with
    | some k =>
      let x := s.wave c k
      if x.dbg.isNone then s.badArg tag
      else match s.waveRecord c k x.asked with
        | .error _ => s.refuse tag
        | .ok (bs, _) => answer s bs (marked x.acc.length (fun i => s.tileBusy c (nth x.acc i 0))) (s.outstanding c k)
    | none => match s.savedAt c slot w with
      | none => s.badArg tag
      | some (t, v) => match s.recordOf c t v with
        | (s, none) => s.refuse tag
        | (s, some bs) => answer s bs (marked v.copy.acc.length v.busyTile)
            (!v.sfu.isEmpty || v.eng.any (fun e => e.dest != .none) || !v.pops.isEmpty))

/-- The present value of a name for a debugger's partial write: a PENDING one has free lanes. -/
def State.oldValue (s : State) (c w n : Nat) : State × PReg :=
  let v := pregOf (s.slice c (sliceOf w)).phys ((s.wave c w).reg n)
  if v.pending then
    ({ s with freeCount := s.freeCount + 32 }, { v with data := vbuild (fun l => Config.freeWord (s.freeCount + l)) })
  else (s, v)

/-- A debugger's write of a name, which takes a fresh register (R283); when none is free the slice saves its youngest borrowing wave, and
the write waits for it (R272). Where that is the named wave itself, the write goes to its record. -/
def State.writeName (s : State) (tag : Word) (c slot w name : Nat) (lanes : Mask) (data : VReg) : State :=
  s.atStopped tag c slot w (fun s k => match (if name < 2048 then (s.wave c k).rotate name else none) with
    | none => s.badArg tag
    | some n =>
      if !(s.wave c k).mapped n then s.badArg tag
      else
        let (s1, v) := s.oldValue c k n
        if v.poison && lanes != 0xFFFFFFFF then s.refuse tag
        else match s1.writeVec c k n (vmerge lanes data v.data) with
          | some t => t.okay tag
          | none => { s.spillWave c (sliceOf k) with task := some (.writeVec c slot w name lanes data tag) })
    (fun s v bs =>
      let x := recWave v.copy bs
      match (if name < 2048 then x.rotate name else none) with
      | none => .bad
      | some n =>
        let u := fieldAt bs 8 4
        let code := fieldAt bs (0x17C0 + 2 * n) 2
        if !x.mapped n then .bad
        else
          let (s, old) := if code = 0xFFFE then
              ({ s with freeCount := s.freeCount + 32 }, vbuild (fun l => Config.freeWord (s.freeCount + l)))
            else (s, if code = 0 then vzero else recValue bs (valuesAt bs) (code - 1))
          let new := vmerge lanes data old
          let same := if new = vzero then some 0 else ((List.range u).find? (fun i => recValue bs (valuesAt bs) i == new)).map (· + 1)
          let alone := code != 0 && code != 0xFFFE && (List.range 2048).all (fun m => m == n || fieldAt bs (0x17C0 + 2 * m) 2 != code)
          let point := fun (bs : List Byte) (i : Nat) => patchAt bs (0x17C0 + 2 * n) (leBytes 2 i)
          match same with
          | some i => .wrote s (point bs i) v
          | none =>
            if alone then .wrote s (patchAt bs (valuesAt bs + 128 * (code - 1)) (vregBytes new)) v
            else if 1023 ≤ u ∨ 2 ^ 19 < bs.length + 128 then .refused
            else
              let bs := bs.take (withdrawnAt bs) ++ vregBytes new ++ bs.drop (withdrawnAt bs)
              .wrote s (point (patchAt (patchAt bs 4 (leBytes 4 bs.length)) 8 (leBytes 4 (u + 1))) (u + 1)) v)

def execDbgWriteVector (tag : Word) (c slot w name : Nat) (lanes : Mask) (data : VReg) (s : State) : Host.Outcome State Fault Refusal :=
  s.command tag false (fun s => s.writeName tag c slot w name lanes data)

/-- A debugger's write that waited for a register is tried again. -/
def State.settleWrite (s : State) : State :=
  match s.task with
  | some (.writeVec c slot w name lanes data tag) => ({ s with task := none }).writeName tag c slot w name lanes data
  | _ => s

/-- Operations that will write scalar `n` of a wave. -/
def State.scalarOps (s : State) (c w n : Nat) : List Nat :=
  let hits := fun (d : Dest) => match d with | .sca a m => decide (a ≤ n) && decide (n < a + m) | _ => false
  ((s.core c).ops.filter (fun o => o.wave == w && hits o.dest)).map (·.id) ++
  ((s.slice c (sliceOf w)).sfu.filter (fun e => e.wave == w && hits e.dest)).map (·.id) ++
  ((s.core c).eng.filter (fun e => e.wave == w && hits e.dest)).map (·.id)

def execDbgWriteScalar (tag : Word) (c slot w name : Nat) (v : Word) (s : State) : Host.Outcome State Fault Refusal :=
  s.onStopped tag c slot w (fun s k =>
    if 128 ≤ name then s.badArg tag
    else
      let ids := s.scalarOps c k name
      (s.modWave c k (fun x => { (x.setScalars name [v]) with
        sPend := x.sPend &&& ~~~(BitVec.ofNat 128 (2 ^ name))
        sDrop := x.sDrop ++ ids.map (fun i => (i, name)) })).okay tag)
    (fun s y bs =>
      let hits := fun (d : Dest) => match d with | .sca a m => decide (a ≤ name) && decide (name < a + m) | _ => false
      let ids := (y.sfu.filter (fun e => hits e.dest)).map (·.id) ++ (y.eng.filter (fun e => hits e.dest)).map (·.id) ++
        (y.pops.filter (fun e => hits e.2.dest)).map (fun e => e.2.id)
      if 128 ≤ name then .bad
      else .wrote s (patchAt (patchAt bs (0x2A0 + 4 * name) (leBytes 4 v.toNat)) 0x1A0
          (leBytes 16 (BitVec.ofNat 128 (fieldAt bs 0x1A0 16) ||| BitVec.ofNat 128 (2 ^ name)).toNat))
        { y with copy := { y.copy with sDrop := y.copy.sDrop ++ ids.map (fun i => (i, name)) } })

def execDbgWritePredicate (tag : Word) (c slot w name : Nat) (lanes v : Mask) (s : State) : Host.Outcome State Fault Refusal :=
  s.onStopped tag c slot w (fun s k =>
    if 48 ≤ name then s.badArg tag else (s.modWave c k (fun x => x.setPred name lanes v)).okay tag)
    (fun s y bs => if 48 ≤ name then .bad
      else .wrote s (patchAt bs (0x1B0 + 4 * name)
        (leBytes 4 ((BitVec.ofNat 32 (fieldAt bs (0x1B0 + 4 * name) 4) &&& ~~~lanes) ||| (v &&& lanes)).toNat)) y)

/-- A local write at step 3 of R394. -/
def execDbgWriteMailbox (tag : Word) (c slot w name : Nat) (v : Word) (s : State) : Host.Outcome State Fault Refusal :=
  s.onStopped tag c slot w (fun s k =>
    if 8 ≤ name then s.badArg tag else ((s.modWave c k (fun x => x.setBox name v)).settleBoxes c k).okay tag)
    (fun s y bs => if 8 ≤ name then .bad
      else .wrote (s.modTeam y.copy.team (fun T => { T with saved := T.saved.map (fun (o : Saved) =>
            { o with boxes := o.boxes.filter (fun b => !(b.1 == y.index && b.2.1 == name)) }) }))
        (patchAt (patchAt bs (0x270 + 4 * name) (leBytes 4 v.toNat)) 0x290
          (leBytes 1 (BitVec.ofNat 8 (fieldAt bs 0x290 1) ||| BitVec.ofNat 8 (2 ^ name)).toNat))
        { y with copy := y.copy.setBox name v })

/-- Every field but `PP`; the reserved bits stay 0. When `H` rises, every live thread is in handler mode (log entry 43). -/
def execDbgWriteSr (tag : Word) (c slot w : Nat) (v : Word) (s : State) : Host.Outcome State Fault Refusal :=
  s.onStopped tag c slot w (fun s k =>
    (s.modWave c k (fun x => { x with
      sr := (v &&& 0xC003F9FF) ||| (x.sr &&& 0x20000000)
      handler := if srH v then (if srH x.sr then x.handler else x.live) else 0 })).okay tag)
    (fun s y bs =>
      let x := recTraps (recWave y.copy bs) bs
      let flags := BitVec.ofNat 32 (fieldAt bs 0 4)
      .wrote s (patchAt (patchAt bs 0 (leBytes 4 (setBit32 flags 24 (srH v)).toNat)) 0x10
          (leBytes 4 ((v &&& 0xC003F9FF) ||| (x.sr &&& 0x20000000)).toNat))
        { y with copy := { y.copy with handler := if srH v then (if srH x.sr then x.handler else x.live) else 0 } })

/-- In handler mode a handler thread goes on from the stop at its address, and any other takes its own from handler mode's end
(log entry 43). -/
def execDbgWriteResume (tag : Word) (c slot w : Nat) (lanes : Mask) (pcs : List DWord) (s : State) : Host.Outcome State Fault Refusal :=
  s.onStopped tag c slot w (fun s k =>
    (s.modWave c k (fun x =>
      let h := if srH x.sr then lanes &&& x.handler else 0
      let y := { x with
        pcs := (List.range 32).map (fun l => if h.getLsbD l then nth pcs l 0 else nth x.pcs l 0)
        resume := (List.range 32).map (fun l => if (lanes &&& ~~~h).getLsbD l then nth pcs l 0 else nth x.resume l 0)
        noTrip := x.noTrip &&& ~~~lanes }
      if h = 0 then y else y.splitBundles)).okay tag)
    (fun s y bs =>
      let x := recTraps (recWave y.copy bs) bs
      let h := if srH x.sr then lanes &&& x.handler else 0
      .wrote s (patchLanes (patchLanes bs 0x40 8 h (fun l => (nth pcs l 0).toNat)) 0x16A0 8 (lanes &&& ~~~h) (fun l => (nth pcs l 0).toNat))
        { y with copy := { y.copy with noTrip := y.copy.noTrip &&& ~~~lanes } })

def execDbgWriteTile (tag : Word) (c slot w name : Nat) (data : List Byte) (s : State) : Host.Outcome State Fault Refusal :=
  s.onStopped tag c slot w (fun s k =>
    let x := s.wave c k
    if x.acc.length ≤ name ∨ data.length ≠ 20544 then s.badArg tag
    else if s.tileBusy c (nth x.acc name 0) then s.refuse tag
    else (s.modCore c (fun k => k.changeTile (nth x.acc name 0) (fun t => { t with elems := tileOfImage data, poison := [] }))).okay tag)
    (fun s y bs => if y.copy.acc.length ≤ name ∨ data.length ≠ 20544 then .bad
      else if y.busyTile name then .refused
      else .wrote s (patchAt bs (0x27C0 + 20544 * name) data) y)

/-! ### Quiet stops (R467, R468) -/

/-- The phased launch that a command names. -/
def State.launchAt (s : State) (ctx : Nat) (header : DWord) : Option Nat :=
  (s.launches.find? (fun (e : Nat × Launch) => e.2.hdr.ctx == ctx && e.2.addr == header && e.2.phased)).map (·.1)

def State.onPhased (s : State) (tag : Word) (ctx : Nat) (header : DWord) (f : State → Nat → State) : Host.Outcome State Fault Refusal :=
  s.command tag false (fun s => if !s.hasCtx ctx then s.badArg tag else match s.launchAt ctx header with
    | none => s.badArg tag
    | some l => f s l)

def execQuietStop (tag : Word) (ctx : Nat) (header : DWord) (s : State) : Host.Outcome State Fault Refusal :=
  s.onPhased tag ctx header (fun s l => (s.modLaunch l (fun L => { L with quiet := some (0, 0) })).okay tag)
def execQuietCheckpoint (tag : Word) (ctx : Nat) (header : DWord) (s : State) : Host.Outcome State Fault Refusal :=
  s.onPhased tag ctx header (fun s l => (s.modLaunch l (fun L => { L with quiet := some (1, 0) })).okay tag)
def execQuietCancel (tag : Word) (ctx : Nat) (header : DWord) (s : State) : Host.Outcome State Fault Refusal :=
  s.onPhased tag ctx header (fun s l => (s.modLaunch l (fun L => { L with quiet := none })).okay tag)

/-- Teams of a launch. -/
def State.launchTeams (s : State) (l : Nat) : List Nat := (s.teams.filter (fun (e : Nat × Team) => e.2.launch == l)).map (·.1)

/-- Whether an operation is a store or an atomic, which a quiet stop waits for. -/
def OpKind.settles (k : OpKind) : Bool := k == .store || k == .atomic || k == .cas128

/-- The conditions of a quiet stop; a store of a wave that has ended with its team may still wait for its home. -/
def State.isStill (s : State) (l : Nat) : Bool :=
  let ts := s.launchTeams l
  s.cores.all (fun (e : Nat × Core) =>
    e.2.sp.walks.all (fun (y : Nat × Walk) => y.2.remote.isSome || !ts.contains y.2.team) &&
    e.2.copies.all (fun (y : Nat × CopyJob) => !ts.contains y.2.team) &&
    !(e.2.jig.running && e.2.jig.holder.any (fun t => ts.contains t)) &&
    e.2.ops.all (fun o => !(o.kind.settles && o.orphan.isSome && o.ofLaunch == some l))) &&
  (ts.flatMap s.teamWaves).all (fun y =>
    ((s.slice y.1 (sliceOf y.2)).sfu).all (fun e => e.wave != y.2) && (s.core y.1).eng.all (fun e => e.wave != y.2) &&
    (s.core y.1).ops.all (fun o => o.wave != y.2 || !o.kind.settles))

/-- The stop of a quiet stop, which a saved wave makes when it is restored (R455, R467). -/
def quietStop : DbgStop := { cause := .none, asked := true }

/-- The held `GBAR` completes, with the stores of the launch's cores at their homes, and the launch stops, its saved waves when they
are restored; a checkpoint then saves its resident teams. -/
def State.quietNow (s : State) (l : Nat) (action : Word) : State :=
  let s := (s.launch l).ran.foldl (fun s c => s.flushDirty c) s
  let s := (s.gbarComplete l).modLaunch l (fun L => { L with quiet := some (action, 0), stopped := true, checkpoint := action == 1 })
  let ws := ((s.launchTeams l).flatMap s.teamWaves).filter (fun y => (s.wave y.1 y.2).dbg.isNone && !(s.wave y.1 y.2).isOver)
  let s := ws.foldl (fun s y => s.debugStop y.1 y.2 quietStop 0xFF) s
  let s := (s.launchTeams l).foldl (fun s t => s.modTeam t (fun T => T.askSaved quietStop)) s
  if action = 1 then ((s.launchTeams l).filter (fun t => !(s.team t).isSaved)).foldl State.startSave s else s

/-- Barriers of launches with a quiet stop armed are held until the conditions hold. -/
def State.settleQuiet (s : State) : State :=
  s.launches.foldl (fun s (e : Nat × Launch) => match (s.launch e.1).quiet with
    | none => s
    | some (a, u) =>
      if !s.gbarReady e.1 then s
      else if s.isStill e.1 then s.quietNow e.1 a
      else if u = 0 then s.modLaunch e.1 (fun L => { L with quiet := some (a, s.clocks + 2 ^ 20) })
      else s) s

/-- The limit passes: the `GBAR` completes, a stop record with slot 0xFE is written and the request stays armed. -/
def execQuietStopLimit (launch : Nat) (s : State) : Host.Outcome State Fault Refusal :=
  .next (match (s.launch launch).quiet with
    | some (a, u) =>
      if u ≠ 0 ∧ u ≤ s.clocks ∧ s.gbarReady launch = true ∧ s.isStill launch = false then
        let s := (s.gbarComplete launch).modLaunch launch (fun L => { L with quiet := some (a, 0) })
        (match (s.launchTeams launch).flatMap s.teamWaves with
          | y :: _ => (s.traceWave y.1 y.2 6 (leBytes 8 0 ++ leBytes 1 0 ++ leBytes 1 0xFE)).msi 3
          | [] => s)
      else s
    | none => s)

/-! ### Checkpoints and replay (R467, R468) -/

def checkpointVa : DWord := BitVec.ofNat 64 (8191 * 2 ^ 42 + 2 ^ 41 + 2 ^ 25)

/-- The checkpoint record; the places of its fields are the model's (log entry 46). -/
def State.checkpointRecord (s : State) (l : Nat) : List Byte :=
  let L := s.launch l
  leBytes 8 L.addr.toNat ++ leBytes 8 L.phase.toNat ++ leBytes 8 s.time ++ leBytes 4 (s.launchTeams l).length ++
  leBytes 4 (L.channel.getD 0) ++ zeros 32

/-- A checkpoint whose teams are saved: the record is written, and the teams are restored and stay stopped. -/
def State.settleCheckpoint (s : State) : State :=
  s.launches.foldl (fun s (e : Nat × Launch) =>
    let ts := s.launchTeams e.1
    if !(s.launch e.1).checkpoint || ts.any (fun t => !(s.team t).isSaved || (s.team t).saving) then s
    else if s.vaWaits .device (s.launch e.1).hdr.ctx checkpointVa false 64 then s
    else
      let L := s.launch e.1
      let s := match s.vaWrite .device L.hdr.ctx checkpointVa (s.checkpointRecord e.1) with
        | (s, some c) => (s.postFault { va := checkpointVa, ctx := L.hdr.ctx, client := 6, anon := 3, access := 1, cause := c } false).1
        | (s, none) => s
      let s := s.modLaunch e.1 (fun L => { L with checkpoint := false })
      let k : Checkpoint := { launch := s.launch e.1, teams := s.teams.filter (fun (y : Nat × Team) => y.2.launch == e.1) }
      let s := { s with checks := FMap.set s.checks e.1 k }
      match ts with
      | t :: _ => (s.restoreGroup t).getD s
      | [] => s) s

/-- A team leaves the cores, with what runs for it there; its slots and Bench stay its own. -/
def State.clearTeam (s : State) (t : Nat) : State :=
  let s := (s.teamWaves t).foldl (fun s y => s.removeWave y.1 y.2) s
  ((s.team t).members).foldl (fun s m => (s.stopWalks t m.core).modCore m.core (fun k => { k with
    jig := if k.jig.holder = some t then {} else k.jig
    copies := k.copies.filter (fun e => e.2.team != t)
    copyTurn := k.copyTurn.filter (fun i => (FMap.get k.copies i).all (fun j => j.team != t)) })) s

/-- A team that began after the checkpoint is gone, as if it had never begun. -/
def State.unbegin (s : State) (t : Nat) : State :=
  let ms := (s.team t).members
  let s := ms.foldl (fun s m => s.modCore m.core (fun k => { k with slots := FMap.erase k.slots m.slot })) (s.zeroBench ms (roundUp (s.team t).bench 4096))
  { s with teams := FMap.erase s.teams t }

/-- Whether the slots and Bench ranges of a team that has ended are free for it again, or kept for its successor. -/
def State.keepsPlace (s : State) (t : Nat) (T : Team) : Bool :=
  let size := roundUp T.bench 4096
  T.members.all (fun m =>
    (match FMap.get (s.core m.core).slots m.slot with
      | some u => u == t
      | none => !(s.usedSlots m.core).contains m.slot) &&
    (size == 0 || (s.usedRanges m.core).all (fun r => r.2 == 0 || decide (m.base + size ≤ r.1) || decide (r.1 + r.2 ≤ m.base))))

/-- A team of a checkpoint is there again, saved as it was; its waves run on once they are restored, also those that were to stop
then. -/
def State.revive (s : State) (e : Nat × Team) : State :=
  let back := fun (v : Saved) => { v with waves := v.waves.map (fun w => { w with
    freed := true, copy := { w.copy with stops := w.copy.stops.filter (fun d => d != quietStop) } }) }
  let s := match (FMap.get s.teams e.1).isNone, e.2.fromQueue with
    | true, some q => { s with queues := FMap.mod s.queues q {} (fun x => { x with running := x.running + 1 }) }
    | _, _ => s
  let s := e.2.members.foldl (fun s m => s.modCore m.core (fun k => { k with slots := FMap.set k.slots m.slot e.1 })) s
  { s with teams := FMap.set s.teams e.1 { e.2 with saved := e.2.saved.map back, quietSince := s.clocks } }

/-- A launch is as its checkpoint has it, with a `PHASE` and a quiet stop armed: the teams it has are cleared from the cores, those
that have begun since are gone, and those of the checkpoint are saved teams again. -/
def State.rewind (s : State) (l : Nat) (k : Checkpoint) (phase : Word) : State :=
  let now := s.launchTeams l
  let s := now.foldl State.clearTeam s
  let s := (now.filter (fun t => !(k.teams.map (·.1)).contains t)).foldl State.unbegin s
  let s := s.modLaunch l (fun L => { k.launch with
    phase := phase, stopped := false, quiet := some (0, 0), ran := L.ran, cancelled := L.cancelled })
  k.teams.foldl State.revive s

/-- The launch restores every team from its checkpoint, takes `PHASE` from the record and runs on to its next `GBAR`. It is
refused while the place of a team that has ended is another's (log entry 46). -/
def execQuietReplay (tag : Word) (ctx : Nat) (header : DWord) (s : State) : Host.Outcome State Fault Refusal :=
  s.onPhased tag ctx header (fun s l => match FMap.get s.checks l with
    | none => s.badArg tag
    | some k =>
      if !(s.launch l).stopped then s.badArg tag
      else
        let ended := k.teams.filter (fun e => (FMap.get s.teams e.1).isNone)
        let kept := s.modLaunch l (fun L => { L with retained := L.retained.filter (fun r => !(ended.map (fun e => e.2.ordinal)).contains r.1) })
        if !ended.all (fun e => kept.keepsPlace e.1 e.2) then s.refuse tag
        else match s.vaRead .device ctx checkpointVa 64 with
          | (s, .error _) => s.refuse tag
          | (s, .ok bs) =>
            let s := s.rewind l k (BitVec.ofNat 32 (fieldAt bs 8 4))
            ((match k.teams with
              | e :: _ => (s.restoreGroup e.1).getD s
              | [] => s)).okay tag)

end Sys2Proof.Machine
end

