-- ==== Sys2Proof/Machine/FmtIsa.lean ====
section
/-! DEFINITION. The format word `FMT` (R61, R62) and the SIMT words that are not instructions (R59, R60). -/
namespace Sys2Proof.Machine

/-- Whether the issuing wave has a pending format word. -/
def State.fmtPending (s : State) : Bool :=
  match s.issuing with
  | some x => srPP x.src.sr
  | none => false

/-- `FMT` (R62): the word and the lanes of the bundle are stored, aside when the clock's first bundle has just entered the
handler (R63, R434; log entry 91), and not while that bundle's own `FMT` is pending; a second one traps PREFIX_DOUBLE. -/
def execFmt (fa fb fc fd : BitVec 4) (gs : BitVec 2) (scl : BitVec 11) (sclc : Bool) (zp : BitVec 11) (zpc : Bool)
    (s : State) : Host.Outcome State Fault Refusal :=
  let w := match encodeSimt (.fmt fa fb fc fd gs scl sclc zp zpc) with | some (w, _) => w | none => 0
  simt s noOpnds s.fmtPending (fun x => if srPP x.src.sr then some (x.pre .prefixDouble x.base 0) else none)
    (fun s x _ =>
      let y := s.now x
      if srPP y.sr != srPP x.src.sr then .error .block
      else if srH y.sr != srH x.src.sr then
        .ok { s := s.modNow x (fun y => { y with asidePfx := w, asideMask := x.lanes, asidePP := true }) }
      else .ok { s := s.modNow x (fun y => { y with pfx := w, pfxMask := x.lanes, sr := setBit32 y.sr 29 true }) })

/-- Whether a word is of an instruction that a format word may precede (R62), by its major and minor. -/
def takesFormat (w : DWord) : Bool :=
  match majOf w, minorOf w with
  | 29, 0 => true | 29, 1 => true | 29, 2 => true
  | 30, 1 => true | 30, 2 => true
  | 11, 0 => true | 11, 1 => true | 11, 2 => true
  | 14, 1 => true
  | _, _ => false

/-- The cause of a word that is not an instruction, with `TRAPC.AUX`: after RESERVED_FIELD a pending format word comes
first (R60), and `CVT` checks `PART` against its effective formats before its operands (R118). -/
def wordCause (c : Cause) (aux : Nat) (w : DWord) (ext : Option DWord) (x : Iss) : Cause × Nat :=
  if c = .illegalFunction ∨ c = .illegalOperand then
    if srPP x.src.sr = true ∧ majOf w = 63 then (.prefixDouble, 0)
    else if srPP x.src.sr = true ∧ takesFormat w = false then (.prefixMisuse, 0)
    else if c = .illegalOperand ∧ majOf w = 11 ∧ minorOf w = 0 ∧ cvtPartBad x (opndsOf w (ext.getD 0)) = true then
      (.illegalFunction, 0)
    else (c, aux)
  else (c, aux)

/-- A word that is not an instruction traps before the guard (R59); `TRAPADDR` is the word (R431). -/
def execNonInstructionWord (c : Cause) (aux : Nat) (w : DWord) (x : Option DWord) (s : State) :
    Host.Outcome State Fault Refusal :=
  simt s noOpnds true
    (fun y => some (y.pre (wordCause c aux w x y).1 (if c = .zeroWord then 0 else w) (wordCause c aux w x y).2))
    (fun s _ _ => .ok { s := s })

end Sys2Proof.Machine
end

