-- ==== Sys2Proof/Machine/Fp.lean ====
section
/-! DEFINITION. The meanings of FP32, FP64 and HP2 (R113-R116). -/
namespace Sys2Proof.Machine

/-! ### One element -/

/-- Operands and result of the FP groups on encodings of a format: the mode is the effective one. -/
abbrev FpFn := Rm → Nat → Nat → Nat → Nat × Flags

def addFn (f : Fmt) : FpFn := fun m a b _ => fpAdd f m (value f a) (value f b)
def subFn (f : Fmt) : FpFn := fun m a b _ => fpSub f m (value f a) (value f b)
def mulFn (f : Fmt) : FpFn := fun m a b _ => fpMul f m (value f a) (value f b)
def macFn (f : Fmt) : FpFn := fun m a b c => fpMac f m (value f a) (value f b) (value f c)
def minFn (f : Fmt) : FpFn := fun _ a b _ => fpMinMax f false a b
def maxFn (f : Fmt) : FpFn := fun _ a b _ => fpMinMax f true a b
/-- `ones`: the all-ones result of the comparison (R114). -/
def setFn (f : Fmt) (c : Cmp) (ones : Nat) : FpFn := fun _ a b _ =>
  let r := fpCmp c (value f a) (value f b)
  (if r.1 then ones else 0, r.2)
def rndFn (f : Fmt) : FpFn := fun m a _ _ => fpRound f m (value f a)

/-- Bit of `FCLASS` (R115). -/
def fclassBit (b : Nat) : Nat :=
  match value .f32 b with
  | .nan _ _ _ q => if q then 1 else 0
  | .inf neg => if neg then 2 else 9
  | .num neg n _ =>
    let sub := b / 2 ^ 23 % 256 = 0
    if n = 0 then (if neg then 5 else 6)
    else if sub then (if neg then 4 else 7) else (if neg then 3 else 8)

/-- `FSCALE` (R115): x · 2^b rounded once. Beyond ±600 every scale gives the same result as ±600. -/
def scaleFn : FpFn := fun m a b _ =>
  match value .f32 a with
  | .num neg n d =>
    if n = 0 then (a, 0)
    else
      let e : Int := max (-600) (min 600 (intOf b 32 true))
      roundTo .f32 m (if 0 ≤ e then .num neg (n * 2 ^ e.toNat) d else .num neg n (d * 2 ^ (-e).toNat))
  | .inf _ => (a, 0)
  | .nan s f w q => roundTo .f32 m (.nan s f w q)

/-- `FEXP` (R115). -/
def fexpFn : FpFn := fun _ a _ _ =>
  match value .f32 a with
  | .nan _ _ _ _ => (2 ^ 31, fIV)
  | .inf _ => (2 ^ 31 - 1, fIV)
  | .num _ n d => if n = 0 then (2 ^ 31, fIV) else (truncInt (ilog2 n d) 32, 0)

/-! ### Lanes -/

/-- One element a lane. -/
def fpLane (r : Rm) (g : FpFn) : Iss → LaneFn := fun x _ a b c l => g (rmEff x.src.sr r) (a l) (b l) (c l)

/-- Two independent elements a lane (R113). -/
def hpLane (r : Rm) (g : FpFn) : Iss → LaneFn := fun x _ a b c l =>
  let m := rmEff x.src.sr r
  let e := fun (i : Nat) => g m (elemNat (a l) i 16) (elemNat (b l) i 16) (elemNat (c l) i 16)
  ((e 0).1 + (e 1).1 * 2 ^ 16, (e 0).2 ||| (e 1).2)

def hpFmt (bf : Bool) : Fmt := if bf then .bf16 else .f16

/-! ### FP32 -/

def execFadd (o : Opnds) (r : Rm) (s : State) : Host.Outcome State Fault Refusal :=
  alu s o (opItemsRm (.fadd o r) r) { b := 1, fp := true } (fpLane r (addFn .f32))
def execFsub (o : Opnds) (r : Rm) (s : State) : Host.Outcome State Fault Refusal :=
  alu s o (opItemsRm (.fsub o r) r) { b := 1, fp := true } (fpLane r (subFn .f32))
def execFmul (o : Opnds) (r : Rm) (s : State) : Host.Outcome State Fault Refusal :=
  alu s o (opItemsRm (.fmul o r) r) { b := 1, fp := true } (fpLane r (mulFn .f32))
def execFmac (o : Opnds) (r : Rm) (s : State) : Host.Outcome State Fault Refusal :=
  alu s o (opItemsRm (.fmac o r) r) { b := 1, c := 1, fp := true } (fpLane r (macFn .f32))
def execFmin (o : Opnds) (s : State) : Host.Outcome State Fault Refusal :=
  alu s o (opItems (.fmin o)) { b := 1, fp := true } (fpLane .rne (minFn .f32))
def execFmax (o : Opnds) (s : State) : Host.Outcome State Fault Refusal :=
  alu s o (opItems (.fmax o)) { b := 1, fp := true } (fpLane .rne (maxFn .f32))
def execFset (o : Opnds) (c : Cmp) (s : State) : Host.Outcome State Fault Refusal :=
  alu s o (opItems (.fset o c)) { b := 1, fp := true } (fpLane .rne (setFn .f32 c (2 ^ 32 - 1)))
def execFclass (o : Opnds) (s : State) : Host.Outcome State Fault Refusal :=
  alu s o (opItems (.fclass o)) { fp := true } (fpLane .rne (fun _ a _ _ => (2 ^ fclassBit a, 0)))
def execFrnd (o : Opnds) (r : Rm) (s : State) : Host.Outcome State Fault Refusal :=
  alu s o (opItemsRm (.frnd o r) r) { fp := true } (fpLane r (rndFn .f32))
def execFscale (o : Opnds) (r : Rm) (s : State) : Host.Outcome State Fault Refusal :=
  alu s o (opItemsRm (.fscale o r) r) { b := 1, fp := true } (fpLane r scaleFn)
def execFexp (o : Opnds) (s : State) : Host.Outcome State Fault Refusal :=
  alu s o (opItems (.fexp o)) { fp := true } (fpLane .rne fexpFn)

/-! ### FP64 -/

/-- Operands of an FP64 form: pairs (R113). -/
def dShape (b c : Nat) : Shape := { a := 2, b := b, c := c, d := 2, fp := true }

def execDadd (o : Opnds) (r : Rm) (s : State) : Host.Outcome State Fault Refusal :=
  alu s o (opItemsRm (.dadd o r) r) (dShape 2 0) (fpLane r (addFn .f64))
def execDsub (o : Opnds) (r : Rm) (s : State) : Host.Outcome State Fault Refusal :=
  alu s o (opItemsRm (.dsub o r) r) (dShape 2 0) (fpLane r (subFn .f64))
def execDmul (o : Opnds) (r : Rm) (s : State) : Host.Outcome State Fault Refusal :=
  alu s o (opItemsRm (.dmul o r) r) (dShape 2 0) (fpLane r (mulFn .f64))
def execDmac (o : Opnds) (r : Rm) (s : State) : Host.Outcome State Fault Refusal :=
  alu s o (opItemsRm (.dmac o r) r) (dShape 2 2) (fpLane r (macFn .f64))
def execDmin (o : Opnds) (s : State) : Host.Outcome State Fault Refusal :=
  alu s o (opItems (.dmin o)) (dShape 2 0) (fpLane .rne (minFn .f64))
def execDmax (o : Opnds) (s : State) : Host.Outcome State Fault Refusal :=
  alu s o (opItems (.dmax o)) (dShape 2 0) (fpLane .rne (maxFn .f64))
/-- `DSET` (R114): one 32-bit register. -/
def execDset (o : Opnds) (c : Cmp) (s : State) : Host.Outcome State Fault Refusal :=
  alu s o (opItems (.dset o c)) { dShape 2 0 with d := 1 } (fpLane .rne (setFn .f64 c (2 ^ 32 - 1)))
def execDrnd (o : Opnds) (r : Rm) (s : State) : Host.Outcome State Fault Refusal :=
  alu s o (opItemsRm (.drnd o r) r) (dShape 0 0) (fpLane r (rndFn .f64))

/-! ### HP2 -/

def execHpadd (o : Opnds) (bf : Bool) (r : Rm) (s : State) : Host.Outcome State Fault Refusal :=
  alu s o (opItemsRm (.hpadd o bf r) r) { b := 1, fp := true } (hpLane r (addFn (hpFmt bf)))
def execHpmul (o : Opnds) (bf : Bool) (r : Rm) (s : State) : Host.Outcome State Fault Refusal :=
  alu s o (opItemsRm (.hpmul o bf r) r) { b := 1, fp := true } (hpLane r (mulFn (hpFmt bf)))
def execHpmac (o : Opnds) (bf : Bool) (r : Rm) (s : State) : Host.Outcome State Fault Refusal :=
  alu s o (opItemsRm (.hpmac o bf r) r) { b := 1, c := 1, fp := true } (hpLane r (macFn (hpFmt bf)))
def execHpmin (o : Opnds) (bf : Bool) (s : State) : Host.Outcome State Fault Refusal :=
  alu s o (opItems (.hpmin o bf)) { b := 1, fp := true } (hpLane .rne (minFn (hpFmt bf)))
def execHpmax (o : Opnds) (bf : Bool) (s : State) : Host.Outcome State Fault Refusal :=
  alu s o (opItems (.hpmax o bf)) { b := 1, fp := true } (hpLane .rne (maxFn (hpFmt bf)))
def execHpset (o : Opnds) (bf : Bool) (c : Cmp) (s : State) : Host.Outcome State Fault Refusal :=
  alu s o (opItems (.hpset o bf c)) { b := 1, fp := true } (hpLane .rne (setFn (hpFmt bf) c 0xFFFF))

end Sys2Proof.Machine
end

