-- ==== Sys2Proof/Machine/Ialu.lean ====
section
/-! DEFINITION. The meanings of IALU (R101-R104), IMUL without the queued divisions (R105), BITS (R107, R108), ADDR
(R109), MOVE (R110, R111) and PRED (R112). -/
namespace Sys2Proof.Machine

/-! ### IALU (R101, R102) -/

/-- Signedness that a form takes for its elements: `.B32` is unsigned but for INEG and IABS (R98). -/
def execIadd (o : Opnds) (t : ITy) (sat : Bool) (s : State) : Host.Outcome State Fault Refusal :=
  alu s o (opItems (.iadd o t sat)) { b := 1 }
    (laneFn (fun x y _ => lanewise2 t (ITy.signed t) (fun a b => satIf sat t (ITy.signed t) (a + b)) x y))

def execIsub (o : Opnds) (t : ITy) (sat : Bool) (s : State) : Host.Outcome State Fault Refusal :=
  alu s o (opItems (.isub o t sat)) { b := 1 }
    (laneFn (fun x y _ => lanewise2 t (ITy.signed t) (fun a b => satIf sat t (ITy.signed t) (a - b)) x y))

/-- The carry or borrow chain (R102, R103): the sum goes to D, the carry predicate takes the carry out of the active
lanes. `sub`: borrow. -/
def carryBody (o : Opnds) (sub : Bool) (s : State) (x : Iss) (act : Mask) : Except Stop Fx :=
  let h : Shape := { b := 1, c := 1, pc := true, elig := false }
  let res := fun (a b c : Nat) => if sub then (a : Int) - b - c else (a : Int) + b + c
  match x.namesOk act (h.srcs o ++ (if dclsOf o .vec = .vec then [dstOpd o 1] else [])) with
  | .error e => .error e
  | .ok _ => match s.readOpds x act o (h.srcs o) with
    | .error e => .error e
    | .ok vs =>
      let v := h.pick vs
      let t := fun (l : Nat) => res (v.1 l) (v.2.1 l) (v.2.2 l)
      match (if dclsOf o .vec = .vec then x.names act 3 o.d.toNat 1 else .ok []) with
      | .error e => .error e
      | .ok ns => match s.putResult x act o h none ns (fun l => (truncInt (t l) 32, 0)) with
        | .error e => .error e
        | .ok fx =>
          let lanes := if dclsOf o .vec = .sca then (match lowest act with
            | some l => if (if sub then decide (t l < 0) else decide (2 ^ 32 ≤ t l)) then act else 0
            | none => 0)
            else maskOf (fun l => act.getLsbD l && (if sub then decide (t l < 0) else decide (2 ^ 32 ≤ t l)))
          match fx.s.putPred x act (o.c.toNat - 144) lanes with
          | .error e => .error e
          | .ok s => .ok { fx with s := s }

def execIaddc (o : Opnds) (_t : ITy) (s : State) : Host.Outcome State Fault Refusal := simt s o false noPre (carryBody o false)
def execIsubb (o : Opnds) (_t : ITy) (s : State) : Host.Outcome State Fault Refusal := simt s o false noPre (carryBody o true)

def execIneg (o : Opnds) (t : ITy) (sat : Bool) (s : State) : Host.Outcome State Fault Refusal :=
  alu s o (opItems (.ineg o t sat)) {}
    (laneFn (fun x _ _ => lanewise1 t (signedOrB32 t) (fun a => satIf sat t (signedOrB32 t) (-a)) x))

def execIabs (o : Opnds) (t : ITy) (sat : Bool) (s : State) : Host.Outcome State Fault Refusal :=
  alu s o (opItems (.iabs o t sat)) {}
    (laneFn (fun x _ _ => lanewise1 t (signedOrB32 t) (fun a => satIf sat t (signedOrB32 t) (if a < 0 then -a else a)) x))

def execImin (o : Opnds) (t : ITy) (s : State) : Host.Outcome State Fault Refusal :=
  alu s o (opItems (.imin o t)) { b := 1 }
    (laneFn (fun x y _ => lanewise2 t (ITy.signed t) (fun a b => if a ≤ b then a else b) x y))

def execImax (o : Opnds) (t : ITy) (s : State) : Host.Outcome State Fault Refusal :=
  alu s o (opItems (.imax o t)) { b := 1 }
    (laneFn (fun x y _ => lanewise2 t (ITy.signed t) (fun a b => if a ≤ b then b else a) x y))

def execAnd (o : Opnds) (t : ITy) (s : State) : Host.Outcome State Fault Refusal :=
  alu s o (opItems (.and o t)) { b := 1 } (laneFn (fun x y _ => x &&& y))
def execOr (o : Opnds) (t : ITy) (s : State) : Host.Outcome State Fault Refusal :=
  alu s o (opItems (.or o t)) { b := 1 } (laneFn (fun x y _ => x ||| y))
def execXor (o : Opnds) (t : ITy) (s : State) : Host.Outcome State Fault Refusal :=
  alu s o (opItems (.xor o t)) { b := 1 } (laneFn (fun x y _ => x ^^^ y))
def execAndn (o : Opnds) (t : ITy) (s : State) : Host.Outcome State Fault Refusal :=
  alu s o (opItems (.andn o t)) { b := 1 } (laneFn (fun x y _ => x &&& ~~~y))
def execNot (o : Opnds) (t : ITy) (s : State) : Host.Outcome State Fault Refusal :=
  alu s o (opItems (.not o t)) {} (laneFn (fun x _ _ => ~~~x))

def execShl (o : Opnds) (t : ITy) (s : State) : Host.Outcome State Fault Refusal :=
  alu s o (opItems (.shl o t)) { b := 1 } (laneFn (fun x y _ => lanewiseU t shlElem x y))
def execShr (o : Opnds) (t : ITy) (s : State) : Host.Outcome State Fault Refusal :=
  alu s o (opItems (.shr o t)) { b := 1 } (laneFn (fun x y _ => lanewiseU t shrElem x y))
def execSar (o : Opnds) (t : ITy) (s : State) : Host.Outcome State Fault Refusal :=
  alu s o (opItems (.sar o t)) { b := 1 } (laneFn (fun x y _ => lanewiseU t sarElem x y))
def execRol (o : Opnds) (t : ITy) (s : State) : Host.Outcome State Fault Refusal :=
  alu s o (opItems (.rol o t)) { b := 1 } (laneFn (fun x y _ => lanewiseU t rolElem x y))

/-- `ISET` (R101, R104): all ones where the comparison holds; a predicate destination takes it as a bit. -/
def execIset (o : Opnds) (t : ITy) (c : Cmp) (s : State) : Host.Outcome State Fault Refusal :=
  alu s o (opItems (.iset o t c)) { b := 1 }
    (laneFn (fun x y _ => lanewise2 t (ITy.signed t) (fun a b => if intCmp c a b then -1 else 0) x y))

/-! ### IMUL (R105) -/

def execImul (o : Opnds) (t : ITy) (s : State) : Host.Outcome State Fault Refusal :=
  alu s o (opItems (.imul o t)) { b := 1 } (laneFn (fun x y _ => lanewise2 t (ITy.signed t) (fun a b => a * b) x y))
def execImulh (o : Opnds) (t : ITy) (s : State) : Host.Outcome State Fault Refusal :=
  alu s o (opItems (.imulh o t)) { b := 1 }
    (laneFn (fun x y _ => lanewise2 t (ITy.signed t) (fun a b => a * b / 2 ^ ITy.width t) x y))
def execImad (o : Opnds) (t : ITy) (s : State) : Host.Outcome State Fault Refusal :=
  alu s o (opItems (.imad o t)) { b := 1, c := 1 }
    (laneFn (fun x y z => lanewise3 t (ITy.signed t) (fun a b c => a * b + c) x y z))
/-- `IMADW` (R105): a 64-bit sum of a 32-bit product and a pair. -/
def execImadw (o : Opnds) (t : ITy) (s : State) : Host.Outcome State Fault Refusal :=
  alu s o (opItems (.imadw o t)) { b := 1, c := 2, d := 2 } (fun _ _ a b c l =>
    (truncInt (intOf (a l) 32 (ITy.signed t) * intOf (b l) 32 (ITy.signed t) + intOf (c l) 64 (ITy.signed t)) 64, 0))

/-! ### BITS (R107, R108) -/

def execPopc (o : Opnds) (t : ITy) (s : State) : Host.Outcome State Fault Refusal :=
  alu s o (opItems (.popc o t)) {} (laneFn (fun x _ _ => lanewiseU t (fun w a _ => popElem w a) x 0))
def execClz (o : Opnds) (t : ITy) (s : State) : Host.Outcome State Fault Refusal :=
  alu s o (opItems (.clz o t)) {} (laneFn (fun x _ _ => lanewiseU t (fun w a _ => clzElem w a) x 0))
def execCtz (o : Opnds) (t : ITy) (s : State) : Host.Outcome State Fault Refusal :=
  alu s o (opItems (.ctz o t)) {} (laneFn (fun x _ _ => lanewiseU t (fun w a _ => ctzElem w a) x 0))
def execBrev (o : Opnds) (t : ITy) (s : State) : Host.Outcome State Fault Refusal :=
  alu s o (opItems (.brev o t)) {} (laneFn (fun x _ _ => lanewiseU t (fun w a _ => brevElem w a) x 0))
def execBfe (o : Opnds) (t : ITy) (s : State) : Host.Outcome State Fault Refusal :=
  alu s o (opItems (.bfe o t)) { b := 1 } (laneFn (fun x y _ => bfe (ITy.signed t) x y))
def execBfi (o : Opnds) (t : ITy) (s : State) : Host.Outcome State Fault Refusal :=
  alu s o (opItems (.bfi o t)) { b := 1, c := 1 } (laneFn bfi)
def execFshl (o : Opnds) (t : ITy) (s : State) : Host.Outcome State Fault Refusal :=
  alu s o (opItems (.fshl o t)) { b := 1, c := 1 } (laneFn fshlWord)
def execFshr (o : Opnds) (t : ITy) (s : State) : Host.Outcome State Fault Refusal :=
  alu s o (opItems (.fshr o t)) { b := 1, c := 1 } (laneFn fshrWord)
def execBperm (o : Opnds) (t : ITy) (s : State) : Host.Outcome State Fault Refusal :=
  alu s o (opItems (.bperm o t)) { b := 1, c := 1 } (laneFn bpermWord)

/-! ### ADDR (R109) -/

def execLea (o : Opnds) (k : BitVec 3) (s : State) : Host.Outcome State Fault Refusal :=
  alu s o (opItems (.lea o k)) { a := 2, b := 1, d := 2 } (fun _ _ a b _ l =>
    (truncInt ((a l : Int) + intOf (b l) 32 true * 2 ^ k.toNat) 64, 0))
def execIadd64 (o : Opnds) (s : State) : Host.Outcome State Fault Refusal :=
  alu s o (opItems (.iadd64 o)) { a := 2, b := 2, d := 2 } (fun _ _ a b _ l => ((a l + b l) % 2 ^ 64, 0))
def execIsub64 (o : Opnds) (s : State) : Host.Outcome State Fault Refusal :=
  alu s o (opItems (.isub64 o)) { a := 2, b := 2, d := 2 } (fun _ _ a b _ l =>
    (truncInt ((a l : Int) - (b l : Int)) 64, 0))
def execIset64 (o : Opnds) (c : Cmp) (signed : Bool) (s : State) : Host.Outcome State Fault Refusal :=
  alu s o (opItems (.iset64 o c signed)) { a := 2, b := 2 } (fun _ _ a b _ l =>
    (if intCmp c (intOf (a l) 64 signed) (intOf (b l) 64 signed) then 2 ^ 32 - 1 else 0, 0))

/-! ### MOVE (R110, R111) -/

/-- Registers of an operand that `.PAIR` widens. -/
def pairN (pair : Bool) : Nat := if pair then 2 else 1

/-- `MOV` (R110): with a predicate-mask destination, lane `l` takes bit `l` of the value. -/
def execMov (o : Opnds) (pair : Bool) (s : State) : Host.Outcome State Fault Refusal :=
  alu s o (opItems (.mov o pair)) { a := pairN pair, d := pairN pair } (fun _ _ a _ _ l => (a l, 0))
/-- `MOVI` (R110): `a` + `b`·`l`, wrapping at the operand width. -/
def execMovi (o : Opnds) (pair : Bool) (s : State) : Host.Outcome State Fault Refusal :=
  alu s o (opItems (.movi o pair)) { a := pairN pair, b := pairN pair, d := pairN pair } (fun _ _ a b _ l =>
    ((a l + b l * l) % 2 ^ (32 * pairN pair), 0))
def execSel (o : Opnds) (pair : Bool) (s : State) : Host.Outcome State Fault Refusal :=
  alu s o (opItems (.sel o pair)) { a := pairN pair, b := pairN pair, c := 1, pc := true, d := pairN pair }
    (fun _ _ a b c l => (if c l = 1 then a l else b l, 0))

/-- `SMOV` (R111): the value of one lane to a scalar. A PENDING source leaves the scalar PENDING, or makes a mailbox
destination wait (R95). -/
def smovBody (o : Opnds) (pair : Bool) (s : State) (x : Iss) (act : Mask) : Except Stop Fx :=
  let n := pairN pair
  match x.names act 0 o.a.toNat n with
  | .error e => .error e
  | .ok ns =>
    let ps := ns.map x.src.reg
    let rs := ps.map (pregOf x.phys)
    let dst := o.d.toNat
    if rs.any (·.pending) && o.ea then
      let bad := (ns.zip rs).find? (fun p => p.2.pending)
      .error (x.trap act .regEmpty (BitVec.ofNat 64 (match bad with | some p => p.1 | none => 0)) 0)
    else match s.readOpd x act o (fieldB o) with
      | .error e => .error e
      | .ok b =>
        let lane := b.nat ((lowest act).getD 0) % 32
        if rs.any (·.pending) then
          if 128 ≤ dst then .error .block
          else if (List.range n).any (fun i => (s.now x).sPend.getLsbD (dst + i)) then .error .block
          else
            let (id, s) := s.newId
            let got := fun (r : PReg) => if r.pending then [] else leBytes 4 (vlane r.data lane).toNat
            let las : List LaneAcc := (ns.zip (ps.zip rs)).map (fun p => {
              lane := lane, va := BitVec.ofNat 64 p.1, key := p.2.1, data := got p.2.2 })
            let op : Op := { id := id, wave := x.w, kind := .smov, pc := x.pc, bundle := x.lanes, active := act, lanes := las,
                             dest := .sca dst n }
            let s := s.modCore x.c (fun k => { k with ops := k.ops ++ [op] })
            .ok { s := s.modNow x (fun y => y.pendScalars dst n) }
        else if rs.any (·.poison) then .error (x.trap act .uncorrectable 0)
        else match s.putScalar x act dst (rs.map (fun r => vlane r.data lane)) with
          | .error e => .error e
          | .ok s => .ok { s := s }

def execSmov (o : Opnds) (pair : Bool) (s : State) : Host.Outcome State Fault Refusal := simt s o false noPre (smovBody o pair)

/-- Whether a name is FULL (R111, R265). -/
def Iss.isFull (x : Iss) (c : Cls) (n : Nat) : Bool :=
  match c with
  | .vec => !(pregOf x.phys (x.src.reg n)).pending
  | _ => if n < 128 then !x.src.sPend.getLsbD n
    else if n < 136 then (nth x.src.mbox (n - 128) {}).full
    else true

/-- `FTST` (R111): tests one name, or both names of a pair, and never blocks but on a predicate that a `ZFLG` will write
(R154). -/
def ftstBody (o : Opnds) (pair : Bool) (s : State) (x : Iss) (act : Mask) : Except Stop Fx :=
  match (if o.ca = .vec then x.names act 0 o.a.toNat (pairN pair) else .ok ((List.range (pairN pair)).map (o.a.toNat + ·))) with
  | .error e => .error e
  | .ok ns =>
    let named := fun (ps : List Nat) (n : Nat) => o.ca == .sca && decide (144 ≤ n) && ps.contains (n - 144)
    let full := ns.all (fun n => x.isFull o.ca n && !named (s.pinPreds x) n)
    if ns.any (named (s.zflgPreds x)) then .error .block
    else match s.putPred x act o.d.toNat (if full then act else 0) with
    | .error e => .error e
    | .ok s => .ok { s := s }

/-- The reads of `FTST` take no mailbox. -/
def execFtst (o : Opnds) (pair : Bool) (s : State) : Host.Outcome State Fault Refusal := 
  simt s o false noPre (ftstBody o pair) .pred

/-! ### PRED (R112) -/

def execPlop (o : Opnds) (tt : BitVec 4) (s : State) : Host.Outcome State Fault Refusal :=
  alu s o (opItems (.plop o tt)) { b := 1, pa := true, pb := true, dflt := .pred } (fun _ _ a b _ l =>
    (if tt.getLsbD (2 * a l + b l) then 1 else 0, 0))
def execPset (o : Opnds) (v : Bool) (s : State) : Host.Outcome State Fault Refusal :=
  alu s o (opItems (.pset o v)) { a := 0, dflt := .pred } (fun _ _ _ _ _ _ => (if v then 1 else 0, 0))
/-- `PMOV` (R112): bit `l` of a scalar or immediate, or whether a vector lane is not 0. -/
def execPmov (o : Opnds) (s : State) : Host.Outcome State Fault Refusal :=
  alu s o (opItems (.pmov o)) { dflt := .pred } (fun _ _ a _ _ l =>
    (if o.ca = .vec then a l else if (a l).testBit l then 1 else 0, 0))

end Sys2Proof.Machine
end

