-- ==== Sys2Proof/Machine/Flow.lean ====
section
/-! DEFINITION. FLOW: branches (R375, R376), return stacks (R377, R378), `BRV` (R379) and `RGHINT` (R380). -/
namespace Sys2Proof.Machine

/-! ### Targets (R375) -/

/-- The target of an offset operand. -/
def offsetTarget (x : Iss) (o : Opnds) (d : Opd) : DWord := x.pc + (BitVec.ofNat 32 (immOf o d)).signExtend 64 * 8

/-- What a lane's flow comes to: where it goes, or its fault. -/
inductive Flow where
  | goto_ (t : DWord)
  | fault (e : Cause) (addr : DWord)
  deriving DecidableEq, Repr

/-- A target that is not a multiple of 8 faults its lane. -/
def flowTo (t : DWord) : Flow := if t.toNat % 8 = 0 then .goto_ t else .fault .misalignedPc t

/-- The trap of the faulted lanes: of the causes, MISALIGNED_PC first, and its lowest lane's address (R290, R375). -/
def flowTrap (x : Iss) (fs : List (Nat × Cause × DWord)) : Option Trap :=
  match fs.filter (fun f => f.2.1 == .misalignedPc) ++ fs with
  | [] => none
  | f :: _ => some (x.faulted f.2.1 (maskOf (fun l => (fs.map (·.1)).contains l)) f.2.2)

/-- The lanes go where their flows say; faulted lanes stay. A fault of the spill area is recorded with its access (R415). -/
def flowFx (s : State) (x : Iss) (fl : List (Nat × Flow)) (access : Nat := 0) : Fx :=
  let fs := fl.filterMap (fun e => match e.2 with | .fault c a => some (e.1, c, a) | .goto_ _ => none)
  { s := s
    after := (flowTrap x fs).map (fun t => if t.cause = .callSpillFault then { t with post := some (0, access) } else t)
    goes := some (fun l => match fl.find? (·.1 == l) with | some (_, .goto_ t) => t | _ => x.next) }

/-! ### Branches (R376, R379) -/

def execBra (o : Opnds) (s : State) : Host.Outcome State Fault Refusal :=
  simt s o false noPre (fun s x _ => .ok { s := s, goes := some (fun _ => offsetTarget x o (fieldA o)) })

def execJmp (o : Opnds) (s : State) : Host.Outcome State Fault Refusal :=
  simt s o false noPre (fun s x act => match s.sources x act o [fieldA o 2] with
    | .error e => .error e
    | .ok vs =>
      .ok (flowFx s x ((lanesOf act).map (fun l => (l, flowTo (BitVec.ofNat 64 ((nth vs 0 Src.none).nat l)))))))

/-- Whether a vote of the active lanes holds. -/
def voteHolds (v : BrVote) (act p : Mask) : Bool :=
  match v with
  | .all => act &&& ~~~p == 0 | .any => act &&& p != 0 | .none => act &&& p == 0

def execBrv (o : Opnds) (v : BrVote) (s : State) : Host.Outcome State Fault Refusal :=
  simt s o false noPre (fun s x act => match s.sources x act o [fieldA o] with
    | .error e => .error e
    | .ok vs =>
      let p : Mask := BitVec.ofNat 32 (once act vs 0)
      let t := offsetTarget x o (fieldB o)
      .ok { s := s, goes := if voteHolds v act p then some (fun _ => t) else none })

/-! ### Return stacks (R377, R378) -/

/-- Address of spilled entry `j` of a lane. -/
def spillVa (x : Wave) (j l : Nat) : DWord := x.rsp + BitVec.ofNat 64 (8 * (32 * j + l))

/-- What a stack access comes to: the machine after it, a fault of the lane, or a wait of the instruction. -/
inductive StackRes where
  | ok (s : State) (v : DWord)
  | fault (e : Cause) (addr : DWord)
  | wait

/-- A spill or a fill, which needs `RD` and `WR` (R411). -/
def spillForm (k : OpKind) : MemForm := { kind := k, use := .atomic, size := 8 }

/-- Store or load one entry of the spill area as a plain CORE-path access of the lane; any fault is CALL_SPILL_FAULT. -/
def State.spillAccess (s : State) (x : Iss) (k : OpKind) (va : DWord) (l : Nat) (v : DWord) : StackRes :=
  if x.src.rsp.toNat % 8 ≠ 0 then .fault .callSpillFault va
  else match s.placeLane x.c x.src.team x.ctx (spillForm k) va false with
    | (_, .error _) => .fault .callSpillFault va
    | (s, .ok p) =>
      let a : LaneAcc := {
        lane := l, va := va, key := p.key, cpol := p.cpol, sealed := p.sealed, data := leBytes 8 v.toNat }
      let op : Op := { id := s.fresh, wave := x.w, kind := k, active := laneBit l, size := 8 }
      if !s.memReady x.c op a then .wait
      else
        let (s, r) := if k == .store then s.storeLane x.c x.src.team x.ctx op a else s.readLane x.c x.src.team x.ctx op a
        match r with
        | .got bs => .ok s (BitVec.ofNat 64 (leWord bs))
        | .wait => .wait
        | .fault _ _ => .fault .callSpillFault va

/-- Push an address on a lane's stack, storing its oldest entry first when the stack is full. -/
def State.pushLane (s : State) (x : Iss) (l : Nat) (v : DWord) : StackRes :=
  let y := s.now x
  let st := nth y.rstack l []
  let n := nth y.rspill l 0
  let put := fun (s : State) (st : List DWord) (n : Nat) => s.modNow x (fun y =>
    { y with rstack := setNth y.rstack l (v :: st), rspill := setNth y.rspill l n })
  if st.length < 16 then .ok (put s st n) 0
  else
    let va := spillVa x.src n l
    if 65535 ≤ n then .fault .callSpillFault va
    else match s.spillAccess x .store va l (nth st 15 0) with
      | .ok s _ => .ok (put s (st.take 15) (n + 1)) 0
      | r => r

/-- Pop a lane's newest entry, loading it when none is on chip. -/
def State.popLane (s : State) (x : Iss) (l : Nat) : StackRes :=
  let y := s.now x
  let n := nth y.rspill l 0
  match nth y.rstack l [] with
  | v :: r => .ok (s.modNow x (fun y => { y with rstack := setNth y.rstack l r })) v
  | [] =>
    if n = 0 then .fault .retUnderflow 0
    else match s.spillAccess x .load (spillVa x.src (n - 1) l) l 0 with
      | .ok s v => .ok (s.modNow x (fun y => { y with rspill := setNth y.rspill l (n - 1) })) v
      | r => r

/-- Apply a stack step to each lane in order; a faulted lane leaves the state as it was. `none`: the bundle waits. -/
def stackLanes (f : State → Nat → StackRes × (DWord → Flow)) : State → List Nat → Option (State × List (Nat × Flow))
  | s, [] => some (s, [])
  | s, l :: r => match f s l with
    | (.wait, _) => none
    | (.fault e a, _) => (stackLanes f s r).map (fun p => (p.1, (l, Flow.fault e a) :: p.2))
    | (.ok t v, g) => match g v with
      | .fault e a => (stackLanes f s r).map (fun p => (p.1, (l, Flow.fault e a) :: p.2))
      | .goto_ g => (stackLanes f t r).map (fun p => (p.1, (l, Flow.goto_ g) :: p.2))

/-- The bundle's flow after a stack step of each active lane, with the access that a spill or fill makes. -/
def stackFx (s : State) (x : Iss) (act : Mask) (access : Nat) (f : State → Nat → StackRes × (DWord → Flow)) : Except Stop Fx :=
  match stackLanes f s (lanesOf act) with
  | none => .error .block
  | some (s, fl) => .ok (flowFx s x fl access)

/-- A call of each active lane to its target. -/
def callFx (s : State) (x : Iss) (act : Mask) (t : Nat → DWord) : Except Stop Fx :=
  stackFx s x act 1 (fun s l => (s.pushLane x l x.next, fun _ => flowTo (t l)))

def execCall (o : Opnds) (s : State) : Host.Outcome State Fault Refusal :=
  simt s o false noPre (fun s x act => callFx s x act (fun _ => offsetTarget x o (fieldA o)))

def execCalli (o : Opnds) (s : State) : Host.Outcome State Fault Refusal :=
  simt s o false noPre (fun s x act => match s.sources x act o [fieldA o 2] with
    | .error e => .error e
    | .ok vs => callFx s x act (fun l => BitVec.ofNat 64 ((nth vs 0 Src.none).nat l)))

def execRet (o : Opnds) (s : State) : Host.Outcome State Fault Refusal :=
  simt s o false noPre (fun s x act => stackFx s x act 0 (fun s l => (s.popLane x l, flowTo)))

/-! ### RGHINT (R380) -/

def execRghint (o : Opnds) (s : State) : Host.Outcome State Fault Refusal :=
  simt s o false noPre (fun s x _ =>
    .ok { s := s.modNow x (fun y => { y with rghint := some (offsetTarget x o (fieldA o), 64) }) })

end Sys2Proof.Machine
end

