-- ==== Sys2Proof/Machine/Sys.lean ====
section
/-! DEFINITION. SYS: the ends of threads and of handler mode (R444), software traps (R443), `ERET` (R435), the special
registers (R51, R445, R446), `SLEEP` and `YLD` (R447), and `TMARK` (R448). -/
namespace Sys2Proof.Machine

def execNop (o : Opnds) (s : State) : Host.Outcome State Fault Refusal := simt s o false noPre (fun s _ _ => .ok { s := s })

/-! ### Software traps (R443) -/

/-- A trap of class A with a code as its address. -/
def softTrap (o : Opnds) (e : Cause) (s : State) : Host.Outcome State Fault Refusal :=
  simt s o false noPre (fun s x act => match s.sources x act o [fieldA o] with
    | .error e => .error e
    | .ok vs => .ok { s := s, after := some (x.after e act (BitVec.ofNat 64 (once act vs 0))) })

def execTrap (o : Opnds) (s : State) : Host.Outcome State Fault Refusal := softTrap o .userTrap s
def execBrk (o : Opnds) (s : State) : Host.Outcome State Fault Refusal := softTrap o .breakpoint s

/-! ### HALT (R444) -/

/-- Waits that end with handler mode (R435 step 2): of a handler thread, of a thread that gets another address, and, when step 2
applies, of one at the trapping instruction, which re-executes it or goes on past it. -/
def State.leaveWaits (s : State) (c w : Nat) (step2 : Bool) : State :=
  let x := s.wave c w
  (x.waits.filter (fun v => v.lanes &&& x.handler != 0 || (lanesOf (v.lanes &&& x.live)).any (fun l =>
      nth x.resume l 0 != v.pc || (step2 && x.trap.stands == some (nth x.resume l 0))))).foldl (fun s v =>
    if v.stays then s.dropWait c w v else s.abandon c w v) s

/-- Whether the held trap that comes next is asynchronous. -/
def Wave.heldAsync (x : Wave) : Bool := match x.held with | h :: _ => h.trap.cls == clsB | [] => false

/-- The length of the instruction at `TRAPPC`, which is read through the wave's fetch where a thread of `y` skips it: `none` when the
fetch misses (R14, R435 step 2). -/
def State.lenFor (s : State) (c w : Nat) (y : Wave) : State × Option Nat :=
  if y.skips then s.lenThere c w (s.ctxOf y) y.trap.trappc else (s, some 8)

/-- Handler mode ends when no handler thread remains, and a wave whose threads have all ended is over. A held asynchronous trap
abandons the waits of the wave (R436). `src`: the wave as the instruction read it. -/
def State.afterEnd (s : State) (c w : Nat) (src : Wave) : State :=
  match s.wave? c w with
  | none => s
  | some x =>
    if x.isOver then s.waveOver c w
    else if srH x.sr && x.handler &&& x.live == 0 then
      let s := s.leaveWaits c w (!x.held.isEmpty)
      let s := if x.heldAsync then s.abandonAll c w else s
      let (s, n) := if x.held.isEmpty then (s, none) else s.lenFor c w (x.asRead src)
      s.modWave c w (fun y => y.handlerOver (n.getD 8) (s.launchOf x).hdr.handler)
    else s

/-- Whether the end of handler threads would deliver a held asynchronous trap while the wave is at no boundary: that trap waits, and
the instruction with it (R436; log entry 83). -/
def Wave.awaitsBoundary (x : Wave) (left : Mask) : Bool :=
  srH x.sr && left &&& x.live &&& x.handler == 0 && left &&& x.live != 0 && x.heldAsync && !x.atBoundary

/-- What the end of handler threads reads at `TRAPPC`, where it delivers a held trap: `none` when the fetch misses (R14, R435 step 2). -/
def State.endLen (s : State) (x : Iss) (left : Mask) : State × Option Nat :=
  let y := s.now x
  if srH y.sr && left &&& y.live &&& y.handler == 0 && !y.held.isEmpty && !s.leftHandler x then
    s.lenFor x.c x.w { y.asRead x.src with ended := y.ended ||| ~~~left }
  else (s, some 8)

/-- `HALT`: the active threads end. -/
def execHalt (o : Opnds) (retain : Bool) (s : State) : Host.Outcome State Fault Refusal :=
  match simt s o false noPre (fun s x act =>
      if (s.now x).awaitsBoundary (~~~act) then .error .block
      else match s.endLen x (~~~act) with
      | (s, none) => .error (.miss s)
      | (s, some _) =>
        let s := if retain then s.modTeam x.src.team (fun t => { t with retain := true }) else s
        .ok { s := s.endThreads x.c x.w act }) with
  | .next t => .next (match s.issuing with
    | some x => t.afterEnd x.c x.w (if t.leftHandler x then t.now x else x.src)
    | none => t)
  | r => r

/-! ### ERET (R435) -/

/-- The wave `y` after an `ERET` that read the registers of `src`: the held trap is delivered, or handler mode ends. What another bundle
of the clock has written to them stands (R97, R446). -/
def Wave.afterEret (y src : Wave) (len : Nat) (handler : DWord) : Wave :=
  let x := y.asRead src
  match x.held with
  | h :: r => { (x.eretHeld len h r handler) with asidePfx := y.asidePfx, asideMask := y.asideMask, asidePP := y.asidePP }
  | [] => { (x.eret len) with stepS := 0, trap := y.trap, asidePfx := y.asidePfx, asideMask := y.asideMask, asidePP := y.asidePP }

/-- `ERET`; a single step armed by `SR.S` starts with the next instruction of the resumed threads. One whose clock's first bundle has
left the handler by an `ERET` of its own only issues beside it. It does not issue while the fetch of the word at `TRAPPC` misses
(R14). -/
def execEret (o : Opnds) (s : State) : Host.Outcome State Fault Refusal :=
  match simt s o false noPre (fun s x act =>
      if !srH x.src.sr then .error (x.trap act .privileged x.base)
      else if s.leftHandler x then .ok { s := s, whole := true }
      else if (s.now x).heldAsync && !((s.leaveWaits x.c x.w true).now x).atBoundary then .error .block
      else match s.lenFor x.c x.w ((s.now x).asRead x.src) with
      | (s, none) => .error (.miss s)
      | (s, some n) =>
        let s := s.leaveWaits x.c x.w true
        let s := if (s.now x).heldAsync then s.abandonAll x.c x.w else s
        let s := s.modNow x (fun y => y.afterEret x.src n (s.launchOf y).hdr.handler)
        .ok { s := s, whole := true, goes := some (fun l => nth (s.now x).pcs l 0) }) with
  | .next t => .next (match s.issuing with
    | some x => t.modWave x.c x.w (fun y =>
        if srH x.src.sr && !srH y.sr && srS x.src.sr then { y with stepS := y.live } else y)
    | none => t)
  | r => r

/-! ### Special registers (R51, R445, R446) -/

/-- How a special register may be written (R51). -/
inductive CsrAccess where
  | rw | ro | handler
  deriving DecidableEq, Repr

def csrAccess (n : Nat) : CsrAccess :=
  if n = 256 ∨ n = 274 then .rw
  else if n = 258 ∨ (269 ≤ n ∧ n ≤ 273) then .handler else .ro

/-- `SR` after a write (R84): the mode, the enables, the sticky bits that stay set, and `S` in handler mode. -/
def srWrite (h : Bool) (old v : Word) : Word :=
  let keep : Word := 0x60000000 ||| (if h then 0 else 0x80000000)
  let rw : Word := 0x0003F803 ||| (if h then 0x80000000 else 0)
  (old &&& keep) ||| (v &&& rw) ||| (old &&& v &&& 0x000001FC)

/-- Whether PRIVILEGED refuses a write of a special register whatever its value (R51, R445). -/
def Wave.csrBars (x : Wave) (n : Nat) : Bool := csrAccess n == .ro || (csrAccess n == .handler && !srH x.sr)

/-- Write a special register of a wave, or the trap that refuses it. `src` is the wave as the bundle's clock began: its mode is that in
which the bundle issued (R97, R446). -/
def Wave.csrWrite (x src : Wave) (n : Nat) (v : DWord) : Option Wave :=
  let h := srH src.sr
  let w := loWord v
  if src.csrBars n then none
  else match n with
    | 256 => if !h && (src.sr ^^^ w) &&& 0xC0000000 != 0 then none else some { x with sr := srWrite h x.sr w }
    | 258 => some (if v = 0 then { x with asidePfx := 0, asideMask := 0, asidePP := false } else x)
    | 269 => some { x with trap := { x.trap with trapc := (w &&& 0xC0FF007F) ||| (x.trap.trapc &&& 0x20000000) } }
    | 270 => some { x with trap := { x.trap with trappc := v } }
    | 271 => some { x with trap := { x.trap with trapmask := w } }
    | 272 => some { x with trap := { x.trap with trapaddr := v } }
    | 273 => some { x with trap := { x.trap with resm := w } }
    | _ => some { x with rsp := v }

/-- Words of a special register in a lane. -/
def State.csrWords (s : State) (x : Iss) (n l : Nat) : List Word :=
  let v := s.special x.c x.w x.src n l
  [loWord v, hiWord v]

def execCsrr (o : Opnds) (s : State) : Host.Outcome State Fault Refusal :=
  simt s o false noPre (fun s x act =>
    let n := o.a.toNat
    if dclsOf o .sca = .vec then
      match x.names act 3 o.d.toNat 2 with
      | .error e => .error e
      | .ok ns => match s.putVec x act ns ((List.range 2).map (fun i => vbuild (fun l => nth (s.csrWords x n l) i 0))) with
        | .error e => .error e
        | .ok s => .ok { s := s }
    else match s.putScalar x act o.d.toNat (s.csrWords x n ((lowest act).getD 0)) with
      | .error e => .error e
      | .ok s => .ok { s := s }) .sca

/-- `CSRW` and `CSRX`: PRIVILEGED comes before the source is read (R60). -/
def execCsrw (o : Opnds) (s : State) : Host.Outcome State Fault Refusal :=
  simt s o false noPre (fun s x act =>
    if x.src.csrBars o.d.toNat then .error (x.trap act .privileged x.base)
    else match s.sources x act o [fieldA o 2] with
    | .error e => .error e
    | .ok vs => match (s.now x).csrWrite x.src o.d.toNat (BitVec.ofNat 64 (once act vs 0)) with
      | none => .error (x.trap act .privileged x.base)
      | some y => .ok { s := s.modNow x (fun _ => y) })

def execCsrx (o : Opnds) (s : State) : Host.Outcome State Fault Refusal :=
  simt s o false noPre (fun s x act =>
    if x.src.csrBars o.d.toNat then .error (x.trap act .privileged x.base)
    else match s.sources x act o [fieldA o 2] with
    | .error e => .error e
    | .ok vs => match (s.now x).csrWrite x.src o.d.toNat (BitVec.ofNat 64 (once act vs 0)) with
      | none => .error (x.trap act .privileged x.base)
      | some y => match (s.modNow x (fun _ => y)).putScalar x act o.a.toNat
          (s.csrWords x o.d.toNat ((lowest act).getD 0)) with
        | .error e => .error e
        | .ok s => .ok { s := s })

/-! ### SLEEP, YLD and TMARK (R447, R448) -/

/-- The wave counts as issued in this clock for the order of R329. -/
def State.yieldWave (s : State) (c w : Nat) : State :=
  let (n, s) := s.newId
  s.modWave c w (fun y => { y with lastIssue := n })

def execSleep (o : Opnds) (s : State) : Host.Outcome State Fault Refusal :=
  simt s o false noPre (fun s x act => match s.sources x act o [fieldA o] with
    | .error e => .error e
    | .ok vs =>
      let n := min (once act vs 0) 1048575
      if n = 0 then .ok { s := s.yieldWave x.c x.w } else .error (.wait s (.sleep (s.time + n))))

def execYld (o : Opnds) (s : State) : Host.Outcome State Fault Refusal :=
  simt s o false noPre (fun s x _ => .ok { s := s.yieldWave x.c x.w })

/-- The time of a `SLEEP` passes. -/
def execSleepExpiry (c w : Nat) (lanes : Mask) (s : State) : Host.Outcome State Fault Refusal :=
  .next (((s.wave c w).waits.filter (fun v => v.lanes == lanes && (match v.kind with
    | .sleep u => decide (u ≤ s.time)
    | _ => false))).foldl (fun s v => s.endWait c w v) s)

def execTmark (o : Opnds) (s : State) : Host.Outcome State Fault Refusal :=
  simt s o false noPre (fun s x act => match s.sources x act o [fieldA o, fieldB o] with
    | .error e => .error e
    | .ok vs =>
      .ok { s := s.traceWave x.c x.w 3 (leBytes 2 (once act vs 0) ++ leBytes 2 0 ++ leBytes 4 (once act vs 1)) })

end Sys2Proof.Machine
end

