-- ==== Sys2Proof/Machine/Trial.lean ====
section
/-! DEFINITION. Whether a bundle could issue (R464, R465): its instruction is tried on the state, and what it did is thrown
away. -/
namespace Sys2Proof.Machine

/-- What an instruction of a wave comes to; the words of the other engines do nothing here. -/
def State.tried (s : State) (i : Instr) : Host.Outcome State Fault Refusal :=
  match i with
  | .nop o => execNop o s
  | .halt o retain => execHalt o retain s
  | .trap o => execTrap o s
  | .eret o => execEret o s
  | .csrr o => execCsrr o s
  | .csrw o => execCsrw o s
  | .csrx o => execCsrx o s
  | .sleep o => execSleep o s
  | .yld o => execYld o s
  | .brk o => execBrk o s
  | .tmark o => execTmark o s
  | .bra o => execBra o s
  | .jmp o => execJmp o s
  | .call o => execCall o s
  | .calli o => execCalli o s
  | .ret o => execRet o s
  | .brv o v => execBrv o v s
  | .rghint o => execRghint o s
  | .iadd o t sat => execIadd o t sat s
  | .isub o t sat => execIsub o t sat s
  | .iaddc o t => execIaddc o t s
  | .isubb o t => execIsubb o t s
  | .ineg o t sat => execIneg o t sat s
  | .iabs o t sat => execIabs o t sat s
  | .imin o t => execImin o t s
  | .imax o t => execImax o t s
  | .and o t => execAnd o t s
  | .or o t => execOr o t s
  | .xor o t => execXor o t s
  | .andn o t => execAndn o t s
  | .not o t => execNot o t s
  | .shl o t => execShl o t s
  | .shr o t => execShr o t s
  | .sar o t => execSar o t s
  | .rol o t => execRol o t s
  | .iset o t c => execIset o t c s
  | .imul o t => execImul o t s
  | .imulh o t => execImulh o t s
  | .imad o t => execImad o t s
  | .imadw o t => execImadw o t s
  | .idiv o t => execIdiv o t s
  | .irem o t => execIrem o t s
  | .popc o t => execPopc o t s
  | .clz o t => execClz o t s
  | .ctz o t => execCtz o t s
  | .brev o t => execBrev o t s
  | .bfe o t => execBfe o t s
  | .bfi o t => execBfi o t s
  | .fshl o t => execFshl o t s
  | .fshr o t => execFshr o t s
  | .bperm o t => execBperm o t s
  | .lea o k => execLea o k s
  | .iadd64 o => execIadd64 o s
  | .isub64 o => execIsub64 o s
  | .iset64 o c signed => execIset64 o c signed s
  | .mov o pair => execMov o pair s
  | .movi o pair => execMovi o pair s
  | .sel o pair => execSel o pair s
  | .smov o pair => execSmov o pair s
  | .ftst o pair => execFtst o pair s
  | .plop o tt => execPlop o tt s
  | .pset o v => execPset o v s
  | .pmov o => execPmov o s
  | .fadd o r => execFadd o r s
  | .fsub o r => execFsub o r s
  | .fmul o r => execFmul o r s
  | .fmac o r => execFmac o r s
  | .fmin o => execFmin o s
  | .fmax o => execFmax o s
  | .fset o c => execFset o c s
  | .fclass o => execFclass o s
  | .frnd o r => execFrnd o r s
  | .fscale o r => execFscale o r s
  | .fexp o => execFexp o s
  | .dadd o r => execDadd o r s
  | .dsub o r => execDsub o r s
  | .dmul o r => execDmul o r s
  | .dmac o r => execDmac o r s
  | .dmin o => execDmin o s
  | .dmax o => execDmax o s
  | .dset o c => execDset o c s
  | .drnd o r => execDrnd o r s
  | .hpadd o bf r => execHpadd o bf r s
  | .hpmul o bf r => execHpmul o bf r s
  | .hpmac o bf r => execHpmac o bf r s
  | .hpmin o bf => execHpmin o bf s
  | .hpmax o bf => execHpmax o bf s
  | .hpset o bf c => execHpset o bf c s
  | .cvt o => execCvt o s
  | .packq o => execPackq o s
  | .unpq o => execUnpq o s
  | .rcp o r => execRcp o r s
  | .rsq o => execRsq o s
  | .sqrt o r => execSqrt o r s
  | .ex2 o => execEx2 o s
  | .lg2 o => execLg2 o s
  | .sin o => execSin o s
  | .cos o => execCos o s
  | .tanh o => execTanh o s
  | .drcp o r => execDrcp o r s
  | .dsqrt o r => execDsqrt o r s
  | .shfl o m => execShfl o m s
  | .bcst o => execBcst o s
  | .vote o v => execVote o v s
  | .scan o op excl t => execScan o op excl t s
  | .red o op t => execRed o op t s
  | .cnfl o => execCnfl o s
  | .lmatch o => execLmatch o s
  | .cmpr o => execCmpr o s
  | .xpnd o => execXpnd o s
  | .lacz o => execLacz o s
  | .laca o f => execLaca o f s
  | .lacr o f r => execLacr o f r s
  | .ld o z r => execLd o z r s
  | .ldk o z => execLdk o z s
  | .ldb o z r => execLdb o z r s
  | .ldbc o z => execLdbc o z s
  | .pfch o => execPfch o s
  | .st o z r => execSt o z r s
  | .stb o z r => execStb o z r s
  | .str o z r => execStr o z r s
  | .sts o z r => execSts o z r s
  | .atom o op r => execAtom o op r s
  | .atb o op r => execAtb o op r s
  | .atr o op r => execAtr o op r s
  | .cas128 o r => execCas128 o r s
  | .fnc o sc => execFnc o sc s
  | .cpy o w => execCpy o w s
  | .cpyg o bm w => execCpyg o bm w s
  | .cpys o bm w => execCpys o bm w s
  | .cpyq o bm w => execCpyq o bm w s
  | .cpyr o => execCpyr o s
  | .cpyx o => execCpyx o s
  | .jload o => execJload o s
  | .jstart o => execJstart o s
  | .jstop o => execJstop o s
  | .jpop o => execJpop o s
  | .bar o => execBar o s
  | .bbinit o => execBbinit o s
  | .bbarv o => execBbarv o s
  | .bbwait o tr => execBbwait o tr s
  | .tbar o set => execTbar o set s
  | .gbar o => execGbar o s
  | .send o dev => execSend o dev s
  | .mbclr o => execMbclr o s
  | .waita o => execWaita o s
  | .wake o => execWake o s
  | .sqpush o nb => execSqpush o nb s
  | .sqpop o nb => execSqpop o nb s
  | .sqstat o => execSqstat o s
  | .cqpop o wait => execCqpop o wait s
  | .launch o => execLaunch o s
  | .rfork o => execRfork o s
  | .join o => execJoin o s
  | .racq o => execRacq o s
  | .rrel o => execRrel o s
  | .rsetw o => execRsetw o s
  | .rotb o => execRotb o s
  | .trav o => execTrav o s
  | .travx o => execTravx o s
  | .mma o bf zskip => execMma o bf zskip s
  | .mmas o bf out inner zskip => execMmas o bf out inner zskip s
  | .mmal o bf abs k32 => execMmal o bf abs k32 s
  | .macz o => execMacz o s
  | .macw o f => execMacw o f s
  | .macr o f r => execMacr o f r s
  | .zflg o => execZflg o s
  | .lxld o => execLxld o s
  | .lxinv o => execLxinv o s
  | .fmt fa fb fc fd gs scl sclc zp zpc => execFmt fa fb fc fd gs scl sclc zp zpc s
  | .nonInstructionWord c aux w x => execNonInstructionWord c aux w x s
  | _ => .next s

/-- Whether a bundle's instruction does not issue now. -/
def State.stuckAt (s : State) (c w : Nat) (m : Mask) (pc base : DWord) (len : Nat) (i : Instr) : Bool :=
  let u : Cur := { core := c, wave := w, lanes := m, second := false, pc := pc, base := base, len := len }
  match ({ s with cur := some u, blocked := false, snap := none, twin := [], offers := [], wrote := [] }).tried i with
  | .next t => t.blocked
  | _ => false

/-- The state with room in the queues of a wave's SFU and matrix engine. -/
def State.roomy (s : State) (c w : Nat) : State :=
  (s.modSlice c (sliceOf w) (fun k => { k with sfu := k.sfu.map (fun e => { e with started := true }) })).modCore c (fun k =>
    { k with eng := k.eng.map (fun e => { e with places := 0 }) })

/-- The state once the accesses of a wave have been performed and their homes have taken them. -/
def State.accessed (s : State) (c w : Nat) : State :=
  s.modCore c (fun k => { k with
    ops := k.ops.map (fun (o : Op) => if o.wave = w then { o with lanes := [], hold := false } else o)
    l1 := k.l1.map (fun (y : Line) => { y with dirty := 0 }) })

/-- The state once nothing is in an instruction's way: its queues have room, its accesses are performed, and every name and mailbox of
its wave is FULL. -/
def State.eased (s : State) (c w : Nat) : State :=
  (((s.roomy c w).accessed c w).modCore c (fun k => { k with
    ops := k.ops.map (fun (o : Op) => if o.wave = w then { o with dest := .none } else o)
    eng := k.eng.map (fun e => if e.wave = w then { e with dest := .none, hold := false } else e)
    slices := k.slices.map (fun (e : Nat × Slice) => (e.1, { e.2 with
      phys := e.2.phys.map (fun (p : Nat × PReg) => (p.1, { p.2 with pending := false }))
      sfu := e.2.sfu.map (fun y => if y.wave = w then { y with hold := false } else y) })) })).modWave c w (fun x => { x with
        sPend := 0
        mbox := x.mbox.map (fun b => { b with full := true }) })

/-- With a mailbox empty, and with a register PENDING. -/
def State.emptied (s : State) (c w n : Nat) : State :=
  s.modWave c w (fun x => { x with mbox := setNth x.mbox n { (nth x.mbox n {}) with full := false } })
def State.unfilled (s : State) (c w p : Nat) : State :=
  s.modSlice c (sliceOf w) (fun k => { k with phys := FMap.set k.phys p { pregOf k.phys p with pending := true } })

end Sys2Proof.Machine
end

