-- ==== Sys2Proof/Machine/Detector.lean ====
section
/-! DEFINITION. The deadlock detector (R465, R466) and PC sampling (R464). -/
namespace Sys2Proof.Machine

/-! ### What a blocked wave waits for (R465) -/

/-- A blocked wave: where it is, its wait code (a row of R465, from 1), the object, the waves that its known edges lead
to, whether nothing else that its edges lead to can act, and whether something else can. -/
structure Blocked where
  core : Nat
  wave : Nat
  code : Nat
  obj : Nat := 0
  edges : List (Nat × Nat) := []
  dead : Bool := false
  acts : Bool := false
  /-- A join cell, which stands for the wave in the report. -/
  cell : Bool := false
  deriving DecidableEq, Repr

/-- The wave as a node; a join cell is one of its own, to which no edge leads. -/
def Blocked.node (b : Blocked) : Nat × Nat := if b.cell then (b.core, 2 ^ 32 + b.wave) else (b.core, b.wave)

/-- Live waves of teams. -/
def State.liveWaves (s : State) (ts : List Nat) : List (Nat × Nat) :=
  (ts.flatMap s.teamWaves).filter (fun y => !(s.wave y.1 y.2).isOver)

/-- The teams of a launch. -/
def State.teamsOf (s : State) (l : Nat) : List Nat := (s.teams.filter (fun (e : Nat × Team) => e.2.launch == l)).map (·.1)

/-- A saved wave as the end of an edge: its core, and its `WHO` above the numbers of resident waves. It can act once it is restored. -/
def savedNode (c who : Nat) : Nat × Nat := (c, 2 ^ 16 + who)

/-- Saved waves of a team that have not ended: the node of each, its index and the wave. -/
def State.savedNodes (s : State) (t : Nat) : List ((Nat × Nat) × Nat × Wave) :=
  ((((s.team t).saved.map (·.waves)).getD []).filter (fun v => !v.copy.isOver)).map (fun v =>
    let c := ((s.team t).members[v.member]?.map (·.core)).getD 0
    (savedNode c (s.slotOn c t * 256 + v.index), v.index, v.copy))

/-- Waves of the cores of a list on which a launch has not arrived: those that have not arrived themselves (log entry 72). -/
def State.missingWaves (s : State) (l : Nat) (cs : List Nat) (k : WaitKind → Bool) : List (Nat × Nat) :=
  (s.liveWaves (s.teamsOf l)).filter (fun y => cs.contains y.1 && !s.coreArrived l y.1 k && !(s.wave y.1 y.2).arrived k) ++
  (s.teamsOf l).flatMap (fun t => ((s.savedNodes t).filter (fun y => cs.contains y.1.1 && !y.2.2.arrived k)).map (·.1))

/-- Whether nothing of a launch can still bring it to a barrier of some cores: no wave is missing there, and no saved team,
which can act once it is restored (R466). -/
def State.noneLeft (s : State) (l : Nat) (cs : List Nat) (es : List (Nat × Nat)) : Bool :=
  es.isEmpty && (s.teamsOf l).all (fun t => (s.team t).saved.isNone || (s.team t).members.all (fun m => !cs.contains m.core))

/-- Cores of a list on which a launch has not arrived. -/
def State.missingCores (s : State) (l : Nat) (cs : List Nat) (k : WaitKind → Bool) : List Nat :=
  cs.filter (fun c => !s.coreArrived l c k)

/-- The waves of a team that still owe an arrival at a byte barrier: those that have not arrived in its phase and do not wait
at it; when each of them has arrived, any that does not wait at it (log entry 72). -/
def State.owing (s : State) (t key : Nat) (me : Nat × Nat) : List (Nat × Nat) :=
  let mates := ((s.liveWaves [t]).filter (fun y => y != me)).map (fun y => (y, (s.wave y.1 y.2).index, s.wave y.1 y.2)) ++ s.savedNodes t
  let at_ := fun (v : Wait) => (match v.kind with | .bbwait q _ _ => q == key | _ => false)
  let free := mates.filter (fun m => !m.2.2.waits.any at_)
  let late := free.filter (fun m => !(s.team t).byteCame.contains (key, (s.bbGet key).sense, m.2.1))
  (if late.isEmpty then free else late).map (·.1)

/-- Whether copy jobs that have been started count against a byte barrier, on any core of the team (R311). -/
def State.feeds (s : State) (t key : Nat) : Bool :=
  s.cores.any (fun (k : Nat × Core) => k.2.copies.any (fun (e : Nat × CopyJob) =>
    e.2.team == t && s.benchAt t k.1 (16 * e.2.bbar) == key))

/-- The row of R465 for a wait of a wave. -/
def State.rowOf (s : State) (c w : Nat) (k : WaitKind) : Option Blocked :=
  let x := s.wave c w
  let t := x.team
  let T := s.team t
  let l := T.launch
  let mates := (s.liveWaves [t]).filter (fun y => y != (c, w))
  let b := fun (code obj : Nat) (es : List (Nat × Nat)) (dead : Bool) =>
    some ({ core := c, wave := w, code := code, obj := obj, edges := es, dead := dead } : Blocked)
  match k with
  | .bar n =>
    let y := FMap.getD T.bars n {}
    b 1 n (mates.filter (fun m => let z := s.wave m.1 m.2
        FMap.getD y.arrived z.index 0 &&& z.live != z.live) ++
      ((s.savedNodes t).filter (fun m => FMap.getD y.arrived m.2.1 0 &&& m.2.2.live != m.2.2.live)).map (·.1)) false
  | .tbar =>
    let cs := match lastArrival (s.launch l).tbar c with | some a => tbarCores a.set a.mask c | none => []
    let es := s.missingWaves l cs WaitKind.isTbar
    let gone := s.missingCores l cs WaitKind.isTbar
    b 2 0 es (!gone.isEmpty && s.noneLeft l gone es)
  | .gbar _ =>
    let es := s.missingWaves l (s.launch l).gcores WaitKind.isGbar
    let gone := s.missingCores l (s.launch l).gcores WaitKind.isGbar
    b 2 0 es (!gone.isEmpty && s.noneLeft l gone es)
  | .bbwait key _ _ =>
    let fed := s.feeds t key
    let susp := (s.bbGet key).susp
    let es := s.owing t key (c, w)
    (b 3 (s.benchName t key) es (!fed && (susp || es.isEmpty))).map (fun r => { r with acts := fed })
  | .racq _ _ =>
    let q := (s.slice c (sliceOf w)).racq
    b 4 0 ((q.takeWhile (fun y => y != w)).map (fun y => (c, y)) ++
      ((s.sliceWaves c (sliceOf w)).filter (fun y => !y.2.borrowing && y.1 != w && !y.2.isOver)).map (fun y => (c, y.1))) false
  | .sqpush q _ =>
    let ts := (s.teams.filter (fun (e : Nat × Team) => e.2.fromQueue == some q)).map (·.1)
    let users := s.liveWaves ts ++ ts.flatMap (fun t => (s.savedNodes t).map (·.1))
    let pops := (s.sq q).poppers.map (fun p => (p.1, p.2.1))
    b 5 q (pops ++ users) ((s.sq q).bound.isNone && pops.isEmpty && users.isEmpty)
  | .sqpop q _ _ => b 6 q [] false
  | .cqpop q _ _ _ _ _ => b 7 q [] (!((s.core c).sp.walks.any (fun (e : Nat × Walk) => e.2.team == t && e.2.remote.isNone)))
  | .waita r _ _ _ _ => b 10 r.va.toNat [] false
  | .sleep _ => b 10 0 [] false
  | .send _ _ _ => b 10 0 [] false
  | _ => none

/-- What a bundle outside every wait waits for: a name that its instruction reads which is an empty mailbox, or the destination of a
`JPOP` or of a `CQPOP`. The instruction reads a name when its emptiness alone would keep it from issuing. -/
def State.operandRow (s : State) (c w : Nat) (m : Mask) : Option Blocked :=
  let x := s.wave c w
  let pc := nth x.pcs ((lowest m).getD 0) 0
  match (s.fetchInstr c w (s.ctxOf x) pc).2 with
  | .instr i base len =>
    let easy := s.eased c w
    let stuck := fun (s : State) => s.stuckAt c w m pc base len i
    if stuck easy then none
    else
      let boxes := (List.range 8).filter (fun n => !(nth x.mbox n {}).full && stuck (easy.emptied c w n))
      let reads := fun (ps : List Nat) => ps.any (fun p => stuck (easy.unfilled c w p))
      let claims := (s.jig c).claims.filter (fun e => (s.core c).ops.any (fun q => q.id == e.2 && q.wave == w && reads q.dest.regs))
      let pops := x.waits.filterMap (fun v => match v.kind with
        | .cqpop q _ _ ns _ _ => if reads (ns.map x.reg) then some q else none
        | _ => none)
      let taken := (s.core c).ops.any (fun q => q.kind == .cqpop && q.wave == w && reads q.dest.regs)
      (match boxes, claims, pops with
        | n :: _, _, _ => some { core := c, wave := w, code := 10, obj := n }
        | [], e :: _, _ => some { core := c, wave := w, code := 8, obj := e.1, dead := !(s.jig c).running }
        | [], [], q :: _ => s.rowOf c w (.cqpop q 0 none [] 0 0)
        | [], [], [] => if taken then some { core := c, wave := w, code := 7, acts := true } else none)
  | _ => none

/-- A wave whose every bundle is blocked, with the wait of its lowest bundle. -/
def State.blockedAs (s : State) (c w : Nat) : Option Blocked :=
  let x := s.wave c w
  if x.isOver || x.dbg.isSome then none
  else if !x.replayHeld.isEmpty then some { core := c, wave := w, code := 9, obj := (x.replayHeld.head?.map (fun t => t.2.addr.toNat)).getD 0 }
  else
    let rows := (x.bundles.filter (fun m => m &&& x.live != 0)).map (fun m =>
      match x.waits.find? (fun v => v.lanes &&& m != 0) with
      | some v => s.rowOf c w v.kind
      | none => s.operandRow c w m)
    if rows.all Option.isSome then rows.findSome? id else none

/-! ### The state of a bundle (R464) -/

/-- Why a bundle outside every wait cannot issue its instruction: an empty mailbox, accesses of its threads that have not been
performed or whose homes have yet to take them, a full queue, or a PENDING name; `none` when it can. Accesses or a full queue are the
reason when the bundle would issue without them. -/
def State.sampleBlock (s : State) (c w : Nat) (m : Mask) : Option Nat :=
  let x := s.wave c w
  let pc := nth x.pcs ((lowest m).getD 0) 0
  match (s.fetchInstr c w (s.ctxOf x) pc).2 with
  | .miss => some 7
  | .fault _ _ _ => none
  | .instr i base len =>
    let stuck := fun (s : State) => s.stuckAt c w m pc base len i
    if !stuck s then none
    else some (
      if ((s.operandRow c w m).map (·.code)) = some 10 then 4
      else if !stuck (s.accessed c w) then 6
      else if stuck (s.roomy c w) then 2 else 3)

/-- The state of a bundle in a sample; an eligible one is as if the slice chose its wave. -/
def State.sampleState (s : State) (c w : Nat) (m : Mask) : Nat :=
  let x := s.wave c w
  match x.waits.find? (fun v => v.lanes &&& m != 0) with
  | some v => (match v.kind with
    | .trav _ _ => 3
    | .copy _ _ _ => 3
    | .result _ => 2
    | .sqpush _ _ => 5
    | .sqpop _ _ _ => 5
    | .cqpop _ _ _ _ _ _ => 5
    | .launch _ _ => 5
    | .racq _ _ => 5
    | _ => 4)
  | none =>
    if (srH x.sr && m &&& x.handler == 0) || (srPP x.sr && m != x.pfxBundle) || x.dbg.isSome || x.drainStop.isSome ||
        !(x.stepDbg == 0 || (m &&& x.stepDbg != 0 && x.waiting &&& x.stepDbg == 0)) || !x.replayHeld.isEmpty || x.saving then 8
    else if s.imiss.any (fun f => f.2.2.1 == c && f.2.2.2.1 == w) then 7
    else if (s.core c).ops.any (fun o => o.wave == w && o.hold && (o.kind == .fence || o.kind == .store)) then 6
    else if s.holdsIssue c w then 2
    else (s.sampleBlock c w m).getD 0

/-! ### Reports (R466) -/

/-- Whether a wave is not eligible: it has threads, and no bundle of them could issue (R465). -/
def State.notEligible (s : State) (c w : Nat) : Bool :=
  let x := s.wave c w
  !x.isOver && x.bundles.all (fun m => m &&& x.live == 0 || s.sampleState c w m != 0)

/-- Whether a team is quiet: no progress for the window, and a wave that is not eligible, as a saved one is. -/
def State.isQuiet (s : State) (t : Nat) : Bool :=
  match FMap.get s.teams t with
  | none => false
  | some T => decide (T.quietSince + 2 ^ s.quietExp ≤ s.clocks) &&
      ((s.teamWaves t).any (fun y => s.notEligible y.1 y.2) || !(s.savedNodes t).isEmpty)

/-- A cycle of edges back to a wave, depth first. -/
def cycleBack (g : List Blocked) (start : Nat × Nat) : Nat → List (Nat × Nat) → Nat × Nat → Option (List (Nat × Nat))
  | 0, _, _ => none
  | fuel + 1, path, n =>
    match g.find? (fun b => b.node == n) with
    | none => none
    | some b => b.edges.findSome? (fun e =>
        if e = start then some (path ++ [n])
        else if path.contains e || e == n then none
        else cycleBack g start fuel (path ++ [n]) e)

/-- Whether a wait's edges are known ones to waves (R465). -/
def Blocked.known (b : Blocked) : Bool := decide (b.code < 9) && b.code != 6

/-- Waves with a known wait whose every edge leads to nothing that can act. -/
def deadEnds (g : List Blocked) : Nat → List Blocked
  | 0 => g.filter (fun b => b.dead && b.edges.isEmpty)
  | n + 1 =>
    let d := deadEnds g n
    g.filter (fun b => !b.acts && (b.dead || (b.known && !b.edges.isEmpty)) && b.edges.all (fun e => d.any (fun y => y.node == e)))

/-- A chain from a wave along first edges. -/
def chainFrom (g : List Blocked) : Nat → Blocked → List Blocked
  | 0, b => [b]
  | n + 1, b => match b.edges.head?.bind (fun e => g.find? (fun y => y.node == e)) with
    | some y => b :: chainFrom g n y
    | none => [b]

/-- The kind of a report and its waves in order; `seen` tells a set that has been reported. A chain begins at a wave that no
other one of it waits for. -/
def reportOf (seen : List Blocked → Bool) (g : List Blocked) : Option (Nat × List Blocked) :=
  let cycles := g.filterMap (fun b => (cycleBack g b.node (g.length + 1) [] b.node).map (fun c =>
    c.filterMap (fun n => g.find? (fun y => y.node == n))))
  let ends := deadEnds g g.length
  let roots := ends.filter (fun b => ends.all (fun y => !y.edges.contains b.node))
  let chains := (roots ++ ends).map (chainFrom ends ends.length)
  match cycles.find? (fun c => !seen c), chains.find? (fun c => !seen c) with
  | some c, _ => some (1, c)
  | none, some c => some (2, c)
  | none, none => if cycles.isEmpty && chains.isEmpty && !g.isEmpty && !seen g then some (3, g) else none

/-- An entry of a report; `next` is the holder. -/
def State.reportEntry (s : State) (b : Blocked) (next : Option (Nat × Nat)) : List Byte :=
  let x := s.wave b.core b.wave
  let pc := nth x.pcs ((lowest x.live).getD 0) 0
  let (hc, hw) := match next with
    | some n => (n.1, if 2 ^ 16 ≤ n.2 then n.2 - 2 ^ 16 else s.whoOf n.1 (s.wave n.1 n.2))
    | none => (0xFFFF, 0)
  leBytes 2 b.core ++ leBytes 2 (s.whoOf b.core x) ++ leBytes 8 pc.toNat ++ leBytes 4 b.code ++ leBytes 8 b.obj ++
  leBytes 2 hc ++ leBytes 2 hw ++ leBytes 4 0

/-- Virtual address of report `r` of a context. -/
def reportVa (r : Nat) : DWord := BitVec.ofNat 64 (8191 * 2 ^ 42 + 2 ^ 41 + 2 ^ 20 * (r % 16))

/-- The waves of a set, as teams and indices. -/
def State.setOf (s : State) (bs : List Blocked) : List (Nat × Nat) :=
  bs.map (fun b => let x := s.wave b.core b.wave; (x.team, x.index))

/-- Whether a set of waves has been reported and none of its teams has made progress since (R466). -/
def State.seenSet (s : State) (bs : List Blocked) : Bool :=
  let n := s.setOf bs
  !n.isEmpty && n.all (fun e => (s.team e.1).reported.any (fun m => m.length == n.length && m.all (fun y => n.contains y)))

/-- Write a report, trace it, and deliver DEADLOCK_REPORTED to every listed wave whose launch has a handler. -/
def State.report (s : State) (ctx : Nat) (g : List Blocked) : State :=
  match reportOf s.seenSet g with
  | none => s
  | some (kind, bs) =>
    let n := bs.length
    let va := reportVa ((FMap.get s.ctxs ctx).map (fun x => x.reports) |>.getD 0)
    let head := [0x4C, 0x55, 0x44, 0x4C].map (BitVec.ofNat 8) ++ leBytes 4 kind ++ leBytes 4 n ++ leBytes 4 (2 ^ (s.quietExp - 20)) ++
      leBytes 8 s.time ++ List.replicate 40 0
    let entries := (List.range n).flatMap (fun i => match bs[i]? with
      | none => []
      | some b => s.reportEntry b (if kind = 1 then (bs[(i + 1) % n]?).map Blocked.node
          else if kind = 2 then (bs[i + 1]?).map Blocked.node else b.edges.head?))
    let s := (bs.map (·.core)).eraseDups.foldl (fun s c => s.flushDirty c) s
    let s := (s.vaPut .device ctx va (head ++ entries)).1
    let s := s.modCtx ctx (fun x => { x with reports := x.reports + 1 })
    let s := s.traceRec { kind := 7, ctx := ctx, pay := leBytes 8 va.toNat ++ leBytes 2 kind ++ leBytes 2 (min n 0xFFFF) }
    let set := s.setOf bs
    bs.foldl (fun s b =>
      let x := s.wave b.core b.wave
      let s := s.modTeam x.team (fun T => { T with reported := set :: T.reported })
      if (s.launchOf x).hdr.handler = 0 then s
      else s.sendAsync b.core b.wave { cause := .deadlockReported, cls := clsB, mask := 0, addr := va }) s

/-- The resident wave of a participant. -/
def State.participant (s : State) (e : Nat × Nat) : Option (Nat × Nat) :=
  (s.liveWaves [e.1]).find? (fun y => (s.wave y.1 y.2).index == e.2)

/-- Join cells of a context with more participants to join than still run, some of them in quiet teams `ts`: nothing can
reach the continuation. Each stands for its first running participant (R465, log entry 72). -/
def State.lostJoins (s : State) (ctx : Nat) (ts : List Nat) : List Blocked :=
  ((FMap.get s.ctxs ctx).map (·.forks) |>.getD []).filterMap (fun f =>
    let running := f.2.filter (fun e => (s.participant e).isSome || (s.team e.1).saved.any (fun v => v.waves.any (fun y => y.index == e.2)))
    match (s.vaRead .device ctx f.1 4).2, (running.filter (fun e => ts.contains e.1)).findSome? s.participant with
    | .ok bs, some y => if running.length < leWord bs then
        some { core := y.1, wave := y.2, code := 10, obj := f.1.toNat, dead := true, cell := true } else none
    | _, _ => none)

/-- Whether the host link or a channel keeps a report from being built and written now (R453, R474). -/
def State.reportWaits (s : State) (ctx : Nat) : Bool :=
  (s.hostHeld || s.task.isSome) && (match FMap.get s.ctxs ctx with
    | none => false
    | some x => s.spanWaits .device ctx (reportVa x.reports) false (64 + 32 * 256 * 128) || x.forks.any (fun f => s.vaWaits .device ctx f.1 true 4))

/-- A team's quiet window passes (R465); reports wait while the management processor restarts (R471). -/
def execTeamQuiet (team : Nat) (s : State) : Host.Outcome State Fault Refusal :=
  .next (
    let T := s.team team
    if s.restarting || !s.isQuiet team || s.reportWaits T.ctx then s
    else
      let ts := (s.teams.filter (fun (e : Nat × Team) => e.2.ctx == T.ctx && s.isQuiet e.1)).map (·.1)
      s.report T.ctx ((ts.flatMap s.teamWaves).filterMap (fun y => s.blockedAs y.1 y.2) ++ s.lostJoins T.ctx ts))

/-! ### PC sampling (R464) -/

/-- Whether a slice would choose wave `y` before wave `x` (R329): it has an eligible bundle and comes first. -/
def State.chosenOver (s : State) (c : Nat) (x y : Nat × Wave) : Bool :=
  y.1 != x.1 && (decide (y.2.prio < x.2.prio) || (y.2.prio == x.2.prio && decide (y.2.lastIssue < x.2.lastIssue))) &&
  y.2.bundles.any (fun m => m &&& y.2.live != 0 && s.sampleState c y.1 m == 0)

/-- A slice takes its sample: the next resident wave in turn. -/
def State.sample (s : State) (c k : Nat) : State :=
  let ws := s.sliceWaves c k
  let q := s.slice c k
  let turn := ws.filter (fun v => decide (q.sampleWave ≤ v.1)) ++ ws.filter (fun v => decide (v.1 < q.sampleWave))
  let s := s.modSlice c k (fun y => { y with sampleAt := s.clkOf c + 2 ^ s.trace.k })
  match turn with
  | [] => s
  | v :: _ =>
    let x := v.2
    let s := s.modSlice c k (fun y => { y with sampleWave := v.1 + 1 })
    let best := (x.bundles.filter (fun m => m &&& x.live != 0)).foldl (fun (b : Option Mask) m => match b with
      | none => some m
      | some a => if popcount a < popcount m ∨ (popcount a = popcount m ∧ x.pcOf m < x.pcOf a) then some m else b) none
    match best with
    | none => s
    | some m =>
      let n := s.sampleState c v.1 m
      let n := if n = 0 ∧ ws.any (fun y => s.chosenOver c v y) then 1 else n
      s.traceWave c v.1 1 (leBytes 8 (x.pcOf m) ++ leBytes 1 n ++ leBytes 1 (popcount m))

def execPcSample (c slice : Nat) (s : State) : Host.Outcome State Fault Refusal :=
  .next (if s.trace.k ≠ 0 ∧ (s.slice c slice).sampleAt ≤ s.clkOf c then s.sample c slice else s)

end Sys2Proof.Machine
end

