-- ==== Sys2Proof/Machine/Dispatch.lean ====
section
/-! DEFINITION. One arm per constructor of `Instr`: the direct call of its meaning. -/
namespace Sys2Proof.Machine

def exec (i : Instr) (s : State) : Host.Outcome State Fault Refusal :=
  match i with
  | .nop o => Sys2Proof.Machine.execNop o s
  | .halt o retain => Sys2Proof.Machine.execHalt o retain s
  | .trap o => Sys2Proof.Machine.execTrap o s
  | .eret o => Sys2Proof.Machine.execEret o s
  | .csrr o => Sys2Proof.Machine.execCsrr o s
  | .csrw o => Sys2Proof.Machine.execCsrw o s
  | .csrx o => Sys2Proof.Machine.execCsrx o s
  | .sleep o => Sys2Proof.Machine.execSleep o s
  | .yld o => Sys2Proof.Machine.execYld o s
  | .brk o => Sys2Proof.Machine.execBrk o s
  | .tmark o => Sys2Proof.Machine.execTmark o s
  | .bra o => Sys2Proof.Machine.execBra o s
  | .jmp o => Sys2Proof.Machine.execJmp o s
  | .call o => Sys2Proof.Machine.execCall o s
  | .calli o => Sys2Proof.Machine.execCalli o s
  | .ret o => Sys2Proof.Machine.execRet o s
  | .brv o v => Sys2Proof.Machine.execBrv o v s
  | .rghint o => Sys2Proof.Machine.execRghint o s
  | .iadd o t sat => Sys2Proof.Machine.execIadd o t sat s
  | .isub o t sat => Sys2Proof.Machine.execIsub o t sat s
  | .iaddc o t => Sys2Proof.Machine.execIaddc o t s
  | .isubb o t => Sys2Proof.Machine.execIsubb o t s
  | .ineg o t sat => Sys2Proof.Machine.execIneg o t sat s
  | .iabs o t sat => Sys2Proof.Machine.execIabs o t sat s
  | .imin o t => Sys2Proof.Machine.execImin o t s
  | .imax o t => Sys2Proof.Machine.execImax o t s
  | .and o t => Sys2Proof.Machine.execAnd o t s
  | .or o t => Sys2Proof.Machine.execOr o t s
  | .xor o t => Sys2Proof.Machine.execXor o t s
  | .andn o t => Sys2Proof.Machine.execAndn o t s
  | .not o t => Sys2Proof.Machine.execNot o t s
  | .shl o t => Sys2Proof.Machine.execShl o t s
  | .shr o t => Sys2Proof.Machine.execShr o t s
  | .sar o t => Sys2Proof.Machine.execSar o t s
  | .rol o t => Sys2Proof.Machine.execRol o t s
  | .iset o t c => Sys2Proof.Machine.execIset o t c s
  | .imul o t => Sys2Proof.Machine.execImul o t s
  | .imulh o t => Sys2Proof.Machine.execImulh o t s
  | .imad o t => Sys2Proof.Machine.execImad o t s
  | .imadw o t => Sys2Proof.Machine.execImadw o t s
  | .idiv o t => Sys2Proof.Machine.execIdiv o t s
  | .irem o t => Sys2Proof.Machine.execIrem o t s
  | .popc o t => Sys2Proof.Machine.execPopc o t s
  | .clz o t => Sys2Proof.Machine.execClz o t s
  | .ctz o t => Sys2Proof.Machine.execCtz o t s
  | .brev o t => Sys2Proof.Machine.execBrev o t s
  | .bfe o t => Sys2Proof.Machine.execBfe o t s
  | .bfi o t => Sys2Proof.Machine.execBfi o t s
  | .fshl o t => Sys2Proof.Machine.execFshl o t s
  | .fshr o t => Sys2Proof.Machine.execFshr o t s
  | .bperm o t => Sys2Proof.Machine.execBperm o t s
  | .lea o k => Sys2Proof.Machine.execLea o k s
  | .iadd64 o => Sys2Proof.Machine.execIadd64 o s
  | .isub64 o => Sys2Proof.Machine.execIsub64 o s
  | .iset64 o c signed => Sys2Proof.Machine.execIset64 o c signed s
  | .mov o pair => Sys2Proof.Machine.execMov o pair s
  | .movi o pair => Sys2Proof.Machine.execMovi o pair s
  | .sel o pair => Sys2Proof.Machine.execSel o pair s
  | .smov o pair => Sys2Proof.Machine.execSmov o pair s
  | .ftst o pair => Sys2Proof.Machine.execFtst o pair s
  | .plop o tt => Sys2Proof.Machine.execPlop o tt s
  | .pset o v => Sys2Proof.Machine.execPset o v s
  | .pmov o => Sys2Proof.Machine.execPmov o s
  | .fadd o r => Sys2Proof.Machine.execFadd o r s
  | .fsub o r => Sys2Proof.Machine.execFsub o r s
  | .fmul o r => Sys2Proof.Machine.execFmul o r s
  | .fmac o r => Sys2Proof.Machine.execFmac o r s
  | .fmin o => Sys2Proof.Machine.execFmin o s
  | .fmax o => Sys2Proof.Machine.execFmax o s
  | .fset o c => Sys2Proof.Machine.execFset o c s
  | .fclass o => Sys2Proof.Machine.execFclass o s
  | .frnd o r => Sys2Proof.Machine.execFrnd o r s
  | .fscale o r => Sys2Proof.Machine.execFscale o r s
  | .fexp o => Sys2Proof.Machine.execFexp o s
  | .dadd o r => Sys2Proof.Machine.execDadd o r s
  | .dsub o r => Sys2Proof.Machine.execDsub o r s
  | .dmul o r => Sys2Proof.Machine.execDmul o r s
  | .dmac o r => Sys2Proof.Machine.execDmac o r s
  | .dmin o => Sys2Proof.Machine.execDmin o s
  | .dmax o => Sys2Proof.Machine.execDmax o s
  | .dset o c => Sys2Proof.Machine.execDset o c s
  | .drnd o r => Sys2Proof.Machine.execDrnd o r s
  | .hpadd o bf r => Sys2Proof.Machine.execHpadd o bf r s
  | .hpmul o bf r => Sys2Proof.Machine.execHpmul o bf r s
  | .hpmac o bf r => Sys2Proof.Machine.execHpmac o bf r s
  | .hpmin o bf => Sys2Proof.Machine.execHpmin o bf s
  | .hpmax o bf => Sys2Proof.Machine.execHpmax o bf s
  | .hpset o bf c => Sys2Proof.Machine.execHpset o bf c s
  | .cvt o => Sys2Proof.Machine.execCvt o s
  | .packq o => Sys2Proof.Machine.execPackq o s
  | .unpq o => Sys2Proof.Machine.execUnpq o s
  | .rcp o r => Sys2Proof.Machine.execRcp o r s
  | .rsq o => Sys2Proof.Machine.execRsq o s
  | .sqrt o r => Sys2Proof.Machine.execSqrt o r s
  | .ex2 o => Sys2Proof.Machine.execEx2 o s
  | .lg2 o => Sys2Proof.Machine.execLg2 o s
  | .sin o => Sys2Proof.Machine.execSin o s
  | .cos o => Sys2Proof.Machine.execCos o s
  | .tanh o => Sys2Proof.Machine.execTanh o s
  | .drcp o r => Sys2Proof.Machine.execDrcp o r s
  | .dsqrt o r => Sys2Proof.Machine.execDsqrt o r s
  | .shfl o m => Sys2Proof.Machine.execShfl o m s
  | .bcst o => Sys2Proof.Machine.execBcst o s
  | .vote o v => Sys2Proof.Machine.execVote o v s
  | .scan o op excl t => Sys2Proof.Machine.execScan o op excl t s
  | .red o op t => Sys2Proof.Machine.execRed o op t s
  | .cnfl o => Sys2Proof.Machine.execCnfl o s
  | .lmatch o => Sys2Proof.Machine.execLmatch o s
  | .cmpr o => Sys2Proof.Machine.execCmpr o s
  | .xpnd o => Sys2Proof.Machine.execXpnd o s
  | .lacz o => Sys2Proof.Machine.execLacz o s
  | .laca o f => Sys2Proof.Machine.execLaca o f s
  | .lacr o f r => Sys2Proof.Machine.execLacr o f r s
  | .ld o z r => Sys2Proof.Machine.execLd o z r s
  | .ldk o z => Sys2Proof.Machine.execLdk o z s
  | .ldb o z r => Sys2Proof.Machine.execLdb o z r s
  | .ldbc o z => Sys2Proof.Machine.execLdbc o z s
  | .pfch o => Sys2Proof.Machine.execPfch o s
  | .st o z r => Sys2Proof.Machine.execSt o z r s
  | .stb o z r => Sys2Proof.Machine.execStb o z r s
  | .str o z r => Sys2Proof.Machine.execStr o z r s
  | .sts o z r => Sys2Proof.Machine.execSts o z r s
  | .atom o op r => Sys2Proof.Machine.execAtom o op r s
  | .atb o op r => Sys2Proof.Machine.execAtb o op r s
  | .atr o op r => Sys2Proof.Machine.execAtr o op r s
  | .cas128 o r => Sys2Proof.Machine.execCas128 o r s
  | .fnc o sc => Sys2Proof.Machine.execFnc o sc s
  | .cpy o w => Sys2Proof.Machine.execCpy o w s
  | .cpyg o bm w => Sys2Proof.Machine.execCpyg o bm w s
  | .cpys o bm w => Sys2Proof.Machine.execCpys o bm w s
  | .cpyq o bm w => Sys2Proof.Machine.execCpyq o bm w s
  | .cpyr o => Sys2Proof.Machine.execCpyr o s
  | .cpyx o => Sys2Proof.Machine.execCpyx o s
  | .jload o => Sys2Proof.Machine.execJload o s
  | .jstart o => Sys2Proof.Machine.execJstart o s
  | .jstop o => Sys2Proof.Machine.execJstop o s
  | .jpop o => Sys2Proof.Machine.execJpop o s
  | .bar o => Sys2Proof.Machine.execBar o s
  | .bbinit o => Sys2Proof.Machine.execBbinit o s
  | .bbarv o => Sys2Proof.Machine.execBbarv o s
  | .bbwait o tr => Sys2Proof.Machine.execBbwait o tr s
  | .tbar o set => Sys2Proof.Machine.execTbar o set s
  | .gbar o => Sys2Proof.Machine.execGbar o s
  | .send o dev => Sys2Proof.Machine.execSend o dev s
  | .mbclr o => Sys2Proof.Machine.execMbclr o s
  | .waita o => Sys2Proof.Machine.execWaita o s
  | .wake o => Sys2Proof.Machine.execWake o s
  | .sqpush o nb => Sys2Proof.Machine.execSqpush o nb s
  | .sqpop o nb => Sys2Proof.Machine.execSqpop o nb s
  | .sqstat o => Sys2Proof.Machine.execSqstat o s
  | .cqpop o wait => Sys2Proof.Machine.execCqpop o wait s
  | .launch o => Sys2Proof.Machine.execLaunch o s
  | .rfork o => Sys2Proof.Machine.execRfork o s
  | .join o => Sys2Proof.Machine.execJoin o s
  | .racq o => Sys2Proof.Machine.execRacq o s
  | .rrel o => Sys2Proof.Machine.execRrel o s
  | .rsetw o => Sys2Proof.Machine.execRsetw o s
  | .rotb o => Sys2Proof.Machine.execRotb o s
  | .trav o => Sys2Proof.Machine.execTrav o s
  | .travx o => Sys2Proof.Machine.execTravx o s
  | .mma o bf zskip => Sys2Proof.Machine.execMma o bf zskip s
  | .mmas o bf out inner zskip => Sys2Proof.Machine.execMmas o bf out inner zskip s
  | .mmal o bf abs k32 => Sys2Proof.Machine.execMmal o bf abs k32 s
  | .macz o => Sys2Proof.Machine.execMacz o s
  | .macw o f => Sys2Proof.Machine.execMacw o f s
  | .macr o f r => Sys2Proof.Machine.execMacr o f r s
  | .zflg o => Sys2Proof.Machine.execZflg o s
  | .lxld o => Sys2Proof.Machine.execLxld o s
  | .lxinv o => Sys2Proof.Machine.execLxinv o s
  | .fmt fa fb fc fd gs scl sclc zp zpc => Sys2Proof.Machine.execFmt fa fb fc fd gs scl sclc zp zpc s
  | .nonInstructionWord c aux w x => Sys2Proof.Machine.execNonInstructionWord c aux w x s
  | .nfetch d a f => Sys2Proof.Machine.execNfetch d a f s
  | .nget d a sel idx slot b => Sys2Proof.Machine.execNget d a sel idx slot b s
  | .ncnt m d a => Sys2Proof.Machine.execNcnt m d a s
  | .nptr m d a slot b => Sys2Proof.Machine.execNptr m d a slot b s
  | .box8 hi d b => Sys2Proof.Machine.execBox8 hi d b s
  | .ovl8 hi inn d b => Sys2Proof.Machine.execOvl8 hi inn d b s
  | .tri cb cf d a b c => Sys2Proof.Machine.execTri cb cf d a b c s
  | .sphr ray d a b => Sys2Proof.Machine.execSphr ray d a b s
  | .kcmp c s_ sel d a b => Sys2Proof.Machine.execKcmp c s_ sel d a b s
  | .krng node s_ d a b => Sys2Proof.Machine.execKrng node s_ d a b s
  | .dist ty dot z a b => Sys2Proof.Machine.execDist ty dot z a b s
  | .dfin int mode z d => Sys2Proof.Machine.execDfin int mode z d s
  | .kds d a b slot => Sys2Proof.Machine.execKds d a b slot s
  | .sortm desc a => Sys2Proof.Machine.execSortm desc a s
  | .push pair a => Sys2Proof.Machine.execPush pair a s
  | .pushm k a b => Sys2Proof.Machine.execPushm k a b s
  | .pop pair d => Sys2Proof.Machine.execPop pair d s
  | .sclr => Sys2Proof.Machine.execSclr s
  | .emit a b x => Sys2Proof.Machine.execEmit a b x s
  | .topk ty desc d a b k => Sys2Proof.Machine.execTopk ty desc d a b k s
  | .emitk x => Sys2Proof.Machine.execEmitk x s
  | .done a b x => Sys2Proof.Machine.execDone a b x s
  | .hoff a entry => Sys2Proof.Machine.execHoff a entry s
  | .br off => Sys2Proof.Machine.execBr off s
  | .brc c off => Sys2Proof.Machine.execBrc c off s
  | .yldw => Sys2Proof.Machine.execYldw s
  | .wadd w d a y => Sys2Proof.Machine.execWadd w d a y s
  | .wsub w d a y => Sys2Proof.Machine.execWsub w d a y s
  | .wand w d a y => Sys2Proof.Machine.execWand w d a y s
  | .wor w d a y => Sys2Proof.Machine.execWor w d a y s
  | .wxor w d a y => Sys2Proof.Machine.execWxor w d a y s
  | .wshl w d a y => Sys2Proof.Machine.execWshl w d a y s
  | .wshr w d a y => Sys2Proof.Machine.execWshr w d a y s
  | .minmax ty max d a b => Sys2Proof.Machine.execMinmax ty max d a b s
  | .fmad mode neg d a b => Sys2Proof.Machine.execFmad mode neg d a b s
  | .cmps c ty a y => Sys2Proof.Machine.execCmps c ty a y s
  | .movq d a => Sys2Proof.Machine.execMovq d a s
  | .movqImm d i_ => Sys2Proof.Machine.execMovqImm d i_ s
  | .movqShi d i_ => Sys2Proof.Machine.execMovqShi d i_ s
  | .movqSpc d src => Sys2Proof.Machine.execMovqSpc d src s
  | .ldq d a off n => Sys2Proof.Machine.execLdq d a off n s
  | .walkNonInstructionWord w => Sys2Proof.Machine.execWalkNonInstructionWord w s
  | .jlds g d a off => Sys2Proof.Machine.execJlds g d a off s
  | .junpk s_ d a src dst part => Sys2Proof.Machine.execJunpk s_ d a src dst part s
  | .jpack s_ sat d a src dst part => Sys2Proof.Machine.execJpack s_ sat d a src dst part s
  | .jdelta d a b wid => Sys2Proof.Machine.execJdelta d a b wid s
  | .jrld g d a off => Sys2Proof.Machine.execJrld g d a off s
  | .jcvt d a part sat mode dst src => Sys2Proof.Machine.execJcvt d a part sat mode dst src s
  | .jperm d a b => Sys2Proof.Machine.execJperm d a b s
  | .jput q a => Sys2Proof.Machine.execJput q a s
  | .jgadd d a y => Sys2Proof.Machine.execJgadd d a y s
  | .jgand d a y => Sys2Proof.Machine.execJgand d a y s
  | .jgshr d a y => Sys2Proof.Machine.execJgshr d a y s
  | .jbr cond a target => Sys2Proof.Machine.execJbr cond a target s
  | .jloop a target => Sys2Proof.Machine.execJloop a target s
  | .jwait q k => Sys2Proof.Machine.execJwait q k s
  | .jend => Sys2Proof.Machine.execJend s
  | .jflag k y => Sys2Proof.Machine.execJflag k y s
  | .jigNonInstructionWord w => Sys2Proof.Machine.execJigNonInstructionWord w s
  | .loadCompletion c op lanes => Sys2Proof.Machine.execLoadCompletion c op lanes s
  | .storeWritePerform c op lanes => Sys2Proof.Machine.execStoreWritePerform c op lanes s
  | .atomicCompletion c op lanes => Sys2Proof.Machine.execAtomicCompletion c op lanes s
  | .fenceCompletion c op => Sys2Proof.Machine.execFenceCompletion c op s
  | .l1WriteBack c line evict => Sys2Proof.Machine.execL1WriteBack c line evict s
  | .lineWriteBack line => Sys2Proof.Machine.execLineWriteBack line s
  | .remoteBenchArrival c op lanes => Sys2Proof.Machine.execRemoteBenchArrival c op lanes s
  | .remoteBenchRefusal c op => Sys2Proof.Machine.execRemoteBenchRefusal c op s
  | .pageVerification region page => Sys2Proof.Machine.execPageVerification region page s
  | .sfuResultWrite c slice op => Sys2Proof.Machine.execSfuResultWrite c slice op s
  | .engineStart c => Sys2Proof.Machine.execEngineStart c s
  | .engineEffect c => Sys2Proof.Machine.execEngineEffect c s
  | .macrResultWrite c op => Sys2Proof.Machine.execMacrResultWrite c op s
  | .lxLoadDone c => Sys2Proof.Machine.execLxLoadDone c s
  | .walkSlotGrant c => Sys2Proof.Machine.execWalkSlotGrant c s
  | .nodeArrival c slot => Sys2Proof.Machine.execNodeArrival c slot s
  | .stackSpill c slot => Sys2Proof.Machine.execStackSpill c slot s
  | .stackFill c slot => Sys2Proof.Machine.execStackFill c slot s
  | .handoffArrival msg => Sys2Proof.Machine.execHandoffArrival msg s
  | .handoffReturn c slot ret => Sys2Proof.Machine.execHandoffReturn c slot ret s
  | .partnerEntryArrival c slot entry => Sys2Proof.Machine.execPartnerEntryArrival c slot entry s
  | .cancelMessage originCore originSlot => Sys2Proof.Machine.execCancelMessage originCore originSlot s
  | .killMessage originCore originSlot => Sys2Proof.Machine.execKillMessage originCore originSlot s
  | .copySlotGrant c => Sys2Proof.Machine.execCopySlotGrant c s
  | .copyUnitServe c => Sys2Proof.Machine.execCopyUnitServe c s
  | .copyUnitLanded c job unit => Sys2Proof.Machine.execCopyUnitLanded c job unit s
  | .copyJobSuspend c job => Sys2Proof.Machine.execCopyJobSuspend c job s
  | .jpopDelivery c q => Sys2Proof.Machine.execJpopDelivery c q s
  | .depositArrival id => Sys2Proof.Machine.execDepositArrival id s
  | .depositRetry id => Sys2Proof.Machine.execDepositRetry id s
  | .sendStatusReturn id => Sys2Proof.Machine.execSendStatusReturn id s
  | .sleepExpiry c w lanes => Sys2Proof.Machine.execSleepExpiry c w lanes s
  | .cqpopTimeout c w lanes => Sys2Proof.Machine.execCqpopTimeout c w lanes s
  | .barrierTimeout launch c => Sys2Proof.Machine.execBarrierTimeout launch c s
  | .waitaPoll c w => Sys2Proof.Machine.execWaitaPoll c w s
  | .waitaWake line => Sys2Proof.Machine.execWaitaWake line s
  | .autoLaunch q => Sys2Proof.Machine.execAutoLaunch q s
  | .teamPlacement => Sys2Proof.Machine.execTeamPlacement s
  | .clusterRetry launch => Sys2Proof.Machine.execClusterRetry launch s
  | .reservationExpiry launch => Sys2Proof.Machine.execReservationExpiry launch s
  | .teamRestore team => Sys2Proof.Machine.execTeamRestore team s
  | .racqGrant c slice => Sys2Proof.Machine.execRacqGrant c slice s
  | .bundlePartition c w => Sys2Proof.Machine.execBundlePartition c w s
  | .priorityPromotion c w => Sys2Proof.Machine.execPriorityPromotion c w s
  | .fetchLineArrival group line => Sys2Proof.Machine.execFetchLineArrival group line s
  | .asyncTrapDelivery c w => Sys2Proof.Machine.execAsyncTrapDelivery c w s
  | .teamQuiet team => Sys2Proof.Machine.execTeamQuiet team s
  | .pcSample c slice => Sys2Proof.Machine.execPcSample c slice s
  | .quietStopLimit launch => Sys2Proof.Machine.execQuietStopLimit launch s
  | .coreInvalidateAck c => Sys2Proof.Machine.execCoreInvalidateAck c s
  | .reset => Sys2Proof.Machine.execReset s
  | .supplyDroop region => Sys2Proof.Machine.execSupplyDroop region s
  | .powerMeasurement watts => Sys2Proof.Machine.execPowerMeasurement watts s
  | .hostLinkDown => Sys2Proof.Machine.execHostLinkDown s
  | .hostLinkUp width gen => Sys2Proof.Machine.execHostLinkUp width gen s
  | .hostAccessTimeout c op => Sys2Proof.Machine.execHostAccessTimeout c op s
  | .pairingPortDown p => Sys2Proof.Machine.execPairingPortDown p s
  | .pairingPortUp p => Sys2Proof.Machine.execPairingPortUp p s
  | .partnerRequest ctx target req => Sys2Proof.Machine.execPartnerRequest ctx target req s
  | .singleBitError site => Sys2Proof.Machine.execSingleBitError site s
  | .doubleBitError site => Sys2Proof.Machine.execDoubleBitError site s
  | .recalibrationDone c ok => Sys2Proof.Machine.execRecalibrationDone c ok s
  | .retrainDone ok => Sys2Proof.Machine.execRetrainDone ok s
  | .fwRestart => Sys2Proof.Machine.execFwRestart s
  | .hostMemoryAccess access addr data => Sys2Proof.Machine.execHostMemoryAccess access addr data s
  | .ingressWrite w off data => Sys2Proof.Machine.execIngressWrite w off data s
  | .ingressCommit w slot => Sys2Proof.Machine.execIngressCommit w slot s
  | .ingressEntryPush w => Sys2Proof.Machine.execIngressEntryPush w s
  | .doorbell ctx tail => Sys2Proof.Machine.execDoorbell ctx tail s
  | .hostNop ctx => Sys2Proof.Machine.execHostNop ctx s
  | .hostLaunch ctx => Sys2Proof.Machine.execHostLaunch ctx s
  | .hostCommandInvalid ctx => Sys2Proof.Machine.execHostCommandInvalid ctx s
  | .ctxSet tag ctx root replay ring => Sys2Proof.Machine.execCtxSet tag ctx root replay ring s
  | .ctxClear tag ctx => Sys2Proof.Machine.execCtxClear tag ctx s
  | .invalidate tag ctx va pages => Sys2Proof.Machine.execInvalidate tag ctx va pages s
  | .sqConfig tag q desc => Sys2Proof.Machine.execSqConfig tag q desc s
  | .ingressMap tag w q => Sys2Proof.Machine.execIngressMap tag w q s
  | .pairSet tag ctx partner => Sys2Proof.Machine.execPairSet tag ctx partner s
  | .seal tag ctx base pages tree => Sys2Proof.Machine.execSeal tag ctx base pages tree s
  | .unseal tag region => Sys2Proof.Machine.execUnseal tag region s
  | .attest tag nonce addr => Sys2Proof.Machine.execAttest tag nonce addr s
  | .faultRing tag addr count => Sys2Proof.Machine.execFaultRing tag addr count s
  | .nodeCache tag mib => Sys2Proof.Machine.execNodeCache tag mib s
  | .getCert tag addr len => Sys2Proof.Machine.execGetCert tag addr len s
  | .fwWrite tag slot addr len => Sys2Proof.Machine.execFwWrite tag slot addr len s
  | .fwSwitch tag => Sys2Proof.Machine.execFwSwitch tag s
  | .coreParkDrain tag c => Sys2Proof.Machine.execCoreParkDrain tag c s
  | .coreParkKill tag c => Sys2Proof.Machine.execCoreParkKill tag c s
  | .coreReturn tag c => Sys2Proof.Machine.execCoreReturn tag c s
  | .chRetrain tag k => Sys2Proof.Machine.execChRetrain tag k s
  | .powerLimit tag watts => Sys2Proof.Machine.execPowerLimit tag watts s
  | .quietWindow tag e => Sys2Proof.Machine.execQuietWindow tag e s
  | .status tag addr => Sys2Proof.Machine.execStatus tag addr s
  | .dbgArm tag ctx policy => Sys2Proof.Machine.execDbgArm tag ctx policy s
  | .dbgDisarm tag ctx => Sys2Proof.Machine.execDbgDisarm tag ctx s
  | .dbgRunStop tag ctx w => Sys2Proof.Machine.execDbgRunStop tag ctx w s
  | .dbgRunResume tag ctx w => Sys2Proof.Machine.execDbgRunResume tag ctx w s
  | .dbgRunStep tag ctx w => Sys2Proof.Machine.execDbgRunStep tag ctx w s
  | .dbgRunStepDrain tag ctx w => Sys2Proof.Machine.execDbgRunStepDrain tag ctx w s
  | .dbgRead tag c slot w addr => Sys2Proof.Machine.execDbgRead tag c slot w addr s
  | .dbgWriteVector tag c slot w name lanes data => Sys2Proof.Machine.execDbgWriteVector tag c slot w name lanes data s
  | .dbgWriteScalar tag c slot w name v => Sys2Proof.Machine.execDbgWriteScalar tag c slot w name v s
  | .dbgWritePredicate tag c slot w name lanes v => Sys2Proof.Machine.execDbgWritePredicate tag c slot w name lanes v s
  | .dbgWriteMailbox tag c slot w name v => Sys2Proof.Machine.execDbgWriteMailbox tag c slot w name v s
  | .dbgWriteSr tag c slot w v => Sys2Proof.Machine.execDbgWriteSr tag c slot w v s
  | .dbgWriteResume tag c slot w lanes pcs => Sys2Proof.Machine.execDbgWriteResume tag c slot w lanes pcs s
  | .dbgWriteTile tag c slot w name data => Sys2Proof.Machine.execDbgWriteTile tag c slot w name data s
  | .bkptSet tag slot ctx addr => Sys2Proof.Machine.execBkptSet tag slot ctx addr s
  | .watchSet tag slot ctx addr len access => Sys2Proof.Machine.execWatchSet tag slot ctx addr len access s
  | .traceCfg tag base count mode mask k => Sys2Proof.Machine.execTraceCfg tag base count mode mask k s
  | .quietStop tag ctx header => Sys2Proof.Machine.execQuietStop tag ctx header s
  | .quietCheckpoint tag ctx header => Sys2Proof.Machine.execQuietCheckpoint tag ctx header s
  | .quietReplay tag ctx header => Sys2Proof.Machine.execQuietReplay tag ctx header s
  | .quietCancel tag ctx header => Sys2Proof.Machine.execQuietCancel tag ctx header s
  | .cmdUnknownOpcode tag opcode => Sys2Proof.Machine.execCmdUnknownOpcode tag opcode s
  | .faultReplyReplay fid => Sys2Proof.Machine.execFaultReplyReplay fid s
  | .faultReplyReject fid => Sys2Proof.Machine.execFaultReplyReject fid s
  | .fhead v => Sys2Proof.Machine.execFhead v s
  | .registerWrite off data => Sys2Proof.Machine.execRegisterWrite off data s
  | .sfuServiceStart c slice => Sys2Proof.Machine.execSfuServiceStart c slice s
  | .supplyRecovery region => Sys2Proof.Machine.execSupplyRecovery region s
  | .handoffRefusal c slot => Sys2Proof.Machine.execHandoffRefusal c slot s
  | .handoffCredit c => Sys2Proof.Machine.execHandoffCredit c s
  | .partnerPairingChange entries => Sys2Proof.Machine.execPartnerPairingChange entries s
  | .sealCompletion => Sys2Proof.Machine.execSealCompletion s

end Sys2Proof.Machine
end

