-- ==== Sys2Proof/Machine/Banks.lean ====
section
/-! DEFINITION. What a turn asks of the Bench banks (R12, R16, R226), and what it comes to behind them; and the order of the reads that
wait for a channel (R474; log entry 80). -/
namespace Sys2Proof.Machine

/-! ### The lanes of an operation (R226, R227) -/

/-- The requests of a lane of an operation; a read of a word that a lower lane of `grp` reads is one with that lane's. -/
def Op.laneReqs (o : Op) (c : Nat) (grp : List LaneAcc) (a : LaneAcc) : List BankReq :=
  if o.kind == .load && grp.any (fun b => decide (b.lane < a.lane) && sameGroup o b a) then []
  else
    let rank := if (o.target c a).isSome || o.remote then rankMesh else rankLane (sliceOf o.wave) a.lane
    ((o.units a).filter (fun u => decide (u < 2 ^ 20))).map (fun u => { core := u / 32, bank := u % 32, rank := rank })

/-- Lanes present their requests in increasing order: those of a lane enter together or not at all, and behind a lane that waits the
others of its banks wait too. The lanes whose requests have entered, in this clock or before. -/
def State.presentLanes (s : State) (c : Nat) (o : Op) (grp : List LaneAcc) : List LaneAcc → List BankReq → State × List Nat
  | [], _ => (s, [])
  | a :: r, shut =>
    let rs := o.laneReqs c grp a
    let need := lacking rs s.asked
    let taken := if rs.any (fun q => shut.any (fun p => p.core == q.core && p.bank == q.bank)) then none else s.enterAll need
    match taken with
    | some u =>
      let (t, ins) := ({ u with asked := need ++ u.asked }).presentLanes c o grp r shut
      (t, a.lane :: ins)
    | none => (need.foldl (fun u q => if u.admits q then u else u.refuseBank q) s).presentLanes c o grp r (rs ++ shut)

/-- The operation and the lanes that an event is about. -/
def Act.lanesOf : Act → Option (Nat × Nat × Mask)
  | .event (.loadCompletion c op m) => some (c, op, m)
  | .event (.storeWritePerform c op m) => some (c, op, m)
  | .event (.atomicCompletion c op m) => some (c, op, m)
  | .event (.remoteBenchArrival c op m) => some (c, op, m)
  | .own (.loadCompletion c op) => some (c, op, 0xFFFFFFFF)
  | .own (.storeWritePerform c op) => some (c, op, 0xFFFFFFFF)
  | .own (.atomicCompletion c op) => some (c, op, 0xFFFFFFFF)
  | .own (.remoteBenchArrival c op) => some (c, op, 0xFFFFFFFF)
  | _ => none

/-- The event for other lanes. -/
def Act.withLanes (a : Act) (m : Mask) : Act :=
  match a with
  | .event (.loadCompletion c op _) => .event (.loadCompletion c op m)
  | .event (.storeWritePerform c op _) => .event (.storeWritePerform c op m)
  | .event (.atomicCompletion c op _) => .event (.atomicCompletion c op m)
  | .event (.remoteBenchArrival c op _) => .event (.remoteBenchArrival c op m)
  | .own (.loadCompletion c op) => .event (.loadCompletion c op m)
  | .own (.storeWritePerform c op) => .event (.storeWritePerform c op m)
  | .own (.atomicCompletion c op) => .event (.atomicCompletion c op m)
  | .own (.remoteBenchArrival c op) => .event (.remoteBenchArrival c op m)
  | a => a

/-- What an event about lanes comes to at the Bench banks: the lanes present their requests, and those are performed whose requests, with
the requests of what is performed with or before them, have entered (R226, R260); `none` when there is no such lane. The entries that a
`CQPOP` has taken are read when all of them have (R360). -/
def State.present (s : State) (a : Act) : State × Option Act :=
  match a.lanesOf with
  | none => (s, some a)
  | some (c, id, m) => match (s.core c).ops.find? (·.id == id) with
    | none => (s, some a)
    | some o =>
      let whole := o.kind == .cqpop
      let grp := if whole then o.lanes
        else (o.closure 32 (o.left.filter (fun a => m.getLsbD a.lane))).filter (fun b => (o.closure 32 [b]).all (fun d => s.memReady c o d))
      let (t, ins) := s.presentLanes c o grp grp []
      let go := grp.filter (fun a => (if whole then grp else o.closure 32 [a]).all (fun d => ins.contains d.lane))
      let u := { t with asked := lacking t.asked (go.flatMap (o.laneReqs c grp)) }
      if go.length = grp.length then (u, some a)
      else if go.isEmpty then (u, none)
      else (u, some (a.withLanes (maskOf (fun l => go.any (fun a => a.lane == l)))))

/-! ### The requests of the other turns -/

/-- The unit that the copy unit serves, and the group of row numbers that it reads (R309, R310). -/
def State.unitReqs (s t : State) (c : Nat) : List BankReq :=
  (s.core c).copies.flatMap (fun (e : Nat × CopyJob) =>
    let j := e.2
    match FMap.get (t.core c).copies e.1 with
    | none => []
    | some i =>
      (if i.next = j.next ∨ (j.kind ≠ 2 ∧ j.events < i.events) then []
       else (List.range (j.unitBytes j.next / 16)).flatMap (fun n =>
        benchReqs rankCopy (s.benchAt j.team c (j.benchOff j.next (16 * n))) 16)) ++
      (if i.group = j.group then []
       else match i.group with
        | some (g, _) => benchReqs rankCopy (s.benchAt j.team c g) 32
        | none => []))

/-- What a job writes when its slot is freed: the last 8 bytes of its record (R311, R312). -/
def State.markReqs (s t : State) (c job : Nat) (j : CopyJob) : List BankReq :=
  if (FMap.get (t.core c).copies job).isSome then [] else benchReqs rankCopy (s.recKey c j.team j.recOff + 24) 8

/-- The byte barrier that a landed unit counts down, or that a suspended job marks, and the record (R311, R312). -/
def State.landReqs (s t : State) (c job : Nat) : List BankReq :=
  match FMap.get (s.core c).copies job with
  | none => []
  | some j =>
    let k := s.benchAt j.team c (16 * j.bbar)
    (if s.homeRead k 16 = t.homeRead k 16 then [] else benchReqs rankCopy k 16) ++ s.markReqs t c job j

/-- The records of the lanes whose jobs a freed slot starts, or of the job that it resumes for the host (R309, R414). -/
def State.grantReqs (s t : State) (c : Nat) : List BankReq :=
  match s.copyWaiter c with
  | some (w, v) =>
    let waits := fun (u : WaitKind) => match u with | .copy left _ _ => left | _ => []
    let left := ((t.wave c w).waits.find? (fun u => u.lanes == v.lanes)).map (fun u => (waits u.kind).map (·.lane))
    ((waits v.kind).filter (fun q => !(left.getD []).contains q.lane && (s.recOffset (s.wave c w).team q.rec_).isNone)).flatMap (fun q =>
      benchReqs (rankLane (sliceOf w) q.lane) (s.recKey c (s.wave c w).team q.rec_) 32)
  | none => ((t.core c).copies.filter (fun (e : Nat × CopyJob) => (s.core c).copies.all (fun y => y.2.stamp != e.2.stamp))).flatMap (fun e =>
      benchReqs rankCopy (s.recKey c e.2.team e.2.recOff) 32)

/-- The Bench load of the Jig's word (R321). -/
def State.jigReqs (s : State) (c : Nat) : List BankReq :=
  let j := s.jig c
  let load := fun (a : BitVec 3) (off : BitVec 17) (n : Nat) =>
    match s.localBench (j.holder.getD 0) (((j.gr a.toNat).toNat + off.toNat) % 2 ^ 32) n with
    | some k => benchReqs rankJig k n
    | none => []
  match decodeJig (nth j.prog j.pc 0) with
  | .jlds false _ a off => load a off 128
  | .jrld false _ a off => load a off 4
  | _ => []

/-- The entry that the engine takes up, when the LX reads Bench for it (R149, R157). -/
def State.lxReqs (s t : State) (c : Nat) : List BankReq :=
  match (s.core c).engHead with
  | none => []
  | some e =>
    if (t.core c).eng = (s.core c).eng then []
    else match e.kind with
      | .lxld => if e.rows = [] then benchReqs rankLx e.x0 (2 * (e.x1 * e.x2)) else []
      | .mmal => benchReqs rankLx e.x0 (32 * (s.core c).lx.dc)
      | _ => []

/-- The requests of lanes of an issuing bundle, `n` bytes at the key that each one's value gives. -/
def State.atLanes (s : State) (x : Iss) (o : Opnds) (d : Opd) (one : Bool) (n : Nat) (key : Nat → Option Nat) : List BankReq :=
  match s.guard x o with
  | none => []
  | some act => match s.sources x act o [d] with
    | .error _ => []
    | .ok vs => (if one then ((lowest act).map (fun l => [l])).getD [] else lanesOf act).flatMap (fun l =>
        match key ((nth vs 0 Src.none).nat l) with
        | some k => benchReqs (if benchCore k = x.c then rankLane x.slice l else rankMesh) k n
        | none => [])

/-- The requests that an instruction makes as it issues: the query blocks of `TRAV` (R353), the records of copy instructions (R309,
R313), and the objects of byte barriers (R383-R385). -/
def State.issueReqs (s : State) (i : Instr) : List BankReq :=
  match s.issuing with
  | none => []
  | some x =>
    let rec_ := fun (o : Opnds) => s.atLanes x o (fieldB o) false 32 (fun r =>
      if (s.recOffset x.src.team r).isNone then some (s.recKey x.c x.src.team r) else none)
    let bar := fun (o : Opnds) => s.atLanes x o (fieldA o) true 16 (fun b => if b % 16 = 0 then s.localBench x.src.team b 16 else none)
    match i with
    | .trav o => s.atLanes x o (fieldA o) false 64 (fun v =>
        if v % 64 = 0 then (s.localBench x.src.team v 64).filter (fun k => benchCore k == x.c) else none)
    | .cpy o _ => rec_ o
    | .cpyg o _ _ => rec_ o
    | .cpys o _ _ => rec_ o
    | .cpyq o _ _ => rec_ o
    | .cpyr o => rec_ o
    | .cpyx o => rec_ o
    | .bbinit o => bar o
    | .bbarv o => bar o
    | .bbwait o _ => bar o
    | _ => []

/-- The requests that the turn `a` makes to Bench banks when it takes `s` to `t`, but for those of lanes of operations in flight. -/
def State.requests (s t : State) (a : Act) : List BankReq :=
  match a with
  | .bundle c w b second => match s.prepare c w b second with
    | .run u i => if t.blocked then [] else u.issueReqs i
    | _ => []
  | .event (.copyUnitServe c) => s.unitReqs t c
  | .own (.copyUnitServe c) => s.unitReqs t c
  | .event (.copyUnitLanded c j _) => s.landReqs t c j
  | .own (.copyUnitLanded c j _) => s.landReqs t c j
  | .event (.copyJobSuspend c j) => s.landReqs t c j
  | .own (.copyJobSuspend c j) => s.landReqs t c j
  | .event (.copySlotGrant c) => s.grantReqs t c
  | .own (.copySlotGrant c) => s.grantReqs t c
  | .walk c => s.spindleReqs t c
  | .event (.nodeArrival c _) => s.spindleReqs t c
  | .own (.nodeArrival c _) => s.spindleReqs t c
  | .jig c => s.jigReqs c
  | .event (.engineStart c) => s.lxReqs t c
  | .own (.engineStart c) => s.lxReqs t c
  | _ => []

/-- A turn that takes `s` to `t` behind the banks; a second bundle whose requests do not all enter ends its clock (R394). -/
def State.gate (s t : State) (a : Act) : State :=
  let u := s.bank t (s.requests t a)
  match a with
  | .bundle c w _ second => if (t.enterAll (lacking (s.requests t a) s.asked)).isSome then u else u.noSecond c w second
  | _ => u

/-! ### Reads that wait for a channel (R474) -/

/-- The machine as it would be if no channel retrained. -/
def State.served (s : State) : Option State :=
  match s.task with
  | some (.retrain _ tag) => some { s with task := some (.retrain 64 tag) }
  | _ => none

/-- Whether a turn waits for a channel: it would come to something else if that served. -/
def State.waitsFor (s : State) (run : State → Host.Outcome State Fault Refusal) : Bool :=
  match s.served with
  | none => false
  | some u => match run s, run u with
    | .next t, .next v => decide (v ≠ { t with task := u.task })
    | _, _ => false

/-- While a channel retrains, turns that wait for it are remembered in the order in which they began to, and with them the requests from
outside and the launches that they leave waiting; when it has, they come next in that order (R474). `s` is the state before. -/
def State.noteReads (t s : State) (a : Act) (waits : Bool) : State :=
  match t.task with
  | some (.retrain _ _) =>
    let new := (if waits && !t.missQ.contains a && t.outside.length ≤ s.outside.length && t.takeUps.length ≤ s.takeUps.length then [a] else []) ++
      List.replicate (t.outside.length - s.outside.length) .outside ++ List.replicate (t.takeUps.length - s.takeUps.length) .takeUp
    { t with missQ := t.missQ ++ new }
  | _ => if t.missQ.isEmpty then t else { t with missQ := [], agenda := t.missQ.map (fun b => { act := b }) ++ t.agenda }

/-- What a turn comes to behind the banks and the channels; `waits` says whether it waits for a channel. -/
def State.gated (s : State) (a : Act) (waits : Bool) : Host.Outcome State Fault Refusal → Host.Outcome State Fault Refusal
  | .next t => .next ((s.gate t a).noteReads s a waits)
  | .fault f => .fault f
  | .refused r => .refused r

end Sys2Proof.Machine
end

