-- ==== Sys2Proof/Machine/Sched.lean ====
section
/-! DEFINITION. The schedule (log entries 1 and 2): which turn comes next, the time that passes before it, what each kind
of turn does, and the waits and queues that settle after it. -/
namespace Sys2Proof.Machine

/-! ### What follows a turn -/

/-- Barriers, deposits, waiters, queues, walks and records that the turn let go on do so. -/
def State.settleAll (s : State) : State :=
  s.settleBars.settleByteBars.settleCame.settleTbars.settleGbars.settleQuiet.settleSends.settleWakes.settleQueues.settleAuto.settleCqpops.settleLaunches.settleWalks.settleHeld.settleSaves.settleWrite.settleCheckpoint.settlePark.settleDrains.settleStops.settleTakeUps.settleOutside.settleRecs.drainFaults

/-! ### The schedule without an agenda -/

/-- What the Spindle and the Jig of a core could do next, beside their turns. -/
def Core.walkOwns (c : Nat) (k : Core) : List Own :=
  (if k.sp.want.isEmpty && k.sp.arrivals.isEmpty then [] else [Own.walkSlotGrant c]) ++
  k.sp.walks.flatMap (fun (e : Nat × Walk) => match e.2.wait with
    | .spill _ => [Own.stackSpill c e.1]
    | .fill => [.stackFill c e.1]
    | .ready => if e.2.spilled = 0 then [] else [.stackFill c e.1]
    | .handoff _ _ _ => []
    | _ => [.nodeArrival c e.1]) ++
  k.jig.claims.map (fun (e : Nat × Nat) => Own.jpopDelivery c e.1)

/-- The next event of an operation in flight. -/
def Op.own (c : Nat) (o : Op) : Own :=
  if o.refused ≠ 0 ∧ o.left.isEmpty = true then .remoteBenchRefusal c o.id
  else if o.remote then .remoteBenchArrival c o.id
  else match o.kind with
    | .store => .storeWritePerform c o.id
    | .atomic => .atomicCompletion c o.id
    | .cas128 => .atomicCompletion c o.id
    | .fence => .fenceCompletion c o.id
    | _ => .loadCompletion c o.id

/-- What the queues of a core could do next. -/
def Core.queueOwns (c : Nat) (k : Core) : List Own :=
  k.ops.map (Op.own c) ++
  k.slices.flatMap (fun (e : Nat × Slice) => e.2.sfu.map (fun (o : SfuEntry) =>
    if o.started then Own.sfuResultWrite c e.1 o.id else .sfuServiceStart c e.1)) ++
  (if k.eng.isEmpty then [] else [Own.engineStart c, .engineEffect c]) ++
  (k.eng.filter (fun (e : EngEntry) => e.kind == .macr && e.places == 0)).map (fun (e : EngEntry) => Own.macrResultWrite c e.id) ++
  (if k.lx.loading then [Own.lxLoadDone c] else []) ++
  (if k.copies.isEmpty then [] else [Own.copyUnitServe c]) ++
  (if k.copies.any (fun (e : Nat × CopyJob) => decide (16 ≤ e.1)) then [Own.copySlotGrant c] else []) ++
  k.copies.flatMap (fun (e : Nat × CopyJob) =>
    e.2.units.map (fun (u : CopyUnit) => Own.copyUnitLanded c e.1 u.u) ++
    (if e.2.failing.isSome then [Own.copyJobSuspend c e.1] else []))

/-- What ends the waits of a core's waves. -/
def Core.waveOwns (c : Nat) (k : Core) : List Own :=
  k.waves.flatMap (fun (e : Nat × Wave) => (if e.2.async.isEmpty then [] else [Own.asyncTrapDelivery c e.1]) ++
    e.2.waits.filterMap (fun (v : Wait) => match v.kind with
      | .sleep _ => some (Own.sleepExpiry c e.1 v.lanes)
      | .waita _ false _ _ _ => some (.waitaPoll c e.1)
      | .cqpop _ _ (some _) _ _ _ => some (.cqpopTimeout c e.1 v.lanes)
      | .copy _ _ _ => some (.copySlotGrant c)
      | _ => none)) ++
  (k.slices.filter (fun (e : Nat × Slice) => !e.2.racq.isEmpty)).map (fun (e : Nat × Slice) => Own.racqGrant c e.1)

/-- What the parts of a core could do next. -/
def Core.acts (c : Nat) (k : Core) : List Act :=
  (List.range 4).filterMap (fun q => if k.waves.any (fun (e : Nat × Wave) => sliceOf e.1 == q) then some (.slice c q) else none) ++
  (if k.sp.walks.isEmpty then [] else [.walk c]) ++ (if k.jig.running then [.jig c] else []) ++
  (Core.walkOwns c k ++ Core.queueOwns c k ++ Core.waveOwns c k).map Act.own

/-- What the dispatcher, the queues and the barriers of launches could do next. -/
def State.launchOwns (s : State) : List Own :=
  (if s.pending.all (fun (e : Nat × List Nat) => e.2.isEmpty) && s.teams.all (fun (e : Nat × Team) => e.2.saved.isNone) then []
   else [Own.teamPlacement]) ++
  s.launches.flatMap (fun (e : Nat × Launch) =>
    (if e.2.retryAt = 0 then [] else [Own.clusterRetry e.1]) ++ (if e.2.grants.isEmpty then [] else [.reservationExpiry e.1]) ++
    ((e.2.tbar ++ e.2.gbar).filter (fun a => a.tmo != 0)).map (fun a => Own.barrierTimeout e.1 a.core) ++
    (match e.2.quiet with | some (_, u) => if u = 0 then [] else [.quietStopLimit e.1] | none => [])) ++
  (s.queues.filter (fun (e : Nat × StageQ) => e.2.bound.isSome && !e.2.entries.isEmpty)).map (fun (e : Nat × StageQ) => Own.autoLaunch e.1) ++
  (s.teams.filter (fun (e : Nat × Team) => e.2.reported.isEmpty)).map (fun (e : Nat × Team) => Own.teamQuiet e.1)

/-- What the management processor and the host's side could do next. -/
def State.hostOwns (s : State) : List Own :=
  (match s.task with
    | some (.retrain _ _) => [Own.retrainDone]
    | some (.seal _ _ _ _ _) => [.sealCompletion]
    | some (.restart _) => [.fwRestart]
    | some (.invalidate _ _ _ _ left) => left.map Own.coreInvalidateAck
    | _ => []) ++
  (s.cores.filter (fun (e : Nat × Core) => e.2.recal)).map (fun (e : Nat × Core) => Own.recalibrationDone e.1) ++
  (s.ingress.filter (fun (e : Nat × Ingress) => !e.2.commits.isEmpty)).map (fun (e : Nat × Ingress) => Own.ingressEntryPush e.1) ++
  (s.ctxs.filter (fun (e : Nat × Ctx) => e.2.head != e.2.tail)).map (fun (e : Nat × Ctx) => Own.hostCommand e.1) ++
  (if s.hostLate then s.cores.flatMap (fun (e : Nat × Core) =>
    (e.2.ops.filter (fun o => o.left.any (fun a => isHost a.key))).map (fun o => Own.hostAccessTimeout e.1 o.id)) else []) ++
  (if s.trace.k = 0 then [] else s.cores.flatMap (fun (e : Nat × Core) =>
    if e.2.waves.isEmpty then [] else (List.range 4).map (fun k => Own.pcSample e.1 k)))

/-- Pages of sealed regions that have no mark (R237), and lines that L2 has not written back (R235). -/
def State.homeActs (s : State) : List Act :=
  s.sealed.flatMap (fun (e : Nat × Sealed) => (List.range e.2.pages).map (fun i => Act.event (.pageVerification e.1 i))) ++
  (s.l2.filter (·.2)).map (fun (e : Nat × Bool) => Act.event (.lineWriteBack e.1))

/-- What the device could do next. -/
def State.acts (s : State) : List Act :=
  (s.launchOwns ++ s.hostOwns).map Act.own ++ s.homeActs ++
  s.cores.flatMap (fun (e : Nat × Core) => Core.acts e.1 e.2) ++
  (s.imiss.map (fun m => Own.fetchLineArrival m.1 m.2.1) ++
  (s.heldFaults.filter (fun h => h.replied)).map (fun h => Own.copySlotGrant h.core) ++
  s.deposits.filterMap (fun d =>
    if d.status.isSome then some (Own.sendStatusReturn d.id)
    else if d.refused then some (.depositRetry d.id)
    else if d.held then none else some (.depositArrival d.id))).map Act.own

/-- The meaning of an event that the device's own parts bring about. -/
def Own.run (o : Own) (s : State) : Host.Outcome State Fault Refusal :=
  let all : Mask := 0xFFFFFFFF
  match o with
  | .walkSlotGrant c => execWalkSlotGrant c s
  | .nodeArrival c k => execNodeArrival c k s
  | .stackSpill c k => execStackSpill c k s
  | .stackFill c k => execStackFill c k s
  | .jpopDelivery c q => execJpopDelivery c q s
  | .remoteBenchRefusal c p => execRemoteBenchRefusal c p s
  | .remoteBenchArrival c p => execRemoteBenchArrival c p all s
  | .storeWritePerform c p => execStoreWritePerform c p all s
  | .atomicCompletion c p => execAtomicCompletion c p all s
  | .fenceCompletion c p => execFenceCompletion c p s
  | .loadCompletion c p => execLoadCompletion c p all s
  | .sfuServiceStart c k => execSfuServiceStart c k s
  | .sfuResultWrite c k p => execSfuResultWrite c k p s
  | .engineStart c => execEngineStart c s
  | .engineEffect c => execEngineEffect c s
  | .macrResultWrite c p => execMacrResultWrite c p s
  | .lxLoadDone c => execLxLoadDone c s
  | .copySlotGrant c => execCopySlotGrant c s
  | .copyUnitServe c => execCopyUnitServe c s
  | .copyUnitLanded c j u => execCopyUnitLanded c j u s
  | .copyJobSuspend c j => execCopyJobSuspend c j s
  | .asyncTrapDelivery c w => execAsyncTrapDelivery c w s
  | .sleepExpiry c w m => execSleepExpiry c w m s
  | .waitaPoll c w => execWaitaPoll c w s
  | .cqpopTimeout c w m => execCqpopTimeout c w m s
  | .racqGrant c k => execRacqGrant c k s
  | .priorityPromotion c w => execPriorityPromotion c w s
  | .fetchLineArrival g l => execFetchLineArrival g l s
  | .sendStatusReturn i => execSendStatusReturn i s
  | .depositRetry i => execDepositRetry i s
  | .depositArrival i => execDepositArrival i s
  | .barrierTimeout l c => execBarrierTimeout l c s
  | .teamPlacement => execTeamPlacement s
  | .clusterRetry l => execClusterRetry l s
  | .reservationExpiry l => execReservationExpiry l s
  | .teamRestore t => execTeamRestore t s
  | .autoLaunch q => execAutoLaunch q s
  | .teamQuiet t => execTeamQuiet t s
  | .quietStopLimit l => execQuietStopLimit l s
  | .coreInvalidateAck c => execCoreInvalidateAck c s
  | .reset => execReset s
  | .recalibrationDone c => execRecalibrationDone c true s
  | .retrainDone => execRetrainDone true s
  | .fwRestart => execFwRestart s
  | .sealCompletion => execSealCompletion s
  | .ingressEntryPush w => execIngressEntryPush w s
  | .hostCommand x => State.hostCommand x s
  | .hostAccessTimeout c p => execHostAccessTimeout c p s
  | .pcSample c k => execPcSample c k s

/-- The next turn: the head of the agenda. With an empty agenda the machine boots, and then the parts of the device take
turns, a nanosecond and two clocks each (log entry 2). -/
def State.nextTurn (s : State) : Turn × State :=
  match s.agenda with
  | t :: r => (t, { s with agenda := r })
  | [] =>
    if !s.booted then ({ act := .own .reset }, s)
    else
      let as := s.acts
      let a := nth as (s.turns % max as.length 1) (.own .teamPlacement)
      ({ ns := 1, clocks := 2, act := a }, { s with turns := s.turns + 1 })

/-! ### The turns -/

/-- What follows an instruction or an event: its turn ends and everything that it let go on settles. -/
def State.after (s : State) : State := s.endTurn.settleAll

/-! ### The turn of a slice (R328, R329) -/

/-- What a bundle's turn would come to: it issues, or it cannot, for a line that its fetch missed or with the turns that it
asks for. -/
inductive Trial where
  | issues (s : State)
  | misses (s : State)
  | blocks (asks : List Turn)
  /-- Bench banks have no room yet for requests that it makes (R16, R327). -/
  | barred (rs : List BankReq)
  /-- It may not issue. -/
  | idles

def Trial.ok : Trial → Bool
  | .issues _ => true
  | _ => false

/-- A bundle's turn by trial. -/
def State.tryBundle (run : Instr → State → Host.Outcome State Fault Refusal) (s : State) (c w : Nat) (b : Mask)
    (second : Bool) : Trial :=
  match s.prepare c w b second with
  | .run t i => match run i { t with agenda := [] } with
    | .next u =>
      if u.blocked then .blocks u.agenda
      else
        let need := lacking (t.issueReqs i) s.asked
        if (s.enterAll need).isNone then .barred need else .issues u
    | _ => .blocks []
  | .done u => .issues u
  | .miss t => .misses t
  | .idle => .idles

/-- The names that a second bundle is to write, as its instruction alone leaves them (R280). -/
def State.twinOf (run : Instr → State → Host.Outcome State Fault Refusal) (s : State) (c w : Nat) (q : Mask) : List Nat :=
  match ({ s with wrote := [] } : State).tryBundle run c w q false with
  | .issues u => (u.wrote.filter (fun e => e.1 == c && e.2.1 == w)).map (fun e => e.2.2)
  | _ => []

/-- The state in which the first bundle of a clock takes its turn, with what it and the second one share (R97, R280). -/
def State.withTwin (run : Instr → State → Host.Outcome State Fault Refusal) (s : State) (c w : Nat) (second : Bool) : State :=
  match second, s.agenda with
  | false, t :: _ => (match t.act with
    | .bundle c' w' q true => if c' = c ∧ w' = w then { (s.withSnap c w second) with
        twin := s.twinOf run c w q, offers := [], wrote := [] }
      else s.withSnap c w second
    | _ => s.withSnap c w second)
  | _, _ => s.withSnap c w second

/-- Whether both bundles of a wave issue in one clock, the first and then the second (R97). -/
def State.tryPair (run : Instr → State → Host.Outcome State Fault Refusal) (s : State) (c w : Nat) (p q : Mask) : Bool :=
  match ({ s with snap := some (s.wave c w, (s.slice c (sliceOf w)).phys), twin := s.twinOf run c w q, offers := [], wrote := [] } : State).tryBundle run c w p false with
  | .issues u => (({ u with agenda := [{ act := .bundle c w q true }] } : State).after.tryBundle run c w q true).ok
  | _ => false

/-- What a bundle that cannot issue leaves: the line that its fetch missed (R14), its wait at the instruction (R326), or the saving of a wave for the register
that it lacks (R272), or the requests that have found room in their banks (R16). -/
def State.leftBy (s : State) (c w : Nat) (b : Mask) : Trial → State
  | .misses t => t
  | .blocks as => ({ s with agenda := as.filter (fun a => !s.agenda.contains a) ++ s.agenda }).modWave c w (fun x =>
      x.sticks b (nth x.pcs ((lowest b).getD 0) 0) true)
  | .barred rs => s.offerReqs rs
  | .issues _ => s
  | .idles => s

/-- A slice's turn: the eligible bundles by trial, the wave of the least effective priority number that issued longest
ago, and its bundles as the next turns (R329). `run` executes an instruction. -/
def State.sliceTurn (run : Instr → State → Host.Outcome State Fault Refusal) (s : State) (c k : Nat) : State :=
  if s.slicesFrom c k then s else
  let s := (s.sliceWaves c k).foldl (fun s v => v.2.bundles.foldl (fun s b => s.leftBy c v.1 b (s.tryBundle run c v.1 b false)) s) s
  let ready := ((s.sliceWaves c k).map (fun v => (v.1, v.2.bundles.filter (fun b => (s.tryBundle run c v.1 b false).ok)))).filter
    (fun e => !e.2.isEmpty)
  let missing := fun (w : Nat) => s.imiss.any (fun m => m.2.2.1 == c && m.2.2.2.1 == w)
  let best := ready.foldl (fun (m : Option (Nat × List Mask)) e => match m with
    | none => some e
    | some b => if (s.wave c e.1).prio < (s.wave c b.1).prio ∨
        ((s.wave c e.1).prio = (s.wave c b.1).prio ∧ (s.wave c e.1).lastIssue < (s.wave c b.1).lastIssue) then some e else m) none
  let won := best.map (·.1)
  let s := (s.sliceWaves c k).foldl (fun s v =>
    if some v.1 = won then s
    else if (ready.map (·.1)).contains v.1 then s.modWave c v.1 (fun x => x.age (s.clkOf c))
    else s.modWave c v.1 (fun x => { x with unchosen := if missing v.1 then x.unchosen else 0, readyAt := none })) s
  match best with
  | none => s
  | some (w, el) =>
    let x := s.wave c w
    let ch := x.choose el (s.tryPair run c w)
    let (stamp, s) := s.newId
    let s := s.modWave c w (fun x => { (x.starved el ch).hintTick with
      unchosen := 0, readyAt := none, lastIssue := stamp, prio := (s.launchOf x).hdr.prio })
    let turns : List Turn := match ch with
      | [] => []
      | a :: r => { act := .bundle c w a false } :: r.map (fun b => { act := .bundle c w b true })
    let up : List Turn := ((s.sliceWaves c k).filter (fun v => decide (4096 ≤ v.2.unchosen))).map (fun v =>
      { act := .own (.priorityPromotion c v.1) })
    { s with agenda := turns ++ up ++ s.agenda }

/-- A copy that a cache keeps is dropped (R12, R229, R355, R412). -/
def State.forget (s : State) (cache c key : Nat) : State :=
  let drop := fun (l : List Tlb) => l.take key ++ l.drop (key + 1)
  match cache with
  | 0 => match (s.core c).line? key with
    | some y => if y.dirty = 0 ∧ y.pins.isEmpty = true then s.dropLine c key else s
    | none => s
  | 2 => s.modCore c (fun k => { k with tlb := drop k.tlb })
  | 3 => { s with gtlb := FMap.set s.gtlb (groupOf c) (drop (FMap.getD s.gtlb (groupOf c) [])) }
  | 4 => { s with tlb := drop s.tlb }
  | 5 => { s with icache := FMap.set s.icache (groupOf c) (FMap.erase (FMap.getD s.icache (groupOf c) []) key) }
  | 6 => s.modCore c (fun k => { k with sp := { k.sp with nodes := FMap.erase k.sp.nodes key } })
  | 7 => s.modCore c (fun k => { k with sp := { k.sp with progs := FMap.erase k.sp.progs key } })
  | 8 => s.modCore c (fun k => { k with sp := { k.sp with descs := FMap.erase k.sp.descs key } })
  | _ => s

/-- The turn of a core's Spindle: the next ready walk executes one word (R170); past its length it ends (R354). -/
def State.walkTurn (run : Instr → State → Host.Outcome State Fault Refusal) (s : State) (c : Nat) :
    Host.Outcome State Fault Refusal :=
  match s.nextWalk c with
  | none => .next s
  | some k =>
    let s := s.modCore c (fun q => { q with sp := { q.sp with last := k } })
    match s.walk? c k with
    | none => .next s
    | some x =>
      if x.plen ≤ x.pc then .next (s.walkIllegal c k 1)
      else match s.fetchWalkWord c k x with
        | (s, none) => .next s
        | (s, some w) => run (decodeWalk w) { s with cur := some { agent := .walk, core := c, wave := k, lanes := 0, pc := 0 } }

/-- The turn of a core's Jig: the word at its `PC` (R315, R321). -/
def State.jigTurn (run : Instr → State → Host.Outcome State Fault Refusal) (s : State) (c : Nat) :
    Host.Outcome State Fault Refusal :=
  let j := s.jig c
  if j.running then
    run (decodeJig (nth j.prog j.pc 0)) { s with cur := some { agent := .jig, core := c, wave := 0, lanes := 0, pc := 0 } }
  else .next s

/-- A turn of the schedule, `run` executing an instruction. -/
def State.runAct (run : Instr → State → Host.Outcome State Fault Refusal) (s : State) (a : Act) :
    Host.Outcome State Fault Refusal :=
  match a with
  | .event i => run i s
  | .own o => o.run s
  | .slice c k => .next (s.sliceTurn run c k)
  | .bundle c w b second => match (s.withTwin run c w second).prepare c w b second with
    | .idle => .next (s.noSecond c w second)
    | .miss t => .next (t.noSecond c w second)
    | .done t => .next t
    | .run t i => run i t
  | .walk c => s.walkTurn run c
  | .jig c => s.jigTurn run c
  | .spill c k => .next (s.spillWave c k)
  | .forget cache c key => .next (s.forget cache c key)
  | .outside => .next s.serveOutside
  | .takeUp => .next s.serveTakeUp

/-- Whether a bundle that waits at its instruction would still do so if its slice, its mailboxes and its wave were free for it now:
what holds the wave back otherwise is no wait inside the instruction. -/
def State.stillStuck (run : Instr → State → Host.Outcome State Fault Refusal) (s : State) (c w : Nat) (b : Mask) : Bool :=
  let pc := nth (s.wave c w).pcs ((lowest b).getD 0) 0
  match (s.fetchInstr c w (s.ctxOf (s.wave c w)) pc).2 with
  | .miss => true
  | .fault _ _ _ => false
  | .instr i base len =>
    match run i { s with
      agenda := [], snap := none, twin := [], offers := [], wrote := [], blocked := false
      cur := some { core := c, wave := w, lanes := b, second := false, pc := pc, base := base, len := len } } with
    | .next u => u.blocked
    | _ => true

/-- Bundles whose instruction can issue by now wait no longer, so the next partition takes their threads (R326). -/
def State.unstick (run : Instr → State → Host.Outcome State Fault Refusal) (s : State) : State :=
  s.cores.foldl (fun s (e : Nat × Core) => e.2.waves.foldl (fun s (y : Nat × Wave) =>
    if y.2.stuck.isEmpty then s
    else s.modWave e.1 y.1 (fun x => { x with stuck := x.stuck.filter (fun b => s.stillStuck run e.1 y.1 (b.1 &&& x.live)) })) s) s

/-- What an act comes to behind the Bench banks (R16) and the channels (R474). -/
def State.actGated (run : Instr → State → Host.Outcome State Fault Refusal) (s : State) (a : Act) : Host.Outcome State Fault Refusal :=
  s.gated a (s.waitsFor (fun u => u.runAct run a)) (s.runAct run a)

/-- One turn of the machine: time passes, the lanes of an event present their requests to the Bench banks, and its act runs for those
that have entered. -/
def State.turn (run : Instr → State → Host.Outcome State Fault Refusal) (s : State) : Host.Outcome State Fault Refusal :=
  let t := s.nextTurn
  let u := (t.2.unstick run).advance t.1.ns t.1.clocks t.1.lost
  match (match u.present t.1.act with
    | (u, some a) => u.actGated run a
    | (u, none) => .next u) with
  | .next s => .next s.after
  | o => o

/-! ### Placing an instruction (log entry 5) -/

/-- Virtual address of the code that `withFetchWord` places, when it starts a wave or a walk of its own. -/
def placeVa : Nat := 0x10000

/-- A wave of its own in slot 0 of core 0, when there is none. -/
def State.withWave (s : State) : State :=
  if (s.wave? 0 0).isSome then s
  else
    let l : Launch := { hdr := {}, addr := 0, origin := .host 0 0 0, prio := 0, placed := 1, nextOrd := 1 }
    let t : Team := { launch := 0, ctx := 0, members := [{ core := 0, slot := 0, base := 0 }] }
    let x : Wave := { pcs := List.replicate 32 (BitVec.ofNat 64 placeVa) }
    { s with
      cores := FMap.mod s.cores 0 {} (fun k => { k with waves := FMap.set k.waves 0 x, slots := FMap.set k.slots 0 0 })
      teams := if (FMap.get s.teams 0).isSome then s.teams else FMap.set s.teams 0 t
      launches := if (FMap.get s.launches 0).isSome then s.launches else FMap.set s.launches 0 l }

/-- Code bytes at a virtual address of a context, where an instruction fetch of core 0 finds them: the translation of its
64 KiB page and the lines of its group's instruction cache. -/
def State.withCode (s : State) (ctx va : Nat) (bs : List Byte) : State :=
  let leaf : DWord := BitVec.ofNat 64 (va / 65536 * 65536 + 0x14)
  let t : Tlb := { ctx := ctx, page := va / 65536, size := 16, leaf := leaf }
  let k := leafFrame leaf + va % 65536
  let s := { s with
    mem := Memory.writeBytes s.mem k bs
    gtlb := FMap.set s.gtlb 0 (t :: FMap.getD s.gtlb 0 []) }
  { s with icache := FMap.set s.icache 0 ((linesOf k bs.length).foldl (fun m l =>
      FMap.set m l (Memory.readBytes s.mem l 256)) (FMap.getD s.icache 0 [])) }

/-- An instruction of `nbits` bits where the next turn fetches it: 64 bits and more for wave 0 of core 0; 32 bits for the
Jig of core 0 when only the Jig has such a word, else for walk 0 of core 0 (log entry 5). -/
def State.placeWord (s : State) (nbits w : Nat) : State :=
  let v : Word := BitVec.ofNat 32 w
  let first := fun (s : State) (a : Act) => { s with agenda := { act := a } :: s.agenda }
  if 32 < nbits then
    let s := s.withWave
    let x := s.wave 0 0
    let b := x.bundles.head?.getD 0
    let pc := (nth x.pcs ((lowest b).getD 0) 0).toNat
    let s := { s with cores := FMap.mod s.cores 0 {} (fun k => { k with
      slices := k.slices.map (fun (e : Nat × Slice) => (e.1, { e.2 with issued := none })) }) }
    first (s.withCode (s.ctxOf x) pc (leBytes 16 w)) (.bundle 0 0 b false)
  else if tableWordIsJig v then
    first (s.modJig 0 (fun j => { j with prog := setNth j.prog j.pc v, len := 256, running := true })) (.jig 0)
  else
    let x : Walk := match s.walk? 0 0 with
      | some x => x
      | none => { ctx := 0, plen := 4096, prog := BitVec.ofNat 64 placeVa }
    let va := x.prog.toNat + 4 * x.pc
    let s := s.withCode x.ctx va (leBytes 4 w)
    let line := va / 64 * 64
    first (s.modCore 0 (fun q => { q with
      sp := { q.sp with
        walks := FMap.set q.sp.walks 0 { x with wait := .ready }
        last := 511
        progs := FMap.set q.sp.progs line (Memory.readBytes s.mem line 64) } })) (.walk 0)

end Sys2Proof.Machine
end

