-- ==== Sys2Proof/Machine/Step.lean ====
section
/-! DEFINITION. The step: one turn of the schedule (log entry 1), and the placing of an instruction for the host. -/
namespace Sys2Proof.Machine

/-- One step of the machine: the next turn of the schedule. -/
def step (s : State) : Host.Outcome State Fault Refusal := s.turn exec

/-- `s` with an instruction stored where the next step fetches it (log entry 5). -/
def State.withFetchWord (s : State) (nbits w : Nat) : State := s.placeWord nbits w

end Sys2Proof.Machine
end

