-- ==== Sys2Proof/Safety.lean ====
section
/-! DEFINITION. What the statements call a sound state, a safe step, what a name reads as, a bundle that executes its
instruction, and an instruction that completes. -/
namespace Sys2Proof.Machine

/-- The memory list is canonical: addresses strictly rising, no entry equal to what an unlisted address reads as. -/
def State.memOk (s : State) : Prop := Memory.wf s.mem = true

/-- A step that gives a next state. -/
def Safe (s : State) : Prop := ∃ t, step s = .next t

/-- The register that a name of a wave reads (R263-R267). -/
def State.vecOf (s : State) (c w n : Nat) : PReg := pregOf (s.slice c (sliceOf w)).phys ((s.wave c w).reg n)

/-- The value of an operand in a lane, among the sources that an instruction read. -/
def srcAt (vs : List Src) (i l : Nat) : Nat := (nth vs i Src.none).nat l

/-- A word names no predicate that a `ZFLG` of its wave is still to write (R154): `dflt` is the destination class of the form without
an extension, and `more` the predicates that it names beside its operands. -/
def Unnamed (s : State) (x : Iss) (o : Opnds) (dflt : DCls) (more : List Nat) : Prop :=
  ∀ p ∈ namedPreds o dflt more, p ∉ s.zflgPreds x

/-- Bundle `x` of `s` executes its instruction on its lanes `act` in `s0`, the state after the acquire of a wave's first
instruction: it names no predicate that a pending `ZFLG` writes (R154), no prefix stands in its way (R62), and its guard leaves a
lane (R5). -/
structure Issues (s : State) (o : Opnds) (pfx : Bool) (s0 : State) (x : Iss) (act : Mask) (dflt : DCls := .none)
    (more : List Nat := []) : Prop where
  bundle : s.issuing = some x
  first : s0 = s.firstAcquire x
  unnamed : Unnamed s0 x o dflt more
  noMisuse : srPP x.src.sr = true → pfx = true
  guarded : s0.guard x o = some act
  active : act ≠ 0

/-- The instruction retires on `act` with the effect `fx`, as long as the wave keeps to its transit registers (R271). -/
def Retires (i : Instr) (s s0 : State) (x : Iss) (act : Mask) (o : Opnds) (pfx : Bool) (fx : Fx) : Prop :=
  s0.transitsOver x fx.s = false → exec i s = .next (fx.s.retire x act o pfx fx)

end Sys2Proof.Machine
end

