-- ==== Sys2Proof/Certificates/Slice0/Obligations.lean ====
section
/-! DEFINITION. The statements for the provers. -/
namespace Sys2Proof.Machine

/-! ### Computing instructions -/

/-- A computing instruction with operands `o` of shape `h` and lane function `f` retires (R94-R97): it reads its sources,
and each active lane of its destination gets `f` of them, from the reuse table when that holds the result (R275). `op` is
the operation part of its reuse key (R274). -/
def ComputesAt (i : Instr) (o : Opnds) (pfx : Bool) (op : Iss → List Nat) (h : Shape) (chk : OperandCheck) (f : Iss → LaneFn)
    (s s0 : State) (x : Iss) (act : Mask) : Prop :=
  ∀ (vs : List Src) (ns : List Nat),
    x.namesOk act (h.srcs o ++ (if dclsOf o h.dflt = .vec then [dstOpd o h.d] else [])) = .ok () →
    s0.readOpds x act o (h.srcs o) = .ok vs →
    (if dclsOf o h.dflt = .vec then x.names act 3 o.d.toNat h.d else .ok []) = .ok ns →
    let v := h.pick vs
    let r := f x act v.1 v.2.1 v.2.2
    let p := if dclsOf o h.dflt = .pred then some o.d.toNat else none
    let k := reuseKey x act (op x) vs p ns
    let e := h.elig && (dclsOf o h.dflt == .vec || dclsOf o h.dflt == .pred) && !vs.any (·.dyn)
    chk x act v.1 v.2.1 v.2.2 = none →
    ∀ fx : Fx,
      (e = true → s0.reuseHit x act k ns p h.raise = some (.ok fx) → Retires i s s0 x act o pfx fx) ∧
      ((e = true → s0.reuseHit x act k ns p h.raise = none) →
        s0.putResult x act o h (if e then some k else none) ns r = .ok fx → Retires i s s0 x act o pfx fx)

/-- The usual computing instruction: no prefix, no trap before its guard, no operand check. -/
def ComputesPlain (i : Instr) (o : Opnds) (op : Iss → List Nat) (h : Shape) (f : Iss → LaneFn) : Prop :=
  ∀ s s0 x act, Issues s o false s0 x act h.dflt → ComputesAt i o false op h noCheck f s s0 x act

/-- The bundle of `i` waits inside its instruction for `k`, in the state `t` (R327, R370). -/
def Waits (i : Instr) (s s0 : State) (x : Iss) (act : Mask) (o : Opnds) (t : State) (k : WaitKind) : Prop :=
  s0.transitsOver x t = false →
    exec i s = .next (((boxesOf o).foldl (fun u n => u.seeBox x.c x.w (nth x.src.mbox n {})) t).startWait x act (takesOf o) k)

/-- A queued instruction (R122-R124) retires with its entry in the slice's queue and its destination PENDING, from the
reuse table, or waits for the value of a mailbox. `f` gives each lane its result and flags. -/
def Queues (i : Instr) (o : Opnds) (op : Iss → List Nat) (h : Shape) (f : Iss → LaneFn) : Prop :=
  ∀ (s s0 : State) (x : Iss) (act : Mask) (vs : List Src) (ns : List Nat),
    Issues s o false s0 x act →
    x.namesOk act (h.srcs o ++ (if dclsOf o .vec = .vec then [dstOpd o h.d] else [])) = .ok () →
    s0.readOpds x act o (h.srcs o) = .ok vs →
    (if dclsOf o .vec = .vec then x.names act 3 o.d.toNat h.d else .ok []) = .ok ns →
    let v := h.pick vs
    let r := f x act v.1 v.2.1 v.2.2
    let k := reuseKey x act (op x) vs none ns
    let e : Bool := decide (dclsOf o .vec = .vec) && !vs.any (·.dyn)
    (∀ fx, e = true → s0.reuseHit x act k ns none h.raise = some (.ok fx) → Retires i s s0 x act o false fx) ∧
    ((e = true → s0.reuseHit x act k ns none h.raise = none) → s0.sfuRoom x.c x.w = true →
      (∀ fx, s0.sfuEnter x act o h vs ns (if e then some k else none) r = .ok fx → Retires i s s0 x act o false fx) ∧
      (∀ t q, s0.sfuEnter x act o h vs ns (if e then some k else none) r = .error (.wait t q) → Waits i s s0 x act o t q))

/-- The operation that a LOAD, STORE or ATOM instruction of form `f` leaves in flight, with the accesses `accs` of the lanes that did
not fault (R286, R294). -/
def accessOp (s1 s2 : State) (x : Iss) (act : Mask) (o : Opnds) (f : MemForm) (accs : List LaneAcc)
    (faults : List (Nat × Nat × Cause × DWord)) (dest : Dest) (prior : List VReg) (transit : List Nat) (key : Option (List Nat)) :
    Op :=
  { id := s2.fresh, wave := x.w, kind := f.kind, pc := x.pc, clk := x.clk, bundle := x.lanes, active := act, lanes := accs, size := f.size,
    signed := f.signed, acq := f.acq, rel := f.rel, vol := f.vol, rmt := memRmt o, scope := memScope o, aop := f.aop, w64 := f.w64,
    bench := f.bench, remote := f.remote, once := f.once, dest := dest, faults := faults, prior := prior, transit := transit,
    key := if reusable x.c f accs && faults.isEmpty then key else none
    gens := s1.gensOf x.c x.slice
    watch := s1.watchHit x f (accs.map (fun a => (a.lane, a.va)))
    hold := (!faults.isEmpty || accs.any (s2.risky f x.ctx)) && f.use == .write }

/-- The machine with an operation of a bundle put in flight. -/
def State.inFlight (s : State) (x : Iss) (e : Op) : State :=
  (s.newId.2.modCore x.c (fun k => { k with ops := k.ops ++ [e] })).sweep x.c x.slice

/-- A LOAD, STORE or ATOM instruction of form `f`, whose operand fields retire as `p` (R286-R303). Not served from the reuse table, it
puts the accesses of its lanes that did not fault in flight, its destination PENDING, and retires; when a lane faulted or may fault
yet (`risky`, log entry 21), or its destination is a mailbox, its bundle waits for them (R95, R290). When every lane faults it retires with the trap of
R290; a once-acting form then traps without retiring (R291). From the reuse table it takes its result at once (R277). A page of the
partner board or of the host that has yet to answer a translation of a lane keeps it from issuing (`transWaits`). -/
def StartsAccess (i : Instr) (o p : Opnds) (f : MemForm) (op : Iss → List Nat) : Prop :=
  ∀ (s s0 : State) (x : Iss) (act : Mask) (vs : List Src) (ns : List Nat),
    Issues s p false s0 x act f.dst →
    let opds := [{ fieldA o (if f.bench || f.remote then 1 else 2) with field := true }, { fieldB o with field := true }] ++ f.data
    x.namesOk act (opds ++ (if f.dst = .vec then [dstOpd o f.n] else [])) = .ok () →
    s0.readOpds x act o opds = .ok vs →
    (if f.dst = .vec then x.names act 3 o.d.toNat f.n else .ok []) = .ok ns →
    let ls := if f.once then [(lowest act).getD 0] else lanesOf act
    let eas := ls.map (fun l =>
      (l, memEa o (f.bench || f.remote) f.size (srcAt vs 0 l) (srcAt vs 1 l), memBound o (srcAt vs 1 l)))
    let k := if f.reuse && f.dst == .vec && !vs.any (·.dyn) then
      some (reuseKey x act (op x ++ [o.imm.toNat] ++ (if f.bench then [x.src.team] else [])) vs none ns) else none
    ((k.bind (fun k => s0.reuseHit x act k ns none 0) = none) →
      (f.bench = true ∨ f.remote = true ∨ ∀ e ∈ eas, s0.transWaits (.core x.c) x.ctx e.2.1 = false) →
      ∀ s1 placed faults, s0.placeLanes x.c x.src.team x.ctx f eas = (s1, placed, faults) →
      ((placed = [] ∨ f.once = true → memTrap f.once f.use.code x.pc x.lanes act (s0.now x).live faults = none) →
        ∀ dest prior transit s2,
        let accs := placed.map (fun a => { a with
          data := leBytes f.size (srcAt vs 2 a.lane)
          data2 := leBytes f.size (srcAt vs 2 a.lane / 2 ^ (8 * f.size)) })
        let ok := if f.once then act else maskOf (fun l => (accs.map (·.lane)).contains l)
        s1.memDest x ok o f ns = .ok (dest, prior, transit, s2) →
        let e := accessOp s1 s2 x act o f accs faults dest prior transit (s1.entryKey x ns k)
        let waits := (∃ n, dest = .mbox n) ∨ faults ≠ [] ∨ ∃ a ∈ accs, s2.risky f x.ctx a = true
        (¬ waits → Retires i s s0 x act p false { s := s2.inFlight x e, after := watchTrap x.pc x.lanes e.watch }) ∧
        (waits → Waits i s s0 x act p (s2.inFlight x e) (.result e.id))) ∧
      (∀ t, placed = [] → memTrap f.once f.use.code x.pc x.lanes act (s0.now x).live faults = some t →
        (f.once = false → Retires i s s0 x act p false { s := s1, after := some t }) ∧
        (f.once = true → exec i s = .next (s0.trapNow x t)))) ∧
    (∀ fx, k.bind (fun k => s0.reuseHit x act k ns none 0) = some (.ok fx) →
      Retires i s s0 x act p false { fx with
        after := watchTrap x.pc x.lanes (s0.watchHit x f (eas.map (fun e => (e.1, e.2.1)))) })

/-- A copy start or resume whose lanes make the requests `qs` (R309, R313): with earlier accesses of its threads performed it
serves them in lane order, and retires, with the fault of its faulted lanes, or waits while lanes lack a job slot. -/
def CopyRequests (i : Instr) (o : Opnds) (hasA : Bool) (mk : Nat → Nat → Nat → Nat → CopyReq) : Prop :=
  ∀ (s s0 : State) (x : Iss) (act : Mask) (vs : List Src),
    Issues s o false s0 x act →
    let opds := (if hasA then [fieldA o 2] else []) ++ [fieldB o] ++ (if hasA then [fieldC o] else [])
    s0.sources x act o opds = .ok vs → s0.unperformed x.c x.w act s0.fresh = false →
    let a := if hasA then srcAt vs 0 else fun _ => 0
    let b := if hasA then srcAt vs 1 else srcAt vs 0
    let n := if hasA then srcAt vs 2 else fun _ => 0
    let r := s0.copyReqs x.c x.src.team x.ctx [] [] ((lanesOf act).map (fun l => mk l (a l) (b l) (n l)))
    (r.2.1 = [] → Retires i s s0 x act o false { s := r.1, after := copyTrap x r.2.2.2 }) ∧
    (r.2.1 ≠ [] → Waits i s s0 x act o r.1 (.copy r.2.1 r.2.2.1 r.2.2.2))

/-- The walk word `i` completes: it changes its walk by `f`, of the walk's slot, and the walk goes on at its next word (R170, R220). -/
def WalkGoesOn (i : Instr) (f : Nat → Walk → Walk) : Prop :=
  ∀ (s : State) (c k : Nat) (x : Walk), s.walkNow = some (c, k, x) → exec i s = .next ((s.setWalk c k (f k x)).walkNext c k)

/-- The Jig word `i` completes: it changes the running Jig by `f`, and the Jig goes on at its next word (R315, R320). -/
def JigGoesOn (i : Instr) (f : Jig → Jig) : Prop :=
  ∀ (s : State) (c : Nat) (j : Jig), s.jigNow = some (c, j) → exec i s = .next (s.setJig c (f j).next)

/-- What a step makes of an instruction's outcome: after it everything that it let go on settles. -/
def settled : Host.Outcome State Fault Refusal → Host.Outcome State Fault Refusal
  | .next s => .next s.after
  | o => o

/-- The management processor takes a command: the machine is up with its firmware and no command runs (R417, R469). -/
def TakesCommand (s : State) : Prop := s.booted = true ∧ s.hostUp = true ∧ s.bootStep ≠ 2 ∧ s.task = none

end Sys2Proof.Machine

open Sys2Proof Sys2Proof.Machine

/-- R101, R102, R104: the IALU instructions retire with their element operation in every active lane. -/
def Obligations.IntegerAluCompletes : Prop :=
  (∀ o t sat, ComputesPlain (.iadd o t sat) o (opItems (.iadd o t sat)) { b := 1 } (laneFn (fun x y _ =>
    lanewise2 t (ITy.signed t) (fun a b => satIf sat t (ITy.signed t) (a + b)) x y))) ∧
  (∀ o t sat, ComputesPlain (.isub o t sat) o (opItems (.isub o t sat)) { b := 1 } (laneFn (fun x y _ =>
    lanewise2 t (ITy.signed t) (fun a b => satIf sat t (ITy.signed t) (a - b)) x y))) ∧
  (∀ o t sat, ComputesPlain (.ineg o t sat) o (opItems (.ineg o t sat)) {} (laneFn (fun x _ _ =>
    lanewise1 t (signedOrB32 t) (fun a => satIf sat t (signedOrB32 t) (-a)) x))) ∧
  (∀ o t sat, ComputesPlain (.iabs o t sat) o (opItems (.iabs o t sat)) {} (laneFn (fun x _ _ =>
    lanewise1 t (signedOrB32 t) (fun a => satIf sat t (signedOrB32 t) a.natAbs) x))) ∧
  (∀ o t, ComputesPlain (.imin o t) o (opItems (.imin o t)) { b := 1 } (laneFn (fun x y _ =>
    lanewise2 t (ITy.signed t) min x y))) ∧
  (∀ o t, ComputesPlain (.imax o t) o (opItems (.imax o t)) { b := 1 } (laneFn (fun x y _ =>
    lanewise2 t (ITy.signed t) max x y))) ∧
  (∀ o t, ComputesPlain (.and o t) o (opItems (.and o t)) { b := 1 } (laneFn (fun x y _ => x &&& y))) ∧
  (∀ o t, ComputesPlain (.or o t) o (opItems (.or o t)) { b := 1 } (laneFn (fun x y _ => x ||| y))) ∧
  (∀ o t, ComputesPlain (.xor o t) o (opItems (.xor o t)) { b := 1 } (laneFn (fun x y _ => x ^^^ y))) ∧
  (∀ o t, ComputesPlain (.andn o t) o (opItems (.andn o t)) { b := 1 } (laneFn (fun x y _ => x &&& ~~~y))) ∧
  (∀ o t, ComputesPlain (.not o t) o (opItems (.not o t)) {} (laneFn (fun x _ _ => ~~~x))) ∧
  (∀ o t, ComputesPlain (.shl o t) o (opItems (.shl o t)) { b := 1 } (laneFn (fun x y _ =>
    lanewiseU t (fun w a n => if w ≤ n then 0 else a * 2 ^ n % 2 ^ w) x y))) ∧
  (∀ o t, ComputesPlain (.shr o t) o (opItems (.shr o t)) { b := 1 } (laneFn (fun x y _ =>
    lanewiseU t (fun w a n => if w ≤ n then 0 else a / 2 ^ n) x y))) ∧
  (∀ o t, ComputesPlain (.sar o t) o (opItems (.sar o t)) { b := 1 } (laneFn (fun x y _ => lanewiseU t sarElem x y))) ∧
  (∀ o t, ComputesPlain (.rol o t) o (opItems (.rol o t)) { b := 1 } (laneFn (fun x y _ => lanewiseU t rolElem x y))) ∧
  (∀ o t c, ComputesPlain (.iset o t c) o (opItems (.iset o t c)) { b := 1 } (laneFn (fun x y _ =>
    lanewise2 t (ITy.signed t) (fun a b => if intCmp c a b then -1 else 0) x y)))

/-- R71, R102: element `e` of a packed result is the operation on element `e` of the operands, at every width of `ITY`. -/
def Obligations.ElementsOfLane : Prop :=
  ∀ (t : ITy) (e : Nat), e < 32 / ITy.width t →
    (∀ sg f x y, elemNat (lanewise2 t sg f x y).toNat e (ITy.width t) =
      truncInt (f (intOf (elemNat x.toNat e (ITy.width t)) (ITy.width t) sg)
        (intOf (elemNat y.toNat e (ITy.width t)) (ITy.width t) sg)) (ITy.width t)) ∧
    (∀ sg f x y z, elemNat (lanewise3 t sg f x y z).toNat e (ITy.width t) =
      truncInt (f (intOf (elemNat x.toNat e (ITy.width t)) (ITy.width t) sg)
        (intOf (elemNat y.toNat e (ITy.width t)) (ITy.width t) sg)
        (intOf (elemNat z.toNat e (ITy.width t)) (ITy.width t) sg)) (ITy.width t)) ∧
    (∀ f x y, elemNat (lanewiseU t f x y).toNat e (ITy.width t) =
      f (ITy.width t) (elemNat x.toNat e (ITy.width t)) (elemNat y.toNat e (ITy.width t)) % 2 ^ ITy.width t)

/-- R105, R107-R109: the multiplications, bit operations and 64-bit address operations retire. -/
def Obligations.MultiplyBitsAddressComplete : Prop :=
  (∀ o t, ComputesPlain (.imul o t) o (opItems (.imul o t)) { b := 1 } (laneFn (fun x y _ =>
    lanewise2 t (ITy.signed t) (fun a b => a * b) x y))) ∧
  (∀ o t, ComputesPlain (.imulh o t) o (opItems (.imulh o t)) { b := 1 } (laneFn (fun x y _ =>
    lanewise2 t (ITy.signed t) (fun a b => a * b / 2 ^ ITy.width t) x y))) ∧
  (∀ o t, ComputesPlain (.imad o t) o (opItems (.imad o t)) { b := 1, c := 1 } (laneFn (fun x y z =>
    lanewise3 t (ITy.signed t) (fun a b c => a * b + c) x y z))) ∧
  (∀ o t, ComputesPlain (.imadw o t) o (opItems (.imadw o t)) { b := 1, c := 2, d := 2 } (fun _ _ a b c l =>
    (truncInt (intOf (a l) 32 (ITy.signed t) * intOf (b l) 32 (ITy.signed t) + intOf (c l) 64 (ITy.signed t)) 64, 0))) ∧
  (∀ o t, ComputesPlain (.popc o t) o (opItems (.popc o t)) {} (laneFn (fun x _ _ => lanewiseU t (fun w a _ => popElem w a) x 0))) ∧
  (∀ o t, ComputesPlain (.clz o t) o (opItems (.clz o t)) {} (laneFn (fun x _ _ => lanewiseU t (fun w a _ => clzElem w a) x 0))) ∧
  (∀ o t, ComputesPlain (.ctz o t) o (opItems (.ctz o t)) {} (laneFn (fun x _ _ => lanewiseU t (fun w a _ => ctzElem w a) x 0))) ∧
  (∀ o t, ComputesPlain (.brev o t) o (opItems (.brev o t)) {} (laneFn (fun x _ _ => lanewiseU t (fun w a _ => brevElem w a) x 0))) ∧
  (∀ o t, ComputesPlain (.bfe o t) o (opItems (.bfe o t)) { b := 1 } (laneFn (fun x y _ => bfe (ITy.signed t) x y))) ∧
  (∀ o t, ComputesPlain (.bfi o t) o (opItems (.bfi o t)) { b := 1, c := 1 } (laneFn bfi)) ∧
  (∀ o t, ComputesPlain (.fshl o t) o (opItems (.fshl o t)) { b := 1, c := 1 } (laneFn fshlWord)) ∧
  (∀ o t, ComputesPlain (.fshr o t) o (opItems (.fshr o t)) { b := 1, c := 1 } (laneFn fshrWord)) ∧
  (∀ o t, ComputesPlain (.bperm o t) o (opItems (.bperm o t)) { b := 1, c := 1 } (laneFn bpermWord)) ∧
  (∀ o k, ComputesPlain (.lea o k) o (opItems (.lea o k)) { a := 2, b := 1, d := 2 } (fun _ _ a b _ l =>
    (truncInt ((a l : Int) + intOf (b l) 32 true * 2 ^ k.toNat) 64, 0))) ∧
  (∀ o, ComputesPlain (.iadd64 o) o (opItems (.iadd64 o)) { a := 2, b := 2, d := 2 } (fun _ _ a b _ l =>
    ((a l + b l) % 2 ^ 64, 0))) ∧
  (∀ o, ComputesPlain (.isub64 o) o (opItems (.isub64 o)) { a := 2, b := 2, d := 2 } (fun _ _ a b _ l =>
    (truncInt ((a l : Int) - (b l : Int)) 64, 0))) ∧
  (∀ o c sg, ComputesPlain (.iset64 o c sg) o (opItems (.iset64 o c sg)) { a := 2, b := 2 } (fun _ _ a b _ l =>
    (if intCmp c (intOf (a l) 64 sg) (intOf (b l) 64 sg) then 2 ^ 32 - 1 else 0, 0)))

/-- R110, R112, R127-R130: the moves, the predicate instructions and the cross-lane instructions retire. -/
def Obligations.MovePredicateLaneComplete : Prop :=
  (∀ o pair, ComputesPlain (.mov o pair) o (opItems (.mov o pair)) { a := pairN pair, d := pairN pair }
    (fun _ _ a _ _ l => (a l, 0))) ∧
  (∀ o pair, ComputesPlain (.movi o pair) o (opItems (.movi o pair)) { a := pairN pair, b := pairN pair, d := pairN pair }
    (fun _ _ a b _ l => ((a l + b l * l) % 2 ^ (32 * pairN pair), 0))) ∧
  (∀ o pair, ComputesPlain (.sel o pair) o (opItems (.sel o pair))
    { a := pairN pair, b := pairN pair, c := 1, pc := true, d := pairN pair }
    (fun _ _ a b c l => (if c l = 1 then a l else b l, 0))) ∧
  (∀ o tt, ComputesPlain (.plop o tt) o (opItems (.plop o tt)) { b := 1, pa := true, pb := true, dflt := .pred }
    (fun _ _ a b _ l => (if tt.getLsbD (2 * a l + b l) then 1 else 0, 0))) ∧
  (∀ o v, ComputesPlain (.pset o v) o (opItems (.pset o v)) { a := 0, dflt := .pred }
    (fun _ _ _ _ _ _ => (if v then 1 else 0, 0))) ∧
  (∀ o, ComputesPlain (.pmov o) o (opItems (.pmov o)) { dflt := .pred }
    (fun _ _ a _ _ l => (if o.ca = .vec then a l else if (a l).testBit l then 1 else 0, 0))) ∧
  (∀ o m, ComputesPlain (.shfl o m) o (opItems (.shfl o m)) { b := 1 } (fun _ _ a b _ l => (a (shflLane m l (b l)), 0))) ∧
  (∀ o, ComputesPlain (.bcst o) o (opItems (.bcst o)) { b := if o.cb = .none then 0 else 1 } (fun _ act a b _ l =>
    (a (if o.cb = .none then (lowest act).getD 0 else b l % 32), 0))) ∧
  (∀ o v, ComputesPlain (.vote o v) o (opItems (.vote o v)) { pa := true, dflt := .sca }
    (fun _ act a _ _ _ => (voteOf v act a, 0))) ∧
  (∀ o op excl t, ComputesPlain (.scan o op excl t) o (opItems (.scan o op excl t)) {} (fun _ act a _ _ l =>
    let acc := (scanOver op t a ((lanesOf act).filter (fun k => decide (k < l)))).1
    let n := scanStep op t acc (a l)
    (if excl then acc else n.1, n.2))) ∧
  (∀ o op t, ComputesPlain (.red o op t) o (opItems (.red o op t)) { dflt := .sca }
    (fun _ act a _ _ _ => scanOver op t a (lanesOf act))) ∧
  (∀ o, ComputesPlain (.cnfl o) o (opItems (.cnfl o)) {} (fun _ act a _ _ l =>
    ((maskOf (fun k => act.getLsbD k && decide (k < l) && a k == a l)).toNat, 0))) ∧
  (∀ o, ComputesPlain (.lmatch o) o (opItems (.lmatch o)) {} (fun _ act a _ _ l =>
    ((maskOf (fun k => act.getLsbD k && a k == a l)).toNat, 0))) ∧
  (∀ o, ComputesPlain (.cmpr o) o (opItems (.cmpr o)) { b := 1, pb := true } (fun _ act a b _ l =>
    match ((lanesOf act).filter (fun k => b k != 0))[rankOf (lanesOf act) l]? with
    | some k => (a k, 0)
    | none => (0, 0))) ∧
  (∀ o, ComputesPlain (.xpnd o) o (opItems (.xpnd o)) { b := 1, pb := true } (fun _ act a b _ l =>
    if b l = 0 then (0, 0)
    else match (lanesOf act)[rankOf ((lanesOf act).filter (fun k => b k != 0)) l]? with
      | some k => (a k, 0)
      | none => (0, 0)))

/-- R113-R116: the FP32, FP64 and HP2 instructions retire with the rounded result and the flags of the element function,
in the effective rounding mode. -/
def Obligations.FloatingPointCompletes : Prop :=
  (∀ o r, ComputesPlain (.fadd o r) o (opItemsRm (.fadd o r) r) { b := 1, fp := true } (fpLane r (addFn .f32))) ∧
  (∀ o r, ComputesPlain (.fsub o r) o (opItemsRm (.fsub o r) r) { b := 1, fp := true } (fpLane r (subFn .f32))) ∧
  (∀ o r, ComputesPlain (.fmul o r) o (opItemsRm (.fmul o r) r) { b := 1, fp := true } (fpLane r (mulFn .f32))) ∧
  (∀ o r, ComputesPlain (.fmac o r) o (opItemsRm (.fmac o r) r) { b := 1, c := 1, fp := true } (fpLane r (macFn .f32))) ∧
  (∀ o, ComputesPlain (.fmin o) o (opItems (.fmin o)) { b := 1, fp := true } (fpLane .rne (minFn .f32))) ∧
  (∀ o, ComputesPlain (.fmax o) o (opItems (.fmax o)) { b := 1, fp := true } (fpLane .rne (maxFn .f32))) ∧
  (∀ o c, ComputesPlain (.fset o c) o (opItems (.fset o c)) { b := 1, fp := true } (fpLane .rne (setFn .f32 c (2 ^ 32 - 1)))) ∧
  (∀ o, ComputesPlain (.fclass o) o (opItems (.fclass o)) { fp := true } (fpLane .rne (fun _ a _ _ => (2 ^ fclassBit a, 0)))) ∧
  (∀ o r, ComputesPlain (.frnd o r) o (opItemsRm (.frnd o r) r) { fp := true } (fpLane r (rndFn .f32))) ∧
  (∀ o r, ComputesPlain (.fscale o r) o (opItemsRm (.fscale o r) r) { b := 1, fp := true } (fpLane r scaleFn)) ∧
  (∀ o, ComputesPlain (.fexp o) o (opItems (.fexp o)) { fp := true } (fpLane .rne fexpFn)) ∧
  (∀ o r, ComputesPlain (.dadd o r) o (opItemsRm (.dadd o r) r) (dShape 2 0) (fpLane r (addFn .f64))) ∧
  (∀ o r, ComputesPlain (.dsub o r) o (opItemsRm (.dsub o r) r) (dShape 2 0) (fpLane r (subFn .f64))) ∧
  (∀ o r, ComputesPlain (.dmul o r) o (opItemsRm (.dmul o r) r) (dShape 2 0) (fpLane r (mulFn .f64))) ∧
  (∀ o r, ComputesPlain (.dmac o r) o (opItemsRm (.dmac o r) r) (dShape 2 2) (fpLane r (macFn .f64))) ∧
  (∀ o, ComputesPlain (.dmin o) o (opItems (.dmin o)) (dShape 2 0) (fpLane .rne (minFn .f64))) ∧
  (∀ o, ComputesPlain (.dmax o) o (opItems (.dmax o)) (dShape 2 0) (fpLane .rne (maxFn .f64))) ∧
  (∀ o c, ComputesPlain (.dset o c) o (opItems (.dset o c)) { dShape 2 0 with d := 1 }
    (fpLane .rne (setFn .f64 c (2 ^ 32 - 1)))) ∧
  (∀ o r, ComputesPlain (.drnd o r) o (opItemsRm (.drnd o r) r) (dShape 0 0) (fpLane r (rndFn .f64))) ∧
  (∀ o bf r, ComputesPlain (.hpadd o bf r) o (opItemsRm (.hpadd o bf r) r) { b := 1, fp := true } (hpLane r (addFn (hpFmt bf)))) ∧
  (∀ o bf r, ComputesPlain (.hpmul o bf r) o (opItemsRm (.hpmul o bf r) r) { b := 1, fp := true } (hpLane r (mulFn (hpFmt bf)))) ∧
  (∀ o bf r, ComputesPlain (.hpmac o bf r) o (opItemsRm (.hpmac o bf r) r) { b := 1, c := 1, fp := true }
    (hpLane r (macFn (hpFmt bf)))) ∧
  (∀ o bf, ComputesPlain (.hpmin o bf) o (opItems (.hpmin o bf)) { b := 1, fp := true } (hpLane .rne (minFn (hpFmt bf)))) ∧
  (∀ o bf, ComputesPlain (.hpmax o bf) o (opItems (.hpmax o bf)) { b := 1, fp := true } (hpLane .rne (maxFn (hpFmt bf)))) ∧
  (∀ o bf c, ComputesPlain (.hpset o bf c) o (opItems (.hpset o bf c)) { b := 1, fp := true }
    (hpLane .rne (setFn (hpFmt bf) c 0xFFFF)))

/-- R117-R121: `CVT`, `PACKQ` and `UNPQ` retire in their effective formats when those are accepted. -/
def Obligations.ConversionCompletes : Prop :=
  (∀ o s s0 x act, Issues s o true s0 x act → cvtPre o x = none →
    let pair := fun (c : Nat) => if codeWidth c = 64 then 2 else 1
    let h : Shape := { a := pair (convSrc x o), c := if o.cc = .none then 0 else 1, d := pair (convDst x o), fp := convSrc x o == 13 }
    let lane : Iss → LaneFn := fun x _ a _ c l => convLane (convSrc x o) (convDst x o) (convMode x o) (o.xm.getLsbD 4) (convPart o)
      (convImm x o (a l)) (if o.cc = .none then 0 else c l)
    ComputesAt (.cvt o) o true (convItems 0 o) h noCheck lane s s0 x act) ∧
  (∀ o s s0 x act, Issues s o true s0 x act → grpPre x (convSrc x o) (convDst x o) o.a 0 = none →
    let n := codesOf (convDst x o)
    let lane : Iss → LaneFn := fun x _ a b c l => packLane (convSrc x o) (convDst x o) (convMode x o) (a l) (b l) (c l)
    ComputesAt (.packq o) o true (convItems 1 o) { a := n / 2, b := 1, c := 1 } (groupCheck o n) lane s s0 x act) ∧
  (∀ o s s0 x act, Issues s o true s0 x act → grpPre x (convDst x o) (convSrc x o) o.d 3 = none →
    let n := codesOf (convSrc x o)
    let lane : Iss → LaneFn := fun x _ a b c l => unpackLane (convSrc x o) (convDst x o) (convMode x o) (a l) (b l) (c l)
    ComputesAt (.unpq o) o true (convItems 2 o) { b := 1, c := 1, d := n / 2 } (groupCheck o n) lane s s0 x act)

/-- R105, R106, R122-R124: the special functions and the divisions retire into the queue, or from the reuse table. -/
def Obligations.QueuedFunctionsComplete : Prop :=
  (∀ o r, Queues (.rcp o r) o (opItemsRm (.rcp o r) r) sfuShape (sfuLane .rcp .f32 r)) ∧
  (∀ o, Queues (.rsq o) o (opItems (.rsq o)) sfuShape (sfuLane .rsq .f32 .rne)) ∧
  (∀ o r, Queues (.sqrt o r) o (opItemsRm (.sqrt o r) r) sfuShape (sfuLane .sqrt .f32 r)) ∧
  (∀ o, Queues (.ex2 o) o (opItems (.ex2 o)) sfuShape (sfuLane .ex2 .f32 .rne)) ∧
  (∀ o, Queues (.lg2 o) o (opItems (.lg2 o)) sfuShape (sfuLane .lg2 .f32 .rne)) ∧
  (∀ o, Queues (.sin o) o (opItems (.sin o)) sfuShape (sfuLane .sin .f32 .rne)) ∧
  (∀ o, Queues (.cos o) o (opItems (.cos o)) sfuShape (sfuLane .cos .f32 .rne)) ∧
  (∀ o, Queues (.tanh o) o (opItems (.tanh o)) sfuShape (sfuLane .tanh .f32 .rne)) ∧
  (∀ o r, Queues (.drcp o r) o (opItemsRm (.drcp o r) r) sfuPair (sfuLane .rcp .f64 r)) ∧
  (∀ o r, Queues (.dsqrt o r) o (opItemsRm (.dsqrt o r) r) sfuPair (sfuLane .sqrt .f64 r)) ∧
  (∀ o t, Queues (.idiv o t) o (opItems (.idiv o t)) { b := 1, raise := fIDZ } (divFn t false)) ∧
  (∀ o t, Queues (.irem o t) o (opItems (.irem o t)) { b := 1, raise := fIDZ } (divFn t true))

/-- R123, R124, R272: a result whose service has started is written: its registers settle with the value in the active lanes of
live threads and the prior value in the others, and its flags enter `SR` with an enabled one's trap; where that needs a register and
none is free, the slice's youngest borrowing wave is saved first. The oldest waiting entry of a slice starts service. -/
def Obligations.QueuedResultWritten : Prop :=
  (∀ (s : State) (c k : Nat) (e : SfuEntry) (n : Nat) (ps : List Nat),
    (s.slice c k).sfu.find? (fun y => y.id == e.id && y.started) = some e → e.dest = .vec n ps →
    let s1 := s.modSlice c k (fun q => { q with sfu := q.sfu.filter (fun y => y.id != e.id) })
    (∀ u, s1.settleResults c k e.active e.owns (resultsOf ps e.vals e.prior) = some u →
      exec (.sfuResultWrite c k e.id) s = .next (
        ((u.sweep c k).shareFlags c e.sharers e.active (fun l => nth e.flags l 0)).queuedFlags
          c e.wave e.pc e.clk e.bundle e.active (fun l => nth e.flags l 0) false e.hold)) ∧
    (s1.settleResults c k e.active e.owns (resultsOf ps e.vals e.prior) = none →
      exec (.sfuResultWrite c k e.id) s = .next (s.spillWave c k))) ∧
  (∀ (s : State) (c k p : Nat) (active : Mask) (w n : Nat) (y : Wave) (val prior : VReg),
    (s.sliceWaves c k).flatMap (fun z => (z.2.names.filter (fun e => e.2 == p)).map (fun e => (z.1, e.1, z.2))) = [(w, n, y)] →
    let v := vmerge (active &&& y.live) val prior
    let s1 := s.fillSmov c k p (fun u _ => vmerge (active &&& (s.wave c u).live) val prior)
    s.settleResult c k active [] p val prior = some ((if v = vmerge active val prior then s1 else s1.modSlice c k (fun q =>
      { q with reuse := q.reuse.filter (fun e => match e.result with
        | .regs rs => !rs.contains p
        | .pred _ => true) })).settle c k p v)) ∧
  (∀ (s : State) (c k : Nat) (e : SfuEntry) (x : Wave) (n m : Nat),
    (s.slice c k).sfu.find? (fun y => y.id == e.id && y.started) = some e → e.dest = .sca n m →
    s.wave? c e.wave = some x → e.active &&& x.live ≠ 0 →
    let s1 := s.modSlice c k (fun q => { q with sfu := q.sfu.filter (fun y => y.id != e.id) })
    exec (.sfuResultWrite c k e.id) s = .next (
      (s1.modWave c e.wave (fun y => y.arrive e.id n m (some (e.vals.map (fun v => vlane v 0))))).queuedFlags
        c e.wave e.pc e.clk e.bundle e.active (fun l => nth e.flags l 0) true e.hold)) ∧
  (∀ (s : State) (c k : Nat) (a : List SfuEntry) (e : SfuEntry) (b : List SfuEntry),
    (s.slice c k).sfu = a ++ e :: b → (∀ y ∈ a, y.started = true) → e.started = false →
    exec (.sfuServiceStart c k) s = .next
      (s.modSlice c k (fun q => { q with sfu := startFirst q.sfu })) ∧
    startFirst (a ++ e :: b) = a ++ { e with started := true } :: b)

/-- R102, R103: `IADDC` and `ISUBB` write the sum or difference to the destination, and set the carry predicate of the
active lanes each to its own carry or borrow out. For a scalar destination all of them take the carry of the one computation, which
the lowest active lane makes: R102 and R103 do not say so, and it is the model's reading (log entry 58). -/
def Obligations.CarryChainCompletes : Prop :=
  ∀ (o : Opnds) (t : ITy) (sub : Bool) (s s0 : State) (x : Iss) (act : Mask) (vs : List Src) (ns : List Nat) (fx : Fx)
    (s1 : State),
    let i := if sub then Instr.isubb o t else Instr.iaddc o t
    let h : Shape := { b := 1, c := 1, pc := true, elig := false }
    Issues s o false s0 x act →
    x.namesOk act (h.srcs o ++ (if dclsOf o .vec = .vec then [dstOpd o 1] else [])) = .ok () →
    s0.readOpds x act o (h.srcs o) = .ok vs →
    (if dclsOf o .vec = .vec then x.names act 3 o.d.toNat 1 else .ok []) = .ok ns →
    let v := h.pick vs
    let r := fun (l : Nat) => if sub then (v.1 l : Int) - v.2.1 l - v.2.2 l else (v.1 l : Int) + v.2.1 l + v.2.2 l
    s0.putResult x act o h none ns (fun l => (truncInt (r l) 32, 0)) = .ok fx →
    let carry := fun (l : Nat) => if sub then decide (r l < 0) else decide (2 ^ 32 ≤ r l)
    fx.s.putPred x act (o.c.toNat - 144) (if dclsOf o .vec = .sca then (if carry ((lowest act).getD 0) then act else 0)
      else maskOf (fun l => act.getLsbD l && carry l)) = .ok s1 →
    Retires i s s0 x act o false { fx with s := s1 }

/-- R95, R111, R154: `SMOV` moves the value of one lane of a FULL name to a scalar; on a PENDING name with empty policy 0 it leaves
the scalar PENDING with its move in flight. `FTST` sets the active predicates to whether its names are FULL. -/
def Obligations.SmovFtstComplete : Prop :=
  (∀ (o : Opnds) (pair : Bool) (s s0 : State) (x : Iss) (act : Mask) (ns : List Nat) (b : Src) (t : State),
    Issues s o false s0 x act → x.names act 0 o.a.toNat (pairN pair) = .ok ns →
    let rs := (ns.map x.src.reg).map (pregOf x.phys)
    (∀ r ∈ rs, r.pending = false ∧ r.poison = false) → s0.readOpd x act o (fieldB o) = .ok b →
    s0.putScalar x act o.d.toNat (rs.map (fun r => vlane r.data (b.nat ((lowest act).getD 0) % 32))) = .ok t →
    Retires (.smov o pair) s s0 x act o false { s := t }) ∧
  (∀ (o : Opnds) (pair : Bool) (s s0 : State) (x : Iss) (act : Mask) (ns : List Nat) (b : Src) (r : PReg),
    Issues s o false s0 x act → x.names act 0 o.a.toNat (pairN pair) = .ok ns → o.ea = false →
    let ps := ns.map x.src.reg
    r ∈ ps.map (pregOf x.phys) → r.pending = true → s0.readOpd x act o (fieldB o) = .ok b →
    o.d.toNat < 128 → (∀ i, i < pairN pair → (s0.now x).sPend.getLsbD (o.d.toNat + i) = false) →
    let lane := b.nat ((lowest act).getD 0) % 32
    let e : Op := { id := s0.fresh, wave := x.w, kind := .smov, pc := x.pc, bundle := x.lanes, active := act,
                    lanes := ns.map (fun n => { lane := lane, va := BitVec.ofNat 64 n, key := x.src.reg n, data :=
                      let r := pregOf x.phys (x.src.reg n)
                      if r.pending then [] else leBytes 4 (vlane r.data lane).toNat }),
                    dest := .sca o.d.toNat (pairN pair) }
    Retires (.smov o pair) s s0 x act o false
      { s := (s0.newId.2.modCore x.c (fun k => { k with ops := k.ops ++ [e] })).modNow x (fun y =>
          y.pendScalars o.d.toNat (pairN pair)) }) ∧
  (∀ (o : Opnds) (pair : Bool) (s s0 : State) (x : Iss) (act : Mask) (ns : List Nat) (t : State),
    Issues s o false s0 x act .pred →
    (if o.ca = .vec then x.names act 0 o.a.toNat (pairN pair) else .ok ((List.range (pairN pair)).map (o.a.toNat + ·))) = .ok ns →
    (o.ca = .sca → ∀ n ∈ ns, 144 ≤ n → n - 144 ∉ s0.zflgPreds x) →
    let full := ns.all (fun n => x.isFull o.ca n && !(o.ca == .sca && decide (144 ≤ n) && (s0.pinPreds x).contains (n - 144)))
    s0.putPred x act o.d.toNat (if full then act else 0) = .ok t →
    Retires (.ftst o pair) s s0 x act o false { s := t })

/-- R131, R132: the long-accumulator instructions: `LACZ` clears one, `LACA` adds the exact sum of products of the active
lanes in the effective formats, `LACR` rounds one into the destination of every active lane. -/
def Obligations.LongAccumulatorCompletes : Prop :=
  (∀ (o : Opnds) (s s0 : State) (x : Iss) (act : Mask), Issues s o false s0 x act →
    let n := o.d.toNat - 140
    Retires (.lacz o) s s0 x act o false { s := s0.modNow x (fun y =>
      { y with la := setNth y.la n {}, laPoison := y.laPoison &&& ~~~(BitVec.ofNat 4 (2 ^ n)) }) }) ∧
  (∀ (o : Opnds) (f : LacFmt) (s s0 : State) (x : Iss) (act : Mask) (vs : List Src), Issues s o true s0 x act →
    lacaPre f x = none →
    let h : Shape := { b := 1, elig := false, dflt := .sca }
    x.namesOk act (h.srcs o) = .ok () → s0.readOpds x act o (h.srcs o) = .ok vs →
    let n := o.d.toNat - 140
    let t := (dotSum (lacaA x f) (lacaB x f) act (h.pick vs).1 (h.pick vs).2.1).value
    let r := lacAdd (nth x.src.la n {}) t.1
    Retires (.laca o f) s s0 x act o true
      { s := s0.modNow x (fun y => { y with la := setNth y.la n r.1 }), fl := fun _ => t.2 ||| r.2, once := true }) ∧
  (∀ (o : Opnds) (f : LacrFmt) (r : Rm) (s s0 : State) (x : Iss) (act : Mask) (ns : List Nat) (fx : Fx),
    Issues s o false s0 x act →
    let n := o.a.toNat - 140
    let h : Shape := { a := 0, d := if f = .f64 then 2 else 1, elig := false }
    (if dclsOf o .vec = .vec then x.names act 3 o.d.toNat h.d else .ok []) = .ok ns →
    x.src.laPoison.getLsbD n = false →
    let v := lacrValue f (rmEff x.src.sr r) (nth x.src.la n {})
    s0.putResult x act o h none ns (fun _ => v) = .ok fx →
    Retires (.lacr o f r) s s0 x act o false { fx with fl := fun _ => v.2, once := true })

/-! ### Control flow and system -/

/-- R375, R376, R379, R380: the branches send each active lane to its target; a target that is not a multiple of 8 faults
its lane with MISALIGNED_PC after the instruction; `BRV` branches when its vote of the active lanes holds; `RGHINT`
records its hint. -/
def Obligations.BranchesComplete : Prop :=
  (∀ (o : Opnds) (s s0 : State) (x : Iss) (act : Mask), Issues s o false s0 x act →
    Retires (.bra o) s s0 x act o false { s := s0, goes := some (fun _ => offsetTarget x o (fieldA o)) }) ∧
  (∀ (o : Opnds) (s s0 : State) (x : Iss) (act : Mask) (vs : List Src), Issues s o false s0 x act →
    s0.sources x act o [fieldA o 2] = .ok vs →
    let t := fun (l : Nat) => BitVec.ofNat 64 (srcAt vs 0 l)
    let bad := (lanesOf act).filter (fun l => decide ((t l).toNat % 8 ≠ 0))
    Retires (.jmp o) s s0 x act o false
      { s := s0
        goes := some (fun l => if act.getLsbD l && !bad.contains l then t l else x.next)
        after := match bad with
          | [] => none
          | l :: _ => some (x.faulted .misalignedPc (maskOf (fun k => bad.contains k)) (t l)) }) ∧
  (∀ (o : Opnds) (v : BrVote) (s s0 : State) (x : Iss) (act : Mask) (vs : List Src), Issues s o false s0 x act →
    s0.sources x act o [fieldA o] = .ok vs →
    let p : Mask := BitVec.ofNat 32 (once act vs 0)
    let holds := match v with
      | .all => act &&& ~~~p == 0
      | .any => act &&& p != 0
      | .none => act &&& p == 0
    Retires (.brv o v) s s0 x act o false
      { s := s0, goes := if holds then some (fun _ => offsetTarget x o (fieldB o)) else none }) ∧
  (∀ (o : Opnds) (s s0 : State) (x : Iss) (act : Mask), Issues s o false s0 x act →
    Retires (.rghint o) s s0 x act o false
      { s := s0.modNow x (fun y => { y with rghint := some (offsetTarget x o (fieldA o), 64) }) })

/-- R377, R378: a call of a lane whose return stack holds fewer than 16 addresses pushes the address of the next instruction
and goes to its aligned target; a return pops the newest one. With addresses spilled to memory they retire as their stack
accesses come out. A return with an empty stack, on chip and spilled, faults its lane with RET_UNDERFLOW. -/
def Obligations.CallsComplete : Prop :=
  let goesTo := fun (x : Iss) (act : Mask) (t : Nat → DWord) (l : Nat) => if act.getLsbD l then t l else x.next
  let pushed := fun (s : State) (x : Iss) (act : Mask) => (lanesOf act).foldl (fun (u : State) l => u.modNow x (fun y =>
    { y with rstack := setNth y.rstack l (x.next :: nth y.rstack l []), rspill := setNth y.rspill l (nth y.rspill l 0) })) s
  let popped := fun (s : State) (x : Iss) (act : Mask) => (lanesOf act).foldl (fun (u : State) l => u.modNow x (fun y =>
    { y with rstack := setNth y.rstack l (nth y.rstack l []).tail })) s
  (∀ (o : Opnds) (s s0 : State) (x : Iss) (act : Mask), Issues s o false s0 x act →
    (∀ l ∈ lanesOf act, (nth (s0.now x).rstack l []).length < 16) → (s0.now x).rstack.length = 32 →
    (offsetTarget x o (fieldA o)).toNat % 8 = 0 →
    exec (.call o) s = .next ((pushed s0 x act).retire x act o false
      { s := pushed s0 x act, goes := some (goesTo x act (fun _ => offsetTarget x o (fieldA o))) })) ∧
  (∀ (o : Opnds) (s s0 : State) (x : Iss) (act : Mask) (vs : List Src), Issues s o false s0 x act →
    s0.sources x act o [fieldA o 2] = .ok vs →
    (∀ l ∈ lanesOf act, (nth (s0.now x).rstack l []).length < 16) → (s0.now x).rstack.length = 32 →
    (∀ l ∈ lanesOf act, (BitVec.ofNat 64 (srcAt vs 0 l)).toNat % 8 = 0) →
    exec (.calli o) s = .next ((pushed s0 x act).retire x act o false
      { s := pushed s0 x act, goes := some (goesTo x act (fun l => BitVec.ofNat 64 (srcAt vs 0 l))) })) ∧
  (∀ (o : Opnds) (s s0 : State) (x : Iss) (act : Mask) (a : Nat → DWord) (r : Nat → List DWord), Issues s o false s0 x act →
    (s0.now x).rstack.length = 32 →
    (∀ l ∈ lanesOf act, nth (s0.now x).rstack l [] = a l :: r l ∧ (a l).toNat % 8 = 0) →
    exec (.ret o) s = .next ((popped s0 x act).retire x act o false
      { s := popped s0 x act, goes := some (goesTo x act a) })) ∧
  (∀ (o : Opnds) (s s0 : State) (x : Iss) (act : Mask) (fx : Fx), Issues s o false s0 x act →
    (callFx s0 x act (fun _ => offsetTarget x o (fieldA o)) = .ok fx → Retires (.call o) s s0 x act o false fx) ∧
    (∀ vs, s0.sources x act o [fieldA o 2] = .ok vs → callFx s0 x act (fun l => BitVec.ofNat 64 (srcAt vs 0 l)) = .ok fx →
      Retires (.calli o) s s0 x act o false fx) ∧
    (stackFx s0 x act 0 (fun s l => (s.popLane x l, flowTo)) = .ok fx → Retires (.ret o) s s0 x act o false fx)) ∧
  (∀ (o : Opnds) (s s0 : State) (x : Iss) (act : Mask), Issues s o false s0 x act →
    (∀ l ∈ lanesOf act, nth (s0.now x).rstack l [] = [] ∧ nth (s0.now x).rspill l 0 = 0) →
    exec (.ret o) s = .next (s0.retire x act o false
      { s := s0, goes := some (fun _ => x.next), after := some (x.faulted .retUnderflow act 0) }))

/-- R436, R443-R448: `NOP` only advances; `TRAP` and `BRK` raise their class A trap with the code as its address; `HALT` ends the
active threads, unless it would end handler mode with a held asynchronous trap away from a boundary (log entry 83), or the fetch of the
word at `TRAPPC`, which the held trap's delivery reads, misses; `YLD` and a `SLEEP` of 0 only yield, and a longer `SLEEP` waits; `TMARK` writes its trace record. -/
def Obligations.SystemCompletes : Prop :=
  (∀ (o : Opnds) (s s0 : State) (x : Iss) (act : Mask), Issues s o false s0 x act →
    Retires (.nop o) s s0 x act o false { s := s0 }) ∧
  (∀ (o : Opnds) (s s0 : State) (x : Iss) (act : Mask) (vs : List Src), Issues s o false s0 x act →
    s0.sources x act o [fieldA o] = .ok vs →
    Retires (.trap o) s s0 x act o false
      { s := s0, after := some (x.after .userTrap act (BitVec.ofNat 64 (srcAt vs 0 ((lowest act).getD 0)))) } ∧
    Retires (.brk o) s s0 x act o false
      { s := s0, after := some (x.after .breakpoint act (BitVec.ofNat 64 (srcAt vs 0 ((lowest act).getD 0)))) }) ∧
  (∀ (o : Opnds) (retain : Bool) (s s0 : State) (x : Iss) (act : Mask), Issues s o false s0 x act →
    (s0.now x).awaitsBoundary (~~~act) = false →
    (∀ (s2 : State) (n : Nat), s0.endLen x (~~~act) = (s2, some n) →
      let s1 := (if retain then s2.modTeam x.src.team (fun t => { t with retain := true }) else s2).endThreads x.c x.w act
      let t := s1.retire x act o false { s := s1 }
      s0.transitsOver x s1 = false →
      exec (.halt o retain) s = .next (t.afterEnd x.c x.w (if t.leftHandler x then t.now x else x.src)) ∧
      (s1.now x).ended = (s2.now x).ended ||| act) ∧
    (∀ s2 : State, s0.endLen x (~~~act) = (s2, none) →
      let t : State := { s2 with blocked := true }
      exec (.halt o retain) s = .next (t.afterEnd x.c x.w (if t.leftHandler x then t.now x else x.src)))) ∧
  (∀ (o : Opnds) (s s0 : State) (x : Iss) (act : Mask), Issues s o false s0 x act →
    Retires (.yld o) s s0 x act o false { s := s0.yieldWave x.c x.w }) ∧
  (∀ (o : Opnds) (s s0 : State) (x : Iss) (act : Mask) (vs : List Src), Issues s o false s0 x act →
    s0.sources x act o [fieldA o] = .ok vs →
    let n := min (srcAt vs 0 ((lowest act).getD 0)) 1048575
    (n = 0 → Retires (.sleep o) s s0 x act o false { s := s0.yieldWave x.c x.w }) ∧
    (n ≠ 0 → Waits (.sleep o) s s0 x act o s0 (.sleep (s0.time + n)))) ∧
  (∀ (o : Opnds) (s s0 : State) (x : Iss) (act : Mask) (vs : List Src), Issues s o false s0 x act →
    s0.sources x act o [fieldA o, fieldB o] = .ok vs →
    let l := (lowest act).getD 0
    Retires (.tmark o) s s0 x act o false
      { s := s0.traceWave x.c x.w 3 (leBytes 2 (srcAt vs 0 l) ++ leBytes 2 0 ++ leBytes 4 (srcAt vs 1 l)) })

/-- R51, R445, R446: a special register is read into scalars or into the active lanes; a write that its access allows
changes it, and `CSRX` also returns the old value; a write that it does not allow traps PRIVILEGED. -/
def Obligations.SpecialRegistersComplete : Prop :=
  (∀ (o : Opnds) (s s0 : State) (x : Iss) (act : Mask) (t : State), Issues s o false s0 x act .sca → dclsOf o .sca ≠ .vec →
    let v := s0.special x.c x.w x.src o.a.toNat ((lowest act).getD 0)
    s0.putScalar x act o.d.toNat [loWord v, hiWord v] = .ok t → Retires (.csrr o) s s0 x act o false { s := t }) ∧
  (∀ (o : Opnds) (s s0 : State) (x : Iss) (act : Mask) (ns : List Nat) (t : State), Issues s o false s0 x act .sca →
    dclsOf o .sca = .vec → x.names act 3 o.d.toNat 2 = .ok ns →
    let v := fun (l : Nat) => s0.special x.c x.w x.src o.a.toNat l
    s0.putVec x act ns [vbuild (fun l => loWord (v l)), vbuild (fun l => hiWord (v l))] = .ok t →
    Retires (.csrr o) s s0 x act o false { s := t }) ∧
  (∀ (o : Opnds) (s s0 : State) (x : Iss) (act : Mask) (vs : List Src) (y : Wave), Issues s o false s0 x act →
    x.src.csrBars o.d.toNat = false → s0.sources x act o [fieldA o 2] = .ok vs →
    (s0.now x).csrWrite x.src o.d.toNat (BitVec.ofNat 64 (srcAt vs 0 ((lowest act).getD 0))) = some y →
    Retires (.csrw o) s s0 x act o false { s := s0.modNow x (fun _ => y) } ∧
    (∀ t, let v := s0.special x.c x.w x.src o.d.toNat ((lowest act).getD 0)
      (s0.modNow x (fun _ => y)).putScalar x act o.a.toNat [loWord v, hiWord v] = .ok t →
      Retires (.csrx o) s s0 x act o false { s := t })) ∧
  (∀ (o : Opnds) (s s0 : State) (x : Iss) (act : Mask), Issues s o false s0 x act →
    (x.src.csrBars o.d.toNat = true ∨ ∃ vs, s0.sources x act o [fieldA o 2] = .ok vs ∧
      (s0.now x).csrWrite x.src o.d.toNat (BitVec.ofNat 64 (srcAt vs 0 ((lowest act).getD 0))) = none) →
    let t : Trap := { cause := .privileged, cls := clsW, mask := act, addr := x.base, pc := x.pc, bundle := x.lanes, again := act }
    exec (.csrw o) s = .next (s0.trapNow x t) ∧ exec (.csrx o) s = .next (s0.trapNow x t))

/-- R51, R63, R84, R430, R446: which writes of a special register the wave `x` refuses, `src` being the wave as the clock began:
read-only ones always, the trap registers and `PFXI` outside handler mode, and a change of `SR.S` or `SR.H` outside it; and what each
write that it takes does. `SR` takes its mode, its enables, sticky bits that stay set, and `S` in handler mode. In handler mode 0 in
`PFXI` cancels the prefix moved aside and any other value leaves it; `TRAPC` takes its fields and keeps `PEND`, its reserved bits 0; the
other trap registers take the value. -/
def Obligations.SpecialRegisterWriteRule : Prop :=
  ∀ (x src : Wave) (v : DWord),
    (∀ n, n ∉ [256, 258, 269, 270, 271, 272, 273, 274] → x.csrWrite src n v = none) ∧
    (srH src.sr = false → ∀ n ∈ [258, 269, 270, 271, 272, 273], x.csrWrite src n v = none) ∧
    (srH src.sr = false → (src.sr ^^^ loWord v) &&& 0xC0000000 ≠ 0 → x.csrWrite src 256 v = none) ∧
    (∀ y, x.csrWrite src 256 v = some y →
      (∀ b, b < 32 → (b < 2 ∨ (11 ≤ b ∧ b < 18)) → y.sr.getLsbD b = v.getLsbD b) ∧
      (∀ b, 2 ≤ b → b < 9 → y.sr.getLsbD b = (x.sr.getLsbD b && v.getLsbD b)) ∧
      y.sr.getLsbD 29 = x.sr.getLsbD 29 ∧ y.sr.getLsbD 30 = x.sr.getLsbD 30 ∧
      (∀ b, (b = 9 ∨ b = 10 ∨ (18 ≤ b ∧ b < 29)) → y.sr.getLsbD b = false) ∧
      y.sr.getLsbD 31 = (if srH src.sr then v.getLsbD 31 else x.sr.getLsbD 31) ∧ y = { x with sr := y.sr }) ∧
    (srH src.sr = true ∨ (src.sr ^^^ loWord v) &&& 0xC0000000 = 0 → ∃ y, x.csrWrite src 256 v = some y) ∧
    (srH src.sr = true →
      (v = 0 → x.csrWrite src 258 v = some { x with asidePfx := 0, asideMask := 0, asidePP := false }) ∧
      (v ≠ 0 → x.csrWrite src 258 v = some x) ∧
      (∃ t, x.csrWrite src 269 v = some { x with trap := { x.trap with trapc := t } } ∧ ∀ b, b < 32 → t.getLsbD b =
        if b = 29 then x.trap.trapc.getLsbD 29 else if b < 7 ∨ (16 ≤ b ∧ b < 24) ∨ 30 ≤ b then v.getLsbD b else false) ∧
      x.csrWrite src 270 v = some { x with trap := { x.trap with trappc := v } } ∧
      x.csrWrite src 271 v = some { x with trap := { x.trap with trapmask := loWord v } } ∧
      x.csrWrite src 272 v = some { x with trap := { x.trap with trapaddr := v } } ∧
      x.csrWrite src 273 v = some { x with trap := { x.trap with resm := loWord v } }) ∧
    x.csrWrite src 274 v = some { x with rsp := v }

/-- R14, R434-R436, R442, R446: `ERET` in handler mode leaves it, or takes up the held trap; it ends the waits of threads that go
elsewhere, and every wait but a `SEND` when the held trap is asynchronous. It reads the registers as its clock began. Where a thread
skips the instruction at `TRAPPC`, its word is fetched, and a fetch that misses holds the `ERET`. One whose clock's first bundle has left
the handler only issues. Outside handler mode it traps PRIVILEGED. Which waits end (`leaveWaits`) is the model's reading (log entry 27).
With an asynchronous trap held it does not issue while the wave is at no boundary, which is another (log entry 83). -/
def Obligations.EretCompletes : Prop :=
  ∀ (o : Opnds) (s s0 : State) (x : Iss) (act : Mask), Issues s o false s0 x act →
    let armed := fun (u : State) => u.modWave x.c x.w (fun y =>
      if srH x.src.sr && !srH y.sr && srS x.src.sr then { y with stepS := y.live } else y)
    (srH x.src.sr = true → s0.leftHandler x = false →
      ((s0.now x).heldAsync = false ∨ ((s0.leaveWaits x.c x.w true).now x).atBoundary = true) →
      (∀ (s1 : State) (n : Nat), s0.lenFor x.c x.w ((s0.now x).asRead x.src) = (s1, some n) →
        let s2 := s1.leaveWaits x.c x.w true
        let s3 := if (s2.now x).heldAsync then s2.abandonAll x.c x.w else s2
        let s4 := s3.modNow x (fun y => y.afterEret x.src n (s3.launchOf y).hdr.handler)
        s0.transitsOver x s4 = false →
        exec (.eret o) s = .next (armed (s4.retire x act o false
          { s := s4, whole := true, goes := some (fun l => nth (s4.now x).pcs l 0) }))) ∧
      (∀ s1 : State, s0.lenFor x.c x.w ((s0.now x).asRead x.src) = (s1, none) →
        exec (.eret o) s = .next (armed { s1 with blocked := true }))) ∧
    (srH x.src.sr = true → s0.leftHandler x = true → s0.transitsOver x s0 = false →
      exec (.eret o) s = .next (armed (s0.retire x act o false { s := s0, whole := true }))) ∧
    (srH x.src.sr = false → exec (.eret o) s = .next (s0.trapNow x
      { cause := .privileged, cls := clsW, mask := act, addr := x.base, pc := x.pc, bundle := x.lanes, again := act }))

/-- R435 steps 2 to 4: `ERET` with no held trap gives each live thread its resume address, but a thread at `TRAPPC` that is not
in `RESM` the address after the instruction there; the prefix returns and `SR.H` clears. `TRAPPC` holds the address that it had at
delivery: no handler wrote it, or one wrote the same address, which the model takes as no redirection (log entry 77). -/
def Obligations.EretResumes : Prop :=
  ∀ (x : Wave) (len : Nat), x.pcs.length = 32 → x.trap.stands = some x.trap.trappc →
    let y := x.eret len
    (∀ l, l < 32 → x.ended.getLsbD l = false → nth y.pcs l 0 =
      if nth x.resume l 0 = x.trap.trappc ∧ x.trap.resm.getLsbD l = false then x.trap.trappc + BitVec.ofNat 64 len
      else nth x.resume l 0) ∧
    (∀ l, l < 32 → x.ended.getLsbD l = true → nth y.pcs l 0 = nth x.pcs l 0) ∧
    srH y.sr = false ∧ srS y.sr = srS x.sr ∧ srPP y.sr = x.asidePP ∧ y.pfx = x.asidePfx ∧ y.pfxMask = x.asideMask ∧
    y.handler = 0

/-- R432: entering the handler for a trap of class W, L or A saves the trap registers, keeps every thread's address as its
resume address, moves the prefix aside, sets `SR.H`, and starts the live threads of the trapping bundle at the handler; for
class B every live thread starts there, with `TRAPPC` and `RESM` 0. -/
def Obligations.TrapEntry : Prop :=
  ∀ (x : Wave) (t : Trap) (h : DWord),
    let y := x.enter t h
    let m := if t.cls = clsB then ~~~x.ended else t.bundle &&& ~~~x.ended
    y.trap.trappc = (if t.cls = clsB then 0 else t.pc) ∧ y.trap.trapmask = t.mask ∧ y.trap.trapaddr = t.addr ∧
    y.trap.resm = (if t.cls = clsA ∨ t.cls = clsB then 0 else t.again) ∧
    (t.aux < 256 → y.trap.trapc.toNat % 128 = Cause.num t.cause % 128 ∧ y.trap.trapc.toNat / 65536 % 256 = t.aux ∧
      (y.trap.trapc.getLsbD 30 = decide (t.cls = clsA)) ∧ (y.trap.trapc.getLsbD 31 = decide (t.cls = clsB))) ∧
    y.resume = x.pcs ∧ srH y.sr = true ∧ srS y.sr = srS x.sr ∧ srPP y.sr = false ∧ y.asidePP = srPP x.sr ∧
    y.handler = m ∧
    (∀ l, l < 32 → nth y.pcs l 0 = if m.getLsbD l then h else nth x.pcs l 0) ∧
    y.sreg = x.sreg ∧ y.preg = x.preg ∧ y.mbox = x.mbox ∧ y.names = x.names ∧ y.rsp = x.rsp ∧ y.la = x.la

/-- R432-R434: where a trap that is not for a debugger or the host goes, in a wave that a debugger does not step. Outside handler mode,
with a handler and a cause other than MACHINE_CHECK, the wave enters the handler. In handler mode one that does not meet the handler's
threads is held for `ERET`, with `TRAPC.PEND` set, when it arises in the clock in which the handler was entered. Any other is unhandled:
the team is killed with a fault record. That a trap of the other instruction of the first one's clock is held whenever it arises, and
takes the first one's place when its address is the lower one and the wave has not issued since, is the model's reading (log entry
100). -/
def Obligations.TrapDelivery : Prop :=
  ∀ (s : State) (c w : Nat) (t : Trap), let x := s.wave c w
    let apart := t.cls = clsB ∨ t.bundle &&& x.handler = 0
    let killed := s.killReport c w t.cause t.addr ((t.post.map (·.2)).getD t.access)
    let handler := (s.launchOf x).hdr.handler
    let late := fun (u : Trap) (n : Nat) => x.first = some (u, n) ∧ t.cls ≠ clsB ∧ t.clk ≠ none ∧ u.clk = t.clk
    let before := fun (u : Trap) (n : Nat) => t.pc.toNat < u.pc.toNat ∧ x.lastIssue = n
    s.replays (s.ctxOf x) t.cause = false → t.cause ≠ .breakpoint → t.cause ≠ .singleStep → t.cause ≠ .watchpoint →
    x.stepDbg = 0 → x.stepDrain = false → x.drainStop = none →
    (srH x.sr = false → handler ≠ 0 → t.cause ≠ .machineCheck →
      s.deliver c w t = (s.postTrap c w t).modWave c w (fun y =>
        { (y.enter t handler) with trapClk := some (s.clkOf c), first := some (t, y.lastIssue) })) ∧
    (srH x.sr = false → handler = 0 → s.deliver c w t = killed) ∧
    (srH x.sr = false → t.cause = .machineCheck → s.deliver c w t = killed) ∧
    (srH x.sr = true → ¬ apart → s.deliver c w t = killed) ∧
    (srH x.sr = true → x.trapClk ≠ some (s.clkOf c) → (∀ u n, ¬ late u n) → s.deliver c w t = killed) ∧
    (srH x.sr = true → apart → (x.trapClk = some (s.clkOf c) ∨ ∃ u n, late u n) → (∀ u n, late u n → ¬ before u n) →
      ∃ h : HeldTrap, h.trap = t ∧
      (∀ l, l < 32 → t.bundle.getLsbD l = true → (l, nth x.resume l 0) ∈ h.resume) ∧
      ∃ r : Word, r.getLsbD 29 = true ∧ (∀ b, b ≠ 29 → r.getLsbD b = x.trap.trapc.getLsbD b) ∧
        s.deliver c w t = (s.postTrap c w t).modWave c w (fun y =>
          { y with held := y.held ++ [h], trap := { y.trap with trapc := r } })) ∧
    (∀ u n, srH x.sr = true → apart → late u n → before u n →
      s.deliver c w t = (s.postTrap c w t).modWave c w (fun y => y.swap t u handler) ∧
      let y := x.swap t u handler
      y.trap.trappc = t.pc ∧ y.trap.trapmask = t.mask ∧ y.trap.trapaddr = t.addr ∧ y.trap.trapc.getLsbD 29 = true ∧
      (∃ h : HeldTrap, h.trap = u ∧ y.held = h :: x.held ∧
        ∀ l, l < 32 → u.bundle.getLsbD l = true → (l, nth x.resume l 0) ∈ h.resume) ∧
      ∀ l, l < 32 → nth y.pcs l 0 = if t.bundle.getLsbD l = true ∧ x.ended.getLsbD l = false then handler else nth x.resume l 0)

/-! ### Format words, and words that are not instructions -/

/-- R62, R63: `FMT` with no prefix pending stores its word and the lanes of its bundle and sets `SR.PP`; with one pending it traps
PREFIX_DOUBLE. Where the clock's first bundle has just entered the handler, the second bundle's `FMT` stores the prefix where that
entry moved the wave's prefix aside: an inference from R63 and R434, which no rule states (log entry 91). -/
def Obligations.FormatWordCompletes : Prop :=
  ∀ (fa fb fc fd : BitVec 4) (gs : BitVec 2) (scl : BitVec 11) (sclc : Bool) (zp : BitVec 11) (zpc : Bool)
    (s s0 : State) (x : Iss) (act : Mask),
    let i := Instr.fmt fa fb fc fd gs scl sclc zp zpc
    (∀ w e, encodeSimt i = some (w, e) → srPP x.src.sr = false → Issues s noOpnds false s0 x act → srPP (s0.now x).sr = false →
      (srH (s0.now x).sr = srH x.src.sr → Retires i s s0 x act noOpnds false { s := s0.modNow x (fun y => { y with
        pfx := w
        pfxMask := x.lanes
        sr := setBit32 y.sr 29 true }) }) ∧
      (srH (s0.now x).sr ≠ srH x.src.sr → Retires i s s0 x act noOpnds false { s := s0.modNow x (fun y => { y with
        asidePfx := w
        asideMask := x.lanes
        asidePP := true }) })) ∧
    (s.issuing = some x → s0 = s.firstAcquire x → srPP x.src.sr = true →
      exec i s = .next (s0.trapNow x
        { cause := .prefixDouble, cls := clsW, mask := x.lanes, addr := x.base, pc := x.pc, bundle := x.lanes, again := x.lanes }))

/-- R62: while a prefix is pending an instruction that takes none traps PREFIX_MISUSE before its guard, with every thread of its
bundle in `TRAPMASK`: shown of `NOP`, `BRA`, `CALL`, `IADD`, `FMAC`, `RCP`, `LD`, `ST`, `FNC`, `BAR`, `MACZ`, `CSRW` and `MOV`, which
name no predicate that a pending `ZFLG` is still to write. -/
def Obligations.PrefixMisuseTraps : Prop :=
  ∀ (o : Opnds) (s : State) (x : Iss), s.issuing = some x → srPP x.src.sr = true → Unnamed (s.firstAcquire x) x o .none [] →
    let t : Trap := { cause := .prefixMisuse, cls := clsW, mask := x.lanes, addr := x.base, pc := x.pc, bundle := x.lanes, again := x.lanes }
    let r : Host.Outcome State Fault Refusal := .next ((s.firstAcquire x).trapNow x t)
    exec (.nop o) s = r ∧ exec (.bra o) s = r ∧ exec (.call o) s = r ∧ (∀ ty sat, exec (.iadd o ty sat) s = r) ∧
    (∀ rm, exec (.fmac o rm) s = r) ∧ (∀ rm, exec (.rcp o rm) s = r) ∧ (∀ z k, exec (.ld o z k) s = r) ∧
    (∀ z k, exec (.st o z k) s = r) ∧ (∀ sc, exec (.fnc o sc) s = r) ∧ exec (.bar o) s = r ∧ exec (.macz o) s = r ∧
    exec (.csrw o) s = r ∧ (∀ pair, exec (.mov o pair) s = r)

/-- R59, R60: a word that is not an instruction traps before its guard for its whole bundle. The cause and `TRAPC.AUX` are the
decoder's, but for ILLEGAL_FUNCTION and ILLEGAL_OPERAND, which a pending prefix and the effective formats of `CVT` precede. -/
def Obligations.NonInstructionTraps : Prop :=
  ∀ (c : Cause) (aux : Nat) (w : DWord) (ext : Option DWord) (s : State) (x : Iss), s.issuing = some x →
    let e := wordCause c aux w ext x
    exec (.nonInstructionWord c aux w ext) s = .next ((s.firstAcquire x).trapNow x
      { cause := e.1, cls := clsW, mask := x.lanes, addr := if c = .zeroWord then 0 else w, pc := x.pc, aux := e.2, bundle := x.lanes,
        again := x.lanes }) ∧
    ((c ≠ .illegalFunction ∧ c ≠ .illegalOperand) → e = (c, aux)) ∧
    ((c = .illegalFunction ∨ c = .illegalOperand) → srPP x.src.sr = true → majOf w = 63 → e = (.prefixDouble, 0)) ∧
    ((c = .illegalFunction ∨ c = .illegalOperand) → srPP x.src.sr = true → majOf w ≠ 63 → takesFormat w = false →
      e = (.prefixMisuse, 0))

/-- R95: an instruction none of whose lanes is active only moves its bundle past it: no destination, no flag, no trap. Shown, with no
prefix pending, of `NOP`, `TRAP`, `BRA`, `IADD`, `FMAC`, `RCP`, `LD`, `ST`, `ATOM`, `FNC`, `BAR`, `CSRW` and `MOV`, which name no
predicate that a pending `ZFLG` is still to write. -/
def Obligations.InactiveOnlyAdvances : Prop :=
  ∀ (o : Opnds) (s s0 : State) (x : Iss), s.issuing = some x → s0 = s.firstAcquire x → srPP x.src.sr = false →
    Unnamed s0 x o .none [] → s0.guard x o = some 0 →
    let r : Host.Outcome State Fault Refusal :=
      .next (s0.retire x 0 { o with ca := .none, cb := .none, ext := none } false { s := s0 })
    exec (.nop o) s = r ∧ exec (.trap o) s = r ∧ exec (.bra o) s = r ∧ (∀ ty sat, exec (.iadd o ty sat) s = r) ∧
    (∀ rm, exec (.fmac o rm) s = r) ∧ (∀ rm, exec (.rcp o rm) s = r) ∧ (∀ z k, exec (.ld o z k) s = r) ∧
    (∀ z k, exec (.st o z k) s = r) ∧ (∀ op k, exec (.atom o op k) s = r) ∧ (∀ sc, exec (.fnc o sc) s = r) ∧
    exec (.bar o) s = r ∧ exec (.csrw o) s = r ∧ (∀ pair, exec (.mov o pair) s = r)

/-! ### Memory -/

/-- R286-R303: every LOAD, STORE and ATOM instruction starts its accesses: it retires with them in flight, or waits for them, traps,
or takes its result from the reuse table, as `StartsAccess` says. -/
def Obligations.MemoryInstructionsComplete : Prop :=
  (∀ o z r, StartsAccess (.ld o z r) o o (loadForm z r .vec) (opItems (.ld o z r))) ∧
  (∀ o z, StartsAccess (.ldk o z) o o { loadForm z .plain (dclsOf o .vec) with once := true } (opItems (.ldk o z))) ∧
  (∀ o z r, StartsAccess (.ldb o z r) o o { loadForm z r .vec with bench := true } (opItems (.ldb o z r))) ∧
  (∀ o z, StartsAccess (.ldbc o z) o o
    { loadForm z .plain (dclsOf o .sca) with bench := true, once := true, reuse := false } (opItems (.ldbc o z))) ∧
  (∀ o z r, StartsAccess (.st o z r) o (storeOpnds o .vec) (storeForm o z r .vec) (fun _ => [])) ∧
  (∀ o z r, StartsAccess (.stb o z r) o (storeOpnds o .vec) { storeForm o z r .vec with bench := true } (fun _ => [])) ∧
  (∀ o z r, StartsAccess (.str o z r) o (storeOpnds o .vec)
    { storeForm o z r .vec with remote := true, bench := true } (fun _ => [])) ∧
  (∀ o z r, StartsAccess (.sts o z r) o (storeOpnds o .sca) { storeForm o z r .sca with once := true } (fun _ => [])) ∧
  (∀ o op r, StartsAccess (.atom o op r) o o (atomForm o op r) (fun _ => [])) ∧
  (∀ o op r, StartsAccess (.atb o op r) o o { atomForm o op r with bench := true } (fun _ => [])) ∧
  (∀ o op r, StartsAccess (.atr o op r) o o { atomForm o op r with bench := true, remote := true } (fun _ => [])) ∧
  (∀ o r, StartsAccess (.cas128 o r) o o
    { kind := .cas128, use := .atomic, size := 16, n := 4, acq := r.isAcq, rel := r.isRel, dst := .vec,
      data := [{ fieldC o 8 with field := true }] } (fun _ => []))

/-- R288: the address of a lane: base, scaled index and offset, wrapping at 64 bits, or at 32 on Bench. -/
def Obligations.LaneAddress : Prop :=
  ∀ (o : Opnds) (size base idx : Nat), o.cb ≠ .none → memChk o = false → idx < 2 ^ 32 →
    (memEa o false size base idx).toNat =
      (((base : Int) + intOf idx 32 true * 2 ^ memScale o size + o.imm.toInt) % 2 ^ 64).toNat ∧
    (memEa o true size base idx).toNat =
      (((base : Int) + intOf idx 32 true * 2 ^ memScale o size + o.imm.toInt) % 2 ^ 32).toNat

/-- R250, R296, R304: `FNC` puts its fence in flight; `PFCH` puts its lanes that do not
fault and whose page allocates L1 lines in flight, and ends at once with none. A page of the partner board or of the host, or a level of
its tables on a channel that is being retrained, that has yet to answer a translation keeps it from issuing (`transWaits`). -/
def Obligations.FencePrefetchComplete : Prop :=
  (∀ (o : Opnds) (sc : Scope) (s s0 : State) (x : Iss) (act : Mask), Issues s o false s0 x act →
    let e : Op := { id := s0.fresh, wave := x.w, kind := .fence, pc := x.pc, clk := x.clk, bundle := x.lanes, active := act, scope := sc,
                    paths := fencePaths o, hold := true }
    Retires (.fnc o sc) s s0 x act o false
      { s := (s0.newId.2).modCore x.c (fun k => { k with ops := k.ops ++ [e] }) }) ∧
  (∀ (o : Opnds) (s s0 : State) (x : Iss) (act : Mask) (vs : List Src), Issues s o false s0 x act →
    let opds := [{ fieldA o 2 with field := true }, { fieldB o with field := true }]
    x.namesOk act opds = .ok () → s0.readOpds x act o opds = .ok vs →
    (dclsOf o .none = .pred → (s0.pendingPreds x).contains o.d.toNat = false) →
    let eas := (lanesOf act).map (fun l => (l, memEa o false 1 (srcAt vs 0 l) (srcAt vs 1 l), memBound o (srcAt vs 1 l)))
    (∀ e ∈ eas, s0.transWaits (.core x.c) x.ctx e.2.1 = false) →
    let r := s0.placeLanes x.c x.src.team x.ctx { kind := .prefetch, use := .read, size := 1 } eas
    let accs := r.2.1.filter (fun a => a.cpol == 0 || a.cpol == 2)
    let e : Op := { id := r.1.fresh, wave := x.w, kind := .prefetch, pc := x.pc, clk := x.clk, bundle := x.lanes, active := act, lanes := accs,
                    pin := o.xm.getLsbD 12, dest := if dclsOf o .none = .pred then .pred o.d.toNat else .none }
    let t := (r.1.newId.2).modCore x.c (fun k => { k with ops := k.ops ++ [e] })
    Retires (.pfch o) s s0 x act o false { s := if accs = [] then t.finishPrefetch x.c e else t })

/-- R224-R227, R298, R301: each event of an operation in flight performs the lanes that it names, in the order that holds, and one
lane that is left and ready reaches its place, is noted in its operation, and the operation ends when it was the last. -/
def Obligations.AccessEventsComplete : Prop :=
  ∀ (s : State) (c id : Nat) (m : Mask) (o : Op), (s.core c).ops.find? (fun e => e.id == id) = some o →
    (o.kind = .load → exec (.loadCompletion c id m) s = .next (s.performLanes c o m)) ∧
    (o.kind = .prefetch → exec (.loadCompletion c id m) s = .next (s.prefetchLanes c o m)) ∧
    (o.kind = .store → o.remote = false → exec (.storeWritePerform c id m) s = .next (s.performLanes c o m)) ∧
    (o.kind = .atomic ∨ o.kind = .cas128 → o.remote = false →
      exec (.atomicCompletion c id m) s = .next (s.performLanes c o m)) ∧
    (o.remote = true → exec (.remoteBenchArrival c id m) s = .next (s.performLanes c o m)) ∧
    (∀ a, o.left = [a] → a.lane < 32 → s.memReady c o a = true →
      s.performLanes c o (laneBit a.lane) =
        (((s.performLane c o a).1.modOp c o.id (fun p => p.note a (s.performLane c o a).2)).finishIfDone c o.id))

/-- R226, R298, R300: an access to a core's own Bench reads the bytes at its address; a store puts its data there; an atomic puts
the new value there and answers the old bytes. -/
def Obligations.BenchAccessEffect : Prop :=
  ∀ (s : State) (c t ctx : Nat) (o : Op) (a : LaneAcc), isBench a.key = true →
    (o.acq = false → ∀ bs, s.homeRead a.key o.size = some bs → s.readLane c t ctx o a = (s, .got bs)) ∧
    (o.rel = false → s.storeLane c t ctx o a = ((s.homeWrite a.key a.data).1.writeKills c a.key a.data.length, .got [])) ∧
    (o.acq = false → o.rel = false → ∀ old, s.homeRead a.key o.size = some old →
      s.atomicLane c t ctx o a =
        ((s.homeWrite a.key (atomicBytes o a old)).1.writeKills c a.key o.size, .got old))

/-- R234, R298, R469: a write at its home puts its bytes there and leaves every other byte of memory. A partial write to a POISON line,
or a write to a line whose channel failed its training, changes nothing and is told; every other write is done: to lines that are not
POISON, to whole POISON lines, and to Bench. That a line of the host or the partner which an L1 wrote back as POISON is one of these
lines is the model's choice (log entry 101). -/
def Obligations.HomeWriteFrame : Prop :=
  ∀ (s : State) (k : Nat) (bs : List Byte), s.memOk →
    ((s.homeWrite k bs).2 = true → ∀ a, Memory.read (s.homeWrite k bs).1.mem a =
      if k ≤ a ∧ a < k + bs.length then nth bs (a - k) 0 else Memory.read s.mem a) ∧
    ((s.homeWrite k bs).2 = false → (s.homeWrite k bs).1 = s) ∧
    (s.homeWrite k bs).1.memOk ∧
    (let whole := fun (l : Nat) => k ≤ l ∧ l + 256 ≤ k + bs.length
     let meets := fun (l : Nat) => l % 256 = 0 ∧ l < k + bs.length ∧ k < l + 256
     (isBench k = true → (s.homeWrite k bs).2 = true) ∧
     (∀ l, isBench k = false → meets l → s.poisoned l = true → ¬ whole l → (s.homeWrite k bs).2 = false) ∧
     (isLocal k = true → s.badSpan k bs.length = true → (s.homeWrite k bs).2 = false) ∧
     ((isLocal k = true → s.badSpan k bs.length = false) → (∀ l, meets l → s.poisoned l = true → whole l) →
       (s.homeWrite k bs).2 = true))

/-- R300: what each atomic stores, for 32-bit operands. -/
def Obligations.AtomicValues : Prop :=
  ∀ (old v w : BitVec 32),
    atomicNew 0 32 old.toNat v.toNat w.toNat = (old + v).toNat ∧ atomicNew 1 32 old.toNat v.toNat w.toNat = (old - v).toNat ∧
    atomicNew 2 32 old.toNat v.toNat w.toNat = (if v.slt old then v else old).toNat ∧
    atomicNew 3 32 old.toNat v.toNat w.toNat = (if old.slt v then v else old).toNat ∧
    atomicNew 4 32 old.toNat v.toNat w.toNat = (if v < old then v else old).toNat ∧
    atomicNew 5 32 old.toNat v.toNat w.toNat = (if old < v then v else old).toNat ∧
    atomicNew 6 32 old.toNat v.toNat w.toNat = (old &&& v).toNat ∧ atomicNew 7 32 old.toNat v.toNat w.toNat = (old ||| v).toNat ∧
    atomicNew 8 32 old.toNat v.toNat w.toNat = (old ^^^ v).toNat ∧ atomicNew 9 32 old.toNat v.toNat w.toNat = v.toNat ∧
    atomicNew 10 32 old.toNat v.toNat w.toNat = (if v ≤ old then 0 else old + 1).toNat ∧
    atomicNew 11 32 old.toNat v.toNat w.toNat = (if old = 0 ∨ v < old then v else old - 1).toNat ∧
    atomicNew 15 32 old.toNat v.toNat w.toNat = (if old = v then w else old).toNat

/-- R187, R224, R230, R235, R237, R250, R252, R304: the other events of memory. A fence whose earlier accesses are performed, and whose lines reach their homes, ends, with
the CORE path's write-back and invalidation at a scope beyond the L1, its write-back beside another path at every scope, the WALK
path's copies of the scope's cores dropped, and the wave's fence generation advanced; a refusal that is the
wave's oldest ends its operation with REMOTE_BENCH; an L1 line goes home or leaves; L2 writes a line back with its format tag; a
page that waits is verified. That an invalidation takes the clean bytes of partly dirty lines, and which base word a tag's format
takes, are the model's readings (log entries 62 and 60). -/
def Obligations.MemoryEventsComplete : Prop :=
  (∀ (s : State) (c id : Nat) (o : Op), (s.core c).ops.find? (fun e => e.id == id) = some o → o.kind = .fence →
    (o.paths.getLsbD 5 = true → s.unperformed c o.wave o.active o.id = false) →
    (s.flushes (s.wave c o.wave).team o.scope o.paths = true → s.homesPending c = false) →
    let s1 := s.modCore c (fun k => { k with ops := k.ops.filter (fun e => e.id != o.id) })
    let t := (s1.wave c o.wave).team
    let s2 := if o.paths.getLsbD 5 = false then s1 else if s1.wide t o.scope then (s1.flushDirty c).invalidateClean c
      else if o.paths &&& 0x1F ≠ 0 then s1.flushDirty c else s1
    let cs := match o.scope with
      | .wave => [c]
      | .team => c :: ((s2.team t).members.map (fun (m : Member) => m.core)).filter (fun d => d != c)
      | _ => List.range Config.cores
    exec (.fenceCompletion c id) s = .next ((if o.paths.getLsbD 3 then cs.foldl (fun (u : State) d => u.modCore d (fun k =>
      { k with sp := { k.sp with nodes := [], progs := [], descs := [] } })) s2 else s2).advanceGen c o.wave)) ∧
  (∀ (s : State) (c id : Nat) (o : Op), (s.core c).ops.find? (fun e => e.id == id) = some o → o.refused ≠ 0 → o.left = [] →
    (∀ e ∈ (s.core c).ops, e.wave = o.wave → e.id < o.id → e.remote = true → e.refused = 0 ∧ e.left = []) → (s.wave c o.wave).isOver = false →
    exec (.remoteBenchRefusal c id) s = .next ((s.finishMem c o).sendAsync c o.wave
      { cause := .remoteBench, cls := clsB, mask := o.refused, addr := o.refusedVa })) ∧
  (∀ (s : State) (c l : Nat) (evict : Bool) (y : Line), (s.core c).line? l = some y →
    exec (.l1WriteBack c l evict) s = .next (if evict && y.pins.isEmpty then s.dropLine c l else s.writeBack c l)) ∧
  (∀ (s : State) (l : Nat), (l, true) ∈ s.l2 → s.retraining l = false →
    exec (.lineWriteBack l) s = .next { s with
      l2 := s.l2.map (fun e => if e.1 = l then (l, false) else e)
      tags := if s.badSpan l 256 then s.tags
        else FMap.set s.tags l (lineTag (s.compressible l) (Memory.readBytes s.mem l 256)) }) ∧
  (∀ (s : State) (r i : Nat) (e : Sealed) (p : Place), FMap.get s.sealed r = some e → i < e.pages →
    s.frameAt e.ctx (e.base + BitVec.ofNat 64 (65536 * i)) = some p → p.sealed = true →
    s.pageCheck e.ctx (e.base + BitVec.ofNat 64 (65536 * i)).toNat p.key = .waiting → s.verifyWaits e i = false →
    exec (.pageVerification r i) s = .next (s.verifyPage r e i))

/-! ### Copies, the Jig, and synchronisation -/

/-- R306, R309, R313: the copy instructions complete; a start of an acceptable record with a free slot marks the record RUNNING and
queues its job there; `CPYX` cancels the records of its lanes, and faults those that cannot be. -/
def Obligations.CopyInstructionsComplete : Prop :=
  (∀ o w, CopyRequests (.cpy o w) o true (startReq ((if o.xm.getLsbD 0 then 1 else 0) + kindBits .none w))) ∧
  (∀ o bm w, CopyRequests (.cpyg o bm w) o true (startReq (2 + kindBits bm w))) ∧
  (∀ o bm w, CopyRequests (.cpys o bm w) o true (startReq (3 + kindBits bm w))) ∧
  (∀ o bm w, CopyRequests (.cpyq o bm w) o false (fun l _ b _ => { lane := l, rec_ := b, kind := kindBits bm w })) ∧
  (∀ o, CopyRequests (.cpyr o) o false (fun l _ b _ => { lane := l, rec_ := b, resume := true })) ∧
  (∀ (s : State) (c t ctx : Nat) (q : CopyReq) (a : DWord) (n i : Nat) (made : List Nat),
    q.resume = false → q.given = some (a, n) → s.recOffset t q.rec_ = none → (s.recGet c t q.rec_).inUse = false →
    s.recPoison c t q.rec_ (startReads false) = false → q.rec_ ∉ made → n ≠ 0 →
    let r := { s.recGet c t q.rec_ with maddr := a, count := n, kind := q.kind }
    s.recordFault t r false = none → (s.core c).freeJob = some i →
    let s1 := ((s.recPut c t q.rec_ 0 (leBytes 8 a.toNat)).recPut c t q.rec_ 16 (leBytes 4 n)).recPut c t q.rec_ 24
      (leBytes 4 0 ++ leBytes 1 q.kind ++ leBytes 1 1 ++ leBytes 1 0 ++ leBytes 1 0)
    s.copyReq c t ctx q made = (s1.queueJob c t ctx q.rec_ i { r with cursor := 0, events := 0 }, .started)) ∧
  (∀ (o : Opnds) (s s0 : State) (x : Iss) (act : Mask) (vs : List Src), Issues s o false s0 x act →
    s0.sources x act o [fieldB o] = .ok vs → s0.unperformed x.c x.w act s0.fresh = false →
    Retires (.cpyx o) s s0 x act o false
      { s := (lanesOf act).foldl (fun u l => if (u.cancelFault x.c x.src.team (srcAt vs 0 l)).isNone = true then
          u.cancelCopy x.c x.src.team (srcAt vs 0 l) else u) s0
        after := copyTrap x ((lanesOf act).filterMap (fun l => (s0.cancelFault x.c x.src.team (srcAt vs 0 l)).map (fun e =>
          (l, e.1, e.2, BitVec.ofNat 64 (srcAt vs 0 l))))) })

/-- R314-R319: the JIG-major instructions of the team that holds the Jig complete while it is idle: `JLOAD` takes the words that it
reads, `JSTART` starts the Jig at its entry, `JSTOP` stops it, `JPOP` claims an entry and `JPOP.TST` tests for one. A team that does
not hold the Jig traps JIG_ILLEGAL. -/
def Obligations.JigInstructionsComplete : Prop :=
  ∀ (o : Opnds) (s s0 : State) (x : Iss) (act : Mask), Issues s o false s0 x act →
    ((s0.jig x.c).holder ≠ some x.src.team →
      let t : Trap := { cause := .jigIllegal, cls := clsW, mask := act, addr := BitVec.ofNat 64 (2 ^ 64 - 1), pc := x.pc,
                        bundle := x.lanes, again := act }
      exec (.jload o) s = .next (s0.trapNow x t) ∧ exec (.jstart o) s = .next (s0.trapNow x t) ∧
      exec (.jstop o) s = .next (s0.trapNow x t) ∧ exec (.jpop o) s = .next (s0.trapNow x t)) ∧
    ((s0.jig x.c).holder = some x.src.team →
      (∀ vs s1 ws, s0.readOpds x act o [fieldA o 2, fieldB o] = .ok vs → (s0.jig x.c).running = false →
        let l := (lowest act).getD 0
        1 ≤ srcAt vs 1 l → srcAt vs 1 l ≤ 256 → (BitVec.ofNat 64 (srcAt vs 0 l)).toNat % 4 = 0 →
        ((s0.hostHeld || s0.task.isSome) && s0.jigWordsWait (.core x.c) x.ctx (BitVec.ofNat 64 (srcAt vs 0 l)) (srcAt vs 1 l)) = false →
        s0.readJigWords x.c x.ctx (BitVec.ofNat 64 (srcAt vs 0 l)) (srcAt vs 1 l) = (s1, .ok ws) →
        Retires (.jload o) s s0 x act o false { s := s1.modJig x.c (fun j => j.loaded ws (srcAt vs 1 l)) }) ∧
      (∀ vs, s0.readOpds x act o [fieldA o, fieldB o, fieldC o] = .ok vs → (s0.jig x.c).running = false →
        let l := (lowest act).getD 0
        srcAt vs 0 l ≤ 255 →
        Retires (.jstart o) s s0 x act o false { s := s0.modJig x.c (fun j => { j with
          g := [BitVec.ofNat 32 (srcAt vs 1 l), BitVec.ofNat 32 (srcAt vs 2 l), 0, 0, 0, 0, 0, 0]
          w := [0, 0, 0, 0]
          pc := srcAt vs 0 l
          running := true
          starter := some x.w }) }) ∧
      Retires (.jstop o) s s0 x act o false { s := s0.modJig x.c (fun j => { j with running := false }) } ∧
      (∀ t, dclsOf o .vec = .pred →
        s0.putPred x act o.d.toNat (if 0 < (s0.jig x.c).unclaimed (immOf o (fieldA o)) then act else 0) = .ok t →
        Retires (.jpop o) s s0 x act o false { s := t }) ∧
      (∀ ns ps prior s1, dclsOf o .vec ≠ .pred → x.names act 3 o.d.toNat 1 = .ok ns →
        s0.pendNames x act ns = .ok (ps, prior, s1) →
        let e : Op := { id := s1.fresh, wave := x.w, kind := .jpop, pc := x.pc, clk := x.clk, bundle := x.lanes, active := act,
                        dest := .vec (nth ns 0 0) ps, prior := prior, transit := s0.priorRegs x act ns, base := x.base,
                        ext := extOf64 o }
        Retires (.jpop o) s s0 x act o false
          { s := (((s1.newId.2).modCore x.c (fun k => { k with ops := k.ops ++ [e] })).modJig x.c (fun j =>
              { j with claims := j.claims ++ [(immOf o (fieldA o), e.id)] })).sweep x.c x.slice }))

/-- R381-R391: the barrier instructions: `BAR`, `TBAR` and `GBAR` record the arrival of their threads after a release and wait;
`BBINIT` writes a byte barrier, `BBARV` counts an arrival and bytes, and `BBWAIT` goes on when the phase is over and waits otherwise. -/
def Obligations.BarrierInstructionsComplete : Prop :=
  (∀ (o : Opnds) (s s0 s1 : State) (x : Iss) (act : Mask) (vs : List Src), Issues s o false s0 x act →
    s0.sources x act o [fieldA o] = .ok vs → let b := srcAt vs 0 ((lowest act).getD 0)
    b ≤ 15 → s0.releaseNow x act .team = .ok s1 →
    Waits (.bar o) s s0 x act o (s1.modTeam x.src.team (fun t => { t with bars := FMap.mod t.bars b {} (fun y =>
      { y with arrived := FMap.set y.arrived x.src.index (FMap.getD y.arrived x.src.index 0 ||| act) }) })) (.bar b)) ∧
  (∀ (o : Opnds) (s s0 : State) (x : Iss) (act : Mask) (vs : List Src) (k : Nat), Issues s o false s0 x act →
    s0.sources x act o [fieldA o, fieldB o, fieldC o] = .ok vs → let l := (lowest act).getD 0
    srcAt vs 0 l % 16 = 0 → s0.localBench x.src.team (srcAt vs 0 l) 16 = some k → 1 ≤ srcAt vs 2 l → srcAt vs 2 l ≤ 65535 →
    s0.unperformed x.c x.w act s0.fresh = false →
    Retires (.bbinit o) s s0 x act o false
      { s := (s0.modTeam x.src.team (fun t => { t with byteCame := t.byteCame.filter (fun e => e.1 != k) })).benchWrite k
          (ByteBar.bytes { pend := srcAt vs 1 l, arrv := srcAt vs 2 l, expa := srcAt vs 2 l }) }) ∧
  (∀ (o : Opnds) (s s0 s1 s2 : State) (x : Iss) (act : Mask) (vs : List Src) (k : Nat), Issues s o false s0 x act →
    s0.sources x act o [fieldA o, fieldB o] = .ok vs → let l := (lowest act).getD 0
    s0.bbKey x act (srcAt vs 0 l) = .ok k → (s0.bbGet k).arrv ≠ 0 → s0.releaseNow x act .team = .ok s1 →
    (dclsOf o .none ≠ .sca → s2 = s1) →
    (dclsOf o .none = .sca → s1.putScalar x act o.d.toNat [if (s0.bbGet k).sense then 1 else 0] = .ok s2) →
    Retires (.bbarv o) s s0 x act o false { s := (s2.bbPut k { s0.bbGet k with
      pend := (s0.bbGet k).pend + srcAt vs 1 l, arrv := (s0.bbGet k).arrv - 1 }).modTeam x.src.team (fun t => { t with
        byteCame := t.byteCame.filter (fun e => e.1 != k || e.2.1 == (s0.bbGet k).sense) ++
          [(k, (s0.bbGet k).sense, x.src.index)] }) }) ∧
  (∀ (o : Opnds) (tr : Bool) (s s0 : State) (x : Iss) (act : Mask) (vs : List Src) (k : Nat), Issues s o false s0 x act →
    s0.sources x act o [fieldA o, fieldB o] = .ok vs → let l := (lowest act).getD 0
    s0.bbKey x act (srcAt vs 0 l) = .ok k → s0.unperformed x.c x.w act s0.fresh = false →
    let sense := srcAt vs 1 l % 2 == 1
    ((s0.bbGet k).sense ≠ sense → Retires (.bbwait o tr) s s0 x act o false { s := s0.acquireFor x.c x.w .team }) ∧
    ((s0.bbGet k).sense = sense → (tr = false ∨ (s0.bbGet k).susp = false) → Waits (.bbwait o tr) s s0 x act o s0 (.bbwait k sense tr)) ∧
    ((s0.bbGet k).sense = sense → tr = true → (s0.bbGet k).susp = true → exec (.bbwait o tr) s = .next (s0.trapNow x
      { cause := .copySuspended, cls := clsW, mask := act, addr := BitVec.ofNat 64 (32 * (s0.bbGet k).srec), pc := x.pc,
        bundle := x.lanes, again := act }))) ∧
  (∀ (o : Opnds) (set : TSet) (s s0 s1 : State) (x : Iss) (act : Mask) (vs : List Src), Issues s o false s0 x act →
    s0.sources x act o [fieldA o, fieldB o] = .ok vs →
    let l := (s0.team x.src.team).launch
    let m : Word := BitVec.ofNat 32 (srcAt vs 0 ((lowest act).getD 0))
    let tmo := srcAt vs 1 ((lowest act).getD 0)
    (s0.launch l).phased = true → tbarNames set m x.c = true →
    (∀ a ∈ (s0.launch l).tbar, a.core = x.c → a.set = set ∧ a.mask = m) → tmo ≤ 65535 → s0.releaseNow x act .device = .ok s1 →
    Waits (.tbar o set) s s0 x act o (s1.modLaunch l (fun y => { y with tbar := y.tbar ++
      [{ core := x.c, wave := x.w, lanes := x.lanes, time := s1.time, tmo := tmo, set := set, mask := m }] })) .tbar) ∧
  (∀ (o : Opnds) (s s0 s1 : State) (x : Iss) (act : Mask) (vs : List Src), Issues s o false s0 x act →
    s0.sources x act o [fieldA o, fieldB o] = .ok vs → o.cb = .none → dclsOf o .none ≠ .sca →
    let l := (s0.team x.src.team).launch
    let tmo := srcAt vs 0 ((lowest act).getD 0)
    (s0.launch l).phased = true → tmo ≤ 65535 → s0.releaseNow x act .device = .ok s1 →
    Waits (.gbar o) s s0 x act o (s1.modLaunch l (fun y => { y with gbar := y.gbar ++
      [{ core := x.c, wave := x.w, lanes := x.lanes, time := s1.time, tmo := tmo, map := none }] })) (.gbar none)) ∧
  (∀ (o : Opnds) (s s0 s1 : State) (x : Iss) (act : Mask) (vs : List Src) (k : Nat), Issues s o false s0 x act →
    s0.sources x act o [fieldA o, fieldB o] = .ok vs → o.cb ≠ .none → dclsOf o .none = .sca →
    let l := (s0.team x.src.team).launch
    let tmo := srcAt vs 0 ((lowest act).getD 0)
    let map := srcAt vs 1 ((lowest act).getD 0)
    (s0.launch l).phased = true → tmo ≤ 65535 → map % 32 = 0 → s0.localBench x.src.team map 32 = some k →
    s1.localBench x.src.team map 32 = some k →
    (∀ i, i < 8 → x.src.sPend.getLsbD (o.d.toNat + i) = false) → s0.releaseNow x act .device = .ok s1 →
    Waits (.gbar o) s s0 x act o (s1.modLaunch l (fun y => { y with gbar := y.gbar ++
      [{ core := x.c, wave := x.w, lanes := x.lanes, time := s1.time, tmo := tmo, map := some k }] })) (.gbar (some o.d.toNat)))

/-- R393-R397: `SEND` releases, puts a deposit of each active lane on its way and waits for their status; `MBCLR` empties a mailbox;
`WAITA` retires with the word when its condition holds at the home, and waits registered otherwise; `WAKE` wakes its line's waiters. -/
def Obligations.MailInstructionsComplete : Prop :=
  (∀ (o : Opnds) (dev : Bool) (s s0 s1 : State) (x : Iss) (act : Mask) (vs : List Src) (ns : List Nat), Issues s o false s0 x act →
    x.namesOk act ([fieldA o, fieldB o] ++ (if dclsOf o .none = .vec then [dstOpd o 1] else [])) = .ok () →
    s0.readOpds x act o [fieldA o, fieldB o] = .ok vs →
    (if dclsOf o .none = .vec then x.names act 3 o.d.toNat 1 else .ok []) = .ok ns →
    let sc : Scope := if dev then .device else .team
    s0.releaseNow x act sc = .ok s1 →
    let r := s1.deposit x act sc (fun l => BitVec.ofNat 32 (srcAt vs 0 l)) (fun l => BitVec.ofNat 32 (srcAt vs 1 l))
    Waits (.send o dev) s s0 x act o r.1 (.send r.2 [] ns.head?) ∧
    r.1.deposits.length = s1.deposits.length + popcount act ∧ r.2.map (·.1) = lanesOf act) ∧
  (∀ (o : Opnds) (s s0 : State) (x : Iss) (act : Mask), Issues s { o with ca := .none } false s0 x act →
    let n := o.a.toNat - 128
    Retires (.mbclr o) s s0 x act { o with ca := .none } false { s := s0.modNow x (fun y =>
      if y.boxWrote.contains n then y else { y with mbox := setNth y.mbox n {} }) }) ∧
  (∀ (o : Opnds) (s s0 s1 : State) (x : Iss) (act : Mask) (vs : List Src) (ns : List Nat) (h : HomeWord), Issues s o false s0 x act .sca →
    x.namesOk act ([fieldA o 2, fieldB o] ++ (if dclsOf o .sca = .vec then [dstOpd o 1] else [])) = .ok () →
    s0.readOpds x act o [fieldA o 2, fieldB o] = .ok vs →
    (if dclsOf o .sca = .vec then x.names act 3 o.d.toNat 1 else .ok [o.d.toNat]) = .ok ns →
    let va := BitVec.ofNat 64 (srcAt vs 0 ((lowest act).getD 0))
    let r := { waitaReq o va (BitVec.ofNat 32 (srcAt vs 1 ((lowest act).getD 0))) with
      vec := dclsOf o .sca == .vec, dest := nth ns 0 0 }
    va.toNat % 4 = 0 → s0.homeWord x.c x.ctx va = (s1, .ok h) →
    s1.memReady x.c { id := s1.fresh, wave := x.w, kind := .load, active := act, once := true } { lane := 0, va := va, key := h.key } = true →
    (h.word = none → isLocal h.key = false) →
    (∀ v t, h.word = some v → cmpWord r.code r.signed v r.value = true → s1.waitaPut x act r v = .ok t →
      Retires (.waita o) s s0 x act o false { s := t }) ∧
    ((∀ v, h.word = some v → cmpWord r.code r.signed v r.value = false) → (s1.now x).registered = false →
      Waits (.waita o) s s0 x act o (s1.waitaWait x.c x.w r h.key).1 (s1.waitaWait x.c x.w r h.key).2)) ∧
  (∀ (o : Opnds) (s s0 s1 : State) (x : Iss) (act : Mask) (vs : List Src) (p : Place), Issues s o false s0 x act →
    s0.sources x act o [fieldA o 2] = .ok vs →
    s0.place (.core x.c) x.ctx (BitVec.ofNat 64 (srcAt vs 0 ((lowest act).getD 0))) .read = (s1, .ok p) →
    Retires (.wake o) s s0 x act o false { s := s1.wakeLine (lineOf p.key) })

/-- R348, R360, R398-R400: a push that its queue takes retires, with its outcome predicate set for `.NB`, and one that must wait waits;
a pop takes the oldest entry or waits; `SQSTAT` reads the entry count and the drops; `CQPOP` takes its entries or waits. -/
def Obligations.QueueInstructionsComplete : Prop :=
  (∀ (o : Opnds) (nb : Bool) (s s0 s1 : State) (x : Iss) (act : Mask) (qs vs : List Src) (y : StageQ),
    Issues s o false s0 x act .none (if nb then [outcomeOf o] else []) →
    s0.readOpds x act o [fieldB o] = .ok qs → let q := srcAt qs 0 ((lowest act).getD 0)
    s0.sqCheck x act q 1 false = .ok y → pastEnd (fieldA o y.regs) = false →
    s0.sources x act o [fieldA o y.regs] = .ok vs → s0.releaseNow x act .device = .ok s1 →
    s1.entryWaits q = false →
    let e := entryOf y.entsz (nth vs 0 Src.none)
    (∀ t u, s1.sqApply q e = .done t → (nb = false → u = t) → (nb = true → t.putPred x act (outcomeOf o) act = .ok u) →
      Retires (.sqpush o nb) s s0 x act o false { s := u }) ∧
    (∀ u, s1.sqApply q e = .full → nb = true → s1.putPred x act (outcomeOf o) 0 = .ok u →
      Retires (.sqpush o nb) s s0 x act o false { s := u }) ∧
    (s1.sqApply q e = .full → nb = false → Waits (.sqpush o nb) s s0 x act o
      (s1.newId.2.modSq q (fun y => { y with pushers := y.pushers ++ [(x.c, x.w, s1.fresh, e)] })) (.sqpush q s1.fresh))) ∧
  (∀ (o : Opnds) (nb : Bool) (s s0 : State) (x : Iss) (act : Mask) (qs : List Src) (y : StageQ) (ns : List Nat),
    Issues s o false s0 x act .none (if nb then [outcomeOf o] else []) →
    s0.readOpds x act o [fieldA o] = .ok qs → let q := srcAt qs 0 ((lowest act).getD 0)
    s0.sqCheck x act q 0 true = .ok y → pastEnd (dstOpd o y.regs) = false → x.names act 3 o.d.toNat y.regs = .ok ns →
    (∀ e r t u, y.entries = e :: r → y.poppers = [] → s0.sqTake x act ns e.2 = .ok t →
      let t1 := t.modSq q (fun y => { y with entries := r })
      (nb = false → u = t1) → (nb = true → t1.putPred x act (outcomeOf o) act = .ok u) →
      Retires (.sqpop o nb) s s0 x act o false { s := u }) ∧
    (y.entries = [] → nb = false → Waits (.sqpop o nb) s s0 x act o
      (s0.newId.2.modSq q (fun y => { y with poppers := y.poppers ++ [(x.c, x.w, s0.fresh)] })) (.sqpop q s0.fresh ns)) ∧
    (∀ u, y.entries = [] → nb = true → s0.putPred x act (outcomeOf o) 0 = .ok u →
      Retires (.sqpop o nb) s s0 x act o false { s := u })) ∧
  (∀ (o : Opnds) (s s0 t : State) (x : Iss) (act : Mask) (qs : List Src) (y : StageQ), Issues s o false s0 x act →
    s0.readOpds x act o [fieldA o] = .ok qs → s0.sqCheck x act (srcAt qs 0 ((lowest act).getD 0)) 0 false = .ok y →
    s0.putScalar x act o.d.toNat [BitVec.ofNat 32 y.entries.length, y.drops] = .ok t →
    Retires (.sqstat o) s s0 x act o false { s := t }) ∧
  (∀ (o : Opnds) (wait : Bool) (s s0 : State) (x : Iss) (act : Mask) (vs : List Src) (ns : List Nat),
    Issues s o false s0 x act .none [outcomeOf o] →
    x.namesOk act ([fieldA o, fieldB o, fieldC o] ++ [dstOpd o 4]) = .ok () →
    s0.readOpds x act o [fieldA o, fieldB o, fieldC o] = .ok vs → x.names act 3 o.d.toNat 4 = .ok ns →
    let l := (lowest act).getD 0
    srcAt vs 0 l < (s0.team x.src.team).cqn → (wait = true → 1 ≤ srcAt vs 1 l ∧ srcAt vs 1 l ≤ 32) →
    (∀ t, (wait = false ∨ s0.cqEnough x (srcAt vs 0 l) (srcAt vs 1 l) = true) →
      s0.cqTake x act (srcAt vs 0 l) ns (outcomeOf o) = .ok t → Retires (.cqpop o wait) s s0 x act o false { s := t }) ∧
    (wait = true → s0.cqEnough x (srcAt vs 0 l) (srcAt vs 1 l) = false → (s0.pendingPreds x).contains (outcomeOf o) = false →
      Waits (.cqpop o wait) s s0 x act o s0.newId.2
      (.cqpop (srcAt vs 0 l) (srcAt vs 1 l) (if srcAt vs 2 l = 0 then none else some (s0.time + 1024 * srcAt vs 2 l)) ns
        (outcomeOf o) s0.fresh)))

/-- R342-R344, R401-R406: `LAUNCH` takes up its header or waits for room; `RFORK` with a trip count of one chunk writes the fork cell
and the forking wave's scalars; `JOIN` of the last participant goes on at its target; `RACQ` maps the lowest unmapped blocks or waits;
`RREL` unmaps blocks; `RSETW` and `ROTB` set the rotating window. -/
def Obligations.TaskInstructionsComplete : Prop :=
  (∀ (o : Opnds) (s s0 s1 : State) (x : Iss) (act : Mask) (vs : List Src), Issues s o false s0 x act →
    s0.sources x act o [fieldA o 2, fieldB o 2] = .ok vs →
    let h := BitVec.ofNat 64 (srcAt vs 0 ((lowest act).getD 0))
    let r := if o.cb = .none then none else some (BitVec.ofNat 64 (srcAt vs 1 ((lowest act).getD 0)))
    h.toNat % 128 = 0 → (∀ a ∈ r, a.toNat % 16 = 0) → s0.releaseNow x act .device = .ok s1 →
    (s1.unplaced x.ctx < 64 → Retires (.launch o) s s0 x act o false { s := s1.programLaunch x.ctx h r }) ∧
    (64 ≤ s1.unplaced x.ctx → Waits (.launch o) s s0 x act o s1 (.launch h r))) ∧
  (∀ (o : Opnds) (s s0 s1 s2 s3 s4 : State) (x : Iss) (act : Mask) (vs : List Src) (p : Place) (got : List (Nat × Nat)),
    Issues s o false s0 x act → s0.sources x act o [fieldA o 2, fieldB o, fieldC o] = .ok vs → let l := (lowest act).getD 0
    let cell := BitVec.ofNat 64 (srcAt vs 0 l)
    srcAt vs 2 l ≠ 0 → cell.toNat % 16 = 0 → s0.place (.core x.c) x.ctx cell .write = (s1, .ok p) →
    s1.transWaits (.core x.c) x.ctx cell = false → s1.atHome x.ctx p.key = none →
    s1.releaseNow x act .device = .ok s2 →
    let t := ceilDiv (srcAt vs 1 l) (srcAt vs 2 l)
    s2.recruit (s2.team x.src.team).launch x.c x.next (min (t - 1) 1023) = (s3, got) →
    ((s3.pushHome x.c p.key).writeKills x.c p.key 16).homeWrite p.key
      (leBytes 4 (got.length + 1) ++ leBytes 4 0 ++ leBytes 4 t ++ leBytes 4 0) = (s4, true) →
    let s5 := (List.range got.length).foldl (fun u i => u.modWave (nth got i (0, 0)).1 (nth got i (0, 0)).2 (fun y =>
      y.setScalars o.d.toNat (forkScalars (i + 1) got.length cell))) (s4.l2Use p.key 16 p.cpol)
    let s5 := s5.forkCell x.ctx cell ((x.src.team, x.src.index) :: got.map (fun e => ((s5.wave e.1 e.2).team, 0)))
    ∀ u, s5.putScalar x act o.d.toNat (forkScalars 0 got.length cell) = .ok u →
      Retires (.rfork o) s s0 x act o false { s := u }) ∧
  (∀ (o : Opnds) (s s0 s1 s2 : State) (x : Iss) (act : Mask) (vs : List Src) (p : Place), Issues s o false s0 x act →
    x.lanes = x.src.live → s0.sources x act o [fieldA o 2, fieldB o] = .ok vs → let l := (lowest act).getD 0
    let cell := BitVec.ofNat 64 (srcAt vs 0 l)
    cell.toNat % 16 = 0 → s0.place (.core x.c) x.ctx cell .atomic = (s1, .ok p) →
    s1.transWaits (.core x.c) x.ctx cell = false → s1.missWait p.key 4 = false → s1.atHome x.ctx p.key = none →
    s1.releaseNow x x.lanes .device = .ok s2 → ∀ n, (s2.pushHome x.c p.key).homeNat p.key 4 = some (n + 1) →
    let s3 := ((((s2.pushHome x.c p.key).writeKills x.c p.key 4).homeWrite p.key (leBytes 4 n)).1.l2Use p.key 4 p.cpol).acquireFor
      x.c x.w .device
    let fx : Fx := if n = 0 then
        { s := s3.forkCell x.ctx cell [], whole := true, goes := some (fun _ => x.pc + (BitVec.ofNat 32 (srcAt vs 1 l)).signExtend 64 * 8) }
      else { s := s3.endThreads x.c x.w x.lanes, whole := true }
    let t := fx.s.retire x act o false fx
    s0.transitsOver x fx.s = false →
    exec (.join o) s = .next (if (t.wave? x.c x.w).any Wave.isOver then t.waveOver x.c x.w else t)) ∧
  (∀ (o : Opnds) (s s0 : State) (x : Iss) (act : Mask) (vs : List Src), Issues s o false s0 x act →
    s0.sources x act o [fieldA o] = .ok vs → let n := srcAt vs 0 ((lowest act).getD 0)
    let y := s0.now x
    let dest := if dclsOf o .none = .sca then some o.d.toNat else none
    1 ≤ n → n ≤ 31 → n ≤ 32 - popcount y.blocks → y.charge + 64 * n ≤ 1023 → y.asking = false →
    (∀ t, (s0.slice x.c x.slice).racq = [] → s0.canGrant x.c x.w n = true → s0.grantBlocks x act n dest = .ok t →
      Retires (.racq o) s s0 x act o false { s := t }) ∧
    (((s0.slice x.c x.slice).racq ≠ [] ∨ s0.canGrant x.c x.w n = false) → Waits (.racq o) s s0 x act o
      (s0.modSlice x.c x.slice (fun k => { k with racq := k.racq ++ [x.w] })) (.racq n dest))) ∧
  (∀ (o : Opnds) (s s0 : State) (x : Iss) (act : Mask) (vs : List Src), Issues s o false s0 x act →
    s0.sources x act o [fieldA o] = .ok vs → let v := srcAt vs 0 ((lowest act).getD 0)
    ((BitVec.ofNat 32 v).getLsbD 0 = false → Retires (.rrel o) s s0 x act o false
      { s := (((s0.modNow x (fun y => y.unmapBlocks (BitVec.ofNat 32 v))).sweep x.c x.slice).promote x.c x.slice).serveRacq
          x.c x.slice }) ∧
    (v % 8 = 0 → v ≤ 512 → Retires (.rsetw o) s s0 x act o false
      { s := s0.modNow x (fun y => { y with rotSize := v, rotBase := 0 }) }) ∧
    (x.src.rotSize ≠ 0 → Retires (.rotb o) s s0 x act o false
      { s := s0.modNow x (fun y => { y with
          rotBase := (((x.src.rotBase : Int) + intOf v 32 true) % (x.src.rotSize : Int)).toNat }) }))

/-- R356, R362, R371-R373: a `TRAV` whose lanes all find a walk slot starts a walk of each and retires; while lanes find no slot
free, or others waited for one before, those lanes wait for slots in turn;
`TRAVX` cancels the walks of its team whose tags match. -/
def Obligations.TraversalInstructionsComplete : Prop :=
  (∀ (o : Opnds) (s s0 : State) (x : Iss) (act : Mask) (vs : List Src) (blk : Nat → List Byte), Issues s o false s0 x act →
    s0.sources x act o [fieldA o, fieldB o, fieldC o] = .ok vs →
    let cq := (o.xm.extractLsb' 0 3).toNat
    let h := srcAt vs 1 ((lowest act).getD 0)
    let kind := pairOf (BitVec.ofNat 32 h) (hiWord (s0.launchOf x.src).hdr.sdtp)
    cq < (s0.team x.src.team).cqn → h % 32 = 0 → s0.queryReady x act (srcAt vs 0) = true →
    (∀ l ∈ lanesOf act, s0.queryBlock x (srcAt vs 0 l) = .ok (blk l)) →
    let reqs : List TravReq := (lanesOf act).map (fun l =>
      { lane := l, tag := BitVec.ofNat 32 (srcAt vs 2 l), cq := cq, kind := kind, block := blk l })
    let sp := (s0.core x.c).sp
    (∀ t, sp.want = [] → sp.arrivals = [] → s0.travStarts x.c x.w reqs = (t, []) →
      Retires (.trav o) s s0 x act o false { s := t }) ∧
    (∀ t left, sp.want = [] → sp.arrivals = [] → s0.travStarts x.c x.w reqs = (t, left) → left ≠ [] → Waits (.trav o) s s0 x act o
      (t.modCore x.c (fun k => { k with sp := { k.sp with want := k.sp.want ++ left.map (fun r => (x.w, r.lane)) } }))
      (.trav left [])) ∧
    ((sp.want ≠ [] ∨ sp.arrivals ≠ []) → Waits (.trav o) s s0 x act o
      (s0.modCore x.c (fun k => { k with sp := { k.sp with want := k.sp.want ++ reqs.map (fun r => (x.w, r.lane)) } }))
      (.trav reqs []))) ∧
  (∀ (o : Opnds) (s s0 : State) (x : Iss) (act : Mask) (vs : List Src), Issues s o false s0 x act →
    s0.sources x act o [fieldA o, fieldB o] = .ok vs →
    let tag := fun (l : Nat) => (BitVec.ofNat 32 (srcAt vs 0 l) : Word)
    let mask := fun (l : Nat) => if o.cb = .none then (0xFFFFFFFF : Word) else BitVec.ofNat 32 (srcAt vs 1 l)
    Retires (.travx o) s s0 x act o false
      { s := ((s0.core x.c).sp.walks.filter (fun e => e.2.team == x.src.team && e.2.remote.isNone &&
          (lanesOf act).any (fun l => e.2.tag &&& mask l == tag l &&& mask l))).foldl (fun u e => u.cancelWalk x.c e.1) s0 })

/-- R153-R167: with its wave converged and its tile and formats accepted, each matrix instruction enters the core's engine queue
with its operands and retires; a readout may come from the reuse table. -/
def Obligations.MatrixInstructionsComplete : Prop :=
  (∀ (o : Opnds) (bf zskip : Bool) (s s0 : State) (x : Iss) (vs : List Src) (fx : Fx), Issues s o true s0 x allLanes →
    tilePre (some o.d) 3 true x = none →
    let fa := overCode (pfxA x.pfx) (halfCode bf)
    let fb := overCode (pfxB x.pfx) (halfCode bf)
    let g := groupSize (pfxGs x.pfx)
    let grouped := isGrouped fa || isGrouped fb
    let kk := matK fa fb
    matPair fa fb = true → pfxC x.pfx = 0 → pfxD x.pfx ≤ 1 → (pfxGs x.pfx = 0 ↔ grouped = false) →
    let na := fragRegs kk (codeWidth fa)
    let nb := fragRegs kk (codeWidth fb)
    s0.sources x allLanes o ([fieldA o na, fieldB o nb] ++ (if grouped then [pfxScl x.pfx, pfxZp x.pfx] else []) ++
      maskOpds o zskip) = .ok vs →
    let reg := fun (i : Nat) => nth (nth vs i Src.none).vals 0 vzero
    let zp := if grouped then groupVals (pfxZp x.pfx) (reg 3) 8 else []
    let nt := if kk ≤ g then 1 else kk / g
    let mk := if grouped then 4 else 2
    ((fa = 11 ∨ fb = 11) → ∀ z ∈ zp.take (16 * nt), z.toNat ≤ 15) →
    s0.engEnter x o (fIV ||| fLAC) true {
      id := 0, wave := x.w, kind := .mma, places := if fa = 1 then 4 else 1, tile := x.tile o.d
      srcs := (nth vs 0 Src.none).vals ++ (nth vs 1 Src.none).vals, regs := srcRegs vs, fa := fa, fb := fb, gs := g
      scl := if grouped then groupVals (pfxScl x.pfx) (reg 2) 16 else []
      zp := zp, mask := if zskip then maskOf0 (nth vs mk Src.none) else 0
      zskip := zskip, nA := na, nB := nb, x0 := flagNo o.a, x1 := flagNo o.b
      sclB := if grouped then BitVec.ofNat 64 ((if (pfxScl x.pfx).cls = .sca then srcAt vs 2 0 else 0) +
        2 ^ 32 * (if (pfxZp x.pfx).cls = .sca then srcAt vs 3 0 else 0)) else 0
      sclC := if zskip then BitVec.ofNat 64 (srcAt vs mk 0) else 0 } = .ok fx →
    Retires (.mma o bf zskip) s s0 x allLanes o true fx) ∧
  (∀ (o : Opnds) (bf : Bool) (out : Outer) (inner zskip : Bool) (s s0 : State) (x : Iss) (vs : List Src) (fx : Fx),
    Issues s o true s0 x allLanes → tilePre (some o.d) 3 true x = none →
    let fa := overCode (pfxA x.pfx) (halfCode bf)
    let fb := overCode (pfxB x.pfx) (halfCode bf)
    let r := outRatio out inner
    2 ≤ fa → fa ≤ 7 → (inner = true → codeWidth fa = 16) → isGrouped fb = false → codeWidth fb = codeWidth fa →
    matPair fa fb = true → pfxC x.pfx = 0 → pfxD x.pfx ≤ 1 → pfxGs x.pfx = 0 →
    s0.sources x allLanes o ([fieldA o 8, fieldB o (8 * r), { fieldA o with pos := 6, name := o.a.toNat + 8 }] ++ maskOpds o zskip)
      = .ok vs →
    let m := nth (nth vs 2 Src.none).vals 0 vzero
    sparseBad out inner (16 * (32 / codeWidth fa)) m = false →
    s0.engEnter x o (fIV ||| fLAC) true {
      id := 0, wave := x.w, kind := .mmas, tile := x.tile o.d
      srcs := (nth vs 0 Src.none).vals ++ [m] ++ (nth vs 1 Src.none).vals, regs := srcRegs vs, fa := fa, fb := fb
      mask := if zskip then maskOf0 (nth vs 3 Src.none) else 0
      zskip := zskip, out := out, inner := inner, nA := 8, nB := 8 * r, x0 := flagNo o.a, x1 := flagNo o.b
      sclC := if zskip then BitVec.ofNat 64 (srcAt vs 3 0) else 0 } = .ok fx →
    Retires (.mmas o bf out inner zskip) s s0 x allLanes o true fx) ∧
  (∀ (o : Opnds) (bf abs k32 : Bool) (s s0 : State) (x : Iss) (vs : List Src) (k : Nat) (fx : Fx), Issues s o true s0 x allLanes →
    tilePre (some o.d) 3 true x = none →
    let fq := overCode (pfxA x.pfx) (halfCode bf)
    isHalf fq = true → (pfxB x.pfx = 0 ∨ pfxB x.pfx = 3) → pfxC x.pfx = 0 → pfxD x.pfx ≤ 1 → pfxGs x.pfx = 0 →
    s0.sources x allLanes o ([fieldA o 8, fieldB o] ++ (if o.cc = .none then [] else [fieldC o])) = .ok vs →
    let lx := (s0.core x.c).lxQueued
    let j := if o.cc = .none then 0 else srcAt vs 2 0
    lx.loaded = true → lx.ctx = x.ctx → j < lx.dh / 32 → s0.lxBench x allLanes (srcAt vs 1 0) (32 * lx.dc) = .ok k →
    s0.engEnter x o (fIV ||| fLAC ||| fIX ||| fUF ||| fOF) true {
      id := 0, wave := x.w, kind := .mmal, tile := x.tile o.d, srcs := (nth vs 0 Src.none).vals
      regs := srcRegs vs, fa := fq, nA := 8, abs := abs, k32 := k32, x0 := k, x1 := j, lxVersion := lx.version
      sclB := BitVec.ofNat 64 (srcAt vs 1 0), sclC := BitVec.ofNat 64 j } = .ok fx →
    Retires (.mmal o bf abs k32) s s0 x allLanes o true fx) ∧
  (∀ (o : Opnds) (s s0 : State) (x : Iss) (act : Mask) (fx : Fx), Issues s o false s0 x act → tilePre (some o.d) 3 false x = none →
    s0.engEnter x o 0 true { id := 0, wave := x.w, kind := .macz, tile := x.tile o.d } = .ok fx →
    Retires (.macz o) s s0 x act o false fx) ∧
  (∀ (o : Opnds) (f : TileFmt) (s s0 : State) (x : Iss) (vs : List Src) (fx : Fx), Issues s o true s0 x allLanes →
    tilePre (some o.d) 3 true x = none →
    let fa := overCode (pfxA x.pfx) (tileCode f)
    tileFmtOk fa = true → pfxB x.pfx = 0 → pfxC x.pfx = 0 → pfxD x.pfx = 0 → pfxGs x.pfx = 0 →
    s0.sources x allLanes o [fieldA o (codeWidth fa / 4)] = .ok vs →
    s0.engEnter x o fIV true { id := 0, wave := x.w, kind := .macw, tile := x.tile o.d, srcs := (nth vs 0 Src.none).vals,
                               regs := srcRegs vs, fa := fa, nA := codeWidth fa / 4 } = .ok fx →
    Retires (.macw o f) s s0 x allLanes o true fx) ∧
  (∀ (o : Opnds) (f : TileFmt) (r : Rm) (s s0 : State) (x : Iss) (ns : List Nat), Issues s o true s0 x allLanes →
    tilePre (some o.a) 0 true x = none →
    let fd := overCode (pfxD x.pfx) (tileCode f)
    let t := x.tile o.a
    tileFmtOk fd = true → pfxA x.pfx = 0 → pfxB x.pfx = 0 → pfxC x.pfx = 0 → pfxGs x.pfx = 0 →
    x.names allLanes 3 o.d.toNat (codeWidth fd / 4) = .ok ns → (s0.core x.c).tilePoisoned t = false →
    let key := reuseKey x allLanes (opItemsRm (.macr o f r) r x)
      [{ vals := [], key := [t, (FMap.getD (s0.core x.c).tiles t {}).gen] }] none ns
    (∀ fx, s0.reuseHit x allLanes key ns none macrRaise = some (.ok fx) → Retires (.macr o f r) s s0 x allLanes o true fx) ∧
    (∀ ps prior s1 fx, s0.reuseHit x allLanes key ns none macrRaise = none → 1 ≤ (s0.core x.c).engRoom →
      s0.pendNames x allLanes ns = .ok (ps, prior, s1) →
      s1.engEnter x o macrRaise false {
        id := 0, wave := x.w, kind := .macr, tile := t, fa := fd, rm := (rmEff x.src.sr r).code.toNat
        dest := .vec (nth ns 0 0) ps, prior := prior } = .ok fx →
      let s2 := fx.s.sweep x.c x.slice
      let s3 := s2.reuseAdd x.c x.slice { key := key, ctx := x.ctx, result := .regs ps, tile := some t }
      Retires (.macr o f r) s s0 x allLanes o true
        { s := if macrRaise &&& srEnable x.src.sr ≠ 0 then s2 else s3 })) ∧
  (∀ (o : Opnds) (s s0 : State) (x : Iss) (cs vs : List Src) (fx : Fx),
    Issues s o false s0 x allLanes .none [o.d.toNat - 144] → tilePre none 0 true x = none → s0.sources x allLanes o [fieldB o] = .ok cs →
    let n := srcAt cs 0 0
    1 ≤ n → n ≤ 32 → o.a.toNat + 8 * n - 1 ≤ 2047 → s0.sources x allLanes o [fieldA o (8 * n)] = .ok vs →
    (s0.pendingPreds x).contains (o.d.toNat - 144) = false →
    let zero := fun (c : Nat) => (((nth vs 0 Src.none).vals.drop (8 * c)).take 8).all (fun v => v == vzero)
    let at_ := fun (l : Nat) => (List.range n).filter (fun c => (flagNo o.a + c) % 32 == l)
    s0.engEnter x o 0 false {
      id := 0, wave := x.w, kind := .zflg, regs := srcRegs vs, dest := .pred (o.d.toNat - 144)
      mask := maskOf (fun l => !(at_ l).isEmpty), sclB := BitVec.ofNat 64 n
      x0 := (maskOf (fun l => (at_ l).any zero)).toNat } = .ok fx →
    Retires (.zflg o) s s0 x allLanes o false fx) ∧
  (∀ (o : Opnds) (s s0 : State) (x : Iss) (act : Mask) (vs : List Src) (k : Nat) (fx : Fx), Issues s o false s0 x act →
    s0.sources x act o [fieldA o, fieldB o, fieldC o] = .ok vs → let l := (lowest act).getD 0
    let dc := srcAt vs 1 l
    let dh := srcAt vs 2 l
    dc % 32 = 0 → 32 ≤ dc → dc ≤ 512 → dh % 32 = 0 → dh ≠ 0 → dc * dh ≤ 32768 →
    s0.lxBench x act (srcAt vs 0 l) (2 * dc * dh) = .ok k →
    s0.engEnter x o 0 false {
      id := 0, wave := x.w, kind := .lxld, gs := x.ctx, x0 := k, x1 := dc, x2 := dh
      sclB := BitVec.ofNat 64 (dc + 2 ^ 32 * srcAt vs 0 l), sclC := BitVec.ofNat 64 dh } = .ok fx →
    Retires (.lxld o) s s0 x act o false fx) ∧
  (∀ (o : Opnds) (s s0 : State) (x : Iss) (act : Mask) (fx : Fx), Issues s o false s0 x act →
    s0.engEnter x o 0 false { id := 0, wave := x.w, kind := .lxinv } = .ok fx → Retires (.lxinv o) s s0 x act o false fx)

/-- R138, R154-R156: the engine starts the oldest entry that has a place left, once no entry runs; a started entry with no place left
takes its effect on its tile; a readout's registers fill; the LX loads in the background. A readout that finds a poisoned element when it
starts traps late, and what its registers then hold is the model's reading (`tileFault`, log entry 73). -/
def Obligations.EngineEventsComplete : Prop :=
  (∀ (s : State) (c : Nat) (e : EngEntry), (s.core c).eng.any (·.running) = false → (s.core c).engHead = some e →
    (e.kind = .mma ∨ e.kind = .mmas ∨ e.kind = .macw ∨ e.kind = .zflg → exec (.engineStart c) s = .next (s.startEntry c e)) ∧
    (e.kind = .macz → exec (.engineStart c) s = .next
      ((s.modTile c e.tile (fun t => { t with elems := List.replicate 256 {}, poison := [] })).dropEntry c e.id)) ∧
    (e.kind = .macr → (FMap.getD (s.core c).tiles e.tile {}).poison = [] →
      exec (.engineStart c) s = .next ((s.readTile c e).startEntry c e)) ∧
    (e.kind = .macr → (FMap.getD (s.core c).tiles e.tile {}).poison ≠ [] → exec (.engineStart c) s = .next (s.tileFault c e))) ∧
  (∀ (s : State) (c : Nat) (e : EngEntry), (s.core c).eng.find? (·.running) = some e → e.places = 0 →
    (e.kind = .mma ∨ e.kind = .mmas ∨ e.kind = .mmal ∨ e.kind = .macw) →
    let s1 := s.modEntry c e.id (fun y => { y with running := false })
    let r := e.result (s1.core c)
    exec (.engineEffect c) s = .next (((s1.modTile c e.tile (fun t =>
      { t with elems := r.1, poison := if e.kind = .macw then [] else t.poison })).dropEntry c e.id).queuedFlags
        c e.wave e.pc e.clk e.bundle allLanes (fun _ => r.2) true e.hold)) ∧
  (∀ (s : State) (c : Nat) (e : EngEntry),
    (s.core c).eng.find? (fun y => y.id == e.id && y.kind == .macr && y.places == 0 && !y.running) = some e →
    let k := sliceOf e.wave
    let r := ((s.dropEntry c e.id).reuseFlags c k e.dest.regs e.flags).settleResults c k allLanes e.owns
      (resultsOf e.dest.regs e.vals e.prior)
    (∀ u, r = some u → exec (.macrResultWrite c e.id) s = .next (((u.sweep c k).shareFlags c e.sharers allLanes (fun _ => e.flags)).queuedFlags
      c e.wave e.pc e.clk e.bundle allLanes (fun _ => e.flags) true e.hold)) ∧
    (r = none → exec (.macrResultWrite c e.id) s = .next (s.spillWave c k))) ∧
  (∀ (s : State) (c : Nat), exec (.lxLoadDone c) s = .next (s.modCore c (fun k => { k with lx := { k.lx with loading := false } })))

/-! ### Walks -/

/-- R215: the ALU group computes `q`d := `q`a op y on words, y a register or the sign-extended immediate; with `.W` on pairs, in
64 bits. Additions and subtractions wrap; a shift by the width or more gives 0, its count being the low 32 bits of y. The walk's
other registers keep their values, and it goes on at its next word. -/
def Obligations.WalkAluGroup : Prop :=
  (∀ (d a : BitVec 4) (y : QSrc), let v := fun (x : Walk) => match y with | .reg b => x.qr b.toNat | .imm i => i.signExtend 32
    WalkGoesOn (.wadd false d a y) (fun _ x => x.setQ d.toNat (x.qr a.toNat + v x)) ∧
    WalkGoesOn (.wsub false d a y) (fun _ x => x.setQ d.toNat (x.qr a.toNat - v x)) ∧
    WalkGoesOn (.wand false d a y) (fun _ x => x.setQ d.toNat (x.qr a.toNat &&& v x)) ∧
    WalkGoesOn (.wor false d a y) (fun _ x => x.setQ d.toNat (x.qr a.toNat ||| v x)) ∧
    WalkGoesOn (.wxor false d a y) (fun _ x => x.setQ d.toNat (x.qr a.toNat ^^^ v x)) ∧
    WalkGoesOn (.wshl false d a y) (fun _ x => x.setQ d.toNat (if 32 ≤ (v x).toNat then 0 else x.qr a.toNat <<< (v x).toNat)) ∧
    WalkGoesOn (.wshr false d a y) (fun _ x => x.setQ d.toNat (if 32 ≤ (v x).toNat then 0 else x.qr a.toNat >>> (v x).toNat))) ∧
  (∀ (d a : BitVec 4) (y : QSrc), let v := fun (x : Walk) => match y with | .reg b => x.dq b.toNat | .imm i => i.signExtend 64
    WalkGoesOn (.wadd true d a y) (fun _ x => x.setDq d.toNat (x.dq a.toNat + v x)) ∧
    WalkGoesOn (.wsub true d a y) (fun _ x => x.setDq d.toNat (x.dq a.toNat - v x)) ∧
    WalkGoesOn (.wand true d a y) (fun _ x => x.setDq d.toNat (x.dq a.toNat &&& v x)) ∧
    WalkGoesOn (.wor true d a y) (fun _ x => x.setDq d.toNat (x.dq a.toNat ||| v x)) ∧
    WalkGoesOn (.wxor true d a y) (fun _ x => x.setDq d.toNat (x.dq a.toNat ^^^ v x)) ∧
    WalkGoesOn (.wshl true d a y) (fun _ x =>
      x.setDq d.toNat (if 64 ≤ (loWord (v x)).toNat then 0 else x.dq a.toNat <<< (loWord (v x)).toNat)) ∧
    WalkGoesOn (.wshr true d a y) (fun _ x =>
      x.setDq d.toNat (if 64 ≤ (loWord (v x)).toNat then 0 else x.dq a.toNat >>> (loWord (v x)).toNat))) ∧
  (∀ (d a : BitVec 4) (y : QSrc), ∀ i ∈ [Instr.wadd true d a y, .wsub true d a y, .wand true d a y, .wor true d a y,
      .wxor true d a y, .wshl true d a y, .wshr true d a y], wellFormed i = true →
    d.toNat % 2 = 0 ∧ a.toNat % 2 = 0 ∧ ∀ b, y = .reg b → b.toNat % 2 = 0) ∧
  (∀ (x : Walk) (n m : Nat) (v : Word), n < 16 → m < 16 → x.q.length = 16 → (x.setQ n v).qr m = if m = n then v else x.qr m) ∧
  (∀ (x : Walk) (n m : Nat) (v : DWord), n % 2 = 0 → n < 16 → m < 16 → x.q.length = 16 →
    (x.setDq n v).qr m = if m = n then loWord v else if m = n + 1 then hiWord v else x.qr m)

/-- R195, R196, R211: `NCNT` gives the count of a node register, `NCNT.M` the mask of its valid slots; `NPTR` gives the pointer of a
slot, `NPTR.M` that of the first slot in the order register whose mask bit is set, clearing the bit and setting `CF`; with a mask of
0 the destination keeps its value and `CF` clears. `PUSH` puts its words on the stack, those that find no room on chip when room is
made; `POP` takes the top words and sets `CF`, or waits for words of the spill area; on a stack of fewer words it pops nothing, keeps
the registers and clears `CF`; `SCLR` makes the depth 0. -/
def Obligations.WalkNodesAndStack : Prop :=
  (∀ (a : BitVec 4) (s : State) (c k : Nat) (x : Walk), s.walkNow = some (c, k, x) → x.depth + 1 ≤ 64 →
    (x.chip.length < 8 → exec (.push false a) s =
      .next ((s.setWalk c k { x with chip := x.qr a.toNat :: x.chip, wait := .ready }).walkNext c k)) ∧
    (8 ≤ x.chip.length → exec (.push false a) s = .next (s.setWalk c k { x with wait := .spill [x.qr a.toNat] }))) ∧
  (∀ (a : BitVec 4) (s : State) (c k : Nat) (x : Walk), s.walkNow = some (c, k, x) → x.depth + 2 ≤ 64 →
    (x.chip.length < 7 → exec (.push true a) s = .next ((s.setWalk c k
      { x with chip := x.qr (a.toNat + 1) :: x.qr a.toNat :: x.chip, wait := .ready }).walkNext c k)) ∧
    (x.chip.length = 7 → exec (.push true a) s = .next (s.setWalk c k
      { x with chip := x.qr a.toNat :: x.chip, wait := .spill [x.qr (a.toNat + 1)] })) ∧
    (8 ≤ x.chip.length → exec (.push true a) s =
      .next (s.setWalk c k { x with wait := .spill [x.qr a.toNat, x.qr (a.toNat + 1)] }))) ∧
  (∀ (d : BitVec 4) (s : State) (c k : Nat) (x : Walk), s.walkNow = some (c, k, x) →
    (∀ v r, x.chip = v :: r →
      exec (.pop false d) s = .next ((s.setWalk c k { x.setQ d.toNat v with chip := r, cf := true }).walkNext c k)) ∧
    (∀ v u r, x.chip = v :: u :: r → exec (.pop true d) s =
      .next ((s.setWalk c k { (x.setQ (d.toNat + 1) v).setQ d.toNat u with chip := r, cf := true }).walkNext c k)) ∧
    (x.chip = [] → x.spilled ≠ 0 → exec (.pop false d) s = .next (s.setWalk c k { x with wait := .fill })) ∧
    (x.chip.length < 2 → 2 ≤ x.depth → exec (.pop true d) s = .next (s.setWalk c k { x with wait := .fill })) ∧
    (x.depth = 0 → exec (.pop false d) s = .next ((s.setWalk c k { x with cf := false }).walkNext c k)) ∧
    (x.depth < 2 → exec (.pop true d) s = .next ((s.setWalk c k { x with cf := false }).walkNext c k))) ∧
  WalkGoesOn .sclr (fun _ x => { x with chip := [], spilled := 0 }) ∧
  (∀ (x : Walk), ({ x with chip := [], spilled := 0 } : Walk).depth = 0) ∧
  (∀ d a, WalkGoesOn (.ncnt false d a) (fun _ x => x.setQ d.toNat (BitVec.ofNat 32 (x.node a.toNat).count))) ∧
  (∀ d a, WalkGoesOn (.ncnt true d a) (fun _ x => x.setM d.toNat (validMask (x.node a.toNat)))) ∧
  (∀ (n : NodeReg) (k : Nat), k < 16 → (validMask n).getLsbD k = decide (k < n.count)) ∧
  (∀ d a k b, WalkGoesOn (.nptr false d a k b) (fun _ x => x.setDq d.toNat (nth (x.node a.toNat).ptr k.toNat 0))) ∧
  (∀ d a slot b (s : State) (c w : Nat) (x : Walk), s.walkNow = some (c, w, x) →
    (∀ pre k post, x.order = pre ++ k :: post → (∀ j ∈ pre, (x.mr b.toNat).getLsbD j = false) → k < 16 →
      (x.mr b.toNat).getLsbD k = true →
      exec (.nptr true d a slot b) s = .next ((s.setWalk c w { (x.setDq d.toNat (nth (x.node a.toNat).ptr k 0)).setM b.toNat
        (x.mr b.toNat &&& ~~~(1#16 <<< k)) with cf := true }).walkNext c w)) ∧
    (x.mr b.toNat = 0 → exec (.nptr true d a slot b) s = .next ((s.setWalk c w { x with cf := false }).walkNext c w)))

/-- R194, R197-R206, R210, R216-R218: the words of a walk that read a node register, test, compare, convert and move complete with
their function of the walk. That `BOX8` and `OVL8` take the valid slots from the count of `n0`, that a triangle of `TRI` is valid when
all three of its slots are below the count (log entry 90), and the sign of a zero *t*, *u* or *v* (log entry 95), are the model's
readings. -/
def Obligations.WalkComputingCompletes : Prop :=
  (∀ d a sel idx slot b, WalkGoesOn (.nget d a sel idx slot b) (fun _ x => x.setQ d.toNat (ngetValue x (x.node a.toNat) sel.toNat
    (if idx then (x.qr b.toNat).toNat % 16 else slot.toNat)))) ∧
  (∀ hi d b, WalkGoesOn (.box8 hi d b) (fun _ x =>
    x.tested d.toNat (if hi then 8 else 0) 8 x.n0.count (fun k =>
      boxSlot (fun i => nth (nth [x.n0.f0, x.n0.f1, x.n0.f2] i []) k 0) (fun i => nth (nth [x.n1.f0, x.n1.f1, x.n1.f2] i []) k 0)
        (fun i => x.qr (b.toNat + i))))) ∧
  (∀ hi inn d b, WalkGoesOn (.ovl8 hi inn d b) (fun _ x =>
    x.tested d.toNat (if hi then 8 else 0) 8 x.n0.count (fun k =>
      ovlSlot inn (fun i => nth (nth [x.n0.f0, x.n0.f1, x.n0.f2] i []) k 0)
        (fun i => nth (nth [x.n1.f0, x.n1.f1, x.n1.f2] i []) k 0) (fun i => x.qr (b.toNat + i))))) ∧
  (∀ cb cf d a b c', ∃ hit : Walk → Nat → Option TriHit,
    (∀ x t, t < 4 → hit x t = let n := x.node a.toNat
      let v := fun (p i : Nat) => nth (nth [n.f0, n.f1, n.f2] i []) (3 * t + p) 0
      if 3 * t + 2 < n.count then triSlot cb cf (v 0) (v 1) (v 2) (fun i => x.qr (b.toNat + i)) else none) ∧
    ∃ f, WalkGoesOn (.tri cb cf d a b c') f ∧
      (∀ k x, (∀ t, t < 4 → hit x t = none) → f k x = x.tested d.toNat 0 4 4 (fun _ => none)) ∧
      (∀ k x t h, t < 4 → hit x t = some h → (∀ u, u < 4 → u ≠ t → hit x u = none) → f k x =
        ((((x.tested d.toNat 0 4 4 (fun u => if u = t then some (roundRatio h.t h.det) else none)).setQ c'.toNat
          (roundRatio h.t h.det)).setQ (c'.toNat + 1) (roundRatio h.v h.det)).setQ (c'.toNat + 2) (roundRatio h.w h.det)).setQ
            (c'.toNat + 3) (BitVec.ofNat 32 t))) ∧
  (∀ ray d a b, WalkGoesOn (.sphr ray d a b) (fun _ x => let n := x.node a.toNat
    x.tested d.toNat 0 16 n.count (fun k =>
      sphSlot ray (fun i => nth (nth [n.f0, n.f1, n.f2] i []) k 0) (nth n.f3 k 0) (fun i => x.qr (b.toNat + i))))) ∧
  (∀ c sg d a b, WalkGoesOn (.kcmp c sg false d a b) (fun _ x => x.setM d.toNat (mask16 (fun k =>
    decide (k < (x.node a.toNat).count) && intCmp c (keyInt sg (nth (x.node a.toNat).f0 k 0)) (keyInt sg (x.qr b.toNat)))))) ∧
  (∀ c sg d a b, ∃ f, WalkGoesOn (.kcmp c sg true d a b) f ∧ ∀ w x,
    let ok := fun (k : Nat) =>
      k < (x.node a.toNat).count ∧ intCmp c (keyInt sg (nth (x.node a.toNat).f0 k 0)) (keyInt sg (x.qr b.toNat)) = true
    (∀ k, k < 16 → ok k → (∀ j, j < k → ¬ ok j) → f w x = x.setQ d.toNat (BitVec.ofNat 32 k)) ∧
    ((∀ k, k < 16 → ¬ ok k) → f w x = x.setQ d.toNat (BitVec.ofInt 32 (((x.node a.toNat).count : Int) - 1)))) ∧
  (∀ sg d a b, WalkGoesOn (.krng false sg d a b) (fun _ x => let n := x.node a.toNat
    let lo := keyInt sg (x.qr b.toNat)
    let hi := keyInt sg (x.qr (b.toNat + 1))
    x.setM d.toNat (mask16 (fun k => decide (k < n.count) && decide (lo ≤ keyInt sg (nth n.f0 k 0)) &&
      decide (keyInt sg (nth n.f0 k 0) ≤ hi))))) ∧
  (∀ sg d a b, WalkGoesOn (.krng true sg d a b) (fun _ x => let n := x.node a.toNat
    let lo := keyInt sg (x.qr b.toNat)
    let hi := keyInt sg (x.qr (b.toNat + 1))
    let f := fun (k : Nat) => keyInt sg (nth n.f0 k 0)
    x.setM d.toNat (if hi < lo then 0 else mask16 (fun k => decide (k < n.count) &&
      ((k == 0 || decide (f (k - 1) ≤ hi)) && (k + 1 == n.count || decide (lo < f k))))))) ∧
  (∀ ty dot z a b, WalkGoesOn (.dist ty dot z a b) (fun _ x => { x with d0 := (lacAdd (if z then {} else x.d0)
    (distSum ty.toNat dot (fun i => x.qr (a.toNat + i)) (fun i => x.qr (b.toNat + i)))).1 })) ∧
  (∀ int m z d, WalkGoesOn (.dfin int m z d) (fun _ x =>
    { x.setQ d.toNat (BitVec.ofNat 32 (if int then (lacReadInt (walkMode m) x.d0).1 else (lacRead .f32 (walkMode m) x.d0).1)) with
      d0 := if z then {} else x.d0 })) ∧
  (∀ d a b slot, ∃ f, WalkGoesOn (.kds d a b slot) f ∧ ∀ k x,
    let n := x.node a.toNat
    let p := nth n.f0 slot.toNat 0
    let q := x.qr (b.toNat + (nth n.f1 slot.toNat 0).toNat % 16)
    (fNan p = true ∨ fNan q = true → f k x = (x.setQ d.toNat 1).setQ (d.toNat + 1) 0) ∧
    (fFin p = true → fFin q = true → f k x = (x.setQ d.toNat (if ltNum (fv q) (fv p) then 0 else 1)).setQ (d.toNat + 1)
      (BitVec.ofNat 32 (roundTo .f32 .rd (mulNum (addNum .rd (fv q) (fv p).negate).1 (addNum .rd (fv q) (fv p).negate).1).1).1))) ∧
  (∀ desc a, WalkGoesOn (.sortm desc a) (fun _ x => { x with order := sortedSlots desc (x.mr a.toNat) x.kappa })) ∧
  (∀ mx d a b, WalkGoesOn (.minmax .si32 mx d a b) (fun _ x => x.setQ d.toNat
    (if (x.qr a.toNat).sle (x.qr b.toNat) = mx then x.qr b.toNat else x.qr a.toNat))) ∧
  (∀ mx d a b, WalkGoesOn (.minmax .ui32 mx d a b) (fun _ x => x.setQ d.toNat
    (if (x.qr a.toNat).ule (x.qr b.toNat) = mx then x.qr b.toNat else x.qr a.toNat))) ∧
  (∀ mx d a b, WalkGoesOn (.minmax .f32 mx d a b) (fun _ x => x.setQ d.toNat
    (BitVec.ofNat 32 (fpMinMax .f32 mx (x.qr a.toNat).toNat (x.qr b.toNat).toNat).1))) ∧
  (∀ m neg d a b, WalkGoesOn (.fmad m neg d a b) (fun _ x => x.setQ d.toNat (BitVec.ofNat 32 (fpMac .f32 (walkMode m)
    (if neg then (fv (x.qr a.toNat)).negate else fv (x.qr a.toNat)) (fv (x.qr b.toNat)) (fv (x.qr d.toNat))).1))) ∧
  (∀ c a y, let v := fun (x : Walk) => match y with | .reg b => x.qr b.toNat | .imm i => i.signExtend 32
    WalkGoesOn (.cmps c .si32 a y) (fun _ x => { x with cf := intCmp c (x.qr a.toNat).toInt (v x).toInt }) ∧
    WalkGoesOn (.cmps c .ui32 a y) (fun _ x => { x with cf := intCmp c (x.qr a.toNat).toNat (v x).toNat }) ∧
    WalkGoesOn (.cmps c .f32 a y) (fun _ x => { x with cf := (fpCmp c (fv (x.qr a.toNat)) (fv (v x))).1 })) ∧
  (∀ d a, WalkGoesOn (.movq d a) (fun _ x => x.setQ d.toNat (x.qr a.toNat))) ∧
  (∀ d i, WalkGoesOn (.movqImm d i) (fun _ x => x.setQ d.toNat (i.signExtend 32))) ∧
  (∀ d i, WalkGoesOn (.movqShi d i) (fun _ x => x.setQ d.toNat ((x.qr d.toNat <<< 12) ||| i.zeroExtend 32))) ∧
  (∀ d src, WalkGoesOn (.movqSpc d src) (fun k x => x.setQ d.toNat (match src.toNat with
    | 0 => x.tag
    | 1 => BitVec.ofNat 32 k
    | 2 => x.emitted
    | 3 => BitVec.ofNat 32 x.depth
    | 4 => BitVec.ofNat 32 (x.topk.elim 0 (fun t => t.entries.length))
    | 5 => BitVec.ofNat 32 x.originCore
    | _ => if x.remote.isSome then 1 else 0)))

/-- R193, R207-R209, R212, R213, R219, R220, R65: `NFETCH` and `LDQ` of a sound address wait for their read, which the arrival puts
in the registers; `PUSHM` pushes the pointers of its slots; `EMIT` and `DONE` write an entry at the queue's tail when it has room;
`TOPK` inserts and gives the bound, `EMITK` writes the list; `HOFF` sends the walk; branches; and a word that is no instruction
ends the walk. -/
def Obligations.WalkFlowCompletes : Prop :=
  (∀ d a f (s : State) (c k : Nat) (x : Walk), s.walkNow = some (c, k, x) → (x.dq a.toNat).getLsbD 63 = false →
    (x.dq a.toNat).toNat % 16 = 0 →
    (f.toNat < 16 → exec (.nfetch d a f) s = .next (s.setWalk c k { x with wait := .node d.toNat (x.dq a.toNat) f.toNat [] })) ∧
    (∀ t ws, 16 ≤ f.toNat → s.readDesc c x (f.toNat - 16) = (t, .ok ws) →
      (d = 1 → (DHead.of (nth ws 0 0) (nth ws 1 0)).dbl = false) →
      exec (.nfetch d a f) s = .next (t.setWalk c k { x with wait := .node d.toNat (x.dq a.toNat) f.toNat ws }))) ∧
  (∀ d a off n (s : State) (c k : Nat) (x : Walk), s.walkNow = some (c, k, x) →
    let p := x.dq a.toNat + BitVec.ofNat 64 (4 * off.toNat)
    p.getLsbD 63 = false → p.toNat % 4 = 0 →
    exec (.ldq d a off n) s = .next (s.setWalk c k { x with wait := .ldq d.toNat p (2 ^ n.toNat) })) ∧
  (∀ kk a b (s : State) (c k : Nat) (x : Walk), s.walkNow = some (c, k, x) → exec (.pushm kk a b) s = .next (s.walkPush c k
    ((x.order.reverse.filter (fun p => (x.mr b.toNat).getLsbD p && decide (p < (x.node a.toNat).count))).flatMap (fun p =>
      let v := nth (x.node a.toNat).ptr p 0
      if kk then [loWord v, hiWord v, nth x.kappa p 0] else [loWord v, hiWord v])))) ∧
  (∀ a b e (s : State) (c k : Nat) (x : Walk), s.walkNow = some (c, k, x) → x.remote = none →
    let bs := fun (st : Nat) => cqEntry x.tag st x.emitted.toNat e.toNat (x.qr a.toNat) (x.qr b.toNat)
    (∀ t, s.cqWrite x.team c x.cq (bs 0) = some t → t.walk? c k = some x → exec (.emit a b e) s =
      .next ((t.setWalk c k { x with emitted := x.emitted + 1, wait := .ready }).walkNext c k)) ∧
    (∀ t, s.cqWrite x.team c x.cq (bs 1) = some t → exec (.done a b e) s = .next (t.freeWalk c k))) ∧
  (∀ a b e (s : State) (c k oc os r : Nat) (x : Walk), s.walkNow = some (c, k, x) → x.remote = some (oc, os, r) →
    exec (.done a b e) s = .next ({ s with outbox := s.outbox ++
      [OutMsg.ret oc os x.hid { q := x.q, m := x.m, emitted := x.emitted, topk := x.topk }] }.freeWalk c k)) ∧
  (∀ ty desc d a b n (s : State) (c k : Nat) (x : Walk), s.walkNow = some (c, k, x) →
    let t := x.topk.getD { cap := n.toNat, ty := ty, desc := desc, entries := [] }
    let u := topkInsert t (x.qr a.toNat) (x.qr b.toNat)
    (t.cap = n.toNat ∧ t.ty = ty ∧ t.desc = desc →
      (u.entries.length < n.toNat → exec (.topk ty desc d a b n) s =
        .next ((s.setWalk c k ({ x with topk := some u }.setQ d.toNat (topkBound ty desc))).walkNext c k)) ∧
      (∀ l e, u.entries = l ++ [e] → l.length + 1 = n.toNat → exec (.topk ty desc d a b n) s =
        .next ((s.setWalk c k ({ x with topk := some u }.setQ d.toNat e.1)).walkNext c k)))) ∧
  (∀ e (s : State) (c k : Nat) (x : Walk), s.walkNow = some (c, k, x) →
    let es := x.topk.elim [] (·.entries)
    (x.remote = none → es.length ≤ (s.team x.team).cqd) → exec (.emitk e) s = .next (s.walkEmitAll c k es e.toNat)) ∧
  (∀ a e (s : State) (c k p : Nat) (x : Walk), s.walkNow = some (c, k, x) → x.remote = none → (x.dq a.toNat).getLsbD 63 = true →
    (∀ t, x.topk = some t → t.cap ≤ 20) → s.paired = true → (FMap.getD s.ctxs x.ctx {}).pair = some p →
    exec (.hoff a e) s = .next ((s.setWalk c k { x with
      wait := .handoff (x.dq a.toNat &&& 0x7FFFFFFFFFFFFFFF) e.toNat true }).sendHandoff c k)) ∧
  (∀ off (s : State) (c k : Nat) (x : Walk), s.walkNow = some (c, k, x) →
    let t := (x.pc : Int) + off.toInt
    0 ≤ t → t < x.plen → exec (.br off) s = .next (s.setWalk c k { x with pc := t.toNat })) ∧
  (∀ cd off (s : State) (c k : Nat) (x : Walk), s.walkNow = some (c, k, x) →
    let t := (x.pc : Int) + off.toInt
    (wcondHolds x cd = true → 0 ≤ t → t < x.plen → exec (.brc cd off) s = .next (s.setWalk c k { x with pc := t.toNat })) ∧
    (wcondHolds x cd = false → exec (.brc cd off) s = .next (s.walkNext c k))) ∧
  (∀ (s : State) (c k : Nat) (x : Walk), s.walkNow = some (c, k, x) → exec .yldw s =
    .next ((s.modCore c (fun q => { q with sp := { q.sp with last := k } })).walkNext c k)) ∧
  (∀ w (s : State) (c k : Nat) (x : Walk), s.walkNow = some (c, k, x) →
    exec (.walkNonInstructionWord w) s = .next (s.walkIllegal c k 0))

/-! ### Jig words -/

/-- R320-R323: the Jig's words complete: loads put their bytes in a register, the element words their result, the scalar words
wrap, shift and test, `JPUT` enters its queue while that has room, `JWAIT` goes on when it has, `JEND` makes the Jig idle, `JFLAG`
fills a free mailbox of the starter, and a word that is no instruction stops the Jig with JIG_ILLEGAL at its byte address. -/
def Obligations.JigWordsComplete : Prop :=
  (∀ g d a off (s t : State) (c : Nat) (j : Jig) (bs : List Byte), s.jigNow = some (c, j) →
    s.jigLoad c j g a.toNat off.toNat 128 16 = (t, .ok bs) →
    exec (.jlds g d a off) s = .next (t.setJig c (j.setW d.toNat (leWord bs)).next)) ∧
  (∀ g d a off (s t : State) (c : Nat) (j : Jig) (bs : List Byte), s.jigNow = some (c, j) →
    s.jigLoad c j g a.toNat off.toNat 4 4 = (t, .ok bs) →
    exec (.jrld g d a off) s = .next (t.setJig c (j.setG d.toNat (BitVec.ofNat 32 (leWord bs))).next)) ∧
  (∀ sg d a src dst part, ∃ f : Jig → Nat, JigGoesOn (.junpk sg d a src dst part) (fun (j : Jig) => j.setW d.toNat (f j)) ∧
    ∀ (j : Jig) i, i < 1024 / jigWidth dst → elemNat (f j) i (jigWidth dst) = truncInt (intOf
      (elemNat (j.wr a.toNat) (part.toNat * (1024 / jigWidth dst) + i) (jigWidth src)) (jigWidth src) sg) (jigWidth dst)) ∧
  (∀ sg sat d a src dst part, ∃ f : Jig → Nat, JigGoesOn (.jpack sg sat d a src dst part) (fun (j : Jig) => j.setW d.toNat (f j)) ∧
    ∀ (j : Jig) i, i < 1024 / jigWidth dst → elemNat (f j) i (jigWidth dst) =
      (let n := 1024 / jigWidth src
       let x := intOf (elemNat (j.wr a.toNat) (i - part.toNat * n) (jigWidth src)) (jigWidth src) sg
       if part.toNat * n ≤ i ∧ i < part.toNat * n + n then
         truncInt (if sat then satInt x (jigWidth dst) sg else x) (jigWidth dst)
       else elemNat (j.wr d.toNat) i (jigWidth dst))) ∧
  (∀ d a b w, ∃ f : Jig → Nat × Nat, JigGoesOn (.jdelta d a b w)
      (fun (j : Jig) => (j.setW d.toNat (f j).1).setG b.toNat (BitVec.ofNat 32 (f j).2)) ∧
    ∀ (j : Jig), let sum := fun (n : Nat) => ((List.range n).foldl (fun t i => t + elemNat (j.wr a.toNat) i (jigWidth w))
        (j.gr b.toNat).toNat) % 2 ^ jigWidth w
      (∀ i, i < 1024 / jigWidth w → elemNat (f j).1 i (jigWidth w) = sum (i + 1)) ∧ (f j).2 = sum (1024 / jigWidth w)) ∧
  (∀ d a part sat mode dst src, JigGoesOn (.jcvt d a part sat mode dst src) (fun (j : Jig) => j.setW d.toNat
    (jcvtVec src.toNat dst.toNat (rmOfMode mode.toNat) sat part.toNat (j.wr a.toNat) (j.wr d.toNat)))) ∧
  (∀ d a b, ∃ f : Jig → Nat, JigGoesOn (.jperm d a b) (fun (j : Jig) => j.setW d.toNat (f j)) ∧ ∀ (j : Jig) i, i < 128 →
    elemNat (f j) i 8 = if 128 ≤ elemNat (j.wr b.toNat) i 8 then 0
      else elemNat (j.wr a.toNat) (elemNat (j.wr b.toNat) i 8) 8) ∧
  (∀ q a (s : State) (c : Nat) (j : Jig), s.jigNow = some (c, j) →
    ((nth j.q q.toNat []).length < 32 → exec (.jput q a) s =
      .next (s.setJig c { j with q := setNth j.q q.toNat (nth j.q q.toNat [] ++ [nth j.w a.toNat 0]) }.next)) ∧
    (32 ≤ (nth j.q q.toNat []).length → exec (.jput q a) s = .next s)) ∧
  (∀ d a y, let v := fun (j : Jig) => match y with | .reg b => j.gr b.toNat | .imm i => i.signExtend 32
    JigGoesOn (.jgadd d a y) (fun (j : Jig) => j.setG d.toNat (j.gr a.toNat + v j)) ∧
    JigGoesOn (.jgand d a y) (fun (j : Jig) => j.setG d.toNat (j.gr a.toNat &&& v j)) ∧
    JigGoesOn (.jgshr d a y) (fun (j : Jig) => j.setG d.toNat
      (if (v j).msb then j.gr a.toNat <<< (-(v j)).toNat else j.gr a.toNat >>> (v j).toNat))) ∧
  (∀ cond a target (s : State) (c : Nat) (j : Jig), s.jigNow = some (c, j) → target.toNat < j.len →
    exec (.jbr cond a target) s =
      .next (s.setJig c (if jigCond cond.toNat (j.gr a.toNat) then { j with pc := target.toNat } else j.next))) ∧
  (∀ a target (s : State) (c : Nat) (j : Jig), s.jigNow = some (c, j) → target.toNat < j.len →
    let y := j.setG a.toNat (j.gr a.toNat - 1)
    exec (.jloop a target) s = .next (s.setJig c (if j.gr a.toNat = 1 then y.next else { y with pc := target.toNat }))) ∧
  (∀ q k (s : State) (c : Nat) (j : Jig), s.jigNow = some (c, j) →
    ((nth j.q q.toNat []).length + k.toNat ≤ 32 → exec (.jwait q k) s = .next (s.setJig c j.next)) ∧
    (32 < (nth j.q q.toNat []).length + k.toNat → exec (.jwait q k) s = .next s)) ∧
  (∀ (s : State) (c : Nat) (j : Jig), s.jigNow = some (c, j) → exec .jend s = .next (s.setJig c { j with running := false })) ∧
  (∀ k y (s : State) (c w : Nat) (j : Jig), s.jigNow = some (c, j) → j.starter = some w →
    (s.wave? c w).any (fun x => !x.isOver) = true →
    let v : Word := match y with | .reg a => j.gr a.toNat | .imm i => i.zeroExtend 32
    ((nth (s.wave c w).mbox k.toNat {}).full = false → exec (.jflag k y) s =
      .next (((s.modWave c w (fun x => x.setBox k.toNat v)).setJig c j.next).settleBoxes c w)) ∧
    ((nth (s.wave c w).mbox k.toNat {}).full = true → exec (.jflag k y) s = .next s)) ∧
  (∀ w (s : State) (c : Nat) (j : Jig), s.jigNow = some (c, j) →
    exec (.jigNonInstructionWord w) s = .next (s.jigStop c .jigIllegal (BitVec.ofNat 64 (4 * (s.jig c).pc))))

/-! ### Events of the copy unit, the Jig's queues, the Spindle and the pairing link -/

/-- R308-R312, R319, R382, R414, R438, R451: a free copy slot goes to the copy instruction that has waited longest, and to a restored
job before any such instruction, an order that the model chooses (log entry 40); the copy unit serves a unit of the next ready job in
turn, moving its pieces; a landed unit is counted, each counted unit takes its bytes off the barrier, and the last one makes the record
DONE, while a barrier that cannot be read suspends the job; a job with a fault and no unit in flight is suspended; the oldest claim of
a Jig queue takes its oldest entry. -/
def Obligations.CopyEventsComplete : Prop :=
  (∀ (s : State) (c i n : Nat) (j : CopyJob), (s.core c).freeJob = some i →
    (s.core c).copies.find? (fun e => decide (16 ≤ e.1)) = some (n, j) →
    exec (.copySlotGrant c) s = .next (s.modCore c (fun k => { k with
      copies := FMap.set (FMap.erase k.copies n) i j, copyTurn := k.copyTurn ++ [i] }))) ∧
  (∀ (s : State) (c i w : Nat) (v : Wait) (left : List CopyReq) (made : List Nat) (fs : List (Nat × Nat × Cause × DWord)),
    (s.core c).freeJob = some i → (s.core c).copies.all (fun e => decide (e.1 < 16)) = true →
    s.copyWaiter c = some (w, v) → v.kind = .copy left made fs →
    let x := v.iss s c w
    let r := s.copyReqs c x.src.team x.ctx made fs left
    (r.2.1 = [] → exec (.copySlotGrant c) s =
      .next (State.endWaitWith c w v { s := r.1, after := copyTrap x r.2.2.2 })) ∧
    (r.2.1 ≠ [] → exec (.copySlotGrant c) s = .next (r.1.modWave c w (fun y => { y with waits := y.waits.map (fun u =>
      if u = v then { u with kind := .copy r.2.1 r.2.2.1 r.2.2.2 } else u) })))) ∧
  (∀ (s : State) (c i : Nat) (pre post : List Nat) (j : CopyJob), (s.core c).copyTurn = pre ++ i :: post →
    (∀ k ∈ pre, ∀ y, FMap.get (s.core c).copies k = some y → y.failing ≠ none ∨ y.units_ ≤ y.next ∨
      s.jobsStop y.team = true) →
    FMap.get (s.core c).copies i = some j → j.failing = none → j.next < j.units_ →
    s.jobsStop j.team = false →
    exec (.copyUnitServe c) s =
      .next ((s.modCore c (fun k => { k with copyTurn := k.copyTurn.filter (· != i) ++ [i] })).serveUnit c i j)) ∧
  (∀ (s t : State) (c i : Nat) (j : CopyJob), j.rows = false →
    s.movePieces c j j.next (j.maddr + BitVec.ofNat 64 (256 * j.next)) (j.unitBytes j.next / 16) 0 = (t, .ok) →
    s.serveUnit c i j =
      t.setJob c i { j with next := j.next + 1, units := j.units ++ [{ u := j.next, bytes := j.unitBytes j.next }] }) ∧
  (∀ (s : State) (c i u : Nat) (j : CopyJob), FMap.get (s.core c).copies i = some j →
    let landed := j.units.map (fun x => if x.u = u then { x with landed := true } else x)
    let r := countUnits j.rows landed j.cursor
    let j1 := { j with units := r.1, cursor := r.2.1 }
    let k := s.benchAt j.team c (16 * j.bbar)
    let s1 := (s.setJob c i j1).countDown k r.2.2
    (r.2.2 = [] ∨ s.barrierOk k = true → exec (.copyUnitLanded c i u) s =
      .next (if r.1 = [] ∧ j.failing = none ∧ j.next = j.units_ then s1.jobDone c i j1 else s1)) ∧
    (r.2.2 ≠ [] → s.barrierOk k = false → exec (.copyUnitLanded c i u) s = .next (s.setJob c i { j with
      units := if landed.all (·.landed) then [] else landed
      failing := some (j.failing.getD (.uncorrectable, BitVec.ofNat 64 (16 * j.bbar))) }))) ∧
  (∀ (rows : Bool) (a : CopyUnit) (r : List CopyUnit) (cur : Nat),
    (a.landed = false → countUnits rows (a :: r) cur = (a :: r, cur, [])) ∧
    (a.landed = true → ∀ us n bs, countUnits rows r (cur + if rows then 1 else a.bytes) = (us, n, bs) →
      countUnits rows (a :: r) cur = (us, n, a.bytes :: bs))) ∧
  (∀ (s : State) (c i : Nat) (j : CopyJob) (e : Cause) (va : DWord), FMap.get (s.core c).copies i = some j →
    j.failing = some (e, va) → j.units = [] → (s.team j.team).saved = none →
    exec (.copyJobSuspend c i) s = .next (s.suspendJob c i j e va)) ∧
  (∀ (s : State) (c q id : Nat) (pre post : List (Nat × Nat)) (v : BitVec 1024) (r : List (BitVec 1024)) (o : Op),
    (s.jig c).claims = pre ++ (q, id) :: post → (∀ e ∈ pre, e.1 ≠ q) → nth (s.jig c).q q [] = v :: r →
    let s1 := s.modJig c (fun j => { j with claims := j.claims.filter (fun y => y.2 != id), q := setNth j.q q r })
    (s1.core c).ops.find? (fun y => y.id == id) = some o →
    exec (.jpopDelivery c q) s = .next (s1.fillOp c o [vbuild (fun l => v.extractLsb' (32 * l) 32)]))

/-- R172, R173, R193, R213, R219, R357, R362, R364-R368, R422, R453, R472, R474: the events of the Spindle. A free walk slot goes to the
first hand-off arrival, else to the first waiting lane; on a parked core the arrival goes on to the next core in service. A node or words
arrive in their registers; of a node a part may come first, as free values choose (log entry 74). The lowest word on chip spills to its
place in memory, and the word spilled last fills again; where another agent has written over its place, whether it is the word pushed
or the word there is a free value (log entry 8). A cancel message stops every partner walk of its hand-off, and every queued message of
it, with WALK_CANCELLED; a kill message stops them silently; every other walk and message stands. Then the other messages of the
pairing link. -/
def Obligations.SpindleEventsComplete : Prop :=
  (∀ (s : State) (c k : Nat) (m : HoffMsg) (r : List HoffMsg), (s.core c).service.closed = false → s.freeWalkSlot c = some k →
    (s.core c).sp.arrivals = m :: r → exec (.walkSlotGrant c) s = .next (s.grantArrival c k m)) ∧
  (∀ (s : State) (c d : Nat) (m : HoffMsg) (r : List HoffMsg), (s.core c).service.closed = true → (s.core c).sp.arrivals = m :: r →
    s.handoffCore c = some d → (s.core d).sp.arrivals.length < 16 →
    exec (.walkSlotGrant c) s = .next ((s.modCore c (fun k => { k with sp := { k.sp with arrivals := r } })).modCore d (fun k =>
      { k with sp := { k.sp with arrivals := k.sp.arrivals ++ [{ m with charged := some (m.charged.getD c) }] } }))) ∧
  (∀ (s t : State) (c k w : Nat) (q : TravReq) (left : List TravReq) (fs : List (Nat × Nat × Cause × DWord)) (v : Wait)
      (r : List (Nat × Nat)), (s.core c).service.closed = false → s.freeWalkSlot c = some k → (s.core c).sp.arrivals = [] → (s.core c).sp.want = (w, q.lane) :: r →
    (s.wave c w).waits = [v] → v.kind = .trav (q :: left) fs → (∀ p ∈ left, p.lane ≠ q.lane) →
    (s.modCore c (fun y => { y with sp := { y.sp with want := r } })).travStart c w q = some t →
    exec (.walkSlotGrant c) s =
      .next ((t.setWait c w v (.trav left fs)).travEnd c w { v with kind := .trav left fs })) ∧
  (∀ (s t : State) (c k d f : Nat) (a : DWord) (ws : List DWord) (x : Walk) (bs : List Byte), s.walk? c k = some x →
    x.wait = .node d a f ws → s.nodeRead c x.ctx a (nodeSize f ws) 10 x.got x.half = (t, .ok bs, [], []) →
    let x := { x with got := [], half := [] }
    let r := decodeNode f ws bs a
    let y := match r.2 with
      | some n => { x with n0 := r.1, n1 := n }
      | none => if d = 0 then { x with n0 := r.1 } else { x with n1 := r.1 }
    exec (.nodeArrival c k) s =
      .next ((t.setWalk c k { y with kappa := List.replicate 16 fpInf, order := List.range 16 }).walkNext c k)) ∧
  (∀ (s t : State) (c k d f : Nat) (a : DWord) (ws : List DWord) (x : Walk) (got half : List Byte), s.walk? c k = some x →
    x.wait = .node d a f ws → s.nodeRead c x.ctx a (nodeSize f ws) 10 x.got x.half = (t, .wait, got, half) →
    exec (.nodeArrival c k) s = .next (t.setWalk c k { x with got := got, half := half })) ∧
  (∀ (s t : State) (c k d : Nat) (a : DWord) (x : Walk) (bs : List Byte), s.walk? c k = some x →
    x.wait = .ldq d a 1 → s.walkRead .node c x.ctx 3 a 4 = (t, .ok bs) →
    exec (.nodeArrival c k) s = .next ((t.setWalk c k (x.setQ d (BitVec.ofNat 32 (leWord (bs.take 4))))).walkNext c k)) ∧
  (∀ (s t : State) (c k : Nat) (x : Walk) (a left : List Word) (v : Word), s.walk? c k = some x → x.chip = a ++ [v] →
    x.wait = .spill left → let va := x.spill + BitVec.ofNat 64 (4 * x.spilled)
    s.vaWaits (.core c) x.ctx va false 4 = false → s.vaAccess (.core c) x.ctx va .atomic (leBytes 4 v.toNat) = (t, none) →
    let y := { x with
      chip := a, spilled := x.spilled + 1, under := v :: x.under, area := t.areaLine c x.ctx x.spill }.pushWords left
    let u := t.setWalk c k y
    exec (.stackSpill c k) s = .next (if y.wait = .ready then u.walkNext c k else u)) ∧
  (∀ (s t : State) (c k : Nat) (x : Walk) (w : Word) (r : List Word) (p : Place) (bs : List Byte),
    s.walk? c k = some x → x.chip.length < 8 → x.finished = false → x.under = w :: r →
    let va := x.spill + BitVec.ofNat 64 (4 * (x.spilled - 1))
    s.vaWaits (.core c) x.ctx va true 4 = false → s.place (.core c) x.ctx va .atomic = (t, .ok p) →
    (isHost p.key && !t.hostUp) = false → t.farFault p.key = none → t.stored p.key 4 = some bs →
    exec (.stackFill c k) s = .next (({ t.l2Use p.key 4 p.cpol with freeCount := t.freeCount + 1 } : State).setWalk c k { x with
      chip := x.chip ++ [if Config.spillKept t.freeCount = true then w else BitVec.ofNat 32 (leWord bs)]
      spilled := x.spilled - 1
      under := r
      wait := if x.wait = .fill then .ready else x.wait })) ∧
  (∀ (s : State) (m : HoffMsg) (c : Nat), s.ports.any id = true → s.handoffCore m.originCore = some c →
    (s.accepts m.ctx m.partnerCtx = false → exec (.handoffArrival m) s =
      .next { s with outbox := s.outbox ++ [OutMsg.refuse m.originCore m.originSlot m.hid, OutMsg.credit c] }) ∧
    (s.accepts m.ctx m.partnerCtx = true → (s.core c).sp.arrivals.length < 16 → exec (.handoffArrival m) s =
      .next (s.modCore c (fun k => { k with sp := { k.sp with arrivals := k.sp.arrivals ++ [{ m with charged := none }] } })))) ∧
  (∀ (s : State) (c k : Nat) (x : Walk) (p : DWord), s.walk? c k = some x → (∃ e, x.wait = .handoff p e false) →
    x.cancelled = false →
    (∀ r : HoffRet, exec (.handoffReturn c ⟨k, x.hid⟩ r) s = .next ((s.setWalk c k
      { x with q := r.q, m := r.m, emitted := r.emitted, topk := r.topk, cf := true }).walkNext c k)) ∧
    (∀ (e : BitVec 128) (pc : Nat) (t : State), s.cqWrite x.team c x.cq (leBytes 16 e.toNat) = some t →
      let u := t.modWalk c k (fun y => { y with emitted := y.emitted + 1 })
      exec (.partnerEntryArrival c ⟨k, x.hid⟩ ⟨[e], pc⟩) s = .next (if e.toNat / 2 ^ 32 % 256 = 0 then u else u.freeWalk c k)) ∧
    (∀ (es : List (BitVec 128)) (pc : Nat), (∀ e ∈ es, e.toNat / 2 ^ 32 % 256 = 0) →
      ((s.team x.team).cqd < es.length → exec (.partnerEntryArrival c ⟨k, x.hid⟩ ⟨es, pc⟩) s = .next
        (({ s with outbox := s.outbox ++ [OutMsg.kill c k x.hid] }.setWalk c k { x with pc := pc, wait := .ready }).walkIllegal c k 3)) ∧
      (es.length ≤ (s.team x.team).cqd → (s.team x.team).cqd < ((s.team x.team).cq c x.cq).count + es.length →
        exec (.partnerEntryArrival c ⟨k, x.hid⟩ ⟨es, pc⟩) s = .next s)) ∧
    exec (.handoffRefusal c ⟨k, x.hid⟩) s = .next (s.walkFault c k 6 p)) ∧
  (∀ (s : State) (d : Nat),
    let t := { s with handoffUsed := FMap.set s.handoffUsed d (FMap.getD s.handoffUsed d 0 - 1) }
    (s.heldHandoff d = none → exec (.handoffCredit d) s = .next t) ∧
    (∀ c k, s.heldHandoff d = some (c, k) → exec (.handoffCredit d) s = .next (t.sendHandoff c k))) ∧
  (∀ (s : State) (oc os hid : Nat), FMap.sorted s.cores = true → (∀ e ∈ s.cores, FMap.sorted e.2.sp.walks = true) →
    let gone := fun (y : Core) => y.sp.arrivals.filter (fun m => msgFor m oc os hid)
    let stopped := fun (y : Core) => y.sp.walks.filter (fun w => forOrigin oc os hid w.2)
    let left := s.cores.map (fun e => (e.1, { e.2 with sp := { e.2.sp with
      arrivals := e.2.sp.arrivals.filter (fun m => !msgFor m oc os hid)
      walks := e.2.sp.walks.filter (fun w => !forOrigin oc os hid w.2) } }))
    let credits := fun (e : Nat × Core) => (gone e.2).map (fun m => OutMsg.credit (m.charged.getD e.1))
    let ended := fun (tag emitted : Word) (pc : Nat) =>
      OutMsg.entries oc os hid [BitVec.ofNat 128 (leWord (cqEntry tag 0x02 emitted.toNat 0 0 0))] pc
    exec (.cancelMessage oc ⟨os, hid⟩) s = .next { s with
      cores := left
      outbox := s.outbox ++ s.cores.flatMap (fun e => credits e ++ (gone e.2).map (fun m => ended m.tag m.emitted 0) ++
        (stopped e.2).map (fun w => ended w.2.tag w.2.emitted w.2.pc)) } ∧
    exec (.killMessage oc ⟨os, hid⟩) s = .next { s with cores := left, outbox := s.outbox ++ s.cores.flatMap credits }) ∧
  (∀ (s : State) (es : List (Nat × Nat)), exec (.partnerPairingChange es) s = .next { s with partnerPairs := es }) ∧
  (∀ (s : State) (ctx target : Nat), s.ports.any id = true → s.accepts ctx target = true →
    (∀ va n t bs, s.vaWaits .device target va true n = false → s.vaRead .device target va n = (t, .ok bs) →
      exec (.partnerRequest ctx target (.read va n)) s = .next (t.partnerData target va bs)) ∧
    (∀ va bs t, s.vaWaits .device target va false bs.length = false → s.vaWrite .device target va bs = (t, none) →
      exec (.partnerRequest ctx target (.write va bs)) s = .next (t.partnerReply [])) ∧
    (∀ va op v cmp t p old, s.vaWaits .device target va true 4 = false → s.place .device target va .atomic = (t, .ok p) →
      (isHost p.key && !t.hostUp) = false → t.homeRead p.key 4 = some old → op.toNat ≠ 15 →
      exec (.partnerRequest ctx target (.atomic va false op v cmp)) s = .next (((t.homeWrite p.key (leBytes 4
        (atomicNew op.toNat 32 (leWord old) (v.toNat % 2 ^ 32) (v.toNat % 2 ^ 32)))).1.l2Use p.key 4 p.cpol).partnerReply old)) ∧
    (∀ va cmp new t p old, s.vaWaits .device target va true 16 = false → s.place .device target va .atomic = (t, .ok p) →
      (isHost p.key && !t.hostUp) = false → t.homeRead p.key 16 = some old →
      exec (.partnerRequest ctx target (.cas128 va cmp new)) s = .next (((t.homeWrite p.key
        (if leWord old = cmp.toNat then leBytes 16 new.toNat else old)).1.l2Use p.key 16 p.cpol).partnerReply old)) ∧
    (∀ req, s.vaWaits .device target (partnerSpan req).1 (partnerSpan req).2.1 (partnerSpan req).2.2 = true →
      exec (.partnerRequest ctx target req) s = .next { s with outside := s.outside ++ [.partner ctx target req] }))

/-! ### Events of waiting waves, mailboxes, queues, issue and detection -/

/-- R326, R329, R334, R336, R339, R350-R352, R392-R394, R401, R405, R413, R436, R447, R464, R465, R468: the events that a waiting
wave, a deposit, a slice or a team meets, and those of the dispatcher: each takes its effect when its condition holds. A dispatcher's
turn saves, restores or places by priority; a back-off or a reservation passes; a saved team returns; a queued entry starts a team; a
core acknowledges an invalidation; a quiet stop's limit passes. Which cores a time-out names, the position that a launch keeps while
teams are saved for it, the lines that a prefetch hint fills, the report of lost joins and the MSI 3 of a quiet stop's limit are the
model's readings (log entries 59, 41, 68, 72 and 19). -/
def Obligations.WaitAndLaunchEventsComplete : Prop :=
  (∀ (s : State) (id : Nat) (d : Deposit), s.deposits.find? (·.id == id) = some d →
    (d.held = false → d.refused = false → d.status = none → s.inTurn d = true →
      exec (.depositArrival id) s = .next (s.depositArrives d)) ∧
    (d.refused = true → d.retryAt ≤ s.clkOf d.srcCore → s.inTurn d = true → exec (.depositRetry id) s = .next (s.depositArrives d)) ∧
    (∀ w, s.receiver d.ctx d.target = .resident w → s.boxFull d (.resident w) = some false → s.heldBefore d = false →
      s.depositArrives d = s.enterBox (sendCore d.target) w (sendBox d.target) d) ∧
    (∀ w b, s.receiver d.ctx d.target = .resident w → s.boxFull d (.resident w) = some b → (b = true ∨ s.heldBefore d = true) →
      4 ≤ (s.heldAt (sendCore d.target)).length →
      s.depositArrives d = s.modDeposit d.id (fun d => { d with refused := true, retryAt := s.clkOf d.srcCore + 64 })) ∧
    (s.receiver d.ctx d.target = .none → s.depositArrives d = s.depositStatus d.id 2) ∧
    (∀ st, d.status = some st → s.legClear (sendCore d.target) d.srcCore d.seq = true → exec (.sendStatusReturn id) s =
      .next ((({ s with deposits := s.deposits.filter (fun e => e.id != id) }).modWave d.srcCore d.srcWave (fun x =>
        { x with waits := x.waits.map (fun (v : Wait) => { v with kind := v.kind.sendStatus id st }) })).settleSends))) ∧
  (∀ (s : State) (c w u : Nat) (v : Wait), (s.wave c w).waits = [v] → v.kind = .sleep u → u ≤ s.time →
    exec (.sleepExpiry c w v.lanes) s = .next (s.endWait c w v)) ∧
  (∀ (s : State) (c w q n u p k : Nat) (ns : List Nat) (v : Wait), (s.wave c w).waits = [v] →
    v.kind = .cqpop q n (some u) ns p k → u ≤ s.time → (s.wave c w).dbg = none →
    exec (.cqpopTimeout c w v.lanes) s = .next (s.cqServe c w v)) ∧
  (∀ (s : State) (l c : Nat) (a : Arrival), let tw := s.barrierWaits l c WaitKind.isTbar
    lastArrival (s.launch l).tbar c = some a → a.late (FMap.get (s.launch l).tcame c) s.time = true → s.coreArrived l c WaitKind.isTbar = true →
    tw.all (fun v => (s.wave c v.1).dbg.isNone) = true →
    exec (.barrierTimeout l c) s = .next ((s.modLaunch l (fun y => { y with
      tbar := y.tbar.filter (fun b => b.core != c), tcame := FMap.erase y.tcame c, tlate := FMap.set y.tlate c (FMap.getD y.tgen c 0) })).timeoutWaits
      c tw (tbarMissing c a.set ((tbarCores a.set a.mask c).filter (fun d => !s.tbarHad l c d))))) ∧
  (∀ (s : State) (l c : Nat) (a : Arrival), let gw := s.barrierWaits l c WaitKind.isGbar
    let missing := (s.launch l).gcores.filter (fun d => !s.gbarHad l d)
    lastArrival (s.launch l).tbar c = none → lastArrival (s.launch l).gbar c = some a → a.late (FMap.get (s.launch l).gcame c) s.time = true →
    a.map = none →
    s.coreArrived l c WaitKind.isGbar = true → gw.all (fun v => (s.wave c v.1).dbg.isNone) = true → s.gbarReady l = false →
    exec (.barrierTimeout l c) s = .next ((s.modLaunch l (fun y => { y with
      gbar := y.gbar.filter (fun b => b.core != c), gcame := FMap.erase y.gcame c, glate := c :: y.glate })).timeoutWaits
      c gw (missing.length * 2 ^ 16 + missing.foldl min 255))) ∧
  (∀ (s : State) (c w n next : Nat) (b : Bool) (r : WaitaReq) (v : Wait), (s.wave c w).waits = [v] → v.kind = .waita r false n next b →
    next ≤ s.clkOf c → exec (.waitaPoll c w) s = .next (s.waitaTest c w v r (fun t _ =>
      (t, .waita r false (min (2 * n) 65536) (t.clkOf c + min (2 * n) 65536) false)))) ∧
  (∀ (s : State) (l : Nat), exec (.waitaWake l) s = .next (s.wakeLine l).settleWakes) ∧
  (∀ (s t : State) (c k w n : Nat) (r : List Nat) (dest : Option Nat) (v : Wait), (s.slice c k).racq = w :: r →
    (s.wave c w).waits = [v] → v.kind = .racq n dest → s.canGrant c w n = true → (s.wave c w).dbg = none →
    s.grantBlocks (v.iss s c w) v.active n dest = .ok t →
    exec (.racqGrant c k) s = .next (State.endWaitWith c w v { s := t.modSlice c k (fun q => { q with racq := r }) })) ∧
  (∀ (s : State) (c w : Nat), exec (.asyncTrapDelivery c w) s = .next (s.deliverAsync c w)) ∧
  (∀ (s : State) (c w : Nat), s.clkOf c % 4 = 0 → exec (.bundlePartition c w) s = .next (s.modWave c w Wave.partition)) ∧
  (∀ (s : State) (c w : Nat), 4096 ≤ (s.wave c w).unchosen → (s.wave? c w).isSome = true → exec (.priorityPromotion c w) s =
    .next (s.modWave c w (fun x => { x with unchosen := x.unchosen - 4096, prio := x.prio - 1 }))) ∧
  (∀ (s : State) (g l : Nat), s.imiss.any (fun m => m.1 == g && m.2.1 == l) = true ∨ (isLocal l = true ∧ l % 256 = 0) →
    exec (.fetchLineArrival g l) s = .next (s.fillCode g l)) ∧
  (∀ (s : State) (c k : Nat), s.trace.k ≠ 0 → (s.slice c k).sampleAt ≤ s.clkOf c →
    exec (.pcSample c k) s = .next (s.sample c k)) ∧
  (∀ (s : State) (t : Nat), s.restarting = false → s.isQuiet t = true → s.reportWaits (s.team t).ctx = false →
    let ts := (s.teams.filter (fun e => e.2.ctx == (s.team t).ctx && s.isQuiet e.1)).map (·.1)
    exec (.teamQuiet t) s = .next (s.report (s.team t).ctx
      ((ts.flatMap s.teamWaves).filterMap (fun y => s.blockedAs y.1 y.2) ++ s.lostJoins (s.team t).ctx ts))) ∧
  (∀ (s t : State) (p : Nat), p < 32 →
    (∀ q, q < p → s.dispatchAt q = none) → s.dispatchAt p = some t → exec .teamPlacement s = .next t) ∧
  (∀ (s t : State) (p l : Nat) (r : List Nat), (∀ e ∈ s.teams, e.2.saved = none) → FMap.getD s.pending p [] = l :: r →
    s.left l ≠ 0 → s.placeOne l = some t → s.dispatchAt p = some t) ∧
  (∀ (s t : State) (l : Nat), (FMap.getD s.pending (s.launch l).prio []).head? = some l → (s.launch l).retryAt ≤ s.clocks →
    (s.launch l).grants = [] → s.placeOne l = some t → exec (.clusterRetry l) s = .next t) ∧
  (∀ (s : State) (l : Nat), (s.launch l).grants ≠ [] → (s.launch l).grantedAt + 2000 ≤ s.clocks →
    exec (.reservationExpiry l) s = .next (s.cancelGrants l)) ∧
  (∀ (s : State) (n : Nat), (s.launch (s.team n).launch).checkpoint = false → (s.launch (s.team n).launch).phased = false →
    s.canRestore n = true → exec (.teamRestore n) s = .next (s.restoreTeam n)) ∧
  (∀ (s t : State) (q l p : Nat) (L : Launch), let u := s.settleAuto
    u.binder q = some (l, L) → u.left l ≠ 0 → p ≤ L.prio → (∀ j, j < p → u.dispatchAt j = none) → u.dispatchAt p = some t →
    exec (.autoLaunch q) s = .next t) ∧
  (∀ (s : State) (l q : Nat) (h : Option Nat) (ms fresh : List Member) (e : Option Nat × List Byte)
      (r : List (Option Nat × List Byte)), (s.launch l).entryQ = some q → (FMap.getD s.queues q {}).entries = e :: r →
    s.startNext l h ms fresh = ({ s with queues := FMap.mod s.queues q {} (fun y =>
      { y with entries := r, running := y.running + 1 }) }).startTeam l 0 ms fresh e.2) ∧
  (∀ (s : State) (c ctx va n : Nat) (tag : Word) (left : List Nat), s.task = some (.invalidate ctx va n tag left) → c ∈ left →
    s.drained c ctx va n = true → exec (.coreInvalidateAck c) s = .next ({ (s.acknowledge c ctx va n) with
      task := some (.invalidate ctx va n tag (left.filter (fun d => d != c))) }).invalidated) ∧
  (∀ (s : State) (l u c w : Nat) (a : Word) (r : List (Nat × Nat)), (s.launch l).quiet = some (a, u) → u ≠ 0 → u ≤ s.clocks →
    s.gbarReady l = true → s.isStill l = false →
    let t := (s.gbarComplete l).modLaunch l (fun L => { L with quiet := some (a, 0) })
    (t.launchTeams l).flatMap t.teamWaves = (c, w) :: r → exec (.quietStopLimit l) s =
      .next ((t.traceWave c w 6 (leBytes 8 0 ++ leBytes 1 0 ++ leBytes 1 0xFE)).msi 3))

/-! ### Device, host and commands -/

/-- R24, R25, R422, R426, R451, R453, R469, R471, R472, R474-R476, R416-R419: the events of the device: bring-up, clock and power,
the links, errors at each site, the ends of long commands, and the host's accesses. That `HWIDTH` and `HGEN` stay while the link is
down (log entry 92), what becomes of a dirty L1 line of the host or the partner (log entries 61 and 101), that a seal whose pages
cannot be read is answered REFUSED, and that the links and ports raise MSI 3, are the model's readings (log entries 44 and 19). -/
def Obligations.DeviceEventsComplete : Prop :=
  (∀ (s : State), s.booted = false → imageValid (s.slotImage s.active) = true →
    exec .reset s = .next ({ s with booted := true, running := s.active }).bringUp) ∧
  (∀ (s : State), s.booted = true → imageValid (s.slotImage s.active) = true →
    exec .reset s = .next ({ s.restarted with booted := true, running := s.active }).bringUp) ∧
  (∀ (s : State), s.booted = false → imageValid (s.slotImage s.active) = false →
    imageValid (s.slotImage (1 - s.active % 2)) = false →
    exec .reset s = .next { s with booted := true, bootStep := 2, hostUp := true }) ∧
  (∀ (s : State) (r : Nat), r < 16 → (r ∉ s.droop → exec (.supplyDroop r) s = .next { s with droop := r :: s.droop }) ∧
    exec (.supplyRecovery r) s = .next { s with droop := s.droop.filter (fun y => y != r) }) ∧
  (∀ (s : State) (w : Nat), exec (.powerMeasurement w) s = .next { s with
    watts := w
    mhz := if s.powerLimit < w then max Config.lowestMHz (s.mhz - 25)
      else if 100 * w < 95 * s.powerLimit then min Config.nominalMHz (s.mhz + 25) else s.mhz }) ∧
  (∀ (s : State), s.hostUp = true → exec .hostLinkDown s = .next { s with hostUp := false, hostDownSince := s.time }) ∧
  (∀ (s : State) (w g : Nat), s.booted = true → s.bootStep = 6 ∨ s.bootStep = 2 → exec (.hostLinkUp w g) s =
    .next (({ s with hostUp := true, capLink := BitVec.ofNat 64 (w % 16 * 2 ^ 44 + g % 16 * 2 ^ 40) }).flushHost.msi 3)) ∧
  (∀ (s : State) (c id : Nat) (o : Op) (a : LaneAcc), (s.core c).ops.find? (fun y => y.id == id) = some o → s.hostLate = true →
    o.left = [a] → isHost a.key = true →
    exec (.hostAccessTimeout c id) s =
      .next ((s.performLane c o a).1.modOp c id (fun _ => o.note a (s.performLane c o a).2))) ∧
  (∀ (s : State) (p : Nat), nth s.ports p false = true →
    let t := { s with ports := setNth s.ports p false }
    exec (.pairingPortDown p) s = .next ((if t.ports.any id then t else t.handoffsDown).msi 3)) ∧
  (∀ (s : State) (p : Nat), p < 2 → nth s.ports p false = false → s.bootStep = 6 → exec (.pairingPortUp p) s =
    .next (({ s with ports := setNth s.ports p true, outbox := s.outbox ++ [OutMsg.pairing s.pairEntries] }).msi 3)) ∧
  (∀ (s : State) (e : ErrSite), exec (.singleBitError e) s = .next { s with singleBit := s.singleBit + 1 }) ∧
  (∀ (s : State), (∀ a, isLocal a = true → a < Config.usableBytes →
      exec (.doubleBitError (.line a)) s = .next (s.poisonLine a).countDouble) ∧
    (∀ c a y, (s.core c).line? (lineOf a) = some y →
      let t := (s.modCore c (fun k => { k with l1 := k.l1.filter (fun z => z.addr != y.addr) })).killLoads c true [y.addr]
      (y.dirty = 0 ∨ t.homeLost y.addr = true → exec (.doubleBitError (.l1 c a)) s = .next t) ∧
      (y.dirty ≠ 0 → t.homeLost y.addr = false → exec (.doubleBitError (.l1 c a)) s = .next (t.poisonLine y.addr).countDouble)) ∧
    (∀ c, let t := s.modCore c (fun k => { k with tlb := [], sp := { k.sp with nodes := [], progs := [], descs := [] } })
      exec (.doubleBitError (.copies c)) s =
        .next { t with icache := FMap.erase s.icache (groupOf c), gtlb := FMap.erase s.gtlb (groupOf c) }) ∧
    (∀ c k p r, p ≠ 0 → FMap.get (s.slice c k).phys p = some r → exec (.doubleBitError (.vreg c k p)) s =
      .next (s.modSlice c k (fun y => { y with phys := FMap.set y.phys p { r with poison := true } })).countDouble) ∧
    (∀ c t e, e < 256 → t < 16 → exec (.doubleBitError (.tile c t e)) s = .next (s.modTile c t (fun y =>
      { y with poison := if y.poison.contains e then y.poison else e :: y.poison })).countDouble) ∧
    (∀ c w n, (s.wave? c w).isSome = true → n < 4 → exec (.doubleBitError (.la c w n)) s =
      .next (s.modWave c w (fun x => { x with laPoison := x.laPoison ||| BitVec.ofNat 4 (2 ^ n) })).countDouble) ∧
    (∀ c w, w < 65536 → exec (.doubleBitError (.bench c w)) s =
      .next (s.modCore c (fun k => { k with benchPoison := (benchKey c (4 * w)) / 4 :: k.benchPoison })).countDouble) ∧
    (∀ c, (s.core c).service = .inService → exec (.doubleBitError (.control c)) s = .next (s.machineCheck c)) ∧
    (∀ c k x, s.walk? c k = some x → exec (.doubleBitError (.walk c k)) s = .next (s.walkFault c k 0 0))) ∧
  (∀ (s : State) (c : Nat), (s.core c).recal = true → s.task = none →
    exec (.recalibrationDone c true) s = .next (s.modCore c (fun k => { k with recal := false })) ∧
    exec (.recalibrationDone c false) s =
      .next (((s.modCore c (fun k => { k with recal := false })).modCore c (fun k => { k with service := .failed })).recount 1)) ∧
  (∀ (s : State) (k : Nat) (tag : Word), s.task = some (.retrain k tag) → let b : BitVec 16 := BitVec.ofNat 16 (2 ^ k)
    exec (.retrainDone true) s = .next (({ s with task := none }).okay tag) ∧
    exec (.retrainDone false) s = .next (({ s with
      task := none
      channels := s.channels &&& ~~~b
      badChannels := s.badChannels ||| b
      capMem := s.capMem &&& ~~~(BitVec.zeroExtend 64 b <<< 24) }).okay tag)) ∧
  (∀ (s : State) (tag : Word), s.task = some (.restart tag) →
    (Config.imageStarts (s.slotImage (1 - s.running)) = true → exec .fwRestart s = .next
      (({ s with task := none, capLinkHeld := none, running := 1 - s.running, active := 1 - s.running }).okay tag)) ∧
    (Config.imageStarts (s.slotImage (1 - s.running)) = false → exec .fwRestart s =
      .next (({ s with task := none, capLinkHeld := none }).refuse tag))) ∧
  (∀ (s : State) (ctx n : Nat) (base tree : DWord) (tag : Word), s.task = some (.seal ctx base n tree tag) →
    (s.hostHeld && s.sealingWaits ctx base n tree) = false → ({ s with task := none }).leafDigests ctx base n = none →
    exec .sealCompletion s = .next (({ s with task := none }).refuse tag)) ∧
  (∀ (s t : State) (ctx k : Nat) (base tree : DWord) (tag : Word) (d : BitVec 384), s.task = some (.seal ctx base 1 tree tag) →
    (s.hostHeld && s.sealingWaits ctx base 1 tree) = false →
    let u := { s with task := none }
    u.leafDigests ctx base 1 = some [d] → u.digestWrite ctx (treeVa tree 0 0 0) (digestBytes d) = some t →
    k < 16 → FMap.get t.sealed k = none → FMap.get u.sealed k = none →
    (∀ j, j < k → (FMap.get u.sealed j).isSome = true ∧ (FMap.get t.sealed j).isSome = true) →
    let r : Sealed := { ctx := ctx, base := base, pages := 1, tree := tree, root := d }
    exec .sealCompletion s =
      .next ((({ t with sealed := FMap.set t.sealed k r }).logEvent r 1).respond tag 0 (leBytes 4 k))) ∧
  (∀ (s : State) (a : Nat) (bs : List Byte), s.booted = true → s.hostUp = true → a + bs.length ≤ 2 ^ 37 →
    exec (.hostMemoryAccess .write a bs) s = .next (s.homeWrite a bs).1) ∧
  (∀ (s : State) (off n : Nat) (junk : List Byte), s.booted = true → s.hostUp = true → let got := fun (r : HostAnswer) => { s with hostGot := some r }
    exec (.hostMemoryAccess (.read 0 n) off junk) s =
      .next (got (.data ((List.range n).map (fun i => s.bar0Byte (off + i))))) ∧
    exec (.hostMemoryAccess (.read 2 n) off junk) s = .next (got (.data (List.replicate n 0))) ∧
    (∀ bs, off + n ≤ 2 ^ 37 → s.missWait off n = false → s.homeRead off n = some bs →
      exec (.hostMemoryAccess (.read 4 n) off junk) s = .next (got (.data bs))) ∧
    (∀ bar, exec (.hostMemoryAccess (.atomic bar) off junk) s = .next (got .unsupported))) ∧
  (∀ (s : State) (w slot n : Nat) (g : Ingress), w < 64 → slot < 16 → FMap.get s.ingress w = some g → s.windowSize w = some n →
    g.commits.length < 16 → exec (.ingressCommit w slot) s =
      .next { s with ingress := FMap.set s.ingress w { g with commits := g.commits ++ [(nth g.staging slot []).take n] } }) ∧
  (∀ (s : State) (w off n : Nat) (bs : List Byte) (g : Ingress), w < 64 → FMap.get s.ingress w = some g → s.windowSize w = some n →
    off + bs.length ≤ 4096 → off % 256 + bs.length ≤ n → n ≤ 256 →
    exec (.ingressWrite w off bs) s = .next { s with ingress := FMap.set s.ingress w { g with
      staging := (List.range 16).map (fun k => (List.range 256).map (fun b =>
        if off ≤ 256 * k + b ∧ 256 * k + b < off + bs.length then nth bs (256 * k + b - off) 0 else nth (nth g.staging k []) b 0)) } }) ∧
  (∀ (s : State) (w q : Nat) (e : List Byte) (r : List (List Byte)) (g : Ingress), FMap.get s.ingress w = some g →
    g.queue = some q → g.commits = e :: r → s.entryWaits q = false →
    let t := { s with ingress := FMap.set s.ingress w { g with commits := r } }
    (∀ u, t.sqApply q e = .done u → exec (.ingressEntryPush w) s = .next u) ∧
    (t.sqApply q e = .full → exec (.ingressEntryPush w) s = .next (t.discard q 1)) ∧
    (∀ u c va, t.sqApply q e = .fault u c va → exec (.ingressEntryPush w) s = .next (u.discard q 2)))

/-- R18, R345, R407, R413-R415, R417, R418, R422, R424-R429, R470-R476, R496: the host's queue commands and register writes: a
doorbell moves the tail; the command at the head is taken, by its code: 0 does nothing, 1 takes up the launch of its header, another
completes with status 4; an answer to a held fault lets the held wave go on or traps it. With none running and the machine up, each
management command with accepted arguments takes its effect and answers `OK`, or runs on as the command of the management
processor. That `FHEAD` counts modulo the ring's records, and that parking a core raises no MSI, are the model's readings (log entries
11 and 19). -/
def Obligations.HostAndManagementCommandsComplete : Prop :=
  (∀ (s : State) (ctx tail : Nat) (x : Ctx), FMap.get s.ctxs ctx = some x →
    exec (.doorbell ctx tail) s = .next { s with ctxs := FMap.set s.ctxs ctx { x with tail := tail % 256 } }) ∧
  (∀ (s : State) (ctx : Nat) (x : Ctx) (bs : List Byte), FMap.get s.ctxs ctx = some x → x.head ≠ x.tail → s.restarting = false →
    s.missWait (x.ring.toNat + 32 * x.head) 32 = false → s.homeRead (x.ring.toNat + 32 * x.head) 32 = some bs →
    let t := { s with ctxs := FMap.set s.ctxs ctx { x with head := (x.head + 1) % 256 } }
    let o := Origin.host ctx (BitVec.ofNat 64 (fieldAt bs 16 8)) (BitVec.ofNat 64 (fieldAt bs 24 8))
    (fieldAt bs 0 1 = 0 → exec (.hostNop ctx) s = .next t) ∧
    (fieldAt bs 0 1 = 1 → exec (.hostLaunch ctx) s = .next (t.takeUp ctx (BitVec.ofNat 64 (fieldAt bs 8 8)) o none [] 0)) ∧
    (2 ≤ fieldAt bs 0 1 → exec (.hostCommandInvalid ctx) s = .next (t.complete o 4 0 0 0))) ∧
  (∀ (s : State) (v : DWord), exec (.fhead v) s =
    .next { s with fhead := if s.faultCount = 0 then v.toNat else v.toNat % s.faultCount }) ∧
  (∀ (s : State) (off : Nat) (bs : List Byte), ∃ cmd, exec (.registerWrite off bs) s = .next { s with cmd := cmd } ∧
    ∀ i, i < 64 → nth cmd i 0 = if off ≤ i ∧ i < off + bs.length then nth bs (i - off) 0 else nth s.cmd i 0) ∧
  (∀ (s : State) (fid : Word) (h : HeldFault) (t : Trap), s.heldFaults.find? (fun g => g.fid == fid.toNat) = some h → h.client ≠ 1 →
    (s.wave h.core h.who).replayHeld.find? (fun e => e.1 == h.fid) = some (h.fid, t) →
    exec (.faultReplyReplay fid) s = .next ((s.unheld h.fid).modWave h.core h.who (fun x =>
      let again := match x.replayHeld.find? (fun e => e.1 == h.fid) with | some e => e.2.again | none => 0
      { (x.unheld h.fid) with bundles := regroup x.bundles (again &&& x.live) })) ∧
    (h.who < 1000000 → exec (.faultReplyReject fid) s =
      .next (((s.unheld h.fid).modWave h.core h.who (fun x => x.unheld h.fid)).deliver h.core h.who { t with post := none }))) ∧
  (∀ (s : State) (tag : Word), TakesCommand s →
    (∀ ctx root replay ring, ctx < 64 → FMap.get s.ctxs ctx = none → root % 65536 = 0 → root + 65536 ≤ Config.usableBytes →
      exec (.ctxSet tag ctx root replay ring) s = .next (({ s with
        ctxs := FMap.set s.ctxs ctx { root := BitVec.ofNat 64 root, replay := replay, ring := ring } }).okay tag)) ∧
    (∀ ctx, s.hasCtx ctx = true → exec (.ctxClear tag ctx) s = .next ((s.clearCtx ctx).okay tag)) ∧
    (∀ ctx va n, s.hasCtx ctx = true → exec (.invalidate tag ctx va n) s =
      .next ({ (s.dropShared (fun t => t.inRange ctx va.toNat n)) with
        task := some (.invalidate ctx va.toNat n tag ((List.range Config.cores).filter (fun c =>
          (s.core c).service == CoreState.inService || (s.core c).service == CoreState.draining))) }).invalidated) ∧
    (∀ q d, q < 64 → descOk d = true → s.hasCtx (StageQ.ofBytes d).ctx = true → (s.sq q).bound = none → (s.sq q).running = 0 →
      ((StageQ.ofBytes d).policy = 0 → ∀ e ∈ s.ingress, e.2.queue ≠ some q) →
      alarmsFit (FMap.set s.queues q (StageQ.ofBytes d)) = true →
      exec (.sqConfig tag q d) s = .next (({ (s.retryWaiters q) with
        queues := FMap.set (s.retryWaiters q).queues q (StageQ.ofBytes d) }).okay tag)) ∧
    (∀ w q y, w < 64 → q < 64 → FMap.get s.queues q = some y → y.policy ≠ 0 → s.hasCtx y.ctx = true →
      exec (.ingressMap tag w (some q)) s = .next (({ s with
        ingress := FMap.set s.ingress w { queue := some q, staging := List.replicate 16 (zeros 256) } }).okay tag)) ∧
    (∀ ctx p, s.hasCtx ctx = true → (∀ n, p = some n → n < 64) → exec (.pairSet tag ctx p) s =
      .next (({ s with ctxs := FMap.mod s.ctxs ctx {} (fun x => { x with pair := p }) }).tellPairing.okay tag)) ∧
    (∀ ctx base n tree, s.hasCtx ctx = true → n ≠ 0 → n ≤ 2 ^ 21 → base.toNat % 65536 = 0 → base.toNat + 65536 * n ≤ 2 ^ 55 →
      s.sealed.length < 16 → (∀ e ∈ s.sealed, e.2.ctx ≠ ctx ∨ base.toNat + 65536 * n ≤ e.2.base.toNat ∨
        e.2.base.toNat + 65536 * e.2.pages ≤ base.toNat) → s.sealable ctx base n = true →
      exec (.seal tag ctx base n tree) s = .next { s with task := some (.seal ctx base n tree tag) }) ∧
    (∀ k r, FMap.get s.sealed k = some r → exec (.unseal tag k) s = .next ((s.unsealRegion k r).okay tag)) ∧
    (∀ nonce addr, exec (.attest tag nonce addr) s =
      .next ((s.hostWrite addr (s.attestation nonce ++ signBytes (s.attestation nonce))).1.okay tag)) ∧
    (∀ addr e, 6 ≤ e → e ≤ 16 → exec (.faultRing tag addr (2 ^ e)) s =
      .next (({ s with faultBase := addr, faultCount := 2 ^ e, fhead := 0, ftail := 0 }).okay tag)) ∧
    (∀ mib, mib ≤ 32 → s.launches = [] →
      let t := { s with capMem := (s.capMem &&& ~~~((0xFF : DWord) <<< 48)) ||| (BitVec.ofNat 64 mib <<< 48) }
      exec (.nodeCache tag mib) s = .next (((List.range 32).foldl (fun (u : State) h => (u.l2Trim h u.l2Cap).nodeTrim h) t).okay tag)) ∧
    (∀ mib, s.launches ≠ [] → exec (.nodeCache tag mib) s = .next (s.refuse tag)) ∧
    (∀ addr n, exec (.getCert tag addr n) s = .next ((s.hostWrite addr (Config.certChain.take n)).1.okay tag)) ∧
    (∀ addr n, n ≤ 2 ^ 24 + 512 → s.running = 0 → exec (.fwWrite tag 1 addr n) s =
      .next (({ s with fwB := s.seen (hostKey addr.toNat) (Memory.readBytes s.mem (hostKey addr.toNat) n) }).okay tag)) ∧
    (imageValid (s.slotImage (1 - s.running)) = true → exec (.fwSwitch tag) s =
      .next { s with task := some (.restart tag), capLinkHeld := some s.capLinkNow }) ∧
    (∀ c, c < Config.cores → (s.core c).service.out = false →
      exec (.coreParkDrain tag c) s =
        .next ({ (s.modCore c (fun k => { k with service := .draining })) with task := some (.park c tag) }).settlePark ∧
      exec (.coreParkKill tag c) s =
        .next ((((s.modCore c (fun k => { k with service := .draining })).killCore c .none false).parkCore c).okay tag)) ∧
    (∀ c, c < Config.cores → (s.core c).service = .parked →
      ((s.core c).recal = false → exec (.coreReturn tag c) s =
        .next (((s.modCore c (fun k => { k with service := .inService })).recount 1).okay tag)) ∧
      ((s.core c).recal = true → exec (.coreReturn tag c) s = .next { s with task := some (.giveBack c tag) })) ∧
    (∀ k, k < 16 → exec (.chRetrain tag k) s = .next { ((s.l2.filter (fun e => homeSlice e.1 / 2 == k)).foldl (fun (u : State) e =>
      u.l2Clean e.1) s) with task := some (.retrain k tag) }) ∧
    (∀ w, 300 ≤ w → w ≤ 600 → exec (.powerLimit tag w) s = .next (({ s with powerLimit := w }).okay tag)) ∧
    (∀ e, 20 ≤ e → e ≤ 32 → exec (.quietWindow tag e) s = .next (({ s with quietExp := e }).okay tag)) ∧
    (∀ addr, exec (.status tag addr) s = .next ((s.hostWrite addr s.statusPage).1.okay tag)) ∧
    (∀ op, exec (.cmdUnknownOpcode tag op) s = .next (s.badArg tag)))

/-- R454-R463, R467, R468: with none running and the machine up, each debug command with accepted arguments takes its effect and
answers `OK`. Which waves a disarming resumes, that a stop waits for the wave's boundary, what a write of `SR` makes of the handler
threads and the reserved bits, and of a resume address of a handler thread, are the model's readings (log entry 43); so is the place of
`PHASE` in the checkpoint record (log entry 46). -/
def Obligations.DebugCommandsComplete : Prop :=
  ∀ (s : State) (tag : Word), TakesCommand s →
    (∀ ctx p, s.hasCtx ctx = true → p ≤ 2 → s.trace.count ≠ 0 →
      exec (.dbgArm tag ctx p) s = .next (({ s with armed := FMap.set s.armed ctx p }).okay tag)) ∧
    (∀ ctx, s.hasCtx ctx = true → s.trace.count ≠ 0 →
      let t := { s with
        armed := FMap.erase s.armed ctx
        bkpts := s.bkpts.filter (fun e => e.2.ctx != ctx)
        watches := s.watches.filter (fun e => e.2.ctx != ctx) }
      let ws := (t.ctxWaves ctx).filter (fun y => (t.wave y.1 y.2).dbg.isSome && !(t.launchOf (t.wave y.1 y.2)).stopped)
      let u := (t.ctxWaves ctx).foldl (fun (a : State) y => a.modWave y.1 y.2 Wave.unstep) t
      let v := { u with teams := u.teams.map (fun e => (e.1,
        if e.2.ctx = ctx ∧ (u.launch e.2.launch).stopped = false then { e.2 with saved := e.2.saved.map (fun (r : Saved) =>
          { r with waves := r.waves.map (fun (y : SavedWave) => { y with copy := y.copy.unstep, freed := true }) }) } else e.2)) }
      exec (.dbgDisarm tag ctx) s = .next ((ws.foldl (fun (a : State) y => a.resumeWave y.1 y.2) v).okay tag)) ∧
    (∀ ctx c slot i w, s.hasCtx ctx = true → s.waveAt c slot i = some w → (c, w) ∈ s.ctxWaves ctx →
      ((s.wave c w).dbg = none → (FMap.get s.armed ctx).isSome = true → exec (.dbgRunStop tag ctx (.wave c slot i)) s =
        .next (((s.askStop c w { cause := .none, asked := true }).freeze c w .none).okay tag)) ∧
      ((s.wave c w).dbg ≠ none →
        exec (.dbgRunResume tag ctx (.wave c slot i)) s = .next ((s.resumeWave c w).okay tag) ∧
        exec (.dbgRunStep tag ctx (.wave c slot i)) s = .next ((s.stepWave false c w).okay tag) ∧
        exec (.dbgRunStepDrain tag ctx (.wave c slot i)) s = .next ((s.stepWave true c w).okay tag))) ∧
    (∀ ctx slot addr, slot < 16 → s.hasCtx ctx = true → exec (.bkptSet tag slot ctx addr) s = .next (({ s with
      bkpts := if addr = 0 then FMap.erase s.bkpts slot else FMap.set s.bkpts slot { ctx := ctx, addr := addr } }).okay tag)) ∧
    (∀ ctx slot addr e acc, slot < 8 → s.hasCtx ctx = true → 1 ≤ acc → acc ≤ 3 → 2 ≤ e → e ≤ 16 →
      exec (.watchSet tag slot ctx addr (2 ^ e) acc) s = .next (({ s with watches := FMap.set s.watches slot {
        ctx := ctx, addr := BitVec.ofNat 64 (addr.toNat / 2 ^ e * 2 ^ e), len := 2 ^ e, access := acc } }).okay tag)) ∧
    (∀ base e mode mask k, base % 4096 = 0 → base + 32 * 2 ^ e ≤ 2 ^ 37 → 8 ≤ e → e ≤ 24 → mode ≤ 1 → k = 0 ∨ (10 ≤ k ∧ k ≤ 24) →
      s.trace.dropped = 0 → exec (.traceCfg tag base (2 ^ e) mode mask k) s =
        .next (({ s with trace := { base := base, count := 2 ^ e, mode := mode, mask := mask, k := k } }).okay tag)) ∧
    (∀ w i addr, exec (.dbgRead tag 0xFFFF w i addr) s = .next (s.respond tag 0 (leBytes 8 s.trace.windex))) ∧
    (∀ c slot i w, s.waveAt c slot i = some w → (s.wave c w).dbg ≠ none →
      let x := s.wave c w
      (∀ addr bs r, c ≠ 0xFFFF → s.waveRecord c w x.asked = .ok (bs, r) →
        let marks := (List.range x.acc.length).foldl (fun m i => if s.tileBusy c (nth x.acc i 0) then m + 2 ^ i else m) 0
        exec (.dbgRead tag c slot i addr) s = .next ((s.hostWrite addr bs).1.respond tag 0
          (leBytes 4 bs.length ++ leBytes 1 marks ++ leBytes 1 (if s.outstanding c w then 1 else 0)))) ∧
      (∀ name n m d t, name < 2048 → x.rotate name = some n → x.mapped n = true → (s.vecOf c w n).pending = false →
        (s.vecOf c w n).poison = false → s.writeVec c w n (vmerge m d (s.vecOf c w n).data) = some t →
        exec (.dbgWriteVector tag c slot i name m d) s = .next (t.okay tag)) ∧
      (∀ name v, name < 128 → exec (.dbgWriteScalar tag c slot i name v) s = .next ((s.modWave c w (fun x =>
        { (x.setScalars name [v]) with
          sPend := x.sPend &&& ~~~(BitVec.ofNat 128 (2 ^ name))
          sDrop := x.sDrop ++ (s.scalarOps c w name).map (fun i => (i, name)) })).okay tag)) ∧
      (∀ name m v, name < 48 → exec (.dbgWritePredicate tag c slot i name m v) s =
        .next ((s.modWave c w (fun x => x.setPred name m v)).okay tag)) ∧
      (∀ name v, name < 8 → exec (.dbgWriteMailbox tag c slot i name v) s =
        .next (((s.modWave c w (fun x => x.setBox name v)).settleBoxes c w).okay tag)) ∧
      (∀ v, exec (.dbgWriteSr tag c slot i v) s = .next ((s.modWave c w (fun x => { x with
        sr := (v &&& 0xC003F9FF) ||| (x.sr &&& 0x20000000)
        handler := if srH v then (if srH x.sr then x.handler else x.live) else 0 })).okay tag)) ∧
      (∀ m pcs, srH x.sr = false ∨ m &&& x.handler = 0 → exec (.dbgWriteResume tag c slot i m pcs) s =
        .next ((s.modWave c w (fun x => { x with
          pcs := (List.range 32).map (fun l => nth x.pcs l 0)
          resume := (List.range 32).map (fun l => if m.getLsbD l then nth pcs l 0 else nth x.resume l 0)
          noTrip := x.noTrip &&& ~~~m })).okay tag)) ∧
      (∀ m pcs, srH x.sr = true → m &&& x.handler ≠ 0 → exec (.dbgWriteResume tag c slot i m pcs) s =
        .next ((s.modWave c w (fun x => Wave.splitBundles { x with
          pcs := (List.range 32).map (fun l => if (m &&& x.handler).getLsbD l then nth pcs l 0 else nth x.pcs l 0)
          resume := (List.range 32).map (fun l => if (m &&& ~~~(m &&& x.handler)).getLsbD l then nth pcs l 0 else nth x.resume l 0)
          noTrip := x.noTrip &&& ~~~m })).okay tag)) ∧
      (∀ name d, name < x.acc.length → d.length = 20544 → s.tileBusy c (nth x.acc name 0) = false →
        exec (.dbgWriteTile tag c slot i name d) s = .next ((s.modCore c (fun k => k.changeTile (nth x.acc name 0) (fun t =>
          { t with elems := tileOfImage d, poison := [] }))).okay tag))) ∧
    (∀ ctx h l, s.hasCtx ctx = true → s.launchAt ctx h = some l →
      exec (.quietStop tag ctx h) s = .next ((s.modLaunch l (fun L => { L with quiet := some (0, 0) })).okay tag) ∧
      exec (.quietCheckpoint tag ctx h) s = .next ((s.modLaunch l (fun L => { L with quiet := some (1, 0) })).okay tag) ∧
      exec (.quietCancel tag ctx h) s = .next ((s.modLaunch l (fun L => { L with quiet := none })).okay tag) ∧
      (∀ t bs k, FMap.get s.checks l = some k → (s.launch l).stopped = true → (∀ e ∈ k.teams, (FMap.get s.teams e.1).isSome = true) →
        s.vaRead .device ctx checkpointVa 64 = (t, .ok bs) →
        let u := t.rewind l k (BitVec.ofNat 32 (fieldAt bs 8 4))
        exec (.quietReplay tag ctx h) s = .next ((match k.teams with
          | e :: _ => (u.restoreGroup e.1).getD u
          | [] => u).okay tag)))

/-! ### The step, the decoder and the encoder -/

/-- R14, R16, R47, R48, R170, R320, R326: a step runs the instruction that is decoded. A bundle's turn reads the word at the bundle's
program counter, and with `L` the word 8 bytes on, decodes them and executes the instruction on the bundle; a walk's turn executes the
next word of the next ready walk; a running Jig's turn the word at its `PC`; an event's turn the event. Then what the instruction let
go on settles. Code comes from the instruction cache of the core's group, lowest byte first. A turn without requests to Bench banks is
made as it stands while no channel retrains, and only `TRAV`, the copy instructions and those of byte barriers make requests as they
issue. A turn is made when its requests that have not entered before enter, and else those that find room enter. A bank whose eight
places are taken admits no request; another admits the client that is due, and where none is, a request that comes no earlier in the
order of R16 than the last of its clock. That turns come one by one, what settles between them, and when a turn with requests is made,
are the model's choices (log entries 1 and 80). -/
def Obligations.StepRunsDecoded : Prop :=
  (∀ (s s0 t : State) (ns clocks lost c w : Nat) (b : Mask) (second : Bool) (y : Wave) (base : DWord),
    let a : Act := .bundle c w b second
    let waits := fun (u : State) => u.waitsFor (fun v => v.runAct exec a)
    s.nextTurn = ({ ns := ns, clocks := clocks, lost := lost, act := a }, s0) →
    let u0 := (s0.unstick exec).advance ns clocks lost
    let s1 := u0.withTwin exec c w second
    let x := if second then (s1.snap.map (·.1)).getD y else y
    let pc := nth x.pcs ((lowest b).getD 0) 0
    let cur : Cur := { core := c, wave := w, lanes := b, second := second, pc := pc }
    s1.wave? c w = some y → s1.decoder c w b pc second = true → s1.mayIssue c w x b second = true →
    (second = true ∨ x.async = []) → pc.toNat % 8 = 0 → (∀ e ∈ s1.bkpts, e.2.ctx = s1.ctxOf y → e.2.addr ≠ pc) →
    ({ s1 with cur := some cur }).fetchWord c w (s1.ctxOf y) pc = (t, .word base) →
    (hasExt base = false →
      step s = settled (u0.gated a (waits u0) (exec (decodeSimt base 0) { t with cur := some { cur with base := base, len := 8 } }))) ∧
    (∀ u v, hasExt base = true → t.fetchWord c w (s1.ctxOf y) (pc + 8) = (u, .word v) →
      step s = settled (u0.gated a (waits u0) (exec (decodeSimt base v) { u with cur := some { cur with base := base, len := 16 } })))) ∧
  (∀ (s t : State) (c w ctx : Nat) (va : DWord) (p : Place) (bs : List Byte), s.place (.group c) ctx va .fetch = (t, .ok p) →
    p.sealed = false → s.transWaits (.group c) ctx va = false → FMap.get (FMap.getD t.icache (groupOf c) []) (lineOf p.key) = some bs →
    s.fetchWord c w ctx va = (t, .word (BitVec.ofNat 64 (leWord ((bs.drop (p.key % 256)).take 8))))) ∧
  (∀ (s s0 t : State) (ns clocks lost c k : Nat) (x : Walk) (wd : Word),
    s.nextTurn = ({ ns := ns, clocks := clocks, lost := lost, act := .walk c }, s0) →
    let s1 := (s0.unstick exec).advance ns clocks lost
    let s2 := s1.modCore c (fun q => { q with sp := { q.sp with last := k } })
    s1.nextWalk c = some k → s2.walk? c k = some x → x.pc < x.plen → s2.fetchWalkWord c k x = (t, some wd) →
    step s = settled (s1.gated (.walk c) (s1.waitsFor (fun v => v.runAct exec (.walk c)))
      (exec (decodeWalk wd) { t with cur := some { agent := .walk, core := c, wave := k, lanes := 0 } }))) ∧
  (∀ (s s0 : State) (ns clocks lost c : Nat), s.nextTurn = ({ ns := ns, clocks := clocks, lost := lost, act := .jig c }, s0) →
    let s1 := (s0.unstick exec).advance ns clocks lost
    (s1.jig c).running = true → step s = settled (s1.gated (.jig c) (s1.waitsFor (fun v => v.runAct exec (.jig c)))
      (exec (decodeJig (nth (s1.jig c).prog (s1.jig c).pc 0)) { s1 with cur := some { agent := .jig, core := c, wave := 0, lanes := 0 } }))) ∧
  (∀ (s s0 : State) (ns clocks lost : Nat) (i : Instr),
    s.nextTurn = ({ ns := ns, clocks := clocks, lost := lost, act := .event i }, s0) →
    let s1 := (s0.unstick exec).advance ns clocks lost
    ((Act.event i).lanesOf = none → s1.present (.event i) = (s1, some (.event i))) ∧
    (∀ u j, s1.present (.event i) = (u, some (.event j)) →
      step s = settled (u.gated (.event j) (u.waitsFor (fun v => exec j v)) (exec j u))) ∧
    (∀ u, s1.present (.event i) = (u, none) → step s = .next u.after)) ∧
  (∀ (s t : State) (a : Act) (waits : Bool), s.requests t a = [] → t.task = none → t.missQ = [] →
    s.gated a waits (.next t) = .next t) ∧
  (∀ (s t u : State) (c w : Nat) (b : Mask) (second : Bool) (i : Instr), s.prepare c w b second = .run u i → t.blocked = false →
    s.requests t (.bundle c w b second) = u.issueReqs i) ∧
  (∀ (s : State) (i : Instr), (∀ o m k, i ≠ .trav o ∧ i ≠ .cpy o k ∧ i ≠ .cpyg o m k ∧ i ≠ .cpys o m k ∧ i ≠ .cpyq o m k ∧ i ≠ .cpyr o ∧
    i ≠ .cpyx o ∧ i ≠ .bbinit o ∧ i ≠ .bbarv o) → (∀ o t, i ≠ .bbwait o t) → s.issueReqs i = []) ∧
  (∀ (s t : State) (rs : List BankReq), (∀ u, t.enterAll (lacking rs s.asked) = some u →
      s.bank t rs = { u with asked := lacking u.asked rs }) ∧
    (t.enterAll (lacking rs s.asked) = none → s.bank t rs = s.offerReqs (lacking rs s.asked))) ∧
  (∀ (q : BankQ) (clk rank : Nat), (clk + 8 ≤ q.busy → q.admits clk rank = false) ∧
    (∀ k, q.busy < clk + 8 → q.due clk = some k → (q.admits clk rank = true ↔ k = clientOf rank)) ∧
    (q.busy < clk + 8 → q.due clk = none → (q.admits clk rank = true ↔ (q.clk = clk → q.rank ≤ rank))))

/-- R47, R53, R57, R66, R191, R320, R375, R442: words whose fields the spec prints decode to the instructions they stand for: `NOP`,
`TRAP 5`, `BRA` to three instructions before it, `SCAN.ADD.EXCL.SI32 v10, v9`, `FMAC` with its extension word, `LD.B32`, `FNC` of
COPY and LX at TEAM scope, `FMT`, `MMA`; of walks `NFETCH n0, dq2, KN7` and `BR`; of the Jig `JGADD g1, g1, 128` and `JFLAG mb0, 1`;
and a word of zeros, which is no instruction. -/
def Obligations.DecodeWords : Prop :=
  let o : Opnds := { prd := 63, pn := false, d := 0, a := 0, b := 0, ea := false, eb := false, ca := .none, cb := .none, ext := none }
  decodeSimt 0x03F0000000007840 0 = .nop o ∧
  decodeSimt 0x03F00000A00058C0 0 = .trap { o with a := 5, ca := .imm } ∧
  decodeSimt 0x07F000FFA0005800 0 = .bra { o with a := 0x7FD, ca := .imm } ∧
  decodeSimt 0x37F00A01200018C4 0 = .scan { o with d := 10, a := 9, ca := .vec } .add true .si32 ∧
  decodeSimt 0x20500700601180C1 0x3FC0000000080000 = .fmac { o with
    prd := 5, d := 7, a := 3, b := 4, eb := true, ca := .vec, cb := .vec
    ext := some { imm := 0x3FC00000, c := 0, ec := false, cc := .imm, cd := .vec, xm := 0 } } .rz ∧
  decodeSimt 0x43F0080040102010 0 = .ld { o with d := 8, a := 2, ca := .sca, b := 4, cb := .vec } .b32 .plain ∧
  decodeSimt 0x4FF000000000F810 0x00000000000F4800 = .fnc { o with
    ext := some { imm := 0, c := 0, ec := false, cc := .none, cd := .none, xm := 0x4800 } } .team ∧
  decodeSimt 0xFFF4401000000000 0 = .fmt 4 4 0 1 0 0 false 0 false ∧
  decodeSimt 0x77F0880200600000 0 = .mma { o with d := 136, a := 16, ca := .vec, b := 24, cb := .vec } false false ∧
  decodeWalk 0x00080002 = .nfetch 0 2 2 ∧ decodeWalk 0x5C003FF9 = .br 0x3FF9 ∧
  decodeJig 0x41220080 = .jgadd 1 1 (.imm 128) ∧ decodeJig 0x78020001 = .jflag 0 (.imm 1) ∧
  (∀ x, decodeSimt 0 x = .nonInstructionWord .zeroWord 0 0 none)

/-- R2, R47, R53-R61: decoding and encoding SIMT instructions agree: the words of a well-formed SIMT instruction, whatever its
operand fields, modifiers and extension word, decode to the instruction. Its base word says whether an extension word follows, and
the bytes of its words, lowest first, are read as the instruction with its length. -/
def Obligations.SimtEncodingAgrees : Prop :=
  ∀ (i : Instr) (w : DWord) (e : Option DWord), wellFormed i = true → encodeSimt i = some (w, e) →
    decodeSimt w (e.getD 0) = i ∧ hasExt w = e.isSome ∧
    decodeBytes (leBytes 8 w.toNat ++ (match e with | some x => leBytes 8 x.toNat | none => [])) =
      some (i, if e.isSome = true then 16 else 8)

/-- R65-R67, R191, R192, R320: decoding and encoding the words of walks and of the Jig agree: the word of a well-formed
instruction decodes to it; a word that decodes to an instruction is the word of that instruction, so that no other word stands for
it; and the words that are no instruction are told apart by name. -/
def Obligations.WordEncodingAgrees : Prop :=
  (∀ (i : Instr) (w : Word), wellFormed i = true → encodeWalk i = some w → decodeWalk w = i) ∧
  (∀ (i : Instr) (w : Word), wellFormed i = true → encodeJig i = some w → decodeJig w = i) ∧
  (∀ (w : Word), encodeWalk (decodeWalk w) = some w ∧
    (decodeWalk w = .walkNonInstructionWord w ∨ wellFormed (decodeWalk w) = true)) ∧
  (∀ (w : Word), encodeJig (decodeJig w) = some w ∧
    (decodeJig w = .jigNonInstructionWord w ∨ wellFormed (decodeJig w) = true))

/-! ### Reset, memory and frames -/

/-- R20-R24, R345, R414, R417, R469: after reset no program runs and the management processor has done nothing yet: the four
capability registers hold their reset values field by field, no context, launch, team, queue, ingress window or sealed region
stands, the fault ring's registers and BAR0 read 0, and both links are down. That memory reads 0 and that the clocks count from 0 is
the model's choice (log entries 3 and 4). -/
def Obligations.ResetState : Prop :=
  let s := State.reset
  s.booted = false ∧ s.cores = [] ∧ s.teams = [] ∧ s.launches = [] ∧ s.ctxs = [] ∧ s.queues = [] ∧ s.ingress = [] ∧ s.sealed = [] ∧
  (s.capFlit.extractLsb' 0 8 = 32 ∧ s.capFlit.extractLsb' 8 8 = 64 ∧ s.capFlit.extractLsb' 16 8 = 64 ∧
    s.capFlit.extractLsb' 24 8 = 8 ∧ s.capFlit.extractLsb' 32 32 = 0) ∧
  (s.capCores.extractLsb' 0 9 = 256 ∧ s.capCores.extractLsb' 9 55 = 0) ∧
  (s.capMem.extractLsb' 0 40 = 0 ∧ s.capMem.extractLsb' 40 8 = 96 ∧ s.capMem.extractLsb' 48 16 = 0) ∧ s.capLink = 0 ∧
  s.hostUp = false ∧ s.ports = [false, false] ∧
  s.fhead = 0 ∧ s.ftail = 0 ∧ s.lost = 0 ∧ (∀ i, nth s.cmd i 0 = 0 ∧ nth s.resp i 0 = 0 ∧ nth s.ierr i 0 = 0) ∧
  s.memOk ∧ (∀ a, Memory.read s.mem a = 0) ∧ s.time = 0 ∧ s.clocks = 0

/-- Every step keeps the memory's canonical form, from every state that has it: addresses rise strictly and no listed byte is one
that an unlisted address reads as. So equal memories stay equal data, whatever instruction, event or settling wrote them. The list and its
form are the model's choice for the memories of R2 and R10, which name no such form (log entries 4 and 60). -/
def Obligations.MemoryStaysCanonical : Prop :=
  ∀ (s t : State), s.memOk → step s = .next t → t.memOk

/-- R95, R265, R267, R268: a vector write gives its name the value it wrote, all-zero values included, in a register that is neither
PENDING nor poisoned, and changes the register of no other name of the core, no other core and nothing outside the cores but the
model's own record of the clock's writes (the clause does not speak of the core's other state: its directory and reuse table follow the
write). An
instruction writes its active lanes, the others keep theirs. A scalar write changes its scalars alone; a predicate write the bits of
its lanes alone. -/
def Obligations.DestinationWrites : Prop :=
  (∀ (s t : State) (c w n : Nat) (v : VReg) (y : Wave), s.wave? c w = some y → FMap.sorted (s.core c).waves = true →
    (∀ e ∈ (s.core c).waves, FMap.sorted e.2.names = true) → FMap.sorted (s.slice c (sliceOf w)).phys = true →
    s.writeVec c w n v = some t →
    ((t.vecOf c w n).data = v ∧ (t.vecOf c w n).pending = false ∧ (t.vecOf c w n).poison = false) ∧
    (∀ w' n', w' ≠ w ∨ n' ≠ n → t.vecOf c w' n' = s.vecOf c w' n') ∧
    (∀ d, d ≠ c → t.core d = s.core d) ∧ t = { s with cores := t.cores, offers := t.offers, wrote := t.wrote }) ∧
  (∀ (s t : State) (x : Iss) (act : Mask) (n : Nat) (v : VReg) (y : Wave), s.wave? x.c x.w = some y →
    FMap.sorted (s.core x.c).waves = true → (∀ e ∈ (s.core x.c).waves, FMap.sorted e.2.names = true) →
    FMap.sorted (s.slice x.c (sliceOf x.w)).phys = true → s.putVec x act [n] [v] = .ok t →
    ∀ l, l < 32 → vlane (t.vecOf x.c x.w n).data l = if act.getLsbD l then vlane v l else vlane (s.vecOf x.c x.w n).data l) ∧
  (∀ (s t : State) (x : Iss) (act : Mask) (n : Nat) (vs : List Word) (y : Wave), s.wave? x.c x.w = some y → n < 128 →
    n + vs.length ≤ y.sreg.length → s.putScalar x act n vs = .ok t →
    (∃ r, t = s.setWave x.c x.w { y with sreg := r }) ∧
    ∀ m, nth (t.now x).sreg m 0 = if n ≤ m ∧ m < n + vs.length then nth vs (m - n) 0 else nth y.sreg m 0) ∧
  (∀ (s t : State) (x : Iss) (act v : Mask) (n : Nat) (y : Wave), s.wave? x.c x.w = some y → n < y.preg.length →
    s.putPred x act n v = .ok t →
    (∃ p, t = s.setWave x.c x.w { y with preg := p }) ∧ (∀ m, m ≠ n → nth (t.now x).preg m 0 = nth y.preg m 0) ∧
    ∀ l, l < 32 → (nth (t.now x).preg n 0).getLsbD l = if act.getLsbD l then v.getLsbD l else (nth y.preg n 0).getLsbD l)

/-- R7, R48, R62, R85, R465: what retiring changes, when it brings no trap, no single step and reads no mailbox, and no `ERET` has left
the handler in its clock: of the wave, the addresses of the bundle's threads, which go to the next instruction, the active ones to their targets when the instruction names
them, and the status register, whose sticky bits 8 to 2 take the flags of the active lanes and whose prefix bit a taken prefix
clears; of the team, its progress. Every register, every other wave and team, memory and everything else keep their values. -/
def Obligations.RetireFrame : Prop :=
  (∀ (s : State) (x : Iss) (act : Mask) (o : Opnds) (pfx : Bool) (fx : Fx) (y : Wave) (T : Team), s.wave? x.c x.w = some y →
    FMap.get s.teams x.src.team = some T → fx.after = none → fx.whole = false → boxesOf o = [] → takesOf o = [] →
    s.leftHandler x = false →
    flagsOf act fx.fl &&& srEnable x.src.sr = 0 → y.stepDbg = 0 →
    srH x.src.sr = true ∨ srS y.sr = false ∨ y.stepS &&& x.lanes = 0 →
    ∃ ps rs, s.retire x act o pfx fx = { s with
        cores := FMap.set s.cores x.c { (s.core x.c) with waves := FMap.set (s.core x.c).waves x.w { y with
          pcs := ps
          resume := rs
          sr := srOr y.sr (flagsOf act fx.fl) &&& ~~~(if pfx && srPP x.src.sr then 0x20000000 else 0) } }
        teams := FMap.set s.teams x.src.team { T with
          progress := T.progress + 1
          quietSince := s.clocks
          reported := if srH x.src.sr then T.reported else [] } } ∧
      ∀ l, l < 32 →
        nth ps l 0 = (if act.getLsbD l then (match fx.goes with | some f => f l | none => x.next)
          else if x.lanes.getLsbD l then x.next else nth y.pcs l 0) ∧
        (y.dbg = none → srH y.sr = false ∨ y.handler.getLsbD l = true → nth rs l 0 = nth y.resume l 0)) ∧
  (∀ (v : Word) (f : Flags) (k : Nat), (srOr v f).getLsbD k = (v.getLsbD k || (decide (2 ≤ k) && decide (k < 9) && f.getLsbD (k - 2)))) ∧
  (∀ (act : Mask) (fl : Nat → Flags) (k : Nat),
    (flagsOf act fl).getLsbD k = true ↔ ∃ l, l < 32 ∧ act.getLsbD l = true ∧ (fl l).getLsbD k = true)
end

