-- ==== Sys2Proof/Laws/Tables.lean ====
section
/-! SUPPORT. Laws of the sparse tables and of memory: reading after a write, and the canonical form that every operation keeps. -/
namespace Sys2Proof

/-! ### Tables -/

theorem FMap.get_set {α : Type} (m : FMap α) (k j : Nat) (v : α) :
    FMap.get (FMap.set m k v) j = if j = k then some v else FMap.get m j := by
  induction m with
  | nil =>
    by_cases h : j = k
    · simp [FMap.set, FMap.get, h]
    · have : ¬ k = j := fun q => h q.symm
      simp [FMap.set, FMap.get, h, this]
  | cons e m ih =>
    obtain ⟨i, x⟩ := e
    simp only [FMap.set]
    split
    · subst_vars
      simp only [FMap.get]
      by_cases h : j = i
      · simp [h]
      · have : ¬ i = j := fun q => h q.symm
        simp [h, this]
    · split
      · simp only [FMap.get]
        by_cases h : j = k
        · simp [h]
        · have : ¬ k = j := fun q => h q.symm
          by_cases g : j < k
          · simp only [this, if_false, g, if_true, h]
            have : ¬ i = j := by omega
            have : j < i := by omega
            simp [*]
          · simp [this, g, h]
      · simp only [FMap.get]
        by_cases h : i = j
        · have : ¬ j = k := by omega
          simp [h, this]
        · simp only [h, if_false]
          by_cases g : j < i
          · have : ¬ j = k := by omega
            simp [g, this]
          · simp [g, ih]

theorem FMap.getD_set {α : Type} (m : FMap α) (k j : Nat) (v d : α) :
    FMap.getD (FMap.set m k v) j d = if j = k then v else FMap.getD m j d := by
  unfold FMap.getD
  rw [FMap.get_set]
  by_cases h : j = k <;> simp [h]

theorem FMap.set_set {α : Type} (m : FMap α) (k : Nat) (u v : α) : FMap.set (FMap.set m k u) k v = FMap.set m k v := by
  induction m with
  | nil => simp [FMap.set]
  | cons e m ih =>
    obtain ⟨i, x⟩ := e
    simp only [FMap.set]
    split
    · simp [FMap.set]
    · split
      · simp [FMap.set]
      · next h g => simp only [FMap.set, if_neg h, if_neg g, ih]

/-- Keys rise strictly: every later key is greater than the first. -/
theorem FMap.sorted_cons {α : Type} (i : Nat) (x : α) (m : FMap α) :
    FMap.sorted ((i, x) :: m) = true ↔ (∀ e ∈ m, i < e.1) ∧ FMap.sorted m = true := by
  induction m generalizing i x with
  | nil => simp [FMap.sorted]
  | cons e m ih =>
    obtain ⟨j, y⟩ := e
    simp only [FMap.sorted, Bool.and_eq_true, decide_eq_true_eq]
    rw [ih j y]
    constructor
    · rintro ⟨h, g, r⟩
      refine ⟨?_, g, r⟩
      intro e he
      rcases List.mem_cons.mp he with rfl | he
      · exact h
      · exact Nat.lt_trans h (g e he)
    · rintro ⟨h, g, r⟩
      exact ⟨h (j, y) (List.mem_cons_self ..), g, r⟩

theorem FMap.sorted_filter {α : Type} (p : Nat × α → Bool) (m : FMap α) (h : FMap.sorted m = true) :
    FMap.sorted (m.filter p) = true := by
  induction m with
  | nil => simp [FMap.sorted]
  | cons e m ih =>
    obtain ⟨i, x⟩ := e
    rw [FMap.sorted_cons] at h
    rw [List.filter_cons]
    split
    · rw [FMap.sorted_cons]
      exact ⟨fun e he => h.1 e (List.mem_filter.mp he).1, ih h.2⟩
    · exact ih h.2

/-- In a sorted table a listed entry is what its key reads as. -/
theorem FMap.get_of_mem {α : Type} (m : FMap α) (h : FMap.sorted m = true) (k : Nat) (v : α) :
    FMap.get m k = some v ↔ (k, v) ∈ m := by
  induction m with
  | nil => simp [FMap.get]
  | cons e m ih =>
    obtain ⟨i, x⟩ := e
    rw [FMap.sorted_cons] at h
    simp only [FMap.get, List.mem_cons, Prod.mk.injEq]
    by_cases g : i = k
    · subst g
      simp only [if_true, true_and]
      constructor
      · intro q; exact Or.inl (by injection q with q; exact q.symm)
      · rintro (rfl | q)
        · rfl
        · exact absurd (h.1 _ q) (Nat.lt_irrefl _)
    · have g' : ¬ k = i := fun q => g q.symm
      simp only [g, if_false, g', false_and, false_or]
      by_cases l : k < i
      · simp only [l, if_true]
        constructor
        · intro q; cases q
        · intro q; exact absurd (h.1 _ q) (by simp; omega)
      · simp only [l, if_false]
        exact ih h.2

theorem FMap.set_mem {α : Type} (m : FMap α) (k : Nat) (v : α) (e : Nat × α) (h : e ∈ FMap.set m k v) : e = (k, v) ∨ e ∈ m := by
  induction m with
  | nil => simp [FMap.set] at h; exact Or.inl h
  | cons a m ih =>
    obtain ⟨i, x⟩ := a
    simp only [FMap.set] at h
    split at h
    · rcases List.mem_cons.mp h with q | q
      · exact Or.inl q
      · exact Or.inr (List.mem_cons_of_mem _ q)
    · split at h
      · rcases List.mem_cons.mp h with q | q
        · exact Or.inl q
        · exact Or.inr q
      · rcases List.mem_cons.mp h with q | q
        · exact Or.inr (q ▸ List.mem_cons_self ..)
        · rcases ih q with q | q
          · exact Or.inl q
          · exact Or.inr (List.mem_cons_of_mem _ q)

theorem FMap.sorted_set {α : Type} (m : FMap α) (k : Nat) (v : α) (h : FMap.sorted m = true) : FMap.sorted (FMap.set m k v) = true := by
  induction m with
  | nil => simp [FMap.set, FMap.sorted]
  | cons a m ih =>
    obtain ⟨i, x⟩ := a
    have h' := h
    rw [FMap.sorted_cons] at h
    simp only [FMap.set]
    split
    · subst_vars
      rw [FMap.sorted_cons]
      exact h
    · split
      · rw [FMap.sorted_cons]
        refine ⟨?_, h'⟩
        intro e he
        rcases List.mem_cons.mp he with rfl | he
        · assumption
        · have := h.1 e he; omega
      · rw [FMap.sorted_cons]
        refine ⟨?_, ih h.2⟩
        intro e he
        rcases FMap.set_mem m k v e he with rfl | q
        · simp; omega
        · exact h.1 e q

/-! ### Memory -/

theorem Memory.read_of_wfFrom (m : Memory) (lo a : Nat) (h : Memory.wfFrom lo m = true) (l : a < lo) :
    Memory.read m a = Memory.unlisted := by
  cases m with
  | nil => rfl
  | cons e m =>
    obtain ⟨i, v⟩ := e
    simp only [Memory.wfFrom, Bool.and_eq_true, decide_eq_true_eq] at h
    have : ¬ i = a := by omega
    have : a < i := by omega
    simp [Memory.read, *]

theorem Memory.wfFrom_mono (m : Memory) (lo lo' : Nat) (h : Memory.wfFrom lo m = true) (l : lo' ≤ lo) : Memory.wfFrom lo' m = true := by
  cases m with
  | nil => rfl
  | cons e m =>
    obtain ⟨i, v⟩ := e
    simp only [Memory.wfFrom, Bool.and_eq_true, decide_eq_true_eq] at h ⊢
    exact ⟨⟨by omega, h.1.2⟩, h.2⟩

/-- A read after a write: the byte written at its address, every other byte as before. -/
theorem Memory.read_write (m : Memory) (lo a b : Nat) (v : BitVec 8) (h : Memory.wfFrom lo m = true) :
    Memory.read (Memory.write m a v) b = if b = a then v else Memory.read m b := by
  induction m generalizing lo with
  | nil =>
    by_cases e : v = Memory.unlisted
    · by_cases g : b = a <;> simp [Memory.write, Memory.read, e, g]
    · by_cases g : b = a
      · simp [Memory.write, Memory.read, e, g]
      · have : ¬ a = b := fun q => g q.symm
        simp [Memory.write, Memory.read, e, g, this]
  | cons c m ih =>
    obtain ⟨i, x⟩ := c
    have h' := h
    simp only [Memory.wfFrom, Bool.and_eq_true, decide_eq_true_eq] at h
    simp only [Memory.write]
    split
    · next q =>
      subst q
      by_cases e : v = Memory.unlisted
      · simp only [e, if_true]
        by_cases g : b = i
        · rw [if_pos g, g]; exact Memory.read_of_wfFrom m (i + 1) i h.2 (Nat.lt_succ_self i)
        · have : ¬ i = b := fun q => g q.symm
          simp only [g, if_false, Memory.read, this]
          by_cases l : b < i
          · simp only [l, if_true]; exact Memory.read_of_wfFrom m (i + 1) b h.2 (by omega)
          · simp [l]
      · simp only [e, if_false, Memory.read]
        by_cases g : b = i
        · simp [g]
        · have : ¬ i = b := fun q => g q.symm
          simp [g, this]
    · split
      · by_cases e : v = Memory.unlisted
        · simp only [e, if_true]
          by_cases g : b = a
          · rw [if_pos g]; exact Memory.read_of_wfFrom _ i b (by
              simp only [Memory.wfFrom, Bool.and_eq_true, decide_eq_true_eq]; exact ⟨⟨Nat.le_refl _, h.1.2⟩, h.2⟩) (by omega)
          · simp [g]
        · simp only [e, if_false]
          by_cases g : b = a
          · simp [Memory.read, g]
          · have : ¬ a = b := fun q => g q.symm
            rw [Memory.read]
            simp only [this, if_false, g]
            by_cases l : b < a
            · simp only [l, if_true]
              exact (Memory.read_of_wfFrom _ i b (by
                simp only [Memory.wfFrom, Bool.and_eq_true, decide_eq_true_eq]; exact ⟨⟨Nat.le_refl _, h.1.2⟩, h.2⟩) (by omega)).symm
            · simp [l]
      · simp only [Memory.read]
        by_cases g : i = b
        · have : ¬ b = a := by omega
          simp [g, this]
        · simp only [g, if_false]
          by_cases l : b < i
          · have : ¬ b = a := by omega
            simp [l, this]
          · simp only [l, if_false]
            exact ih (i + 1) h.2

/-- A write keeps the canonical form. -/
theorem Memory.wfFrom_write (m : Memory) (lo a : Nat) (v : BitVec 8) (h : Memory.wfFrom lo m = true) (l : lo ≤ a) :
    Memory.wfFrom lo (Memory.write m a v) = true := by
  induction m generalizing lo with
  | nil =>
    by_cases e : v = Memory.unlisted <;> simp [Memory.write, Memory.wfFrom, e, l]
  | cons c m ih =>
    obtain ⟨i, x⟩ := c
    simp only [Memory.wfFrom, Bool.and_eq_true, decide_eq_true_eq] at h
    simp only [Memory.write]
    split
    · split
      · exact Memory.wfFrom_mono m (i + 1) lo h.2 (by omega)
      · simp only [Memory.wfFrom, Bool.and_eq_true, decide_eq_true_eq]
        subst_vars
        exact ⟨⟨l, by assumption⟩, h.2⟩
    · split
      · split
        · simp only [Memory.wfFrom, Bool.and_eq_true, decide_eq_true_eq]; exact h
        · simp only [Memory.wfFrom, Bool.and_eq_true, decide_eq_true_eq]
          exact ⟨⟨l, by assumption⟩, ⟨by omega, h.1.2⟩, h.2⟩
      · simp only [Memory.wfFrom, Bool.and_eq_true, decide_eq_true_eq]
        exact ⟨h.1, ih (i + 1) h.2 (by omega)⟩

theorem Memory.wf_write (m : Memory) (a : Nat) (v : BitVec 8) (h : Memory.wf m = true) : Memory.wf (Memory.write m a v) = true :=
  Memory.wfFrom_write m 0 a v h (Nat.zero_le a)

theorem Memory.wf_writeBytes (m : Memory) (a : Nat) (bs : List (BitVec 8)) (h : Memory.wf m = true) :
    Memory.wf (Memory.writeBytes m a bs) = true := by
  induction bs generalizing m a with
  | nil => exact h
  | cons b bs ih => exact ih _ _ (Memory.wf_write m a b h)

theorem Memory.wfFrom_filter (m : Memory) (p : Host.Cell → Bool) (lo : Nat) (h : Memory.wfFrom lo m = true) :
    Memory.wfFrom lo (m.filter p) = true := by
  induction m generalizing lo with
  | nil => rfl
  | cons c m ih =>
    obtain ⟨i, x⟩ := c
    simp only [Memory.wfFrom, Bool.and_eq_true, decide_eq_true_eq] at h
    rw [List.filter_cons]
    split
    · simp only [Memory.wfFrom, Bool.and_eq_true, decide_eq_true_eq]
      exact ⟨h.1, ih (i + 1) h.2⟩
    · exact Memory.wfFrom_mono _ (i + 1) lo (ih (i + 1) h.2) (by omega)

theorem Memory.wf_filter (m : Memory) (p : Host.Cell → Bool) (h : Memory.wf m = true) : Memory.wf (m.filter p) = true :=
  Memory.wfFrom_filter m p 0 h

theorem Memory.wf_zero (m : Memory) (a n : Nat) (h : Memory.wf m = true) : Memory.wf (Memory.zero m a n) = true :=
  Memory.wf_filter m _ h

/-- The bytes that a run of writes changes, and no other. -/
theorem Memory.read_writeBytes (m : Memory) (a b : Nat) (bs : List (BitVec 8)) (h : Memory.wf m = true) :
    Memory.read (Memory.writeBytes m a bs) b = if a ≤ b ∧ b < a + bs.length then nth bs (b - a) 0 else Memory.read m b := by
  induction bs generalizing m a with
  | nil =>
    have : ¬ (a ≤ b ∧ b < a + 0) := by omega
    rw [Memory.writeBytes, List.length_nil, if_neg this]
  | cons x bs ih =>
    rw [Memory.writeBytes, ih _ _ (Memory.wf_write m a x h), Memory.read_write m 0 a b x h, List.length_cons]
    by_cases e : b = a
    · subst e
      have g : b ≤ b ∧ b < b + (bs.length + 1) := by omega
      simp [g, nth]
    · by_cases g : a + 1 ≤ b ∧ b < a + 1 + bs.length
      · have g' : a ≤ b ∧ b < a + (bs.length + 1) := by omega
        rw [if_pos g, if_pos g']
        obtain ⟨k, rfl⟩ : ∃ k, b = a + 1 + k := ⟨b - (a + 1), by omega⟩
        have e1 : a + 1 + k - (a + 1) = k := by omega
        have e2 : a + 1 + k - a = k + 1 := by omega
        simp [e1, e2, nth]
      · have g' : ¬ (a ≤ b ∧ b < a + (bs.length + 1)) := by omega
        rw [if_neg g, if_neg e, if_neg g']

end Sys2Proof
end

