-- ==== Sys2Proof/Laws/State.lean ====
section
/-! SUPPORT. One lemma for each field of `State` and each of the updates that change only cores, teams, launches or contexts, and what
those updates change. -/
namespace Sys2Proof.Machine


/-! ### `setCore` leaves every field but `cores` -/

@[simp] theorem setCore_teams (s : State) (c : Nat) (x : Core) : (s.setCore c x).teams = s.teams := rfl
@[simp] theorem setCore_launches (s : State) (c : Nat) (x : Core) : (s.setCore c x).launches = s.launches := rfl
@[simp] theorem setCore_checks (s : State) (c : Nat) (x : Core) : (s.setCore c x).checks = s.checks := rfl
@[simp] theorem setCore_pending (s : State) (c : Nat) (x : Core) : (s.setCore c x).pending = s.pending := rfl
@[simp] theorem setCore_lastCore (s : State) (c : Nat) (x : Core) : (s.setCore c x).lastCore = s.lastCore := rfl
@[simp] theorem setCore_mem (s : State) (c : Nat) (x : Core) : (s.setCore c x).mem = s.mem := rfl
@[simp] theorem setCore_tags (s : State) (c : Nat) (x : Core) : (s.setCore c x).tags = s.tags := rfl
@[simp] theorem setCore_l2 (s : State) (c : Nat) (x : Core) : (s.setCore c x).l2 = s.l2 := rfl
@[simp] theorem setCore_ncache (s : State) (c : Nat) (x : Core) : (s.setCore c x).ncache = s.ncache := rfl
@[simp] theorem setCore_attrs (s : State) (c : Nat) (x : Core) : (s.setCore c x).attrs = s.attrs := rfl
@[simp] theorem setCore_notes (s : State) (c : Nat) (x : Core) : (s.setCore c x).notes = s.notes := rfl
@[simp] theorem setCore_tlb (s : State) (c : Nat) (x : Core) : (s.setCore c x).tlb = s.tlb := rfl
@[simp] theorem setCore_gtlb (s : State) (c : Nat) (x : Core) : (s.setCore c x).gtlb = s.gtlb := rfl
@[simp] theorem setCore_icache (s : State) (c : Nat) (x : Core) : (s.setCore c x).icache = s.icache := rfl
@[simp] theorem setCore_imiss (s : State) (c : Nat) (x : Core) : (s.setCore c x).imiss = s.imiss := rfl
@[simp] theorem setCore_waiters (s : State) (c : Nat) (x : Core) : (s.setCore c x).waiters = s.waiters := rfl
@[simp] theorem setCore_queues (s : State) (c : Nat) (x : Core) : (s.setCore c x).queues = s.queues := rfl
@[simp] theorem setCore_ctxs (s : State) (c : Nat) (x : Core) : (s.setCore c x).ctxs = s.ctxs := rfl
@[simp] theorem setCore_deposits (s : State) (c : Nat) (x : Core) : (s.setCore c x).deposits = s.deposits := rfl
@[simp] theorem setCore_outbox (s : State) (c : Nat) (x : Core) : (s.setCore c x).outbox = s.outbox := rfl
@[simp] theorem setCore_handoffUsed (s : State) (c : Nat) (x : Core) : (s.setCore c x).handoffUsed = s.handoffUsed := rfl
@[simp] theorem setCore_faultBase (s : State) (c : Nat) (x : Core) : (s.setCore c x).faultBase = s.faultBase := rfl
@[simp] theorem setCore_faultCount (s : State) (c : Nat) (x : Core) : (s.setCore c x).faultCount = s.faultCount := rfl
@[simp] theorem setCore_fhead (s : State) (c : Nat) (x : Core) : (s.setCore c x).fhead = s.fhead := rfl
@[simp] theorem setCore_ftail (s : State) (c : Nat) (x : Core) : (s.setCore c x).ftail = s.ftail := rfl
@[simp] theorem setCore_lost (s : State) (c : Nat) (x : Core) : (s.setCore c x).lost = s.lost := rfl
@[simp] theorem setCore_fid (s : State) (c : Nat) (x : Core) : (s.setCore c x).fid = s.fid := rfl
@[simp] theorem setCore_heldFaults (s : State) (c : Nat) (x : Core) : (s.setCore c x).heldFaults = s.heldFaults := rfl
@[simp] theorem setCore_faultWait (s : State) (c : Nat) (x : Core) : (s.setCore c x).faultWait = s.faultWait := rfl
@[simp] theorem setCore_recWait (s : State) (c : Nat) (x : Core) : (s.setCore c x).recWait = s.recWait := rfl
@[simp] theorem setCore_takeUps (s : State) (c : Nat) (x : Core) : (s.setCore c x).takeUps = s.takeUps := rfl
@[simp] theorem setCore_outside (s : State) (c : Nat) (x : Core) : (s.setCore c x).outside = s.outside := rfl
@[simp] theorem setCore_cmd (s : State) (c : Nat) (x : Core) : (s.setCore c x).cmd = s.cmd := rfl
@[simp] theorem setCore_resp (s : State) (c : Nat) (x : Core) : (s.setCore c x).resp = s.resp := rfl
@[simp] theorem setCore_ierr (s : State) (c : Nat) (x : Core) : (s.setCore c x).ierr = s.ierr := rfl
@[simp] theorem setCore_msix (s : State) (c : Nat) (x : Core) : (s.setCore c x).msix = s.msix := rfl
@[simp] theorem setCore_hostGot (s : State) (c : Nat) (x : Core) : (s.setCore c x).hostGot = s.hostGot := rfl
@[simp] theorem setCore_ingress (s : State) (c : Nat) (x : Core) : (s.setCore c x).ingress = s.ingress := rfl
@[simp] theorem setCore_sealed (s : State) (c : Nat) (x : Core) : (s.setCore c x).sealed = s.sealed := rfl
@[simp] theorem setCore_verified (s : State) (c : Nat) (x : Core) : (s.setCore c x).verified = s.verified := rfl
@[simp] theorem setCore_badPages (s : State) (c : Nat) (x : Core) : (s.setCore c x).badPages = s.badPages := rfl
@[simp] theorem setCore_measure (s : State) (c : Nat) (x : Core) : (s.setCore c x).measure = s.measure := rfl
@[simp] theorem setCore_fwA (s : State) (c : Nat) (x : Core) : (s.setCore c x).fwA = s.fwA := rfl
@[simp] theorem setCore_fwB (s : State) (c : Nat) (x : Core) : (s.setCore c x).fwB = s.fwB := rfl
@[simp] theorem setCore_running (s : State) (c : Nat) (x : Core) : (s.setCore c x).running = s.running := rfl
@[simp] theorem setCore_active (s : State) (c : Nat) (x : Core) : (s.setCore c x).active = s.active := rfl
@[simp] theorem setCore_capFlit (s : State) (c : Nat) (x : Core) : (s.setCore c x).capFlit = s.capFlit := rfl
@[simp] theorem setCore_capCores (s : State) (c : Nat) (x : Core) : (s.setCore c x).capCores = s.capCores := rfl
@[simp] theorem setCore_capMem (s : State) (c : Nat) (x : Core) : (s.setCore c x).capMem = s.capMem := rfl
@[simp] theorem setCore_capLink (s : State) (c : Nat) (x : Core) : (s.setCore c x).capLink = s.capLink := rfl
@[simp] theorem setCore_capLinkHeld (s : State) (c : Nat) (x : Core) : (s.setCore c x).capLinkHeld = s.capLinkHeld := rfl
@[simp] theorem setCore_time (s : State) (c : Nat) (x : Core) : (s.setCore c x).time = s.time := rfl
@[simp] theorem setCore_clocks (s : State) (c : Nat) (x : Core) : (s.setCore c x).clocks = s.clocks := rfl
@[simp] theorem setCore_ports (s : State) (c : Nat) (x : Core) : (s.setCore c x).ports = s.ports := rfl
@[simp] theorem setCore_partnerPairs (s : State) (c : Nat) (x : Core) : (s.setCore c x).partnerPairs = s.partnerPairs := rfl
@[simp] theorem setCore_hostUp (s : State) (c : Nat) (x : Core) : (s.setCore c x).hostUp = s.hostUp := rfl
@[simp] theorem setCore_hostDownSince (s : State) (c : Nat) (x : Core) : (s.setCore c x).hostDownSince = s.hostDownSince := rfl
@[simp] theorem setCore_singleBit (s : State) (c : Nat) (x : Core) : (s.setCore c x).singleBit = s.singleBit := rfl
@[simp] theorem setCore_doubleBit (s : State) (c : Nat) (x : Core) : (s.setCore c x).doubleBit = s.doubleBit := rfl
@[simp] theorem setCore_droppedWb (s : State) (c : Nat) (x : Core) : (s.setCore c x).droppedWb = s.droppedWb := rfl
@[simp] theorem setCore_mhz (s : State) (c : Nat) (x : Core) : (s.setCore c x).mhz = s.mhz := rfl
@[simp] theorem setCore_watts (s : State) (c : Nat) (x : Core) : (s.setCore c x).watts = s.watts := rfl
@[simp] theorem setCore_powerLimit (s : State) (c : Nat) (x : Core) : (s.setCore c x).powerLimit = s.powerLimit := rfl
@[simp] theorem setCore_droop (s : State) (c : Nat) (x : Core) : (s.setCore c x).droop = s.droop := rfl
@[simp] theorem setCore_channels (s : State) (c : Nat) (x : Core) : (s.setCore c x).channels = s.channels := rfl
@[simp] theorem setCore_badChannels (s : State) (c : Nat) (x : Core) : (s.setCore c x).badChannels = s.badChannels := rfl
@[simp] theorem setCore_quietExp (s : State) (c : Nat) (x : Core) : (s.setCore c x).quietExp = s.quietExp := rfl
@[simp] theorem setCore_armed (s : State) (c : Nat) (x : Core) : (s.setCore c x).armed = s.armed := rfl
@[simp] theorem setCore_bkpts (s : State) (c : Nat) (x : Core) : (s.setCore c x).bkpts = s.bkpts := rfl
@[simp] theorem setCore_watches (s : State) (c : Nat) (x : Core) : (s.setCore c x).watches = s.watches := rfl
@[simp] theorem setCore_trace (s : State) (c : Nat) (x : Core) : (s.setCore c x).trace = s.trace := rfl
@[simp] theorem setCore_booted (s : State) (c : Nat) (x : Core) : (s.setCore c x).booted = s.booted := rfl
@[simp] theorem setCore_bootStep (s : State) (c : Nat) (x : Core) : (s.setCore c x).bootStep = s.bootStep := rfl
@[simp] theorem setCore_task (s : State) (c : Nat) (x : Core) : (s.setCore c x).task = s.task := rfl
@[simp] theorem setCore_agenda (s : State) (c : Nat) (x : Core) : (s.setCore c x).agenda = s.agenda := rfl
@[simp] theorem setCore_turns (s : State) (c : Nat) (x : Core) : (s.setCore c x).turns = s.turns := rfl
@[simp] theorem setCore_cur (s : State) (c : Nat) (x : Core) : (s.setCore c x).cur = s.cur := rfl
@[simp] theorem setCore_snap (s : State) (c : Nat) (x : Core) : (s.setCore c x).snap = s.snap := rfl
@[simp] theorem setCore_twin (s : State) (c : Nat) (x : Core) : (s.setCore c x).twin = s.twin := rfl
@[simp] theorem setCore_offers (s : State) (c : Nat) (x : Core) : (s.setCore c x).offers = s.offers := rfl
@[simp] theorem setCore_wrote (s : State) (c : Nat) (x : Core) : (s.setCore c x).wrote = s.wrote := rfl
@[simp] theorem setCore_missQ (s : State) (c : Nat) (x : Core) : (s.setCore c x).missQ = s.missQ := rfl
@[simp] theorem setCore_asked (s : State) (c : Nat) (x : Core) : (s.setCore c x).asked = s.asked := rfl
@[simp] theorem setCore_blocked (s : State) (c : Nat) (x : Core) : (s.setCore c x).blocked = s.blocked := rfl
@[simp] theorem setCore_fresh (s : State) (c : Nat) (x : Core) : (s.setCore c x).fresh = s.fresh := rfl
@[simp] theorem setCore_freeCount (s : State) (c : Nat) (x : Core) : (s.setCore c x).freeCount = s.freeCount := rfl

/-! ### `modCore` leaves every field but `cores` -/

@[simp] theorem modCore_teams (s : State) (c : Nat) (f : Core → Core) : (s.modCore c f).teams = s.teams := rfl
@[simp] theorem modCore_launches (s : State) (c : Nat) (f : Core → Core) : (s.modCore c f).launches = s.launches := rfl
@[simp] theorem modCore_checks (s : State) (c : Nat) (f : Core → Core) : (s.modCore c f).checks = s.checks := rfl
@[simp] theorem modCore_pending (s : State) (c : Nat) (f : Core → Core) : (s.modCore c f).pending = s.pending := rfl
@[simp] theorem modCore_lastCore (s : State) (c : Nat) (f : Core → Core) : (s.modCore c f).lastCore = s.lastCore := rfl
@[simp] theorem modCore_mem (s : State) (c : Nat) (f : Core → Core) : (s.modCore c f).mem = s.mem := rfl
@[simp] theorem modCore_tags (s : State) (c : Nat) (f : Core → Core) : (s.modCore c f).tags = s.tags := rfl
@[simp] theorem modCore_l2 (s : State) (c : Nat) (f : Core → Core) : (s.modCore c f).l2 = s.l2 := rfl
@[simp] theorem modCore_ncache (s : State) (c : Nat) (f : Core → Core) : (s.modCore c f).ncache = s.ncache := rfl
@[simp] theorem modCore_attrs (s : State) (c : Nat) (f : Core → Core) : (s.modCore c f).attrs = s.attrs := rfl
@[simp] theorem modCore_notes (s : State) (c : Nat) (f : Core → Core) : (s.modCore c f).notes = s.notes := rfl
@[simp] theorem modCore_tlb (s : State) (c : Nat) (f : Core → Core) : (s.modCore c f).tlb = s.tlb := rfl
@[simp] theorem modCore_gtlb (s : State) (c : Nat) (f : Core → Core) : (s.modCore c f).gtlb = s.gtlb := rfl
@[simp] theorem modCore_icache (s : State) (c : Nat) (f : Core → Core) : (s.modCore c f).icache = s.icache := rfl
@[simp] theorem modCore_imiss (s : State) (c : Nat) (f : Core → Core) : (s.modCore c f).imiss = s.imiss := rfl
@[simp] theorem modCore_waiters (s : State) (c : Nat) (f : Core → Core) : (s.modCore c f).waiters = s.waiters := rfl
@[simp] theorem modCore_queues (s : State) (c : Nat) (f : Core → Core) : (s.modCore c f).queues = s.queues := rfl
@[simp] theorem modCore_ctxs (s : State) (c : Nat) (f : Core → Core) : (s.modCore c f).ctxs = s.ctxs := rfl
@[simp] theorem modCore_deposits (s : State) (c : Nat) (f : Core → Core) : (s.modCore c f).deposits = s.deposits := rfl
@[simp] theorem modCore_outbox (s : State) (c : Nat) (f : Core → Core) : (s.modCore c f).outbox = s.outbox := rfl
@[simp] theorem modCore_handoffUsed (s : State) (c : Nat) (f : Core → Core) : (s.modCore c f).handoffUsed = s.handoffUsed := rfl
@[simp] theorem modCore_faultBase (s : State) (c : Nat) (f : Core → Core) : (s.modCore c f).faultBase = s.faultBase := rfl
@[simp] theorem modCore_faultCount (s : State) (c : Nat) (f : Core → Core) : (s.modCore c f).faultCount = s.faultCount := rfl
@[simp] theorem modCore_fhead (s : State) (c : Nat) (f : Core → Core) : (s.modCore c f).fhead = s.fhead := rfl
@[simp] theorem modCore_ftail (s : State) (c : Nat) (f : Core → Core) : (s.modCore c f).ftail = s.ftail := rfl
@[simp] theorem modCore_lost (s : State) (c : Nat) (f : Core → Core) : (s.modCore c f).lost = s.lost := rfl
@[simp] theorem modCore_fid (s : State) (c : Nat) (f : Core → Core) : (s.modCore c f).fid = s.fid := rfl
@[simp] theorem modCore_heldFaults (s : State) (c : Nat) (f : Core → Core) : (s.modCore c f).heldFaults = s.heldFaults := rfl
@[simp] theorem modCore_faultWait (s : State) (c : Nat) (f : Core → Core) : (s.modCore c f).faultWait = s.faultWait := rfl
@[simp] theorem modCore_recWait (s : State) (c : Nat) (f : Core → Core) : (s.modCore c f).recWait = s.recWait := rfl
@[simp] theorem modCore_takeUps (s : State) (c : Nat) (f : Core → Core) : (s.modCore c f).takeUps = s.takeUps := rfl
@[simp] theorem modCore_outside (s : State) (c : Nat) (f : Core → Core) : (s.modCore c f).outside = s.outside := rfl
@[simp] theorem modCore_cmd (s : State) (c : Nat) (f : Core → Core) : (s.modCore c f).cmd = s.cmd := rfl
@[simp] theorem modCore_resp (s : State) (c : Nat) (f : Core → Core) : (s.modCore c f).resp = s.resp := rfl
@[simp] theorem modCore_ierr (s : State) (c : Nat) (f : Core → Core) : (s.modCore c f).ierr = s.ierr := rfl
@[simp] theorem modCore_msix (s : State) (c : Nat) (f : Core → Core) : (s.modCore c f).msix = s.msix := rfl
@[simp] theorem modCore_hostGot (s : State) (c : Nat) (f : Core → Core) : (s.modCore c f).hostGot = s.hostGot := rfl
@[simp] theorem modCore_ingress (s : State) (c : Nat) (f : Core → Core) : (s.modCore c f).ingress = s.ingress := rfl
@[simp] theorem modCore_sealed (s : State) (c : Nat) (f : Core → Core) : (s.modCore c f).sealed = s.sealed := rfl
@[simp] theorem modCore_verified (s : State) (c : Nat) (f : Core → Core) : (s.modCore c f).verified = s.verified := rfl
@[simp] theorem modCore_badPages (s : State) (c : Nat) (f : Core → Core) : (s.modCore c f).badPages = s.badPages := rfl
@[simp] theorem modCore_measure (s : State) (c : Nat) (f : Core → Core) : (s.modCore c f).measure = s.measure := rfl
@[simp] theorem modCore_fwA (s : State) (c : Nat) (f : Core → Core) : (s.modCore c f).fwA = s.fwA := rfl
@[simp] theorem modCore_fwB (s : State) (c : Nat) (f : Core → Core) : (s.modCore c f).fwB = s.fwB := rfl
@[simp] theorem modCore_running (s : State) (c : Nat) (f : Core → Core) : (s.modCore c f).running = s.running := rfl
@[simp] theorem modCore_active (s : State) (c : Nat) (f : Core → Core) : (s.modCore c f).active = s.active := rfl
@[simp] theorem modCore_capFlit (s : State) (c : Nat) (f : Core → Core) : (s.modCore c f).capFlit = s.capFlit := rfl
@[simp] theorem modCore_capCores (s : State) (c : Nat) (f : Core → Core) : (s.modCore c f).capCores = s.capCores := rfl
@[simp] theorem modCore_capMem (s : State) (c : Nat) (f : Core → Core) : (s.modCore c f).capMem = s.capMem := rfl
@[simp] theorem modCore_capLink (s : State) (c : Nat) (f : Core → Core) : (s.modCore c f).capLink = s.capLink := rfl
@[simp] theorem modCore_capLinkHeld (s : State) (c : Nat) (f : Core → Core) : (s.modCore c f).capLinkHeld = s.capLinkHeld := rfl
@[simp] theorem modCore_time (s : State) (c : Nat) (f : Core → Core) : (s.modCore c f).time = s.time := rfl
@[simp] theorem modCore_clocks (s : State) (c : Nat) (f : Core → Core) : (s.modCore c f).clocks = s.clocks := rfl
@[simp] theorem modCore_ports (s : State) (c : Nat) (f : Core → Core) : (s.modCore c f).ports = s.ports := rfl
@[simp] theorem modCore_partnerPairs (s : State) (c : Nat) (f : Core → Core) : (s.modCore c f).partnerPairs = s.partnerPairs := rfl
@[simp] theorem modCore_hostUp (s : State) (c : Nat) (f : Core → Core) : (s.modCore c f).hostUp = s.hostUp := rfl
@[simp] theorem modCore_hostDownSince (s : State) (c : Nat) (f : Core → Core) : (s.modCore c f).hostDownSince = s.hostDownSince := rfl
@[simp] theorem modCore_singleBit (s : State) (c : Nat) (f : Core → Core) : (s.modCore c f).singleBit = s.singleBit := rfl
@[simp] theorem modCore_doubleBit (s : State) (c : Nat) (f : Core → Core) : (s.modCore c f).doubleBit = s.doubleBit := rfl
@[simp] theorem modCore_droppedWb (s : State) (c : Nat) (f : Core → Core) : (s.modCore c f).droppedWb = s.droppedWb := rfl
@[simp] theorem modCore_mhz (s : State) (c : Nat) (f : Core → Core) : (s.modCore c f).mhz = s.mhz := rfl
@[simp] theorem modCore_watts (s : State) (c : Nat) (f : Core → Core) : (s.modCore c f).watts = s.watts := rfl
@[simp] theorem modCore_powerLimit (s : State) (c : Nat) (f : Core → Core) : (s.modCore c f).powerLimit = s.powerLimit := rfl
@[simp] theorem modCore_droop (s : State) (c : Nat) (f : Core → Core) : (s.modCore c f).droop = s.droop := rfl
@[simp] theorem modCore_channels (s : State) (c : Nat) (f : Core → Core) : (s.modCore c f).channels = s.channels := rfl
@[simp] theorem modCore_badChannels (s : State) (c : Nat) (f : Core → Core) : (s.modCore c f).badChannels = s.badChannels := rfl
@[simp] theorem modCore_quietExp (s : State) (c : Nat) (f : Core → Core) : (s.modCore c f).quietExp = s.quietExp := rfl
@[simp] theorem modCore_armed (s : State) (c : Nat) (f : Core → Core) : (s.modCore c f).armed = s.armed := rfl
@[simp] theorem modCore_bkpts (s : State) (c : Nat) (f : Core → Core) : (s.modCore c f).bkpts = s.bkpts := rfl
@[simp] theorem modCore_watches (s : State) (c : Nat) (f : Core → Core) : (s.modCore c f).watches = s.watches := rfl
@[simp] theorem modCore_trace (s : State) (c : Nat) (f : Core → Core) : (s.modCore c f).trace = s.trace := rfl
@[simp] theorem modCore_booted (s : State) (c : Nat) (f : Core → Core) : (s.modCore c f).booted = s.booted := rfl
@[simp] theorem modCore_bootStep (s : State) (c : Nat) (f : Core → Core) : (s.modCore c f).bootStep = s.bootStep := rfl
@[simp] theorem modCore_task (s : State) (c : Nat) (f : Core → Core) : (s.modCore c f).task = s.task := rfl
@[simp] theorem modCore_agenda (s : State) (c : Nat) (f : Core → Core) : (s.modCore c f).agenda = s.agenda := rfl
@[simp] theorem modCore_turns (s : State) (c : Nat) (f : Core → Core) : (s.modCore c f).turns = s.turns := rfl
@[simp] theorem modCore_cur (s : State) (c : Nat) (f : Core → Core) : (s.modCore c f).cur = s.cur := rfl
@[simp] theorem modCore_snap (s : State) (c : Nat) (f : Core → Core) : (s.modCore c f).snap = s.snap := rfl
@[simp] theorem modCore_twin (s : State) (c : Nat) (f : Core → Core) : (s.modCore c f).twin = s.twin := rfl
@[simp] theorem modCore_offers (s : State) (c : Nat) (f : Core → Core) : (s.modCore c f).offers = s.offers := rfl
@[simp] theorem modCore_wrote (s : State) (c : Nat) (f : Core → Core) : (s.modCore c f).wrote = s.wrote := rfl
@[simp] theorem modCore_missQ (s : State) (c : Nat) (f : Core → Core) : (s.modCore c f).missQ = s.missQ := rfl
@[simp] theorem modCore_asked (s : State) (c : Nat) (f : Core → Core) : (s.modCore c f).asked = s.asked := rfl
@[simp] theorem modCore_blocked (s : State) (c : Nat) (f : Core → Core) : (s.modCore c f).blocked = s.blocked := rfl
@[simp] theorem modCore_fresh (s : State) (c : Nat) (f : Core → Core) : (s.modCore c f).fresh = s.fresh := rfl
@[simp] theorem modCore_freeCount (s : State) (c : Nat) (f : Core → Core) : (s.modCore c f).freeCount = s.freeCount := rfl

/-! ### `setWave` leaves every field but `cores` -/

@[simp] theorem setWave_teams (s : State) (c w : Nat) (x : Wave) : (s.setWave c w x).teams = s.teams := rfl
@[simp] theorem setWave_launches (s : State) (c w : Nat) (x : Wave) : (s.setWave c w x).launches = s.launches := rfl
@[simp] theorem setWave_checks (s : State) (c w : Nat) (x : Wave) : (s.setWave c w x).checks = s.checks := rfl
@[simp] theorem setWave_pending (s : State) (c w : Nat) (x : Wave) : (s.setWave c w x).pending = s.pending := rfl
@[simp] theorem setWave_lastCore (s : State) (c w : Nat) (x : Wave) : (s.setWave c w x).lastCore = s.lastCore := rfl
@[simp] theorem setWave_mem (s : State) (c w : Nat) (x : Wave) : (s.setWave c w x).mem = s.mem := rfl
@[simp] theorem setWave_tags (s : State) (c w : Nat) (x : Wave) : (s.setWave c w x).tags = s.tags := rfl
@[simp] theorem setWave_l2 (s : State) (c w : Nat) (x : Wave) : (s.setWave c w x).l2 = s.l2 := rfl
@[simp] theorem setWave_ncache (s : State) (c w : Nat) (x : Wave) : (s.setWave c w x).ncache = s.ncache := rfl
@[simp] theorem setWave_attrs (s : State) (c w : Nat) (x : Wave) : (s.setWave c w x).attrs = s.attrs := rfl
@[simp] theorem setWave_notes (s : State) (c w : Nat) (x : Wave) : (s.setWave c w x).notes = s.notes := rfl
@[simp] theorem setWave_tlb (s : State) (c w : Nat) (x : Wave) : (s.setWave c w x).tlb = s.tlb := rfl
@[simp] theorem setWave_gtlb (s : State) (c w : Nat) (x : Wave) : (s.setWave c w x).gtlb = s.gtlb := rfl
@[simp] theorem setWave_icache (s : State) (c w : Nat) (x : Wave) : (s.setWave c w x).icache = s.icache := rfl
@[simp] theorem setWave_imiss (s : State) (c w : Nat) (x : Wave) : (s.setWave c w x).imiss = s.imiss := rfl
@[simp] theorem setWave_waiters (s : State) (c w : Nat) (x : Wave) : (s.setWave c w x).waiters = s.waiters := rfl
@[simp] theorem setWave_queues (s : State) (c w : Nat) (x : Wave) : (s.setWave c w x).queues = s.queues := rfl
@[simp] theorem setWave_ctxs (s : State) (c w : Nat) (x : Wave) : (s.setWave c w x).ctxs = s.ctxs := rfl
@[simp] theorem setWave_deposits (s : State) (c w : Nat) (x : Wave) : (s.setWave c w x).deposits = s.deposits := rfl
@[simp] theorem setWave_outbox (s : State) (c w : Nat) (x : Wave) : (s.setWave c w x).outbox = s.outbox := rfl
@[simp] theorem setWave_handoffUsed (s : State) (c w : Nat) (x : Wave) : (s.setWave c w x).handoffUsed = s.handoffUsed := rfl
@[simp] theorem setWave_faultBase (s : State) (c w : Nat) (x : Wave) : (s.setWave c w x).faultBase = s.faultBase := rfl
@[simp] theorem setWave_faultCount (s : State) (c w : Nat) (x : Wave) : (s.setWave c w x).faultCount = s.faultCount := rfl
@[simp] theorem setWave_fhead (s : State) (c w : Nat) (x : Wave) : (s.setWave c w x).fhead = s.fhead := rfl
@[simp] theorem setWave_ftail (s : State) (c w : Nat) (x : Wave) : (s.setWave c w x).ftail = s.ftail := rfl
@[simp] theorem setWave_lost (s : State) (c w : Nat) (x : Wave) : (s.setWave c w x).lost = s.lost := rfl
@[simp] theorem setWave_fid (s : State) (c w : Nat) (x : Wave) : (s.setWave c w x).fid = s.fid := rfl
@[simp] theorem setWave_heldFaults (s : State) (c w : Nat) (x : Wave) : (s.setWave c w x).heldFaults = s.heldFaults := rfl
@[simp] theorem setWave_faultWait (s : State) (c w : Nat) (x : Wave) : (s.setWave c w x).faultWait = s.faultWait := rfl
@[simp] theorem setWave_recWait (s : State) (c w : Nat) (x : Wave) : (s.setWave c w x).recWait = s.recWait := rfl
@[simp] theorem setWave_takeUps (s : State) (c w : Nat) (x : Wave) : (s.setWave c w x).takeUps = s.takeUps := rfl
@[simp] theorem setWave_outside (s : State) (c w : Nat) (x : Wave) : (s.setWave c w x).outside = s.outside := rfl
@[simp] theorem setWave_cmd (s : State) (c w : Nat) (x : Wave) : (s.setWave c w x).cmd = s.cmd := rfl
@[simp] theorem setWave_resp (s : State) (c w : Nat) (x : Wave) : (s.setWave c w x).resp = s.resp := rfl
@[simp] theorem setWave_ierr (s : State) (c w : Nat) (x : Wave) : (s.setWave c w x).ierr = s.ierr := rfl
@[simp] theorem setWave_msix (s : State) (c w : Nat) (x : Wave) : (s.setWave c w x).msix = s.msix := rfl
@[simp] theorem setWave_hostGot (s : State) (c w : Nat) (x : Wave) : (s.setWave c w x).hostGot = s.hostGot := rfl
@[simp] theorem setWave_ingress (s : State) (c w : Nat) (x : Wave) : (s.setWave c w x).ingress = s.ingress := rfl
@[simp] theorem setWave_sealed (s : State) (c w : Nat) (x : Wave) : (s.setWave c w x).sealed = s.sealed := rfl
@[simp] theorem setWave_verified (s : State) (c w : Nat) (x : Wave) : (s.setWave c w x).verified = s.verified := rfl
@[simp] theorem setWave_badPages (s : State) (c w : Nat) (x : Wave) : (s.setWave c w x).badPages = s.badPages := rfl
@[simp] theorem setWave_measure (s : State) (c w : Nat) (x : Wave) : (s.setWave c w x).measure = s.measure := rfl
@[simp] theorem setWave_fwA (s : State) (c w : Nat) (x : Wave) : (s.setWave c w x).fwA = s.fwA := rfl
@[simp] theorem setWave_fwB (s : State) (c w : Nat) (x : Wave) : (s.setWave c w x).fwB = s.fwB := rfl
@[simp] theorem setWave_running (s : State) (c w : Nat) (x : Wave) : (s.setWave c w x).running = s.running := rfl
@[simp] theorem setWave_active (s : State) (c w : Nat) (x : Wave) : (s.setWave c w x).active = s.active := rfl
@[simp] theorem setWave_capFlit (s : State) (c w : Nat) (x : Wave) : (s.setWave c w x).capFlit = s.capFlit := rfl
@[simp] theorem setWave_capCores (s : State) (c w : Nat) (x : Wave) : (s.setWave c w x).capCores = s.capCores := rfl
@[simp] theorem setWave_capMem (s : State) (c w : Nat) (x : Wave) : (s.setWave c w x).capMem = s.capMem := rfl
@[simp] theorem setWave_capLink (s : State) (c w : Nat) (x : Wave) : (s.setWave c w x).capLink = s.capLink := rfl
@[simp] theorem setWave_capLinkHeld (s : State) (c w : Nat) (x : Wave) : (s.setWave c w x).capLinkHeld = s.capLinkHeld := rfl
@[simp] theorem setWave_time (s : State) (c w : Nat) (x : Wave) : (s.setWave c w x).time = s.time := rfl
@[simp] theorem setWave_clocks (s : State) (c w : Nat) (x : Wave) : (s.setWave c w x).clocks = s.clocks := rfl
@[simp] theorem setWave_ports (s : State) (c w : Nat) (x : Wave) : (s.setWave c w x).ports = s.ports := rfl
@[simp] theorem setWave_partnerPairs (s : State) (c w : Nat) (x : Wave) : (s.setWave c w x).partnerPairs = s.partnerPairs := rfl
@[simp] theorem setWave_hostUp (s : State) (c w : Nat) (x : Wave) : (s.setWave c w x).hostUp = s.hostUp := rfl
@[simp] theorem setWave_hostDownSince (s : State) (c w : Nat) (x : Wave) : (s.setWave c w x).hostDownSince = s.hostDownSince := rfl
@[simp] theorem setWave_singleBit (s : State) (c w : Nat) (x : Wave) : (s.setWave c w x).singleBit = s.singleBit := rfl
@[simp] theorem setWave_doubleBit (s : State) (c w : Nat) (x : Wave) : (s.setWave c w x).doubleBit = s.doubleBit := rfl
@[simp] theorem setWave_droppedWb (s : State) (c w : Nat) (x : Wave) : (s.setWave c w x).droppedWb = s.droppedWb := rfl
@[simp] theorem setWave_mhz (s : State) (c w : Nat) (x : Wave) : (s.setWave c w x).mhz = s.mhz := rfl
@[simp] theorem setWave_watts (s : State) (c w : Nat) (x : Wave) : (s.setWave c w x).watts = s.watts := rfl
@[simp] theorem setWave_powerLimit (s : State) (c w : Nat) (x : Wave) : (s.setWave c w x).powerLimit = s.powerLimit := rfl
@[simp] theorem setWave_droop (s : State) (c w : Nat) (x : Wave) : (s.setWave c w x).droop = s.droop := rfl
@[simp] theorem setWave_channels (s : State) (c w : Nat) (x : Wave) : (s.setWave c w x).channels = s.channels := rfl
@[simp] theorem setWave_badChannels (s : State) (c w : Nat) (x : Wave) : (s.setWave c w x).badChannels = s.badChannels := rfl
@[simp] theorem setWave_quietExp (s : State) (c w : Nat) (x : Wave) : (s.setWave c w x).quietExp = s.quietExp := rfl
@[simp] theorem setWave_armed (s : State) (c w : Nat) (x : Wave) : (s.setWave c w x).armed = s.armed := rfl
@[simp] theorem setWave_bkpts (s : State) (c w : Nat) (x : Wave) : (s.setWave c w x).bkpts = s.bkpts := rfl
@[simp] theorem setWave_watches (s : State) (c w : Nat) (x : Wave) : (s.setWave c w x).watches = s.watches := rfl
@[simp] theorem setWave_trace (s : State) (c w : Nat) (x : Wave) : (s.setWave c w x).trace = s.trace := rfl
@[simp] theorem setWave_booted (s : State) (c w : Nat) (x : Wave) : (s.setWave c w x).booted = s.booted := rfl
@[simp] theorem setWave_bootStep (s : State) (c w : Nat) (x : Wave) : (s.setWave c w x).bootStep = s.bootStep := rfl
@[simp] theorem setWave_task (s : State) (c w : Nat) (x : Wave) : (s.setWave c w x).task = s.task := rfl
@[simp] theorem setWave_agenda (s : State) (c w : Nat) (x : Wave) : (s.setWave c w x).agenda = s.agenda := rfl
@[simp] theorem setWave_turns (s : State) (c w : Nat) (x : Wave) : (s.setWave c w x).turns = s.turns := rfl
@[simp] theorem setWave_cur (s : State) (c w : Nat) (x : Wave) : (s.setWave c w x).cur = s.cur := rfl
@[simp] theorem setWave_snap (s : State) (c w : Nat) (x : Wave) : (s.setWave c w x).snap = s.snap := rfl
@[simp] theorem setWave_twin (s : State) (c w : Nat) (x : Wave) : (s.setWave c w x).twin = s.twin := rfl
@[simp] theorem setWave_offers (s : State) (c w : Nat) (x : Wave) : (s.setWave c w x).offers = s.offers := rfl
@[simp] theorem setWave_wrote (s : State) (c w : Nat) (x : Wave) : (s.setWave c w x).wrote = s.wrote := rfl
@[simp] theorem setWave_missQ (s : State) (c w : Nat) (x : Wave) : (s.setWave c w x).missQ = s.missQ := rfl
@[simp] theorem setWave_asked (s : State) (c w : Nat) (x : Wave) : (s.setWave c w x).asked = s.asked := rfl
@[simp] theorem setWave_blocked (s : State) (c w : Nat) (x : Wave) : (s.setWave c w x).blocked = s.blocked := rfl
@[simp] theorem setWave_fresh (s : State) (c w : Nat) (x : Wave) : (s.setWave c w x).fresh = s.fresh := rfl
@[simp] theorem setWave_freeCount (s : State) (c w : Nat) (x : Wave) : (s.setWave c w x).freeCount = s.freeCount := rfl

/-! ### `setSlice` leaves every field but `cores` -/

@[simp] theorem setSlice_teams (s : State) (c k : Nat) (x : Slice) : (s.setSlice c k x).teams = s.teams := rfl
@[simp] theorem setSlice_launches (s : State) (c k : Nat) (x : Slice) : (s.setSlice c k x).launches = s.launches := rfl
@[simp] theorem setSlice_checks (s : State) (c k : Nat) (x : Slice) : (s.setSlice c k x).checks = s.checks := rfl
@[simp] theorem setSlice_pending (s : State) (c k : Nat) (x : Slice) : (s.setSlice c k x).pending = s.pending := rfl
@[simp] theorem setSlice_lastCore (s : State) (c k : Nat) (x : Slice) : (s.setSlice c k x).lastCore = s.lastCore := rfl
@[simp] theorem setSlice_mem (s : State) (c k : Nat) (x : Slice) : (s.setSlice c k x).mem = s.mem := rfl
@[simp] theorem setSlice_tags (s : State) (c k : Nat) (x : Slice) : (s.setSlice c k x).tags = s.tags := rfl
@[simp] theorem setSlice_l2 (s : State) (c k : Nat) (x : Slice) : (s.setSlice c k x).l2 = s.l2 := rfl
@[simp] theorem setSlice_ncache (s : State) (c k : Nat) (x : Slice) : (s.setSlice c k x).ncache = s.ncache := rfl
@[simp] theorem setSlice_attrs (s : State) (c k : Nat) (x : Slice) : (s.setSlice c k x).attrs = s.attrs := rfl
@[simp] theorem setSlice_notes (s : State) (c k : Nat) (x : Slice) : (s.setSlice c k x).notes = s.notes := rfl
@[simp] theorem setSlice_tlb (s : State) (c k : Nat) (x : Slice) : (s.setSlice c k x).tlb = s.tlb := rfl
@[simp] theorem setSlice_gtlb (s : State) (c k : Nat) (x : Slice) : (s.setSlice c k x).gtlb = s.gtlb := rfl
@[simp] theorem setSlice_icache (s : State) (c k : Nat) (x : Slice) : (s.setSlice c k x).icache = s.icache := rfl
@[simp] theorem setSlice_imiss (s : State) (c k : Nat) (x : Slice) : (s.setSlice c k x).imiss = s.imiss := rfl
@[simp] theorem setSlice_waiters (s : State) (c k : Nat) (x : Slice) : (s.setSlice c k x).waiters = s.waiters := rfl
@[simp] theorem setSlice_queues (s : State) (c k : Nat) (x : Slice) : (s.setSlice c k x).queues = s.queues := rfl
@[simp] theorem setSlice_ctxs (s : State) (c k : Nat) (x : Slice) : (s.setSlice c k x).ctxs = s.ctxs := rfl
@[simp] theorem setSlice_deposits (s : State) (c k : Nat) (x : Slice) : (s.setSlice c k x).deposits = s.deposits := rfl
@[simp] theorem setSlice_outbox (s : State) (c k : Nat) (x : Slice) : (s.setSlice c k x).outbox = s.outbox := rfl
@[simp] theorem setSlice_handoffUsed (s : State) (c k : Nat) (x : Slice) : (s.setSlice c k x).handoffUsed = s.handoffUsed := rfl
@[simp] theorem setSlice_faultBase (s : State) (c k : Nat) (x : Slice) : (s.setSlice c k x).faultBase = s.faultBase := rfl
@[simp] theorem setSlice_faultCount (s : State) (c k : Nat) (x : Slice) : (s.setSlice c k x).faultCount = s.faultCount := rfl
@[simp] theorem setSlice_fhead (s : State) (c k : Nat) (x : Slice) : (s.setSlice c k x).fhead = s.fhead := rfl
@[simp] theorem setSlice_ftail (s : State) (c k : Nat) (x : Slice) : (s.setSlice c k x).ftail = s.ftail := rfl
@[simp] theorem setSlice_lost (s : State) (c k : Nat) (x : Slice) : (s.setSlice c k x).lost = s.lost := rfl
@[simp] theorem setSlice_fid (s : State) (c k : Nat) (x : Slice) : (s.setSlice c k x).fid = s.fid := rfl
@[simp] theorem setSlice_heldFaults (s : State) (c k : Nat) (x : Slice) : (s.setSlice c k x).heldFaults = s.heldFaults := rfl
@[simp] theorem setSlice_faultWait (s : State) (c k : Nat) (x : Slice) : (s.setSlice c k x).faultWait = s.faultWait := rfl
@[simp] theorem setSlice_recWait (s : State) (c k : Nat) (x : Slice) : (s.setSlice c k x).recWait = s.recWait := rfl
@[simp] theorem setSlice_takeUps (s : State) (c k : Nat) (x : Slice) : (s.setSlice c k x).takeUps = s.takeUps := rfl
@[simp] theorem setSlice_outside (s : State) (c k : Nat) (x : Slice) : (s.setSlice c k x).outside = s.outside := rfl
@[simp] theorem setSlice_cmd (s : State) (c k : Nat) (x : Slice) : (s.setSlice c k x).cmd = s.cmd := rfl
@[simp] theorem setSlice_resp (s : State) (c k : Nat) (x : Slice) : (s.setSlice c k x).resp = s.resp := rfl
@[simp] theorem setSlice_ierr (s : State) (c k : Nat) (x : Slice) : (s.setSlice c k x).ierr = s.ierr := rfl
@[simp] theorem setSlice_msix (s : State) (c k : Nat) (x : Slice) : (s.setSlice c k x).msix = s.msix := rfl
@[simp] theorem setSlice_hostGot (s : State) (c k : Nat) (x : Slice) : (s.setSlice c k x).hostGot = s.hostGot := rfl
@[simp] theorem setSlice_ingress (s : State) (c k : Nat) (x : Slice) : (s.setSlice c k x).ingress = s.ingress := rfl
@[simp] theorem setSlice_sealed (s : State) (c k : Nat) (x : Slice) : (s.setSlice c k x).sealed = s.sealed := rfl
@[simp] theorem setSlice_verified (s : State) (c k : Nat) (x : Slice) : (s.setSlice c k x).verified = s.verified := rfl
@[simp] theorem setSlice_badPages (s : State) (c k : Nat) (x : Slice) : (s.setSlice c k x).badPages = s.badPages := rfl
@[simp] theorem setSlice_measure (s : State) (c k : Nat) (x : Slice) : (s.setSlice c k x).measure = s.measure := rfl
@[simp] theorem setSlice_fwA (s : State) (c k : Nat) (x : Slice) : (s.setSlice c k x).fwA = s.fwA := rfl
@[simp] theorem setSlice_fwB (s : State) (c k : Nat) (x : Slice) : (s.setSlice c k x).fwB = s.fwB := rfl
@[simp] theorem setSlice_running (s : State) (c k : Nat) (x : Slice) : (s.setSlice c k x).running = s.running := rfl
@[simp] theorem setSlice_active (s : State) (c k : Nat) (x : Slice) : (s.setSlice c k x).active = s.active := rfl
@[simp] theorem setSlice_capFlit (s : State) (c k : Nat) (x : Slice) : (s.setSlice c k x).capFlit = s.capFlit := rfl
@[simp] theorem setSlice_capCores (s : State) (c k : Nat) (x : Slice) : (s.setSlice c k x).capCores = s.capCores := rfl
@[simp] theorem setSlice_capMem (s : State) (c k : Nat) (x : Slice) : (s.setSlice c k x).capMem = s.capMem := rfl
@[simp] theorem setSlice_capLink (s : State) (c k : Nat) (x : Slice) : (s.setSlice c k x).capLink = s.capLink := rfl
@[simp] theorem setSlice_capLinkHeld (s : State) (c k : Nat) (x : Slice) : (s.setSlice c k x).capLinkHeld = s.capLinkHeld := rfl
@[simp] theorem setSlice_time (s : State) (c k : Nat) (x : Slice) : (s.setSlice c k x).time = s.time := rfl
@[simp] theorem setSlice_clocks (s : State) (c k : Nat) (x : Slice) : (s.setSlice c k x).clocks = s.clocks := rfl
@[simp] theorem setSlice_ports (s : State) (c k : Nat) (x : Slice) : (s.setSlice c k x).ports = s.ports := rfl
@[simp] theorem setSlice_partnerPairs (s : State) (c k : Nat) (x : Slice) : (s.setSlice c k x).partnerPairs = s.partnerPairs := rfl
@[simp] theorem setSlice_hostUp (s : State) (c k : Nat) (x : Slice) : (s.setSlice c k x).hostUp = s.hostUp := rfl
@[simp] theorem setSlice_hostDownSince (s : State) (c k : Nat) (x : Slice) : (s.setSlice c k x).hostDownSince = s.hostDownSince := rfl
@[simp] theorem setSlice_singleBit (s : State) (c k : Nat) (x : Slice) : (s.setSlice c k x).singleBit = s.singleBit := rfl
@[simp] theorem setSlice_doubleBit (s : State) (c k : Nat) (x : Slice) : (s.setSlice c k x).doubleBit = s.doubleBit := rfl
@[simp] theorem setSlice_droppedWb (s : State) (c k : Nat) (x : Slice) : (s.setSlice c k x).droppedWb = s.droppedWb := rfl
@[simp] theorem setSlice_mhz (s : State) (c k : Nat) (x : Slice) : (s.setSlice c k x).mhz = s.mhz := rfl
@[simp] theorem setSlice_watts (s : State) (c k : Nat) (x : Slice) : (s.setSlice c k x).watts = s.watts := rfl
@[simp] theorem setSlice_powerLimit (s : State) (c k : Nat) (x : Slice) : (s.setSlice c k x).powerLimit = s.powerLimit := rfl
@[simp] theorem setSlice_droop (s : State) (c k : Nat) (x : Slice) : (s.setSlice c k x).droop = s.droop := rfl
@[simp] theorem setSlice_channels (s : State) (c k : Nat) (x : Slice) : (s.setSlice c k x).channels = s.channels := rfl
@[simp] theorem setSlice_badChannels (s : State) (c k : Nat) (x : Slice) : (s.setSlice c k x).badChannels = s.badChannels := rfl
@[simp] theorem setSlice_quietExp (s : State) (c k : Nat) (x : Slice) : (s.setSlice c k x).quietExp = s.quietExp := rfl
@[simp] theorem setSlice_armed (s : State) (c k : Nat) (x : Slice) : (s.setSlice c k x).armed = s.armed := rfl
@[simp] theorem setSlice_bkpts (s : State) (c k : Nat) (x : Slice) : (s.setSlice c k x).bkpts = s.bkpts := rfl
@[simp] theorem setSlice_watches (s : State) (c k : Nat) (x : Slice) : (s.setSlice c k x).watches = s.watches := rfl
@[simp] theorem setSlice_trace (s : State) (c k : Nat) (x : Slice) : (s.setSlice c k x).trace = s.trace := rfl
@[simp] theorem setSlice_booted (s : State) (c k : Nat) (x : Slice) : (s.setSlice c k x).booted = s.booted := rfl
@[simp] theorem setSlice_bootStep (s : State) (c k : Nat) (x : Slice) : (s.setSlice c k x).bootStep = s.bootStep := rfl
@[simp] theorem setSlice_task (s : State) (c k : Nat) (x : Slice) : (s.setSlice c k x).task = s.task := rfl
@[simp] theorem setSlice_agenda (s : State) (c k : Nat) (x : Slice) : (s.setSlice c k x).agenda = s.agenda := rfl
@[simp] theorem setSlice_turns (s : State) (c k : Nat) (x : Slice) : (s.setSlice c k x).turns = s.turns := rfl
@[simp] theorem setSlice_cur (s : State) (c k : Nat) (x : Slice) : (s.setSlice c k x).cur = s.cur := rfl
@[simp] theorem setSlice_snap (s : State) (c k : Nat) (x : Slice) : (s.setSlice c k x).snap = s.snap := rfl
@[simp] theorem setSlice_twin (s : State) (c k : Nat) (x : Slice) : (s.setSlice c k x).twin = s.twin := rfl
@[simp] theorem setSlice_offers (s : State) (c k : Nat) (x : Slice) : (s.setSlice c k x).offers = s.offers := rfl
@[simp] theorem setSlice_wrote (s : State) (c k : Nat) (x : Slice) : (s.setSlice c k x).wrote = s.wrote := rfl
@[simp] theorem setSlice_missQ (s : State) (c k : Nat) (x : Slice) : (s.setSlice c k x).missQ = s.missQ := rfl
@[simp] theorem setSlice_asked (s : State) (c k : Nat) (x : Slice) : (s.setSlice c k x).asked = s.asked := rfl
@[simp] theorem setSlice_blocked (s : State) (c k : Nat) (x : Slice) : (s.setSlice c k x).blocked = s.blocked := rfl
@[simp] theorem setSlice_fresh (s : State) (c k : Nat) (x : Slice) : (s.setSlice c k x).fresh = s.fresh := rfl
@[simp] theorem setSlice_freeCount (s : State) (c k : Nat) (x : Slice) : (s.setSlice c k x).freeCount = s.freeCount := rfl

/-! ### `modSlice` leaves every field but `cores` -/

@[simp] theorem modSlice_teams (s : State) (c k : Nat) (f : Slice → Slice) : (s.modSlice c k f).teams = s.teams := rfl
@[simp] theorem modSlice_launches (s : State) (c k : Nat) (f : Slice → Slice) : (s.modSlice c k f).launches = s.launches := rfl
@[simp] theorem modSlice_checks (s : State) (c k : Nat) (f : Slice → Slice) : (s.modSlice c k f).checks = s.checks := rfl
@[simp] theorem modSlice_pending (s : State) (c k : Nat) (f : Slice → Slice) : (s.modSlice c k f).pending = s.pending := rfl
@[simp] theorem modSlice_lastCore (s : State) (c k : Nat) (f : Slice → Slice) : (s.modSlice c k f).lastCore = s.lastCore := rfl
@[simp] theorem modSlice_mem (s : State) (c k : Nat) (f : Slice → Slice) : (s.modSlice c k f).mem = s.mem := rfl
@[simp] theorem modSlice_tags (s : State) (c k : Nat) (f : Slice → Slice) : (s.modSlice c k f).tags = s.tags := rfl
@[simp] theorem modSlice_l2 (s : State) (c k : Nat) (f : Slice → Slice) : (s.modSlice c k f).l2 = s.l2 := rfl
@[simp] theorem modSlice_ncache (s : State) (c k : Nat) (f : Slice → Slice) : (s.modSlice c k f).ncache = s.ncache := rfl
@[simp] theorem modSlice_attrs (s : State) (c k : Nat) (f : Slice → Slice) : (s.modSlice c k f).attrs = s.attrs := rfl
@[simp] theorem modSlice_notes (s : State) (c k : Nat) (f : Slice → Slice) : (s.modSlice c k f).notes = s.notes := rfl
@[simp] theorem modSlice_tlb (s : State) (c k : Nat) (f : Slice → Slice) : (s.modSlice c k f).tlb = s.tlb := rfl
@[simp] theorem modSlice_gtlb (s : State) (c k : Nat) (f : Slice → Slice) : (s.modSlice c k f).gtlb = s.gtlb := rfl
@[simp] theorem modSlice_icache (s : State) (c k : Nat) (f : Slice → Slice) : (s.modSlice c k f).icache = s.icache := rfl
@[simp] theorem modSlice_imiss (s : State) (c k : Nat) (f : Slice → Slice) : (s.modSlice c k f).imiss = s.imiss := rfl
@[simp] theorem modSlice_waiters (s : State) (c k : Nat) (f : Slice → Slice) : (s.modSlice c k f).waiters = s.waiters := rfl
@[simp] theorem modSlice_queues (s : State) (c k : Nat) (f : Slice → Slice) : (s.modSlice c k f).queues = s.queues := rfl
@[simp] theorem modSlice_ctxs (s : State) (c k : Nat) (f : Slice → Slice) : (s.modSlice c k f).ctxs = s.ctxs := rfl
@[simp] theorem modSlice_deposits (s : State) (c k : Nat) (f : Slice → Slice) : (s.modSlice c k f).deposits = s.deposits := rfl
@[simp] theorem modSlice_outbox (s : State) (c k : Nat) (f : Slice → Slice) : (s.modSlice c k f).outbox = s.outbox := rfl
@[simp] theorem modSlice_handoffUsed (s : State) (c k : Nat) (f : Slice → Slice) : (s.modSlice c k f).handoffUsed = s.handoffUsed := rfl
@[simp] theorem modSlice_faultBase (s : State) (c k : Nat) (f : Slice → Slice) : (s.modSlice c k f).faultBase = s.faultBase := rfl
@[simp] theorem modSlice_faultCount (s : State) (c k : Nat) (f : Slice → Slice) : (s.modSlice c k f).faultCount = s.faultCount := rfl
@[simp] theorem modSlice_fhead (s : State) (c k : Nat) (f : Slice → Slice) : (s.modSlice c k f).fhead = s.fhead := rfl
@[simp] theorem modSlice_ftail (s : State) (c k : Nat) (f : Slice → Slice) : (s.modSlice c k f).ftail = s.ftail := rfl
@[simp] theorem modSlice_lost (s : State) (c k : Nat) (f : Slice → Slice) : (s.modSlice c k f).lost = s.lost := rfl
@[simp] theorem modSlice_fid (s : State) (c k : Nat) (f : Slice → Slice) : (s.modSlice c k f).fid = s.fid := rfl
@[simp] theorem modSlice_heldFaults (s : State) (c k : Nat) (f : Slice → Slice) : (s.modSlice c k f).heldFaults = s.heldFaults := rfl
@[simp] theorem modSlice_faultWait (s : State) (c k : Nat) (f : Slice → Slice) : (s.modSlice c k f).faultWait = s.faultWait := rfl
@[simp] theorem modSlice_recWait (s : State) (c k : Nat) (f : Slice → Slice) : (s.modSlice c k f).recWait = s.recWait := rfl
@[simp] theorem modSlice_takeUps (s : State) (c k : Nat) (f : Slice → Slice) : (s.modSlice c k f).takeUps = s.takeUps := rfl
@[simp] theorem modSlice_outside (s : State) (c k : Nat) (f : Slice → Slice) : (s.modSlice c k f).outside = s.outside := rfl
@[simp] theorem modSlice_cmd (s : State) (c k : Nat) (f : Slice → Slice) : (s.modSlice c k f).cmd = s.cmd := rfl
@[simp] theorem modSlice_resp (s : State) (c k : Nat) (f : Slice → Slice) : (s.modSlice c k f).resp = s.resp := rfl
@[simp] theorem modSlice_ierr (s : State) (c k : Nat) (f : Slice → Slice) : (s.modSlice c k f).ierr = s.ierr := rfl
@[simp] theorem modSlice_msix (s : State) (c k : Nat) (f : Slice → Slice) : (s.modSlice c k f).msix = s.msix := rfl
@[simp] theorem modSlice_hostGot (s : State) (c k : Nat) (f : Slice → Slice) : (s.modSlice c k f).hostGot = s.hostGot := rfl
@[simp] theorem modSlice_ingress (s : State) (c k : Nat) (f : Slice → Slice) : (s.modSlice c k f).ingress = s.ingress := rfl
@[simp] theorem modSlice_sealed (s : State) (c k : Nat) (f : Slice → Slice) : (s.modSlice c k f).sealed = s.sealed := rfl
@[simp] theorem modSlice_verified (s : State) (c k : Nat) (f : Slice → Slice) : (s.modSlice c k f).verified = s.verified := rfl
@[simp] theorem modSlice_badPages (s : State) (c k : Nat) (f : Slice → Slice) : (s.modSlice c k f).badPages = s.badPages := rfl
@[simp] theorem modSlice_measure (s : State) (c k : Nat) (f : Slice → Slice) : (s.modSlice c k f).measure = s.measure := rfl
@[simp] theorem modSlice_fwA (s : State) (c k : Nat) (f : Slice → Slice) : (s.modSlice c k f).fwA = s.fwA := rfl
@[simp] theorem modSlice_fwB (s : State) (c k : Nat) (f : Slice → Slice) : (s.modSlice c k f).fwB = s.fwB := rfl
@[simp] theorem modSlice_running (s : State) (c k : Nat) (f : Slice → Slice) : (s.modSlice c k f).running = s.running := rfl
@[simp] theorem modSlice_active (s : State) (c k : Nat) (f : Slice → Slice) : (s.modSlice c k f).active = s.active := rfl
@[simp] theorem modSlice_capFlit (s : State) (c k : Nat) (f : Slice → Slice) : (s.modSlice c k f).capFlit = s.capFlit := rfl
@[simp] theorem modSlice_capCores (s : State) (c k : Nat) (f : Slice → Slice) : (s.modSlice c k f).capCores = s.capCores := rfl
@[simp] theorem modSlice_capMem (s : State) (c k : Nat) (f : Slice → Slice) : (s.modSlice c k f).capMem = s.capMem := rfl
@[simp] theorem modSlice_capLink (s : State) (c k : Nat) (f : Slice → Slice) : (s.modSlice c k f).capLink = s.capLink := rfl
@[simp] theorem modSlice_capLinkHeld (s : State) (c k : Nat) (f : Slice → Slice) : (s.modSlice c k f).capLinkHeld = s.capLinkHeld := rfl
@[simp] theorem modSlice_time (s : State) (c k : Nat) (f : Slice → Slice) : (s.modSlice c k f).time = s.time := rfl
@[simp] theorem modSlice_clocks (s : State) (c k : Nat) (f : Slice → Slice) : (s.modSlice c k f).clocks = s.clocks := rfl
@[simp] theorem modSlice_ports (s : State) (c k : Nat) (f : Slice → Slice) : (s.modSlice c k f).ports = s.ports := rfl
@[simp] theorem modSlice_partnerPairs (s : State) (c k : Nat) (f : Slice → Slice) : (s.modSlice c k f).partnerPairs = s.partnerPairs := rfl
@[simp] theorem modSlice_hostUp (s : State) (c k : Nat) (f : Slice → Slice) : (s.modSlice c k f).hostUp = s.hostUp := rfl
@[simp] theorem modSlice_hostDownSince (s : State) (c k : Nat) (f : Slice → Slice) : (s.modSlice c k f).hostDownSince = s.hostDownSince := rfl
@[simp] theorem modSlice_singleBit (s : State) (c k : Nat) (f : Slice → Slice) : (s.modSlice c k f).singleBit = s.singleBit := rfl
@[simp] theorem modSlice_doubleBit (s : State) (c k : Nat) (f : Slice → Slice) : (s.modSlice c k f).doubleBit = s.doubleBit := rfl
@[simp] theorem modSlice_droppedWb (s : State) (c k : Nat) (f : Slice → Slice) : (s.modSlice c k f).droppedWb = s.droppedWb := rfl
@[simp] theorem modSlice_mhz (s : State) (c k : Nat) (f : Slice → Slice) : (s.modSlice c k f).mhz = s.mhz := rfl
@[simp] theorem modSlice_watts (s : State) (c k : Nat) (f : Slice → Slice) : (s.modSlice c k f).watts = s.watts := rfl
@[simp] theorem modSlice_powerLimit (s : State) (c k : Nat) (f : Slice → Slice) : (s.modSlice c k f).powerLimit = s.powerLimit := rfl
@[simp] theorem modSlice_droop (s : State) (c k : Nat) (f : Slice → Slice) : (s.modSlice c k f).droop = s.droop := rfl
@[simp] theorem modSlice_channels (s : State) (c k : Nat) (f : Slice → Slice) : (s.modSlice c k f).channels = s.channels := rfl
@[simp] theorem modSlice_badChannels (s : State) (c k : Nat) (f : Slice → Slice) : (s.modSlice c k f).badChannels = s.badChannels := rfl
@[simp] theorem modSlice_quietExp (s : State) (c k : Nat) (f : Slice → Slice) : (s.modSlice c k f).quietExp = s.quietExp := rfl
@[simp] theorem modSlice_armed (s : State) (c k : Nat) (f : Slice → Slice) : (s.modSlice c k f).armed = s.armed := rfl
@[simp] theorem modSlice_bkpts (s : State) (c k : Nat) (f : Slice → Slice) : (s.modSlice c k f).bkpts = s.bkpts := rfl
@[simp] theorem modSlice_watches (s : State) (c k : Nat) (f : Slice → Slice) : (s.modSlice c k f).watches = s.watches := rfl
@[simp] theorem modSlice_trace (s : State) (c k : Nat) (f : Slice → Slice) : (s.modSlice c k f).trace = s.trace := rfl
@[simp] theorem modSlice_booted (s : State) (c k : Nat) (f : Slice → Slice) : (s.modSlice c k f).booted = s.booted := rfl
@[simp] theorem modSlice_bootStep (s : State) (c k : Nat) (f : Slice → Slice) : (s.modSlice c k f).bootStep = s.bootStep := rfl
@[simp] theorem modSlice_task (s : State) (c k : Nat) (f : Slice → Slice) : (s.modSlice c k f).task = s.task := rfl
@[simp] theorem modSlice_agenda (s : State) (c k : Nat) (f : Slice → Slice) : (s.modSlice c k f).agenda = s.agenda := rfl
@[simp] theorem modSlice_turns (s : State) (c k : Nat) (f : Slice → Slice) : (s.modSlice c k f).turns = s.turns := rfl
@[simp] theorem modSlice_cur (s : State) (c k : Nat) (f : Slice → Slice) : (s.modSlice c k f).cur = s.cur := rfl
@[simp] theorem modSlice_snap (s : State) (c k : Nat) (f : Slice → Slice) : (s.modSlice c k f).snap = s.snap := rfl
@[simp] theorem modSlice_twin (s : State) (c k : Nat) (f : Slice → Slice) : (s.modSlice c k f).twin = s.twin := rfl
@[simp] theorem modSlice_offers (s : State) (c k : Nat) (f : Slice → Slice) : (s.modSlice c k f).offers = s.offers := rfl
@[simp] theorem modSlice_wrote (s : State) (c k : Nat) (f : Slice → Slice) : (s.modSlice c k f).wrote = s.wrote := rfl
@[simp] theorem modSlice_missQ (s : State) (c k : Nat) (f : Slice → Slice) : (s.modSlice c k f).missQ = s.missQ := rfl
@[simp] theorem modSlice_asked (s : State) (c k : Nat) (f : Slice → Slice) : (s.modSlice c k f).asked = s.asked := rfl
@[simp] theorem modSlice_blocked (s : State) (c k : Nat) (f : Slice → Slice) : (s.modSlice c k f).blocked = s.blocked := rfl
@[simp] theorem modSlice_fresh (s : State) (c k : Nat) (f : Slice → Slice) : (s.modSlice c k f).fresh = s.fresh := rfl
@[simp] theorem modSlice_freeCount (s : State) (c k : Nat) (f : Slice → Slice) : (s.modSlice c k f).freeCount = s.freeCount := rfl

/-! ### `modWave` leaves every field but `cores` -/

@[simp] theorem modWave_teams (s : State) (c w : Nat) (f : Wave → Wave) : (s.modWave c w f).teams = s.teams := by unfold State.modWave; split <;> rfl
@[simp] theorem modWave_launches (s : State) (c w : Nat) (f : Wave → Wave) : (s.modWave c w f).launches = s.launches := by unfold State.modWave; split <;> rfl
@[simp] theorem modWave_checks (s : State) (c w : Nat) (f : Wave → Wave) : (s.modWave c w f).checks = s.checks := by unfold State.modWave; split <;> rfl
@[simp] theorem modWave_pending (s : State) (c w : Nat) (f : Wave → Wave) : (s.modWave c w f).pending = s.pending := by unfold State.modWave; split <;> rfl
@[simp] theorem modWave_lastCore (s : State) (c w : Nat) (f : Wave → Wave) : (s.modWave c w f).lastCore = s.lastCore := by unfold State.modWave; split <;> rfl
@[simp] theorem modWave_mem (s : State) (c w : Nat) (f : Wave → Wave) : (s.modWave c w f).mem = s.mem := by unfold State.modWave; split <;> rfl
@[simp] theorem modWave_tags (s : State) (c w : Nat) (f : Wave → Wave) : (s.modWave c w f).tags = s.tags := by unfold State.modWave; split <;> rfl
@[simp] theorem modWave_l2 (s : State) (c w : Nat) (f : Wave → Wave) : (s.modWave c w f).l2 = s.l2 := by unfold State.modWave; split <;> rfl
@[simp] theorem modWave_ncache (s : State) (c w : Nat) (f : Wave → Wave) : (s.modWave c w f).ncache = s.ncache := by unfold State.modWave; split <;> rfl
@[simp] theorem modWave_attrs (s : State) (c w : Nat) (f : Wave → Wave) : (s.modWave c w f).attrs = s.attrs := by unfold State.modWave; split <;> rfl
@[simp] theorem modWave_notes (s : State) (c w : Nat) (f : Wave → Wave) : (s.modWave c w f).notes = s.notes := by unfold State.modWave; split <;> rfl
@[simp] theorem modWave_tlb (s : State) (c w : Nat) (f : Wave → Wave) : (s.modWave c w f).tlb = s.tlb := by unfold State.modWave; split <;> rfl
@[simp] theorem modWave_gtlb (s : State) (c w : Nat) (f : Wave → Wave) : (s.modWave c w f).gtlb = s.gtlb := by unfold State.modWave; split <;> rfl
@[simp] theorem modWave_icache (s : State) (c w : Nat) (f : Wave → Wave) : (s.modWave c w f).icache = s.icache := by unfold State.modWave; split <;> rfl
@[simp] theorem modWave_imiss (s : State) (c w : Nat) (f : Wave → Wave) : (s.modWave c w f).imiss = s.imiss := by unfold State.modWave; split <;> rfl
@[simp] theorem modWave_waiters (s : State) (c w : Nat) (f : Wave → Wave) : (s.modWave c w f).waiters = s.waiters := by unfold State.modWave; split <;> rfl
@[simp] theorem modWave_queues (s : State) (c w : Nat) (f : Wave → Wave) : (s.modWave c w f).queues = s.queues := by unfold State.modWave; split <;> rfl
@[simp] theorem modWave_ctxs (s : State) (c w : Nat) (f : Wave → Wave) : (s.modWave c w f).ctxs = s.ctxs := by unfold State.modWave; split <;> rfl
@[simp] theorem modWave_deposits (s : State) (c w : Nat) (f : Wave → Wave) : (s.modWave c w f).deposits = s.deposits := by unfold State.modWave; split <;> rfl
@[simp] theorem modWave_outbox (s : State) (c w : Nat) (f : Wave → Wave) : (s.modWave c w f).outbox = s.outbox := by unfold State.modWave; split <;> rfl
@[simp] theorem modWave_handoffUsed (s : State) (c w : Nat) (f : Wave → Wave) : (s.modWave c w f).handoffUsed = s.handoffUsed := by unfold State.modWave; split <;> rfl
@[simp] theorem modWave_faultBase (s : State) (c w : Nat) (f : Wave → Wave) : (s.modWave c w f).faultBase = s.faultBase := by unfold State.modWave; split <;> rfl
@[simp] theorem modWave_faultCount (s : State) (c w : Nat) (f : Wave → Wave) : (s.modWave c w f).faultCount = s.faultCount := by unfold State.modWave; split <;> rfl
@[simp] theorem modWave_fhead (s : State) (c w : Nat) (f : Wave → Wave) : (s.modWave c w f).fhead = s.fhead := by unfold State.modWave; split <;> rfl
@[simp] theorem modWave_ftail (s : State) (c w : Nat) (f : Wave → Wave) : (s.modWave c w f).ftail = s.ftail := by unfold State.modWave; split <;> rfl
@[simp] theorem modWave_lost (s : State) (c w : Nat) (f : Wave → Wave) : (s.modWave c w f).lost = s.lost := by unfold State.modWave; split <;> rfl
@[simp] theorem modWave_fid (s : State) (c w : Nat) (f : Wave → Wave) : (s.modWave c w f).fid = s.fid := by unfold State.modWave; split <;> rfl
@[simp] theorem modWave_heldFaults (s : State) (c w : Nat) (f : Wave → Wave) : (s.modWave c w f).heldFaults = s.heldFaults := by unfold State.modWave; split <;> rfl
@[simp] theorem modWave_faultWait (s : State) (c w : Nat) (f : Wave → Wave) : (s.modWave c w f).faultWait = s.faultWait := by unfold State.modWave; split <;> rfl
@[simp] theorem modWave_recWait (s : State) (c w : Nat) (f : Wave → Wave) : (s.modWave c w f).recWait = s.recWait := by unfold State.modWave; split <;> rfl
@[simp] theorem modWave_takeUps (s : State) (c w : Nat) (f : Wave → Wave) : (s.modWave c w f).takeUps = s.takeUps := by unfold State.modWave; split <;> rfl
@[simp] theorem modWave_outside (s : State) (c w : Nat) (f : Wave → Wave) : (s.modWave c w f).outside = s.outside := by unfold State.modWave; split <;> rfl
@[simp] theorem modWave_cmd (s : State) (c w : Nat) (f : Wave → Wave) : (s.modWave c w f).cmd = s.cmd := by unfold State.modWave; split <;> rfl
@[simp] theorem modWave_resp (s : State) (c w : Nat) (f : Wave → Wave) : (s.modWave c w f).resp = s.resp := by unfold State.modWave; split <;> rfl
@[simp] theorem modWave_ierr (s : State) (c w : Nat) (f : Wave → Wave) : (s.modWave c w f).ierr = s.ierr := by unfold State.modWave; split <;> rfl
@[simp] theorem modWave_msix (s : State) (c w : Nat) (f : Wave → Wave) : (s.modWave c w f).msix = s.msix := by unfold State.modWave; split <;> rfl
@[simp] theorem modWave_hostGot (s : State) (c w : Nat) (f : Wave → Wave) : (s.modWave c w f).hostGot = s.hostGot := by unfold State.modWave; split <;> rfl
@[simp] theorem modWave_ingress (s : State) (c w : Nat) (f : Wave → Wave) : (s.modWave c w f).ingress = s.ingress := by unfold State.modWave; split <;> rfl
@[simp] theorem modWave_sealed (s : State) (c w : Nat) (f : Wave → Wave) : (s.modWave c w f).sealed = s.sealed := by unfold State.modWave; split <;> rfl
@[simp] theorem modWave_verified (s : State) (c w : Nat) (f : Wave → Wave) : (s.modWave c w f).verified = s.verified := by unfold State.modWave; split <;> rfl
@[simp] theorem modWave_badPages (s : State) (c w : Nat) (f : Wave → Wave) : (s.modWave c w f).badPages = s.badPages := by unfold State.modWave; split <;> rfl
@[simp] theorem modWave_measure (s : State) (c w : Nat) (f : Wave → Wave) : (s.modWave c w f).measure = s.measure := by unfold State.modWave; split <;> rfl
@[simp] theorem modWave_fwA (s : State) (c w : Nat) (f : Wave → Wave) : (s.modWave c w f).fwA = s.fwA := by unfold State.modWave; split <;> rfl
@[simp] theorem modWave_fwB (s : State) (c w : Nat) (f : Wave → Wave) : (s.modWave c w f).fwB = s.fwB := by unfold State.modWave; split <;> rfl
@[simp] theorem modWave_running (s : State) (c w : Nat) (f : Wave → Wave) : (s.modWave c w f).running = s.running := by unfold State.modWave; split <;> rfl
@[simp] theorem modWave_active (s : State) (c w : Nat) (f : Wave → Wave) : (s.modWave c w f).active = s.active := by unfold State.modWave; split <;> rfl
@[simp] theorem modWave_capFlit (s : State) (c w : Nat) (f : Wave → Wave) : (s.modWave c w f).capFlit = s.capFlit := by unfold State.modWave; split <;> rfl
@[simp] theorem modWave_capCores (s : State) (c w : Nat) (f : Wave → Wave) : (s.modWave c w f).capCores = s.capCores := by unfold State.modWave; split <;> rfl
@[simp] theorem modWave_capMem (s : State) (c w : Nat) (f : Wave → Wave) : (s.modWave c w f).capMem = s.capMem := by unfold State.modWave; split <;> rfl
@[simp] theorem modWave_capLink (s : State) (c w : Nat) (f : Wave → Wave) : (s.modWave c w f).capLink = s.capLink := by unfold State.modWave; split <;> rfl
@[simp] theorem modWave_capLinkHeld (s : State) (c w : Nat) (f : Wave → Wave) : (s.modWave c w f).capLinkHeld = s.capLinkHeld := by unfold State.modWave; split <;> rfl
@[simp] theorem modWave_time (s : State) (c w : Nat) (f : Wave → Wave) : (s.modWave c w f).time = s.time := by unfold State.modWave; split <;> rfl
@[simp] theorem modWave_clocks (s : State) (c w : Nat) (f : Wave → Wave) : (s.modWave c w f).clocks = s.clocks := by unfold State.modWave; split <;> rfl
@[simp] theorem modWave_ports (s : State) (c w : Nat) (f : Wave → Wave) : (s.modWave c w f).ports = s.ports := by unfold State.modWave; split <;> rfl
@[simp] theorem modWave_partnerPairs (s : State) (c w : Nat) (f : Wave → Wave) : (s.modWave c w f).partnerPairs = s.partnerPairs := by unfold State.modWave; split <;> rfl
@[simp] theorem modWave_hostUp (s : State) (c w : Nat) (f : Wave → Wave) : (s.modWave c w f).hostUp = s.hostUp := by unfold State.modWave; split <;> rfl
@[simp] theorem modWave_hostDownSince (s : State) (c w : Nat) (f : Wave → Wave) : (s.modWave c w f).hostDownSince = s.hostDownSince := by unfold State.modWave; split <;> rfl
@[simp] theorem modWave_singleBit (s : State) (c w : Nat) (f : Wave → Wave) : (s.modWave c w f).singleBit = s.singleBit := by unfold State.modWave; split <;> rfl
@[simp] theorem modWave_doubleBit (s : State) (c w : Nat) (f : Wave → Wave) : (s.modWave c w f).doubleBit = s.doubleBit := by unfold State.modWave; split <;> rfl
@[simp] theorem modWave_droppedWb (s : State) (c w : Nat) (f : Wave → Wave) : (s.modWave c w f).droppedWb = s.droppedWb := by unfold State.modWave; split <;> rfl
@[simp] theorem modWave_mhz (s : State) (c w : Nat) (f : Wave → Wave) : (s.modWave c w f).mhz = s.mhz := by unfold State.modWave; split <;> rfl
@[simp] theorem modWave_watts (s : State) (c w : Nat) (f : Wave → Wave) : (s.modWave c w f).watts = s.watts := by unfold State.modWave; split <;> rfl
@[simp] theorem modWave_powerLimit (s : State) (c w : Nat) (f : Wave → Wave) : (s.modWave c w f).powerLimit = s.powerLimit := by unfold State.modWave; split <;> rfl
@[simp] theorem modWave_droop (s : State) (c w : Nat) (f : Wave → Wave) : (s.modWave c w f).droop = s.droop := by unfold State.modWave; split <;> rfl
@[simp] theorem modWave_channels (s : State) (c w : Nat) (f : Wave → Wave) : (s.modWave c w f).channels = s.channels := by unfold State.modWave; split <;> rfl
@[simp] theorem modWave_badChannels (s : State) (c w : Nat) (f : Wave → Wave) : (s.modWave c w f).badChannels = s.badChannels := by unfold State.modWave; split <;> rfl
@[simp] theorem modWave_quietExp (s : State) (c w : Nat) (f : Wave → Wave) : (s.modWave c w f).quietExp = s.quietExp := by unfold State.modWave; split <;> rfl
@[simp] theorem modWave_armed (s : State) (c w : Nat) (f : Wave → Wave) : (s.modWave c w f).armed = s.armed := by unfold State.modWave; split <;> rfl
@[simp] theorem modWave_bkpts (s : State) (c w : Nat) (f : Wave → Wave) : (s.modWave c w f).bkpts = s.bkpts := by unfold State.modWave; split <;> rfl
@[simp] theorem modWave_watches (s : State) (c w : Nat) (f : Wave → Wave) : (s.modWave c w f).watches = s.watches := by unfold State.modWave; split <;> rfl
@[simp] theorem modWave_trace (s : State) (c w : Nat) (f : Wave → Wave) : (s.modWave c w f).trace = s.trace := by unfold State.modWave; split <;> rfl
@[simp] theorem modWave_booted (s : State) (c w : Nat) (f : Wave → Wave) : (s.modWave c w f).booted = s.booted := by unfold State.modWave; split <;> rfl
@[simp] theorem modWave_bootStep (s : State) (c w : Nat) (f : Wave → Wave) : (s.modWave c w f).bootStep = s.bootStep := by unfold State.modWave; split <;> rfl
@[simp] theorem modWave_task (s : State) (c w : Nat) (f : Wave → Wave) : (s.modWave c w f).task = s.task := by unfold State.modWave; split <;> rfl
@[simp] theorem modWave_agenda (s : State) (c w : Nat) (f : Wave → Wave) : (s.modWave c w f).agenda = s.agenda := by unfold State.modWave; split <;> rfl
@[simp] theorem modWave_turns (s : State) (c w : Nat) (f : Wave → Wave) : (s.modWave c w f).turns = s.turns := by unfold State.modWave; split <;> rfl
@[simp] theorem modWave_cur (s : State) (c w : Nat) (f : Wave → Wave) : (s.modWave c w f).cur = s.cur := by unfold State.modWave; split <;> rfl
@[simp] theorem modWave_snap (s : State) (c w : Nat) (f : Wave → Wave) : (s.modWave c w f).snap = s.snap := by unfold State.modWave; split <;> rfl
@[simp] theorem modWave_twin (s : State) (c w : Nat) (f : Wave → Wave) : (s.modWave c w f).twin = s.twin := by unfold State.modWave; split <;> rfl
@[simp] theorem modWave_offers (s : State) (c w : Nat) (f : Wave → Wave) : (s.modWave c w f).offers = s.offers := by unfold State.modWave; split <;> rfl
@[simp] theorem modWave_wrote (s : State) (c w : Nat) (f : Wave → Wave) : (s.modWave c w f).wrote = s.wrote := by unfold State.modWave; split <;> rfl
@[simp] theorem modWave_missQ (s : State) (c w : Nat) (f : Wave → Wave) : (s.modWave c w f).missQ = s.missQ := by unfold State.modWave; split <;> rfl
@[simp] theorem modWave_asked (s : State) (c w : Nat) (f : Wave → Wave) : (s.modWave c w f).asked = s.asked := by unfold State.modWave; split <;> rfl
@[simp] theorem modWave_blocked (s : State) (c w : Nat) (f : Wave → Wave) : (s.modWave c w f).blocked = s.blocked := by unfold State.modWave; split <;> rfl
@[simp] theorem modWave_fresh (s : State) (c w : Nat) (f : Wave → Wave) : (s.modWave c w f).fresh = s.fresh := by unfold State.modWave; split <;> rfl
@[simp] theorem modWave_freeCount (s : State) (c w : Nat) (f : Wave → Wave) : (s.modWave c w f).freeCount = s.freeCount := by unfold State.modWave; split <;> rfl

/-! ### `modTeam` leaves every field but `teams` -/

@[simp] theorem modTeam_cores (s : State) (t : Nat) (f : Team → Team) : (s.modTeam t f).cores = s.cores := by unfold State.modTeam; split <;> rfl
@[simp] theorem modTeam_launches (s : State) (t : Nat) (f : Team → Team) : (s.modTeam t f).launches = s.launches := by unfold State.modTeam; split <;> rfl
@[simp] theorem modTeam_checks (s : State) (t : Nat) (f : Team → Team) : (s.modTeam t f).checks = s.checks := by unfold State.modTeam; split <;> rfl
@[simp] theorem modTeam_pending (s : State) (t : Nat) (f : Team → Team) : (s.modTeam t f).pending = s.pending := by unfold State.modTeam; split <;> rfl
@[simp] theorem modTeam_lastCore (s : State) (t : Nat) (f : Team → Team) : (s.modTeam t f).lastCore = s.lastCore := by unfold State.modTeam; split <;> rfl
@[simp] theorem modTeam_mem (s : State) (t : Nat) (f : Team → Team) : (s.modTeam t f).mem = s.mem := by unfold State.modTeam; split <;> rfl
@[simp] theorem modTeam_tags (s : State) (t : Nat) (f : Team → Team) : (s.modTeam t f).tags = s.tags := by unfold State.modTeam; split <;> rfl
@[simp] theorem modTeam_l2 (s : State) (t : Nat) (f : Team → Team) : (s.modTeam t f).l2 = s.l2 := by unfold State.modTeam; split <;> rfl
@[simp] theorem modTeam_ncache (s : State) (t : Nat) (f : Team → Team) : (s.modTeam t f).ncache = s.ncache := by unfold State.modTeam; split <;> rfl
@[simp] theorem modTeam_attrs (s : State) (t : Nat) (f : Team → Team) : (s.modTeam t f).attrs = s.attrs := by unfold State.modTeam; split <;> rfl
@[simp] theorem modTeam_notes (s : State) (t : Nat) (f : Team → Team) : (s.modTeam t f).notes = s.notes := by unfold State.modTeam; split <;> rfl
@[simp] theorem modTeam_tlb (s : State) (t : Nat) (f : Team → Team) : (s.modTeam t f).tlb = s.tlb := by unfold State.modTeam; split <;> rfl
@[simp] theorem modTeam_gtlb (s : State) (t : Nat) (f : Team → Team) : (s.modTeam t f).gtlb = s.gtlb := by unfold State.modTeam; split <;> rfl
@[simp] theorem modTeam_icache (s : State) (t : Nat) (f : Team → Team) : (s.modTeam t f).icache = s.icache := by unfold State.modTeam; split <;> rfl
@[simp] theorem modTeam_imiss (s : State) (t : Nat) (f : Team → Team) : (s.modTeam t f).imiss = s.imiss := by unfold State.modTeam; split <;> rfl
@[simp] theorem modTeam_waiters (s : State) (t : Nat) (f : Team → Team) : (s.modTeam t f).waiters = s.waiters := by unfold State.modTeam; split <;> rfl
@[simp] theorem modTeam_queues (s : State) (t : Nat) (f : Team → Team) : (s.modTeam t f).queues = s.queues := by unfold State.modTeam; split <;> rfl
@[simp] theorem modTeam_ctxs (s : State) (t : Nat) (f : Team → Team) : (s.modTeam t f).ctxs = s.ctxs := by unfold State.modTeam; split <;> rfl
@[simp] theorem modTeam_deposits (s : State) (t : Nat) (f : Team → Team) : (s.modTeam t f).deposits = s.deposits := by unfold State.modTeam; split <;> rfl
@[simp] theorem modTeam_outbox (s : State) (t : Nat) (f : Team → Team) : (s.modTeam t f).outbox = s.outbox := by unfold State.modTeam; split <;> rfl
@[simp] theorem modTeam_handoffUsed (s : State) (t : Nat) (f : Team → Team) : (s.modTeam t f).handoffUsed = s.handoffUsed := by unfold State.modTeam; split <;> rfl
@[simp] theorem modTeam_faultBase (s : State) (t : Nat) (f : Team → Team) : (s.modTeam t f).faultBase = s.faultBase := by unfold State.modTeam; split <;> rfl
@[simp] theorem modTeam_faultCount (s : State) (t : Nat) (f : Team → Team) : (s.modTeam t f).faultCount = s.faultCount := by unfold State.modTeam; split <;> rfl
@[simp] theorem modTeam_fhead (s : State) (t : Nat) (f : Team → Team) : (s.modTeam t f).fhead = s.fhead := by unfold State.modTeam; split <;> rfl
@[simp] theorem modTeam_ftail (s : State) (t : Nat) (f : Team → Team) : (s.modTeam t f).ftail = s.ftail := by unfold State.modTeam; split <;> rfl
@[simp] theorem modTeam_lost (s : State) (t : Nat) (f : Team → Team) : (s.modTeam t f).lost = s.lost := by unfold State.modTeam; split <;> rfl
@[simp] theorem modTeam_fid (s : State) (t : Nat) (f : Team → Team) : (s.modTeam t f).fid = s.fid := by unfold State.modTeam; split <;> rfl
@[simp] theorem modTeam_heldFaults (s : State) (t : Nat) (f : Team → Team) : (s.modTeam t f).heldFaults = s.heldFaults := by unfold State.modTeam; split <;> rfl
@[simp] theorem modTeam_faultWait (s : State) (t : Nat) (f : Team → Team) : (s.modTeam t f).faultWait = s.faultWait := by unfold State.modTeam; split <;> rfl
@[simp] theorem modTeam_recWait (s : State) (t : Nat) (f : Team → Team) : (s.modTeam t f).recWait = s.recWait := by unfold State.modTeam; split <;> rfl
@[simp] theorem modTeam_takeUps (s : State) (t : Nat) (f : Team → Team) : (s.modTeam t f).takeUps = s.takeUps := by unfold State.modTeam; split <;> rfl
@[simp] theorem modTeam_outside (s : State) (t : Nat) (f : Team → Team) : (s.modTeam t f).outside = s.outside := by unfold State.modTeam; split <;> rfl
@[simp] theorem modTeam_cmd (s : State) (t : Nat) (f : Team → Team) : (s.modTeam t f).cmd = s.cmd := by unfold State.modTeam; split <;> rfl
@[simp] theorem modTeam_resp (s : State) (t : Nat) (f : Team → Team) : (s.modTeam t f).resp = s.resp := by unfold State.modTeam; split <;> rfl
@[simp] theorem modTeam_ierr (s : State) (t : Nat) (f : Team → Team) : (s.modTeam t f).ierr = s.ierr := by unfold State.modTeam; split <;> rfl
@[simp] theorem modTeam_msix (s : State) (t : Nat) (f : Team → Team) : (s.modTeam t f).msix = s.msix := by unfold State.modTeam; split <;> rfl
@[simp] theorem modTeam_hostGot (s : State) (t : Nat) (f : Team → Team) : (s.modTeam t f).hostGot = s.hostGot := by unfold State.modTeam; split <;> rfl
@[simp] theorem modTeam_ingress (s : State) (t : Nat) (f : Team → Team) : (s.modTeam t f).ingress = s.ingress := by unfold State.modTeam; split <;> rfl
@[simp] theorem modTeam_sealed (s : State) (t : Nat) (f : Team → Team) : (s.modTeam t f).sealed = s.sealed := by unfold State.modTeam; split <;> rfl
@[simp] theorem modTeam_verified (s : State) (t : Nat) (f : Team → Team) : (s.modTeam t f).verified = s.verified := by unfold State.modTeam; split <;> rfl
@[simp] theorem modTeam_badPages (s : State) (t : Nat) (f : Team → Team) : (s.modTeam t f).badPages = s.badPages := by unfold State.modTeam; split <;> rfl
@[simp] theorem modTeam_measure (s : State) (t : Nat) (f : Team → Team) : (s.modTeam t f).measure = s.measure := by unfold State.modTeam; split <;> rfl
@[simp] theorem modTeam_fwA (s : State) (t : Nat) (f : Team → Team) : (s.modTeam t f).fwA = s.fwA := by unfold State.modTeam; split <;> rfl
@[simp] theorem modTeam_fwB (s : State) (t : Nat) (f : Team → Team) : (s.modTeam t f).fwB = s.fwB := by unfold State.modTeam; split <;> rfl
@[simp] theorem modTeam_running (s : State) (t : Nat) (f : Team → Team) : (s.modTeam t f).running = s.running := by unfold State.modTeam; split <;> rfl
@[simp] theorem modTeam_active (s : State) (t : Nat) (f : Team → Team) : (s.modTeam t f).active = s.active := by unfold State.modTeam; split <;> rfl
@[simp] theorem modTeam_capFlit (s : State) (t : Nat) (f : Team → Team) : (s.modTeam t f).capFlit = s.capFlit := by unfold State.modTeam; split <;> rfl
@[simp] theorem modTeam_capCores (s : State) (t : Nat) (f : Team → Team) : (s.modTeam t f).capCores = s.capCores := by unfold State.modTeam; split <;> rfl
@[simp] theorem modTeam_capMem (s : State) (t : Nat) (f : Team → Team) : (s.modTeam t f).capMem = s.capMem := by unfold State.modTeam; split <;> rfl
@[simp] theorem modTeam_capLink (s : State) (t : Nat) (f : Team → Team) : (s.modTeam t f).capLink = s.capLink := by unfold State.modTeam; split <;> rfl
@[simp] theorem modTeam_capLinkHeld (s : State) (t : Nat) (f : Team → Team) : (s.modTeam t f).capLinkHeld = s.capLinkHeld := by unfold State.modTeam; split <;> rfl
@[simp] theorem modTeam_time (s : State) (t : Nat) (f : Team → Team) : (s.modTeam t f).time = s.time := by unfold State.modTeam; split <;> rfl
@[simp] theorem modTeam_clocks (s : State) (t : Nat) (f : Team → Team) : (s.modTeam t f).clocks = s.clocks := by unfold State.modTeam; split <;> rfl
@[simp] theorem modTeam_ports (s : State) (t : Nat) (f : Team → Team) : (s.modTeam t f).ports = s.ports := by unfold State.modTeam; split <;> rfl
@[simp] theorem modTeam_partnerPairs (s : State) (t : Nat) (f : Team → Team) : (s.modTeam t f).partnerPairs = s.partnerPairs := by unfold State.modTeam; split <;> rfl
@[simp] theorem modTeam_hostUp (s : State) (t : Nat) (f : Team → Team) : (s.modTeam t f).hostUp = s.hostUp := by unfold State.modTeam; split <;> rfl
@[simp] theorem modTeam_hostDownSince (s : State) (t : Nat) (f : Team → Team) : (s.modTeam t f).hostDownSince = s.hostDownSince := by unfold State.modTeam; split <;> rfl
@[simp] theorem modTeam_singleBit (s : State) (t : Nat) (f : Team → Team) : (s.modTeam t f).singleBit = s.singleBit := by unfold State.modTeam; split <;> rfl
@[simp] theorem modTeam_doubleBit (s : State) (t : Nat) (f : Team → Team) : (s.modTeam t f).doubleBit = s.doubleBit := by unfold State.modTeam; split <;> rfl
@[simp] theorem modTeam_droppedWb (s : State) (t : Nat) (f : Team → Team) : (s.modTeam t f).droppedWb = s.droppedWb := by unfold State.modTeam; split <;> rfl
@[simp] theorem modTeam_mhz (s : State) (t : Nat) (f : Team → Team) : (s.modTeam t f).mhz = s.mhz := by unfold State.modTeam; split <;> rfl
@[simp] theorem modTeam_watts (s : State) (t : Nat) (f : Team → Team) : (s.modTeam t f).watts = s.watts := by unfold State.modTeam; split <;> rfl
@[simp] theorem modTeam_powerLimit (s : State) (t : Nat) (f : Team → Team) : (s.modTeam t f).powerLimit = s.powerLimit := by unfold State.modTeam; split <;> rfl
@[simp] theorem modTeam_droop (s : State) (t : Nat) (f : Team → Team) : (s.modTeam t f).droop = s.droop := by unfold State.modTeam; split <;> rfl
@[simp] theorem modTeam_channels (s : State) (t : Nat) (f : Team → Team) : (s.modTeam t f).channels = s.channels := by unfold State.modTeam; split <;> rfl
@[simp] theorem modTeam_badChannels (s : State) (t : Nat) (f : Team → Team) : (s.modTeam t f).badChannels = s.badChannels := by unfold State.modTeam; split <;> rfl
@[simp] theorem modTeam_quietExp (s : State) (t : Nat) (f : Team → Team) : (s.modTeam t f).quietExp = s.quietExp := by unfold State.modTeam; split <;> rfl
@[simp] theorem modTeam_armed (s : State) (t : Nat) (f : Team → Team) : (s.modTeam t f).armed = s.armed := by unfold State.modTeam; split <;> rfl
@[simp] theorem modTeam_bkpts (s : State) (t : Nat) (f : Team → Team) : (s.modTeam t f).bkpts = s.bkpts := by unfold State.modTeam; split <;> rfl
@[simp] theorem modTeam_watches (s : State) (t : Nat) (f : Team → Team) : (s.modTeam t f).watches = s.watches := by unfold State.modTeam; split <;> rfl
@[simp] theorem modTeam_trace (s : State) (t : Nat) (f : Team → Team) : (s.modTeam t f).trace = s.trace := by unfold State.modTeam; split <;> rfl
@[simp] theorem modTeam_booted (s : State) (t : Nat) (f : Team → Team) : (s.modTeam t f).booted = s.booted := by unfold State.modTeam; split <;> rfl
@[simp] theorem modTeam_bootStep (s : State) (t : Nat) (f : Team → Team) : (s.modTeam t f).bootStep = s.bootStep := by unfold State.modTeam; split <;> rfl
@[simp] theorem modTeam_task (s : State) (t : Nat) (f : Team → Team) : (s.modTeam t f).task = s.task := by unfold State.modTeam; split <;> rfl
@[simp] theorem modTeam_agenda (s : State) (t : Nat) (f : Team → Team) : (s.modTeam t f).agenda = s.agenda := by unfold State.modTeam; split <;> rfl
@[simp] theorem modTeam_turns (s : State) (t : Nat) (f : Team → Team) : (s.modTeam t f).turns = s.turns := by unfold State.modTeam; split <;> rfl
@[simp] theorem modTeam_cur (s : State) (t : Nat) (f : Team → Team) : (s.modTeam t f).cur = s.cur := by unfold State.modTeam; split <;> rfl
@[simp] theorem modTeam_snap (s : State) (t : Nat) (f : Team → Team) : (s.modTeam t f).snap = s.snap := by unfold State.modTeam; split <;> rfl
@[simp] theorem modTeam_twin (s : State) (t : Nat) (f : Team → Team) : (s.modTeam t f).twin = s.twin := by unfold State.modTeam; split <;> rfl
@[simp] theorem modTeam_offers (s : State) (t : Nat) (f : Team → Team) : (s.modTeam t f).offers = s.offers := by unfold State.modTeam; split <;> rfl
@[simp] theorem modTeam_wrote (s : State) (t : Nat) (f : Team → Team) : (s.modTeam t f).wrote = s.wrote := by unfold State.modTeam; split <;> rfl
@[simp] theorem modTeam_missQ (s : State) (t : Nat) (f : Team → Team) : (s.modTeam t f).missQ = s.missQ := by unfold State.modTeam; split <;> rfl
@[simp] theorem modTeam_asked (s : State) (t : Nat) (f : Team → Team) : (s.modTeam t f).asked = s.asked := by unfold State.modTeam; split <;> rfl
@[simp] theorem modTeam_blocked (s : State) (t : Nat) (f : Team → Team) : (s.modTeam t f).blocked = s.blocked := by unfold State.modTeam; split <;> rfl
@[simp] theorem modTeam_fresh (s : State) (t : Nat) (f : Team → Team) : (s.modTeam t f).fresh = s.fresh := by unfold State.modTeam; split <;> rfl
@[simp] theorem modTeam_freeCount (s : State) (t : Nat) (f : Team → Team) : (s.modTeam t f).freeCount = s.freeCount := by unfold State.modTeam; split <;> rfl

/-! ### `modLaunch` leaves every field but `launches` -/

@[simp] theorem modLaunch_cores (s : State) (l : Nat) (f : Launch → Launch) : (s.modLaunch l f).cores = s.cores := by unfold State.modLaunch; split <;> rfl
@[simp] theorem modLaunch_teams (s : State) (l : Nat) (f : Launch → Launch) : (s.modLaunch l f).teams = s.teams := by unfold State.modLaunch; split <;> rfl
@[simp] theorem modLaunch_pending (s : State) (l : Nat) (f : Launch → Launch) : (s.modLaunch l f).pending = s.pending := by unfold State.modLaunch; split <;> rfl
@[simp] theorem modLaunch_lastCore (s : State) (l : Nat) (f : Launch → Launch) : (s.modLaunch l f).lastCore = s.lastCore := by unfold State.modLaunch; split <;> rfl
@[simp] theorem modLaunch_mem (s : State) (l : Nat) (f : Launch → Launch) : (s.modLaunch l f).mem = s.mem := by unfold State.modLaunch; split <;> rfl
@[simp] theorem modLaunch_tags (s : State) (l : Nat) (f : Launch → Launch) : (s.modLaunch l f).tags = s.tags := by unfold State.modLaunch; split <;> rfl
@[simp] theorem modLaunch_l2 (s : State) (l : Nat) (f : Launch → Launch) : (s.modLaunch l f).l2 = s.l2 := by unfold State.modLaunch; split <;> rfl
@[simp] theorem modLaunch_ncache (s : State) (l : Nat) (f : Launch → Launch) : (s.modLaunch l f).ncache = s.ncache := by unfold State.modLaunch; split <;> rfl
@[simp] theorem modLaunch_attrs (s : State) (l : Nat) (f : Launch → Launch) : (s.modLaunch l f).attrs = s.attrs := by unfold State.modLaunch; split <;> rfl
@[simp] theorem modLaunch_notes (s : State) (l : Nat) (f : Launch → Launch) : (s.modLaunch l f).notes = s.notes := by unfold State.modLaunch; split <;> rfl
@[simp] theorem modLaunch_tlb (s : State) (l : Nat) (f : Launch → Launch) : (s.modLaunch l f).tlb = s.tlb := by unfold State.modLaunch; split <;> rfl
@[simp] theorem modLaunch_gtlb (s : State) (l : Nat) (f : Launch → Launch) : (s.modLaunch l f).gtlb = s.gtlb := by unfold State.modLaunch; split <;> rfl
@[simp] theorem modLaunch_icache (s : State) (l : Nat) (f : Launch → Launch) : (s.modLaunch l f).icache = s.icache := by unfold State.modLaunch; split <;> rfl
@[simp] theorem modLaunch_imiss (s : State) (l : Nat) (f : Launch → Launch) : (s.modLaunch l f).imiss = s.imiss := by unfold State.modLaunch; split <;> rfl
@[simp] theorem modLaunch_waiters (s : State) (l : Nat) (f : Launch → Launch) : (s.modLaunch l f).waiters = s.waiters := by unfold State.modLaunch; split <;> rfl
@[simp] theorem modLaunch_queues (s : State) (l : Nat) (f : Launch → Launch) : (s.modLaunch l f).queues = s.queues := by unfold State.modLaunch; split <;> rfl
@[simp] theorem modLaunch_ctxs (s : State) (l : Nat) (f : Launch → Launch) : (s.modLaunch l f).ctxs = s.ctxs := by unfold State.modLaunch; split <;> rfl
@[simp] theorem modLaunch_deposits (s : State) (l : Nat) (f : Launch → Launch) : (s.modLaunch l f).deposits = s.deposits := by unfold State.modLaunch; split <;> rfl
@[simp] theorem modLaunch_outbox (s : State) (l : Nat) (f : Launch → Launch) : (s.modLaunch l f).outbox = s.outbox := by unfold State.modLaunch; split <;> rfl
@[simp] theorem modLaunch_handoffUsed (s : State) (l : Nat) (f : Launch → Launch) : (s.modLaunch l f).handoffUsed = s.handoffUsed := by unfold State.modLaunch; split <;> rfl
@[simp] theorem modLaunch_faultBase (s : State) (l : Nat) (f : Launch → Launch) : (s.modLaunch l f).faultBase = s.faultBase := by unfold State.modLaunch; split <;> rfl
@[simp] theorem modLaunch_faultCount (s : State) (l : Nat) (f : Launch → Launch) : (s.modLaunch l f).faultCount = s.faultCount := by unfold State.modLaunch; split <;> rfl
@[simp] theorem modLaunch_fhead (s : State) (l : Nat) (f : Launch → Launch) : (s.modLaunch l f).fhead = s.fhead := by unfold State.modLaunch; split <;> rfl
@[simp] theorem modLaunch_ftail (s : State) (l : Nat) (f : Launch → Launch) : (s.modLaunch l f).ftail = s.ftail := by unfold State.modLaunch; split <;> rfl
@[simp] theorem modLaunch_lost (s : State) (l : Nat) (f : Launch → Launch) : (s.modLaunch l f).lost = s.lost := by unfold State.modLaunch; split <;> rfl
@[simp] theorem modLaunch_fid (s : State) (l : Nat) (f : Launch → Launch) : (s.modLaunch l f).fid = s.fid := by unfold State.modLaunch; split <;> rfl
@[simp] theorem modLaunch_heldFaults (s : State) (l : Nat) (f : Launch → Launch) : (s.modLaunch l f).heldFaults = s.heldFaults := by unfold State.modLaunch; split <;> rfl
@[simp] theorem modLaunch_faultWait (s : State) (l : Nat) (f : Launch → Launch) : (s.modLaunch l f).faultWait = s.faultWait := by unfold State.modLaunch; split <;> rfl
@[simp] theorem modLaunch_recWait (s : State) (l : Nat) (f : Launch → Launch) : (s.modLaunch l f).recWait = s.recWait := by unfold State.modLaunch; split <;> rfl
@[simp] theorem modLaunch_takeUps (s : State) (l : Nat) (f : Launch → Launch) : (s.modLaunch l f).takeUps = s.takeUps := by unfold State.modLaunch; split <;> rfl
@[simp] theorem modLaunch_outside (s : State) (l : Nat) (f : Launch → Launch) : (s.modLaunch l f).outside = s.outside := by unfold State.modLaunch; split <;> rfl
@[simp] theorem modLaunch_cmd (s : State) (l : Nat) (f : Launch → Launch) : (s.modLaunch l f).cmd = s.cmd := by unfold State.modLaunch; split <;> rfl
@[simp] theorem modLaunch_resp (s : State) (l : Nat) (f : Launch → Launch) : (s.modLaunch l f).resp = s.resp := by unfold State.modLaunch; split <;> rfl
@[simp] theorem modLaunch_ierr (s : State) (l : Nat) (f : Launch → Launch) : (s.modLaunch l f).ierr = s.ierr := by unfold State.modLaunch; split <;> rfl
@[simp] theorem modLaunch_msix (s : State) (l : Nat) (f : Launch → Launch) : (s.modLaunch l f).msix = s.msix := by unfold State.modLaunch; split <;> rfl
@[simp] theorem modLaunch_hostGot (s : State) (l : Nat) (f : Launch → Launch) : (s.modLaunch l f).hostGot = s.hostGot := by unfold State.modLaunch; split <;> rfl
@[simp] theorem modLaunch_ingress (s : State) (l : Nat) (f : Launch → Launch) : (s.modLaunch l f).ingress = s.ingress := by unfold State.modLaunch; split <;> rfl
@[simp] theorem modLaunch_sealed (s : State) (l : Nat) (f : Launch → Launch) : (s.modLaunch l f).sealed = s.sealed := by unfold State.modLaunch; split <;> rfl
@[simp] theorem modLaunch_verified (s : State) (l : Nat) (f : Launch → Launch) : (s.modLaunch l f).verified = s.verified := by unfold State.modLaunch; split <;> rfl
@[simp] theorem modLaunch_badPages (s : State) (l : Nat) (f : Launch → Launch) : (s.modLaunch l f).badPages = s.badPages := by unfold State.modLaunch; split <;> rfl
@[simp] theorem modLaunch_measure (s : State) (l : Nat) (f : Launch → Launch) : (s.modLaunch l f).measure = s.measure := by unfold State.modLaunch; split <;> rfl
@[simp] theorem modLaunch_fwA (s : State) (l : Nat) (f : Launch → Launch) : (s.modLaunch l f).fwA = s.fwA := by unfold State.modLaunch; split <;> rfl
@[simp] theorem modLaunch_fwB (s : State) (l : Nat) (f : Launch → Launch) : (s.modLaunch l f).fwB = s.fwB := by unfold State.modLaunch; split <;> rfl
@[simp] theorem modLaunch_running (s : State) (l : Nat) (f : Launch → Launch) : (s.modLaunch l f).running = s.running := by unfold State.modLaunch; split <;> rfl
@[simp] theorem modLaunch_active (s : State) (l : Nat) (f : Launch → Launch) : (s.modLaunch l f).active = s.active := by unfold State.modLaunch; split <;> rfl
@[simp] theorem modLaunch_capFlit (s : State) (l : Nat) (f : Launch → Launch) : (s.modLaunch l f).capFlit = s.capFlit := by unfold State.modLaunch; split <;> rfl
@[simp] theorem modLaunch_capCores (s : State) (l : Nat) (f : Launch → Launch) : (s.modLaunch l f).capCores = s.capCores := by unfold State.modLaunch; split <;> rfl
@[simp] theorem modLaunch_capMem (s : State) (l : Nat) (f : Launch → Launch) : (s.modLaunch l f).capMem = s.capMem := by unfold State.modLaunch; split <;> rfl
@[simp] theorem modLaunch_capLink (s : State) (l : Nat) (f : Launch → Launch) : (s.modLaunch l f).capLink = s.capLink := by unfold State.modLaunch; split <;> rfl
@[simp] theorem modLaunch_capLinkHeld (s : State) (l : Nat) (f : Launch → Launch) : (s.modLaunch l f).capLinkHeld = s.capLinkHeld := by unfold State.modLaunch; split <;> rfl
@[simp] theorem modLaunch_time (s : State) (l : Nat) (f : Launch → Launch) : (s.modLaunch l f).time = s.time := by unfold State.modLaunch; split <;> rfl
@[simp] theorem modLaunch_clocks (s : State) (l : Nat) (f : Launch → Launch) : (s.modLaunch l f).clocks = s.clocks := by unfold State.modLaunch; split <;> rfl
@[simp] theorem modLaunch_ports (s : State) (l : Nat) (f : Launch → Launch) : (s.modLaunch l f).ports = s.ports := by unfold State.modLaunch; split <;> rfl
@[simp] theorem modLaunch_partnerPairs (s : State) (l : Nat) (f : Launch → Launch) : (s.modLaunch l f).partnerPairs = s.partnerPairs := by unfold State.modLaunch; split <;> rfl
@[simp] theorem modLaunch_hostUp (s : State) (l : Nat) (f : Launch → Launch) : (s.modLaunch l f).hostUp = s.hostUp := by unfold State.modLaunch; split <;> rfl
@[simp] theorem modLaunch_hostDownSince (s : State) (l : Nat) (f : Launch → Launch) : (s.modLaunch l f).hostDownSince = s.hostDownSince := by unfold State.modLaunch; split <;> rfl
@[simp] theorem modLaunch_singleBit (s : State) (l : Nat) (f : Launch → Launch) : (s.modLaunch l f).singleBit = s.singleBit := by unfold State.modLaunch; split <;> rfl
@[simp] theorem modLaunch_doubleBit (s : State) (l : Nat) (f : Launch → Launch) : (s.modLaunch l f).doubleBit = s.doubleBit := by unfold State.modLaunch; split <;> rfl
@[simp] theorem modLaunch_droppedWb (s : State) (l : Nat) (f : Launch → Launch) : (s.modLaunch l f).droppedWb = s.droppedWb := by unfold State.modLaunch; split <;> rfl
@[simp] theorem modLaunch_mhz (s : State) (l : Nat) (f : Launch → Launch) : (s.modLaunch l f).mhz = s.mhz := by unfold State.modLaunch; split <;> rfl
@[simp] theorem modLaunch_watts (s : State) (l : Nat) (f : Launch → Launch) : (s.modLaunch l f).watts = s.watts := by unfold State.modLaunch; split <;> rfl
@[simp] theorem modLaunch_powerLimit (s : State) (l : Nat) (f : Launch → Launch) : (s.modLaunch l f).powerLimit = s.powerLimit := by unfold State.modLaunch; split <;> rfl
@[simp] theorem modLaunch_droop (s : State) (l : Nat) (f : Launch → Launch) : (s.modLaunch l f).droop = s.droop := by unfold State.modLaunch; split <;> rfl
@[simp] theorem modLaunch_channels (s : State) (l : Nat) (f : Launch → Launch) : (s.modLaunch l f).channels = s.channels := by unfold State.modLaunch; split <;> rfl
@[simp] theorem modLaunch_badChannels (s : State) (l : Nat) (f : Launch → Launch) : (s.modLaunch l f).badChannels = s.badChannels := by unfold State.modLaunch; split <;> rfl
@[simp] theorem modLaunch_quietExp (s : State) (l : Nat) (f : Launch → Launch) : (s.modLaunch l f).quietExp = s.quietExp := by unfold State.modLaunch; split <;> rfl
@[simp] theorem modLaunch_armed (s : State) (l : Nat) (f : Launch → Launch) : (s.modLaunch l f).armed = s.armed := by unfold State.modLaunch; split <;> rfl
@[simp] theorem modLaunch_bkpts (s : State) (l : Nat) (f : Launch → Launch) : (s.modLaunch l f).bkpts = s.bkpts := by unfold State.modLaunch; split <;> rfl
@[simp] theorem modLaunch_watches (s : State) (l : Nat) (f : Launch → Launch) : (s.modLaunch l f).watches = s.watches := by unfold State.modLaunch; split <;> rfl
@[simp] theorem modLaunch_trace (s : State) (l : Nat) (f : Launch → Launch) : (s.modLaunch l f).trace = s.trace := by unfold State.modLaunch; split <;> rfl
@[simp] theorem modLaunch_booted (s : State) (l : Nat) (f : Launch → Launch) : (s.modLaunch l f).booted = s.booted := by unfold State.modLaunch; split <;> rfl
@[simp] theorem modLaunch_bootStep (s : State) (l : Nat) (f : Launch → Launch) : (s.modLaunch l f).bootStep = s.bootStep := by unfold State.modLaunch; split <;> rfl
@[simp] theorem modLaunch_task (s : State) (l : Nat) (f : Launch → Launch) : (s.modLaunch l f).task = s.task := by unfold State.modLaunch; split <;> rfl
@[simp] theorem modLaunch_agenda (s : State) (l : Nat) (f : Launch → Launch) : (s.modLaunch l f).agenda = s.agenda := by unfold State.modLaunch; split <;> rfl
@[simp] theorem modLaunch_turns (s : State) (l : Nat) (f : Launch → Launch) : (s.modLaunch l f).turns = s.turns := by unfold State.modLaunch; split <;> rfl
@[simp] theorem modLaunch_cur (s : State) (l : Nat) (f : Launch → Launch) : (s.modLaunch l f).cur = s.cur := by unfold State.modLaunch; split <;> rfl
@[simp] theorem modLaunch_snap (s : State) (l : Nat) (f : Launch → Launch) : (s.modLaunch l f).snap = s.snap := by unfold State.modLaunch; split <;> rfl
@[simp] theorem modLaunch_twin (s : State) (l : Nat) (f : Launch → Launch) : (s.modLaunch l f).twin = s.twin := by unfold State.modLaunch; split <;> rfl
@[simp] theorem modLaunch_offers (s : State) (l : Nat) (f : Launch → Launch) : (s.modLaunch l f).offers = s.offers := by unfold State.modLaunch; split <;> rfl
@[simp] theorem modLaunch_wrote (s : State) (l : Nat) (f : Launch → Launch) : (s.modLaunch l f).wrote = s.wrote := by unfold State.modLaunch; split <;> rfl
@[simp] theorem modLaunch_missQ (s : State) (l : Nat) (f : Launch → Launch) : (s.modLaunch l f).missQ = s.missQ := by unfold State.modLaunch; split <;> rfl
@[simp] theorem modLaunch_asked (s : State) (l : Nat) (f : Launch → Launch) : (s.modLaunch l f).asked = s.asked := by unfold State.modLaunch; split <;> rfl
@[simp] theorem modLaunch_blocked (s : State) (l : Nat) (f : Launch → Launch) : (s.modLaunch l f).blocked = s.blocked := by unfold State.modLaunch; split <;> rfl
@[simp] theorem modLaunch_fresh (s : State) (l : Nat) (f : Launch → Launch) : (s.modLaunch l f).fresh = s.fresh := by unfold State.modLaunch; split <;> rfl
@[simp] theorem modLaunch_freeCount (s : State) (l : Nat) (f : Launch → Launch) : (s.modLaunch l f).freeCount = s.freeCount := by unfold State.modLaunch; split <;> rfl

/-! ### `modCtx` leaves every field but `ctxs` -/

@[simp] theorem modCtx_cores (s : State) (n : Nat) (f : Ctx → Ctx) : (s.modCtx n f).cores = s.cores := by unfold State.modCtx; split <;> rfl
@[simp] theorem modCtx_teams (s : State) (n : Nat) (f : Ctx → Ctx) : (s.modCtx n f).teams = s.teams := by unfold State.modCtx; split <;> rfl
@[simp] theorem modCtx_launches (s : State) (n : Nat) (f : Ctx → Ctx) : (s.modCtx n f).launches = s.launches := by unfold State.modCtx; split <;> rfl
@[simp] theorem modCtx_checks (s : State) (n : Nat) (f : Ctx → Ctx) : (s.modCtx n f).checks = s.checks := by unfold State.modCtx; split <;> rfl
@[simp] theorem modCtx_pending (s : State) (n : Nat) (f : Ctx → Ctx) : (s.modCtx n f).pending = s.pending := by unfold State.modCtx; split <;> rfl
@[simp] theorem modCtx_lastCore (s : State) (n : Nat) (f : Ctx → Ctx) : (s.modCtx n f).lastCore = s.lastCore := by unfold State.modCtx; split <;> rfl
@[simp] theorem modCtx_mem (s : State) (n : Nat) (f : Ctx → Ctx) : (s.modCtx n f).mem = s.mem := by unfold State.modCtx; split <;> rfl
@[simp] theorem modCtx_tags (s : State) (n : Nat) (f : Ctx → Ctx) : (s.modCtx n f).tags = s.tags := by unfold State.modCtx; split <;> rfl
@[simp] theorem modCtx_l2 (s : State) (n : Nat) (f : Ctx → Ctx) : (s.modCtx n f).l2 = s.l2 := by unfold State.modCtx; split <;> rfl
@[simp] theorem modCtx_ncache (s : State) (n : Nat) (f : Ctx → Ctx) : (s.modCtx n f).ncache = s.ncache := by unfold State.modCtx; split <;> rfl
@[simp] theorem modCtx_attrs (s : State) (n : Nat) (f : Ctx → Ctx) : (s.modCtx n f).attrs = s.attrs := by unfold State.modCtx; split <;> rfl
@[simp] theorem modCtx_notes (s : State) (n : Nat) (f : Ctx → Ctx) : (s.modCtx n f).notes = s.notes := by unfold State.modCtx; split <;> rfl
@[simp] theorem modCtx_tlb (s : State) (n : Nat) (f : Ctx → Ctx) : (s.modCtx n f).tlb = s.tlb := by unfold State.modCtx; split <;> rfl
@[simp] theorem modCtx_gtlb (s : State) (n : Nat) (f : Ctx → Ctx) : (s.modCtx n f).gtlb = s.gtlb := by unfold State.modCtx; split <;> rfl
@[simp] theorem modCtx_icache (s : State) (n : Nat) (f : Ctx → Ctx) : (s.modCtx n f).icache = s.icache := by unfold State.modCtx; split <;> rfl
@[simp] theorem modCtx_imiss (s : State) (n : Nat) (f : Ctx → Ctx) : (s.modCtx n f).imiss = s.imiss := by unfold State.modCtx; split <;> rfl
@[simp] theorem modCtx_waiters (s : State) (n : Nat) (f : Ctx → Ctx) : (s.modCtx n f).waiters = s.waiters := by unfold State.modCtx; split <;> rfl
@[simp] theorem modCtx_queues (s : State) (n : Nat) (f : Ctx → Ctx) : (s.modCtx n f).queues = s.queues := by unfold State.modCtx; split <;> rfl
@[simp] theorem modCtx_deposits (s : State) (n : Nat) (f : Ctx → Ctx) : (s.modCtx n f).deposits = s.deposits := by unfold State.modCtx; split <;> rfl
@[simp] theorem modCtx_outbox (s : State) (n : Nat) (f : Ctx → Ctx) : (s.modCtx n f).outbox = s.outbox := by unfold State.modCtx; split <;> rfl
@[simp] theorem modCtx_handoffUsed (s : State) (n : Nat) (f : Ctx → Ctx) : (s.modCtx n f).handoffUsed = s.handoffUsed := by unfold State.modCtx; split <;> rfl
@[simp] theorem modCtx_faultBase (s : State) (n : Nat) (f : Ctx → Ctx) : (s.modCtx n f).faultBase = s.faultBase := by unfold State.modCtx; split <;> rfl
@[simp] theorem modCtx_faultCount (s : State) (n : Nat) (f : Ctx → Ctx) : (s.modCtx n f).faultCount = s.faultCount := by unfold State.modCtx; split <;> rfl
@[simp] theorem modCtx_fhead (s : State) (n : Nat) (f : Ctx → Ctx) : (s.modCtx n f).fhead = s.fhead := by unfold State.modCtx; split <;> rfl
@[simp] theorem modCtx_ftail (s : State) (n : Nat) (f : Ctx → Ctx) : (s.modCtx n f).ftail = s.ftail := by unfold State.modCtx; split <;> rfl
@[simp] theorem modCtx_lost (s : State) (n : Nat) (f : Ctx → Ctx) : (s.modCtx n f).lost = s.lost := by unfold State.modCtx; split <;> rfl
@[simp] theorem modCtx_fid (s : State) (n : Nat) (f : Ctx → Ctx) : (s.modCtx n f).fid = s.fid := by unfold State.modCtx; split <;> rfl
@[simp] theorem modCtx_heldFaults (s : State) (n : Nat) (f : Ctx → Ctx) : (s.modCtx n f).heldFaults = s.heldFaults := by unfold State.modCtx; split <;> rfl
@[simp] theorem modCtx_faultWait (s : State) (n : Nat) (f : Ctx → Ctx) : (s.modCtx n f).faultWait = s.faultWait := by unfold State.modCtx; split <;> rfl
@[simp] theorem modCtx_recWait (s : State) (n : Nat) (f : Ctx → Ctx) : (s.modCtx n f).recWait = s.recWait := by unfold State.modCtx; split <;> rfl
@[simp] theorem modCtx_takeUps (s : State) (n : Nat) (f : Ctx → Ctx) : (s.modCtx n f).takeUps = s.takeUps := by unfold State.modCtx; split <;> rfl
@[simp] theorem modCtx_outside (s : State) (n : Nat) (f : Ctx → Ctx) : (s.modCtx n f).outside = s.outside := by unfold State.modCtx; split <;> rfl
@[simp] theorem modCtx_cmd (s : State) (n : Nat) (f : Ctx → Ctx) : (s.modCtx n f).cmd = s.cmd := by unfold State.modCtx; split <;> rfl
@[simp] theorem modCtx_resp (s : State) (n : Nat) (f : Ctx → Ctx) : (s.modCtx n f).resp = s.resp := by unfold State.modCtx; split <;> rfl
@[simp] theorem modCtx_ierr (s : State) (n : Nat) (f : Ctx → Ctx) : (s.modCtx n f).ierr = s.ierr := by unfold State.modCtx; split <;> rfl
@[simp] theorem modCtx_msix (s : State) (n : Nat) (f : Ctx → Ctx) : (s.modCtx n f).msix = s.msix := by unfold State.modCtx; split <;> rfl
@[simp] theorem modCtx_hostGot (s : State) (n : Nat) (f : Ctx → Ctx) : (s.modCtx n f).hostGot = s.hostGot := by unfold State.modCtx; split <;> rfl
@[simp] theorem modCtx_ingress (s : State) (n : Nat) (f : Ctx → Ctx) : (s.modCtx n f).ingress = s.ingress := by unfold State.modCtx; split <;> rfl
@[simp] theorem modCtx_sealed (s : State) (n : Nat) (f : Ctx → Ctx) : (s.modCtx n f).sealed = s.sealed := by unfold State.modCtx; split <;> rfl
@[simp] theorem modCtx_verified (s : State) (n : Nat) (f : Ctx → Ctx) : (s.modCtx n f).verified = s.verified := by unfold State.modCtx; split <;> rfl
@[simp] theorem modCtx_badPages (s : State) (n : Nat) (f : Ctx → Ctx) : (s.modCtx n f).badPages = s.badPages := by unfold State.modCtx; split <;> rfl
@[simp] theorem modCtx_measure (s : State) (n : Nat) (f : Ctx → Ctx) : (s.modCtx n f).measure = s.measure := by unfold State.modCtx; split <;> rfl
@[simp] theorem modCtx_fwA (s : State) (n : Nat) (f : Ctx → Ctx) : (s.modCtx n f).fwA = s.fwA := by unfold State.modCtx; split <;> rfl
@[simp] theorem modCtx_fwB (s : State) (n : Nat) (f : Ctx → Ctx) : (s.modCtx n f).fwB = s.fwB := by unfold State.modCtx; split <;> rfl
@[simp] theorem modCtx_running (s : State) (n : Nat) (f : Ctx → Ctx) : (s.modCtx n f).running = s.running := by unfold State.modCtx; split <;> rfl
@[simp] theorem modCtx_active (s : State) (n : Nat) (f : Ctx → Ctx) : (s.modCtx n f).active = s.active := by unfold State.modCtx; split <;> rfl
@[simp] theorem modCtx_capFlit (s : State) (n : Nat) (f : Ctx → Ctx) : (s.modCtx n f).capFlit = s.capFlit := by unfold State.modCtx; split <;> rfl
@[simp] theorem modCtx_capCores (s : State) (n : Nat) (f : Ctx → Ctx) : (s.modCtx n f).capCores = s.capCores := by unfold State.modCtx; split <;> rfl
@[simp] theorem modCtx_capMem (s : State) (n : Nat) (f : Ctx → Ctx) : (s.modCtx n f).capMem = s.capMem := by unfold State.modCtx; split <;> rfl
@[simp] theorem modCtx_capLink (s : State) (n : Nat) (f : Ctx → Ctx) : (s.modCtx n f).capLink = s.capLink := by unfold State.modCtx; split <;> rfl
@[simp] theorem modCtx_capLinkHeld (s : State) (n : Nat) (f : Ctx → Ctx) : (s.modCtx n f).capLinkHeld = s.capLinkHeld := by unfold State.modCtx; split <;> rfl
@[simp] theorem modCtx_time (s : State) (n : Nat) (f : Ctx → Ctx) : (s.modCtx n f).time = s.time := by unfold State.modCtx; split <;> rfl
@[simp] theorem modCtx_clocks (s : State) (n : Nat) (f : Ctx → Ctx) : (s.modCtx n f).clocks = s.clocks := by unfold State.modCtx; split <;> rfl
@[simp] theorem modCtx_ports (s : State) (n : Nat) (f : Ctx → Ctx) : (s.modCtx n f).ports = s.ports := by unfold State.modCtx; split <;> rfl
@[simp] theorem modCtx_partnerPairs (s : State) (n : Nat) (f : Ctx → Ctx) : (s.modCtx n f).partnerPairs = s.partnerPairs := by unfold State.modCtx; split <;> rfl
@[simp] theorem modCtx_hostUp (s : State) (n : Nat) (f : Ctx → Ctx) : (s.modCtx n f).hostUp = s.hostUp := by unfold State.modCtx; split <;> rfl
@[simp] theorem modCtx_hostDownSince (s : State) (n : Nat) (f : Ctx → Ctx) : (s.modCtx n f).hostDownSince = s.hostDownSince := by unfold State.modCtx; split <;> rfl
@[simp] theorem modCtx_singleBit (s : State) (n : Nat) (f : Ctx → Ctx) : (s.modCtx n f).singleBit = s.singleBit := by unfold State.modCtx; split <;> rfl
@[simp] theorem modCtx_doubleBit (s : State) (n : Nat) (f : Ctx → Ctx) : (s.modCtx n f).doubleBit = s.doubleBit := by unfold State.modCtx; split <;> rfl
@[simp] theorem modCtx_droppedWb (s : State) (n : Nat) (f : Ctx → Ctx) : (s.modCtx n f).droppedWb = s.droppedWb := by unfold State.modCtx; split <;> rfl
@[simp] theorem modCtx_mhz (s : State) (n : Nat) (f : Ctx → Ctx) : (s.modCtx n f).mhz = s.mhz := by unfold State.modCtx; split <;> rfl
@[simp] theorem modCtx_watts (s : State) (n : Nat) (f : Ctx → Ctx) : (s.modCtx n f).watts = s.watts := by unfold State.modCtx; split <;> rfl
@[simp] theorem modCtx_powerLimit (s : State) (n : Nat) (f : Ctx → Ctx) : (s.modCtx n f).powerLimit = s.powerLimit := by unfold State.modCtx; split <;> rfl
@[simp] theorem modCtx_droop (s : State) (n : Nat) (f : Ctx → Ctx) : (s.modCtx n f).droop = s.droop := by unfold State.modCtx; split <;> rfl
@[simp] theorem modCtx_channels (s : State) (n : Nat) (f : Ctx → Ctx) : (s.modCtx n f).channels = s.channels := by unfold State.modCtx; split <;> rfl
@[simp] theorem modCtx_badChannels (s : State) (n : Nat) (f : Ctx → Ctx) : (s.modCtx n f).badChannels = s.badChannels := by unfold State.modCtx; split <;> rfl
@[simp] theorem modCtx_quietExp (s : State) (n : Nat) (f : Ctx → Ctx) : (s.modCtx n f).quietExp = s.quietExp := by unfold State.modCtx; split <;> rfl
@[simp] theorem modCtx_armed (s : State) (n : Nat) (f : Ctx → Ctx) : (s.modCtx n f).armed = s.armed := by unfold State.modCtx; split <;> rfl
@[simp] theorem modCtx_bkpts (s : State) (n : Nat) (f : Ctx → Ctx) : (s.modCtx n f).bkpts = s.bkpts := by unfold State.modCtx; split <;> rfl
@[simp] theorem modCtx_watches (s : State) (n : Nat) (f : Ctx → Ctx) : (s.modCtx n f).watches = s.watches := by unfold State.modCtx; split <;> rfl
@[simp] theorem modCtx_trace (s : State) (n : Nat) (f : Ctx → Ctx) : (s.modCtx n f).trace = s.trace := by unfold State.modCtx; split <;> rfl
@[simp] theorem modCtx_booted (s : State) (n : Nat) (f : Ctx → Ctx) : (s.modCtx n f).booted = s.booted := by unfold State.modCtx; split <;> rfl
@[simp] theorem modCtx_bootStep (s : State) (n : Nat) (f : Ctx → Ctx) : (s.modCtx n f).bootStep = s.bootStep := by unfold State.modCtx; split <;> rfl
@[simp] theorem modCtx_task (s : State) (n : Nat) (f : Ctx → Ctx) : (s.modCtx n f).task = s.task := by unfold State.modCtx; split <;> rfl
@[simp] theorem modCtx_agenda (s : State) (n : Nat) (f : Ctx → Ctx) : (s.modCtx n f).agenda = s.agenda := by unfold State.modCtx; split <;> rfl
@[simp] theorem modCtx_turns (s : State) (n : Nat) (f : Ctx → Ctx) : (s.modCtx n f).turns = s.turns := by unfold State.modCtx; split <;> rfl
@[simp] theorem modCtx_cur (s : State) (n : Nat) (f : Ctx → Ctx) : (s.modCtx n f).cur = s.cur := by unfold State.modCtx; split <;> rfl
@[simp] theorem modCtx_snap (s : State) (n : Nat) (f : Ctx → Ctx) : (s.modCtx n f).snap = s.snap := by unfold State.modCtx; split <;> rfl
@[simp] theorem modCtx_twin (s : State) (n : Nat) (f : Ctx → Ctx) : (s.modCtx n f).twin = s.twin := by unfold State.modCtx; split <;> rfl
@[simp] theorem modCtx_offers (s : State) (n : Nat) (f : Ctx → Ctx) : (s.modCtx n f).offers = s.offers := by unfold State.modCtx; split <;> rfl
@[simp] theorem modCtx_wrote (s : State) (n : Nat) (f : Ctx → Ctx) : (s.modCtx n f).wrote = s.wrote := by unfold State.modCtx; split <;> rfl
@[simp] theorem modCtx_missQ (s : State) (n : Nat) (f : Ctx → Ctx) : (s.modCtx n f).missQ = s.missQ := by unfold State.modCtx; split <;> rfl
@[simp] theorem modCtx_asked (s : State) (n : Nat) (f : Ctx → Ctx) : (s.modCtx n f).asked = s.asked := by unfold State.modCtx; split <;> rfl
@[simp] theorem modCtx_blocked (s : State) (n : Nat) (f : Ctx → Ctx) : (s.modCtx n f).blocked = s.blocked := by unfold State.modCtx; split <;> rfl
@[simp] theorem modCtx_fresh (s : State) (n : Nat) (f : Ctx → Ctx) : (s.modCtx n f).fresh = s.fresh := by unfold State.modCtx; split <;> rfl
@[simp] theorem modCtx_freeCount (s : State) (n : Nat) (f : Ctx → Ctx) : (s.modCtx n f).freeCount = s.freeCount := by unfold State.modCtx; split <;> rfl

/-! ### What they change -/

@[simp] theorem core_setCore (s : State) (c d : Nat) (x : Core) : (s.setCore c x).core d = if d = c then x else s.core d := by
  simp only [State.core, State.setCore, FMap.getD_set]

@[simp] theorem core_modCore (s : State) (c d : Nat) (f : Core → Core) :
    (s.modCore c f).core d = if d = c then f (s.core c) else s.core d := core_setCore s c d _

theorem wave?_setWave (s : State) (c w d v : Nat) (x : Wave) :
    (s.setWave c w x).wave? d v = if d = c ∧ v = w then some x else s.wave? d v := by
  unfold State.wave? State.setWave
  rw [core_modCore]
  by_cases h : d = c
  · subst h
    rw [if_pos rfl, FMap.get_set]
    by_cases g : v = w
    · rw [if_pos g, if_pos ⟨rfl, g⟩]
    · rw [if_neg g, if_neg (fun q => g q.2)]
  · rw [if_neg h, if_neg (fun q => h q.1)]

theorem wave_eq (s : State) (d v : Nat) : s.wave d v = (s.wave? d v).getD {} := by
  unfold State.wave State.wave? FMap.getD
  cases FMap.get (s.core d).waves v <;> rfl

theorem wave_setWave (s : State) (c w d v : Nat) (x : Wave) :
    (s.setWave c w x).wave d v = if d = c ∧ v = w then x else s.wave d v := by
  rw [wave_eq, wave?_setWave, wave_eq]
  by_cases h : d = c ∧ v = w
  · rw [if_pos h, if_pos h]; rfl
  · rw [if_neg h, if_neg h]

/-- Every wave after `modWave`: the named one is changed when it exists. -/
theorem wave?_modWave (s : State) (c w d v : Nat) (f : Wave → Wave) :
    (s.modWave c w f).wave? d v = if d = c ∧ v = w then (s.wave? c w).map f else s.wave? d v := by
  unfold State.modWave
  cases h : s.wave? c w with
  | none =>
    by_cases e : d = c ∧ v = w
    · obtain ⟨rfl, rfl⟩ := e
      rw [if_pos ⟨rfl, rfl⟩]; exact h
    · rw [if_neg e]
  | some x => exact wave?_setWave s c w d v (f x)

theorem slice_setSlice (s : State) (c k d j : Nat) (x : Slice) :
    (s.setSlice c k x).slice d j = if d = c ∧ j = k then x else s.slice d j := by
  unfold State.slice State.setSlice
  rw [core_modCore]
  by_cases h : d = c
  · subst h
    rw [if_pos rfl, FMap.getD_set]
    by_cases g : j = k
    · rw [if_pos g, if_pos ⟨rfl, g⟩]
    · rw [if_neg g, if_neg (fun q => g q.2)]
  · rw [if_neg h, if_neg (fun q => h q.1)]

theorem slice_modSlice (s : State) (c k d j : Nat) (f : Slice → Slice) :
    (s.modSlice c k f).slice d j = if d = c ∧ j = k then f (s.slice c k) else s.slice d j := slice_setSlice s c k d j _

end Sys2Proof.Machine
end

