-- ==== Sys2Proof/Laws/Memory.lean ====
section
/-! SUPPORT. The state's memory operations keep the canonical form of memory, and what a write at its home stores. -/
namespace Sys2Proof.Machine

theorem reset_memOk : State.reset.memOk := rfl

/-- Waking a line's waiters leaves memory. -/
@[simp] theorem wakeLine_mem (s : State) (l : Nat) : (s.wakeLine l).mem = s.mem := by
  unfold State.wakeLine
  generalize hs : ({ s with waiters := s.waiters.filter (fun x => x.1 != l) } : State) = t
  have ht : t.mem = s.mem := by subst hs; rfl
  rw [← ht]
  clear ht hs
  generalize s.waiters.filter (fun x => x.1 == l) = ws
  induction ws generalizing t with
  | nil => rfl
  | cons a ws ih => rw [List.foldl_cons, ih, modWave_mem]

/-- A fold of steps that leave memory leaves memory. -/
theorem foldl_mem {α : Type} (f : State → α → State) (hf : ∀ s a, (f s a).mem = s.mem) (l : List α) (s : State) :
    (l.foldl f s).mem = s.mem := by
  induction l generalizing s with
  | nil => rfl
  | cons a l ih => rw [List.foldl_cons, ih, hf]

/-! ### Spill areas (R173) -/

/-- Bytes outside the spill areas of resident walks are read as they are stored. -/
theorem seen_plain (s : State) (k : Nat) (bs : List Byte) (h : ∀ l ∈ linesOf k bs.length, s.spillArea l = false) :
    s.seen k bs = bs := by
  have e : (linesOf k bs.length).filter s.spillArea = [] := List.filter_eq_nil_iff.2 (fun l m => by simp [h l m])
  simp [State.seen, e]

/-- A read keeps the number of bytes. -/
@[simp] theorem seen_length (s : State) (k : Nat) (bs : List Byte) : (s.seen k bs).length = bs.length := by
  unfold State.seen
  dsimp only
  split <;> simp

/-! ### L2 and the node-cache partition hold lines, and memory is as it was -/

@[simp] theorem l2Clean_mem (s : State) (l : Nat) : (s.l2Clean l).mem = s.mem := by
  unfold State.l2Clean
  split <;> rfl

@[simp] theorem l2Drop_mem (s : State) (l : Nat) : (s.l2Drop l).mem = s.mem := l2Clean_mem s l

@[simp] theorem l2Trim_mem (s : State) (h n : Nat) : (s.l2Trim h n).mem = s.mem := by
  unfold State.l2Trim
  exact foldl_mem (fun (s : State) (e : Nat × Bool) => s.l2Drop e.1) (fun s e => l2Drop_mem s e.1) _ s

@[simp] theorem l2Put_mem (s : State) (l : Nat) (d b : Bool) : (s.l2Put l d b).mem = s.mem := by
  unfold State.l2Put
  dsimp only
  split
  · exact l2Trim_mem s _ _
  · rfl

@[simp] theorem nodeUpdate_mem (s : State) (l : Nat) : (s.nodeUpdate l).mem = s.mem := by
  unfold State.nodeUpdate
  split <;> rfl

/-- A local key is no Bench key. -/
theorem isBench_of_local {k : Nat} (h : isLocal k = true) : isBench k = false := by
  simp [isLocal] at h
  simp [isBench, h]

/-- What a write at its home does to memory: all its bytes, or nothing when a poisoned line drops it (R234). -/
theorem homeWrite_mem (s : State) (k : Nat) (bs : List Byte) :
    (s.homeWrite k bs = (s, false) ∧ isBench k = false) ∨
    ((s.homeWrite k bs).2 = true ∧ (s.homeWrite k bs).1.mem = Memory.writeBytes s.mem k bs) := by
  unfold State.homeWrite
  by_cases h : isLocal k = true
  · simp only [h, if_true]
    split
    · exact .inl ⟨rfl, isBench_of_local h⟩
    · refine .inr ⟨rfl, ?_⟩
      rw [foldl_mem _ (fun s l => by simp)]
  · have h' : isLocal k = false := by simpa using h
    simp only [h', if_false, Bool.false_eq_true]
    by_cases b : isBench k = true
    · simp only [b, if_true]
      exact .inr ⟨trivial, rfl⟩
    · have b' : isBench k = false := by simpa using b
      simp only [b', if_false, Bool.false_eq_true]
      split
      · exact .inl ⟨rfl, trivial⟩
      · exact .inr ⟨rfl, rfl⟩

theorem homeWrite_memOk (s : State) (k : Nat) (bs : List Byte) (h : s.memOk) : (s.homeWrite k bs).1.memOk := by
  rcases homeWrite_mem s k bs with ⟨e, -⟩ | ⟨-, e⟩
  · rw [e]; exact h
  · unfold State.memOk
    rw [e]
    exact Memory.wf_writeBytes _ _ _ h

/-- Either of two states whose memory is canonical. -/
theorem ite_memOk (c : Prop) [Decidable c] (s t : State) (hs : s.memOk) (ht : t.memOk) : (if c then s else t).memOk := by
  split
  · exact hs
  · exact ht

/-- Writes at a list of offsets keep the canonical form. -/
theorem wf_writes (l : Nat) (d : Nat → Byte) (ix : List Nat) (m : Memory) (h : Memory.wf m = true) :
    Memory.wf (ix.foldl (fun m i => Memory.write m (l + i) (d i)) m) = true := by
  induction ix generalizing m with
  | nil => exact h
  | cons i ix ih => exact ih _ (Memory.wf_write m _ _ h)

/-- A write-back keeps the canonical form. -/
theorem writeBack_memOk (s : State) (c l : Nat) (h : s.memOk) : (s.writeBack c l).memOk := by
  unfold State.writeBack
  cases hl : (s.core c).line? l with
  | none => exact h
  | some x =>
    have hw := wf_writes l (fun i => nth x.data i 0) ((List.range 256).filter (fun i => x.dirty.getLsbD i)) _ h
    refine ite_memOk _ _ _ h ?_
    dsimp only
    refine ite_memOk _ _ _ h (ite_memOk _ _ _ h (ite_memOk _ _ _ ?_ hw))
    unfold State.memOk
    rw [nodeUpdate_mem, l2Put_mem, wakeLine_mem]
    exact hw

end Sys2Proof.Machine
end

