-- ==== Sys2Proof/Laws/Ops.lean ====
section
/-! SUPPORT. What the shared operations of the instructions can do: issuing and finishing a SIMT instruction, walk and Jig words, and
where threads go. Later proofs cite these and do not unfold the operations. -/
namespace Sys2Proof.Machine

/-! ### Issuing (R5, R60, R62, R95) -/

/-- The test of R154 as `Unnamed` says it. -/
theorem unnamed_iff (s : State) (x : Iss) (o : Opnds) (dflt : DCls) (more : List Nat) :
    (namedPreds o dflt more).any (fun p => (s.zflgPreds x).contains p) = false ↔ Unnamed s x o dflt more := by
  simp [Unnamed]

/-- Everything that executing a SIMT instruction can do, when a bundle issues it. -/
theorem simt_cases (s : State) (o : Opnds) (pfx : Bool) (pre : Iss → Option Stop) (body : State → Iss → Mask → Except Stop Fx)
    (dflt : DCls) (more : List Nat) (x : Iss) (h : s.issuing = some x) :
    (¬ Unnamed (s.firstAcquire x) x o dflt more ∧
      simt s o pfx pre body dflt more = .next { (s.firstAcquire x) with blocked := true }) ∨
    Unnamed (s.firstAcquire x) x o dflt more ∧
    ((srPP x.src.sr = true ∧ pfx = false ∧
      simt s o pfx pre body dflt more = .next ((s.firstAcquire x).finish x x.lanes o false (.error (x.pre .prefixMisuse x.base 0)))) ∨
    (srPP x.src.sr = false ∨ pfx = true) ∧
      ((∃ e, pre x = some e ∧ simt s o pfx pre body dflt more = .next ((s.firstAcquire x).finish x x.lanes o false (.error e))) ∨
      pre x = none ∧
        (((s.firstAcquire x).guard x o = none ∧ simt s o pfx pre body dflt more = .next { (s.firstAcquire x) with blocked := true }) ∨
        ((s.firstAcquire x).guard x o = some 0 ∧ simt s o pfx pre body dflt more =
          .next ((s.firstAcquire x).retire x 0 { o with ca := .none, cb := .none, ext := none } pfx { s := s.firstAcquire x })) ∨
        ∃ act, (s.firstAcquire x).guard x o = some act ∧ act ≠ 0 ∧
          simt s o pfx pre body dflt more = .next ((s.firstAcquire x).finish x act o pfx (body (s.firstAcquire x) x act))))) := by
  unfold simt
  simp only [h]
  cases n : (namedPreds o dflt more).any (fun p => ((s.firstAcquire x).zflgPreds x).contains p) with
  | true => exact .inl ⟨fun u => Bool.noConfusion (((unnamed_iff _ _ _ _ _).2 u).symm.trans n), rfl⟩
  | false =>
  refine .inr ⟨(unnamed_iff _ _ _ _ _).1 n, ?_⟩
  by_cases m : srPP x.src.sr = true ∧ pfx = false
  · exact .inl ⟨m.1, m.2, by simp [m.1, m.2]⟩
  · have g : (srPP x.src.sr && !pfx) = false := by
      cases hp : srPP x.src.sr <;> cases pfx <;> simp_all
    refine .inr ⟨by cases hp : srPP x.src.sr <;> cases pfx <;> simp_all, ?_⟩
    simp only [g]
    cases hpre : pre x with
    | some e => exact .inl ⟨e, rfl, rfl⟩
    | none =>
      refine .inr ⟨rfl, ?_⟩
      cases hg : (s.firstAcquire x).guard x o with
      | none => exact .inl ⟨rfl, rfl⟩
      | some act =>
        by_cases z : act = 0
        · subst z; exact .inr (.inl ⟨rfl, rfl⟩)
        · exact .inr (.inr ⟨act, rfl, z, by simp only [if_neg z, Bool.false_eq_true, if_false]⟩)

/-- A bundle that executes its instruction finishes as the instruction's body came to. -/
theorem simt_issues {s s0 : State} {o : Opnds} {pfx : Bool} {x : Iss} {act : Mask} {dflt : DCls} {more : List Nat}
    (h : Issues s o pfx s0 x act dflt more)
    (pre : Iss → Option Stop) (hp : pre x = none) (body : State → Iss → Mask → Except Stop Fx) :
    simt s o pfx pre body dflt more = .next (s0.finish x act o pfx (body s0 x act)) := by
  obtain ⟨hb, hf, hu, hm, hg, ha⟩ := h
  subst hf
  rcases simt_cases s o pfx pre body dflt more x hb with
    ⟨u, -⟩ | ⟨-, ⟨a, b, -⟩ | ⟨-, ⟨e, he, -⟩ | ⟨-, ⟨hn, -⟩ | ⟨hz, -⟩ | ⟨a, hs, -, hq⟩⟩⟩⟩
  · exact absurd hu u
  · simp [hm a] at b
  · simp [hp] at he
  · simp [hg] at hn
  · rw [hg] at hz; exact absurd (Option.some.inj hz) ha
  · rw [hg] at hs; cases hs; exact hq

/-- No bundle issues: the machine stops with `noAgent`. -/
theorem simt_noAgent (s : State) (o : Opnds) (pfx : Bool) (pre : Iss → Option Stop) (body : State → Iss → Mask → Except Stop Fx)
    (dflt : DCls) (more : List Nat) (h : s.issuing = none) : simt s o pfx pre body dflt more = .fault .noAgent := by
  unfold simt
  simp only [h]

/-! ### Finishing (R271, R272, R327) -/

theorem finish_ok (s : State) (x : Iss) (act : Mask) (o : Opnds) (pfx : Bool) (fx : Fx) (h : s.transitsOver x fx.s = false) :
    s.finish x act o pfx (.ok fx) = fx.s.retire x act o pfx fx := by
  simp [State.finish, h]

theorem finish_over (s : State) (x : Iss) (act : Mask) (o : Opnds) (pfx : Bool) (fx : Fx) (h : s.transitsOver x fx.s = true) :
    s.finish x act o pfx (.ok fx) = { s with blocked := true } := by
  simp [State.finish, h]

theorem finish_block (s : State) (x : Iss) (act : Mask) (o : Opnds) (pfx : Bool) :
    s.finish x act o pfx (.error .block) = { s with blocked := true } := rfl

theorem finish_noReg (s : State) (x : Iss) (act : Mask) (o : Opnds) (pfx : Bool) :
    s.finish x act o pfx (.error .noReg) = { s with blocked := true, agenda := { act := .spill x.c x.slice } :: s.agenda } := rfl

theorem finish_trap (s : State) (x : Iss) (act : Mask) (o : Opnds) (pfx : Bool) (t : Trap) :
    s.finish x act o pfx (.error (.trap t)) = s.trapNow x t := rfl

/-- An instruction whose body retires on its active lanes retires. -/
theorem simt_retires {s s0 : State} {o : Opnds} {pfx : Bool} {x : Iss} {act : Mask} {dflt : DCls} {more : List Nat}
    (h : Issues s o pfx s0 x act dflt more)
    (pre : Iss → Option Stop) (hp : pre x = none) (body : State → Iss → Mask → Except Stop Fx) (fx : Fx)
    (hb : body s0 x act = .ok fx) (ht : s0.transitsOver x fx.s = false) :
    simt s o pfx pre body dflt more = .next (fx.s.retire x act o pfx fx) := by
  rw [simt_issues h pre hp body, hb, finish_ok s0 x act o pfx fx ht]

/-! ### Traps of an instruction beside the `ERET` of its clock (R433, R435) -/

theorem raise_stays (s : State) (x : Iss) (t : Trap) (h : s.leftHandler x = false) :
    s.raise x t = s.deliver x.c x.w { t with clk := x.clk } := by
  simp [State.raise, h]

theorem raise_left (s : State) (x : Iss) (t : Trap) (h : s.leftHandler x = true) :
    s.raise x t = s.killReport x.c x.w t.cause t.addr ((t.post.map (·.2)).getD t.access) := by
  simp [State.raise, h]

/-- A bundle that did not issue in handler mode has left none. -/
theorem leftHandler_outside (s : State) (x : Iss) (h : srH x.src.sr = false) : s.leftHandler x = false := by
  simp [State.leftHandler, h]

/-! ### What a turn comes to behind the banks (R16) -/

theorem gated_fault (s : State) (a : Act) (w : Bool) (f : Fault) : s.gated a w (.fault f) = .fault f := rfl
theorem gated_refused (s : State) (a : Act) (w : Bool) (r : Refusal) : s.gated a w (.refused r) = .refused r := rfl

/-- Entering or refusing at a bank leaves memory. -/
@[simp] theorem modBank_mem (s : State) (r : BankReq) (f : BankQ → BankQ) : (s.modBank r f).mem = s.mem := rfl

@[simp] theorem lacking_nil (asked : List BankReq) : lacking [] asked = [] := by
  induction asked with
  | nil => rfl
  | cons r rs ih => simpa [lacking] using ih

@[simp] theorem lacking_none (rs : List BankReq) : lacking rs [] = rs := rfl

theorem enterAll_mem {rs : List BankReq} {s t : State} (h : s.enterAll rs = some t) : t.mem = s.mem := by
  induction rs generalizing s with
  | nil => cases h; rfl
  | cons r rs ih =>
    unfold State.enterAll at h
    split at h
    · exact (ih h).trans rfl
    · cases h

theorem offerReqs_mem (rs : List BankReq) (s : State) : (s.offerReqs rs).mem = s.mem := by
  induction rs generalizing s with
  | nil => rfl
  | cons r rs ih =>
    unfold State.offerReqs
    split <;> exact (ih _).trans rfl

/-- All that the banks can do to a turn: it is made when its requests that have not entered before enter now, and is otherwise not
made while those that find room enter. -/
theorem bank_cases (s t : State) (rs : List BankReq) :
    (∃ u, t.enterAll (lacking rs s.asked) = some u ∧ s.bank t rs = { u with asked := lacking u.asked rs }) ∨
    (t.enterAll (lacking rs s.asked) = none ∧ s.bank t rs = s.offerReqs (lacking rs s.asked)) := by
  unfold State.bank
  cases h : t.enterAll (lacking rs s.asked) with
  | some u => exact .inl ⟨u, rfl, rfl⟩
  | none => exact .inr ⟨rfl, rfl⟩

/-- A turn without requests is made. -/
@[simp] theorem bank_nil (s t : State) : s.bank t [] = t := by
  rw [State.bank, lacking_nil]; rfl

/-- Behind the banks memory is that of the turn or the one before it. -/
theorem bank_mem (s t : State) (rs : List BankReq) : (s.bank t rs).mem = t.mem ∨ (s.bank t rs).mem = s.mem := by
  rcases bank_cases s t rs with ⟨u, h, e⟩ | ⟨-, e⟩
  · exact .inl ((congrArg State.mem e).trans (enterAll_mem (t := u) h))
  · exact .inr ((congrArg State.mem e).trans (offerReqs_mem _ _))

@[simp] theorem noteReads_mem (t s : State) (a : Act) (w : Bool) : (t.noteReads s a w).mem = t.mem := by
  unfold State.noteReads
  split
  · rfl
  · split <;> rfl

/-! ### Where threads go (R48) -/

/-- The program counters after `goTo`. -/
theorem goTo_pcs (x : Wave) (m : Mask) (f : Nat → DWord) (l : Nat) (h : l < 32) :
    nth (x.goTo m f).pcs l 0 = if m.getLsbD l then f l else nth x.pcs l 0 := by
  simp [Wave.goTo, nth, h]

/-! ### Words of walks and of the Jig (R170, R315) -/

theorem walkRun_next (s : State) (f : State → Nat → Nat → Walk → State) (c k : Nat) (x : Walk) (h : s.walkNow = some (c, k, x)) :
    walkRun s f = .next (f s c k x) := by
  simp [walkRun, h]

theorem walkStep_next (s : State) (f : Walk → Walk) (c k : Nat) (x : Walk) (h : s.walkNow = some (c, k, x)) :
    walkStep s f = .next ((s.setWalk c k (f x)).walkNext c k) := walkRun_next s _ c k x h

theorem walkRun_noAgent (s : State) (f : State → Nat → Nat → Walk → State) (h : s.walkNow = none) :
    walkRun s f = .fault .noAgent := by
  simp [walkRun, h]

theorem jigRun_next (s : State) (f : State → Nat → Jig → State) (c : Nat) (j : Jig) (h : s.jigNow = some (c, j)) :
    jigRun s f = .next (f s c j) := by
  simp [jigRun, h]

theorem jigRun_noAgent (s : State) (f : State → Nat → Jig → State) (h : s.jigNow = none) : jigRun s f = .fault .noAgent := by
  simp [jigRun, h]

end Sys2Proof.Machine
end

