-- ==== Sys2Proof/Tests/Slice0.lean ====
section
/-! SUPPORT. Tests: words that the spec prints and what they decode to, an ill-formed term for each check of
Sys2Proof.WellFormed, single steps, and for the statements of Certificates/Slice0 a concrete state and operands that meet the
hypotheses together (`test_met_…`). -/
namespace Sys2Proof.Machine.Tests
set_option Elab.async false


/-! ### Words -/

/-- Operand fields of an instruction without operands. -/
def oz : Opnds := { prd := 63, pn := false, d := 0, a := 0, b := 0, ea := false, eb := false, ca := .none, cb := .none, ext := none }
/-- An extension word with a third source and an immediate. -/
def extC (c : BitVec 11) (cc : Cls) (imm : Word) : Ext := { imm := imm, c := c, ec := false, cc := cc, cd := .vec, xm := 0 }

/-- `NOP`, word of R442. -/
theorem test_decode_nop : decodeSimt 0x03F0000000007840 0 = .nop oz := by decide
/-- `FMAC` with an extension word, R47's example. -/
theorem test_decode_fmac : decodeSimt 0x20500700601180C1 0x3FC0000000080000 = .fmac { oz with
    prd := 5, d := 7, a := 3, b := 4, eb := true, ca := .vec, cb := .vec, ext := some (extC 0 .imm 0x3FC00000) } .rz := by decide
/-- `SCAN.ADD.EXCL.SI32 v10, v9`. -/
theorem test_decode_scan : decodeSimt 0x37F00A01200018C4 0 = .scan { oz with d := 10, a := 9, ca := .vec } .add true .si32 := by decide
/-- `LD.B32 v8, [ds2 + v4]`. -/
theorem test_decode_ld : decodeSimt 0x43F0080040102010 0 =
    .ld { oz with d := 8, a := 2, ca := .sca, b := 4, cb := .vec } .b32 .plain := by decide
/-- `FMT`. -/
theorem test_decode_fmt : decodeSimt 0xFFF4401000000000 0 = .fmt 4 4 0 1 0 0 false 0 false := by decide
/-- `MMA`. -/
theorem test_decode_mma : decodeSimt 0x77F0880200600000 0 =
    .mma { oz with d := 136, a := 16, ca := .vec, b := 24, cb := .vec } false false := by decide
/-- `BRA` to three instructions before it. -/
theorem test_decode_bra : decodeSimt 0x07F000FFA0005800 0 = .bra { oz with a := 0x7FD, ca := .imm } := by decide
/-- A word of zeros (R59). -/
theorem test_decode_zero : decodeSimt 0 0 = .nonInstructionWord .zeroWord 0 0 none := by decide
/-- `NFETCH n0, dq2, KN7`. -/
theorem test_decode_nfetch : decodeWalk 0x00080002 = .nfetch 0 2 2 := by decide
/-- `BR` of a walk. -/
theorem test_decode_walk_br : decodeWalk 0x5C003FF9 = .br 0x3FF9 := by decide
/-- `JGADD g1, g1, 128`. -/
theorem test_decode_jgadd : decodeJig 0x41220080 = .jgadd 1 1 (.imm 128) := by decide
/-- `JFLAG mb0, 1`. -/
theorem test_decode_jflag : decodeJig 0x78020001 = .jflag 0 (.imm 1) := by decide

/-! ### Ill-formed terms -/

/-- R54, R94: an operand class that the form does not take. -/
theorem test_illformed_class : wellFormed (.iadd { oz with ca := .none } .b32 false) = false := by decide
/-- R59: a field that must be 0. -/
theorem test_illformed_reserved : wellFormed (.nop { oz with d := 5 }) = false := by decide
/-- R49: a pair has an even name. -/
theorem test_illformed_pair : wellFormed (.wadd true 1 2 (.imm 0)) = false := by decide
/-- R65: a walk word whose fields its row does not allow. -/
theorem test_illformed_walk : walkOk (.wadd true 1 2 (.imm 0)) = false := by decide
/-- R67: a Jig word whose fields its row does not allow. -/
theorem test_illformed_jig : jigOk (.jcvt 0 0 0 false 0 15 15) = false := by decide
/-- R59, R65, R67: a word that is no instruction. -/
theorem test_illformed_words : wellFormed (.nonInstructionWord .zeroWord 0 0 none) = false ∧
    wellFormed (.walkNonInstructionWord 0) = false ∧ wellFormed (.jigNonInstructionWord 0) = false := by decide

/-! ### Single steps -/

/-- A field of the state after a step of an instruction placed after reset. -/
def after {α : Type} (nbits w : Nat) (f : State → α) : Option α :=
  match step (State.reset.withFetchWord nbits w) with
  | .next t => some (f t)
  | _ => none

/-- `NOP` moves every thread past its word. -/
theorem test_step_nop : after 64 0x03F0000000007840 (fun t => nth (t.wave 0 0).pcs 31 0) = some 0x10008 := by decide
/-- A word of zeros without a handler kills the team (R433): its wave has gone. -/
theorem test_step_zero_word : after 64 0 (fun t => t.wave? 0 0) = some none := by decide
/-- `BRA` to three instructions before it. -/
theorem test_step_bra : after 64 0x07F000FFA0005800 (fun t => nth (t.wave 0 0).pcs 0 0) = some 0xFFE8 := by decide
/-- `JGADD g1, g1, 128` on a Jig of zeros. -/
theorem test_step_jgadd : after 32 0x41220080 (fun t => nth (t.jig 0).g 1 0) = some 128 := by decide



/-! ### A state that meets the statements' hypotheses -/

def okB {ε α : Type} : Except ε α → Bool
  | .ok _ => true
  | .error _ => false
def okD {ε α : Type} (d : α) : Except ε α → α
  | .ok a => a
  | .error _ => d
theorem ok_of {ε α : Type} {e : Except ε α} (d : α) (h : okB e = true) : e = .ok (okD d e) := by
  cases e <;> simp_all [okB, okD]

/-- Wave 0 of core 0 with a bundle of all its threads at an instruction, in a phased launch whose team has 4 KiB of Bench, a completion
queue, 4 tiles and the Jig; a readable and writable page at 0x10000; a stage queue; an idle Jig. -/
def ts : State :=
  let s := State.reset.withWave
  { s with
    cores := FMap.mod s.cores 0 {} (fun k => { k with
      waves := FMap.mod k.waves 0 {} (fun x => { x with acc := [0, 1, 2, 3], preg := List.replicate 48 0xFFFF, sreg := (List.range 128).map (fun i => if i % 2 = 1 then 0 else if i < 16 then 0x10000 else BitVec.ofNat 32 (i / 2)) })
      lx := { k.lx with loaded := true, version := 1, dc := 32, dh := 32 } })
    teams := FMap.mod s.teams 0 { launch := 0, ctx := 0, members := [] } (fun t => { t with bench := 4096, cqn := 1, cqd := 4 })
    launches := FMap.mod s.launches 0 { hdr := {}, addr := 0, origin := .host 0 0 0, prio := 0 }
      (fun l => { l with hdr := { l.hdr with flags := 1 } })
    queues := [(0, { entsz := 16, cap := 4, base := 0x10000 })]
    tlb := [{ ctx := 0, page := 1, size := 16, leaf := 0x1021D }]
    ctxs := [(0, {})]
    cur := some { core := 0, wave := 0, lanes := allLanes, pc := 0x10000 } }

/-- `ts` with the Jig of core 0 held by the team. -/
def tj : State := ts.modJig 0 (fun j => { j with holder := some 0 })

def issD : Iss := { c := 0, w := 0, lanes := 0, pc := 0, len := 8, base := 0, second := false, src := {}, phys := [], ctx := 0 }
def xOf (s : State) : Iss := s.issuing.getD issD
def s0Of (s : State) : State := s.firstAcquire (xOf s)
def actOf (s : State) (o : Opnds) : Mask := ((s0Of s).guard (xOf s) o).getD 0
def issuesB (s : State) (o : Opnds) (pfx : Bool) : Bool :=
  s.issuing.isSome && (!srPP (xOf s).src.sr || pfx) && ((s0Of s).guard (xOf s) o).isSome && actOf s o != 0 &&
    ((s0Of s).zflgPreds (xOf s)).isEmpty

theorem issues_of {s : State} {o : Opnds} {pfx : Bool} (d : DCls) (more : List Nat) (h : issuesB s o pfx = true) :
    Issues s o pfx (s0Of s) (xOf s) (actOf s o) d more := by
  simp only [issuesB, Bool.and_eq_true, Bool.or_eq_true, Bool.not_eq_true', bne_iff_ne, ne_eq] at h
  obtain ⟨⟨⟨⟨h1, h2⟩, h3⟩, h4⟩, h5⟩ := h
  refine ⟨?_, rfl, fun p _ hp => ?_, fun g => ?_, ?_, h4⟩
  · unfold xOf
    cases e : s.issuing <;> simp_all
  · simp [List.isEmpty_iff.mp h5] at hp
  · rcases h2 with h2 | h2
    · simp [h2] at g
    · exact h2
  · unfold actOf
    cases e : (s0Of s).guard (xOf s) o <;> simp_all

/-! ### Computing instructions -/

/-- The hypotheses of `ComputesAt` that concern the state, for an instruction without a reuse entry. -/
def computesB (i : Instr) (o : Opnds) (pfx : Bool) (op : Iss → List Nat) (h : Shape) (chk : OperandCheck) (f : Iss → LaneFn) (s : State) : Bool :=
  let x := xOf s
  let act := actOf s o
  let vs := okD [] ((s0Of s).readOpds x act o (h.srcs o))
  let ne : Except Stop (List Nat) := if dclsOf o h.dflt = .vec then x.names act 3 o.d.toNat h.d else .ok []
  let ns := okD [] ne
  let v := h.pick vs
  let p := if dclsOf o h.dflt = .pred then some o.d.toNat else none
  let k := reuseKey x act (op x) vs p ns
  let e := h.elig && (dclsOf o h.dflt == .vec || dclsOf o h.dflt == .pred) && !vs.any (·.dyn)
  let put := (s0Of s).putResult x act o h (if e then some k else none) ns (f x act v.1 v.2.1 v.2.2)
  issuesB s o pfx && wellFormed i && okB (x.namesOk act (h.srcs o ++ (if dclsOf o h.dflt = .vec then [dstOpd o h.d] else []))) &&
    okB ((s0Of s).readOpds x act o (h.srcs o)) && okB ne && (chk x act v.1 v.2.1 v.2.2).isNone &&
    ((s0Of s).reuseHit x act k ns p h.raise).isNone && okB put &&
    (match put with | .ok fx => !(s0Of s).transitsOver x fx.s | _ => false)

/-- What `computesB` says of the hypotheses of `ComputesAt`. -/
theorem computes_of {i : Instr} {o : Opnds} {pfx : Bool} {op : Iss → List Nat} {h : Shape} {chk : OperandCheck} {f : Iss → LaneFn}
    {s : State} (g : computesB i o pfx op h chk f s = true) :
    ∃ (s0 : State) (x : Iss) (act : Mask) (vs : List Src) (ns : List Nat), Issues s o pfx s0 x act h.dflt ∧
      x.namesOk act (h.srcs o ++ (if dclsOf o h.dflt = .vec then [dstOpd o h.d] else [])) = .ok () ∧
      s0.readOpds x act o (h.srcs o) = .ok vs ∧
      (if dclsOf o h.dflt = .vec then x.names act 3 o.d.toNat h.d else .ok []) = .ok ns := by
  simp only [computesB, Bool.and_eq_true] at g
  obtain ⟨⟨⟨⟨⟨⟨⟨⟨g1, -⟩, g2⟩, g3⟩, g4⟩, -⟩, -⟩, -⟩, -⟩ := g
  exact ⟨_, _, _, _, _, issues_of _ _ g1, ok_of () g2, ok_of [] g3, ok_of [] g4⟩

/-- `v5 := v3 op v4`, `v5 := v3 op v4, v6`. -/
def o2 : Opnds := { oz with d := 5, a := 3, b := 4, ca := .vec, cb := .vec }
def o3 : Opnds := { o2 with ext := some (extC 6 .vec 0) }
def o1 : Opnds := { oz with d := 5, a := 3, ca := .vec }

theorem test_met_IntegerAluCompletes : computesB (.iadd o2 .si32 true) o2 false (opItems (.iadd o2 .si32 true)) { b := 1 } noCheck
    (laneFn (fun x y _ => x + y)) ts = true := by decide +kernel
theorem test_met_MultiplyBitsAddressComplete : computesB (.imad o3 .si32) o3 false (opItems (.imad o3 .si32)) { b := 1, c := 1 } noCheck
    (laneFn (fun x y z => x * y + z)) ts = true := by decide +kernel
theorem test_met_MovePredicateLaneComplete : computesB (.mov o1 false) o1 false (opItems (.mov o1 false)) {} noCheck
    (fun _ _ a _ _ l => (a l, 0)) ts = true := by decide +kernel
theorem test_met_FloatingPointCompletes : computesB (.fmac o3 .rz) o3 false (opItemsRm (.fmac o3 .rz) .rz)
    { b := 1, c := 1, fp := true } noCheck (fpLane .rz (macFn .f32)) ts = true := by decide +kernel



/-! R119's worked example: eight FP16 elements by 0.5 with the zero point 8. -/
theorem test_packq_example :
    packLane 2 11 .rne 0x7E003400C70056403CCD43000000C100 0x3800 8 = (0x880FAF83, fIX ||| fIV) := by decide +kernel

/-! ### Queued functions, carries, moves of PENDING values, the long accumulator -/

/-- Sources of an instruction in a state, read in order. -/
def srcsOf (s : State) (o : Opnds) (ds : List Opd) : Except Stop (List Src) := (s0Of s).sources (xOf s) (actOf s o) o ds
def srcsD (s : State) (o : Opnds) (ds : List Opd) : List Src := okD [] (srcsOf s o ds)
/-- Value of source `i` in the lowest active lane. -/
def v0 (s : State) (o : Opnds) (ds : List Opd) (i : Nat) : Nat := srcAt (srcsD s o ds) i 0
/-- The instruction is well formed, issues, and its sources can be read. -/
def readsB (i : Instr) (s : State) (o : Opnds) (pfx : Bool) (ds : List Opd) : Bool :=
  wellFormed i && issuesB s o pfx && okB (srcsOf s o ds)
def waitsB {α : Type} (e : Except Stop α) : Bool := match e with | .error (.wait _ _) => true | _ => false

def queuesB (o : Opnds) (h : Shape) (f : Iss → LaneFn) (s : State) : Bool :=
  let x := xOf s
  let act := actOf s o
  let vs := okD [] ((s0Of s).readOpds x act o (h.srcs o))
  let ns := okD [] (x.names act 3 o.d.toNat h.d)
  let v := h.pick vs
  issuesB s o false && okB (x.namesOk act (h.srcs o ++ [dstOpd o h.d])) && okB ((s0Of s).readOpds x act o (h.srcs o)) &&
    okB (x.names act 3 o.d.toNat h.d) && (s0Of s).sfuRoom x.c x.w &&
    okB ((s0Of s).sfuEnter x act o h vs ns none (f x act v.1 v.2.1 v.2.2))

theorem test_met_QueuedFunctionsComplete : wellFormed (.rcp o1 .rne) = true ∧ queuesB o1 sfuShape (sfuLane .rcp .f32 .rne) ts = true ∧
    queuesB o2 { b := 1, raise := fIDZ } (divFn .si32 false) ts = true := by decide +kernel

/-- A CVT of the spec's own words (R117). -/
def oCvt : Opnds := match decodeSimt 0x2FF0040040009800 0x00000000000C1300 with | .cvt o => o | _ => oz
theorem test_met_ConversionCompletes : issuesB ts oCvt true = true ∧ (cvtPre oCvt (xOf ts)).isNone = true ∧ wellFormed (.cvt oCvt) = true ∧
    computesB (.cvt oCvt) oCvt true (convItems 0 oCvt) { d := 1, a := 1 } noCheck (fun _ _ a _ _ l => (a l, 0)) ts = true := by decide +kernel

theorem test_met_ElementsOfLane : 3 < 32 / ITy.width .si8 := by decide

/-- An SFU entry whose service has started, and one that waits. -/
def sfuA : SfuEntry := { id := 7, wave := 0, lanes := allLanes, pc := 0, dest := .vec 5 [1], active := allLanes, hold := false,
                         base := 0, ext := 0, bundle := allLanes, vals := [vzero], flags := [], started := true }
def tsSfu : State := ts.modSlice 0 0 (fun k => { k with sfu := [sfuA, { sfuA with id := 8, dest := .sca 4 1, started := false }] })
theorem test_met_QueuedResultWritten : (tsSfu.slice 0 0).sfu.find? (fun y => y.id == 7 && y.started) = some sfuA ∧
    (tsSfu.wave? 0 0).isSome = true ∧ (tsSfu.slice 0 0).sfu.head?.map (·.started) = some true := by decide +kernel

def oC : Opnds := { o2 with ext := some (extC 146 .sca 0) }
theorem test_met_CarryChainCompletes : wellFormed (.iaddc oC .ui32) = true ∧
    (let h : Shape := { b := 1, c := 1, pc := true, elig := false }
     computesB (.iaddc oC .ui32) oC false (fun _ => []) h noCheck (fun _ _ a b c l => ((a l + b l + c l) % 2 ^ 32, 0)) ts &&
     okB ((s0Of ts).putPred (xOf ts) allLanes (oC.c.toNat - 144) 0)) = true := by decide +kernel

def oSm : Opnds := { oz with d := 4, a := 3, ca := .vec, b := 2, cb := .imm }
theorem test_met_SmovFtstComplete : wellFormed (.smov oSm false) = true ∧ issuesB ts oSm false = true ∧
    okB ((xOf ts).names allLanes 0 3 1) = true ∧ okB ((s0Of ts).readOpd (xOf ts) allLanes oSm (fieldB oSm)) = true ∧
    okB ((s0Of ts).putScalar (xOf ts) allLanes 4 [0]) = true ∧
    okB ((s0Of ts).putPred (xOf ts) allLanes 2 allLanes) = true ∧ (s0Of ts).zflgPreds (xOf ts) = [] := by decide +kernel
/-- `v3` of the wave is PENDING. -/
def tsPnd : State := (ts.modWave 0 0 (fun x => { x with names := [(3, 1)] })).modSlice 0 0 (fun k => { k with
  phys := FMap.set k.phys 1 { data := vzero, pending := true } })
theorem test_met_SmovPending : issuesB tsPnd oSm false = true ∧ okB ((xOf tsPnd).names allLanes 0 3 1) = true ∧
    (pregOf (xOf tsPnd).phys ((xOf tsPnd).src.reg 3)).pending = true ∧ ((s0Of tsPnd).now (xOf tsPnd)).sPend = 0 := by decide +kernel

def oLac : Opnds := { oz with d := 141, a := 3, b := 4, ca := .vec, cb := .vec }
def oLacr : Opnds := { oz with d := 5, a := 141, ca := .sca }
theorem test_met_LongAccumulatorCompletes : wellFormed (.laca oLac .f32) = true ∧ (lacaPre .f32 (xOf ts)).isNone = true ∧
    computesB (.laca oLac .f32) { oLac with d := 0 } true (fun _ => []) { b := 1, elig := false, dflt := .sca } noCheck (fun _ _ _ _ _ _ => (0, 0)) ts = true ∧
    wellFormed (.lacr oLacr .f32 .rne) = true ∧ (xOf ts).src.laPoison.getLsbD 1 = false := by decide +kernel

/-! ### Control flow and system -/

def oBr : Opnds := { oz with a := 0x7FD, ca := .imm }
theorem test_met_BranchesComplete : wellFormed (.bra oBr) = true ∧ issuesB ts oBr false = true ∧
    readsB (.jmp { oz with ca := .sca }) ts { oz with ca := .sca } false [fieldA { oz with ca := .sca } 2] = true := by decide +kernel
theorem test_met_CallsComplete : wellFormed (.call oBr) = true ∧ issuesB ts oBr false = true ∧
    (lanesOf allLanes).all (fun l => decide ((nth (xOf ts).src.rstack l []).length < 16)) = true ∧ (xOf ts).src.rstack.length = 32 ∧
    (offsetTarget (xOf ts) oBr (fieldA oBr)).toNat % 8 = 0 ∧ wellFormed (.ret oz) = true ∧ issuesB ts oz false = true ∧
    (lanesOf allLanes).all (fun l => (nth (xOf ts).src.rstack l []).isEmpty && nth (xOf ts).src.rspill l 0 == 0) = true := by decide +kernel
/-- A wave whose threads have called. -/
def tsRet : State := ts.modWave 0 0 (fun x => { x with rstack := List.replicate 32 [0x10000] })
theorem test_met_ReturnsComplete : issuesB tsRet oz false = true ∧ (tsRet.wave 0 0).rstack.length = 32 ∧
    (lanesOf allLanes).all (fun l => nth (tsRet.wave 0 0).rstack l [] == [0x10000]) = true := by decide +kernel
theorem test_met_SystemCompletes : issuesB ts oz false = true ∧ wellFormed (.nop oz) = true ∧
    readsB (.trap { oz with a := 5, ca := .imm }) ts { oz with a := 5, ca := .imm } false [fieldA { oz with a := 5, ca := .imm }] = true ∧
    readsB (.sleep { oz with a := 5, ca := .imm }) ts { oz with a := 5, ca := .imm } false [fieldA { oz with a := 5, ca := .imm }] = true := by
  decide +kernel

def oCsr : Opnds := { oz with d := 4, a := 256, ca := .sca }
def oCsw : Opnds := { oz with d := 274, a := 0, ca := .sca }
def oCsp : Opnds := { oz with d := 270, a := 0, ca := .sca }
theorem test_met_SpecialRegistersComplete : wellFormed (.csrr oCsr) = true ∧ issuesB ts oCsr false = true ∧
    okB ((s0Of ts).putScalar (xOf ts) allLanes 4 [0, 0]) = true ∧ readsB (.csrw oCsw) ts oCsw false [fieldA oCsw 2] = true ∧
    ((xOf ts).src.csrWrite (xOf ts).src 274 0).isSome = true ∧ (xOf ts).src.csrBars 274 = false ∧ (xOf ts).src.csrBars 270 = true ∧ readsB (.csrw oCsp) ts oCsp false [fieldA oCsp 2] = true ∧
    ((xOf ts).src.csrWrite (xOf ts).src 270 0).isNone = true := by decide +kernel
/-- A wave in handler mode, with the trap registers of a trap that it took. -/
def tsH : State := ts.modWave 0 0 (fun x => x.enter
  { cause := .userTrap, cls := clsW, mask := 1, addr := 0, pc := 0x10000, bundle := allLanes, again := 1 } 0x20000)
theorem test_met_SpecialRegisterWriteRule : srH (tsH.wave 0 0).sr = true ∧ srH (ts.wave 0 0).sr = false ∧
    ((ts.wave 0 0).csrWrite (ts.wave 0 0) 256 0x3).isSome = true := by decide +kernel
/-- A second bundle whose clock's first has entered the handler writes `SR` as outside it (R446). -/
theorem test_csr_mode : ((tsH.wave 0 0).csrWrite (ts.wave 0 0) 256 0x80000000) = none ∧
    ((tsH.wave 0 0).csrWrite (tsH.wave 0 0) 256 0xC0000000).isSome = true := by decide +kernel
theorem test_met_EretCompletes : wellFormed (.eret oz) = true ∧ issuesB tsH oz false = true ∧ srH (xOf tsH).src.sr = true ∧
    issuesB ts oz false = true ∧ srH (xOf ts).src.sr = false := by decide +kernel
theorem test_met_EretResumes : (tsH.wave 0 0).pcs.length = 32 ∧ (tsH.wave 0 0).trap.stands = some (tsH.wave 0 0).trap.trappc := by
  decide +kernel
/-- `TRAPPC`, `RESM` and the handler's address after a class W trap (R432). -/
theorem test_trap_entry : (tsH.wave 0 0).trap.trappc = 0x10000 ∧ (tsH.wave 0 0).trap.resm = 1 ∧ nth (tsH.wave 0 0).pcs 3 0 = 0x20000 := by
  decide +kernel
/-- `ts` with a handler. -/
def tsT : State := ts.modLaunch 0 (fun l => { l with hdr := { l.hdr with handler := 0x20000 } })
theorem test_met_TrapDelivery : tsT.replays 0 .userTrap = false ∧ srH (tsT.wave 0 0).sr = false ∧
    (tsT.launchOf (tsT.wave 0 0)).hdr.handler ≠ 0 ∧ (tsT.wave 0 0).stepDbg = 0 ∧ (tsT.wave 0 0).stepDrain = false ∧
    (tsT.wave 0 0).drainStop = none ∧ (ts.launchOf (ts.wave 0 0)).hdr.handler = 0 := by
  decide +kernel

/-- A wave whose bundle has a prefix pending. -/
def tsP : State := ts.modWave 0 0 (fun x => { x with sr := 0x20000000, pfx := 0xFFF4401000000000, pfxMask := allLanes })
/-- The clock's second bundle, after its first has entered the handler. -/
def tsAside : State := { tsH with snap := some (ts.wave 0 0, []), cur := ts.cur.map (fun q => { q with second := true }) }
theorem test_met_FormatWordAside : issuesB tsAside noOpnds false = true ∧ srPP ((s0Of tsAside).now (xOf tsAside)).sr = false ∧
    srH ((s0Of tsAside).now (xOf tsAside)).sr = true ∧ srH (xOf tsAside).src.sr = false := by decide +kernel
theorem test_met_FormatWordCompletes : (encodeSimt (.fmt 4 4 0 1 0 0 false 0 false)).isSome = true ∧ srPP (xOf ts).src.sr = false ∧
    issuesB ts noOpnds false = true ∧ tsP.issuing.isSome = true ∧ srPP (xOf tsP).src.sr = true := by decide +kernel
theorem test_met_PrefixMisuseTraps : tsP.issuing.isSome = true ∧ srPP (xOf tsP).src.sr = true := by decide +kernel
theorem test_met_NonInstructionTraps : ts.issuing.isSome = true ∧ tsP.issuing.isSome = true := by decide +kernel
/-- Guard `!p63` of R5: no lane is active. -/
def oOff : Opnds := { oz with prd := 3 }
def tsOff : State := ts.modWave 0 0 (fun x => { x with preg := List.replicate 48 0 })
theorem test_met_InactiveOnlyAdvances : tsOff.issuing.isSome = true ∧ (s0Of tsOff).guard (xOf tsOff) oOff = some 0 := by decide +kernel



/-! ### Memory -/

def accessB (i : Instr) (o p : Opnds) (f : MemForm) (s : State) : Bool :=
  let x := xOf s
  let act := actOf s p
  let opds := [{ fieldA o (if f.bench || f.remote then 1 else 2) with field := true }, { fieldB o with field := true }] ++ f.data
  let vs := okD [] ((s0Of s).readOpds x act o opds)
  let ne : Except Stop (List Nat) := if f.dst = .vec then x.names act 3 o.d.toNat f.n else .ok []
  let ls := if f.once then [(lowest act).getD 0] else lanesOf act
  let eas := ls.map (fun l => (l, memEa o (f.bench || f.remote) f.size (srcAt vs 0 l) (srcAt vs 1 l), memBound o (srcAt vs 1 l)))
  let r := (s0Of s).placeLanes x.c x.src.team x.ctx f eas
  let accs := r.2.1.map (fun a => { a with
    data := leBytes f.size (srcAt vs 2 a.lane), data2 := leBytes f.size (srcAt vs 2 a.lane / 2 ^ (8 * f.size)) })
  let ok := if f.once then act else maskOf (fun l => (accs.map (·.lane)).contains l)
  wellFormed i && issuesB s p false && okB (x.namesOk act (opds ++ (if f.dst = .vec then [dstOpd o f.n] else []))) &&
    okB ((s0Of s).readOpds x act o opds) && okB ne && r.2.2.isEmpty && !r.2.1.isEmpty &&
    (s.transWaits (.core x.c) x.ctx 0x10000 == false) && (r.1.watchHit x f (accs.map (fun a => (a.lane, a.va)))).isEmpty &&
    (match r.1.memDest x ok o f (okD [] ne) with | .ok d => accs.all (fun a => !d.2.2.2.risky f x.ctx a) | _ => false)

/-- `[ds0 + v4]`, `[s1 + v4]` with `s1` = 0, and data in `v5`. -/
def oLd : Opnds := { oz with d := 5, a := 0, ca := .sca, b := 4, cb := .vec }
def oLdb : Opnds := { oLd with a := 1 }
def oAt : Opnds := { oLd with ext := some (extC 6 .vec 0) }
theorem test_met_MemoryInstructionsComplete : accessB (.ld oLd .b32 .plain) oLd oLd (loadForm .b32 .plain .vec) ts = true ∧
    accessB (.ldb oLdb .b32 .plain) oLdb oLdb { loadForm .b32 .plain .vec with bench := true } ts = true ∧
    accessB (.st oLd .b32 .plain) oLd (storeOpnds oLd .vec) (storeForm oLd .b32 .plain .vec) ts = true ∧
    accessB (.atom oAt 0 .relaxed) oAt oAt (atomForm oAt 0 .relaxed) ts = true := by decide +kernel
/-- A load whose result goes to a mailbox waits for it. -/
def oLdm : Opnds := { oLd with d := 128, b := 0, cb := .none, ext := some { imm := 0, c := 0, ec := false, cc := .none, cd := .sca, xm := 0 } }
theorem test_met_WaitingAccess : accessB (.ldk oLdm .b32) oLdm oLdm { loadForm .b32 .plain .sca with once := true } ts = true := by
  decide +kernel
/-- Every lane of an access outside the Bench faults (R290). -/
theorem test_met_MemoryFaults : (let o := { oLdb with a := 0 }
    let r := (s0Of ts).placeLanes 0 0 0 { loadForm .b32 .plain .vec with bench := true }
      ((lanesOf allLanes).map (fun l => (l, memEa o true 4 0x10000 0, false)))
    r.2.1.isEmpty && (memTrap false 0 0 allLanes allLanes allLanes r.2.2).isSome) = true := by decide +kernel
theorem test_met_LaneAddress : oLd.cb ≠ .none ∧ memChk oLd = false ∧ (5 : Nat) < 2 ^ 32 := by decide +kernel
/-- R288: base, scaled index and offset; a negative index. -/
theorem test_lane_address : memEa oLd false 4 0x10000 0xFFFFFFFF = 0xFFFC := by decide +kernel

def oPf : Opnds := { oz with a := 0, ca := .sca, b := 4, cb := .vec }
def oFnc : Opnds := { oz with ext := some { imm := 0, c := 0, ec := false, cc := .none, cd := .none, xm := 0x4800 } }
theorem test_met_FencePrefetchComplete : wellFormed (.fnc oFnc .team) = true ∧ issuesB ts oFnc false = true ∧
    wellFormed (.pfch oPf) = true ∧ issuesB ts oPf false = true ∧
    ((s0Of ts).placeLanes 0 0 0 { kind := .prefetch, use := .read, size := 1 } [(0, 0x10000, false)]).2.1.any (fun a => a.cpol == 0 || a.cpol == 2) = true := by
  decide +kernel

/-- A load in flight on the Bench with one lane left, a fence, and a refused operation. -/
def opA : Op := { id := 7, wave := 0, kind := .load, active := 1, bench := true, lanes := [{ lane := 0, va := 0, key := benchKey 0 0 }], size := 4 }
def opF : Op := { id := 8, wave := 0, kind := .fence, active := 1, paths := 32 }
def opR : Op := { id := 9, wave := 0, kind := .load, active := 1, remote := true, refused := 1, lanes := [] }
def tsOps : State := ts.modCore 0 (fun k => { k with ops := [opA, opF, opR] })
theorem test_met_AccessEventsComplete : (tsOps.core 0).ops.find? (fun e => e.id == 7) = some opA ∧
    opA.left = opA.lanes ∧ tsOps.memReady 0 opA { lane := 0, va := 0, key := benchKey 0 0 } = true := by decide +kernel
theorem test_met_BenchAccessEffect : isBench (benchKey 0 0) = true ∧ opA.acq = false ∧ (ts.homeRead (benchKey 0 0) 4).isSome = true := by
  decide +kernel
theorem test_met_HomeWriteFrame : Memory.wf ts.mem = true ∧ (ts.homeWrite 0x10000 [1, 2]).2 = true ∧
    ({ ts with tags := [(0x10000, tagPoison)] }.homeWrite 0x10000 [1, 2]).2 = false := by decide +kernel
/-- R300: `.INC` wraps to 0 at its bound. -/
theorem test_atomic_inc : atomicNew 10 32 5 5 0 = 0 ∧ atomicNew 10 32 4 5 0 = 5 := by decide +kernel

def tsLine : State := { ts.modCore 0 (fun k => { k with l1 := [{ addr := 0x10000, valid := 15, dirty := 0, data := List.replicate 256 0 }] }) with
  l2 := [(0x10000, true)], sealed := [(0, { ctx := 0, base := 0x10000, pages := 1, tree := 0, root := 0 })] }
theorem test_met_MemoryEventsComplete : (tsOps.core 0).ops.find? (fun e => e.id == 8) = some opF ∧
    tsOps.unperformed 0 0 1 7 = false ∧
    (tsOps.core 0).ops.find? (fun e => e.id == 9) = some opR ∧ opR.left = [] ∧ (tsOps.wave 0 0).isOver = false ∧
    tsOps.homesPending 0 = false ∧ ((tsLine.core 0).line? 0x10000).isSome = true ∧ (0x10000, true) ∈ tsLine.l2 ∧
    tsLine.retraining 0x10000 = false := by
  decide +kernel
/-- A sealed page of a region whose check is to be made. -/
def tsSeal : State := { tsLine with tlb := [{ ctx := 0, page := 1, size := 16, leaf := 0x10235 }] }
theorem test_met_PageVerification : (tsSeal.frameAt 0 0x10000).any (fun p => p.sealed && tsSeal.pageCheck 0 0x10000 p.key == .waiting) = true := by decide +kernel

/-! ### Copies, the Jig, synchronisation -/

/-- `CPY` of 16 bytes from `[ds0]` into record `s1` = 0. -/
def oCp : Opnds := { oz with a := 0, ca := .sca, b := 1, cb := .sca, ext := some (extC 48 .sca 0) }
theorem test_met_CopyInstructionsComplete : wellFormed (.cpy { oCp with ext := some { (extC 48 .sca 0) with cd := .none } } .none) = true ∧
    issuesB ts oCp false = true ∧ okB (srcsOf ts oCp [fieldA oCp 2, fieldB oCp, fieldC oCp]) = true ∧
    (s0Of ts).unperformed 0 0 allLanes (s0Of ts).fresh = false ∧ (s0Of ts).recOffset 0 0 = none ∧ ((s0Of ts).recGet 0 0 0).inUse = false ∧
    (s0Of ts).recordFault 0 { (s0Of ts).recGet 0 0 0 with maddr := 0x10000, count := 16, kind := 0 } false = none ∧
    ((s0Of ts).core 0).freeJob.isSome = true := by decide +kernel

def oJl : Opnds := { oz with a := 0, ca := .sca, b := 36, cb := .sca }
def oJs : Opnds := { oz with a := 1, ca := .sca, b := 36, cb := .sca, ext := some { (extC 36 .sca 0) with cd := .none } }
theorem test_met_JigInstructionsComplete : issuesB ts oJl false = true ∧ ((s0Of ts).jig 0).holder ≠ some (xOf ts).src.team ∧
    issuesB tj oJl false = true ∧ ((s0Of tj).jig 0).holder = some (xOf tj).src.team ∧ ((s0Of tj).jig 0).running = false ∧
    okB ((s0Of tj).readOpds (xOf tj) allLanes oJl [fieldA oJl 2, fieldB oJl]) = true ∧
    okB ((s0Of tj).readJigWords 0 0 0x10000 18).2 = true ∧ okB ((s0Of tj).readOpds (xOf tj) allLanes oJs [fieldA oJs, fieldB oJs, fieldC oJs]) = true ∧
    okB ((s0Of tj).pendNames (xOf tj) allLanes [5]) = true ∧ okB ((s0Of tj).putPred (xOf tj) allLanes 4 0) = true := by decide +kernel

def oBar : Opnds := { oz with a := 3, ca := .imm }
def oBb : Opnds := { oz with a := 1, ca := .sca, b := 36, cb := .sca, ext := some { (extC 36 .sca 0) with cd := .none } }
def oBa : Opnds := { oz with a := 1, ca := .sca, b := 1, cb := .sca }
/-- A byte barrier at Bench 0 that awaits two arrivals. -/
def tsBb : State := ts.benchWrite (ts.benchAt 0 0 0) (ByteBar.bytes { pend := 0, arrv := 2, expa := 2 })
theorem test_met_BarrierInstructionsComplete :
    readsB (.bar oBar) ts oBar false [fieldA oBar] = true ∧
    v0 ts oBar [fieldA oBar] 0 = 3 ∧ okB ((s0Of ts).releaseNow (xOf ts) allLanes .team) = true ∧
    readsB (.bbinit oBb) ts oBb false [fieldA oBb, fieldB oBb, fieldC oBb] = true ∧ ((s0Of ts).localBench 0 0 16).isSome = true ∧
    v0 ts oBb [fieldA oBb, fieldB oBb, fieldC oBb] 2 = 18 ∧ readsB (.bbarv oBa) tsBb oBa false [fieldA oBa, fieldB oBa] = true ∧
    (match (s0Of tsBb).bbKey (xOf tsBb) allLanes 0 with | .ok k => decide (((s0Of tsBb).bbGet k).arrv = 2) | _ => false) = true := by decide +kernel
def oTb : Opnds := { oz with a := 1, ca := .imm, b := 1, cb := .sca }
def oGb : Opnds := { oz with a := 1, ca := .sca }
theorem test_met_TbarGbar : readsB (.tbar oTb .row) ts oTb false
      [fieldA oTb, fieldB oTb] = true ∧
    ((s0Of ts).launch 0).phased = true ∧ tbarNames .row 1 0 = true ∧ ((s0Of ts).launch 0).tbar = [] ∧
    okB ((s0Of ts).releaseNow (xOf ts) allLanes .device) = true ∧
    readsB (.gbar oGb) ts oGb false [fieldA oGb] = true := by decide +kernel



/-! ### Mail, queues, tasks, traversal -/

def oSd : Opnds := { oz with a := 3, ca := .vec, b := 4, cb := .vec }
def oMb : Opnds := { oz with a := 130, ca := .sca }
/-- `WAITA s4, [ds0], value` of a word of 0: with value `s36` = 18 the words differ, with `s1` = 0 they do not. -/
def oWa : Opnds := { oz with d := 4, a := 0, ca := .sca, b := 36, cb := .sca }
theorem test_met_MailInstructionsComplete : wellFormed (.send oSd false) = true ∧ issuesB ts oSd false = true ∧
    okB ((xOf ts).namesOk allLanes [fieldA oSd, fieldB oSd]) = true ∧
    okB ((s0Of ts).readOpds (xOf ts) allLanes oSd [fieldA oSd, fieldB oSd]) = true ∧ okB ((s0Of ts).releaseNow (xOf ts) allLanes .team) = true ∧
    wellFormed (.mbclr oMb) = true ∧ issuesB ts { oMb with ca := .none } false = true ∧
    wellFormed (.waita oWa) = true ∧ issuesB ts oWa false = true ∧
    okB ((s0Of ts).readOpds (xOf ts) allLanes oWa [fieldA oWa 2, fieldB oWa]) = true ∧
    (match ((s0Of ts).homeWord 0 0 0x10000).2 with | .ok h => h.word == some 0 | _ => false) = true ∧
    cmpWord .ne false 0 18 = true ∧ cmpWord .ne false 0 0 = false ∧ ((s0Of ts).now (xOf ts)).registered = false ∧
    readsB (.wake { oz with a := 0, ca := .sca }) ts { oz with a := 0, ca := .sca } false [fieldA { oz with a := 0, ca := .sca } 2] = true := by
  decide +kernel

def oSp : Opnds := { oz with a := 3, ca := .vec, b := 1, cb := .sca }
def oSt : Opnds := { oz with d := 5, a := 1, ca := .sca }
def oCq : Opnds := { oz with d := 8, a := 1, ca := .sca, b := 36, cb := .sca, ext := some (extC 1 .sca 0) }
/-- A stage queue with an entry. -/
def tsQ : State := ts.modSq 0 (fun y => { y with entries := [(none, List.replicate 16 0)] })
theorem test_met_QueueInstructionsComplete : wellFormed (.sqpush oSp false) = true ∧ issuesB ts oSp false = true ∧
    okB ((s0Of ts).readOpds (xOf ts) allLanes oSp [fieldB oSp]) = true ∧ okB ((s0Of ts).sqCheck (xOf ts) allLanes 0 1 false) = true ∧
    (match (s0Of ts).sqApply 0 (List.replicate 16 1) with | .done _ => true | _ => false) = true ∧
    wellFormed (.sqpop oSt false) = true ∧ okB ((s0Of tsQ).sqCheck (xOf tsQ) allLanes 0 0 true) = true ∧ ((s0Of tsQ).sq 0).poppers = [] ∧
    okB ((s0Of tsQ).sqTake (xOf tsQ) allLanes [5] (List.replicate 16 0)) = true ∧ ((s0Of ts).sq 0).entries = [] ∧
    wellFormed (.cqpop oCq true) = true ∧ issuesB ts oCq false = true ∧
    okB ((s0Of ts).readOpds (xOf ts) allLanes oCq [fieldA oCq, fieldB oCq, fieldC oCq]) = true ∧
    okB ((xOf ts).names allLanes 3 8 4) = true ∧ ((s0Of ts).team 0).cqn = 1 ∧ (s0Of ts).cqEnough (xOf ts) 0 18 = false := by decide +kernel

def oLn : Opnds := { oz with a := 0, ca := .sca, b := 0, cb := .sca }
def oRf : Opnds := { oz with d := 64, a := 0, ca := .sca, b := 36, cb := .sca, ext := some { (extC 38 .sca 0) with cd := .sca } }
def oJn : Opnds := { oz with a := 0, ca := .sca, b := 2, cb := .imm }
def oN1 : Opnds := { oz with a := 8, ca := .imm }
/-- A join cell at 0x10000 with one participant left; a wave with a rotating window. -/
def tsJn : State := { ts with mem := Memory.writeBytes ts.mem 0x10000 [1] }
def tsRot : State := ts.modWave 0 0 (fun x => { x with rotSize := 16 })
theorem test_met_TaskInstructionsComplete : readsB (.launch oLn) ts oLn false [fieldA oLn 2, fieldB oLn 2] = true ∧ (s0Of ts).unplaced 0 < 64 ∧
    readsB (.rfork oRf) ts oRf false [fieldA oRf 2, fieldB oRf, fieldC oRf] = true ∧ v0 ts oRf [fieldA oRf 2, fieldB oRf, fieldC oRf] 2 = 19 ∧
    okB ((s0Of ts).place (.core 0) 0 0x10000 .write).2 = true ∧ (s0Of ts).reach 0 0x10000 = none ∧
    readsB (.join oJn) tsJn oJn false [fieldA oJn 2, fieldB oJn] = true ∧ (xOf tsJn).lanes = (xOf tsJn).src.live ∧
    (((s0Of tsJn).pushHome 0 0x10000).homeNat 0x10000 4) = some 1 ∧
    readsB (.racq oN1) ts oN1 false [fieldA oN1] = true ∧ ((s0Of ts).now (xOf ts)).charge + 64 * 8 ≤ 1023 ∧
    ((s0Of ts).slice 0 0).racq = [] ∧ (s0Of ts).canGrant 0 0 8 = true ∧ okB ((s0Of ts).grantBlocks (xOf ts) allLanes 8 none) = true ∧
    readsB (.rsetw oN1) ts oN1 false [fieldA oN1] = true ∧ readsB (.rotb oN1) tsRot oN1 false [fieldA oN1] = true ∧ (xOf tsRot).src.rotSize ≠ 0 := by
  decide +kernel

/-- Query blocks in Bench at `v3` = 0, a kind descriptor at offset 0, tags in `v3`. -/
def oTv : Opnds := { oz with a := 3, ca := .vec, b := 1, cb := .sca, ext := some { (extC 3 .vec 0) with cd := .none } }
theorem test_met_TraversalInstructionsComplete : readsB (.trav oTv) ts oTv false [fieldA oTv, fieldB oTv, fieldC oTv] = true ∧
    0 < ((s0Of ts).team 0).cqn ∧ (s0Of ts).queryReady (xOf ts) allLanes (fun _ => 0) = true ∧ okB ((s0Of ts).queryBlock (xOf ts) 0) = true ∧
    ((s0Of ts).core 0).sp.want = [] ∧ ((s0Of ts).core 0).sp.arrivals = [] ∧
    readsB (.travx { oz with a := 3, ca := .vec }) ts { oz with a := 3, ca := .vec } false [fieldA { oz with a := 3, ca := .vec }, fieldB { oz with a := 3, ca := .vec }] = true := by
  decide +kernel

/-! ### The matrix engine -/

def oMm : Opnds := { oz with d := 136, a := 16, ca := .vec, b := 24, cb := .vec }
def oMr : Opnds := { oz with d := 32, a := 136, ca := .sca }
theorem test_met_MatrixInstructionsComplete : wellFormed (.mma oMm false false) = true ∧ issuesB ts oMm true = true ∧ actOf ts oMm = allLanes ∧
    (tilePre (some oMm.d) 3 true (xOf ts)).isNone = true ∧ matPair (halfCode false) (halfCode false) = true ∧ isGrouped (halfCode false) = false ∧
    okB (srcsOf ts oMm [fieldA oMm 8, fieldB oMm 8]) = true ∧
    okB ((s0Of ts).engEnter (xOf ts) oMm 0 true { id := 0, wave := 0, kind := .mma }) = true ∧
    wellFormed (.macr oMr .f32 .rne) = true ∧ (tilePre (some oMr.a) 0 true (xOf ts)).isNone = true ∧ tileFmtOk (tileCode .f32) = true ∧
    okB ((xOf ts).names allLanes 3 32 8) = true ∧ ((s0Of ts).core 0).tilePoisoned 0 = false ∧ 1 ≤ ((s0Of ts).core 0).engRoom ∧
    okB ((s0Of ts).pendNames (xOf ts) allLanes [32, 33, 34, 35, 36, 37, 38, 39]) = true ∧ okB ((s0Of ts).lxBench (xOf ts) allLanes 0 (32 * 32)) = true ∧
    ((s0Of ts).core 0).lxQueued.loaded = true ∧ sparseBad .o12 false 32 vzero = false := by decide +kernel

def engA : EngEntry := { id := 7, wave := 0, kind := .mma, fa := 2, fb := 2, places := 1, srcs := List.replicate 16 vzero, nA := 8, nB := 8 }
def tsEng : State := ts.modCore 0 (fun k => { k with eng := [engA] })
def tsRun : State := ts.modCore 0 (fun k => { k with eng := [{ engA with places := 0, running := true }] })
def tsMacr : State := ts.modCore 0 (fun k => { k with eng := [{ engA with kind := .macr, places := 0 }] })
theorem test_met_EngineEventsComplete : (tsEng.core 0).eng.any (·.running) = false ∧ ((tsEng.core 0).engHead).map (·.id) = some 7 ∧
    ((tsRun.core 0).eng.find? (·.running)).map (fun e => (e.places, e.kind)) = some (0, .mma) ∧
    ((tsMacr.core 0).eng.find? (fun y => y.id == 7 && y.kind == .macr && y.places == 0 && !y.running)).isSome = true := by decide +kernel

/-! ### Walks and the Jig -/

def wk : Walk := { ctx := 0, plen := 4096, prog := 0x10000, q := (List.range 16).map (fun i => BitVec.ofNat 32 (i % 2 * 0)) }
/-- Walk 0 of core 0 executes a word. -/
def tw (x : Walk) : State :=
  { ts.setWalk 0 0 x with cur := some { agent := .walk, core := 0, wave := 0, lanes := 0 } }
theorem test_met_WalkAluGroup : (tw wk).walkNow = some (0, 0, wk) ∧ wellFormed (.wadd true 2 4 (.reg 6)) = true ∧ wk.q.length = 16 := by
  decide +kernel
theorem test_met_WalkNodesAndStack : (tw { wk with chip := [1, 2] }).walkNow.isSome = true ∧ wk.depth + 1 ≤ 64 ∧ wk.chip.length < 7 ∧
    ({ wk with chip := List.replicate 8 1 } : Walk).depth + 2 ≤ 64 ∧ ({ wk with spilled := 2 } : Walk).depth = 2 ∧ wk.depth = 0 ∧
    (tw { wk with spilled := 2 }).walkNow.isSome = true ∧ (({ wk with m := List.replicate 4 1 } : Walk).mr 1).getLsbD 0 = true ∧ wk.mr 1 = 0 := by
  decide +kernel
theorem test_met_WalkComputingCompletes : (tw wk).walkNow = some (0, 0, wk) := by decide +kernel
theorem test_met_WalkFlowCompletes : (tw wk).walkNow = some (0, 0, wk) ∧ (wk.dq 0).getLsbD 63 = false ∧ (wk.dq 0).toNat % 16 = 0 ∧
    wk.remote = none ∧ ((tw wk).cqWrite 0 0 0 (cqEntry 0 0 0 0 0 0)).isSome = true ∧ ((tw wk).cqWrite 0 0 0 (cqEntry 0 1 0 0 0 0)).isSome = true ∧
    (tw { wk with remote := some (3, 4, 5) }).walkNow.isSome = true ∧ 0 ≤ (wk.pc : Int) + 5 ∧ (wk.pc : Int) + 5 < wk.plen := by decide +kernel
/-- A walk whose `dq0` names a place of the paired board. -/
def twPair : State := { tw { wk with q := 0 :: 0x80000000 :: List.replicate 14 0 } with
  ctxs := [(0, { pair := some 3 })], ports := [true, false], partnerPairs := [(3, 0)] }
theorem test_met_Handoff : (twPair.walkNow.any (fun x => (x.2.2.dq 0).getLsbD 63)) = true ∧ twPair.paired = true ∧
    (FMap.getD twPair.ctxs 0 {}).pair = some 3 := by decide +kernel

def jg : Jig := { running := true, len := 256, starter := some 0, holder := some 0 }
/-- The Jig of core 0 executes a word. -/
def tg (j : Jig) : State := { ts.setJig 0 j with cur := some { agent := .jig, core := 0, wave := 0, lanes := 0 } }
theorem test_met_JigWordsComplete : (tg jg).jigNow = some (0, jg) ∧ (nth jg.q 1 []).length < 32 ∧ (7 : Nat) < jg.len ∧
    ((tg jg).wave? 0 0).any (fun x => !x.isOver) = true ∧ (nth ((tg jg).wave 0 0).mbox 0 {}).full = false ∧
    (match ((tg jg).jigLoad 0 jg false 0 0 128 16).2 with | .ok _ => true | _ => false) = true := by decide +kernel

/-! ### Events -/

def cj : CopyJob := { recOff := 0, team := 0, ctx := 0, kind := 0, maddr := 0x10000, count := 16, baddr := 16, iaddr := 0, bbar := 8, rowb := 0, limit := 0 }
def tsCj (n : Nat) (j : CopyJob) : State := ts.modCore 0 (fun k => { k with copies := [(n, j)], copyTurn := [n] })
theorem test_met_CopyEventsComplete : ((tsCj 16 cj).core 0).freeJob.isSome = true ∧
    (((tsCj 16 cj).core 0).copies.find? (fun e => decide (16 ≤ e.1))).isSome = true ∧
    FMap.get ((tsCj 0 cj).core 0).copies 0 = some cj ∧ cj.failing = none ∧ cj.next < cj.units_ ∧ ((tsCj 0 cj).team 0).saving = false ∧ cj.rows = false ∧
    ((tsCj 0 cj).movePieces 0 cj 0 0x10000 1 0).2 = .ok ∧
    FMap.get ((tsCj 0 { cj with failing := some (.protection, 0) }).core 0).copies 0 = some { cj with failing := some (.protection, 0) } ∧ cj.units = [] ∧
    (((tsOps.modCore 0 (fun k => { k with jig := { k.jig with claims := [(1, 7)], q := [[], [5], [], []] } })).jig 0).claims = [(1, 7)]) := by
  decide +kernel



/-- Core 0 in service. -/
def tsUp : State := ts.modCore 0 (fun k => { k with service := .inService })
def hm : HoffMsg := {
  ctx := 3, partnerCtx := 0, originCore := 0, originSlot := 1,
  tag := 0, cq := 0, kind := 0, sdtab := 0, entry := 0, ptr := 0, q := List.replicate 16 0, m := List.replicate 4 0, emitted := 0, topk := none }
def tsPair : State := { tsUp with ctxs := [(0, { pair := some 3 })], ports := [true, false], partnerPairs := [(3, 0)] }
def tsArr : State := tsPair.modCore 0 (fun k => { k with sp := { k.sp with arrivals := [hm] } })
theorem test_met_SpindleEventsComplete : tsArr.freeWalkSlot 0 = some 0 ∧ (tsArr.core 0).sp.arrivals = [hm] ∧
    ((tw { wk with wait := .ldq 1 0x10000 1 }).walk? 0 0).isSome = true ∧
    (match ((tw wk).walkRead .node 0 0 3 0x10000 4).2 with | .ok _ => true | _ => false) = true ∧
    (match ((tw wk).walkRead .node 0 0 9 0x10000 (nodeSize 2 [])).2 with | .ok _ => true | _ => false) = true ∧
    ((tw { wk with chip := [7], spill := 0x10000 }).walk? 0 0).map (·.chip) = some [7] ∧
    ((tw wk).vaAccess (.core 0) 0 0x10000 .atomic (leBytes 4 7)).2 = none ∧ (tw wk).vaWaits (.core 0) 0 0x10000 false 4 = false ∧
    ((tw { wk with spilled := 1, under := [7] }).walk? 0 0).any (fun x => !x.finished) = true ∧
    (tw wk).vaWaits (.core 0) 0 0x10000 true 4 = false ∧ ((tw wk).stored 0x10000 4).isSome = true ∧ ((tw wk).farFault 0x10000).isNone = true ∧
    okB ((tw wk).place (.core 0) 0 0x10000 .atomic).2 = true ∧ tsPair.ports.any id = true ∧ State.reset.heldHandoff 0 = none ∧
    FMap.sorted (tw wk).cores = true ∧ (tw wk).cores.all (fun e => FMap.sorted e.2.sp.walks) = true ∧ forOrigin 3 4 0 { wk with remote := some (3, 4, 5) } = true ∧
    tsPair.accepts 3 0 = true ∧ tsPair.accepts 5 0 = false ∧ tsPair.handoffCore 0 = some 0 ∧
    ((tw { wk with wait := .handoff 0 0 false }).walk? 0 0).any (fun x => !x.cancelled) = true ∧
    okB (tsPair.place .device 0 0x10000 .atomic).2 = true ∧ okB (tsPair.vaRead .device 0 0x10000 4).2 = true ∧
    (tsPair.homeRead 0x10000 16).isSome = true := by decide +kernel
/-- A walk that holds its hand-off takes the credit of its partner core. -/
theorem test_met_HandoffCredit :
    ({ tsPair with cores := [(0, { sp := { walks := [(0, { wk with wait := .handoff 0 0 true })] } })] } : State).heldHandoff
      (partnerCore 0) = some (0, 0) := by
  simp [State.heldHandoff, wk]
/-- Lane 5 of the wave waits for a walk slot. -/
def tq : TravReq := { lane := 5, tag := 1, cq := 0, kind := 0, block := zeros 64 }
def wv (k : WaitKind) : Wait := { lanes := allLanes, active := allLanes, pc := 0x10000, len := 8, kind := k }
def tsWait (k : WaitKind) : State := tsUp.modWave 0 0 (fun x => { x with waits := [wv k] })
def tsWant : State := (tsWait (.trav [tq] [])).modCore 0 (fun k => { k with sp := { k.sp with want := [(0, 5)] } })
theorem test_met_WalkSlotGrant : tsWant.freeWalkSlot 0 = some 0 ∧ (tsWant.core 0).sp.arrivals = [] ∧ (tsWant.core 0).sp.want = [(0, 5)] ∧
    (tsWant.wave 0 0).waits = [wv (.trav [tq] [])] ∧
    ((tsWant.modCore 0 (fun y => { y with sp := { y.sp with want := [] } })).travStart 0 0 tq).isSome = true := by decide +kernel

/-- A deposit for mailbox 2 of the wave, on its way, refused, and with its status. -/
def dp : Deposit := { id := 7, srcCore := 0, srcWave := 0, first := 7, ctx := 0, team := 0, target := 2, value := 5, scope := .team }
def tsDp (d : Deposit) : State := { tsUp with deposits := [d] }
/-- A team whose threads all wait at a `TBAR`, and at a `GBAR`, of a time-out of 1. -/
def arr : Arrival := { core := 0, wave := 0, lanes := allLanes, time := 0, tmo := 1, set := .row, mask := 3 }
def tsTb : State := { (tsWait .tbar).modLaunch 0 (fun l => { l with tbar := [arr], tcame := [(0, 0)] }) with time := 5000, clocks := 11500 }
def tsGb : State := { (tsWait (.gbar none)).modLaunch 0 (fun l => { l with gbar := [arr], gcame := [(0, 0)], gcores := [0, 1] }) with time := 5000, clocks := 11500 }
def tsPend : State := { (tsUp.modLaunch 0 (fun l => { l with hdr := { l.hdr with flags := 0 }, teams := 2 })) with pending := [(0, [0])] }
theorem test_met_WaitAndLaunchEventsComplete : (tsDp dp).deposits.find? (·.id == 7) = some dp ∧ (tsDp dp).inTurn dp = true ∧
    (tsDp { dp with refused := true }).inTurn { dp with refused := true } = true ∧
    (match (tsDp dp).receiver 0 2 with | .resident w => w == 0 | _ => false) = true ∧ (tsDp dp).boxFull dp (.resident 0) = some false ∧
    (tsWait (.sleep 0)).time = 0 ∧ ((tsWait (.sleep 0)).wave 0 0).waits = [wv (.sleep 0)] ∧
    ((lastArrival (tsTb.launch 0).tbar 0).any (fun a => a.late (FMap.get (tsTb.launch 0).tcame 0) tsTb.time)) = true ∧ tsTb.coreArrived 0 0 WaitKind.isTbar = true ∧
    (tsTb.barrierWaits 0 0 WaitKind.isTbar).all (fun v => (tsTb.wave 0 v.1).dbg.isNone) = true ∧
    lastArrival (tsGb.launch 0).tbar 0 = none ∧ ((lastArrival (tsGb.launch 0).gbar 0).any (fun a => a.late (FMap.get (tsGb.launch 0).gcame 0) tsGb.time)) = true ∧
    tsGb.coreArrived 0 0 WaitKind.isGbar = true ∧ tsGb.gbarReady 0 = false ∧
    ((tsWait (.racq 8 none)).modSlice 0 0 (fun k => { k with racq := [0] })).canGrant 0 0 8 = true ∧ tsUp.clkOf 0 % 4 = 0 ∧
    tsPend.teams.all (fun e => e.2.saved.isNone) = true ∧ tsPend.left 0 ≠ 0 ∧ (tsPend.placeOne 0).isSome = true ∧
    (tsPend.dispatchAt 0).isSome = true := by decide +kernel
/-- A launch whose teams take entries of queue 0, a frozen launch at its barrier, a quiet team, a saved one, a pending invalidation. -/
def tsAuto : State := (tsPend.modLaunch 0 (fun l => { l with entryQ := some 0 })).modSq 0 (fun y => { y with entries := [(none, zeros 16)] })
def tsStop : State := (tsGb.modLaunch 0 (fun l => { l with quiet := some (0, 5), gcores := [0] })).modCore 0 (fun k => { k with
  copies := [(0, cj)], service := .inService })
def tsQuiet : State := { (tsWait .tbar) with clocks := 2 ^ 24 }
def tsSaved : State := (tsUp.modTeam 0 (fun t => { t with saved := some {} })).modCore 0 (fun k => { k with waves := [] })
theorem test_met_AutoLaunch : (tsAuto.settleAuto.binder 0).isSome = true ∧ tsAuto.settleAuto.left 0 ≠ 0 ∧
    (tsAuto.settleAuto.dispatchAt 0).isSome = true ∧ (tsAuto.launch 0).entryQ = some 0 ∧
    (FMap.getD tsAuto.queues 0 {}).entries ≠ [] := by decide +kernel
theorem test_met_LaunchEvents : (FMap.getD tsPend.pending (tsPend.launch 0).prio []).head? = some 0 ∧ (tsPend.launch 0).grants = [] ∧
    (tsStop.launch 0).quiet = some (0, 5) ∧ tsStop.gbarReady 0 = true ∧ tsStop.isStill 0 = false ∧
    tsQuiet.isQuiet 0 = true ∧ ((tsSaved.launch 0).phased = true ∧
      (tsSaved.modLaunch 0 (fun l => { l with hdr := { l.hdr with flags := 0 } })).canRestore 0 = true) ∧ tsUp.drained 0 0 0 0 = true := by
  decide +kernel
theorem test_met_WaveEvents :
    (tsWait (.cqpop 0 1 (some 0) [8, 9, 10, 11] 0 1)).time = 0 ∧ ((tsUp.wave? 0 0).isSome = true ∧
      ((tsUp.modWave 0 0 (fun x => { x with unchosen := 4096 })).wave 0 0).unchosen = 4096) ∧ tsUp.clkOf 0 = 0 ∧
    (tsUp.slice 0 0).sampleAt = 0 := by decide +kernel
/-- Core 1 of the launch in service, with a team whose wave does not wait. -/
def tsLate : State := { tsGb.modCore 1 (fun k => { k with service := .inService, waves := [(0, { tsGb.wave 0 0 with team := 1, waits := [] })] }) with
  teams := tsGb.teams ++ [(1, { launch := 0, ctx := 0, members := [{ core := 1, slot := 0, base := 0 }] })] }
/-- R392: the report of core 0 names core 1, which did not arrive; after core 1's own time-out it does not. -/
theorem test_late_core : tsLate.gbarHad 0 1 = false ∧ (tsLate.modLaunch 0 (fun l => { l with glate := [1] })).gbarHad 0 1 = true := by decide +kernel

/-! ### Device, host, debugger -/

/-- The machine after bring-up. -/
def tsOn : State := { tsUp with booted := true, hostUp := true, bootStep := 6, running := 0 }
theorem test_met_DeviceEventsComplete : State.reset.booted = false ∧ tsOn.booted = true ∧ (3 : Nat) ∉ tsOn.droop ∧ tsOn.hostUp = true ∧
    tsOn.bootStep = 6 ∧ nth tsPair.ports 0 false = true ∧ nth tsOn.ports 0 false = false ∧
    isLocal 0x10000 = true ∧ 0x10000 < Config.usableBytes ∧ (tsOn.core 0).service = .inService ∧
    ((tsOn.modCore 0 (fun k => { k with recal := true })).core 0).recal = true ∧ tsOn.task = none ∧
    ({ tsOn with ingress := [(1, { queue := some 0, staging := List.replicate 16 (zeros 256) })] }.windowSize 1) = some 16 ∧
    (({ tsOn with task := none }).leafDigests 0 0x90000 1).isNone = true ∧
    (({ tsOn with task := none }).leafDigests 0 0x10000 0) = some [] := by decide +kernel
theorem test_met_HostCommand : (let s := { tsOn with ctxs := [(0, { tail := 1, ring := 0x10000 })] };
    (FMap.get s.ctxs 0).any (fun x => decide (x.head ≠ x.tail)) && !s.restarting && (s.homeRead 0x10000 32).isSome) = true := by decide +kernel
theorem test_met_HostAndManagementCommandsComplete : (tsOn.booted = true ∧ tsOn.hostUp = true ∧ tsOn.bootStep ≠ 2 ∧ tsOn.task = none) ∧
    tsOn.hasCtx 0 = true ∧ FMap.get tsOn.ctxs 9 = none ∧
    ((3 : Nat) < 16 ∧ tsOn.l2 = []) ∧ (tsOn.core 0).service.out = false ∧
    (FMap.get tsOn.queues 0).any (fun y => tsOn.hasCtx y.ctx) = true ∧ (tsOn.sq 5).bound = none ∧ (tsOn.sq 5).running = 0 ∧
    alarmsFit tsOn.queues = true ∧ tsOn.running = 0 ∧ tsOn.sealed.length < 16 ∧ (FMap.get tsSeal.sealed 0).isSome = true :=
  ⟨⟨by decide +kernel, by decide +kernel, by decide +kernel, by decide +kernel⟩, by decide +kernel⟩
/-- The wave stopped for a debugger. -/
def tsDbg : State := { tsOn.modWave 0 0 (fun x => { x with dbg := some { cause := .none } }) with
  trace := { base := 0x20000, count := 256 }, armed := [(0, 0)] }
theorem test_met_DebugCommandsComplete : (tsDbg.booted = true ∧ tsDbg.hostUp = true ∧ tsDbg.bootStep ≠ 2 ∧ tsDbg.task = none) ∧
    tsDbg.hasCtx 0 = true ∧ tsDbg.trace.count ≠ 0 ∧ tsDbg.waveAt 0 0 0 = some 0 ∧
    (0, 0) ∈ tsDbg.ctxWaves 0 ∧ (tsDbg.wave 0 0).dbg ≠ none ∧ (tsOn.wave 0 0).dbg = none ∧ (tsDbg.wave 0 0).rotate 5 = some 5 ∧
    (tsDbg.wave 0 0).mapped 5 = true ∧ (tsDbg.vecOf 0 0 5).pending = false ∧ (tsDbg.vecOf 0 0 5).poison = false ∧
    (tsDbg.writeVec 0 0 5 vzero).isSome = true ∧ tsDbg.launchAt 0 0 = some 0 ∧ tsDbg.trace.dropped = 0 ∧ tsDbg.tileBusy 0 0 = false :=
  ⟨⟨by decide +kernel, by decide +kernel, by decide +kernel, by decide +kernel⟩, by decide +kernel⟩

/-! ### The step, the encoder, frames -/

/-- A bundle's turn at the head of the agenda, and its word in the instruction cache. -/
def tsStep : State := State.reset.withFetchWord 64 0x03F0000000007840
theorem test_met_StepRunsDecoded : (tsStep.nextTurn.1.act == .bundle 0 0 allLanes false) = true ∧
    (let s1 := ((tsStep.nextTurn.2.unstick exec).advance 0 0 0).withTwin exec 0 0 false
     (s1.wave? 0 0).any (fun y => s1.mayIssue 0 0 y allLanes && s1.decoder 0 0 allLanes 0x10000 false && y.async.isEmpty && decide ((nth y.pcs 0 0).toNat % 8 = 0)) &&
     (match (({ s1 with cur := some { core := 0, wave := 0, lanes := allLanes, pc := 0x10000 } }).fetchWord 0 0 0 0x10000).2 with
       | .word b => b == 0x03F0000000007840
       | _ => false)) = true := by decide +kernel
/-- A walk's word, and a Jig's. -/
theorem test_met_WalkAndJigTurns : (
      let s := State.reset.withFetchWord 32 0x00080002
      let s1 := (s.nextTurn.2.unstick exec).advance 0 0 0
      decide (s1.nextWalk 0 = some 0) && (s1.walk? 0 0).any (fun x => decide (x.pc < x.plen) && (s1.fetchWalkWord 0 0 x).2 == some 0x00080002)) = true ∧
    (
      let s := State.reset.withFetchWord 32 0x41220080
      (((s.nextTurn.2.unstick exec).advance 0 0 0).jig 0).running) = true := by decide +kernel
theorem test_met_SimtEncodingAgrees : wellFormed (.fmac { oz with
    prd := 5, d := 7, a := 3, b := 4, eb := true, ca := .vec, cb := .vec, ext := some (extC 0 .imm 0x3FC00000) } .rz) = true ∧
    encodeSimt (.fmac { oz with prd := 5, d := 7, a := 3, b := 4, eb := true, ca := .vec, cb := .vec, ext := some (extC 0 .imm 0x3FC00000) } .rz) =
      some (0x20500700601180C1, some 0x3FC0000000080000) := by decide +kernel
theorem test_met_WordEncodingAgrees : wellFormed (.nfetch 0 2 2) = true ∧ encodeWalk (.nfetch 0 2 2) = some 0x00080002 ∧
    wellFormed (.jgadd 1 1 (.imm 128)) = true ∧ encodeJig (.jgadd 1 1 (.imm 128)) = some 0x41220080 := by decide +kernel
theorem test_met_MemoryStaysCanonical : Memory.wf tsStep.mem = true ∧ (after 64 0x03F0000000007840 (fun _ => true)) = some true := by decide +kernel
theorem test_met_DestinationWrites : (ts.wave? 0 0).isSome = true ∧ FMap.sorted (ts.core 0).waves = true ∧
    (ts.core 0).waves.all (fun e => FMap.sorted e.2.names) = true ∧ FMap.sorted (ts.slice 0 0).phys = true ∧
    (ts.writeVec 0 0 5 vzero).isSome = true ∧ okB (ts.putVec (xOf ts) 5 [5] [vzero]) = true ∧
    okB (ts.putScalar (xOf ts) 5 4 [1, 2]) = true ∧ 4 + 2 ≤ (ts.wave 0 0).sreg.length ∧ okB (ts.putPred (xOf ts) 5 3 1) = true := by decide +kernel
theorem test_met_RetireFrame : ts.leftHandler (xOf ts) = false ∧ (ts.wave? 0 0).isSome = true ∧ (FMap.get ts.teams (xOf ts).src.team).isSome = true ∧ boxesOf o2 = [] ∧
    takesOf o2 = [] ∧ flagsOf allLanes (fun _ => fIX) &&& srEnable (xOf ts).src.sr = 0 ∧ (ts.wave 0 0).stepDbg = 0 ∧ srS (ts.wave 0 0).sr = false := by
  decide +kernel

/-! ### Witnesses of the clauses at their edges -/

/-- A table that lists `n` keys from `a` on. -/
def run {α : Type} (v : α) : Nat → Nat → FMap α
  | 0, _ => []
  | n + 1, a => (a, v) :: run v n (a + 1)
theorem get_run {α : Type} (v : α) (n : Nat) : ∀ a p, a ≤ p → p < a + n → FMap.get (run v n a) p = some v := by
  induction n with
  | zero => intro a p; omega
  | succ n ih =>
    intro a p h g
    simp only [run, FMap.get]
    by_cases e : a = p
    · simp [e]
    · rw [if_neg e, if_neg (by omega), ih _ _ (by omega) (by omega)]

theorem find_none {α : Type} (f : α → Bool) (l : List α) (h : ∀ x ∈ l, f x = false) : l.find? f = none := by
  simp only [List.find?_eq_none]; intro x m; simp [h x m]

/-- No register is free where each has contents. -/
theorem writeVec_full {s : State} {c w n : Nat} {v : VReg} {ph : FMap PReg} (h : (s.slice c (sliceOf w)).phys = ph)
    (full : ∀ p, 1 ≤ p → p < 1024 → (FMap.get ph p).isNone = false) : s.writeVec c w n v = none := by
  have e : s.freeReg c (sliceOf w) = none := by
    unfold State.freeReg
    generalize g : 1024 = m at *
    apply find_none
    intro p hp
    have hp : p < m := List.mem_range.mp hp
    rw [h]
    by_cases p0 : p = 0
    · simp [p0]
    · simp [full p (by omega) hp]
  unfold State.writeVec State.pendVec
  rw [e]

/-- A result of ones; a slice of registers `ph` where two waves name its destination, one with a lane that has ended. -/
def sfuF : SfuEntry := { sfuA with vals := [vbuild (fun _ => 1)] }
def tsFull (ph : FMap PReg) : State := (ts.modCore 0 (fun k => { k with waves := [(0, { ts.wave 0 0 with names := [(5, 1)] }), (4, { ts.wave 0 0 with names := [(5, 1)], ended := 1 })] })).modSlice 0 0
  (fun k => { k with sfu := [sfuF], phys := ph })
theorem met_spills (ph : FMap PReg) (full : ∀ p, 1 ≤ p → p < 1024 → (FMap.get ph p).isNone = false) :
    (tsFull ph).settleResults 0 0 allLanes [] (resultsOf [1] sfuF.vals []) = none := by
  have w : ∀ f v, ((tsFull ph).fillSmov 0 0 1 f).writeVec 0 4 5 v = none := fun f v => writeVec_full (by rfl) full
  have u : ((tsFull ph).sliceWaves 0 0).flatMap (fun y => (y.2.names.filter (fun e => e.2 == 1)).map (fun e =>
    (y.1, e.1, vmerge (allLanes &&& y.2.live) (vbuild (fun _ => 1)) (ownPrior [] y.1 e.1 vzero)))) =
      [(0, 5, vmerge allLanes (vbuild (fun _ => 1)) vzero), (4, 5, vmerge (allLanes &&& ~~~1) (vbuild (fun _ => 1)) vzero)] := by
    rfl
  have d : (vmerge (allLanes &&& ~~~1) (vbuild (fun _ => 1)) vzero == vmerge allLanes (vbuild (fun _ => 1)) vzero) = false := by decide +kernel
  have r : resultsOf [1] sfuF.vals [] = [(1, vbuild (fun _ => 1), vzero)] := by rfl
  rw [r]
  simp only [State.settleResults, State.settleResult, u]
  generalize vmerge (allLanes &&& ~~~1) (vbuild (fun _ => 1)) vzero = y at *
  generalize vmerge allLanes (vbuild (fun _ => 1)) vzero = x at *
  simp [bne, d, w]
/-- With every register of the slice taken, a result that needs one of its own is not written (R272). -/
theorem test_met_QueuedResultSpills : let s := tsFull (run { data := vzero, pending := true } 1023 1)
    (s.slice 0 0).sfu.find? (fun y => y.id == 7 && y.started) = some sfuF ∧
    s.settleResults 0 0 allLanes [] (resultsOf [1] sfuF.vals []) = none := by
  have full : ∀ p, 1 ≤ p → p < 1024 → (FMap.get (run ({ data := vzero, pending := true } : PReg) 1023 1) p).isNone = false :=
    fun p a b => by rw [get_run _ _ _ _ a (by omega)]; rfl
  exact ⟨rfl, met_spills _ full⟩


/-- Wave 0 alone names the destination of an entry. -/
def tsOne : State := tsSfu.modWave 0 0 (fun x => { x with names := [(5, 1)] })
theorem test_met_QueuedResultOfOne :
    ((tsOne.sliceWaves 0 0).flatMap (fun z => (z.2.names.filter (fun e => e.2 == 1)).map (fun e => (z.1, e.1)))) = [(0, 5)] ∧
    (tsOne.settleResults 0 0 allLanes [] (resultsOf [1] [vbuild (fun _ => 1)] [vzero])).isSome = true := by decide +kernel
/-- `HALT` of every thread; a handler with a held asynchronous trap, at a boundary. -/
def tsHeld : State := { tsH.modWave 0 0 (fun x => { x with held := [{ trap := { cause := .remoteBench, cls := clsB, mask := 1 } }] }) with
  icache := [(0, [(0x10000, List.replicate 256 0)])] }
theorem test_met_HandlerExits : ((s0Of ts).now (xOf ts)).awaitsBoundary (~~~allLanes) = false ∧ issuesB tsHeld oz false = true ∧
    (let x := xOf tsHeld
     (s0Of tsHeld).leftHandler x = false ∧ (((s0Of tsHeld).leaveWaits 0 0 true).now x).atBoundary = true ∧
     let r := (s0Of tsHeld).lenFor 0 0 (((s0Of tsHeld).now x).asRead x.src)
     r.2 = some 8 ∧
     let s2 := r.1.leaveWaits 0 0 true
     (s2.now x).heldAsync = true ∧
     let s3 := s2.abandonAll 0 0
     (s0Of tsHeld).transitsOver x (s3.modNow x (fun y => y.afterEret x.src 8 (s3.launchOf y).hdr.handler)) = false) ∧
    ((s0Of tsH).now (xOf tsH)).heldAsync = false ∧ ((s0Of ts).endLen (xOf ts) (~~~allLanes)).2 = some 8 := by decide +kernel
/-- A handler thread that skips the instruction at `TRAPPC` whose line of code is not there; a wave whose clock's first bundle has left
the handler. -/
def tsSkip : State := tsH.modWave 0 0 (fun x => { x with trap := { x.trap with trappc := 0x14000, stands := some 0x14000 }, resume := List.replicate 32 0x14000 })
theorem test_met_EretWaits : ((s0Of tsSkip).lenFor 0 0 (((s0Of tsSkip).now (xOf tsSkip)).asRead (xOf tsSkip).src)).2 = none ∧
    srH (xOf tsSkip).src.sr = true ∧ (s0Of tsSkip).leftHandler (xOf tsSkip) = false := by decide +kernel
/-- `HALT` of the handler threads with a held trap meets the same miss. -/
def tsSkipHeld : State := tsSkip.modWave 0 0 (fun x => { x with handler := 1, held := [{ trap := { cause := .misaligned, cls := clsL, mask := 1 } }] })
theorem test_met_HaltWaits : ((s0Of tsSkipHeld).endLen (xOf tsSkipHeld) 0xFFFFFFFE).2 = none ∧
    ((s0Of tsSkipHeld).now (xOf tsSkipHeld)).awaitsBoundary 0xFFFFFFFE = false := by decide +kernel
/-- In the clock of the trap that entered the handler, and a clock after it. -/
def tsHClk : State := tsH.modWave 0 0 (fun x => { x with trapClk := some (tsH.clkOf 0) })
theorem test_met_TrapInHandler : srH (tsHClk.wave 0 0).sr = true ∧ (tsHClk.wave 0 0).trapClk = some (tsHClk.clkOf 0) ∧
    (tsH.wave 0 0).trapClk = none ∧ (tsH.wave 0 0).first = none ∧ allLanes &&& (tsHClk.wave 0 0).handler ≠ 0 ∧
    tsHClk.replays (tsHClk.ctxOf (tsHClk.wave 0 0)) .remoteBench = false := by decide +kernel
/-- The late trap of the other instruction of the pair whose trap of lane 0 entered the handler: from a higher address, and from a
lower one. -/
def tPair (pc : DWord) : Trap := { cause := .misaligned, cls := clsL, mask := 2, pc := pc, bundle := 2, again := 2, clk := some 7 }
def tsPairT : State := tsH.modWave 0 0 (fun x => { x with
  handler := 1, first := some ({ cause := .userTrap, cls := clsW, mask := 1, pc := 0x10000, bundle := 1, again := 1, clk := some 7 }, x.lastIssue) })
theorem test_met_LateOfPair : (tsPairT.wave 0 0).trapClk = none ∧ ((tsPairT.wave 0 0).pairs (tPair 0x10010)) = true ∧
    ((tsPairT.wave 0 0).yields (tPair 0x10010)).isNone = true ∧ ((tsPairT.wave 0 0).yields (tPair 0xFFF0)).isSome = true ∧
    (2 : Mask) &&& (tsPairT.wave 0 0).handler = 0 ∧ (tPair 0).clk ≠ none ∧ (tsPairT.wave 0 0).drainStop = none := by decide +kernel
/-- The late trap from the higher address waits for `ERET`; the one from the lower address goes first (R434). -/
theorem test_late_of_pair : ((tsPairT.deliver 0 0 (tPair 0x10010)).wave 0 0).trap.trappc = 0x10000 ∧
    ((tsPairT.deliver 0 0 (tPair 0x10010)).wave 0 0).held.length = 1 ∧
    ((tsPairT.deliver 0 0 (tPair 0xFFF0)).wave 0 0).trap.trappc = 0xFFF0 ∧
    ((tsPairT.deliver 0 0 (tPair 0xFFF0)).wave 0 0).held.map (·.trap.pc) = [0x10000] := by decide +kernel
/-- A POISON line; a channel that failed its training. -/
def tsPois : State := { ts with tags := [(0x10000, tagPoison)] }
theorem test_met_HomeWriteTold : isBench (benchKey 0 0) = true ∧ isBench 0x10000 = false ∧
    ({ ts with tags := [(hostKey 0x100, tagPoison)] } : State).poisoned (hostKey 0x100) = true ∧ isBench (hostKey 0x100) = false ∧ isLocal 0x10000 = true ∧ tsPois.poisoned 0x10000 = true ∧
    (tsPois.homeWrite 0x100FF [1]).2 = false ∧ (tsPois.homeWrite 0x10000 (zeros 256)).2 = true ∧
    ({ ts with badChannels := 0xFFFF } : State).badSpan 0x10000 1 = true ∧ tsPois.badSpan 0x10000 256 = false := by decide +kernel
theorem test_met_FenceWaits : tsOps.flushes 0 .device 32 = true ∧ tsOps.homesPending 0 = false ∧
    tsSeal.verifyWaits { ctx := 0, base := 0x10000, pages := 1, tree := 0, root := 0 } 0 = false ∧
    (s0Of ts).recPoison 0 0 0 (startReads false) = false ∧
    ((s0Of tj).hostHeld || (s0Of tj).task.isSome) = true ∧ (s0Of tj).jigWordsWait (.core 0) 0 0x10000 1 = false ∧
    (s0Of ts).entryWaits 0 = false ∧ ((s0Of ts).pendingPreds (xOf ts)).contains 0 = false ∧
    (s0Of ts).transWaits (.core 0) 0 0x10000 = false ∧ (s0Of tsJn).missWait 0x10000 4 = false := by decide +kernel
theorem test_met_WaitaReads : (match (s0Of ts).homeWord 0 0 0x10000 with
    | (s1, .ok h) => h.word == some 0 && isLocal h.key && s1.memReady 0 { id := s1.fresh, wave := 0, kind := .load, active := allLanes, once := true }
        { lane := 0, va := 0x10000, key := h.key }
    | _ => false) = true := by decide +kernel
theorem test_met_CopyBarriers : (tsCj 0 cj).jobsStop 0 = false ∧ (tsCj 0 cj).barrierOk ((tsCj 0 cj).benchAt 0 0 128) = true ∧
    (let s := (tsCj 0 cj).modCore 0 (fun k => { k with benchPoison := [(tsCj 0 cj).benchAt 0 0 128 / 4] });
     s.barrierOk (s.benchAt 0 0 128) = false) ∧
    countUnits false [{ u := 0, bytes := 256, landed := true }, { u := 1, bytes := 16 }] 0 =
      ([{ u := 1, bytes := 16 }], 256, [256]) := by decide +kernel
/-- A parked core with a message in its queue, beside a core in service; a host command; a hand-off to a full queue. -/
def tsShut : State := (tsArr.modCore 0 (fun k => { k with service := .parked })).modCore 7 (fun k => { k with service := .inService })
theorem test_met_ArrivalMoves : (tsShut.core 0).service.closed = true ∧ (tsShut.core 0).sp.arrivals = [hm] ∧
    tsShut.handoffCore 0 = some 7 ∧ (tsShut.core 7).sp.arrivals = [] ∧ (tsArr.core 0).service.closed = false := by decide +kernel
/-- No slot is free for the lanes of a `TRAV`. -/
def tsNoSlot : State := ts.modCore 0 (fun k => { k with sp := { k.sp with walks := run wk 512 0 } })
theorem test_met_TravWaits : readsB (.trav oTv) tsNoSlot oTv false [fieldA oTv, fieldB oTv, fieldC oTv] = true ∧
    (s0Of tsNoSlot).queryReady (xOf tsNoSlot) allLanes (fun _ => 0) = true ∧ okB ((s0Of tsNoSlot).queryBlock (xOf tsNoSlot) 0) = true ∧
    ((s0Of tsNoSlot).core 0).sp.want = [] ∧ ((s0Of tsNoSlot).core 0).sp.arrivals = [] := by decide +kernel
/-- The host link is down for more than 100 ms with an access toward host memory in flight; a page to seal; a held fault. -/
def tsLateHost : State := { tsOn with hostUp := false, time := 100000000 }
def opH : Op := { id := 7, wave := 0, kind := .load, active := 1, lanes := [{ lane := 0, va := 0, key := hostKey 0 }], size := 4 }
theorem test_met_HostLate : tsLateHost.hostLate = true ∧ isHost (hostKey 0) = true ∧ opH.left = opH.lanes := by decide +kernel
theorem test_met_SealOnePage : (let u : State := { tsOn with task := none }
    (u.leafDigests 0 0x10000 1).any (fun ds => (u.digestWrite 0 (treeVa 0x10000 0 0 0) (digestBytes (nth ds 0 0))).isSome)) = true ∧
    ({ tsSeal with sealed := [] } : State).sealable 0 0x10000 1 = true ∧ (FMap.get tsOn.sealed 0).isNone = true := by decide +kernel
def tsFid : State := { (tsOn.modWave 0 0 (fun x => { x with replayHeld := [(1, { cause := .pageNotPresent, cls := clsL, mask := 1 })] })) with
  heldFaults := [{ fid := 1, ctx := 0, client := 0, core := 0, who := 0, va := 0x10000, cause := .pageNotPresent }] }
theorem test_met_HeldFault : (tsFid.heldFaults.find? (fun g => g.fid == 1)).any (fun h => h.client != 1 && decide (h.who < 1000000)) = true ∧
    ((tsFid.wave 0 0).replayHeld.find? (fun e => e.1 == 1)).isSome = true ∧
    descOk (leBytes 8 0x10000 ++ leBytes 2 16 ++ zeros 2 ++ leBytes 4 4 ++ zeros 48) = true := by decide +kernel
/-- A stopped wave in a handler; a stopped launch with a checkpoint, whose record can be read. -/
def tsDbgH : State := tsDbg.modWave 0 0 (fun x => { x.enter { cause := .userTrap, cls := clsW, mask := 1, bundle := allLanes } 0x20000 with dbg := x.dbg })
def tsRep : State := { (tsDbg.modLaunch 0 (fun l => { l with stopped := true })) with
  checks := [(0, { launch := tsDbg.launch 0, teams := [(0, tsDbg.team 0)] })]
  tlb := [{ ctx := 0, page := checkpointVa.toNat / 65536, size := 16, leaf := 0x1021D }] }
theorem test_met_DebugStops : srH (tsDbgH.wave 0 0).sr = true ∧ allLanes &&& (tsDbgH.wave 0 0).handler ≠ 0 ∧
    (tsDbgH.wave 0 0).dbg.isSome = true ∧ srH (tsDbg.wave 0 0).sr = false ∧ (FMap.get tsDbg.armed 0).isSome = true ∧
    okB (tsDbg.waveRecord 0 0 0) = true ∧ tsRep.launchAt 0 0 = some 0 ∧ (tsRep.launch 0).stopped = true ∧
    (FMap.get tsRep.checks 0).any (fun k => k.teams.all (fun e => (FMap.get tsRep.teams e.1).isSome)) = true ∧
    okB (tsRep.vaRead .device 0 checkpointVa 64).2 = true := by decide +kernel
theorem test_met_CodeWord : (match tsStep.place (.group 0) 0 0x10000 .fetch with
    | (_, .ok p) => !p.sealed && (FMap.get (FMap.getD tsStep.icache (groupOf 0) []) (lineOf p.key)).isSome
    | _ => false) = true ∧ tsStep.transWaits (.group 0) 0 0x10000 = false ∧ tsQuiet.reportWaits (tsQuiet.team 0).ctx = false := by decide +kernel
/-- A deposit for a mailbox for which another is held; one that four held deposits keep out; a status that left for its core. -/
def tsHold (n : Nat) : State := { tsUp with
  deposits := (List.range n).map (fun i => ({ dp with id := i, first := i, held := true } : Deposit)) ++ [dp] }
theorem test_met_DepositBehindHeld : (tsDp dp).heldBefore dp = false ∧ (tsHold 4).heldBefore dp = true ∧ ((tsHold 4).heldAt 0).length = 4 ∧
    (tsHold 4).boxFull dp (.resident 0) = some false ∧
    (tsDp { dp with status := some 0 }).legClear (sendCore dp.target) dp.srcCore dp.seq = true := by decide +kernel
/-- The clock's second bundle of a handler whose first has left it. -/
def tsLeft : State := { ts with
  snap := some (tsH.wave 0 0, []), cur := ts.cur.map (fun u => { u with second := true }) }
theorem test_met_EretBeside : srH (xOf tsLeft).src.sr = true ∧ (s0Of tsLeft).leftHandler (xOf tsLeft) = true ∧
    issuesB tsLeft oz false = true ∧ (s0Of tsLeft).transitsOver (xOf tsLeft) (s0Of tsLeft) = false := by decide +kernel
/-- A node whose first line has come and whose second the node L0 holds, and one on a channel that retrains. -/
def tsNode : State := (tw wk).modCore 0 (fun k => { k with sp := { k.sp with nodes := [(0x10000, zeros 64), (0x10040, zeros 64)] } })
theorem test_met_NodeRead : (match tsNode.nodeRead 0 0 0x10000 (nodeSize 0 []) 10 (zeros 64) [] with | (_, .ok bs, [], []) => bs.length == 128 | _ => false) = true ∧
    (match ({ tw wk with task := some (.retrain 4 0) } : State).nodeRead 0 0 0x10000 (nodeSize 0 []) 10 [] [] with
      | (_, .wait, [], []) => true
      | _ => false) = true := by decide +kernel
/-- A node read in two parts: the older half of its line and the newer one (R176). -/
theorem test_node_parts : (tsNode.nodeRead 0 0 0x10000 64 10 (List.replicate 32 7) []).2.1 = .ok (List.replicate 32 7 ++ zeros 32) := by decide +kernel
/-- A readout of a tile without and with a poisoned element. -/
theorem test_met_MacrStart : (FMap.getD (tsMacr.core 0).tiles 0 {}).poison = [] ∧
    (FMap.getD ((tsMacr.modTile 0 0 (fun t => { t with poison := [3] })).core 0).tiles 0 {}).poison ≠ [] ∧
    ((ts.modCore 0 (fun k => { k with eng := [{ engA with kind := .macr }] })).core 0).engHead.map (·.kind) = some .macr := by decide +kernel
/-- A bank that is full, and one at which the copy unit has been refused 16 clocks. -/
def bankFull : BankQ := { clk := 5, rank := rankMesh, busy := 13 }
def bankDue : BankQ := { clk := 4, rank := rankMesh, busy := 0, refused := [(rankCopy, 4, 16)] }
def tsBank (b : BankQ) : State := { tsOps.modCore 0 (fun k => { k with banks := [(0, b)] }) with clocks := 5 }
theorem test_met_Banks : bankFull.admits 5 rankMesh = false ∧ bankDue.due 5 = some rankCopy ∧ bankDue.admits 5 rankCopy = true ∧
    bankDue.admits 5 rankMesh = false ∧ (tsBank bankFull).clkOf 0 = 5 ∧
    ((tsBank bankFull).enterAll [{ core := 0, bank := 0, rank := rankJig }]).isNone = true ∧
    ((tsBank bankDue).enterAll [{ core := 0, bank := 0, rank := rankCopy }]).isSome = true := by decide +kernel
/-- A load whose bank takes it, and one that its bank refuses; a bundle that issues. -/
theorem test_met_Present : ((tsBank {}).present (.event (.loadCompletion 0 7 1))).2.isSome = true ∧
    ((tsBank bankFull).present (.event (.loadCompletion 0 7 1))).2 = none ∧ (Act.event .reset).lanesOf = none ∧
    (match ((tsStep.nextTurn.2.unstick exec).advance 0 0 0).prepare 0 0 allLanes false with | .run u i => i == .nop oz && u.issueReqs i == [] | _ => false) = true := by
  decide +kernel
/-- Lane 1's place is free and lane 0's is not: lane 1 alone is performed (R226). -/
def opTwo : Op := { opA with active := 3, lanes := [{ lane := 0, va := 0, key := benchKey 0 0 }, { lane := 1, va := 4, key := benchKey 0 4 }] }
theorem test_lanes_enter : (({ ts.modCore 0 (fun k => { k with ops := [opTwo], banks := [(0, bankFull)] }) with clocks := 5 } : State).present
    (.event (.loadCompletion 0 7 3))).2 = some (.event (.loadCompletion 0 7 2)) := by decide +kernel
end Sys2Proof.Machine.Tests
end

section
/-! PROOF. Decoding and encoding SIMT instructions agree (R2, R47, R53-R61): the fields of the encoded words read back, the opcode map
is undone by its inverse, and the bytes of the words give the words again. -/
namespace Sys2Proof

/-! ### Modifier fields of a base word (R57) -/

/-- A field reads back as the code placed there. -/
@[simp] theorem extract_field_same {n : Nat} (c : BitVec n) (p : Nat) (h : p + n ≤ 6) :
    (c.zeroExtend 6 <<< p).extractLsb' p n = c := by
  ext i hi
  have : ¬ p + i < p := by omega
  have : p + i < 6 := by omega
  simp_all
/-- A field is clear where another code was placed. -/
@[simp] theorem extract_field_other {k : Nat} (c : BitVec k) (p s n : Nat) (h : s + n ≤ p ∨ p + k ≤ s) :
    (c.zeroExtend 6 <<< p).extractLsb' s n = 0#n := by
  ext i hi
  simp only [BitVec.getElem_extractLsb', BitVec.getLsbD_shiftLeft, BitVec.getLsbD_setWidth, BitVec.getElem_zero]
  by_cases l : s + i < p
  · simp [l]
  · simp [BitVec.getLsbD_of_ge c (s + i - p) (by omega)]

theorem getElem_bit (b : Bool) (p q : Nat) (h : q < 6) : (bit b p)[q] = (b && decide (p = q)) := by
  cases b
  · simp [bit]
  · rw [← BitVec.getLsbD_eq_getElem h]
    simp [bit, -BitVec.ofNat_pow, -BitVec.getLsbD_eq_getElem, BitVec.getLsbD_ofNat, Nat.testBit_two_pow, h]

@[simp] theorem extract_bit_other (b : Bool) (p s n : Nat) (h : s + n ≤ p ∨ p < s) : (bit b p).extractLsb' s n = 0#n := by
  ext i hi
  by_cases l : s + i < 6
  · have : ¬ p = s + i := by omega
    simp [BitVec.getLsbD_eq_getElem l, getElem_bit, this]
  · simp [BitVec.getLsbD_of_ge (bit b p) (s + i) (by omega)]

/-! ### Modifier codes (R57) -/

@[simp] theorem ITy.ofCode_code (t : ITy) : ITy.ofCode t.code = some t := by cases t <;> rfl
@[simp] theorem Rm.ofCode_code (t : Rm) : Rm.ofCode t.code = some t := by cases t <;> rfl
@[simp] theorem Cmp.ofCode_code (t : Cmp) : Cmp.ofCode t.code = some t := by cases t <;> rfl
@[simp] theorem MSize.ofCode_code (t : MSize) : MSize.ofCode t.code = some t := by cases t <;> rfl
@[simp] theorem ScanOp.ofCode_code (t : ScanOp) : ScanOp.ofCode t.code = some t := by cases t <;> rfl
@[simp] theorem Swz.ofCode_code (t : Swz) : Swz.ofCode t.code = some t := by cases t <;> rfl
@[simp] theorem MOrd.ofCode_code (t : MOrd) : MOrd.ofCode t.code = some t := by cases t <;> rfl
@[simp] theorem AOrd.ofCode_code (t : AOrd) : AOrd.ofCode t.code = some t := by cases t <;> rfl
@[simp] theorem Scope.ofCode_code (t : Scope) : Scope.ofCode t.code = some t := by cases t <;> rfl
@[simp] theorem BrVote.ofCode_code (t : BrVote) : BrVote.ofCode t.code = some t := by cases t <;> rfl
@[simp] theorem Shfl.ofCode_code (t : Shfl) : Shfl.ofCode t.code = some t := by cases t <;> rfl
@[simp] theorem Vote.ofCode_code (t : Vote) : Vote.ofCode t.code = some t := by cases t <;> rfl
@[simp] theorem ScanTy.ofCode_code (t : ScanTy) : ScanTy.ofCode t.code = some t := by cases t <;> rfl
@[simp] theorem LacFmt.ofCode_code (t : LacFmt) : LacFmt.ofCode t.code = some t := by cases t <;> rfl
@[simp] theorem LacrFmt.ofCode_code (t : LacrFmt) : LacrFmt.ofCode t.code = some t := by cases t <;> rfl
@[simp] theorem TileFmt.ofCode_code (t : TileFmt) : TileFmt.ofCode t.code = some t := by cases t <;> rfl
@[simp] theorem Bound.ofCode_code (t : Bound) : Bound.ofCode t.code = some t := by cases t <;> rfl
@[simp] theorem TSet.ofCode_code (t : TSet) : TSet.ofCode t.code = some t := by cases t <;> rfl
@[simp] theorem Outer.ofCode_code (t : Outer) : Outer.ofCode t.code = some t := by cases t <;> rfl

@[simp] theorem clsOf_code (c : Cls) : clsOf c.code = c := by cases c <;> rfl
@[simp] theorem dclsOf_code (c : DCls) : dclsOf c.code = c := by cases c <;> rfl

/-! ### The opcode map and its inverse (R55, R56) -/

/-- The major and minor opcode of an instruction, with its modifiers, name the instruction. -/
theorem simtOf_simtParts {i : Instr} {j k : Nat} {m : BitVec 6} {o : Opnds} (h : simtParts i = some (j, k, m, o)) :
    simtOf m o j k = some i := by
  cases i
  all_goals simp only [simtParts, Option.some.injEq, Prod.mk.injEq, reduceCtorEq] at h
  all_goals obtain ⟨rfl, rfl, rfl, rfl⟩ := h
  all_goals simp [-BitVec.truncate_eq_setWidth, -BitVec.shiftLeft_zero, simtOf, BitVec.extractLsb'_or, getElem_bit]

/-- An instruction has a major that is not reserved and is not `FMT`'s, a minor of 5 bits, and is not the zero word. -/
theorem simtParts_opcode {i : Instr} {j k : Nat} {m : BitVec 6} {o : Opnds} (h : simtParts i = some (j, k, m, o)) :
    j < 63 ∧ majReserved j = false ∧ k < 32 ∧ (j = 0 → k ≠ 0) := by
  cases i
  all_goals simp only [simtParts, Option.some.injEq, Prod.mk.injEq, reduceCtorEq] at h
  all_goals obtain ⟨rfl, rfl, rfl, rfl⟩ := h
  all_goals decide

/-! ### The fields of the words (R47, R53, R61) -/

theorem getLsbD_append_high {v w : Nat} (x : BitVec v) (y : BitVec w) (n : Nat) (h : w ≤ n) :
    (x ++ y).getLsbD n = x.getLsbD (n - w) := by
  simp [BitVec.getLsbD_append, Nat.not_lt.2 h]

theorem getLsbD_append_low {v w : Nat} (x : BitVec v) (y : BitVec w) (n : Nat) (h : n < w) :
    (x ++ y).getLsbD n = y.getLsbD n := by
  simp [BitVec.getLsbD_append, h]

theorem getLsbD_b1 (b : Bool) : (b1 b).getLsbD 0 = b := by cases b <;> rfl

/-- The extension word reads back as its fields. -/
theorem extOf_encodeExt (e : Ext) : extOf (encodeExt e) = e := by
  simp (disch := decide) only [extOf, encodeExt, BitVec.extractLsb'_append_eq_of_le,
    BitVec.extractLsb'_append_eq_of_add_le, getLsbD_append_high, getLsbD_append_low, Nat.reduceSub, getLsbD_b1,
    clsOf_code, dclsOf_code, BitVec.extractLsb'_eq_self]

section
variable (j k : Nat) (m : BitVec 6) (o : Opnds)

theorem majOf_encodeBase (h : j < 64) : majOf (encodeBase j k m o) = j := by
  simp (disch := decide) only [majOf, encodeBase, BitVec.extractLsb'_append_eq_of_le]
  simp [Nat.mod_eq_of_lt h]

theorem minorOf_encodeBase (h : k < 32) : minorOf (encodeBase j k m o) = k := by
  simp (disch := decide) only [minorOf, encodeBase, BitVec.extractLsb'_append_eq_of_le,
    BitVec.extractLsb'_append_eq_of_add_le]
  simp [Nat.mod_eq_of_lt h]

theorem modifiers_encodeBase : (encodeBase j k m o).extractLsb' 0 6 = m := by
  simp (disch := decide) only [encodeBase, BitVec.extractLsb'_append_eq_of_add_le, BitVec.extractLsb'_eq_self]

/-- The bit `L` says whether an extension word follows. -/
theorem extBit_encodeBase : (encodeBase j k m o).getLsbD 15 = o.ext.isSome := by
  simp (disch := decide) only [encodeBase, getLsbD_append_high, getLsbD_append_low, Nat.reduceSub, getLsbD_b1]

theorem opndsOf_encodeBase : opndsOf (encodeBase j k m o) ((o.ext.map encodeExt).getD 0#64) = o := by
  obtain ⟨prd, pn, d, a, b, ea, eb, ca, cb, ext⟩ := o
  have he : (if ext.isSome = true then some (extOf ((ext.map encodeExt).getD 0#64)) else none) = ext := by
    cases ext <;> simp [extOf_encodeExt]
  simp (disch := decide) only [opndsOf, encodeBase, BitVec.extractLsb'_append_eq_of_le,
    BitVec.extractLsb'_append_eq_of_add_le, getLsbD_append_high, getLsbD_append_low, Nat.reduceSub, getLsbD_b1,
    clsOf_code, BitVec.extractLsb'_eq_self, he]

end

/-- The word of `FMT` (R61). -/
def encodeFmt (fa fb fc fd : BitVec 4) (gs : BitVec 2) (scl : BitVec 11) (sclc : Bool) (zp : BitVec 11) (zpc : Bool) : DWord :=
  (63 : BitVec 6) ++ (63 : BitVec 6) ++ fa ++ fb ++ fc ++ fd ++ gs ++ scl ++ b1 sclc ++ zp ++ b1 zpc ++ (0 : BitVec 10)

section
variable (fa fb fc fd : BitVec 4) (gs : BitVec 2) (scl : BitVec 11) (sclc : Bool) (zp : BitVec 11) (zpc : Bool)

theorem majOf_encodeFmt : majOf (encodeFmt fa fb fc fd gs scl sclc zp zpc) = 63 := by
  simp (disch := decide) only [majOf, encodeFmt, BitVec.extractLsb'_append_eq_of_le]
  rfl

theorem fmtReservedOk_encodeFmt : fmtReservedOk (encodeFmt fa fb fc fd gs scl sclc zp zpc) = true := by
  simp (disch := decide) only [fmtReservedOk, encodeFmt, BitVec.extractLsb'_append_eq_of_le,
    BitVec.extractLsb'_append_eq_of_add_le]
  rfl

theorem fmtOf_encodeFmt : fmtOf (encodeFmt fa fb fc fd gs scl sclc zp zpc) = .fmt fa fb fc fd gs scl sclc zp zpc := by
  simp (disch := decide) only [fmtOf, encodeFmt, BitVec.extractLsb'_append_eq_of_le,
    BitVec.extractLsb'_append_eq_of_add_le, getLsbD_append_high, getLsbD_append_low, Nat.reduceSub, getLsbD_b1,
    BitVec.extractLsb'_eq_self]

end

theorem majOf_zero : majOf 0#64 = 0 := rfl

/-! ### Decoding a well-formed instruction's words (R60) -/

/-- A well-formed instruction with an encoding is `FMT`, or has a major and a minor and passes the checks of R60. -/
theorem encodable_cases {i : Instr} {w : DWord} {e : Option DWord} (hw : wellFormed i = true) (he : encodeSimt i = some (w, e)) :
    fateOf i = none ∧
    ((∃ fa fb fc fd gs scl sclc zp zpc, i = .fmt fa fb fc fd gs scl sclc zp zpc ∧
      w = encodeFmt fa fb fc fd gs scl sclc zp zpc ∧ e = none) ∨
    ∃ j k m o, simtParts i = some (j, k, m, o) ∧ reservedOk j k m o = true ∧ w = encodeBase j k m o ∧ e = o.ext.map encodeExt) := by
  have ho : simtOk i = true := by
    unfold wellFormed at hw
    split at hw <;> simp_all
  simp only [simtOk, Bool.and_eq_true, Option.isNone_iff_eq_none] at ho
  refine ⟨ho.2, ?_⟩
  unfold encodeSimt at he
  split at he
  case h_1 => cases he; exact .inl ⟨_, _, _, _, _, _, _, _, _, rfl, rfl, rfl⟩
  case h_2 => simp [wellFormed] at hw
  case h_3 =>
    cases hp : simtParts i with
    | none => simp [hp] at he
    | some p =>
      obtain ⟨j, k, m, o⟩ := p
      simp only [hp, Option.some.injEq, Prod.mk.injEq] at he ho
      exact .inr ⟨j, k, m, o, rfl, ho.1, he.1.symm, he.2.symm⟩

/-- What decoding the words of `FMT` gives. -/
theorem decodeSimt_encodeFmt (fa fb fc fd : BitVec 4) (gs : BitVec 2) (scl : BitVec 11) (sclc : Bool) (zp : BitVec 11) (zpc : Bool)
    (x : DWord) (hf : fateOf (.fmt fa fb fc fd gs scl sclc zp zpc) = none) :
    decodeSimt (encodeFmt fa fb fc fd gs scl sclc zp zpc) x = .fmt fa fb fc fd gs scl sclc zp zpc ∧
    hasExt (encodeFmt fa fb fc fd gs scl sclc zp zpc) = false := by
  have hm := majOf_encodeFmt fa fb fc fd gs scl sclc zp zpc
  have h0 : encodeFmt fa fb fc fd gs scl sclc zp zpc ≠ 0#64 := by
    intro h
    rw [h, majOf_zero] at hm
    cases hm
  have hr : majReserved 63 = false := rfl
  simp [decodeSimt, hasExt, h0, hm, hr, fmtReservedOk_encodeFmt, fmtOf_encodeFmt, hf]

/-- What decoding a base word and its extension word gives. -/
theorem decodeSimt_encodeBase {i : Instr} {j k : Nat} {m : BitVec 6} {o : Opnds} (hp : simtParts i = some (j, k, m, o))
    (hr : reservedOk j k m o = true) (hf : fateOf i = none) :
    decodeSimt (encodeBase j k m o) ((o.ext.map encodeExt).getD 0#64) = i ∧ hasExt (encodeBase j k m o) = o.ext.isSome := by
  obtain ⟨hj, hj', hk, h0⟩ := simtParts_opcode hp
  have hm := majOf_encodeBase j k m o (by omega)
  have hn := minorOf_encodeBase j k m o hk
  have hne : encodeBase j k m o ≠ 0#64 := by
    intro h
    rw [h] at hm hn
    exact h0 hm.symm hn.symm
  have h63 : ¬ j = 63 := by omega
  constructor
  · simp [decodeSimt, hne, hm, hn, hj', h63, opndsOf_encodeBase, modifiers_encodeBase, hr, simtOf_simtParts hp, hf]
  · simp [-BitVec.getLsbD_eq_getElem, hasExt, hne, hm, hj', h63, extBit_encodeBase]

/-- The words of a well-formed SIMT instruction decode to it, and its base word says whether an extension word follows. -/
theorem decodeSimt_encodeSimt {i : Instr} {w : DWord} {e : Option DWord} (hw : wellFormed i = true)
    (he : encodeSimt i = some (w, e)) : decodeSimt w (e.getD 0) = i ∧ hasExt w = e.isSome := by
  obtain ⟨hf, ⟨fa, fb, fc, fd, gs, scl, sclc, zp, zpc, rfl, rfl, rfl⟩ | ⟨j, k, m, o, hp, hr, rfl, rfl⟩⟩ :=
    encodable_cases hw he
  · exact decodeSimt_encodeFmt _ _ _ _ _ _ _ _ _ _ hf
  · simpa using decodeSimt_encodeBase hp hr hf

/-! ### Bytes (R2) -/

@[simp] theorem length_leBytes (n v : Nat) : (leBytes n v).length = n := by
  induction n generalizing v with
  | zero => rfl
  | succ n ih => simp [leBytes, ih]

/-- The low bytes of a number, put together again. -/
theorem leWord_leBytes (n v : Nat) : leWord (leBytes n v) = v % 256 ^ n := by
  induction n generalizing v with
  | zero => simp [leBytes, leWord, Nat.mod_one]
  | succ n ih =>
    simp only [leBytes, leWord, BitVec.toNat_ofNat, ih, Nat.pow_succ']
    exact (Nat.mod_mul ..).symm

theorem ofNat_leWord_leBytes (w : DWord) : BitVec.ofNat 64 (leWord (leBytes 8 w.toNat)) = w := by
  rw [leWord_leBytes, Nat.mod_eq_of_lt (show w.toNat < 256 ^ 8 from w.isLt), BitVec.ofNat_toNat, BitVec.setWidth_eq]

/-- Eight bytes of a base word alone are read as its instruction. -/
theorem decodeBytes_one (w : DWord) (h : hasExt w = false) : decodeBytes (leBytes 8 w.toNat) = some (decodeSimt w 0, 8) := by
  have ht : (leBytes 8 w.toNat).take 8 = leBytes 8 w.toNat := List.take_of_length_le (by simp)
  simp [decodeBytes, ht, ofNat_leWord_leBytes, h]

/-- Sixteen bytes of a base word and its extension word are read as their instruction. -/
theorem decodeBytes_two (w x : DWord) (h : hasExt w = true) :
    decodeBytes (leBytes 8 w.toNat ++ leBytes 8 x.toNat) = some (decodeSimt w x, 16) := by
  have ht : (leBytes 8 w.toNat ++ leBytes 8 x.toNat).take 8 = leBytes 8 w.toNat := List.take_left' (by simp)
  have hd : ((leBytes 8 w.toNat ++ leBytes 8 x.toNat).drop 8).take 8 = leBytes 8 x.toNat := by
    rw [List.drop_left' (by simp), List.take_of_length_le (by simp)]
  simp only [decodeBytes, ht, hd, ofNat_leWord_leBytes, h]
  simp

/-- Settles O55: the fields of the words read back, so decoding takes the way of R60 with the instruction's own checks. -/
theorem simtEncodingAgrees : Obligations.SimtEncodingAgrees := by
  intro i w e hw he
  obtain ⟨hd, hx⟩ := decodeSimt_encodeSimt hw he
  refine ⟨hd, hx, ?_⟩
  cases e with
  | none => simpa [hd] using (decodeBytes_one w hx).trans (congrArg (fun i => some (i, 8)) hd)
  | some x => simpa [hd] using (decodeBytes_two w x hx).trans (congrArg (fun i => some (i, 16)) hd)

end Sys2Proof
end

section
/-! PROOF. What retiring an instruction changes and what it leaves (R7, R48, R62, R85, R465). -/
namespace Sys2Proof.Machine

/-! ### Flag sets (R84, R85) -/

/-- Whether one of a list of lanes brings a flag. -/
theorem getLsbD_foldl_or (ls : List Nat) (fl : Nat → Flags) (a : Flags) (k : Nat) :
    (ls.foldl (fun a l => a ||| fl l) a).getLsbD k = (a.getLsbD k || ls.any (fun l => (fl l).getLsbD k)) := by
  induction ls generalizing a with
  | nil => simp
  | cons l ls ih => rw [List.foldl_cons, ih, List.any_cons, BitVec.getLsbD_or, Bool.or_assoc]

theorem mem_lanesOf (m : Mask) (l : Nat) : l ∈ lanesOf m ↔ l < 32 ∧ m.getLsbD l = true := by
  simp [lanesOf, lanes32]

theorem getLsbD_flagsOf (act : Mask) (fl : Nat → Flags) (k : Nat) :
    (flagsOf act fl).getLsbD k = true ↔ ∃ l, l < 32 ∧ act.getLsbD l = true ∧ (fl l).getLsbD k = true := by
  rw [flagsOf, getLsbD_foldl_or]
  simp [-BitVec.getLsbD_eq_getElem, mem_lanesOf, and_assoc]

/-- The sticky bits are bits 8 to 2 of the status register. -/
theorem getLsbD_srOr (v : Word) (f : Flags) (k : Nat) :
    (srOr v f).getLsbD k = (v.getLsbD k || (decide (2 ≤ k) && decide (k < 9) && f.getLsbD (k - 2))) := by
  rw [srOr, BitVec.getLsbD_or, BitVec.getLsbD_shiftLeft, BitVec.getLsbD_setWidth]
  by_cases h : 9 ≤ k
  · have : f.getLsbD (k - 2) = false := BitVec.getLsbD_of_ge f (k - 2) (by omega)
    simp [this]
  · have h2 : k < 9 := by omega
    have h3 : k < 32 := by omega
    have h4 : k - 2 < 32 := by omega
    have h5 : (!decide (k ≤ 1)) = decide (2 ≤ k) := by grind
    simp [-BitVec.getLsbD_eq_getElem, h2, h3, h4, h5]

theorem enabledTrap_none (x : Iss) (sr : Word) (act : Mask) (fl : Nat → Flags) (once : Bool)
    (h : flagsOf act fl &&& srEnable sr = 0) : enabledTrap x sr act fl once = none := by
  rw [enabledTrap, h]
  rfl

theorem and_not_zero (v : Word) : v &&& ~~~(0 : Word) = v := by
  rw [show ~~~(0 : Word) = BitVec.allOnes 32 from rfl, BitVec.and_allOnes]

/-! ### One change after another -/

theorem setWave_setWave (s : State) (c w : Nat) (x y : Wave) : (s.setWave c w x).setWave c w y = s.setWave c w y := by
  simp only [State.setWave, State.modCore, State.setCore, State.core, FMap.getD_set, if_true, FMap.set_set]

theorem modNow_of_wave (s : State) (x : Iss) (y : Wave) (f : Wave → Wave) (h : s.wave? x.c x.w = some y) :
    s.modNow x f = s.setWave x.c x.w (f y) := by
  simp [State.modNow, State.modWave, h]

theorem modNow_setWave (s : State) (x : Iss) (y : Wave) (f : Wave → Wave) :
    (s.setWave x.c x.w y).modNow x f = s.setWave x.c x.w (f y) := by
  rw [modNow_of_wave _ x y f (by simp [wave?_setWave]), setWave_setWave]

theorem progress_of_team (s : State) (t : Nat) (b : Bool) (T : Team) (h : FMap.get s.teams t = some T) :
    s.progress t b = { s with teams := FMap.set s.teams t { T with
      progress := T.progress + 1, quietSince := s.clocks, reported := if b then T.reported else [] } } := by
  simp [State.progress, State.modTeam, h]

theorem wave?_progress (s : State) (t : Nat) (b : Bool) (c w : Nat) : (s.progress t b).wave? c w = s.wave? c w := by
  unfold State.progress State.modTeam
  split <;> rfl

/-! ### Retiring (R48, R62, R85) -/

/-- The wave after its instruction has retired with neither a trap nor a step: its threads' addresses and its status register. -/
def Wave.retired (y : Wave) (x : Iss) (act : Mask) (pfx : Bool) (fx : Fx) : Wave :=
  let z := (y.goTo (x.lanes &&& ~~~act) (fun _ => x.next)).goTo act (fx.goes.getD (fun _ => x.next))
  { z with sr := srOr y.sr (flagsOf act fx.fl) &&& ~~~(if pfx && srPP x.src.sr then 0x20000000 else 0) }

/-- No step ends at a wave that steps neither for a debugger nor by `SR.S`. -/
theorem stepEnd_none (s : State) (x : Iss) (y : Wave) (h : s.wave? x.c x.w = some y) (hd : y.stepDbg = 0)
    (hs : srH x.src.sr = true ∨ srS y.sr = false ∨ y.stepS &&& x.lanes = 0) : s.stepEnd x = s := by
  have hy : s.now x = y := by simp [State.now, wave_eq, h]
  simp only [State.stepEnd, hy, hd]
  rcases hs with hs | hs | hs <;> simp [hs]


section
variable (y : Wave) (x : Iss) (act : Mask) (pfx : Bool) (fx : Fx)

/-- Retiring leaves the bits of the status register above the sticky ones, but for the prefix bit. -/
theorem retired_srBit (k : Nat) (h : 29 < k ∧ k < 32) : (y.retired x act pfx fx).sr.getLsbD k = y.sr.getLsbD k := by
  obtain ⟨h29, h32⟩ := h
  have hk : k = 30 ∨ k = 31 := by omega
  simp only [Wave.retired, BitVec.getLsbD_and, getLsbD_srOr]
  rcases hk with rfl | rfl <;> cases pfx && srPP x.src.sr <;> simp [-BitVec.getLsbD_eq_getElem]

theorem retired_pcs (l : Nat) (h : l < 32) :
    nth (y.retired x act pfx fx).pcs l 0 = if act.getLsbD l then (match fx.goes with | some f => f l | none => x.next)
      else if x.lanes.getLsbD l then x.next else nth y.pcs l 0 := by
  have hp : (y.retired x act pfx fx).pcs =
    ((y.goTo (x.lanes &&& ~~~act) (fun _ => x.next)).goTo act (fx.goes.getD (fun _ => x.next))).pcs := rfl
  rw [hp, goTo_pcs _ _ _ _ h, goTo_pcs _ _ _ _ h]
  cases ha : act.getLsbD l with
  | true => cases fx.goes <;> rfl
  | false => cases hx : x.lanes.getLsbD l <;> simp [-BitVec.getLsbD_eq_getElem, ha, hx, h]

/-- Threads that run in no handler beside them keep their resume addresses. -/
theorem goTo_resume (m : Mask) (f : Nat → DWord) (l : Nat) (h : l < 32) (hd : y.dbg = none)
    (hh : srH y.sr = false ∨ y.handler.getLsbD l = true) : nth (y.goTo m f).resume l 0 = nth y.resume l 0 := by
  rcases hh with hh | hh <;> simp [-BitVec.getLsbD_eq_getElem, Wave.goTo, nth, h, hd, hh]

theorem retired_resume (l : Nat) (h : l < 32) (hd : y.dbg = none) (hh : srH y.sr = false ∨ y.handler.getLsbD l = true) :
    nth (y.retired x act pfx fx).resume l 0 = nth y.resume l 0 :=
  (goTo_resume (y.goTo (x.lanes &&& ~~~act) (fun _ => x.next)) _ _ l h hd hh).trans (goTo_resume y _ _ l h hd hh)

end

/-- What retiring changes when it brings no trap, ends no step, reads no mailbox and stands beside no `ERET`. -/
theorem retire_eq (s : State) (x : Iss) (act : Mask) (o : Opnds) (pfx : Bool) (fx : Fx) (y : Wave)
    (hy : s.wave? x.c x.w = some y) (ha : fx.after = none) (hw : fx.whole = false)
    (hb : boxesOf o = []) (ht : takesOf o = []) (hl : s.leftHandler x = false)
    (hf : flagsOf act fx.fl &&& srEnable x.src.sr = 0) (hd : y.stepDbg = 0)
    (hs : srH x.src.sr = true ∨ srS y.sr = false ∨ y.stepS &&& x.lanes = 0) :
    s.retire x act o pfx fx =
      (s.setWave x.c x.w (y.retired x act pfx fx)).progress x.src.team (srH x.src.sr) := by
  have hz : act &&& ~~~(0 : Mask) = act := and_not_zero act
  have hsr : ∀ v : Word, (if pfx && srPP x.src.sr then setBit32 v 29 false else v) =
      v &&& ~~~(if pfx && srPP x.src.sr then 0x20000000 else 0) := by
    intro v
    split
    · rfl
    · exact (and_not_zero v).symm
  have hend : ∀ u : State, u.wave? x.c x.w = some (y.retired x act pfx fx) → u.stepEnd x = u := fun u hu =>
    stepEnd_none u x _ hu hd (hs.imp_right (.imp_left (fun e => (retired_srBit y x act pfx fx 31 (by decide)).trans e)))
  simp only [State.retire, hw, ha, hl, hb, ht, List.foldl_nil, modNow_of_wave s x y _ hy, modNow_setWave, hz, hsr,
    enabledTrap_none _ _ _ _ _ hf, Bool.false_eq_true, if_false]
  refine hend _ ?_
  rw [wave?_progress]
  exact (wave?_setWave s x.c x.w x.c x.w _).trans (if_pos ⟨rfl, rfl⟩)

/-- Settles O60: of the wave the addresses and the status register change, of the team its progress. -/
theorem retireFrame : Obligations.RetireFrame := by
  refine ⟨?_, getLsbD_srOr, getLsbD_flagsOf⟩
  intro s x act o pfx fx y T hy hT ha hw hb ht hl hf hd hs
  refine ⟨(y.retired x act pfx fx).pcs, (y.retired x act pfx fx).resume, ?_, fun l h =>
    ⟨retired_pcs y x act pfx fx l h, retired_resume y x act pfx fx l h⟩⟩
  rw [retire_eq s x act o pfx fx y hy ha hw hb ht hl hf hd hs, progress_of_team (s.setWave x.c x.w _) _ _ T hT]
  rfl

end Sys2Proof.Machine
end

section

/-! PROOF. Every step keeps the canonical form of memory (R2, R10; log entries 4 and 60). -/

/- The proofs below wait for the lemmas that they cite: elaborated one after another they need little memory, where in parallel every
waiting one holds a thread with a stack of its own. -/
set_option Elab.async false

namespace Sys2Proof.Machine

/-! ### Canonical memory in what an operation can come to -/

/-- The state that a bundle which does not complete leaves has canonical memory. -/
def Stop.memOk : Stop → Prop
  | .miss s => s.memOk
  | .wait s _ => s.memOk
  | _ => True

/-- An instruction's body leaves canonical memory, whether it completes or stops. -/
def BodyOk (body : State → Iss → Mask → Except Stop Fx) : Prop :=
  ∀ (s : State) (x : Iss) (act : Mask), s.memOk →
    (∀ fx, body s x act = .ok fx → fx.s.memOk) ∧ ∀ e, body s x act = .error e → e.memOk

/-- The traps before the guard carry no state. -/
def PreOk (pre : Iss → Option Stop) : Prop := ∀ (x : Iss) (e : Stop), pre x = some e → e.memOk

/-- The meaning of an instruction leaves canonical memory. -/
def RunOk (run : Instr → State → Host.Outcome State Fault Refusal) : Prop :=
  ∀ (i : Instr) (s t : State), s.memOk → run i s = .next t → t.memOk

theorem foldl_memOk {α : Type} {f : State → α → State} {l : List α} {s : State} (h : s.memOk)
    (hf : ∀ s a, s.memOk → (f s a).memOk) : (l.foldl f s).memOk := by
  induction l generalizing s with
  | nil => exact h
  | cons a l ih => exact ih (hf s a h)

theorem foldl_fst_memOk {α β : Type} {f : State × β → α → State × β} {l : List α} {p : State × β} (h : p.1.memOk)
    (hf : ∀ p a, p.1.memOk → (f p a).1.memOk) : (l.foldl f p).1.memOk := by
  induction l generalizing p with
  | nil => exact h
  | cons a l ih => exact ih (hf p a h)

theorem foldl_some_memOk {α : Type} {f : Option State → α → Option State} {l : List α} {p : Option State} {t : State}
    (h : ∀ s, p = some s → s.memOk) (hf : ∀ p a t, (∀ s, p = some s → s.memOk) → f p a = some t → t.memOk)
    (e : l.foldl f p = some t) : t.memOk := by
  induction l generalizing p with
  | nil => exact h t e
  | cons a l ih => exact ih (fun s hs => hf p a s h hs) e

theorem getD_memOk {s : State} {o : Option State} (h : s.memOk) (ho : ∀ t, o = some t → t.memOk) : (o.getD s).memOk := by
  cases o with
  | none => exact h
  | some t => exact ho t rfl

theorem map_memOk {α : Type} {f : α → State} {o : Option α} {t : State} (hf : ∀ a, o = some a → (f a).memOk)
    (e : o.map f = some t) : t.memOk := by
  obtain ⟨a, ha, rfl⟩ := Option.map_eq_some_iff.1 e
  exact hf a ha

theorem findSome_memOk {α : Type} {f : α → Option State} {l : List α} {t : State} (hf : ∀ a t, f a = some t → t.memOk)
    (e : l.findSome? f = some t) : t.memOk := by
  obtain ⟨a, -, ha⟩ := List.exists_of_findSome?_eq_some e
  exact hf a t ha

/-- What a body comes to leaves canonical memory. -/
def ResOk (r : Except Stop Fx) : Prop := (∀ fx, r = .ok fx → fx.s.memOk) ∧ ∀ e, r = .error e → e.memOk

theorem ResOk.ok {fx : Fx} (h : fx.s.memOk) : ResOk (.ok fx) := by
  constructor
  · intro _ e
    rw [← Except.ok.inj e]
    exact h
  · intro _ e
    cases e

theorem ResOk.error {e : Stop} (h : e.memOk) : ResOk (.error e) := by
  constructor
  · intro _ h'
    cases h'
  · intro _ h'
    rw [← Except.error.inj h']
    exact h

/-! ### Cores, waves, lines and the caches of instructions -/

theorem fst_memOk {α : Type} {p : State × α} {s : State} {a : α} (h : p.1.memOk) (e : p = (s, a)) : s.memOk := by
  rw [e] at h
  exact h

theorem nextTurn_memOk {s : State} (h : s.memOk) : s.nextTurn.2.memOk := by
  unfold State.nextTurn
  grind [State.memOk]

theorem newId_memOk {s : State} (h : s.memOk) : s.newId.2.memOk := by
  unfold State.newId
  grind [State.memOk]

theorem leaveAgain_memOk {s : State} {was : State} (h : s.memOk) (h1 : was.memOk) : (s.leaveAgain was).memOk := by
  unfold State.leaveAgain
  grind [newId_memOk, foldl_memOk, State.memOk]

theorem advance_memOk {s : State} {ns clocks lost} (h : s.memOk) : (s.advance ns clocks lost).memOk := by
  unfold State.advance
  grind [leaveAgain_memOk, State.memOk]

theorem setCore_memOk {s : State} {c x} (h : s.memOk) : (s.setCore c x).memOk := by
  unfold State.setCore
  grind [State.memOk]

theorem modCore_memOk {s : State} {c f} (h : s.memOk) : (s.modCore c f).memOk := by
  unfold State.modCore
  grind [setCore_memOk]

theorem setWave_memOk {s : State} {c w x} (h : s.memOk) : (s.setWave c w x).memOk := by
  unfold State.setWave
  grind [modCore_memOk]

theorem modWave_memOk {s : State} {c w f} (h : s.memOk) : (s.modWave c w f).memOk := by
  unfold State.modWave
  grind [setWave_memOk]

theorem translate_memOk {s : State} {via ctx va} (h : s.memOk) : ((s.translate via ctx va).1).memOk := by
  unfold State.translate
  split <;> grind [modCore_memOk, State.memOk]

theorem place_memOk {s : State} {via ctx va u} (h : s.memOk) : ((s.place via ctx va u).1).memOk := by
  unfold State.place
  grind [translate_memOk, State.memOk]

theorem addMark_memOk {s : State} {m} (h : s.memOk) : (s.addMark m).memOk := by
  unfold State.addMark
  grind [State.memOk]

theorem touchMark_memOk {s : State} {sealed ctx va k} (h : s.memOk) : (s.touchMark sealed ctx va k).memOk := by
  unfold State.touchMark
  grind [addMark_memOk]

theorem verifyFrame_memOk {s : State} {n r i f} (h : s.memOk) : (s.verifyFrame n r i f).memOk := by
  unfold State.verifyFrame
  grind [addMark_memOk, State.memOk]

theorem sealOk_memOk {s : State} {ctx va k} (h : s.memOk) : ((s.sealOk ctx va k).1).memOk := by
  unfold State.sealOk
  grind [touchMark_memOk, verifyFrame_memOk]

theorem killLoads_memOk {s : State} {c global spans} (h : s.memOk) : (s.killLoads c global spans).memOk := by
  unfold State.killLoads
  grind [modCore_memOk]

theorem nodeTrim_memOk {s : State} {h} (h' : s.memOk) : (s.nodeTrim h).memOk := by
  unfold State.nodeTrim
  grind [State.memOk]

theorem l2Clean_memOk {s : State} {l} (h : s.memOk) : (s.l2Clean l).memOk := by
  unfold State.l2Clean
  grind [State.memOk]

theorem l2Drop_memOk {s : State} {l} (h : s.memOk) : (s.l2Drop l).memOk := by
  unfold State.l2Drop
  grind [l2Clean_memOk, State.memOk]

theorem l2Trim_memOk {s : State} {h n} (h' : s.memOk) : (s.l2Trim h n).memOk := by
  unfold State.l2Trim
  grind [l2Drop_memOk, foldl_memOk, foldl_fst_memOk]

theorem l2Put_memOk {s : State} {l dirty last} (h : s.memOk) : (s.l2Put l dirty last).memOk := by
  unfold State.l2Put
  grind [l2Trim_memOk, State.memOk]

theorem wakeLine_memOk {s : State} {line} (h : s.memOk) : (s.wakeLine line).memOk := by
  unfold State.wakeLine
  grind [modWave_memOk, foldl_memOk, foldl_fst_memOk, State.memOk]

theorem flushDirty_memOk {s : State} {c} (h : s.memOk) : (s.flushDirty c).memOk := by
  unfold State.flushDirty
  grind [writeBack_memOk, foldl_memOk, foldl_fst_memOk, State.memOk]

theorem traceAt_memOk {s : State} {r time} (h : s.memOk) : (s.traceAt r time).memOk := by
  unfold State.traceAt
  grind [homeWrite_memOk, flushDirty_memOk, State.memOk]

theorem traceRec_memOk {s : State} {r} (h : s.memOk) : (s.traceRec r).memOk := by
  unfold State.traceRec
  grind [traceAt_memOk]

theorem traceWave_memOk {s : State} {c w kind pay} (h : s.memOk) : (s.traceWave c w kind pay).memOk := by
  unfold State.traceWave
  grind [traceRec_memOk]

theorem fetchWord_memOk {s : State} {c w ctx va} (h : s.memOk) : ((s.fetchWord c w ctx va).1).memOk := by
  unfold State.fetchWord
  grind [place_memOk, modCore_memOk, traceWave_memOk, sealOk_memOk, modWave_memOk, State.memOk]

theorem fetchInstr_memOk {s : State} {c w ctx pc} (h : s.memOk) : ((s.fetchInstr c w ctx pc).1).memOk := by
  unfold State.fetchInstr
  grind [fetchWord_memOk]

theorem unstick_memOk {run : Instr → State → Host.Outcome State Fault Refusal} {s : State} (h : s.memOk) : (s.unstick run).memOk := by
  unfold State.unstick
  grind [foldl_memOk, modWave_memOk]

theorem modBank_memOk {s : State} {r f} (h : s.memOk) : (s.modBank r f).memOk := by
  unfold State.modBank
  grind [modCore_memOk]

theorem enterAll_memOk {s t : State} {rs : List BankReq} (h : s.memOk) (e : s.enterAll rs = some t) : t.memOk := by
  unfold State.memOk
  rw [enterAll_mem e]
  exact h

theorem refuseBank_memOk {s : State} {r} (h : s.memOk) : (s.refuseBank r).memOk := by
  unfold State.refuseBank
  grind [modBank_memOk]

theorem presentLanes_memOk {s : State} {c : Nat} {o : Op} {grp ls : List LaneAcc} {shut : List BankReq} (h : s.memOk) :
    (s.presentLanes c o grp ls shut).1.memOk := by
  induction ls generalizing s shut with
  | nil => exact h
  | cons a r ih =>
    unfold State.presentLanes
    dsimp only
    split
    · next u hu =>
      split at hu
      · cases hu
      · have hm := enterAll_memOk h hu
        exact ih hm
    · exact ih (foldl_memOk h (fun _ _ hs => by split; exacts [hs, refuseBank_memOk hs]))

theorem present_memOk {s : State} {a} (h : s.memOk) : ((s.present a).1).memOk := by
  unfold State.present
  grind [presentLanes_memOk, State.memOk]

theorem noteReads_memOk {t : State} {s : State} {a waits} (h : t.memOk) (h1 : s.memOk) : (t.noteReads s a waits).memOk := by
  unfold State.noteReads
  grind [State.memOk]

theorem offerReqs_memOk {s : State} {rs : List BankReq} (h : s.memOk) : (s.offerReqs rs).memOk := by
  unfold State.memOk
  rw [offerReqs_mem]
  exact h

theorem bank_memOk {s t : State} {rs : List BankReq} (h : s.memOk) (h1 : t.memOk) : (s.bank t rs).memOk := by
  unfold State.memOk
  rcases bank_mem s t rs with e | e <;> rw [e]
  · exact h1
  · exact h

theorem modTeam_memOk {s : State} {t f} (h : s.memOk) : (s.modTeam t f).memOk := by
  unfold State.modTeam
  grind [State.memOk]

theorem modLaunch_memOk {s : State} {l f} (h : s.memOk) : (s.modLaunch l f).memOk := by
  unfold State.modLaunch
  grind [State.memOk]

theorem setSlice_memOk {s : State} {c k x} (h : s.memOk) : (s.setSlice c k x).memOk := by
  unfold State.setSlice
  grind [modCore_memOk]

theorem modSlice_memOk {s : State} {c k f} (h : s.memOk) : (s.modSlice c k f).memOk := by
  unfold State.modSlice
  grind [setSlice_memOk]

theorem dropWait_memOk {s : State} {c w v} (h : s.memOk) : (s.dropWait c w v).memOk := by
  unfold State.dropWait
  grind [modWave_memOk]

theorem abandon_memOk {s : State} {c w v} (h : s.memOk) : (s.abandon c w v).memOk := by
  unfold State.abandon
  grind [dropWait_memOk, modTeam_memOk, modCore_memOk, modSlice_memOk, modWave_memOk, modLaunch_memOk, State.memOk]

theorem abandonAll_memOk {s : State} {c w} (h : s.memOk) : (s.abandonAll c w).memOk := by
  unfold State.abandonAll
  grind [abandon_memOk, foldl_memOk]

/-! ### Faults and traps told, stores and reads of lines -/

theorem hostWrite_memOk {s : State} {a bs} (h : s.memOk) : ((s.hostWrite a bs).1).memOk := by
  unfold State.hostWrite
  grind [homeWrite_memOk]

theorem msi_memOk {s : State} {v} (h : s.memOk) : (s.msi v).memOk := by
  unfold State.msi
  grind [State.memOk]

theorem ringPut_memOk {s : State} {bs} (h : s.memOk) : (s.ringPut bs).memOk := by
  unfold State.ringPut
  grind [hostWrite_memOk, flushDirty_memOk, msi_memOk, State.memOk]

theorem postFault_memOk {s : State} {r replay} (h : s.memOk) : ((s.postFault r replay).1).memOk := by
  unfold State.postFault
  grind [ringPut_memOk, State.memOk]

theorem holdFault_memOk {s : State} {r who} (h : s.memOk) : ((s.holdFault r who).1).memOk := by
  unfold State.holdFault
  grind [postFault_memOk, State.memOk]

theorem offer_memOk {s : State} {c w t p} (h : s.memOk) : (s.offer c w t p).memOk := by
  unfold State.offer
  grind [modWave_memOk, holdFault_memOk]

theorem postTrap_memOk {s : State} {c w t} (h : s.memOk) : (s.postTrap c w t).memOk := by
  unfold State.postTrap
  grind [postFault_memOk]

theorem dropHeld_memOk {s : State} {t} (h : s.memOk) : (s.dropHeld t).memOk := by
  unfold State.dropHeld
  grind [State.memOk]

theorem release_memOk {s : State} {c t sc line} (h : s.memOk) : (s.release c t sc line).memOk := by
  unfold State.release
  grind [modCore_memOk, flushDirty_memOk, State.memOk]

theorem writeKills_memOk {s : State} {c k n} (h : s.memOk) : (s.writeKills c k n).memOk := by
  unfold State.writeKills
  grind [killLoads_memOk]

theorem dropLine_memOk {s : State} {c l} (h : s.memOk) : (s.dropLine c l).memOk := by
  unfold State.dropLine
  grind [killLoads_memOk, modCore_memOk, writeBack_memOk]

theorem l1Room_memOk {s : State} {c l} (h : s.memOk) : ((s.l1Room c l).1).memOk := by
  unfold State.l1Room
  grind [dropLine_memOk]

theorem l2Use_memOk {s : State} {k n cpol} (h : s.memOk) : (s.l2Use k n cpol).memOk := by
  unfold State.l2Use
  grind [l2Drop_memOk, l2Put_memOk, foldl_memOk]

theorem writeL1_memOk {s : State} {c k bs last} (h : s.memOk) : ((s.writeL1 c k bs last).1).memOk := by
  unfold State.writeL1
  grind [homeWrite_memOk, modCore_memOk, l1Room_memOk, l2Use_memOk, foldl_memOk]

theorem pushHome_memOk {s : State} {c k} (h : s.memOk) : (s.pushHome c k).memOk := by
  unfold State.pushHome
  grind [killLoads_memOk, modCore_memOk, writeBack_memOk, dropLine_memOk]

theorem storeLane_memOk {s : State} {c t ctx o a} (h : s.memOk) : ((s.storeLane c t ctx o a).1).memOk := by
  unfold State.storeLane
  grind [homeWrite_memOk, pushHome_memOk, l2Use_memOk, writeKills_memOk, writeL1_memOk, release_memOk]

theorem invalidateClean_memOk {s : State} {c} (h : s.memOk) : (s.invalidateClean c).memOk := by
  unfold State.invalidateClean
  grind [killLoads_memOk, modCore_memOk]

theorem acquire_memOk {s : State} {c t sc} (h : s.memOk) : (s.acquire c t sc).memOk := by
  unfold State.acquire
  grind [invalidateClean_memOk]

theorem promoteNotes_memOk {s : State} {c k} (h : s.memOk) : (s.promoteNotes c k).memOk := by
  unfold State.promoteNotes
  grind [writeBack_memOk, foldl_memOk, State.memOk]

theorem fillLine_memOk {s : State} {c l i n last t} (h : s.memOk) (e : s.fillLine c l i n last = some t) : t.memOk := by
  unfold State.fillLine at e
  grind [modCore_memOk, l1Room_memOk, l2Use_memOk, foldl_memOk]

theorem readGlobal_memOk {s : State} {c k cpol n vol} (h : s.memOk) : ((s.readGlobal c k cpol n vol).1).memOk := by
  unfold State.readGlobal
  grind [fillLine_memOk, l2Use_memOk]

theorem atomicLane_memOk {s : State} {c t ctx o a} (h : s.memOk) : ((s.atomicLane c t ctx o a).1).memOk := by
  unfold State.atomicLane
  repeat' split
  all_goals grind [acquire_memOk, homeWrite_memOk, pushHome_memOk, l2Use_memOk, writeKills_memOk, writeL1_memOk, readGlobal_memOk,
    promoteNotes_memOk, invalidateClean_memOk, release_memOk, State.memOk]

theorem sealLine_memOk {s : State} {c k} (h : s.memOk) : (s.sealLine c k).memOk := by
  unfold State.sealLine
  grind [pushHome_memOk]

theorem lineChecked_memOk {s : State} {c k} (h : s.memOk) : (s.lineChecked c k).memOk := by
  unfold State.lineChecked
  grind [modCore_memOk]

theorem readLane_memOk {s : State} {c t ctx o a} (h : s.memOk) : ((s.readLane c t ctx o a).1).memOk := by
  unfold State.readLane
  dsimp only
  repeat' split
  all_goals grind [acquire_memOk, touchMark_memOk, pushHome_memOk, sealLine_memOk, readGlobal_memOk, lineChecked_memOk, promoteNotes_memOk,
    invalidateClean_memOk]

theorem savedLane_memOk {s : State} {c t o a k cpol} (h : s.memOk) : ((s.savedLane c t o a k cpol).1).memOk := by
  unfold State.savedLane
  grind [acquire_memOk, homeWrite_memOk, l2Use_memOk, release_memOk]

theorem performLane_memOk {s : State} {c o a} (h : s.memOk) : ((s.performLane c o a).1).memOk := by
  unfold State.performLane
  grind [storeLane_memOk, savedLane_memOk, readLane_memOk, atomicLane_memOk]

theorem dropRefusal_memOk {s : State} {c o} (h : s.memOk) : (s.dropRefusal c o).memOk := by
  unfold State.dropRefusal
  grind [postFault_memOk]

theorem drainOps_memOk {s : State} {c w} (h : s.memOk) : (s.drainOps c w).memOk := by
  unfold State.drainOps
  grind [dropRefusal_memOk, performLane_memOk, modCore_memOk, foldl_memOk, foldl_fst_memOk]

theorem stopWalks_memOk {s : State} {t c} (h : s.memOk) : (s.stopWalks t c).memOk := by
  unfold State.stopWalks
  grind [modCore_memOk, foldl_memOk, foldl_fst_memOk, Stop.memOk, State.memOk]

theorem depositStatus_memOk {s : State} {id st} (h : s.memOk) : (s.depositStatus id st).memOk := by
  unfold State.depositStatus
  grind [newId_memOk, State.memOk]

theorem discardAll_memOk {s : State} {m} (h : s.memOk) : (s.discardAll m).memOk := by
  unfold State.discardAll
  grind [depositStatus_memOk, foldl_memOk]

theorem unregister_memOk {s : State} {c w} (h : s.memOk) : (s.unregister c w).memOk := by
  unfold State.unregister
  grind [modCore_memOk, State.memOk]

theorem keepLx_memOk {s : State} {c w} (h : s.memOk) : (s.keepLx c w).memOk := by
  unfold State.keepLx
  grind [modCore_memOk, foldl_memOk]

theorem promote_memOk {s : State} {c k} (h : s.memOk) : (s.promote c k).memOk := by
  unfold State.promote
  grind [modWave_memOk, foldl_memOk, foldl_fst_memOk]

theorem dropKeys_memOk {s : State} {c k named} (h : s.memOk) : (s.dropKeys c k named).memOk := by
  unfold State.dropKeys
  grind [modCore_memOk]

theorem sweep_memOk {s : State} {c k} (h : s.memOk) : (s.sweep c k).memOk := by
  unfold State.sweep
  grind [dropKeys_memOk, modSlice_memOk]

theorem removeWave_memOk {s : State} {c w} (h : s.memOk) : (s.removeWave c w).memOk := by
  unfold State.removeWave
  grind [unregister_memOk, modCore_memOk, modSlice_memOk, promote_memOk, sweep_memOk, keepLx_memOk, State.memOk]

theorem zeroBench_memOk {s : State} {ms : List Member} {size : Nat} (h : s.memOk) : (s.zeroBench ms size).memOk :=
  foldl_memOk h (fun _ _ hs => killLoads_memOk (modCore_memOk (Memory.wf_zero _ _ _ hs)))

theorem traceLaunch_memOk {s : State} {ctx addr code phase} (h : s.memOk) : (s.traceLaunch ctx addr code phase).memOk := by
  unfold State.traceLaunch
  grind [traceRec_memOk]

theorem putRec_memOk {s : State} {r} (h : s.memOk) : ((s.putRec r).1).memOk := by
  unfold State.putRec
  grind [homeWrite_memOk, l2Use_memOk, msi_memOk]

theorem complete_memOk {s : State} {o status reason cause killed} (h : s.memOk) : (s.complete o status reason cause killed).memOk := by
  unfold State.complete
  grind [postFault_memOk, place_memOk, putRec_memOk, State.memOk]

theorem freeRetained_memOk {s : State} {size rs} (h : s.memOk) : (s.freeRetained size rs).memOk := by
  unfold State.freeRetained
  grind [modCore_memOk, zeroBench_memOk, foldl_memOk]

theorem vaRead_memOk {s : State} {via ctx va n} (h : s.memOk) : ((s.vaRead via ctx va n).1).memOk := by
  unfold State.vaRead
  grind [place_memOk, l2Use_memOk, sealOk_memOk]

theorem enlist_memOk {s : State} {l prio front} (h : s.memOk) : (s.enlist l prio front).memOk := by
  unfold State.enlist
  grind [State.memOk]

theorem takeUp_memOk {s : State} {ctx addr o prio retained size} (h : s.memOk) : (s.takeUp ctx addr o prio retained size).memOk := by
  unfold State.takeUp
  grind [postFault_memOk, traceLaunch_memOk, complete_memOk, vaRead_memOk, newId_memOk, enlist_memOk, freeRetained_memOk,
    State.memOk]

theorem endLaunch_memOk {s : State} {l} (h : s.memOk) : (s.endLaunch l).memOk := by
  unfold State.endLaunch
  grind [traceLaunch_memOk, complete_memOk, takeUp_memOk, flushDirty_memOk, freeRetained_memOk, foldl_memOk, foldl_fst_memOk,
    State.memOk]

theorem checkLaunchEnd_memOk {s : State} {l} (h : s.memOk) : (s.checkLaunchEnd l).memOk := by
  unfold State.checkLaunchEnd
  grind [endLaunch_memOk]

/-! ### Teams that end, traps that are delivered -/

theorem releaseTeam_memOk {s : State} {t} (h : s.memOk) : (s.releaseTeam t).memOk := by
  unfold State.releaseTeam
  dsimp only
  repeat' split
  all_goals grind [drainOps_memOk, discardAll_memOk, unregister_memOk, modCore_memOk, stopWalks_memOk, dropHeld_memOk, modLaunch_memOk,
    removeWave_memOk, checkLaunchEnd_memOk, zeroBench_memOk, foldl_memOk, foldl_fst_memOk, State.memOk]

theorem killTeam_memOk {s : State} {t e} (h : s.memOk) : (s.killTeam t e).memOk := by
  unfold State.killTeam
  grind [modTeam_memOk, releaseTeam_memOk]

theorem killReport_memOk {s : State} {c w e va access} (h : s.memOk) : (s.killReport c w e va access).memOk := by
  unfold State.killReport
  grind [postFault_memOk, killTeam_memOk]

theorem debugStop_memOk {s : State} {c w d slot} (h : s.memOk) : (s.debugStop c w d slot).memOk := by
  unfold State.debugStop
  grind [traceWave_memOk, modWave_memOk, msi_memOk, Stop.memOk]

theorem askStop_memOk {s : State} {c w d} (h : s.memOk) : (s.askStop c w d).memOk := by
  unfold State.askStop
  grind [debugStop_memOk, modWave_memOk, Stop.memOk]

theorem freezeFrom_memOk {s : State} {ctx t me d} (h : s.memOk) : (s.freezeFrom ctx t me d).memOk := by
  unfold State.freezeFrom
  grind [modTeam_memOk, askStop_memOk, foldl_memOk, foldl_fst_memOk, Stop.memOk]

theorem freeze_memOk {s : State} {c w d} (h : s.memOk) : (s.freeze c w d).memOk := by
  unfold State.freeze
  grind [freezeFrom_memOk]

theorem deliver_memOk {s : State} {c w t} (h : s.memOk) : (s.deliver c w t).memOk := by
  unfold State.deliver
  grind [debugStop_memOk, freeze_memOk, killReport_memOk, offer_memOk, postTrap_memOk, modWave_memOk, Stop.memOk]

theorem deliverAsync_memOk {s : State} {c w} (h : s.memOk) : (s.deliverAsync c w).memOk := by
  unfold State.deliverAsync
  grind [abandonAll_memOk, modWave_memOk, deliver_memOk]

theorem Iss.pre_memOk {x : Iss} {e addr aux} : (x.pre e addr aux).memOk := by
  unfold Iss.pre
  grind [Stop.memOk]

theorem modNow_memOk {s : State} {x f} (h : s.memOk) : (s.modNow x f).memOk := by
  unfold State.modNow
  grind [modWave_memOk]

theorem raise_memOk {s : State} {x t} (h : s.memOk) : (s.raise x t).memOk := by
  unfold State.raise
  grind [killReport_memOk, deliver_memOk]

theorem trapNow_memOk {s : State} {x t} (h : s.memOk) : (s.trapNow x t).memOk := by
  unfold State.trapNow
  grind [modNow_memOk, raise_memOk]

theorem fetchFault_memOk {s : State} {x e va far} (h : s.memOk) : (s.fetchFault x e va far).memOk := by
  unfold State.fetchFault
  grind [Iss.pre_memOk, trapNow_memOk]

/-! ### What a bundle does around its body -/

theorem prepare_miss_memOk {s : State} {c w b second t} (h : s.memOk) (e : s.prepare c w b second = .miss t) : t.memOk := by
  unfold State.prepare at e
  split at e <;> grind [Iss.pre_memOk, fetchInstr_memOk, deliverAsync_memOk, fetchFault_memOk, trapNow_memOk, State.memOk]

theorem prepare_done_memOk {s : State} {c w b second u} (h : s.memOk) (e : s.prepare c w b second = .done u) : u.memOk := by
  unfold State.prepare at e
  split at e <;> grind [Iss.pre_memOk, fetchInstr_memOk, deliverAsync_memOk, fetchFault_memOk, trapNow_memOk, State.memOk]

theorem prepare_run_memOk {s : State} {c w b second t2 i} (h : s.memOk) (e : s.prepare c w b second = .run t2 i) : t2.memOk := by
  unfold State.prepare at e
  split at e <;> grind [Iss.pre_memOk, fetchInstr_memOk, deliverAsync_memOk, fetchFault_memOk, trapNow_memOk, State.memOk]

theorem Iss.trap_memOk {x : Iss} {act e addr aux} : (x.trap act e addr aux).memOk := by
  unfold Iss.trap
  grind [Stop.memOk]

theorem Iss.names_error_memOk {x : Iss} {act : Mask} {pos name n : Nat} {st : Stop} (e : x.names act pos name n = .error st) :
    st.memOk := by
  induction n generalizing st with
  | zero => cases e
  | succ k ih =>
    unfold Iss.names at e
    grind [Iss.trap_memOk]

theorem Iss.namesOk_error_memOk {x : Iss} {act : Mask} {ds : List Opd} {st : Stop} (e : x.namesOk act ds = .error st) : st.memOk := by
  induction ds with
  | nil => cases e
  | cons d r ih =>
    unfold Iss.namesOk at e
    grind [Iss.names_error_memOk]

theorem Iss.empty_memOk {x : Iss} {act d name} : (x.empty act d name).memOk := by
  unfold Iss.empty
  grind [Iss.trap_memOk, Stop.memOk]

theorem Iss.readRegs_error_memOk {x : Iss} {act : Mask} {d : Opd} {ns : List Nat} {st : Stop}
    (e : x.readRegs act d ns = .error st) : st.memOk := by
  induction ns generalizing st with
  | nil => cases e
  | cons n r ih =>
    unfold Iss.readRegs at e
    grind [Iss.trap_memOk, Iss.empty_memOk]

theorem readOpd_error_memOk {s : State} {x act o d t} (h : s.memOk) (e : s.readOpd x act o d = .error t) : t.memOk := by
  unfold State.readOpd at e
  grind [Iss.readRegs_error_memOk, Iss.empty_memOk, Iss.names_error_memOk, Stop.memOk]

theorem readOpds_error_memOk {s : State} {x : Iss} {act : Mask} {o : Opnds} {ds : List Opd} {st : Stop}
    (h : s.memOk) (e : s.readOpds x act o ds = .error st) : st.memOk := by
  induction ds generalizing st with
  | nil => cases e
  | cons d r ih =>
    unfold State.readOpds at e
    grind [readOpd_error_memOk]

theorem sources_error_memOk {s : State} {x act o ds t} (h : s.memOk) (e : s.sources x act o ds = .error t) : t.memOk := by
  unfold State.sources at e
  grind [Iss.namesOk_error_memOk, readOpds_error_memOk, Stop.memOk]

theorem advanceGen_memOk {s : State} {c w} (h : s.memOk) : (s.advanceGen c w).memOk := by
  unfold State.advanceGen
  grind [modSlice_memOk, modWave_memOk]

theorem seeBox_memOk {s : State} {c w was} (h : s.memOk) : (s.seeBox c w was).memOk := by
  unfold State.seeBox
  grind [acquire_memOk, advanceGen_memOk]

theorem takeBox_memOk {s : State} {c w n was} (h : s.memOk) : (s.takeBox c w n was).memOk := by
  unfold State.takeBox
  grind [modWave_memOk, seeBox_memOk]

theorem progress_memOk {s : State} {t handler} (h : s.memOk) : (s.progress t handler).memOk := by
  unfold State.progress
  grind [modTeam_memOk]

theorem stepEnd_memOk {s : State} {x} (h : s.memOk) : (s.stepEnd x).memOk := by
  unfold State.stepEnd
  grind [modNow_memOk, deliver_memOk, Stop.memOk]

theorem retire_memOk {s : State} {x act o pfx fx} (h : s.memOk) : (s.retire x act o pfx fx).memOk := by
  unfold State.retire
  grind [modNow_memOk, raise_memOk, takeBox_memOk, progress_memOk, stepEnd_memOk, seeBox_memOk, foldl_memOk]

theorem endWaitWith_memOk {fx : Fx} {c w v} (h : fx.s.memOk) : (State.endWaitWith c w v fx).memOk := by
  unfold State.endWaitWith
  grind [retire_memOk, dropWait_memOk, takeBox_memOk, foldl_memOk]

theorem endWait_memOk {s : State} {c w v} (h : s.memOk) : (s.endWait c w v).memOk := by
  unfold State.endWait
  grind [endWaitWith_memOk]

theorem wakeSleepers_memOk {s : State} {c w} (h : s.memOk) : (s.wakeSleepers c w).memOk := by
  unfold State.wakeSleepers
  grind [endWait_memOk, foldl_memOk]

theorem enterBox_memOk {s : State} {c w n d} (h : s.memOk) : (s.enterBox c w n d).memOk := by
  unfold State.enterBox
  grind [wakeSleepers_memOk, modWave_memOk, depositStatus_memOk]

theorem settleBoxes_memOk {s : State} {c w} (h : s.memOk) : (s.settleBoxes c w).memOk := by
  unfold State.settleBoxes
  grind [wakeSleepers_memOk, enterBox_memOk, modWave_memOk, foldl_memOk]

theorem noSecond_memOk {s : State} {c w second} (h : s.memOk) : (s.noSecond c w second).memOk := by
  unfold State.noSecond
  grind [settleBoxes_memOk, State.memOk]

theorem gate_memOk {s : State} {t : State} {a} (h : s.memOk) (h1 : t.memOk) : (s.gate t a).memOk := by
  unfold State.gate
  grind [noSecond_memOk, bank_memOk, enterAll_memOk]

theorem gated_memOk {s : State} {a : Act} {w : Bool} {o : Host.Outcome State Fault Refusal} {t : State} (h : s.memOk)
    (ho : ∀ u, o = .next u → u.memOk) (e : s.gated a w o = .next t) : t.memOk := by
  unfold State.gated at e
  grind [gate_memOk, noteReads_memOk]

theorem moveArrival_memOk {s : State} {c} (h : s.memOk) : (s.moveArrival c).memOk := by
  unfold State.moveArrival
  grind [modCore_memOk]

/-! ### Reads and writes through addresses, walks and their events -/

theorem keepCopy_memOk {s : State} {k c l bs} (h : s.memOk) : (s.keepCopy k c l bs).memOk := by
  unfold State.keepCopy
  grind [modCore_memOk]

theorem nodePut_memOk {s : State} {l cpol} (h : s.memOk) : (s.nodePut l cpol).memOk := by
  unfold State.nodePut
  grind [nodeTrim_memOk, l2Use_memOk, State.memOk]

theorem walkFillLine_memOk {s : State} {node p l} (h : s.memOk) : ((s.walkFillLine node p l).1).memOk := by
  unfold State.walkFillLine
  grind [nodePut_memOk, l2Use_memOk]

theorem walkLine_memOk {s : State} {k c ctx va} (h : s.memOk) : ((s.walkLine k c ctx va).1).memOk := by
  unfold State.walkLine
  repeat' split
  all_goals grind [walkFillLine_memOk, keepCopy_memOk, touchMark_memOk, place_memOk, Stop.memOk]

theorem walkRead_memOk {s : State} {k : WCopy} {c ctx fuel : Nat} {va : DWord} {n : Nat} (h : s.memOk) :
    (s.walkRead k c ctx fuel va n).1.memOk := by
  induction fuel generalizing s va n with
  | zero => cases n <;> exact h
  | succ fuel ih => cases n with
    | zero => exact h
    | succ n =>
      unfold State.walkRead
      grind [walkLine_memOk]

theorem setWalk_memOk {s : State} {c k x} (h : s.memOk) : (s.setWalk c k x).memOk := by
  unfold State.setWalk
  grind [modCore_memOk]

theorem freeWalk_memOk {s : State} {c k} (h : s.memOk) : (s.freeWalk c k).memOk := by
  unfold State.freeWalk
  grind [modCore_memOk]

theorem modWalk_memOk {s : State} {c k f} (h : s.memOk) : (s.modWalk c k f).memOk := by
  unfold State.modWalk
  grind [setWalk_memOk]

theorem vaAccess_memOk {s : State} {via ctx va u bs} (h : s.memOk) : ((s.vaAccess via ctx va u bs).1).memOk := by
  unfold State.vaAccess
  grind [homeWrite_memOk, place_memOk, l2Use_memOk]

theorem vaWrite_memOk {s : State} {via ctx va bs} (h : s.memOk) : ((s.vaWrite via ctx va bs).1).memOk := by
  unfold State.vaWrite
  grind [vaAccess_memOk]

theorem benchPut_memOk {s : State} {t c off bs} (h : s.memOk) : (s.benchPut t c off bs).memOk := by
  unfold State.benchPut
  grind [homeWrite_memOk, writeKills_memOk, vaWrite_memOk]

theorem cqWrite_memOk {s : State} {t c n bs u} (h : s.memOk) (e : s.cqWrite t c n bs = some u) : u.memOk := by
  unfold State.cqWrite at e
  grind [modTeam_memOk, benchPut_memOk]

theorem walkEntry_memOk {s : State} {c k status extra result value terminal} (h : s.memOk) :
    (s.walkEntry c k status extra result value terminal).memOk := by
  unfold State.walkEntry
  grind [modWalk_memOk, setWalk_memOk, cqWrite_memOk, freeWalk_memOk, State.memOk]

theorem walkRecord_memOk {s : State} {c status x result value} (h : s.memOk) : (s.walkRecord c status x result value).memOk := by
  unfold State.walkRecord
  grind [postFault_memOk]

theorem walkEnd_memOk {s : State} {c k status kind result value} (h : s.memOk) : (s.walkEnd c k status kind result value).memOk := by
  unfold State.walkEnd
  grind [walkRecord_memOk, walkEntry_memOk]

theorem walkFault_memOk {s : State} {c k kind va} (h : s.memOk) : (s.walkFault c k kind va).memOk := by
  unfold State.walkFault
  grind [walkEnd_memOk]

theorem walkIllegal_memOk {s : State} {c k reason} (h : s.memOk) : (s.walkIllegal c k reason).memOk := by
  unfold State.walkIllegal
  grind [walkEnd_memOk]

theorem walkKind_memOk {s : State} {c k sdtab entry} (h : s.memOk) : (s.walkKind c k sdtab entry).memOk := by
  unfold State.walkKind
  grind [walkFault_memOk, modWalk_memOk, setWalk_memOk, walkIllegal_memOk, walkRead_memOk]

theorem grantArrival_memOk {s : State} {c k m} (h : s.memOk) : (s.grantArrival c k m).memOk := by
  unfold State.grantArrival
  grind [walkKind_memOk, modCore_memOk, setWalk_memOk, State.memOk]

theorem startWalk_memOk {s : State} {c k w tag cq kind bs} (h : s.memOk) : (s.startWalk c k w tag cq kind bs).memOk := by
  unfold State.startWalk
  grind [walkKind_memOk, setWalk_memOk]

theorem travStart_memOk {s : State} {c w : Nat} {r : TravReq} {t : State} (h : s.memOk) (e : s.travStart c w r = some t) : t.memOk := by
  obtain ⟨k, -, rfl⟩ := Option.map_eq_some_iff.1 e
  exact startWalk_memOk h

theorem travEnd_memOk {s : State} {c w v} (h : s.memOk) : (s.travEnd c w v).memOk := by
  unfold State.travEnd
  grind [endWaitWith_memOk]

theorem setWait_memOk {s : State} {c w v k} (h : s.memOk) : (s.setWait c w v k).memOk := by
  unfold State.setWait
  grind [modWave_memOk]

theorem grantLane_memOk {s : State} {c} (h : s.memOk) : (s.grantLane c).memOk := by
  unfold State.grantLane
  split
  · grind [travStart_memOk, modCore_memOk, travEnd_memOk, setWait_memOk]
  · split <;> grind [travStart_memOk, modCore_memOk, travEnd_memOk, setWait_memOk]

theorem execWalkSlotGrant_memOk {s : State} {c t} (h : s.memOk) (e : execWalkSlotGrant c s = .next t) : t.memOk := by
  unfold execWalkSlotGrant at e
  grind [grantLane_memOk, grantArrival_memOk, moveArrival_memOk]

theorem nodeLine_memOk {s : State} {c ctx va old} (h : s.memOk) : ((s.nodeLine c ctx va old).1).memOk := by
  unfold State.nodeLine
  grind [walkLine_memOk, modCore_memOk, State.memOk]

theorem nodeRead_memOk {s : State} {c ctx : Nat} {va : DWord} {n fuel : Nat} {got old : List Byte} (h : s.memOk) :
    (s.nodeRead c ctx va n fuel got old).1.memOk := by
  induction fuel generalizing s got old with
  | zero => exact h
  | succ fuel ih =>
    unfold State.nodeRead
    grind [nodeLine_memOk, State.memOk]

theorem walkNext_memOk {s : State} {c k} (h : s.memOk) : (s.walkNext c k).memOk := by
  unfold State.walkNext
  grind [setWalk_memOk, walkIllegal_memOk]

theorem walkArrive_memOk {s : State} {c k} (h : s.memOk) : (s.walkArrive c k).memOk := by
  unfold State.walkArrive
  grind [walkFault_memOk, walkKind_memOk, setWalk_memOk, walkNext_memOk, nodeRead_memOk, walkRead_memOk, foldl_memOk,
    foldl_fst_memOk]

theorem execNodeArrival_memOk {s : State} {c slot t} (h : s.memOk) (e : execNodeArrival c slot s = .next t) : t.memOk := by
  unfold execNodeArrival at e
  grind [walkArrive_memOk]

theorem walkSpill_memOk {s : State} {c k} (h : s.memOk) : (s.walkSpill c k).memOk := by
  unfold State.walkSpill
  grind [walkFault_memOk, setWalk_memOk, walkNext_memOk, vaAccess_memOk, Stop.memOk]

theorem execStackSpill_memOk {s : State} {c slot t} (h : s.memOk) (e : execStackSpill c slot s = .next t) : t.memOk := by
  unfold execStackSpill at e
  grind [walkSpill_memOk]

theorem walkFill_memOk {s : State} {c k} (h : s.memOk) : (s.walkFill c k).memOk := by
  unfold State.walkFill
  split <;> grind [walkFault_memOk, place_memOk, l2Use_memOk, setWalk_memOk, Stop.memOk, State.memOk]

theorem execStackFill_memOk {s : State} {c slot t} (h : s.memOk) (e : execStackFill c slot s = .next t) : t.memOk := by
  unfold execStackFill at e
  grind [walkFill_memOk]

/-! ### Results that land in registers, and the events of memory operations -/

theorem modJig_memOk {s : State} {c f} (h : s.memOk) : (s.modJig c f).memOk := by
  unfold State.modJig
  grind [modCore_memOk]

theorem fillSmov_memOk {s : State} {c k p v} (h : s.memOk) : (s.fillSmov c k p v).memOk := by
  unfold State.fillSmov
  grind [modCore_memOk, modWave_memOk, foldl_memOk]

theorem renameReg_memOk {s : State} {c k p q} (h : s.memOk) : (s.renameReg c k p q).memOk := by
  unfold State.renameReg
  grind [modCore_memOk, modSlice_memOk]

theorem countWrite_memOk {s : State} {c k p hit} (h : s.memOk) : (s.countWrite c k p hit).memOk := by
  unfold State.countWrite
  grind [modWave_memOk, State.memOk]

theorem placeReg_memOk {s : State} {c k p b} (h : s.memOk) : (s.placeReg c k p b).memOk := by
  unfold State.placeReg
  grind [modSlice_memOk, countWrite_memOk]

theorem settle_memOk {s : State} {c k p v} (h : s.memOk) : (s.settle c k p v).memOk := by
  unfold State.settle
  grind [placeReg_memOk, modSlice_memOk, fillSmov_memOk, renameReg_memOk, countWrite_memOk]

theorem settles_memOk {s : State} {c k : Nat} {vs : List (Nat × VReg)} (h : s.memOk) : (s.settles c k vs).memOk := by
  induction vs generalizing s with
  | nil => exact h
  | cons v r ih => exact ih (settle_memOk h)

theorem fillOp_memOk {s : State} {c op vals} (h : s.memOk) : (s.fillOp c op vals).memOk := by
  unfold State.fillOp
  grind [settles_memOk, modCore_memOk, sweep_memOk, modWave_memOk]

theorem execJpopDelivery_memOk {s : State} {c q t} (h : s.memOk) (e : execJpopDelivery c q s = .next t) : t.memOk := by
  unfold execJpopDelivery at e
  grind [modJig_memOk, fillOp_memOk]

theorem memEvent_memOk {s : State} {c id : Nat} {f : State → Op → State} {t : State} (h : s.memOk)
    (hf : ∀ s o, s.memOk → (f s o).memOk) (e : memEvent s c id f = .next t) : t.memOk := by
  unfold memEvent at e
  grind

theorem reuseAdd_memOk {s : State} {c k e} (h : s.memOk) : (s.reuseAdd c k e).memOk := by
  unfold State.reuseAdd
  grind [modSlice_memOk]

theorem addLoadEntry_memOk {s : State} {c o} (h : s.memOk) : (s.addLoadEntry c o).memOk := by
  unfold State.addLoadEntry
  grind [reuseAdd_memOk]

theorem lateTrap_memOk {s : State} {c w t} (h : s.memOk) : (s.lateTrap c w t).memOk := by
  unfold State.lateTrap
  grind [abandon_memOk, modWave_memOk, deliver_memOk, foldl_memOk]

theorem finishMem_memOk {s : State} {c o} (h : s.memOk) : (s.finishMem c o).memOk := by
  unfold State.finishMem
  grind [lateTrap_memOk, dropWait_memOk, settleBoxes_memOk, endWaitWith_memOk, addLoadEntry_memOk, advanceGen_memOk,
    modWave_memOk, fillOp_memOk, trapNow_memOk]

theorem sendAsync_memOk {s : State} {c w t} (h : s.memOk) : (s.sendAsync c w t).memOk := by
  unfold State.sendAsync
  grind [modTeam_memOk, modWave_memOk]

theorem execRemoteBenchRefusal_memOk {s : State} {c op t} (h : s.memOk) (e : execRemoteBenchRefusal c op s = .next t) : t.memOk := by
  unfold execRemoteBenchRefusal at e
  grind [sendAsync_memOk, dropRefusal_memOk, finishMem_memOk, memEvent_memOk]

theorem modOp_memOk {s : State} {c id f} (h : s.memOk) : (s.modOp c id f).memOk := by
  unfold State.modOp
  grind [modCore_memOk]

theorem finishIfDone_memOk {s : State} {c id} (h : s.memOk) : (s.finishIfDone c id).memOk := by
  unfold State.finishIfDone
  grind [dropRefusal_memOk, modCore_memOk, finishMem_memOk]

theorem performLanes_memOk {s : State} {c o lanes} (h : s.memOk) : (s.performLanes c o lanes).memOk := by
  unfold State.performLanes
  grind [performLane_memOk, modOp_memOk, finishIfDone_memOk, foldl_memOk]

theorem execRemoteBenchArrival_memOk {s : State} {c op lanes t} (h : s.memOk) (e : execRemoteBenchArrival c op lanes s = .next t)
    : t.memOk := by
  unfold execRemoteBenchArrival at e
  grind [performLanes_memOk, memEvent_memOk]

theorem execStoreWritePerform_memOk {s : State} {c op lanes t} (h : s.memOk) (e : execStoreWritePerform c op lanes s = .next t) :
    t.memOk := by
  unfold execStoreWritePerform at e
  grind [performLanes_memOk, memEvent_memOk]

theorem execAtomicCompletion_memOk {s : State} {c op lanes t} (h : s.memOk) (e : execAtomicCompletion c op lanes s = .next t) :
    t.memOk := by
  unfold execAtomicCompletion at e
  grind [performLanes_memOk, memEvent_memOk]

theorem fence_memOk {s : State} {c t sc paths} (h : s.memOk) : (s.fence c t sc paths).memOk := by
  unfold State.fence
  grind [modCore_memOk, flushDirty_memOk, invalidateClean_memOk, foldl_memOk]

theorem execFenceCompletion_memOk {s : State} {c op t} (h : s.memOk) (e : execFenceCompletion c op s = .next t) : t.memOk := by
  unfold execFenceCompletion at e
  grind [modCore_memOk, advanceGen_memOk, fence_memOk, memEvent_memOk]

theorem pinLine_memOk {s : State} {c t a} (h : s.memOk) : ((s.pinLine c t a).1).memOk := by
  unfold State.pinLine
  grind [modCore_memOk, foldl_memOk]

theorem prefetchLane_memOk {s : State} {c o a} (h : s.memOk) : ((s.prefetchLane c o a).1).memOk := by
  unfold State.prefetchLane
  grind [touchMark_memOk, fillLine_memOk, sealLine_memOk, lineChecked_memOk, pinLine_memOk]

theorem finishPrefetch_memOk {s : State} {c o} (h : s.memOk) : (s.finishPrefetch c o).memOk := by
  unfold State.finishPrefetch
  grind [modCore_memOk, modWave_memOk]

theorem prefetchLanes_memOk {s : State} {c o lanes} (h : s.memOk) : (s.prefetchLanes c o lanes).memOk := by
  unfold State.prefetchLanes
  grind [modOp_memOk, finishPrefetch_memOk, prefetchLane_memOk, foldl_memOk]

theorem execLoadCompletion_memOk {s : State} {c op lanes t} (h : s.memOk) (e : execLoadCompletion c op lanes s = .next t) :
    t.memOk := by
  unfold execLoadCompletion at e
  grind [prefetchLanes_memOk, performLanes_memOk, memEvent_memOk, fillOp_memOk]

theorem execSfuServiceStart_memOk {s : State} {c slice t} (h : s.memOk) (e : execSfuServiceStart c slice s = .next t) : t.memOk := by
  unfold execSfuServiceStart at e
  grind [modSlice_memOk]

theorem heldTrap_memOk {s : State} {c w t act fl once} (h : s.memOk) : (s.heldTrap c w t act fl once).memOk := by
  unfold State.heldTrap
  grind [deliver_memOk]

theorem queuedFlags_memOk {s : State} {c w pc clk bundle act fl once hold} (h : s.memOk) :
    (s.queuedFlags c w pc clk bundle act fl once hold).memOk := by
  unfold State.queuedFlags
  grind [heldTrap_memOk, modWave_memOk]

theorem pendVec_memOk {s : State} {c w n t} (h : s.memOk) (e : s.pendVec c w n = some t) : t.2.memOk := by
  unfold State.pendVec at e
  grind [modSlice_memOk, modWave_memOk, State.memOk]

theorem writeVec_memOk {s : State} {c w n : Nat} {v : VReg} {t : State} (h : s.memOk) (e : s.writeVec c w n v = some t) : t.memOk := by
  unfold State.writeVec at e
  split at e
  · cases e
  · next p u hp =>
    cases e
    exact sweep_memOk (settle_memOk (sweep_memOk (pendVec_memOk h hp)))

theorem settleResult_memOk {s : State} {c k : Nat} {active : Mask} {owns : List (Nat × Nat × VReg)} {p : Nat} {val prior : VReg}
    {t : State} (h : s.memOk) (e : s.settleResult c k active owns p val prior = some t) : t.memOk := by
  unfold State.settleResult at e
  obtain ⟨u, hu, rfl⟩ := Option.map_eq_some_iff.1 e
  refine settle_memOk (foldl_some_memOk ?_ ?_ hu)
  · intro v hv
    obtain rfl := Option.some.inj hv
    exact ite_memOk _ _ _ (fillSmov_memOk h) (modSlice_memOk (fillSmov_memOk h))
  · intro v a w hv hw
    obtain ⟨x, hx, hw⟩ := Option.bind_eq_some_iff.1 hw
    exact writeVec_memOk (hv x hx) hw

theorem settleResults_memOk {s : State} {c k : Nat} {active : Mask} {owns : List (Nat × Nat × VReg)}
    {rs : List (Nat × VReg × VReg)} {t : State} (h : s.memOk) (e : s.settleResults c k active owns rs = some t) : t.memOk := by
  induction rs generalizing s with
  | nil => cases e; exact h
  | cons r rs ih =>
    obtain ⟨u, hu, e⟩ := Option.bind_eq_some_iff.1 e
    exact ih (settleResult_memOk h hu) e

theorem shareFlags_memOk {s : State} {c ws act fl} (h : s.memOk) : (s.shareFlags c ws act fl).memOk := by
  unfold State.shareFlags
  grind [modWave_memOk, foldl_memOk]

theorem spillBut_memOk {s : State} {c k but} (h : s.memOk) : (s.spillBut c k but).memOk := by
  unfold State.spillBut
  grind [modWave_memOk, foldl_memOk, foldl_fst_memOk]

theorem spillWave_memOk {s : State} {c k} (h : s.memOk) : (s.spillWave c k).memOk := by
  unfold State.spillWave
  grind [spillBut_memOk]

/-! ### Events of the special functions and of the matrix engine -/

theorem sfuWrite_memOk {s0 : State} {c k e} (h : s0.memOk) : (s0.sfuWrite c k e).memOk := by
  unfold State.sfuWrite
  grind [spillWave_memOk, settleBoxes_memOk, queuedFlags_memOk, settleResults_memOk, endWaitWith_memOk, modSlice_memOk,
    sweep_memOk, shareFlags_memOk, modWave_memOk]

theorem execSfuResultWrite_memOk {s : State} {c slice op t} (h : s.memOk) (e : execSfuResultWrite c slice op s = .next t) :
    t.memOk := by
  unfold execSfuResultWrite at e
  grind [sfuWrite_memOk]

theorem dropEntry_memOk {s : State} {c id} (h : s.memOk) : (s.dropEntry c id).memOk := by
  unfold State.dropEntry
  grind [modCore_memOk]

theorem modTile_memOk {s : State} {c t f} (h : s.memOk) : (s.modTile c t f).memOk := by
  unfold State.modTile
  grind [modCore_memOk]

theorem entryTrap_memOk {s : State} {c e addr} (h : s.memOk) : (s.entryTrap c e addr).memOk := by
  unfold State.entryTrap
  grind [lateTrap_memOk]

theorem lxFault_memOk {s : State} {c e key} (h : s.memOk) : (s.lxFault c e key).memOk := by
  unfold State.lxFault
  grind [dropEntry_memOk, entryTrap_memOk]

theorem modEntry_memOk {s : State} {c id f} (h : s.memOk) : (s.modEntry c id f).memOk := by
  unfold State.modEntry
  grind [modCore_memOk]

theorem startEntry_memOk {s : State} {c e} (h : s.memOk) : (s.startEntry c e).memOk := by
  unfold State.startEntry
  grind [modEntry_memOk, sweep_memOk]

theorem tileFault_memOk {s0 : State} {c e} (h : s0.memOk) : (s0.tileFault c e).memOk := by
  unfold State.tileFault
  grind [spillWave_memOk, dropEntry_memOk, settleResults_memOk, entryTrap_memOk, modSlice_memOk, sweep_memOk]

theorem readTile_memOk {s : State} {c e} (h : s.memOk) : (s.readTile c e).memOk := by
  unfold State.readTile
  grind [modEntry_memOk, foldl_memOk, foldl_fst_memOk]

theorem execEngineStart_memOk {s : State} {c t} (h : s.memOk) (e : execEngineStart c s = .next t) : t.memOk := by
  unfold execEngineStart at e
  grind [dropEntry_memOk, lxFault_memOk, modEntry_memOk, startEntry_memOk, modCore_memOk, readTile_memOk, tileFault_memOk,
    modTile_memOk]

theorem entryEffect_memOk {s : State} {c e} (h : s.memOk) : (s.entryEffect c e).memOk := by
  unfold State.entryEffect
  grind [dropEntry_memOk, queuedFlags_memOk, modWave_memOk, modTile_memOk]

theorem execEngineEffect_memOk {s : State} {c t} (h : s.memOk) (e : execEngineEffect c s = .next t) : t.memOk := by
  unfold execEngineEffect at e
  grind [modEntry_memOk, entryEffect_memOk]

theorem reuseFlags_memOk {s : State} {c k ps f} (h : s.memOk) : (s.reuseFlags c k ps f).memOk := by
  unfold State.reuseFlags
  grind [modSlice_memOk]

theorem execMacrResultWrite_memOk {s : State} {c op t} (h : s.memOk) (e : execMacrResultWrite c op s = .next t) : t.memOk := by
  unfold execMacrResultWrite at e
  grind [spillWave_memOk, dropEntry_memOk, queuedFlags_memOk, settleResults_memOk, sweep_memOk, reuseFlags_memOk,
    shareFlags_memOk]

theorem execLxLoadDone_memOk {s : State} {c t} (h : s.memOk) (e : execLxLoadDone c s = .next t) : t.memOk := by
  unfold execLxLoadDone at e
  grind [modCore_memOk]

/-! ### Events of the copy unit -/

theorem unpark_memOk {s : State} {c i} (h : s.memOk) : (s.unpark c i).memOk := by
  unfold State.unpark
  grind [modCore_memOk]

theorem benchWrite_memOk {s : State} {k bs} (h : s.memOk) : (s.benchWrite k bs).memOk := by
  unfold State.benchWrite
  grind [homeWrite_memOk, writeKills_memOk]

theorem recPut_memOk {s : State} {c t rec_ off bs} (h : s.memOk) : (s.recPut c t rec_ off bs).memOk := by
  unfold State.recPut
  grind [benchWrite_memOk]

theorem bbPut_memOk {s : State} {k b} (h : s.memOk) : (s.bbPut k b).memOk := by
  unfold State.bbPut
  grind [benchWrite_memOk]

theorem unsuspend_memOk {s : State} {c t rec_ r} (h : s.memOk) : (s.unsuspend c t rec_ r).memOk := by
  unfold State.unsuspend
  grind [bbPut_memOk]

theorem queueJob_memOk {s : State} {c t ctx rec_ slot r} (h : s.memOk) : (s.queueJob c t ctx rec_ slot r).memOk := by
  unfold State.queueJob
  grind [modCore_memOk, newId_memOk]

theorem resumeReq_memOk {s : State} {c t ctx rec_} (h : s.memOk) : ((s.resumeReq c t ctx rec_).1).memOk := by
  unfold State.resumeReq
  grind [unsuspend_memOk, queueJob_memOk, recPut_memOk]

theorem copyReq_memOk {s : State} {c t ctx q made} (h : s.memOk) : ((s.copyReq c t ctx q made).1).memOk := by
  unfold State.copyReq
  split <;> grind [queueJob_memOk, resumeReq_memOk, recPut_memOk]

theorem copyReqs_memOk {s : State} {c t ctx : Nat} {made : List Nat} {fs : List (Nat × Nat × Cause × DWord)} {qs : List CopyReq}
    (h : s.memOk) : (s.copyReqs c t ctx made fs qs).1.memOk := by
  induction qs generalizing s made fs with
  | nil => exact h
  | cons q r ih =>
    unfold State.copyReqs
    grind [copyReq_memOk]

theorem execCopySlotGrant_memOk {s : State} {c t} (h : s.memOk) (e : execCopySlotGrant c s = .next t) : t.memOk := by
  unfold execCopySlotGrant at e
  grind [endWaitWith_memOk, unpark_memOk, copyReqs_memOk, modWave_memOk, resumeReq_memOk, State.memOk]

theorem setJob_memOk {s : State} {c i j} (h : s.memOk) : (s.setJob c i j).memOk := by
  unfold State.setJob
  grind [modCore_memOk]

theorem putPiecesAt_memOk {s : State} {bs : List Byte} {ks : List Nat} (h : s.memOk) : (s.putPiecesAt bs ks).memOk := by
  induction ks generalizing s bs with
  | nil => exact h
  | cons k r ih => exact ih (benchWrite_memOk h)

theorem movePiece_memOk {s : State} {c ctx into bks va} (h : s.memOk) : ((s.movePiece c ctx into bks va).1).memOk := by
  unfold State.movePiece
  grind [touchMark_memOk, homeWrite_memOk, pushHome_memOk, place_memOk, putPiecesAt_memOk, l2Use_memOk, writeKills_memOk]

theorem moveLines_memOk {s : State} {c : Nat} {j : CopyJob} {u : Nat} {va : DWord} {fuel n o : Nat} (h : s.memOk) :
    (s.moveLines c j u va fuel n o).1.memOk := by
  induction fuel generalizing s n o with
  | zero => exact h
  | succ fuel ih =>
    unfold State.moveLines
    grind [movePiece_memOk]

theorem movePieces_memOk {s : State} {c j u va n o} (h : s.memOk) : ((s.movePieces c j u va n o).1).memOk := by
  unfold State.movePieces
  grind [moveLines_memOk]

theorem zeroPieces_memOk {s : State} {c : Nat} {j : CopyJob} {u n o : Nat} (h : s.memOk) : (s.zeroPieces c j u n o).memOk := by
  induction n generalizing s o with
  | zero => exact h
  | succ n ih => exact ih (benchWrite_memOk h)

theorem serveUnit_memOk {s : State} {c i j} (h : s.memOk) : (s.serveUnit c i j).memOk := by
  unfold State.serveUnit
  grind [setJob_memOk, zeroPieces_memOk, movePieces_memOk, traceRec_memOk]

theorem execCopyUnitServe_memOk {s : State} {c t} (h : s.memOk) (e : execCopyUnitServe c s = .next t) : t.memOk := by
  unfold execCopyUnitServe at e
  grind [modCore_memOk, serveUnit_memOk, Stop.memOk]

theorem countDown_memOk {s : State} {k ns} (h : s.memOk) : (s.countDown k ns).memOk := by
  unfold State.countDown
  grind [bbPut_memOk, foldl_memOk]

theorem freeSlot_memOk {s : State} {c i} (h : s.memOk) : (s.freeSlot c i).memOk := by
  unfold State.freeSlot
  grind [modCore_memOk]

theorem jobDone_memOk {s : State} {c i j} (h : s.memOk) : (s.jobDone c i j).memOk := by
  unfold State.jobDone
  grind [freeSlot_memOk, recPut_memOk]

theorem execCopyUnitLanded_memOk {s : State} {c job unit t} (h : s.memOk) (e : execCopyUnitLanded c job unit s = .next t) :
    t.memOk := by
  unfold execCopyUnitLanded at e
  grind [setJob_memOk, countDown_memOk, jobDone_memOk]

theorem suspendJob_memOk {s : State} {c i j e va} (h : s.memOk) : (s.suspendJob c i j e va).memOk := by
  unfold State.suspendJob
  grind [postFault_memOk, holdFault_memOk, freeSlot_memOk, bbPut_memOk, recPut_memOk, State.memOk]

theorem execCopyJobSuspend_memOk {s : State} {c job t} (h : s.memOk) (e : execCopyJobSuspend c job s = .next t) : t.memOk := by
  unfold execCopyJobSuspend at e
  grind [suspendJob_memOk]

/-! ### Waits, deposits and their events -/

theorem execAsyncTrapDelivery_memOk {s : State} {c w t} (h : s.memOk) (e : execAsyncTrapDelivery c w s = .next t) : t.memOk := by
  unfold execAsyncTrapDelivery at e
  grind [deliverAsync_memOk]

theorem execSleepExpiry_memOk {s : State} {c w lanes t} (h : s.memOk) (e : execSleepExpiry c w lanes s = .next t) : t.memOk := by
  unfold execSleepExpiry at e
  grind [endWait_memOk, foldl_memOk]

theorem homeWord_memOk {s : State} {c ctx va} (h : s.memOk) : ((s.homeWord c ctx va).1).memOk := by
  unfold State.homeWord
  grind [pushHome_memOk, place_memOk, l2Use_memOk, sealOk_memOk]

theorem Stop.posted_memOk {st : Stop} {client access : Nat} {held : Bool} (h : st.memOk) : (st.posted client access held).memOk := by
  unfold Stop.posted
  grind [Stop.memOk]

theorem acquireFor_memOk {s : State} {c w sc} (h : s.memOk) : (s.acquireFor c w sc).memOk := by
  unfold State.acquireFor
  grind [acquire_memOk, advanceGen_memOk]

theorem prior_error_memOk {s : State} {x act a t} (h : s.memOk) (e : s.prior x act a = .error t) : t.memOk := by
  fun_induction s.prior x act a generalizing t
  all_goals grind [Iss.trap_memOk, Stop.memOk]

/-- Through the recursor that `pendVecs` is compiled to: Lean fails to make its equation lemmas. -/
theorem pendVecs_memOk {s : State} {c w a t} (h : s.memOk) (e : s.pendVecs c w a = some t) : t.2.memOk := by
  induction a generalizing s t with
  | nil => cases e; exact h
  | cons n r ih =>
    have q : ∀ (u : State) v, u.memOk → u.pendVecs c w r = some v → v.2.memOk := fun _ _ => ih
    delta State.pendVecs State.pendVecs._f List.brecOn List.brecOn.go at e q
    dsimp only at e q
    split at e
    · cases e
    · next hp =>
      split at e
      · cases e
      · next hr =>
        obtain rfl := Option.some.inj e
        have hv := q _ _ (pendVec_memOk h hp) hr
        exact hv

theorem writeVecs_memOk {s : State} {c w vs t} (h : s.memOk) (e : s.writeVecs c w vs = some t) : t.memOk := by
  obtain ⟨r, hr, rfl⟩ := Option.map_eq_some_iff.1 e
  exact sweep_memOk (settles_memOk (sweep_memOk (pendVecs_memOk h hr)))

theorem unoffer_memOk {s : State} {x ns} (h : s.memOk) : (s.unoffer x ns).memOk := by
  unfold State.unoffer
  grind [modNow_memOk, State.memOk]

theorem putVec_memOk {s : State} {x act ns vs t} (h : s.memOk) (e : s.putVec x act ns vs = .ok t) : t.memOk := by
  unfold State.putVec at e
  grind [prior_error_memOk, writeVecs_memOk, unoffer_memOk, Stop.memOk]

theorem putVec_error_memOk {s : State} {x act ns vs t} (h : s.memOk) (e : s.putVec x act ns vs = .error t) : t.memOk := by
  unfold State.putVec at e
  grind [prior_error_memOk, writeVecs_memOk, unoffer_memOk, Stop.memOk]

theorem putScalar_memOk {s : State} {x act n vs t} (h : s.memOk) (e : s.putScalar x act n vs = .ok t) : t.memOk := by
  unfold State.putScalar at e
  grind [modNow_memOk, Stop.memOk]

theorem putScalar_error_memOk {s : State} {x act n vs t} (h : s.memOk) (e : s.putScalar x act n vs = .error t) : t.memOk := by
  unfold State.putScalar at e
  grind [modNow_memOk, Stop.memOk]

theorem waitaPut_memOk {s : State} {x act r v t} (h : s.memOk) (e : s.waitaPut x act r v = .ok t) : t.memOk := by
  unfold State.waitaPut at e
  grind [putVec_memOk, putVec_error_memOk, acquireFor_memOk, putScalar_memOk, putScalar_error_memOk, Stop.memOk]

theorem waitaPut_error_memOk {s : State} {x act r v t} (h : s.memOk) (e : s.waitaPut x act r v = .error t) : t.memOk := by
  unfold State.waitaPut at e
  grind [putVec_memOk, putVec_error_memOk, acquireFor_memOk, putScalar_memOk, putScalar_error_memOk, Stop.memOk]

theorem waitaTest_memOk {s : State} {c w : Nat} {v : Wait} {r : WaitaReq} {again : State → Nat → State × WaitKind} (h : s.memOk)
    (ha : ∀ s k, s.memOk → (again s k).1.memOk) : (s.waitaTest c w v r again).memOk := by
  unfold State.waitaTest
  grind [homeWord_memOk, trapNow_memOk, dropWait_memOk, waitaPut_memOk, endWaitWith_memOk, spillWave_memOk, setWait_memOk]

theorem execWaitaPoll_memOk {s : State} {c w t} (h : s.memOk) (e : execWaitaPoll c w s = .next t) : t.memOk := by
  unfold execWaitaPoll at e
  grind [waitaTest_memOk, foldl_memOk]

theorem leftIn_memOk {s : State} {x a} (h : s.memOk) : (s.leftIn x a).1.memOk := by
  induction a generalizing s with
  | nil => exact h
  | cons n r ih =>
    unfold State.leftIn
    dsimp only
    split
    · exact ih h
    · exact ih h

theorem pendNames_memOk {s : State} {x act ns t} (h : s.memOk) (e : s.pendNames x act ns = .ok t) : t.2.2.memOk := by
  unfold State.pendNames at e
  split at e
  · cases e
  · dsimp only at e
    split at e
    · cases e
    · next hp =>
      rw [← Except.ok.inj e]
      refine pendVecs_memOk ?_ hp
      split
      · exact leftIn_memOk h
      · exact h

theorem pendNames_error_memOk {s : State} {x act ns t} (h : s.memOk) (e : s.pendNames x act ns = .error t) : t.memOk := by
  unfold State.pendNames at e
  grind [prior_error_memOk, Stop.memOk]

theorem putPred_memOk {s : State} {x act n v t} (h : s.memOk) (e : s.putPred x act n v = .ok t) : t.memOk := by
  unfold State.putPred at e
  grind [modNow_memOk, Stop.memOk]

theorem putPred_error_memOk {s : State} {x act n v t} (h : s.memOk) (e : s.putPred x act n v = .error t) : t.memOk := by
  unfold State.putPred at e
  grind [modNow_memOk, Stop.memOk]

theorem cqTake_memOk {s : State} {x act q ns pred t} (h : s.memOk) (e : s.cqTake x act q ns pred = .ok t) : t.memOk := by
  unfold State.cqTake at e
  dsimp only at e
  split at e
  · cases e
  · split at e
    · cases e
    · next u hu =>
      refine putPred_memOk ?_ e
      split at hu
      · exact Except.ok.inj hu ▸ modTeam_memOk h
      · split at hu
        · cases hu
        · next hp => exact Except.ok.inj hu ▸ sweep_memOk (modCore_memOk (newId_memOk (pendNames_memOk (modTeam_memOk h) hp)))

theorem cqTake_error_memOk {s : State} {x act q ns pred t} (h : s.memOk) (e : s.cqTake x act q ns pred = .error t) : t.memOk := by
  unfold State.cqTake at e
  dsimp only at e
  split at e
  · exact Except.error.inj e ▸ Iss.trap_memOk
  · split at e
    · next hu =>
      split at hu
      · cases hu
      · split at hu
        · next hp => exact Except.error.inj e ▸ Except.error.inj hu ▸ pendNames_error_memOk (modTeam_memOk h) hp
        · cases hu
    · next u hu =>
      refine putPred_error_memOk ?_ e
      split at hu
      · exact Except.ok.inj hu ▸ modTeam_memOk h
      · split at hu
        · cases hu
        · next hp => exact Except.ok.inj hu ▸ sweep_memOk (modCore_memOk (newId_memOk (pendNames_memOk (modTeam_memOk h) hp)))

theorem cqServe_memOk {s : State} {c w v} (h : s.memOk) : (s.cqServe c w v).memOk := by
  unfold State.cqServe
  grind [spillWave_memOk, dropWait_memOk, endWaitWith_memOk, cqTake_memOk, cqTake_error_memOk, trapNow_memOk]

theorem execCqpopTimeout_memOk {s : State} {c w lanes t} (h : s.memOk) (e : execCqpopTimeout c w lanes s = .next t) : t.memOk := by
  unfold execCqpopTimeout at e
  grind [cqServe_memOk]

theorem grantBlocks_memOk {s : State} {x act n dest t} (h : s.memOk) (e : s.grantBlocks x act n dest = .ok t) : t.memOk := by
  unfold State.grantBlocks at e
  grind [modNow_memOk, putScalar_memOk, putScalar_error_memOk, Stop.memOk]

theorem grantBlocks_error_memOk {s : State} {x act n dest t} (h : s.memOk) (e : s.grantBlocks x act n dest = .error t) : t.memOk := by
  unfold State.grantBlocks at e
  grind [modNow_memOk, putScalar_memOk, putScalar_error_memOk, Stop.memOk]

theorem serveRacq_memOk {s : State} {c k} (h : s.memOk) : (s.serveRacq c k).memOk := by
  unfold State.serveRacq
  split <;> grind [endWaitWith_memOk, modSlice_memOk, grantBlocks_memOk, grantBlocks_error_memOk]

theorem execRacqGrant_memOk {s : State} {c slice t} (h : s.memOk) (e : execRacqGrant c slice s = .next t) : t.memOk := by
  unfold execRacqGrant at e
  grind [serveRacq_memOk]

theorem execPriorityPromotion_memOk {s : State} {c w t} (h : s.memOk) (e : execPriorityPromotion c w s = .next t) : t.memOk := by
  unfold execPriorityPromotion at e
  grind [modWave_memOk]

theorem fillCode_memOk {s : State} {g l} (h : s.memOk) : (s.fillCode g l).memOk := by
  unfold State.fillCode
  grind [l2Use_memOk, modWave_memOk, foldl_memOk, foldl_fst_memOk, State.memOk]

theorem execFetchLineArrival_memOk {s : State} {group line t} (h : s.memOk) (e : execFetchLineArrival group line s = .next t) :
    t.memOk := by
  unfold execFetchLineArrival at e
  grind [fillCode_memOk]

theorem endSend_memOk {s : State} {c w v} (h : s.memOk) : (s.endSend c w v).memOk := by
  unfold State.endSend
  grind [dropWait_memOk, endWaitWith_memOk, putVec_memOk, putVec_error_memOk, spillBut_memOk, trapNow_memOk, Stop.memOk]

theorem settleSends_memOk {s : State} (h : s.memOk) : s.settleSends.memOk := by
  unfold State.settleSends
  grind [endSend_memOk, foldl_memOk, foldl_fst_memOk]

theorem execSendStatusReturn_memOk {s : State} {id t} (h : s.memOk) (e : execSendStatusReturn id s = .next t) : t.memOk := by
  unfold execSendStatusReturn at e
  grind [modWave_memOk, settleSends_memOk, State.memOk]

theorem enterSaved_memOk {s : State} {d t i a} (h : s.memOk) : (s.enterSaved d t i a).memOk := by
  unfold State.enterSaved
  grind [modTeam_memOk, vaRead_memOk, vaWrite_memOk, depositStatus_memOk]

theorem modDeposit_memOk {s : State} {id f} (h : s.memOk) : (s.modDeposit id f).memOk := by
  unfold State.modDeposit
  grind [State.memOk]

theorem depositArrives_memOk {s : State} {d} (h : s.memOk) : (s.depositArrives d).memOk := by
  unfold State.depositArrives
  grind [modDeposit_memOk, killTeam_memOk, enterSaved_memOk, enterBox_memOk, depositStatus_memOk, State.memOk]

theorem execDepositRetry_memOk {s : State} {id t} (h : s.memOk) (e : execDepositRetry id s = .next t) : t.memOk := by
  unfold execDepositRetry at e
  grind [depositArrives_memOk]

theorem execDepositArrival_memOk {s : State} {id t} (h : s.memOk) (e : execDepositArrival id s = .next t) : t.memOk := by
  unfold execDepositArrival at e
  grind [depositArrives_memOk]

theorem trapWait_memOk {s : State} {c w v e addr post unheld} (h : s.memOk) : (s.trapWait c w v e addr post unheld).memOk := by
  unfold State.trapWait
  grind [dropWait_memOk, Iss.trap_memOk, trapNow_memOk]

theorem timeoutWaits_memOk {s : State} {c ws addr} (h : s.memOk) : (s.timeoutWaits c ws addr).memOk := by
  unfold State.timeoutWaits
  grind [trapWait_memOk, foldl_memOk, foldl_fst_memOk]

theorem execBarrierTimeout_memOk {s : State} {launch c t} (h : s.memOk) (e : execBarrierTimeout launch c s = .next t) : t.memOk := by
  unfold execBarrierTimeout at e
  grind [benchWrite_memOk, modLaunch_memOk, timeoutWaits_memOk, foldl_memOk, foldl_fst_memOk]

theorem vaGet_memOk {s : State} {c ctx va n a} (h : s.memOk) : ((s.vaGet c ctx va n a).1).memOk := by
  induction a generalizing s va n with
  | zero => exact h
  | succ fuel ih =>
    unfold State.vaGet
    have hr := vaRead_memOk (via := .core c) (ctx := ctx) (va := va) (n := min n 65536) h
    grind

theorem readRecord_memOk {s : State} {c ctx va} (h : s.memOk) : ((s.readRecord c ctx va).1).memOk := by
  unfold State.readRecord
  grind [vaGet_memOk]

theorem badRecord_memOk {s : State} {t c va} (h : s.memOk) : (s.badRecord t c va).memOk := by
  unfold State.badRecord
  grind [postFault_memOk, killTeam_memOk]

theorem saveFails_memOk {s : State} {t c write e va} (h : s.memOk) : (s.saveFails t c write e va).memOk := by
  unfold State.saveFails
  grind [postFault_memOk, modTeam_memOk, killTeam_memOk, holdFault_memOk, State.memOk]

theorem firstAcquire_memOk {s : State} {x} (h : s.memOk) : (s.firstAcquire x).memOk := by
  unfold State.firstAcquire
  grind [acquire_memOk, modNow_memOk, advanceGen_memOk]

theorem startWait_memOk {s : State} {x act takes k} (h : s.memOk) : (s.startWait x act takes k).memOk := by
  unfold State.startWait
  grind [dropWait_memOk, modNow_memOk, abandon_memOk]

theorem finish_memOk {s : State} {x : Iss} {act : Mask} {o : Opnds} {pfx : Bool} {r : Except Stop Fx} (h : s.memOk)
    (hok : ∀ fx, r = .ok fx → fx.s.memOk) (herr : ∀ e, r = .error e → e.memOk) : (s.finish x act o pfx r).memOk := by
  unfold State.finish
  grind [retire_memOk, startWait_memOk, seeBox_memOk, trapNow_memOk, foldl_memOk, Stop.memOk, State.memOk]

/-! ### The shape that SIMT instructions share -/

theorem simt_memOk {s : State} {o : Opnds} {pfx : Bool} {pre : Iss → Option Stop} {body : State → Iss → Mask → Except Stop Fx}
    {dflt : DCls} {more : List Nat} {t : State} (h : s.memOk) (hp : PreOk pre) (hb : BodyOk body)
    (e : simt s o pfx pre body dflt more = .next t) : t.memOk := by
  cases hi : s.issuing with
  | none => rw [simt_noAgent s o pfx pre body dflt more hi] at e; cases e
  | some x =>
    have h0 : (s.firstAcquire x).memOk := firstAcquire_memOk h
    rcases simt_cases s o pfx pre body dflt more x hi with
      ⟨-, q⟩ | ⟨-, ⟨-, -, q⟩ | ⟨-, ⟨st, hst, q⟩ | ⟨-, ⟨-, q⟩ | ⟨-, q⟩ | ⟨act, -, -, q⟩⟩⟩⟩ <;>
      obtain rfl := Host.Outcome.next.inj (q.symm.trans e)
    · exact h0
    · exact finish_memOk h0 (by simp) (fun _ he => Except.error.inj he ▸ Iss.pre_memOk)
    · exact finish_memOk h0 (by simp) (fun _ he => Except.error.inj he ▸ hp x st hst)
    · exact h0
    · exact retire_memOk h0
    · exact finish_memOk h0 (hb _ x act h0).1 (hb _ x act h0).2

theorem noPre_memOk {a t} (e : noPre a = some t) : t.memOk := by
  unfold noPre at e
  grind [Stop.memOk]

theorem reuseTouch_memOk {s : State} {c k e} (h : s.memOk) : (s.reuseTouch c k e).memOk := by
  unfold State.reuseTouch
  grind [reuseAdd_memOk]

theorem share_memOk {s : State} {x ps ns ds} (h : s.memOk) : (s.share x ps ns ds).memOk := by
  unfold State.share
  grind [modCore_memOk, modSlice_memOk]

theorem reuseHit_memOk {s : State} {x act key ns pred raise t u} (h : s.memOk) (e : s.reuseHit x act key ns pred raise = some t)
    (e1 : t = .ok u) : u.s.memOk := by
  unfold State.reuseHit at e
  split at e <;> grind [putPred_memOk, putPred_error_memOk, modNow_memOk, reuseTouch_memOk, putVec_memOk, putVec_error_memOk, sweep_memOk,
    share_memOk, leftIn_memOk, foldl_memOk, foldl_fst_memOk, Stop.memOk, State.memOk]

theorem reuseHit_error_memOk {s : State} {x act key ns pred raise t u} (h : s.memOk)
    (e : s.reuseHit x act key ns pred raise = some t) (e1 : t = .error u) : u.memOk := by
  unfold State.reuseHit at e
  grind [putPred_memOk, putPred_error_memOk, modNow_memOk, reuseTouch_memOk, putVec_memOk, putVec_error_memOk, sweep_memOk,
    share_memOk, leftIn_memOk, foldl_memOk, foldl_fst_memOk, Stop.memOk]

theorem sfuEnter_memOk {s : State} {x act o h vs ns key r t} (h' : s.memOk) (e : s.sfuEnter x act o h vs ns key r = .ok t) :
    t.s.memOk := by
  unfold State.sfuEnter at e
  dsimp only at e
  split at e
  · split at e
    · split at e
      · cases e
      · exact Except.ok.inj e ▸ modNow_memOk (modSlice_memOk (newId_memOk h'))
    · cases e
  · split at e
    · cases e
    · next hp =>
      have h2 := pendNames_memOk (newId_memOk h') hp
      split at e
      · exact Except.ok.inj e ▸ reuseAdd_memOk (sweep_memOk (modSlice_memOk h2))
      · exact Except.ok.inj e ▸ sweep_memOk (modSlice_memOk h2)

theorem sfuEnter_error_memOk {s : State} {x act o h vs ns key r t} (h' : s.memOk)
    (e : s.sfuEnter x act o h vs ns key r = .error t) : t.memOk := by
  unfold State.sfuEnter at e
  grind [reuseAdd_memOk, modNow_memOk, pendNames_memOk, pendNames_error_memOk, modSlice_memOk, sweep_memOk, newId_memOk,
    Stop.memOk]

theorem sfuBody_memOk {s : State} {o op h f x act t} (h' : s.memOk) (e : sfuBody o op h f s x act = .ok t) : t.s.memOk := by
  unfold sfuBody at e
  grind [sfuEnter_memOk, sfuEnter_error_memOk, reuseHit_memOk, reuseHit_error_memOk, Iss.namesOk_error_memOk,
    Iss.names_error_memOk, readOpds_error_memOk, Stop.memOk]

theorem sfuBody_error_memOk {s : State} {o op h f x act t} (h' : s.memOk) (e : sfuBody o op h f s x act = .error t) : t.memOk := by
  unfold sfuBody at e
  grind [sfuEnter_memOk, sfuEnter_error_memOk, reuseHit_memOk, reuseHit_error_memOk, Iss.namesOk_error_memOk,
    Iss.names_error_memOk, readOpds_error_memOk, Stop.memOk]

theorem queued_memOk {s : State} {o op h f t} (h' : s.memOk) (e : queued s o op h f = .next t) : t.memOk := by
  unfold queued at e
  refine simt_memOk h' (fun _ _ => noPre_memOk) (fun s x act h => ⟨fun fx e => ?_, fun st e => ?_⟩) e
  · grind [sfuBody_memOk, sfuBody_error_memOk]
  · grind [sfuBody_memOk, sfuBody_error_memOk]

theorem execRcp_memOk {s : State} {o r t} (h : s.memOk) (e : execRcp o r s = .next t) : t.memOk := by
  unfold execRcp at e
  grind [queued_memOk]

theorem execRsq_memOk {s : State} {o t} (h : s.memOk) (e : execRsq o s = .next t) : t.memOk := by
  unfold execRsq at e
  grind [queued_memOk]

theorem execSqrt_memOk {s : State} {o r t} (h : s.memOk) (e : execSqrt o r s = .next t) : t.memOk := by
  unfold execSqrt at e
  grind [queued_memOk]

theorem execEx2_memOk {s : State} {o t} (h : s.memOk) (e : execEx2 o s = .next t) : t.memOk := by
  unfold execEx2 at e
  grind [queued_memOk]

theorem execLg2_memOk {s : State} {o t} (h : s.memOk) (e : execLg2 o s = .next t) : t.memOk := by
  unfold execLg2 at e
  grind [queued_memOk]

theorem execSin_memOk {s : State} {o t} (h : s.memOk) (e : execSin o s = .next t) : t.memOk := by
  unfold execSin at e
  grind [queued_memOk]

theorem execCos_memOk {s : State} {o t} (h : s.memOk) (e : execCos o s = .next t) : t.memOk := by
  unfold execCos at e
  grind [queued_memOk]

theorem execTanh_memOk {s : State} {o t} (h : s.memOk) (e : execTanh o s = .next t) : t.memOk := by
  unfold execTanh at e
  grind [queued_memOk]

theorem execDrcp_memOk {s : State} {o r t} (h : s.memOk) (e : execDrcp o r s = .next t) : t.memOk := by
  unfold execDrcp at e
  grind [queued_memOk]

theorem execDsqrt_memOk {s : State} {o r t} (h : s.memOk) (e : execDsqrt o r s = .next t) : t.memOk := by
  unfold execDsqrt at e
  grind [queued_memOk]

theorem execIdiv_memOk {s : State} {o t u} (h : s.memOk) (e : execIdiv o t s = .next u) : u.memOk := by
  unfold execIdiv at e
  grind [queued_memOk]

theorem execIrem_memOk {s : State} {o t u} (h : s.memOk) (e : execIrem o t s = .next u) : u.memOk := by
  unfold execIrem at e
  grind [queued_memOk]

theorem tilePre_memOk {name pos conv x t} (e : tilePre name pos conv x = some t) : t.memOk := by
  unfold tilePre at e
  grind [Iss.pre_memOk, Stop.memOk]

theorem convergedBody_ok {f : State → Iss → Mask → Except Stop Fx} (hf : BodyOk f) : BodyOk (convergedBody f) := by
  intro s x act h
  unfold convergedBody
  grind [BodyOk, Iss.pre_memOk]

theorem Iss.badFormats_memOk {x : Iss} : x.badFormats.memOk := by
  unfold Iss.badFormats
  grind [Stop.memOk]

theorem engEnter_memOk {s : State} {x o raise bump e t} (h : s.memOk) (e' : s.engEnter x o raise bump e = .ok t) : t.s.memOk := by
  unfold State.engEnter at e'
  grind [modCore_memOk, newId_memOk, Stop.memOk]

theorem engEnter_error_memOk {s : State} {x o raise bump e t} (h : s.memOk) (e' : s.engEnter x o raise bump e = .error t) :
    t.memOk := by
  unfold State.engEnter at e'
  grind [modCore_memOk, newId_memOk, Stop.memOk]

theorem execMma_memOk {s : State} {o bf zskip t} (h : s.memOk) (e : execMma o bf zskip s = .next t) : t.memOk := by
  unfold execMma at e
  refine simt_memOk h (fun _ _ => tilePre_memOk) (convergedBody_ok fun s x act h => ⟨fun fx e => ?_, fun st e => ?_⟩) e
  · grind [Iss.trap_memOk, engEnter_memOk, engEnter_error_memOk, sources_error_memOk, Iss.badFormats_memOk, Stop.memOk]
  · grind [Iss.trap_memOk, engEnter_memOk, engEnter_error_memOk, sources_error_memOk, Iss.badFormats_memOk, Stop.memOk]

theorem execMmas_memOk {s : State} {o bf out inner zskip t} (h : s.memOk) (e : execMmas o bf out inner zskip s = .next t) :
    t.memOk := by
  unfold execMmas at e
  refine simt_memOk h (fun _ _ => tilePre_memOk) (convergedBody_ok fun s x act h => ⟨fun fx e => ?_, fun st e => ?_⟩) e
  · grind [Iss.trap_memOk, engEnter_memOk, engEnter_error_memOk, sources_error_memOk, Iss.badFormats_memOk, Stop.memOk]
  · grind [Iss.trap_memOk, engEnter_memOk, engEnter_error_memOk, sources_error_memOk, Iss.badFormats_memOk, Stop.memOk]

theorem lxBench_error_memOk {s : State} {x act a n t} (h : s.memOk) (e : s.lxBench x act a n = .error t) : t.memOk := by
  unfold State.lxBench at e
  split at e
  · cases e; exact Iss.trap_memOk
  · split at e
    · cases e; exact Iss.trap_memOk
    · split at e
      · cases e; exact Iss.trap_memOk
      · split at e <;> cases e; exact Iss.trap_memOk

theorem execMmal_memOk {s : State} {o bf abs k32 t} (h : s.memOk) (e : execMmal o bf abs k32 s = .next t) : t.memOk := by
  unfold execMmal at e
  refine simt_memOk h (fun _ _ => tilePre_memOk) (convergedBody_ok fun s x act h => ⟨fun fx e => ?_, fun st e => ?_⟩) e
  · grind [lxBench_error_memOk, Iss.trap_memOk, engEnter_memOk, engEnter_error_memOk, sources_error_memOk, Iss.badFormats_memOk,
    Stop.memOk]
  · grind [lxBench_error_memOk, Iss.trap_memOk, engEnter_memOk, engEnter_error_memOk, sources_error_memOk, Iss.badFormats_memOk,
    Stop.memOk]

theorem execMacz_memOk {s : State} {o t} (h : s.memOk) (e : execMacz o s = .next t) : t.memOk := by
  unfold execMacz at e
  refine simt_memOk h (fun _ _ => tilePre_memOk) (fun s x act h => ⟨fun fx e => ?_, fun st e => ?_⟩) e
  · grind [engEnter_memOk, engEnter_error_memOk]
  · grind [engEnter_memOk, engEnter_error_memOk]

theorem execMacw_memOk {s : State} {o f t} (h : s.memOk) (e : execMacw o f s = .next t) : t.memOk := by
  unfold execMacw at e
  refine simt_memOk h (fun _ _ => tilePre_memOk) (convergedBody_ok fun s x act h => ⟨fun fx e => ?_, fun st e => ?_⟩) e
  · grind [engEnter_memOk, engEnter_error_memOk, sources_error_memOk, Iss.badFormats_memOk, Stop.memOk]
  · grind [engEnter_memOk, engEnter_error_memOk, sources_error_memOk, Iss.badFormats_memOk, Stop.memOk]

theorem execMacr_memOk {s : State} {o f r t} (h : s.memOk) (e : execMacr o f r s = .next t) : t.memOk := by
  unfold execMacr at e
  refine simt_memOk h (fun _ _ => tilePre_memOk) (convergedBody_ok fun s x act h => ⟨fun fx e => ?_, fun st e => ?_⟩) e
  · dsimp only at e
    split at e
    · cases e
    · split at e
      · cases e
      · split at e
        · cases e
        · split at e
          · next hr => exact reuseHit_memOk h hr e
          · split at e
            · cases e
            · split at e
              · cases e
              · next hp =>
                split at e
                · cases e
                · next he =>
                  have hs := sweep_memOk (c := x.c) (k := x.slice) (engEnter_memOk (pendNames_memOk h hp) he)
                  split at e
                  · exact Except.ok.inj e ▸ hs
                  · exact Except.ok.inj e ▸ reuseAdd_memOk hs
  · dsimp only at e
    split at e
    · exact Except.error.inj e ▸ Iss.badFormats_memOk
    · split at e
      · next hn => exact Except.error.inj e ▸ Iss.names_error_memOk hn
      · split at e
        · exact Except.error.inj e ▸ Iss.trap_memOk
        · split at e
          · next hr => exact reuseHit_error_memOk h hr e
          · split at e
            · exact Except.error.inj e ▸ trivial
            · split at e
              · next hp => exact Except.error.inj e ▸ pendNames_error_memOk h hp
              · next hp =>
                split at e
                · next he => exact Except.error.inj e ▸ engEnter_error_memOk (pendNames_memOk h hp) he
                · split at e <;> cases e

theorem execZflg_memOk {s : State} {o t} (h : s.memOk) (e : execZflg o s = .next t) : t.memOk := by
  unfold execZflg at e
  refine simt_memOk h (fun _ _ => tilePre_memOk) (convergedBody_ok fun s x act h => ⟨fun fx e => ?_, fun st e => ?_⟩) e
  · grind [Iss.trap_memOk, engEnter_memOk, engEnter_error_memOk, sources_error_memOk, Stop.memOk]
  · grind [Iss.trap_memOk, engEnter_memOk, engEnter_error_memOk, sources_error_memOk, Stop.memOk]

theorem execLxld_memOk {s : State} {o t} (h : s.memOk) (e : execLxld o s = .next t) : t.memOk := by
  unfold execLxld at e
  refine simt_memOk h (fun _ _ => noPre_memOk) (fun s x act h => ⟨fun fx e => ?_, fun st e => ?_⟩) e
  · grind [lxBench_error_memOk, Iss.trap_memOk, engEnter_memOk, engEnter_error_memOk, sources_error_memOk, Stop.memOk]
  · grind [lxBench_error_memOk, Iss.trap_memOk, engEnter_memOk, engEnter_error_memOk, sources_error_memOk, Stop.memOk]

theorem execLxinv_memOk {s : State} {o t} (h : s.memOk) (e : execLxinv o s = .next t) : t.memOk := by
  unfold execLxinv at e
  refine simt_memOk h (fun _ _ => noPre_memOk) (fun s x act h => ⟨fun fx e => ?_, fun st e => ?_⟩) e
  · grind [engEnter_memOk, engEnter_error_memOk]
  · grind [engEnter_memOk, engEnter_error_memOk]

/-! ### Waves, areas and teams that are restored and placed -/

/-- Through the recursor that `mapNames` is compiled to: Lean fails to make its equation lemmas. -/
theorem mapNames_memOk {s : State} {c w bs o a a' t} (h : s.memOk) (e : s.mapNames c w bs o a a' = some t) : t.memOk := by
  induction a generalizing s a' t with
  | nil => cases e; exact h
  | cons n r ih =>
    have q : ∀ (u : State) m v, u.memOk → u.mapNames c w bs o r m = some v → v.memOk := fun _ _ _ => ih
    delta State.mapNames State.mapNames._f List.brecOn List.brecOn.go at e q
    dsimp only at e q
    split at e
    · exact q _ _ _ h e
    · split at e
      · exact q _ _ _ (modWave_memOk h) e
      · split at e
        · cases e
        · next hp => exact q _ _ _ (writeVec_memOk h hp) e

/-- Through the recursor that `mapPending` is compiled to: Lean fails to make its equation lemmas. -/
theorem mapPending_memOk {s : State} {c w a a' t} (h : s.memOk) (e : s.mapPending c w a a' = some t) : t.1.memOk := by
  induction a generalizing s a' t with
  | nil => cases e; exact h
  | cons n r ih =>
    have q : ∀ (u : State) m v, u.memOk → u.mapPending c w r m = some v → v.1.memOk := fun _ _ _ => ih
    delta State.mapPending State.mapPending._f List.brecOn List.brecOn.go at e q
    dsimp only at e q
    split at e
    · exact q _ _ _ (modWave_memOk h) e
    · split at e
      · cases e
      · next hp => exact q _ _ _ (pendVec_memOk h hp) e

theorem offerHeld_memOk {s : State} {c w d t} (h : s.memOk) (e : s.offerHeld c w d = some t) : t.2.memOk := by
  unfold State.offerHeld at e
  dsimp only at e
  split at e
  · exact Option.some.inj e ▸ h
  · split at e
    · exact Option.some.inj e ▸ modWave_memOk h
    · obtain ⟨q, -, rfl⟩ := Option.map_eq_some_iff.1 e
      exact modSlice_memOk h

/-- Through the recursor that `mapHeld` is compiled to: Lean fails to make its equation lemmas. -/
theorem mapHeld_memOk {s : State} {c w a a' t} (h : s.memOk) (e : s.mapHeld c w a a' = some t) : t.1.memOk := by
  induction a generalizing s a' t with
  | nil => cases e; exact h
  | cons n r ih =>
    have q : ∀ (u : State) m v, u.memOk → u.mapHeld c w r m = some v → v.1.memOk := fun _ _ _ => ih
    delta State.mapHeld State.mapHeld._f List.brecOn List.brecOn.go at e q
    dsimp only at e q
    split at e
    · exact q _ _ _ h e
    · split at e
      · split at e
        · cases e
        · next hp => exact q _ _ _ (offerHeld_memOk h hp) e
      · split at e
        · cases e
        · exact q _ _ _ (modSlice_memOk h) e

theorem reenter_memOk {s : State} {c w v f} (h : s.memOk) : (s.reenter c w v f).memOk := by
  unfold State.reenter
  grind [modJig_memOk, lateTrap_memOk, modCore_memOk, modSlice_memOk, newId_memOk, modWave_memOk, foldl_memOk, foldl_fst_memOk]

theorem renameWave_memOk {s : State} {c a b} (h : s.memOk) : (s.renameWave c a b).memOk := by
  unfold State.renameWave
  grind [modCore_memOk, State.memOk]

theorem pauseArrivals_memOk {s : State} {l c w since} (h : s.memOk) : (s.pauseArrivals l c w since).memOk := by
  unfold State.pauseArrivals
  grind [modLaunch_memOk]

theorem resumeWave_memOk {s : State} {c w} (h : s.memOk) : (s.resumeWave c w).memOk := by
  unfold State.resumeWave
  grind [dropWait_memOk, abandon_memOk, modWave_memOk, modLaunch_memOk, foldl_memOk, Stop.memOk]

/-- What restoring comes to keeps canonical memory: the state it leaves, and what a failure does to the team. -/
def RestoreOk : Except RestoreStop State → Prop
  | .ok t => t.memOk
  | .error (.gone t) => t.memOk
  | .error (.failed f) => ∀ u : State, u.memOk → (f u).memOk
  | .error _ => True

/-- A restored wave goes back to its waits, and takes the traps that its record held. -/
theorem rejoined_memOk {s : State} {c w y p a l since} {f : Wave → Wave} {g : Wave → Wave} {ts : List Trap} (h : s.memOk) :
    (ts.foldl (fun s tr => s.deliver c w tr) (((((s.reenter c w y p).renameWave c a w).modWave c w f).pauseArrivals l c w
      since).modWave c w g)).memOk :=
  foldl_memOk (modWave_memOk (pauseArrivals_memOk (modWave_memOk (renameWave_memOk (reenter_memOk h))))) (fun _ _ => deliver_memOk)

theorem restoreWave_restoreOk {s : State} {t boxes v r} (h : s.memOk) (e : s.restoreWave t boxes v = r) : RestoreOk r := by
  unfold State.restoreWave at e
  dsimp only at e
  split at e
  · subst e; exact fun _ => badRecord_memOk
  · next m _ =>
    have hr := readRecord_memOk (c := m.core) (ctx := (s.team t).ctx) (va := (s.team t).recVa v.member v.index) h
    split at e
    · subst e; exact fun _ => saveFails_memOk
    · next u bs he =>
      replace hr : u.memOk := by rw [he] at hr; exact hr
      split at e
      · subst e; exact fun _ => badRecord_memOk
      · split at e
        · subst e; exact hr
        · split at e
          · subst e; exact fun _ => badRecord_memOk
          · split at e
            · subst e; exact fun _ => badRecord_memOk
            · split at e
              · subst e; trivial
              · next hn =>
                have hn := mapNames_memOk (setWave_memOk (modCore_memOk (newId_memOk hr))) hn
                split at e
                · subst e; trivial
                · next hp =>
                  have hp := mapPending_memOk hn hp
                  split at e
                  · subst e; trivial
                  · next hh =>
                    have hh := mapHeld_memOk hp hh
                    split at e <;> split at e <;> subst e
                    · exact settleBoxes_memOk (resumeWave_memOk (rejoined_memOk hh))
                    · exact resumeWave_memOk (rejoined_memOk hh)
                    · exact settleBoxes_memOk (rejoined_memOk hh)
                    · exact rejoined_memOk hh

theorem restoreWave_memOk {s : State} {t boxes v u} (h : s.memOk) (e : s.restoreWave t boxes v = .ok u) : u.memOk :=
  restoreWave_restoreOk h e

theorem restoreWave_error_gone_memOk {s : State} {t boxes v u t2} (h : s.memOk) (e : s.restoreWave t boxes v = .error u)
    (e1 : u = .gone t2) : t2.memOk :=
  restoreWave_restoreOk (r := .error (.gone t2)) h (e1 ▸ e)

theorem restoreWave_error_failed_memOk {s : State} {z : State} {t boxes v u f} (h : s.memOk)
    (e : s.restoreWave t boxes v = .error u) (e1 : u = .failed f) (e2 : z.memOk) : (f z).memOk :=
  restoreWave_restoreOk (r := .error (.failed f)) h (e1 ▸ e) z e2

theorem restartJobs_memOk {s : State} {c t a u} (h : s.memOk) (e : s.restartJobs c t a = some u) : u.memOk := by
  fun_induction s.restartJobs c t a generalizing u
  all_goals grind [modCore_memOk, queueJob_memOk, newId_memOk]

/-- What restoring a team area answers keeps the form of memory: the state, or what a failed check does to any state. -/
def AreaOk (r : Except (State → State) State) : Prop :=
  (∀ u, r = .ok u → u.memOk) ∧ ∀ f, r = .error f → ∀ z : State, z.memOk → (f z).memOk

theorem AreaOk.ok {s : State} (h : s.memOk) : AreaOk (.ok s) := by
  constructor
  · intro u e
    rw [← Except.ok.inj e]
    exact h
  · intro f e
    cases e

theorem AreaOk.error {f : State → State} (h : ∀ z : State, z.memOk → (f z).memOk) : AreaOk (.error f) := by
  constructor
  · intro u e
    cases e
  · intro g e
    rw [← Except.error.inj e]
    exact h

/-- The proof keeps only a name of the offset `0x40000`: with the literal in the goal, checking the casts of the case split counts up
to it in unary. -/
theorem restoreArea_areaOk {s : State} {t m} (h : s.memOk) : AreaOk (s.restoreArea t m) := by
  unfold State.restoreArea
  extract_lets +onlyGivenNames T va
  obtain ⟨va', hva⟩ : ∃ x, x = va + 0x40000 := ⟨_, rfl⟩
  rw [← hva]
  dsimp only
  split
  · exact .error fun _ => saveFails_memOk
  · next bench he =>
    have h1 := fst_memOk (vaGet_memOk h) he
    split
    · exact .error fun _ => saveFails_memOk
    · next he =>
      have h2 := fst_memOk (vaGet_memOk h1) he
      have hw := Memory.wf_writeBytes _ (benchKey m.core m.base) bench h2
      split <;> split
      · exact .error fun _ => badRecord_memOk
      · split
        · exact .error fun _ => badRecord_memOk
        · next hj =>
          refine .ok (restartJobs_memOk (modJig_memOk (modTeam_memOk (killLoads_memOk ?_))) hj)
          exact hw
      · exact .error fun _ => badRecord_memOk
      · split
        · exact .error fun _ => badRecord_memOk
        · next hj =>
          refine .ok (restartJobs_memOk (modTeam_memOk (killLoads_memOk ?_)) hj)
          exact hw

theorem restoreArea_memOk {s : State} {t m u} (h : s.memOk) (e : s.restoreArea t m = .ok u) : u.memOk :=
  (restoreArea_areaOk h).1 u e

theorem restoreArea_error_memOk {s : State} {z : State} {t m u} (h : s.memOk) (e : s.restoreArea t m = .error u) (e1 : z.memOk) :
    (u z).memOk :=
  (restoreArea_areaOk h).2 u e z e1

theorem restoreAreas_memOk {s : State} {t a u} (h : s.memOk) (e : s.restoreAreas t a = .ok u) : u.memOk := by
  fun_induction s.restoreAreas t a generalizing u
  all_goals grind [restoreArea_memOk, restoreArea_error_memOk]

theorem restoreAreas_error_memOk {s : State} {z : State} {t a u} (h : s.memOk) (e : s.restoreAreas t a = .error u) (e1 : z.memOk)
    : (u z).memOk := by
  fun_induction s.restoreAreas t a generalizing u
  all_goals grind [restoreArea_memOk, restoreArea_error_memOk]

theorem restoreFault_memOk {s : State} {z : State} {t v u} (h : s.memOk) (e : s.restoreFault t v = some u) (e1 : z.memOk) :
    (u z).memOk := by
  unfold State.restoreFault at e
  dsimp only at e
  split at e
  · next f hf =>
    obtain ⟨y, -, hy⟩ := List.exists_of_findSome?_eq_some hf
    split at hy
    · next hw =>
      obtain rfl := Option.some.inj (hy.trans e)
      exact restoreWave_error_failed_memOk h hw rfl e1
    · cases hy
  · split at e
    · cases e
    · split at e
      · next hf =>
        obtain rfl := Option.some.inj e
        exact restoreAreas_error_memOk (modTeam_memOk h) hf e1
      · cases e

theorem restoreWaves_memOk {s : State} {t boxes a u} (h : s.memOk) (e : s.restoreWaves t boxes a = .ok u) : u.memOk := by
  fun_induction s.restoreWaves t boxes a generalizing u
  all_goals grind [restoreWave_memOk, restoreWave_error_gone_memOk, restoreWave_error_failed_memOk, Stop.memOk]

theorem restoreWaves_error_gone_memOk {s : State} {t boxes a u t2} (h : s.memOk) (e : s.restoreWaves t boxes a = .error u)
    (e1 : u = .gone t2) : t2.memOk := by
  fun_induction s.restoreWaves t boxes a generalizing u t2
  all_goals grind [restoreWave_memOk, restoreWave_error_gone_memOk, restoreWave_error_failed_memOk, Stop.memOk]

theorem restoreWaves_error_failed_memOk {s : State} {z : State} {t boxes a u f} (h : s.memOk)
    (e : s.restoreWaves t boxes a = .error u) (e1 : u = .failed f) (e2 : z.memOk) : (f z).memOk := by
  fun_induction s.restoreWaves t boxes a generalizing u
  all_goals grind [restoreWave_memOk, restoreWave_error_gone_memOk, restoreWave_error_failed_memOk, Stop.memOk]

theorem restoring_memOk {s : State} {t u} (h : s.memOk) (e : s.restoring t = .ok u) : u.memOk := by
  unfold State.restoring at e
  split at e
  · exact Except.ok.inj e ▸ h
  · split at e
    · cases e
    · split at e
      · cases e
      · split at e
        · cases e
        · next hw =>
          have hw := restoreWaves_memOk h hw
          split at e
          · cases e
          · next ha =>
            refine Except.ok.inj e ▸ modTeam_memOk ?_
            split at ha
            · exact restoreAreas_memOk hw ha
            · exact Except.ok.inj ha ▸ hw

theorem restoring_error_gone_memOk {s : State} {t u t2} (h : s.memOk) (e : s.restoring t = .error u) (e1 : u = .gone t2) :
    t2.memOk := by
  unfold State.restoring at e
  grind [restoreFault_memOk, modTeam_memOk, restoreAreas_memOk, restoreAreas_error_memOk, restoreWaves_memOk,
    restoreWaves_error_gone_memOk, restoreWaves_error_failed_memOk, Stop.memOk]

theorem restoring_error_failed_memOk {s : State} {z : State} {t u f} (h : s.memOk) (e : s.restoring t = .error u)
    (e1 : u = .failed f) (e2 : z.memOk) : (f z).memOk := by
  unfold State.restoring at e
  subst e1
  split at e
  · cases e
  · split at e
    · cases e
    · split at e
      · next hf => exact RestoreStop.failed.inj (Except.error.inj e) ▸ restoreFault_memOk h hf e2
      · split at e
        · next hw => exact restoreWaves_error_failed_memOk h hw (Except.error.inj e) e2
        · next hw =>
          have hw := restoreWaves_memOk h hw
          split at e
          · next ha =>
            split at ha
            · exact RestoreStop.failed.inj (Except.error.inj e) ▸ restoreAreas_error_memOk hw ha e2
            · cases ha
          · cases e

theorem stopRestore_memOk {s : State} {a} (h : s.memOk) (hg : ∀ t, a = .gone t → t.memOk)
    (hf : ∀ f, a = .failed f → (f s).memOk) : (s.stopRestore a).memOk := by
  cases a with
  | failed f => exact hf f rfl
  | gone t => exact hg t rfl
  | noReg c k => exact spillWave_memOk h
  | waits => exact h

theorem restoreEach_memOk {s0 : State} {s : State} {a t} (h : s0.memOk) (h1 : s.memOk) (e : s0.restoreEach s a = some t) :
    t.memOk := by
  fun_induction s0.restoreEach s a generalizing t
  all_goals grind [stopRestore_memOk, restoring_memOk, restoring_error_gone_memOk, restoring_error_failed_memOk]

theorem restoreGroup_memOk {s : State} {t u} (h : s.memOk) (e : s.restoreGroup t = some u) : u.memOk := by
  unfold State.restoreGroup at e
  grind [restoreEach_memOk]

theorem delist_memOk {s : State} {l} (h : s.memOk) : (s.delist l).memOk := by
  unfold State.delist
  grind [State.memOk]

theorem addWave_memOk {s : State} {h team c k index member field2 ordinal prio} (h' : s.memOk) :
    (s.addWave h team c k index member field2 ordinal prio).memOk := by
  unfold State.addWave
  grind [setWave_memOk, modCore_memOk, newId_memOk, foldl_memOk, State.memOk]

theorem readJigWords_memOk {s : State} {c ctx ga a} (h : s.memOk) : ((s.readJigWords c ctx ga a).1).memOk := by
  induction a generalizing s ga with
  | zero => exact h
  | succ n ih =>
    unfold State.readJigWords
    have hr := vaRead_memOk (via := .core c) (ctx := ctx) (va := ga) (n := 4) h
    grind

theorem readProgram_memOk {s : State} {c ctx ga} (h : s.memOk) : ((s.readProgram c ctx ga).1).memOk := by
  unfold State.readProgram
  grind [readJigWords_memOk]

theorem startTeam_memOk {s : State} {l ordinal ms fresh entry} (h : s.memOk) : (s.startTeam l ordinal ms fresh entry).memOk := by
  have h1 := zeroBench_memOk (ms := fresh) (size := (s.launch l).hdr.benchSize) (newId_memOk h)
  unfold State.startTeam
  dsimp only
  refine modLaunch_memOk ?_
  refine ite_memOk _ _ _ ?_ (foldl_memOk ?_ fun u m hu => ?_)
  case refine_3 =>
    have hr := readProgram_memOk (c := m.core) (ctx := (s.launch l).hdr.ctx) (ga := (s.launch l).hdr.jigp) hu
    grind [modCore_memOk, postFault_memOk]
  all_goals
    refine foldl_memOk ?_ fun s i hs => ?_
    · split
      · exact Memory.wf_writeBytes _ _ _ (foldl_memOk h1 fun _ _ => modCore_memOk)
      · exact foldl_memOk h1 fun _ _ => modCore_memOk
    · split
      · exact hs
      · exact foldl_memOk hs fun _ _ => addWave_memOk

theorem startNext_memOk {s : State} {l handed ms fresh} (h : s.memOk) : (s.startNext l handed ms fresh).memOk := by
  unfold State.startNext
  grind [startTeam_memOk, modLaunch_memOk, State.memOk]

theorem placeHanded_memOk {s : State} {l t} (h : s.memOk) (e : s.placeHanded l = some t) : t.memOk := by
  unfold State.placeHanded at e
  dsimp only at e
  split at e
  · cases e
  · exact map_memOk (fun _ _ => startNext_memOk (modLaunch_memOk h)) e

theorem placeTeam_memOk {s : State} {l t} (h : s.memOk) (e : s.placeTeam l = some t) : t.memOk := by
  unfold State.placeTeam at e
  dsimp only at e
  split at e
  · exact placeHanded_memOk h e
  · exact map_memOk (fun _ _ => startNext_memOk h) e

theorem placeAll_memOk {s : State} {l a t} (h : s.memOk) (e : s.placeAll l a = some t) : t.memOk := by
  fun_induction s.placeAll l a generalizing t
  all_goals grind [placeTeam_memOk]

theorem cancelGrants_memOk {s : State} {l} (h : s.memOk) : (s.cancelGrants l).memOk := by
  unfold State.cancelGrants
  grind [modCore_memOk, modLaunch_memOk, foldl_memOk, foldl_fst_memOk]

theorem commitCluster_memOk {s : State} {l} (h : s.memOk) : (s.commitCluster l).memOk := by
  unfold State.commitCluster
  grind [cancelGrants_memOk, startNext_memOk, modLaunch_memOk]

theorem reserveCluster_memOk {s : State} {l} (h : s.memOk) : (s.reserveCluster l).memOk := by
  unfold State.reserveCluster
  grind [modCore_memOk, cancelGrants_memOk, modLaunch_memOk, foldl_memOk]

theorem placeSome_memOk {s : State} {l t} (h : s.memOk) (e : s.placeSome l = some t) : t.memOk := by
  unfold State.placeSome at e
  grind [reserveCluster_memOk, placeTeam_memOk, placeAll_memOk, commitCluster_memOk]

theorem placeOne_memOk {s : State} {l t} (h : s.memOk) (e : s.placeOne l = some t) : t.memOk := by
  unfold State.placeOne at e
  split at e
  · cases e
  · split at e
    · split at e
      · cases e
      · exact map_memOk (fun _ ht => delist_memOk (placeSome_memOk (modLaunch_memOk h) ht)) e
    · exact map_memOk (fun _ ht => delist_memOk (placeSome_memOk h ht)) e

theorem startSave_memOk {s : State} {t} (h : s.memOk) : (s.startSave t).memOk := by
  unfold State.startSave
  grind [modTeam_memOk, modWave_memOk, foldl_memOk, foldl_fst_memOk]

theorem preempt_memOk {s : State} {l t} (h : s.memOk) (e : s.preempt l = some t) : t.memOk := by
  unfold State.preempt at e
  grind [startSave_memOk, modLaunch_memOk, foldl_memOk]

theorem dispatchAt_memOk {s : State} {p t} (h : s.memOk) (e : s.dispatchAt p = some t) : t.memOk := by
  unfold State.dispatchAt at e
  dsimp only at e
  split at e
  · next hb => exact Option.some.inj e ▸ findSome_memOk (fun _ _ => restoreGroup_memOk h) hb
  · grind [preempt_memOk, placeOne_memOk, modLaunch_memOk, delist_memOk]

theorem execTeamPlacement_memOk {s : State} {t} (h : s.memOk) (e : execTeamPlacement s = .next t) : t.memOk :=
  Host.Outcome.next.inj e ▸ getD_memOk h (fun _ => findSome_memOk (fun _ _ => dispatchAt_memOk h))

theorem execClusterRetry_memOk {s : State} {launch t} (h : s.memOk) (e : execClusterRetry launch s = .next t) : t.memOk :=
  Host.Outcome.next.inj e ▸ ite_memOk _ _ _ (getD_memOk h (fun _ => placeOne_memOk h)) h

theorem execReservationExpiry_memOk {s : State} {launch t} (h : s.memOk) (e : execReservationExpiry launch s = .next t) : t.memOk := by
  unfold execReservationExpiry at e
  grind [cancelGrants_memOk]

theorem execTeamRestore_memOk {s : State} {team t} (h : s.memOk) (e : execTeamRestore team s = .next t) : t.memOk :=
  Host.Outcome.next.inj e ▸ getD_memOk h (fun _ => restoreGroup_memOk h)

theorem settleAuto_memOk {s : State} (h : s.memOk) : s.settleAuto.memOk := by
  unfold State.settleAuto
  grind [enlist_memOk, delist_memOk, foldl_memOk, foldl_fst_memOk]

theorem execAutoLaunch_memOk {s : State} {q t} (h : s.memOk) (e : execAutoLaunch q s = .next t) : t.memOk := by
  have hs := settleAuto_memOk h
  unfold execAutoLaunch at e
  obtain rfl := Host.Outcome.next.inj e
  split
  · exact ite_memOk _ _ _ hs (getD_memOk hs (fun _ => findSome_memOk (fun _ _ => dispatchAt_memOk hs)))
  · exact hs

/-! ### Control instructions -/

theorem execNop_memOk {s : State} {o t} (h : s.memOk) (e : execNop o s = .next t) : t.memOk := by
  unfold execNop at e
  refine simt_memOk h (fun _ _ => noPre_memOk) (fun s x act h => ⟨fun fx e => ?_, fun st e => ?_⟩) e
  · grind
  · grind

theorem lenThere_memOk {s : State} {c w ctx pc} (h : s.memOk) : ((s.lenThere c w ctx pc).1).memOk := by
  unfold State.lenThere
  grind [fetchWord_memOk]

theorem lenFor_memOk {s : State} {c w y} (h : s.memOk) : ((s.lenFor c w y).1).memOk := by
  unfold State.lenFor
  grind [lenThere_memOk]

theorem endLen_memOk {s : State} {x left} (h : s.memOk) : ((s.endLen x left).1).memOk := by
  unfold State.endLen
  grind [lenFor_memOk]

theorem endThreads_memOk {s : State} {c w m} (h : s.memOk) : (s.endThreads c w m).memOk := by
  unfold State.endThreads
  grind [modWave_memOk]

theorem discardDeposits_memOk {s : State} {c x} (h : s.memOk) : (s.discardDeposits c x).memOk := by
  unfold State.discardDeposits
  grind [depositStatus_memOk, foldl_memOk]

theorem waveOver_memOk {s : State} {c w} (h : s.memOk) : (s.waveOver c w).memOk := by
  unfold State.waveOver
  grind [releaseTeam_memOk, unregister_memOk, discardDeposits_memOk, promote_memOk, sweep_memOk, modWave_memOk]

theorem leaveWaits_memOk {s : State} {c w step2} (h : s.memOk) : (s.leaveWaits c w step2).memOk := by
  unfold State.leaveWaits
  grind [dropWait_memOk, abandon_memOk, foldl_memOk]

theorem afterEnd_memOk {s : State} {c w src} (h : s.memOk) : (s.afterEnd c w src).memOk := by
  unfold State.afterEnd
  grind [waveOver_memOk, lenFor_memOk, abandonAll_memOk, modWave_memOk, leaveWaits_memOk]

theorem execHalt_memOk {s : State} {o retain t} (h : s.memOk) (e : execHalt o retain s = .next t) : t.memOk := by
  unfold execHalt at e
  split at e
  · next u hu =>
    have hm := simt_memOk h (fun _ _ => noPre_memOk) (fun s x act h => ⟨fun fx e => ?_, fun st e => ?_⟩) hu
    · obtain rfl := Host.Outcome.next.inj e
      split
      · exact afterEnd_memOk hm
      · exact hm
    · grind [modTeam_memOk, endLen_memOk, endThreads_memOk]
    · grind [endLen_memOk, Stop.memOk]
  · next hn => exact absurd e (hn t)

theorem softTrap_memOk {s : State} {o e t} (h : s.memOk) (e' : softTrap o e s = .next t) : t.memOk := by
  unfold softTrap at e'
  refine simt_memOk h (fun _ _ => noPre_memOk) (fun s x act h => ⟨fun fx e => ?_, fun st e => ?_⟩) e'
  · grind [sources_error_memOk, Stop.memOk]
  · grind [sources_error_memOk, Stop.memOk]

theorem execTrap_memOk {s : State} {o t} (h : s.memOk) (e : execTrap o s = .next t) : t.memOk := by
  unfold execTrap at e
  grind [softTrap_memOk]

theorem execEret_memOk {s : State} {o t} (h : s.memOk) (e : execEret o s = .next t) : t.memOk := by
  unfold execEret at e
  split at e
  · next u hu =>
    have hm := simt_memOk h (fun _ _ => noPre_memOk) (fun s x act h => ⟨fun fx e => ?_, fun st e => ?_⟩) hu
    · obtain rfl := Host.Outcome.next.inj e
      split
      · exact modWave_memOk hm
      · exact hm
    · grind [modNow_memOk, lenFor_memOk, abandonAll_memOk, leaveWaits_memOk]
    · grind [lenFor_memOk, Iss.trap_memOk, Stop.memOk]
  · next hn => exact absurd e (hn t)

theorem execCsrr_memOk {s : State} {o t} (h : s.memOk) (e : execCsrr o s = .next t) : t.memOk := by
  unfold execCsrr at e
  refine simt_memOk h (fun _ _ => noPre_memOk) (fun s x act h => ⟨fun fx e => ?_, fun st e => ?_⟩) e
  · grind [putVec_memOk, putVec_error_memOk, Iss.names_error_memOk, putScalar_memOk, putScalar_error_memOk, Stop.memOk]
  · grind [putVec_memOk, putVec_error_memOk, Iss.names_error_memOk, putScalar_memOk, putScalar_error_memOk, Stop.memOk]

theorem execCsrw_memOk {s : State} {o t} (h : s.memOk) (e : execCsrw o s = .next t) : t.memOk := by
  unfold execCsrw at e
  refine simt_memOk h (fun _ _ => noPre_memOk) (fun s x act h => ⟨fun fx e => ?_, fun st e => ?_⟩) e
  · grind [modNow_memOk, Iss.trap_memOk, sources_error_memOk, Stop.memOk]
  · grind [modNow_memOk, Iss.trap_memOk, sources_error_memOk, Stop.memOk]

theorem execCsrx_memOk {s : State} {o t} (h : s.memOk) (e : execCsrx o s = .next t) : t.memOk := by
  unfold execCsrx at e
  refine simt_memOk h (fun _ _ => noPre_memOk) (fun s x act h => ⟨fun fx e => ?_, fun st e => ?_⟩) e
  · grind [modNow_memOk, Iss.trap_memOk, sources_error_memOk, putScalar_memOk, putScalar_error_memOk, Stop.memOk]
  · grind [modNow_memOk, Iss.trap_memOk, sources_error_memOk, putScalar_memOk, putScalar_error_memOk, Stop.memOk]

theorem yieldWave_memOk {s : State} {c w} (h : s.memOk) : (s.yieldWave c w).memOk := by
  unfold State.yieldWave
  grind [newId_memOk, modWave_memOk]

theorem execSleep_memOk {s : State} {o t} (h : s.memOk) (e : execSleep o s = .next t) : t.memOk := by
  unfold execSleep at e
  refine simt_memOk h (fun _ _ => noPre_memOk) (fun s x act h => ⟨fun fx e => ?_, fun st e => ?_⟩) e
  · grind [yieldWave_memOk, sources_error_memOk, Stop.memOk]
  · grind [yieldWave_memOk, sources_error_memOk, Stop.memOk]

theorem execYld_memOk {s : State} {o t} (h : s.memOk) (e : execYld o s = .next t) : t.memOk := by
  unfold execYld at e
  refine simt_memOk h (fun _ _ => noPre_memOk) (fun s x act h => ⟨fun fx e => ?_, fun st e => ?_⟩) e
  · grind [yieldWave_memOk]
  · grind [yieldWave_memOk]

theorem execBrk_memOk {s : State} {o t} (h : s.memOk) (e : execBrk o s = .next t) : t.memOk := by
  unfold execBrk at e
  grind [softTrap_memOk]

theorem execTmark_memOk {s : State} {o t} (h : s.memOk) (e : execTmark o s = .next t) : t.memOk := by
  unfold execTmark at e
  refine simt_memOk h (fun _ _ => noPre_memOk) (fun s x act h => ⟨fun fx e => ?_, fun st e => ?_⟩) e
  · grind [traceWave_memOk, sources_error_memOk, Stop.memOk]
  · grind [traceWave_memOk, sources_error_memOk, Stop.memOk]

theorem execBra_memOk {s : State} {o t} (h : s.memOk) (e : execBra o s = .next t) : t.memOk := by
  unfold execBra at e
  refine simt_memOk h (fun _ _ => noPre_memOk) (fun s x act h => ⟨fun fx e => ?_, fun st e => ?_⟩) e
  · grind
  · grind

theorem flowFx_memOk {s : State} {x fl access} (h : s.memOk) : (flowFx s x fl access).s.memOk := by
  unfold flowFx
  grind

theorem execJmp_memOk {s : State} {o t} (h : s.memOk) (e : execJmp o s = .next t) : t.memOk := by
  unfold execJmp at e
  refine simt_memOk h (fun _ _ => noPre_memOk) (fun s x act h => ⟨fun fx e => ?_, fun st e => ?_⟩) e
  · grind [flowFx_memOk, sources_error_memOk, Stop.memOk]
  · grind [flowFx_memOk, sources_error_memOk, Stop.memOk]

theorem stackLanes_memOk {f : State → Nat → StackRes × (DWord → Flow)} {ls : List Nat} {s : State} {p : State × List (Nat × Flow)}
    (h : s.memOk) (hf : ∀ s l t v, s.memOk → (f s l).1 = .ok t v → t.memOk) (e : stackLanes f s ls = some p) : p.1.memOk := by
  induction ls generalizing s p with
  | nil => cases e; exact h
  | cons l ls ih =>
    unfold stackLanes at e
    split at e
    · cases e
    · obtain ⟨q, hq, rfl⟩ := Option.map_eq_some_iff.1 e
      exact ih (p := q) h hq
    · next t v g hl =>
      have ht : t.memOk := hf s l t v h (by rw [hl])
      split at e <;> obtain ⟨q, hq, rfl⟩ := Option.map_eq_some_iff.1 e
      · exact ih (p := q) h hq
      · exact ih (p := q) ht hq

theorem stackFx_memOk {s : State} {x : Iss} {act : Mask} {access : Nat} {f : State → Nat → StackRes × (DWord → Flow)} {fx : Fx}
    (h : s.memOk) (hf : ∀ s l t v, s.memOk → (f s l).1 = .ok t v → t.memOk) (e : stackFx s x act access f = .ok fx) : fx.s.memOk := by
  unfold stackFx at e
  split at e
  · cases e
  · next hl => exact Except.ok.inj e ▸ flowFx_memOk (stackLanes_memOk h hf hl)

theorem stackFx_error_memOk {s : State} {x : Iss} {act : Mask} {access : Nat} {f : State → Nat → StackRes × (DWord → Flow)} {st : Stop}
    (e : stackFx s x act access f = .error st) : st.memOk := by
  unfold stackFx at e
  split at e
  · exact Except.error.inj e ▸ trivial
  · cases e

theorem placeLane_memOk {s : State} {c t ctx f va bad} (h : s.memOk) : ((s.placeLane c t ctx f va bad).1).memOk := by
  unfold State.placeLane
  grind [place_memOk]

theorem spillAccess_memOk {s : State} {x k va l v t y} (h : s.memOk) (e : s.spillAccess x k va l v = .ok t y) : t.memOk := by
  unfold State.spillAccess at e
  grind [placeLane_memOk, storeLane_memOk, readLane_memOk]

theorem pushLane_memOk {s : State} {x l v t y} (h : s.memOk) (e : s.pushLane x l v = .ok t y) : t.memOk := by
  unfold State.pushLane at e
  grind [modNow_memOk, spillAccess_memOk]

theorem callFx_memOk {s : State} {x act t u} (h : s.memOk) (e : callFx s x act t = .ok u) : u.s.memOk := by
  unfold callFx at e
  grind [pushLane_memOk, stackFx_memOk, stackFx_error_memOk, Stop.memOk]

theorem callFx_error_memOk {s : State} {x act t u} (h : s.memOk) (e : callFx s x act t = .error u) : u.memOk := by
  unfold callFx at e
  grind [pushLane_memOk, stackFx_memOk, stackFx_error_memOk, Stop.memOk]

theorem execCall_memOk {s : State} {o t} (h : s.memOk) (e : execCall o s = .next t) : t.memOk := by
  unfold execCall at e
  refine simt_memOk h (fun _ _ => noPre_memOk) (fun s x act h => ⟨fun fx e => ?_, fun st e => ?_⟩) e
  · grind [callFx_memOk, callFx_error_memOk]
  · grind [callFx_memOk, callFx_error_memOk]

theorem execCalli_memOk {s : State} {o t} (h : s.memOk) (e : execCalli o s = .next t) : t.memOk := by
  unfold execCalli at e
  refine simt_memOk h (fun _ _ => noPre_memOk) (fun s x act h => ⟨fun fx e => ?_, fun st e => ?_⟩) e
  · grind [callFx_memOk, callFx_error_memOk, sources_error_memOk, Stop.memOk]
  · grind [callFx_memOk, callFx_error_memOk, sources_error_memOk, Stop.memOk]

theorem popLane_memOk {s : State} {x l t y} (h : s.memOk) (e : s.popLane x l = .ok t y) : t.memOk := by
  unfold State.popLane at e
  grind [modNow_memOk, spillAccess_memOk]

theorem execRet_memOk {s : State} {o t} (h : s.memOk) (e : execRet o s = .next t) : t.memOk := by
  unfold execRet at e
  refine simt_memOk h (fun _ _ => noPre_memOk) (fun s x act h => ⟨fun fx e => ?_, fun st e => ?_⟩) e
  · grind [popLane_memOk, stackFx_memOk, stackFx_error_memOk]
  · grind [popLane_memOk, stackFx_memOk, stackFx_error_memOk]

theorem execBrv_memOk {s : State} {o v t} (h : s.memOk) (e : execBrv o v s = .next t) : t.memOk := by
  unfold execBrv at e
  refine simt_memOk h (fun _ _ => noPre_memOk) (fun s x act h => ⟨fun fx e => ?_, fun st e => ?_⟩) e
  · grind [sources_error_memOk, Stop.memOk]
  · grind [sources_error_memOk, Stop.memOk]

theorem execRghint_memOk {s : State} {o t} (h : s.memOk) (e : execRghint o s = .next t) : t.memOk := by
  unfold execRghint at e
  refine simt_memOk h (fun _ _ => noPre_memOk) (fun s x act h => ⟨fun fx e => ?_, fun st e => ?_⟩) e
  · grind [modNow_memOk]
  · grind [modNow_memOk]

/-! ### Arithmetic instructions -/

theorem putResult_memOk {s : State} {x act o h key ns r t} (h' : s.memOk) (e : s.putResult x act o h key ns r = .ok t) :
    t.s.memOk := by
  unfold State.putResult at e
  grind [reuseAdd_memOk, putPred_memOk, putPred_error_memOk, putVec_memOk, putVec_error_memOk, putScalar_memOk,
    putScalar_error_memOk, Stop.memOk]

theorem putResult_error_memOk {s : State} {x act o h key ns r t} (h' : s.memOk) (e : s.putResult x act o h key ns r = .error t) :
    t.memOk := by
  unfold State.putResult at e
  grind [reuseAdd_memOk, putPred_memOk, putPred_error_memOk, putVec_memOk, putVec_error_memOk, putScalar_memOk,
    putScalar_error_memOk, Stop.memOk]

/-- A check of operands stops without a state. -/
def CheckOk (chk : OperandCheck) : Prop := ∀ x act a b c e, chk x act a b c = some e → e.memOk

theorem noCheck_ok : CheckOk noCheck := by
  intro x act a b c e h
  cases h

theorem groupCheck_ok {o n} : CheckOk (groupCheck o n) := by
  intro x act a b c e h
  exact (ite_eq_iff.1 h).elim (fun h => nomatch h.2) (fun h => Option.some.inj h.2 ▸ trivial)

theorem aluBody_resOk {s : State} {o op h chk f x act} (h' : s.memOk) (hc : CheckOk chk) : ResOk (aluBody o op h chk f s x act) := by
  unfold aluBody
  dsimp only
  split
  · next hn => exact .error (Iss.namesOk_error_memOk hn)
  · split
    · next hr => exact .error (readOpds_error_memOk h' hr)
    · split
      · next hn =>
        split at hn
        · exact .error (Iss.names_error_memOk hn)
        · cases hn
      · split
        · next hk => exact .error (hc _ _ _ _ _ _ hk)
        · split
          · split
            · next hr => exact ⟨fun _ => reuseHit_memOk h' hr, fun _ => reuseHit_error_memOk h' hr⟩
            · exact ⟨fun _ => putResult_memOk h', fun _ => putResult_error_memOk h'⟩
          · exact ⟨fun _ => putResult_memOk h', fun _ => putResult_error_memOk h'⟩

theorem alu_memOk {s : State} {o op h f t} (h' : s.memOk) (e : alu s o op h f = .next t) : t.memOk :=
  simt_memOk h' (fun _ _ => noPre_memOk) (fun _ _ _ h => aluBody_resOk h noCheck_ok) e

theorem execIadd_memOk {s : State} {o t sat u} (h : s.memOk) (e : execIadd o t sat s = .next u) : u.memOk := by
  unfold execIadd at e
  grind [alu_memOk]

theorem execIsub_memOk {s : State} {o t sat u} (h : s.memOk) (e : execIsub o t sat s = .next u) : u.memOk := by
  unfold execIsub at e
  grind [alu_memOk]

theorem carryBody_resOk {s : State} {o sub x act} (h : s.memOk) : ResOk (carryBody o sub s x act) := by
  unfold carryBody
  dsimp only
  split
  · next hn => exact .error (Iss.namesOk_error_memOk hn)
  · split
    · next hr => exact .error (readOpds_error_memOk h hr)
    · split
      · next hn =>
        split at hn
        · exact .error (Iss.names_error_memOk hn)
        · cases hn
      · split
        · next hp => exact .error (putResult_error_memOk h hp)
        · next hp =>
          have hp := putResult_memOk h hp
          split
          · next hq => exact .error (putPred_error_memOk hp hq)
          · next hq => exact .ok (putPred_memOk hp hq)

theorem carryBody_memOk {s : State} {o sub x act t} (h : s.memOk) (e : carryBody o sub s x act = .ok t) : t.s.memOk :=
  (carryBody_resOk h).1 t e

theorem carryBody_error_memOk {s : State} {o sub x act t} (h : s.memOk) (e : carryBody o sub s x act = .error t) : t.memOk :=
  (carryBody_resOk h).2 t e

theorem execIaddc_memOk {s : State} {o _t t} (h : s.memOk) (e : execIaddc o _t s = .next t) : t.memOk := by
  unfold execIaddc at e
  refine simt_memOk h (fun _ _ => noPre_memOk) (fun s x act h => ⟨fun fx e => ?_, fun st e => ?_⟩) e
  · grind [carryBody_memOk, carryBody_error_memOk]
  · grind [carryBody_memOk, carryBody_error_memOk]

theorem execIsubb_memOk {s : State} {o _t t} (h : s.memOk) (e : execIsubb o _t s = .next t) : t.memOk := by
  unfold execIsubb at e
  refine simt_memOk h (fun _ _ => noPre_memOk) (fun s x act h => ⟨fun fx e => ?_, fun st e => ?_⟩) e
  · grind [carryBody_memOk, carryBody_error_memOk]
  · grind [carryBody_memOk, carryBody_error_memOk]

theorem execIneg_memOk {s : State} {o t sat u} (h : s.memOk) (e : execIneg o t sat s = .next u) : u.memOk := by
  unfold execIneg at e
  grind [alu_memOk]

theorem execIabs_memOk {s : State} {o t sat u} (h : s.memOk) (e : execIabs o t sat s = .next u) : u.memOk := by
  unfold execIabs at e
  grind [alu_memOk]

theorem execImin_memOk {s : State} {o t u} (h : s.memOk) (e : execImin o t s = .next u) : u.memOk := by
  unfold execImin at e
  grind [alu_memOk]

theorem execImax_memOk {s : State} {o t u} (h : s.memOk) (e : execImax o t s = .next u) : u.memOk := by
  unfold execImax at e
  grind [alu_memOk]

theorem execAnd_memOk {s : State} {o t u} (h : s.memOk) (e : execAnd o t s = .next u) : u.memOk := by
  unfold execAnd at e
  grind [alu_memOk]

theorem execOr_memOk {s : State} {o t u} (h : s.memOk) (e : execOr o t s = .next u) : u.memOk := by
  unfold execOr at e
  grind [alu_memOk]

theorem execXor_memOk {s : State} {o t u} (h : s.memOk) (e : execXor o t s = .next u) : u.memOk := by
  unfold execXor at e
  grind [alu_memOk]

theorem execAndn_memOk {s : State} {o t u} (h : s.memOk) (e : execAndn o t s = .next u) : u.memOk := by
  unfold execAndn at e
  grind [alu_memOk]

theorem execNot_memOk {s : State} {o t u} (h : s.memOk) (e : execNot o t s = .next u) : u.memOk := by
  unfold execNot at e
  grind [alu_memOk]

theorem execShl_memOk {s : State} {o t u} (h : s.memOk) (e : execShl o t s = .next u) : u.memOk := by
  unfold execShl at e
  grind [alu_memOk]

theorem execShr_memOk {s : State} {o t u} (h : s.memOk) (e : execShr o t s = .next u) : u.memOk := by
  unfold execShr at e
  grind [alu_memOk]

theorem execSar_memOk {s : State} {o t u} (h : s.memOk) (e : execSar o t s = .next u) : u.memOk := by
  unfold execSar at e
  grind [alu_memOk]

theorem execRol_memOk {s : State} {o t u} (h : s.memOk) (e : execRol o t s = .next u) : u.memOk := by
  unfold execRol at e
  grind [alu_memOk]

theorem execIset_memOk {s : State} {o t c u} (h : s.memOk) (e : execIset o t c s = .next u) : u.memOk := by
  unfold execIset at e
  grind [alu_memOk]

theorem execImul_memOk {s : State} {o t u} (h : s.memOk) (e : execImul o t s = .next u) : u.memOk := by
  unfold execImul at e
  grind [alu_memOk]

theorem execImulh_memOk {s : State} {o t u} (h : s.memOk) (e : execImulh o t s = .next u) : u.memOk := by
  unfold execImulh at e
  grind [alu_memOk]

theorem execImad_memOk {s : State} {o t u} (h : s.memOk) (e : execImad o t s = .next u) : u.memOk := by
  unfold execImad at e
  grind [alu_memOk]

theorem execImadw_memOk {s : State} {o t u} (h : s.memOk) (e : execImadw o t s = .next u) : u.memOk := by
  unfold execImadw at e
  grind [alu_memOk]

theorem execPopc_memOk {s : State} {o t u} (h : s.memOk) (e : execPopc o t s = .next u) : u.memOk := by
  unfold execPopc at e
  grind [alu_memOk]

theorem execClz_memOk {s : State} {o t u} (h : s.memOk) (e : execClz o t s = .next u) : u.memOk := by
  unfold execClz at e
  grind [alu_memOk]

theorem execCtz_memOk {s : State} {o t u} (h : s.memOk) (e : execCtz o t s = .next u) : u.memOk := by
  unfold execCtz at e
  grind [alu_memOk]

theorem execBrev_memOk {s : State} {o t u} (h : s.memOk) (e : execBrev o t s = .next u) : u.memOk := by
  unfold execBrev at e
  grind [alu_memOk]

theorem execBfe_memOk {s : State} {o t u} (h : s.memOk) (e : execBfe o t s = .next u) : u.memOk := by
  unfold execBfe at e
  grind [alu_memOk]

theorem execBfi_memOk {s : State} {o t u} (h : s.memOk) (e : execBfi o t s = .next u) : u.memOk := by
  unfold execBfi at e
  grind [alu_memOk]

theorem execFshl_memOk {s : State} {o t u} (h : s.memOk) (e : execFshl o t s = .next u) : u.memOk := by
  unfold execFshl at e
  grind [alu_memOk]

theorem execFshr_memOk {s : State} {o t u} (h : s.memOk) (e : execFshr o t s = .next u) : u.memOk := by
  unfold execFshr at e
  grind [alu_memOk]

theorem execBperm_memOk {s : State} {o t u} (h : s.memOk) (e : execBperm o t s = .next u) : u.memOk := by
  unfold execBperm at e
  grind [alu_memOk]

theorem execLea_memOk {s : State} {o k t} (h : s.memOk) (e : execLea o k s = .next t) : t.memOk := by
  unfold execLea at e
  grind [alu_memOk]

theorem execIadd64_memOk {s : State} {o t} (h : s.memOk) (e : execIadd64 o s = .next t) : t.memOk := by
  unfold execIadd64 at e
  grind [alu_memOk]

theorem execIsub64_memOk {s : State} {o t} (h : s.memOk) (e : execIsub64 o s = .next t) : t.memOk := by
  unfold execIsub64 at e
  grind [alu_memOk]

theorem execIset64_memOk {s : State} {o c signed t} (h : s.memOk) (e : execIset64 o c signed s = .next t) : t.memOk := by
  unfold execIset64 at e
  grind [alu_memOk]

theorem execMov_memOk {s : State} {o pair t} (h : s.memOk) (e : execMov o pair s = .next t) : t.memOk := by
  unfold execMov at e
  grind [alu_memOk]

theorem execMovi_memOk {s : State} {o pair t} (h : s.memOk) (e : execMovi o pair s = .next t) : t.memOk := by
  unfold execMovi at e
  grind [alu_memOk]

theorem execSel_memOk {s : State} {o pair t} (h : s.memOk) (e : execSel o pair s = .next t) : t.memOk := by
  unfold execSel at e
  grind [alu_memOk]

theorem smovBody_memOk {s : State} {o pair x act t} (h : s.memOk) (e : smovBody o pair s x act = .ok t) : t.s.memOk := by
  unfold smovBody at e
  grind [readOpd_error_memOk, modNow_memOk, modCore_memOk, Iss.trap_memOk, Iss.names_error_memOk, newId_memOk, putScalar_memOk,
    putScalar_error_memOk, Stop.memOk]

theorem smovBody_error_memOk {s : State} {o pair x act t} (h : s.memOk) (e : smovBody o pair s x act = .error t) : t.memOk := by
  unfold smovBody at e
  grind [readOpd_error_memOk, modNow_memOk, modCore_memOk, Iss.trap_memOk, Iss.names_error_memOk, newId_memOk, putScalar_memOk,
    putScalar_error_memOk, Stop.memOk]

theorem execSmov_memOk {s : State} {o pair t} (h : s.memOk) (e : execSmov o pair s = .next t) : t.memOk := by
  unfold execSmov at e
  refine simt_memOk h (fun _ _ => noPre_memOk) (fun s x act h => ⟨fun fx e => ?_, fun st e => ?_⟩) e
  · grind [smovBody_memOk, smovBody_error_memOk]
  · grind [smovBody_memOk, smovBody_error_memOk]

theorem ftstBody_memOk {s : State} {o pair x act t} (h : s.memOk) (e : ftstBody o pair s x act = .ok t) : t.s.memOk := by
  unfold ftstBody at e
  grind [putPred_memOk, putPred_error_memOk, Iss.names_error_memOk, Stop.memOk]

theorem ftstBody_error_memOk {s : State} {o pair x act t} (h : s.memOk) (e : ftstBody o pair s x act = .error t) : t.memOk := by
  unfold ftstBody at e
  grind [putPred_memOk, putPred_error_memOk, Iss.names_error_memOk, Stop.memOk]

theorem execFtst_memOk {s : State} {o pair t} (h : s.memOk) (e : execFtst o pair s = .next t) : t.memOk := by
  unfold execFtst at e
  refine simt_memOk h (fun _ _ => noPre_memOk) (fun s x act h => ⟨fun fx e => ?_, fun st e => ?_⟩) e
  · grind [ftstBody_memOk, ftstBody_error_memOk]
  · grind [ftstBody_memOk, ftstBody_error_memOk]

theorem execPlop_memOk {s : State} {o tt t} (h : s.memOk) (e : execPlop o tt s = .next t) : t.memOk := by
  unfold execPlop at e
  grind [alu_memOk]

theorem execPset_memOk {s : State} {o v t} (h : s.memOk) (e : execPset o v s = .next t) : t.memOk := by
  unfold execPset at e
  grind [alu_memOk]

theorem execPmov_memOk {s : State} {o t} (h : s.memOk) (e : execPmov o s = .next t) : t.memOk := by
  unfold execPmov at e
  grind [alu_memOk]

theorem execFadd_memOk {s : State} {o r t} (h : s.memOk) (e : execFadd o r s = .next t) : t.memOk := by
  unfold execFadd at e
  grind [alu_memOk]

theorem execFsub_memOk {s : State} {o r t} (h : s.memOk) (e : execFsub o r s = .next t) : t.memOk := by
  unfold execFsub at e
  grind [alu_memOk]

theorem execFmul_memOk {s : State} {o r t} (h : s.memOk) (e : execFmul o r s = .next t) : t.memOk := by
  unfold execFmul at e
  grind [alu_memOk]

theorem execFmac_memOk {s : State} {o r t} (h : s.memOk) (e : execFmac o r s = .next t) : t.memOk := by
  unfold execFmac at e
  grind [alu_memOk]

theorem execFmin_memOk {s : State} {o t} (h : s.memOk) (e : execFmin o s = .next t) : t.memOk := by
  unfold execFmin at e
  grind [alu_memOk]

theorem execFmax_memOk {s : State} {o t} (h : s.memOk) (e : execFmax o s = .next t) : t.memOk := by
  unfold execFmax at e
  grind [alu_memOk]

theorem execFset_memOk {s : State} {o c t} (h : s.memOk) (e : execFset o c s = .next t) : t.memOk := by
  unfold execFset at e
  grind [alu_memOk]

theorem execFclass_memOk {s : State} {o t} (h : s.memOk) (e : execFclass o s = .next t) : t.memOk := by
  unfold execFclass at e
  grind [alu_memOk]

theorem execFrnd_memOk {s : State} {o r t} (h : s.memOk) (e : execFrnd o r s = .next t) : t.memOk := by
  unfold execFrnd at e
  grind [alu_memOk]

theorem execFscale_memOk {s : State} {o r t} (h : s.memOk) (e : execFscale o r s = .next t) : t.memOk := by
  unfold execFscale at e
  grind [alu_memOk]

theorem execFexp_memOk {s : State} {o t} (h : s.memOk) (e : execFexp o s = .next t) : t.memOk := by
  unfold execFexp at e
  grind [alu_memOk]

theorem execDadd_memOk {s : State} {o r t} (h : s.memOk) (e : execDadd o r s = .next t) : t.memOk := by
  unfold execDadd at e
  grind [alu_memOk]

theorem execDsub_memOk {s : State} {o r t} (h : s.memOk) (e : execDsub o r s = .next t) : t.memOk := by
  unfold execDsub at e
  grind [alu_memOk]

theorem execDmul_memOk {s : State} {o r t} (h : s.memOk) (e : execDmul o r s = .next t) : t.memOk := by
  unfold execDmul at e
  grind [alu_memOk]

theorem execDmac_memOk {s : State} {o r t} (h : s.memOk) (e : execDmac o r s = .next t) : t.memOk := by
  unfold execDmac at e
  grind [alu_memOk]

theorem execDmin_memOk {s : State} {o t} (h : s.memOk) (e : execDmin o s = .next t) : t.memOk := by
  unfold execDmin at e
  grind [alu_memOk]

theorem execDmax_memOk {s : State} {o t} (h : s.memOk) (e : execDmax o s = .next t) : t.memOk := by
  unfold execDmax at e
  grind [alu_memOk]

theorem execDset_memOk {s : State} {o c t} (h : s.memOk) (e : execDset o c s = .next t) : t.memOk := by
  unfold execDset at e
  grind [alu_memOk]

theorem execDrnd_memOk {s : State} {o r t} (h : s.memOk) (e : execDrnd o r s = .next t) : t.memOk := by
  unfold execDrnd at e
  grind [alu_memOk]

theorem execHpadd_memOk {s : State} {o bf r t} (h : s.memOk) (e : execHpadd o bf r s = .next t) : t.memOk := by
  unfold execHpadd at e
  grind [alu_memOk]

theorem execHpmul_memOk {s : State} {o bf r t} (h : s.memOk) (e : execHpmul o bf r s = .next t) : t.memOk := by
  unfold execHpmul at e
  grind [alu_memOk]

theorem execHpmac_memOk {s : State} {o bf r t} (h : s.memOk) (e : execHpmac o bf r s = .next t) : t.memOk := by
  unfold execHpmac at e
  grind [alu_memOk]

theorem execHpmin_memOk {s : State} {o bf t} (h : s.memOk) (e : execHpmin o bf s = .next t) : t.memOk := by
  unfold execHpmin at e
  grind [alu_memOk]

theorem execHpmax_memOk {s : State} {o bf t} (h : s.memOk) (e : execHpmax o bf s = .next t) : t.memOk := by
  unfold execHpmax at e
  grind [alu_memOk]

theorem execHpset_memOk {s : State} {o bf c t} (h : s.memOk) (e : execHpset o bf c s = .next t) : t.memOk := by
  unfold execHpset at e
  grind [alu_memOk]

theorem cvtPre_memOk {o x t} (e : cvtPre o x = some t) : t.memOk := by
  unfold cvtPre at e
  grind [Iss.pre_memOk, Stop.memOk]

theorem execCvt_memOk {s : State} {o t} (h : s.memOk) (e : execCvt o s = .next t) : t.memOk :=
  simt_memOk h (fun _ _ => cvtPre_memOk) (fun _ _ _ h => aluBody_resOk h noCheck_ok) e

theorem grpPre_memOk {x half grp run pos t} (e : grpPre x half grp run pos = some t) : t.memOk := by
  unfold grpPre at e
  grind [Iss.pre_memOk, Stop.memOk]

theorem execPackq_memOk {s : State} {o t} (h : s.memOk) (e : execPackq o s = .next t) : t.memOk :=
  simt_memOk h (fun _ _ => grpPre_memOk) (fun _ _ _ h => aluBody_resOk h groupCheck_ok) e

theorem execUnpq_memOk {s : State} {o t} (h : s.memOk) (e : execUnpq o s = .next t) : t.memOk :=
  simt_memOk h (fun _ _ => grpPre_memOk) (fun _ _ _ h => aluBody_resOk h groupCheck_ok) e

theorem execShfl_memOk {s : State} {o m t} (h : s.memOk) (e : execShfl o m s = .next t) : t.memOk := by
  unfold execShfl at e
  grind [alu_memOk]

theorem execBcst_memOk {s : State} {o t} (h : s.memOk) (e : execBcst o s = .next t) : t.memOk := by
  unfold execBcst at e
  grind [alu_memOk]

theorem execVote_memOk {s : State} {o v t} (h : s.memOk) (e : execVote o v s = .next t) : t.memOk := by
  unfold execVote at e
  grind [alu_memOk]

theorem execScan_memOk {s : State} {o op excl t u} (h : s.memOk) (e : execScan o op excl t s = .next u) : u.memOk := by
  unfold execScan at e
  grind [alu_memOk]

theorem execRed_memOk {s : State} {o op t u} (h : s.memOk) (e : execRed o op t s = .next u) : u.memOk := by
  unfold execRed at e
  grind [alu_memOk]

theorem execCnfl_memOk {s : State} {o t} (h : s.memOk) (e : execCnfl o s = .next t) : t.memOk := by
  unfold execCnfl at e
  grind [alu_memOk]

theorem execLmatch_memOk {s : State} {o t} (h : s.memOk) (e : execLmatch o s = .next t) : t.memOk := by
  unfold execLmatch at e
  grind [alu_memOk]

theorem execCmpr_memOk {s : State} {o t} (h : s.memOk) (e : execCmpr o s = .next t) : t.memOk := by
  unfold execCmpr at e
  grind [alu_memOk]

theorem execXpnd_memOk {s : State} {o t} (h : s.memOk) (e : execXpnd o s = .next t) : t.memOk := by
  unfold execXpnd at e
  grind [alu_memOk]

theorem execLacz_memOk {s : State} {o t} (h : s.memOk) (e : execLacz o s = .next t) : t.memOk := by
  unfold execLacz at e
  refine simt_memOk h (fun _ _ => noPre_memOk) (fun s x act h => ⟨fun fx e => ?_, fun st e => ?_⟩) e
  · grind [modNow_memOk]
  · grind [modNow_memOk]

theorem lacaPre_memOk {f x t} (e : lacaPre f x = some t) : t.memOk := by
  unfold lacaPre at e
  grind [Iss.pre_memOk, Stop.memOk]

theorem lacaBody_memOk {s : State} {o f x act t} (h : s.memOk) (e : lacaBody o f s x act = .ok t) : t.s.memOk := by
  unfold lacaBody at e
  grind [modNow_memOk, Iss.namesOk_error_memOk, readOpds_error_memOk, Stop.memOk]

theorem lacaBody_error_memOk {s : State} {o f x act t} (h : s.memOk) (e : lacaBody o f s x act = .error t) : t.memOk := by
  unfold lacaBody at e
  grind [modNow_memOk, Iss.namesOk_error_memOk, readOpds_error_memOk, Stop.memOk]

theorem execLaca_memOk {s : State} {o f t} (h : s.memOk) (e : execLaca o f s = .next t) : t.memOk := by
  unfold execLaca at e
  refine simt_memOk h (fun _ _ => lacaPre_memOk) (fun s x act h => ⟨fun fx e => ?_, fun st e => ?_⟩) e
  · grind [lacaBody_memOk, lacaBody_error_memOk]
  · grind [lacaBody_memOk, lacaBody_error_memOk]

theorem execLacr_memOk {s : State} {o f r t} (h : s.memOk) (e : execLacr o f r s = .next t) : t.memOk := by
  unfold execLacr at e
  refine simt_memOk h (fun _ _ => noPre_memOk) (fun s x act h => ⟨fun fx e => ?_, fun st e => ?_⟩) e
  · grind [putResult_memOk, putResult_error_memOk, Iss.trap_memOk, Iss.names_error_memOk, Stop.memOk]
  · grind [putResult_memOk, putResult_error_memOk, Iss.trap_memOk, Iss.names_error_memOk, Stop.memOk]

/-! ### Memory instructions -/

theorem placeLanes_memOk {s : State} {c t ctx f eas} (h : s.memOk) : ((s.placeLanes c t ctx f eas).1).memOk := by
  unfold State.placeLanes
  grind [placeLane_memOk, foldl_memOk, foldl_fst_memOk]

theorem memDest_memOk {s : State} {x ok o f ns t} (h : s.memOk) (e : s.memDest x ok o f ns = .ok t) : t.2.2.2.memOk := by
  unfold State.memDest at e
  split at e
  · rw [← Except.ok.inj e]; exact h
  · rw [← Except.ok.inj e]; exact h
  · split at e
    · cases e
    · next hp => rw [← Except.ok.inj e]; exact pendNames_memOk h hp
  · dsimp only at e
    split at e
    · rw [← Except.ok.inj e]; exact h
    · split at e
      · cases e
      · rw [← Except.ok.inj e]; exact modNow_memOk h

theorem memDest_error_memOk {s : State} {x ok o f ns t} (h : s.memOk) (e : s.memDest x ok o f ns = .error t) : t.memOk := by
  unfold State.memDest at e
  grind [modNow_memOk, pendNames_memOk, pendNames_error_memOk, Stop.memOk]

theorem memStart_resOk {s : State} {x act o f vs ns key eas} (h : s.memOk) : ResOk (s.memStart x act o f vs ns key eas) := by
  have hp := placeLanes_memOk (c := x.c) (t := x.src.team) (ctx := x.ctx) (f := f) (eas := eas) h
  unfold State.memStart
  dsimp only
  split
  · exact .error trivial
  · split
    · split
      · exact .error trivial
      · exact .ok hp
    · split
      · next hd => exact .error (memDest_error_memOk hp hd)
      · next u hd =>
        have hu : u.memOk := memDest_memOk hp hd
        split <;> split
        · exact .error (sweep_memOk (modCore_memOk (newId_memOk hu)))
        · exact .ok (sweep_memOk (modCore_memOk (newId_memOk hu)))
        · exact .error (sweep_memOk (modCore_memOk (newId_memOk hu)))
        · exact .ok (sweep_memOk (modCore_memOk (newId_memOk hu)))

theorem memStart_memOk {s : State} {x act o f vs ns key eas t} (h : s.memOk) (e : s.memStart x act o f vs ns key eas = .ok t) :
    t.s.memOk :=
  (memStart_resOk h).1 t e

theorem memStart_error_memOk {s : State} {x act o f vs ns key eas t} (h : s.memOk)
    (e : s.memStart x act o f vs ns key eas = .error t) : t.memOk :=
  (memStart_resOk h).2 t e

theorem memBody_resOk {s : State} {o f op x act} (h : s.memOk) : ResOk (memBody o f op s x act) := by
  unfold memBody
  dsimp only
  split
  · next hn => exact .error (Iss.namesOk_error_memOk hn)
  · split
    · next hr => exact .error (readOpds_error_memOk h hr)
    · split
      · next hn =>
        split at hn
        · exact .error (Iss.names_error_memOk hn)
        · cases hn
      · split
        · next fx hr =>
          obtain ⟨k, -, hr⟩ := Option.bind_eq_some_iff.1 hr
          have hf : fx.s.memOk := reuseHit_memOk h hr rfl
          exact .ok hf
        · next hr =>
          obtain ⟨k, -, hr⟩ := Option.bind_eq_some_iff.1 hr
          exact .error (reuseHit_error_memOk h hr rfl)
        · exact memStart_resOk h

theorem memBody_memOk {s : State} {o f op x act t} (h : s.memOk) (e : memBody o f op s x act = .ok t) : t.s.memOk :=
  (memBody_resOk h).1 t e

theorem memBody_error_memOk {s : State} {o f op x act t} (h : s.memOk) (e : memBody o f op s x act = .error t) : t.memOk := by
  unfold memBody at e
  grind [reuseHit_memOk, reuseHit_error_memOk, Iss.namesOk_error_memOk, memStart_memOk, memStart_error_memOk,
    Iss.names_error_memOk, readOpds_error_memOk, Stop.memOk]

theorem memory_memOk {s : State} {o f op t} (h : s.memOk) (e : memory s o f op = .next t) : t.memOk := by
  unfold memory at e
  refine simt_memOk h (fun _ _ => noPre_memOk) (fun s x act h => ⟨fun fx e => ?_, fun st e => ?_⟩) e
  · grind [memBody_memOk, memBody_error_memOk]
  · grind [memBody_memOk, memBody_error_memOk]

theorem execLd_memOk {s : State} {o z r t} (h : s.memOk) (e : execLd o z r s = .next t) : t.memOk := by
  unfold execLd at e
  grind [memory_memOk]

theorem execLdk_memOk {s : State} {o z t} (h : s.memOk) (e : execLdk o z s = .next t) : t.memOk := by
  unfold execLdk at e
  grind [memory_memOk]

theorem execLdb_memOk {s : State} {o z r t} (h : s.memOk) (e : execLdb o z r s = .next t) : t.memOk := by
  unfold execLdb at e
  grind [memory_memOk]

theorem execLdbc_memOk {s : State} {o z t} (h : s.memOk) (e : execLdbc o z s = .next t) : t.memOk := by
  unfold execLdbc at e
  grind [memory_memOk]

theorem prefetchBody_memOk {s : State} {o f x act t} (h : s.memOk) (e : prefetchBody o f s x act = .ok t) : t.s.memOk := by
  unfold prefetchBody at e
  grind [modCore_memOk, Iss.namesOk_error_memOk, newId_memOk, finishPrefetch_memOk, placeLanes_memOk, readOpds_error_memOk,
    Stop.memOk]

theorem prefetchBody_error_memOk {s : State} {o f x act t} (h : s.memOk) (e : prefetchBody o f s x act = .error t) : t.memOk := by
  unfold prefetchBody at e
  grind [modCore_memOk, Iss.namesOk_error_memOk, newId_memOk, finishPrefetch_memOk, placeLanes_memOk, readOpds_error_memOk,
    Stop.memOk]

theorem execPfch_memOk {s : State} {o t} (h : s.memOk) (e : execPfch o s = .next t) : t.memOk := by
  unfold execPfch at e
  refine simt_memOk h (fun _ _ => noPre_memOk) (fun s x act h => ⟨fun fx e => ?_, fun st e => ?_⟩) e
  · grind [prefetchBody_memOk, prefetchBody_error_memOk]
  · grind [prefetchBody_memOk, prefetchBody_error_memOk]

theorem store_memOk {s : State} {o dflt f t} (h : s.memOk) (e : store s o dflt f = .next t) : t.memOk := by
  unfold store at e
  refine simt_memOk h (fun _ _ => noPre_memOk) (fun s x act h => ⟨fun fx e => ?_, fun st e => ?_⟩) e
  · grind [memBody_memOk, memBody_error_memOk]
  · grind [memBody_memOk, memBody_error_memOk]

theorem execSt_memOk {s : State} {o z r t} (h : s.memOk) (e : execSt o z r s = .next t) : t.memOk := by
  unfold execSt at e
  grind [store_memOk]

theorem execStb_memOk {s : State} {o z r t} (h : s.memOk) (e : execStb o z r s = .next t) : t.memOk := by
  unfold execStb at e
  grind [store_memOk]

theorem execStr_memOk {s : State} {o z r t} (h : s.memOk) (e : execStr o z r s = .next t) : t.memOk := by
  unfold execStr at e
  grind [store_memOk]

theorem execSts_memOk {s : State} {o z r t} (h : s.memOk) (e : execSts o z r s = .next t) : t.memOk := by
  unfold execSts at e
  grind [store_memOk]

theorem execAtom_memOk {s : State} {o op r t} (h : s.memOk) (e : execAtom o op r s = .next t) : t.memOk := by
  unfold execAtom at e
  grind [memory_memOk]

theorem execAtb_memOk {s : State} {o op r t} (h : s.memOk) (e : execAtb o op r s = .next t) : t.memOk := by
  unfold execAtb at e
  grind [memory_memOk]

theorem execAtr_memOk {s : State} {o op r t} (h : s.memOk) (e : execAtr o op r s = .next t) : t.memOk := by
  unfold execAtr at e
  grind [memory_memOk]

theorem execCas128_memOk {s : State} {o r t} (h : s.memOk) (e : execCas128 o r s = .next t) : t.memOk := by
  unfold execCas128 at e
  grind [memory_memOk]

theorem execFnc_memOk {s : State} {o sc t} (h : s.memOk) (e : execFnc o sc s = .next t) : t.memOk := by
  unfold execFnc at e
  refine simt_memOk h (fun _ _ => noPre_memOk) (fun s x act h => ⟨fun fx e => ?_, fun st e => ?_⟩) e
  · grind [modCore_memOk, newId_memOk]
  · grind [modCore_memOk, newId_memOk]

/-! ### Copy, Jig, barrier, mailbox, queue and task instructions -/

theorem copyIssue_memOk {s : State} {x qs t} (h : s.memOk) (e : s.copyIssue x qs = .ok t) : t.s.memOk := by
  unfold State.copyIssue at e
  grind [copyReqs_memOk, Stop.memOk]

theorem copyIssue_error_memOk {s : State} {x qs t} (h : s.memOk) (e : s.copyIssue x qs = .error t) : t.memOk := by
  unfold State.copyIssue at e
  grind [copyReqs_memOk, Stop.memOk]

theorem copyBody_memOk {s : State} {o hasA mk x act t} (h : s.memOk) (e : copyBody o hasA mk s x act = .ok t) : t.s.memOk := by
  unfold copyBody at e
  grind [copyIssue_memOk, copyIssue_error_memOk, Iss.namesOk_error_memOk, readOpds_error_memOk, Stop.memOk]

theorem copyBody_error_memOk {s : State} {o hasA mk x act t} (h : s.memOk) (e : copyBody o hasA mk s x act = .error t) : t.memOk := by
  unfold copyBody at e
  grind [copyIssue_memOk, copyIssue_error_memOk, Iss.namesOk_error_memOk, readOpds_error_memOk, Stop.memOk]

theorem execCpy_memOk {s : State} {o w t} (h : s.memOk) (e : execCpy o w s = .next t) : t.memOk := by
  unfold execCpy at e
  refine simt_memOk h (fun _ _ => noPre_memOk) (fun s x act h => ⟨fun fx e => ?_, fun st e => ?_⟩) e
  · grind [copyBody_memOk, copyBody_error_memOk]
  · grind [copyBody_memOk, copyBody_error_memOk]

theorem execCpyg_memOk {s : State} {o bm w t} (h : s.memOk) (e : execCpyg o bm w s = .next t) : t.memOk := by
  unfold execCpyg at e
  refine simt_memOk h (fun _ _ => noPre_memOk) (fun s x act h => ⟨fun fx e => ?_, fun st e => ?_⟩) e
  · grind [copyBody_memOk, copyBody_error_memOk]
  · grind [copyBody_memOk, copyBody_error_memOk]

theorem execCpys_memOk {s : State} {o bm w t} (h : s.memOk) (e : execCpys o bm w s = .next t) : t.memOk := by
  unfold execCpys at e
  refine simt_memOk h (fun _ _ => noPre_memOk) (fun s x act h => ⟨fun fx e => ?_, fun st e => ?_⟩) e
  · grind [copyBody_memOk, copyBody_error_memOk]
  · grind [copyBody_memOk, copyBody_error_memOk]

theorem execCpyq_memOk {s : State} {o bm w t} (h : s.memOk) (e : execCpyq o bm w s = .next t) : t.memOk := by
  unfold execCpyq at e
  refine simt_memOk h (fun _ _ => noPre_memOk) (fun s x act h => ⟨fun fx e => ?_, fun st e => ?_⟩) e
  · grind [copyBody_memOk, copyBody_error_memOk]
  · grind [copyBody_memOk, copyBody_error_memOk]

theorem execCpyr_memOk {s : State} {o t} (h : s.memOk) (e : execCpyr o s = .next t) : t.memOk := by
  unfold execCpyr at e
  refine simt_memOk h (fun _ _ => noPre_memOk) (fun s x act h => ⟨fun fx e => ?_, fun st e => ?_⟩) e
  · grind [copyBody_memOk, copyBody_error_memOk]
  · grind [copyBody_memOk, copyBody_error_memOk]

theorem cancelCopy_memOk {s : State} {c t rec_} (h : s.memOk) : (s.cancelCopy c t rec_).memOk := by
  unfold State.cancelCopy
  grind [unsuspend_memOk, freeSlot_memOk, recPut_memOk]

theorem execCpyx_memOk {s : State} {o t} (h : s.memOk) (e : execCpyx o s = .next t) : t.memOk := by
  unfold execCpyx at e
  refine simt_memOk h (fun _ _ => noPre_memOk) (fun s x act h => ⟨fun fx e => ?_, fun st e => ?_⟩) e
  · grind [cancelCopy_memOk, Iss.namesOk_error_memOk, readOpds_error_memOk, foldl_memOk, foldl_fst_memOk, Stop.memOk]
  · grind [cancelCopy_memOk, Iss.namesOk_error_memOk, readOpds_error_memOk, foldl_memOk, foldl_fst_memOk, Stop.memOk]

theorem jigBody_ok {f : State → Iss → Mask → Except Stop Fx} (hf : BodyOk f) : BodyOk (jigBody f) := by
  intro s x act h
  unfold jigBody
  grind [BodyOk, Iss.trap_memOk]

theorem jloadBody_memOk {s : State} {o x act t} (h : s.memOk) (e : jloadBody o s x act = .ok t) : t.s.memOk := by
  unfold jloadBody at e
  grind [modJig_memOk, Iss.trap_memOk, Stop.posted_memOk, readJigWords_memOk, readOpds_error_memOk, Stop.memOk]

theorem jloadBody_error_memOk {s : State} {o x act t} (h : s.memOk) (e : jloadBody o s x act = .error t) : t.memOk := by
  unfold jloadBody at e
  grind [modJig_memOk, Iss.trap_memOk, Stop.posted_memOk, readJigWords_memOk, readOpds_error_memOk, Stop.memOk]

theorem execJload_memOk {s : State} {o t} (h : s.memOk) (e : execJload o s = .next t) : t.memOk := by
  unfold execJload at e
  refine simt_memOk h (fun _ _ => noPre_memOk) (jigBody_ok fun s x act h => ⟨fun fx e => ?_, fun st e => ?_⟩) e
  · grind [jloadBody_memOk, jloadBody_error_memOk]
  · grind [jloadBody_memOk, jloadBody_error_memOk]

theorem jstartBody_memOk {s : State} {o x act t} (h : s.memOk) (e : jstartBody o s x act = .ok t) : t.s.memOk := by
  unfold jstartBody at e
  grind [modJig_memOk, Iss.trap_memOk, readOpds_error_memOk, Stop.memOk]

theorem jstartBody_error_memOk {s : State} {o x act t} (h : s.memOk) (e : jstartBody o s x act = .error t) : t.memOk := by
  unfold jstartBody at e
  grind [modJig_memOk, Iss.trap_memOk, readOpds_error_memOk, Stop.memOk]

theorem execJstart_memOk {s : State} {o t} (h : s.memOk) (e : execJstart o s = .next t) : t.memOk := by
  unfold execJstart at e
  refine simt_memOk h (fun _ _ => noPre_memOk) (jigBody_ok fun s x act h => ⟨fun fx e => ?_, fun st e => ?_⟩) e
  · grind [jstartBody_memOk, jstartBody_error_memOk]
  · grind [jstartBody_memOk, jstartBody_error_memOk]

theorem execJstop_memOk {s : State} {o t} (h : s.memOk) (e : execJstop o s = .next t) : t.memOk := by
  unfold execJstop at e
  refine simt_memOk h (fun _ _ => noPre_memOk) (jigBody_ok fun s x act h => ⟨fun fx e => ?_, fun st e => ?_⟩) e
  · grind [modJig_memOk]
  · grind [modJig_memOk]

theorem jpopBody_resOk {s : State} {o x act} (h : s.memOk) : ResOk (jpopBody o s x act) := by
  unfold jpopBody
  dsimp only
  split
  · split
    · next hp => exact .error (putPred_error_memOk h hp)
    · next hp => exact .ok (putPred_memOk h hp)
  · split
    · next hn => exact .error (Iss.names_error_memOk hn)
    · split
      · next hp => exact .error (pendNames_error_memOk h hp)
      · next hp =>
        refine .ok ?_
        exact sweep_memOk (modJig_memOk (modCore_memOk (newId_memOk (pendNames_memOk h hp))))

theorem jpopBody_memOk {s : State} {o x act t} (h : s.memOk) (e : jpopBody o s x act = .ok t) : t.s.memOk :=
  (jpopBody_resOk h).1 t e

theorem jpopBody_error_memOk {s : State} {o x act t} (h : s.memOk) (e : jpopBody o s x act = .error t) : t.memOk := by
  unfold jpopBody at e
  grind [modJig_memOk, putPred_memOk, putPred_error_memOk, pendNames_memOk, pendNames_error_memOk, modCore_memOk, sweep_memOk,
    Iss.names_error_memOk, newId_memOk, Stop.memOk]

theorem execJpop_memOk {s : State} {o t} (h : s.memOk) (e : execJpop o s = .next t) : t.memOk := by
  unfold execJpop at e
  refine simt_memOk h (fun _ _ => noPre_memOk) (jigBody_ok fun s x act h => ⟨fun fx e => ?_, fun st e => ?_⟩) e
  · grind [jpopBody_memOk, jpopBody_error_memOk]
  · grind [jpopBody_memOk, jpopBody_error_memOk]

theorem releaseNow_memOk {s : State} {x act sc t} (h : s.memOk) (e : s.releaseNow x act sc = .ok t) : t.memOk := by
  unfold State.releaseNow at e
  grind [release_memOk, Stop.memOk]

theorem releaseNow_error_memOk {s : State} {x act sc t} (h : s.memOk) (e : s.releaseNow x act sc = .error t) : t.memOk := by
  unfold State.releaseNow at e
  grind [release_memOk, Stop.memOk]

theorem execBar_memOk {s : State} {o t} (h : s.memOk) (e : execBar o s = .next t) : t.memOk := by
  unfold execBar at e
  refine simt_memOk h (fun _ _ => noPre_memOk) (fun s x act h => ⟨fun fx e => ?_, fun st e => ?_⟩) e
  · grind [modTeam_memOk, releaseNow_memOk, releaseNow_error_memOk, Iss.trap_memOk, sources_error_memOk, Stop.memOk]
  · grind [modTeam_memOk, releaseNow_memOk, releaseNow_error_memOk, Iss.trap_memOk, sources_error_memOk, Stop.memOk]

theorem execBbinit_memOk {s : State} {o t} (h : s.memOk) (e : execBbinit o s = .next t) : t.memOk := by
  unfold execBbinit at e
  refine simt_memOk h (fun _ _ => noPre_memOk) (fun s x act h => ⟨fun fx e => ?_, fun st e => ?_⟩) e
  · grind [modTeam_memOk, Iss.trap_memOk, benchWrite_memOk, sources_error_memOk, Stop.memOk]
  · grind [modTeam_memOk, Iss.trap_memOk, benchWrite_memOk, sources_error_memOk, Stop.memOk]

theorem bbKey_error_memOk {s : State} {x act bb t} (h : s.memOk) (e : s.bbKey x act bb = .error t) : t.memOk := by
  unfold State.bbKey at e
  grind [Iss.trap_memOk, Stop.memOk]

theorem execBbarv_memOk {s : State} {o t} (h : s.memOk) (e : execBbarv o s = .next t) : t.memOk := by
  refine simt_memOk h (fun _ _ => noPre_memOk) (fun s x act h => ?_) e
  change ResOk _
  split
  · next hs => exact .error (sources_error_memOk h hs)
  · dsimp only
    split
    · next hb => exact .error (bbKey_error_memOk h hb)
    · split
      · exact .error Iss.trap_memOk
      · split
        · next hr => exact .error (releaseNow_error_memOk h hr)
        · next hr =>
          have hr := releaseNow_memOk h hr
          split
          · split
            · next hp => exact .error (putScalar_error_memOk hr hp)
            · next hp => exact .ok (modTeam_memOk (bbPut_memOk (putScalar_memOk hr hp)))
          · exact .ok (modTeam_memOk (bbPut_memOk hr))

theorem execBbwait_memOk {s : State} {o tr t} (h : s.memOk) (e : execBbwait o tr s = .next t) : t.memOk := by
  unfold execBbwait at e
  refine simt_memOk h (fun _ _ => noPre_memOk) (fun s x act h => ⟨fun fx e => ?_, fun st e => ?_⟩) e
  · grind [bbKey_error_memOk, Iss.trap_memOk, acquireFor_memOk, sources_error_memOk, Stop.memOk]
  · grind [bbKey_error_memOk, Iss.trap_memOk, acquireFor_memOk, sources_error_memOk, Stop.memOk]

theorem execTbar_memOk {s : State} {o set t} (h : s.memOk) (e : execTbar o set s = .next t) : t.memOk := by
  unfold execTbar at e
  refine simt_memOk h (fun _ _ => noPre_memOk) (fun s x act h => ⟨fun fx e => ?_, fun st e => ?_⟩) e
  · grind [releaseNow_memOk, releaseNow_error_memOk, Iss.trap_memOk, modLaunch_memOk, sources_error_memOk, Stop.memOk]
  · grind [releaseNow_memOk, releaseNow_error_memOk, Iss.trap_memOk, modLaunch_memOk, sources_error_memOk, Stop.memOk]

theorem execGbar_memOk {s : State} {o t} (h : s.memOk) (e : execGbar o s = .next t) : t.memOk := by
  unfold execGbar at e
  refine simt_memOk h (fun _ _ => noPre_memOk) (fun s x act h => ⟨fun fx e => ?_, fun st e => ?_⟩) e
  · grind [releaseNow_memOk, releaseNow_error_memOk, Iss.trap_memOk, modLaunch_memOk, sources_error_memOk, Stop.memOk]
  · grind [releaseNow_memOk, releaseNow_error_memOk, Iss.trap_memOk, modLaunch_memOk, sources_error_memOk, Stop.memOk]

theorem deposit_memOk {s : State} {x act sc target value} (h : s.memOk) : ((s.deposit x act sc target value).1).memOk := by
  unfold State.deposit
  grind [newId_memOk, foldl_memOk, foldl_fst_memOk, State.memOk]

theorem sendBody_memOk {s : State} {o sc x act t} (h : s.memOk) (e : sendBody o sc s x act = .ok t) : t.s.memOk := by
  unfold sendBody at e
  grind [releaseNow_memOk, releaseNow_error_memOk, Iss.namesOk_error_memOk, Iss.names_error_memOk, deposit_memOk,
    readOpds_error_memOk, Stop.memOk]

theorem sendBody_error_memOk {s : State} {o sc x act t} (h : s.memOk) (e : sendBody o sc s x act = .error t) : t.memOk := by
  unfold sendBody at e
  split at e <;> grind [releaseNow_memOk, releaseNow_error_memOk, Iss.namesOk_error_memOk, Iss.names_error_memOk, deposit_memOk,
    readOpds_error_memOk, Stop.memOk]

theorem execSend_memOk {s : State} {o dev t} (h : s.memOk) (e : execSend o dev s = .next t) : t.memOk := by
  unfold execSend at e
  refine simt_memOk h (fun _ _ => noPre_memOk) (fun s x act h => ⟨fun fx e => ?_, fun st e => ?_⟩) e
  · grind [sendBody_memOk, sendBody_error_memOk]
  · grind [sendBody_memOk, sendBody_error_memOk]

theorem execMbclr_memOk {s : State} {o t} (h : s.memOk) (e : execMbclr o s = .next t) : t.memOk := by
  unfold execMbclr at e
  refine simt_memOk h (fun _ _ => noPre_memOk) (fun s x act h => ⟨fun fx e => ?_, fun st e => ?_⟩) e
  · grind [modNow_memOk]
  · grind [modNow_memOk]

theorem register_memOk {s : State} {c w key} (h : s.memOk) : ((s.register c w key).1).memOk := by
  unfold State.register
  grind [State.memOk]

theorem waitaWait_memOk {s : State} {c w r key} (h : s.memOk) : ((s.waitaWait c w r key).1).memOk := by
  unfold State.waitaWait
  grind [register_memOk]

theorem waitaBody_memOk {s : State} {o x act t} (h : s.memOk) (e : waitaBody o s x act = .ok t) : t.s.memOk := by
  unfold waitaBody at e
  dsimp only at e
  repeat' split at e
  all_goals grind [homeWord_memOk, Iss.trap_memOk, Stop.posted_memOk, Iss.namesOk_error_memOk, waitaPut_memOk, waitaPut_error_memOk,
    Iss.names_error_memOk, waitaWait_memOk, readOpds_error_memOk, Stop.memOk]

theorem waitaBody_error_memOk {s : State} {o x act t} (h : s.memOk) (e : waitaBody o s x act = .error t) : t.memOk := by
  unfold waitaBody at e
  dsimp only at e
  repeat' split at e
  all_goals grind [homeWord_memOk, Iss.trap_memOk, Stop.posted_memOk, Iss.namesOk_error_memOk, waitaPut_memOk, waitaPut_error_memOk,
    Iss.names_error_memOk, waitaWait_memOk, readOpds_error_memOk, Stop.memOk]

theorem execWaita_memOk {s : State} {o t} (h : s.memOk) (e : execWaita o s = .next t) : t.memOk := by
  unfold execWaita at e
  refine simt_memOk h (fun _ _ => noPre_memOk) (fun s x act h => ⟨fun fx e => ?_, fun st e => ?_⟩) e
  · grind [waitaBody_memOk, waitaBody_error_memOk]
  · grind [waitaBody_memOk, waitaBody_error_memOk]

theorem execWake_memOk {s : State} {o t} (h : s.memOk) (e : execWake o s = .next t) : t.memOk := by
  unfold execWake at e
  refine simt_memOk h (fun _ _ => noPre_memOk) (fun s x act h => ⟨fun fx e => ?_, fun st e => ?_⟩) e
  · grind [place_memOk, Iss.trap_memOk, Stop.posted_memOk, wakeLine_memOk, sources_error_memOk, Stop.memOk]
  · grind [place_memOk, Iss.trap_memOk, Stop.posted_memOk, wakeLine_memOk, sources_error_memOk, Stop.memOk]

theorem sqCheck_error_memOk {s : State} {x act q pos pop t} (h : s.memOk) (e : s.sqCheck x act q pos pop = .error t) : t.memOk := by
  unfold State.sqCheck at e
  grind [Iss.trap_memOk, Stop.memOk]

theorem sqBytes_memOk {s : State} {ctx va bs} (h : s.memOk) : ((s.sqBytes ctx va bs).1).memOk := by
  unfold State.sqBytes
  grind [place_memOk, vaWrite_memOk]

theorem modSq_memOk {s : State} {q f} (h : s.memOk) : (s.modSq q f).memOk := by
  unfold State.modSq
  grind [State.memOk]

theorem sqStore_done_memOk {s : State} {q e old t} (h : s.memOk) (e' : s.sqStore q e old = .done t) : t.memOk := by
  unfold State.sqStore at e'
  grind [sqBytes_memOk, modSq_memOk]

theorem sqStore_fault_memOk {s : State} {q e old u y z} (h : s.memOk) (e' : s.sqStore q e old = .fault u y z) : u.memOk := by
  unfold State.sqStore at e'
  grind [sqBytes_memOk, modSq_memOk]

theorem raiseAlarm_memOk {s : State} {q kind} (h : s.memOk) : (s.raiseAlarm q kind).memOk := by
  unfold State.raiseAlarm
  grind [sqBytes_memOk, modSq_memOk]

theorem discard_memOk {s : State} {q kind} (h : s.memOk) : (s.discard q kind).memOk := by
  unfold State.discard
  grind [modSq_memOk, raiseAlarm_memOk]

theorem sqApply_done_memOk {s : State} {q e t} (h : s.memOk) (e' : s.sqApply q e = .done t) : t.memOk := by
  unfold State.sqApply at e'
  grind [sqStore_done_memOk, sqStore_fault_memOk, discard_memOk]

theorem sqApply_fault_memOk {s : State} {q e u y z} (h : s.memOk) (e' : s.sqApply q e = .fault u y z) : u.memOk := by
  unfold State.sqApply at e'
  grind [sqStore_done_memOk, sqStore_fault_memOk, discard_memOk]

theorem sqpushed_resOk {s : State} {x act n v} {nb : Bool} (h : s.memOk) : ResOk (match (if nb then s.putPred x act n v else .ok s) with
    | .error st => Except.error st
    | .ok s => .ok { s := s : Fx }) := by
  split
  · next hp =>
    split at hp
    · exact .error (putPred_error_memOk h hp)
    · cases hp
  · next hp =>
    split at hp
    · exact .ok (putPred_memOk h hp)
    · obtain rfl := Except.ok.inj hp
      exact .ok h

theorem sqpushBody_resOk {s : State} {o nb x act} (h : s.memOk) : ResOk (sqpushBody o nb s x act) := by
  unfold sqpushBody
  dsimp only
  split
  · next hs => exact .error (readOpds_error_memOk h hs)
  · split
    · next hq => exact .error (sqCheck_error_memOk h hq)
    · split
      · exact .error Iss.trap_memOk
      · split
        · next hs => exact .error (sources_error_memOk h hs)
        · split
          · next hr => exact .error (releaseNow_error_memOk h hr)
          · next hr =>
            have hr := releaseNow_memOk h hr
            split
            · exact .error trivial
            · split
              · next hp => exact sqpushed_resOk (sqApply_done_memOk hr hp)
              · exact .error (Stop.posted_memOk Iss.trap_memOk)
              · split
                · exact sqpushed_resOk (nb := true) hr
                · exact .error (modSq_memOk (newId_memOk hr))

theorem sqpushBody_memOk {s : State} {o nb x act t} (h : s.memOk) (e : sqpushBody o nb s x act = .ok t) : t.s.memOk :=
  (sqpushBody_resOk h).1 t e

theorem sqpushBody_error_memOk {s : State} {o nb x act t} (h : s.memOk) (e : sqpushBody o nb s x act = .error t) : t.memOk :=
  (sqpushBody_resOk h).2 t e

theorem execSqpush_memOk {s : State} {o nb t} (h : s.memOk) (e : execSqpush o nb s = .next t) : t.memOk := by
  unfold execSqpush at e
  refine simt_memOk h (fun _ _ => noPre_memOk) (fun s x act h => ⟨fun fx e => ?_, fun st e => ?_⟩) e
  · grind [sqpushBody_memOk, sqpushBody_error_memOk]
  · grind [sqpushBody_memOk, sqpushBody_error_memOk]

theorem sqTake_memOk {s : State} {x act ns e t} (h : s.memOk) (e' : s.sqTake x act ns e = .ok t) : t.memOk := by
  unfold State.sqTake at e'
  dsimp only at e'
  split at e'
  · cases e'
  · next hp =>
    rw [← Except.ok.inj e']
    exact acquireFor_memOk (sweep_memOk (modCore_memOk (newId_memOk (pendNames_memOk h hp))))

theorem sqTake_error_memOk {s : State} {x act ns e t} (h : s.memOk) (e' : s.sqTake x act ns e = .error t) : t.memOk := by
  unfold State.sqTake at e'
  grind [pendNames_memOk, pendNames_error_memOk, modCore_memOk, acquireFor_memOk, sweep_memOk, newId_memOk, Stop.memOk]

theorem sqpopBody_memOk {s : State} {o nb x act t} (h : s.memOk) (e : sqpopBody o nb s x act = .ok t) : t.s.memOk := by
  unfold sqpopBody at e
  dsimp only at e
  repeat' split at e
  all_goals grind [sqCheck_error_memOk, putPred_memOk, putPred_error_memOk, Iss.trap_memOk, modSq_memOk, sqTake_memOk, sqTake_error_memOk,
    Iss.names_error_memOk, newId_memOk, readOpds_error_memOk, Stop.memOk]

theorem sqpopBody_error_memOk {s : State} {o nb x act t} (h : s.memOk) (e : sqpopBody o nb s x act = .error t) : t.memOk := by
  unfold sqpopBody at e
  dsimp only at e
  repeat' split at e
  all_goals grind [sqCheck_error_memOk, putPred_memOk, putPred_error_memOk, Iss.trap_memOk, modSq_memOk, sqTake_memOk, sqTake_error_memOk,
    Iss.names_error_memOk, newId_memOk, readOpds_error_memOk, Stop.memOk]

theorem execSqpop_memOk {s : State} {o nb t} (h : s.memOk) (e : execSqpop o nb s = .next t) : t.memOk := by
  unfold execSqpop at e
  refine simt_memOk h (fun _ _ => noPre_memOk) (fun s x act h => ⟨fun fx e => ?_, fun st e => ?_⟩) e
  · grind [sqpopBody_memOk, sqpopBody_error_memOk]
  · grind [sqpopBody_memOk, sqpopBody_error_memOk]

theorem execSqstat_memOk {s : State} {o t} (h : s.memOk) (e : execSqstat o s = .next t) : t.memOk := by
  unfold execSqstat at e
  refine simt_memOk h (fun _ _ => noPre_memOk) (fun s x act h => ⟨fun fx e => ?_, fun st e => ?_⟩) e
  · grind [sqCheck_error_memOk, putScalar_memOk, putScalar_error_memOk, readOpds_error_memOk, Stop.memOk]
  · grind [sqCheck_error_memOk, putScalar_memOk, putScalar_error_memOk, readOpds_error_memOk, Stop.memOk]

theorem cqpopBody_memOk {s : State} {o wait x act t} (h : s.memOk) (e : cqpopBody o wait s x act = .ok t) : t.s.memOk := by
  unfold cqpopBody at e
  split at e <;> grind [Iss.trap_memOk, cqTake_memOk, cqTake_error_memOk, Iss.namesOk_error_memOk, Iss.names_error_memOk, newId_memOk,
    sources_error_memOk, readOpds_error_memOk, Stop.memOk]

theorem cqpopBody_error_memOk {s : State} {o wait x act t} (h : s.memOk) (e : cqpopBody o wait s x act = .error t) : t.memOk := by
  unfold cqpopBody at e
  split at e <;> grind [Iss.trap_memOk, cqTake_memOk, cqTake_error_memOk, Iss.namesOk_error_memOk, Iss.names_error_memOk, newId_memOk,
    sources_error_memOk, readOpds_error_memOk, Stop.memOk]

theorem execCqpop_memOk {s : State} {o wait t} (h : s.memOk) (e : execCqpop o wait s = .next t) : t.memOk := by
  unfold execCqpop at e
  refine simt_memOk h (fun _ _ => noPre_memOk) (fun s x act h => ⟨fun fx e => ?_, fun st e => ?_⟩) e
  · grind [cqpopBody_memOk, cqpopBody_error_memOk]
  · grind [cqpopBody_memOk, cqpopBody_error_memOk]

theorem programLaunch_memOk {s : State} {ctx hdr rec_} (h : s.memOk) : (s.programLaunch ctx hdr rec_).memOk := by
  unfold State.programLaunch
  grind [takeUp_memOk]

theorem execLaunch_memOk {s : State} {o t} (h : s.memOk) (e : execLaunch o s = .next t) : t.memOk := by
  unfold execLaunch at e
  refine simt_memOk h (fun _ _ => noPre_memOk) (fun s x act h => ⟨fun fx e => ?_, fun st e => ?_⟩) e
  · grind [releaseNow_memOk, releaseNow_error_memOk, programLaunch_memOk, Iss.trap_memOk, Stop.posted_memOk, sources_error_memOk,
    Stop.memOk]
  · grind [releaseNow_memOk, releaseNow_error_memOk, programLaunch_memOk, Iss.trap_memOk, Stop.posted_memOk, sources_error_memOk,
    Stop.memOk]

theorem startRecruit_memOk {s : State} {l c k entry} (h : s.memOk) : ((s.startRecruit l c k entry).1).memOk := by
  unfold State.startRecruit
  grind [addWave_memOk, modCore_memOk, newId_memOk, modLaunch_memOk, State.memOk]

theorem recruitSlice_memOk {s : State} {l c k entry n a a'} (h : s.memOk) : ((s.recruitSlice l c k entry n a a').1).memOk := by
  induction a generalizing s a' with
  | zero => exact h
  | succ fuel ih =>
    unfold State.recruitSlice
    split
    · exact ih (startRecruit_memOk h)
    · exact h

theorem recruit_memOk {s : State} {l c entry n} (h : s.memOk) : ((s.recruit l c entry n).1).memOk := by
  unfold State.recruit
  grind [recruitSlice_memOk, foldl_memOk, foldl_fst_memOk]

theorem modCtx_memOk {s : State} {ctx f} (h : s.memOk) : (s.modCtx ctx f).memOk := by
  unfold State.modCtx
  grind [State.memOk]

theorem forkCell_memOk {s : State} {ctx cell parts} (h : s.memOk) : (s.forkCell ctx cell parts).memOk := by
  unfold State.forkCell
  grind [modCtx_memOk]

theorem rforkBody_resOk {s : State} {o x act} (h : s.memOk) : ResOk (rforkBody o s x act) := by
  unfold rforkBody
  dsimp only
  split
  · next hs => exact .error (sources_error_memOk h hs)
  · next vs _ =>
    split
    · exact .error Iss.trap_memOk
    · split
      · exact .error (Stop.posted_memOk Iss.trap_memOk)
      · have hp := place_memOk (via := .core x.c) (ctx := x.ctx) (va := BitVec.ofNat 64 (once act vs 0)) (u := .write) h
        split
        · exact .error (Stop.posted_memOk Iss.trap_memOk)
        · next u p he =>
          replace hp : u.memOk := by rw [he] at hp; exact hp
          split
          · exact .error trivial
          · split
            · exact .error (Stop.posted_memOk Iss.trap_memOk)
            · exact .error trivial
            · split
              · next hr => exact .error (releaseNow_error_memOk hp hr)
              · next hr =>
                have hr := releaseNow_memOk hp hr
                split
                · exact .error (Stop.posted_memOk Iss.trap_memOk)
                · next w hw =>
                  have hw : w.memOk := by
                    rw [show w = _ from (congrArg Prod.fst hw).symm]
                    exact homeWrite_memOk _ _ _ (writeKills_memOk (pushHome_memOk (recruit_memOk hr)))
                  split
                  · next hq => exact .error (putScalar_error_memOk (forkCell_memOk (foldl_memOk (l2Use_memOk hw) (fun _ _ => modWave_memOk))) hq)
                  · next hq => exact .ok (putScalar_memOk (forkCell_memOk (foldl_memOk (l2Use_memOk hw) (fun _ _ => modWave_memOk))) hq)

theorem rforkBody_memOk {s : State} {o x act t} (h : s.memOk) (e : rforkBody o s x act = .ok t) : t.s.memOk :=
  (rforkBody_resOk h).1 t e

theorem rforkBody_error_memOk {s : State} {o x act t} (h : s.memOk) (e : rforkBody o s x act = .error t) : t.memOk :=
  (rforkBody_resOk h).2 t e

theorem execRfork_memOk {s : State} {o t} (h : s.memOk) (e : execRfork o s = .next t) : t.memOk := by
  unfold execRfork at e
  refine simt_memOk h (fun _ _ => noPre_memOk) (fun s x act h => ⟨fun fx e => ?_, fun st e => ?_⟩) e
  · grind [rforkBody_memOk, rforkBody_error_memOk]
  · grind [rforkBody_memOk, rforkBody_error_memOk]

theorem wholeWave_memOk {x t} (e : wholeWave x = some t) : t.memOk := by
  unfold wholeWave at e
  grind [Iss.pre_memOk, Stop.memOk]

theorem joinBody_resOk {s : State} {o x act} (h : s.memOk) : ResOk (joinBody o s x act) := by
  unfold joinBody
  dsimp only
  split
  · next hs => exact .error (sources_error_memOk h hs)
  · next vs _ =>
    split
    · exact .error (Stop.posted_memOk Iss.trap_memOk)
    · have hp := place_memOk (via := .core x.c) (ctx := x.ctx) (va := BitVec.ofNat 64 (once act vs 0)) (u := .atomic) h
      split
      · exact .error (Stop.posted_memOk Iss.trap_memOk)
      · next u p he =>
        replace hp : u.memOk := by rw [he] at hp; exact hp
        split
        · exact .error trivial
        · split
          · exact .error (Stop.posted_memOk Iss.trap_memOk)
          · exact .error trivial
          · split
            · next hr => exact .error (releaseNow_error_memOk hp hr)
            · next hr =>
              have hr := releaseNow_memOk hp hr
              split
              · exact .error (Stop.posted_memOk Iss.trap_memOk)
              · exact .error Iss.trap_memOk
              · split
                · exact .ok (forkCell_memOk (acquireFor_memOk (l2Use_memOk (homeWrite_memOk _ _ _ (writeKills_memOk (pushHome_memOk hr))))))
                · refine .ok ?_
                  dsimp only
                  exact endThreads_memOk (acquireFor_memOk (l2Use_memOk (homeWrite_memOk _ _ _ (writeKills_memOk (pushHome_memOk hr)))))

theorem joinBody_memOk {s : State} {o x act t} (h : s.memOk) (e : joinBody o s x act = .ok t) : t.s.memOk :=
  (joinBody_resOk h).1 t e

theorem joinBody_error_memOk {s : State} {o x act t} (h : s.memOk) (e : joinBody o s x act = .error t) : t.memOk :=
  (joinBody_resOk h).2 t e

theorem execJoin_memOk {s : State} {o t} (h : s.memOk) (e : execJoin o s = .next t) : t.memOk := by
  unfold execJoin at e
  split at e
  · next u hu =>
    have hm : u.memOk :=
      simt_memOk h (fun _ _ => wholeWave_memOk) (fun _ _ _ h => ⟨fun _ => joinBody_memOk h, fun _ => joinBody_error_memOk h⟩) hu
    obtain rfl := Host.Outcome.next.inj e
    split
    · exact ite_memOk _ _ _ (waveOver_memOk hm) hm
    · exact hm
  · next hn => exact absurd e (hn t)

theorem racqBody_memOk {s : State} {o x act t} (h : s.memOk) (e : racqBody o s x act = .ok t) : t.s.memOk := by
  unfold racqBody at e
  grind [Iss.trap_memOk, modSlice_memOk, sources_error_memOk, grantBlocks_memOk, grantBlocks_error_memOk, Stop.memOk]

theorem racqBody_error_memOk {s : State} {o x act t} (h : s.memOk) (e : racqBody o s x act = .error t) : t.memOk := by
  unfold racqBody at e
  grind [Iss.trap_memOk, modSlice_memOk, sources_error_memOk, grantBlocks_memOk, grantBlocks_error_memOk, Stop.memOk]

theorem execRacq_memOk {s : State} {o t} (h : s.memOk) (e : execRacq o s = .next t) : t.memOk := by
  unfold execRacq at e
  refine simt_memOk h (fun _ _ => noPre_memOk) (fun s x act h => ⟨fun fx e => ?_, fun st e => ?_⟩) e
  · grind [racqBody_memOk, racqBody_error_memOk]
  · grind [racqBody_memOk, racqBody_error_memOk]

theorem execRrel_memOk {s : State} {o t} (h : s.memOk) (e : execRrel o s = .next t) : t.memOk := by
  unfold execRrel at e
  refine simt_memOk h (fun _ _ => noPre_memOk) (fun s x act h => ⟨fun fx e => ?_, fun st e => ?_⟩) e
  · grind [modNow_memOk, Iss.trap_memOk, promote_memOk, sweep_memOk, sources_error_memOk, serveRacq_memOk, Stop.memOk]
  · grind [modNow_memOk, Iss.trap_memOk, promote_memOk, sweep_memOk, sources_error_memOk, serveRacq_memOk, Stop.memOk]

theorem execRsetw_memOk {s : State} {o t} (h : s.memOk) (e : execRsetw o s = .next t) : t.memOk := by
  unfold execRsetw at e
  refine simt_memOk h (fun _ _ => noPre_memOk) (fun s x act h => ⟨fun fx e => ?_, fun st e => ?_⟩) e
  · grind [modNow_memOk, Iss.trap_memOk, sources_error_memOk, Stop.memOk]
  · grind [modNow_memOk, Iss.trap_memOk, sources_error_memOk, Stop.memOk]

theorem execRotb_memOk {s : State} {o t} (h : s.memOk) (e : execRotb o s = .next t) : t.memOk := by
  unfold execRotb at e
  refine simt_memOk h (fun _ _ => noPre_memOk) (fun s x act h => ⟨fun fx e => ?_, fun st e => ?_⟩) e
  · grind [modNow_memOk, Iss.trap_memOk, sources_error_memOk, Stop.memOk]
  · grind [modNow_memOk, Iss.trap_memOk, sources_error_memOk, Stop.memOk]

/-- Through the recursor that `travStarts` is compiled to: Lean fails to make its equation lemmas. -/
theorem travStarts_memOk {s : State} {c w a} (h : s.memOk) : (s.travStarts c w a).1.memOk := by
  induction a generalizing s with
  | nil => exact h
  | cons r rs ih =>
    have q : ∀ u : State, u.memOk → (u.travStarts c w rs).1.memOk := fun _ => ih
    delta State.travStarts State.travStarts._f List.brecOn List.brecOn.go at q ⊢
    dsimp only at q ⊢
    split
    · exact h
    · next ht => exact q _ (travStart_memOk h ht)

theorem travBody_memOk {s : State} {o x act t} (h : s.memOk) (e : travBody o s x act = .ok t) : t.s.memOk := by
  unfold travBody at e
  grind [modCore_memOk, Iss.trap_memOk, sources_error_memOk, travStarts_memOk, Stop.memOk]

theorem travBody_error_memOk {s : State} {o x act t} (h : s.memOk) (e : travBody o s x act = .error t) : t.memOk := by
  unfold travBody at e
  grind [modCore_memOk, Iss.trap_memOk, sources_error_memOk, travStarts_memOk, Stop.memOk]

theorem execTrav_memOk {s : State} {o t} (h : s.memOk) (e : execTrav o s = .next t) : t.memOk := by
  unfold execTrav at e
  refine simt_memOk h (fun _ _ => noPre_memOk) (fun s x act h => ⟨fun fx e => ?_, fun st e => ?_⟩) e
  · grind [travBody_memOk, travBody_error_memOk]
  · grind [travBody_memOk, travBody_error_memOk]

theorem walkCancel_memOk {s : State} {c k} (h : s.memOk) : (s.walkCancel c k).memOk := by
  unfold State.walkCancel
  grind [modWalk_memOk, walkEntry_memOk]

theorem cancelWalk_memOk {s : State} {c k} (h : s.memOk) : (s.cancelWalk c k).memOk := by
  unfold State.cancelWalk
  grind [setWalk_memOk, walkCancel_memOk, State.memOk]

theorem execTravx_memOk {s : State} {o t} (h : s.memOk) (e : execTravx o s = .next t) : t.memOk := by
  unfold execTravx at e
  refine simt_memOk h (fun _ _ => noPre_memOk) (fun s x act h => ⟨fun fx e => ?_, fun st e => ?_⟩) e
  · grind [cancelWalk_memOk, sources_error_memOk, foldl_memOk, foldl_fst_memOk, Stop.memOk]
  · grind [cancelWalk_memOk, sources_error_memOk, foldl_memOk, foldl_fst_memOk, Stop.memOk]

theorem execFmt_memOk {s : State} {fa fb fc fd gs scl sclc zp zpc t} (h : s.memOk)
    (e : execFmt fa fb fc fd gs scl sclc zp zpc s = .next t) : t.memOk := by
  unfold execFmt at e
  refine simt_memOk h (fun _ _ hp => ?_) (fun s x act h => ⟨fun fx e => ?_, fun st e => ?_⟩) e
  · grind [Iss.pre_memOk]
  · grind [Iss.pre_memOk, modNow_memOk, Stop.memOk]
  · grind [Iss.pre_memOk, modNow_memOk, Stop.memOk]

theorem execNonInstructionWord_memOk {s : State} {c aux w x t} (h : s.memOk) (e : execNonInstructionWord c aux w x s = .next t) :
    t.memOk := by
  unfold execNonInstructionWord at e
  refine simt_memOk h (fun _ _ hp => ?_) (fun s x act h => ⟨fun fx e => ?_, fun st e => ?_⟩) e
  · grind [Iss.pre_memOk]
  · grind [Iss.pre_memOk]
  · grind [Iss.pre_memOk]

/-! ### Stops, bring-up and the commands of the host -/

theorem putPieces_memOk {s : State} {via ctx va a} (h : s.memOk) : ((s.putPieces via ctx va a).1).memOk := by
  induction a generalizing s va with
  | nil => exact h
  | cons b r ih =>
    unfold State.putPieces
    have hw := vaWrite_memOk (via := via) (ctx := ctx) (va := va) (bs := b) h
    grind

theorem vaPut_memOk {s : State} {via ctx va bs} (h : s.memOk) : ((s.vaPut via ctx va bs).1).memOk := by
  unfold State.vaPut
  grind [putPieces_memOk]

theorem report_memOk {s : State} {ctx g} (h : s.memOk) : (s.report ctx g).memOk := by
  unfold State.report
  grind [sendAsync_memOk, modTeam_memOk, vaPut_memOk, modCtx_memOk, flushDirty_memOk, traceRec_memOk, foldl_memOk,
    foldl_fst_memOk]

theorem execTeamQuiet_memOk {s : State} {team t} (h : s.memOk) (e : execTeamQuiet team s = .next t) : t.memOk := by
  unfold execTeamQuiet at e
  grind [report_memOk]

theorem gbarComplete_memOk {s : State} {l} (h : s.memOk) : (s.gbarComplete l).memOk := by
  unfold State.gbarComplete
  grind [traceAt_memOk, acquireFor_memOk, modWave_memOk, modLaunch_memOk, endWait_memOk, foldl_memOk, foldl_fst_memOk]

theorem execQuietStopLimit_memOk {s : State} {launch t} (h : s.memOk) (e : execQuietStopLimit launch s = .next t) : t.memOk := by
  unfold execQuietStopLimit at e
  grind [gbarComplete_memOk, traceWave_memOk, modLaunch_memOk, msi_memOk, Stop.memOk]

theorem respond_memOk {s : State} {tag status data} (h : s.memOk) : (s.respond tag status data).memOk := by
  unfold State.respond
  grind [msi_memOk, State.memOk]

theorem okay_memOk {s : State} {tag} (h : s.memOk) : (s.okay tag).memOk := by
  unfold State.okay
  grind [respond_memOk]

theorem invalidated_memOk {s : State} (h : s.memOk) : s.invalidated.memOk := by
  unfold State.invalidated
  grind [okay_memOk, State.memOk]

theorem dropCoreTlb_memOk {s : State} {c f} (h : s.memOk) : (s.dropCoreTlb c f).memOk := by
  unfold State.dropCoreTlb
  grind [modCore_memOk]

theorem acknowledge_memOk {s : State} {c ctx va pages} (h : s.memOk) : (s.acknowledge c ctx va pages).memOk := by
  unfold State.acknowledge
  grind [modCore_memOk, dropCoreTlb_memOk, flushDirty_memOk, invalidateClean_memOk, State.memOk]

theorem execCoreInvalidateAck_memOk {s : State} {c t} (h : s.memOk) (e : execCoreInvalidateAck c s = .next t) : t.memOk := by
  unfold execCoreInvalidateAck at e
  grind [acknowledge_memOk, invalidated_memOk, State.memOk]

theorem restarted_memOk {s : State} (h : s.memOk) : s.restarted.memOk := by
  have hl : (s.l2.foldl (fun (s : State) e => s.l2Clean e.1) { s with task := none }).memOk := foldl_memOk h (fun _ _ => l2Clean_memOk)
  exact Memory.wf_filter _ _ hl

theorem recount_memOk {s : State} {step} (h : s.memOk) : (s.recount step).memOk := by
  unfold State.recount
  grind [State.memOk]

theorem bringUp_memOk {s : State} (h : s.memOk) : s.bringUp.memOk := by
  unfold State.bringUp
  exact recount_memOk h

theorem execReset_memOk {s : State} {t} (h : s.memOk) (e : execReset s = .next t) : t.memOk := by
  unfold execReset at e
  grind [restarted_memOk, bringUp_memOk, State.memOk]

theorem refuse_memOk {s : State} {tag} (h : s.memOk) : (s.refuse tag).memOk := by
  unfold State.refuse
  grind [respond_memOk]

theorem execRecalibrationDone_memOk {s : State} {c ok t} (h : s.memOk) (e : execRecalibrationDone c ok s = .next t) : t.memOk := by
  unfold execRecalibrationDone at e
  grind [okay_memOk, modCore_memOk, refuse_memOk, recount_memOk, State.memOk]

theorem execRetrainDone_memOk {s : State} {ok t} (h : s.memOk) (e : execRetrainDone ok s = .next t) : t.memOk := by
  unfold execRetrainDone at e
  grind [okay_memOk, State.memOk]

theorem execFwRestart_memOk {s : State} {t} (h : s.memOk) (e : execFwRestart s = .next t) : t.memOk := by
  unfold execFwRestart at e
  grind [okay_memOk, refuse_memOk, State.memOk]

theorem digestWrite_memOk {s : State} {ctx va a t} (h : s.memOk) (e : s.digestWrite ctx va a = some t) : t.memOk := by
  fun_induction s.digestWrite ctx va a generalizing t
  all_goals grind [vaWrite_memOk]

theorem logEvent_memOk {s : State} {r event} (h : s.memOk) : (s.logEvent r event).memOk := by
  unfold State.logEvent
  grind [State.memOk]

theorem execSealCompletion_memOk {s : State} {t} (h : s.memOk) (e : execSealCompletion s = .next t) : t.memOk := by
  obtain rfl := Host.Outcome.next.inj e
  split
  · split
    · exact h
    · have h0 : ({ s with task := none } : State).memOk := h
      dsimp only
      split
      · exact refuse_memOk h0
      · split
        · next u _ hp _ =>
          have hu : u.memOk := foldl_some_memOk ?_ ?_ hp
          · exact respond_memOk (logEvent_memOk hu)
          · rintro u hu
            obtain rfl := Option.some.inj hu
            exact h0
          · intro p l u hp hf
            refine foldl_some_memOk hp ?_ hf
            intro p j u hp hb
            obtain ⟨v, hv, hb⟩ := Option.bind_eq_some_iff.1 hb
            exact digestWrite_memOk (hp v hv) hb
        · exact refuse_memOk h0
  · exact h

theorem execIngressEntryPush_memOk {s : State} {w t} (h : s.memOk) (e : execIngressEntryPush w s = .next t) : t.memOk := by
  obtain rfl := Host.Outcome.next.inj e
  split
  · exact h
  · next g _ =>
    split
    · next q e r _ _ =>
      split
      · exact h
      · dsimp only
        have h0 : ({ s with ingress := FMap.set s.ingress w { g with commits := r } } : State).memOk := h
        split
        · next hp => exact sqApply_done_memOk h0 hp
        · exact discard_memOk h0
        · next hp => exact discard_memOk (sqApply_fault_memOk h0 hp)
    · exact h

theorem nextCommand_memOk {s : State} {ctx t} (h : s.memOk) (e : s.nextCommand ctx = some t) : t.2.memOk := by
  unfold State.nextCommand at e
  split at e
  · cases e
  · split at e
    · cases e
    · obtain ⟨bs, -, rfl⟩ := Option.map_eq_some_iff.1 e
      exact h

theorem execHostNop_memOk {s : State} {ctx t} (h : s.memOk) (e : execHostNop ctx s = .next t) : t.memOk := by
  obtain rfl := Host.Outcome.next.inj e
  split
  · next hn => exact ite_memOk _ _ _ (nextCommand_memOk h hn) h
  · exact h

theorem execHostLaunch_memOk {s : State} {ctx t} (h : s.memOk) (e : execHostLaunch ctx s = .next t) : t.memOk := by
  obtain rfl := Host.Outcome.next.inj e
  split
  · next hn => exact ite_memOk _ _ _ (takeUp_memOk (nextCommand_memOk h hn)) h
  · exact h

theorem execHostCommandInvalid_memOk {s : State} {ctx t} (h : s.memOk) (e : execHostCommandInvalid ctx s = .next t) : t.memOk := by
  obtain rfl := Host.Outcome.next.inj e
  split
  · next hn => exact ite_memOk _ _ _ (complete_memOk (nextCommand_memOk h hn)) h
  · exact h

theorem hostCommand_memOk {s : State} {ctx t} (h : s.memOk) (e : State.hostCommand ctx s = .next t) : t.memOk := by
  unfold State.hostCommand at e
  grind [execHostCommandInvalid_memOk, execHostLaunch_memOk, nextCommand_memOk, execHostNop_memOk]

theorem execHostAccessTimeout_memOk {s : State} {c op t} (h : s.memOk) (e : execHostAccessTimeout c op s = .next t) : t.memOk := by
  unfold execHostAccessTimeout at e
  grind [performLane_memOk, modOp_memOk, foldl_memOk, foldl_fst_memOk]

theorem sample_memOk {s : State} {c k} (h : s.memOk) : (s.sample c k).memOk := by
  unfold State.sample
  grind [modSlice_memOk, traceWave_memOk, foldl_memOk, foldl_fst_memOk]

theorem execPcSample_memOk {s : State} {c slice t} (h : s.memOk) (e : execPcSample c slice s = .next t) : t.memOk := by
  unfold execPcSample at e
  grind [sample_memOk]

/-! ### What settles after an instruction or event -/

theorem Own.run_memOk {o : Own} {s : State} {t} (h : s.memOk) (e : o.run s = .next t) : t.memOk := by
  unfold Own.run at e
  grind [execRacqGrant_memOk, execLoadCompletion_memOk, execTeamRestore_memOk, execEngineEffect_memOk,
    execAsyncTrapDelivery_memOk, execSendStatusReturn_memOk, execStackFill_memOk, execSfuResultWrite_memOk,
    execPriorityPromotion_memOk, execRetrainDone_memOk, execLxLoadDone_memOk, execAtomicCompletion_memOk, execReset_memOk,
    execPcSample_memOk, execAutoLaunch_memOk, execCoreInvalidateAck_memOk, execCopyUnitLanded_memOk, execWaitaPoll_memOk,
    execIngressEntryPush_memOk, execReservationExpiry_memOk, execQuietStopLimit_memOk, execRemoteBenchRefusal_memOk,
    execStackSpill_memOk, execSleepExpiry_memOk, execNodeArrival_memOk, execStoreWritePerform_memOk, execWalkSlotGrant_memOk,
    execTeamPlacement_memOk, execSealCompletion_memOk, execFetchLineArrival_memOk, execEngineStart_memOk,
    execCopyJobSuspend_memOk, execClusterRetry_memOk, execSfuServiceStart_memOk, execMacrResultWrite_memOk,
    execHostAccessTimeout_memOk, execFenceCompletion_memOk, execFwRestart_memOk, execTeamQuiet_memOk, execBarrierTimeout_memOk,
    execJpopDelivery_memOk, execCopySlotGrant_memOk, execDepositRetry_memOk, execRecalibrationDone_memOk, hostCommand_memOk,
    execCqpopTimeout_memOk, execDepositArrival_memOk, execCopyUnitServe_memOk, execRemoteBenchArrival_memOk, Stop.memOk]

theorem leftBy_memOk {s : State} {c w : Nat} {b : Mask} {r : Trial} (h : s.memOk) (hm : ∀ t, r = .misses t → t.memOk) :
    (s.leftBy c w b r).memOk := by
  unfold State.leftBy
  grind [modWave_memOk, offerReqs_memOk, State.memOk]

theorem tryBundle_misses_memOk {run : Instr → State → Host.Outcome State Fault Refusal} {s : State} {c w : Nat} {b : Mask}
    {second : Bool} {t : State} (h : s.memOk) (e : s.tryBundle run c w b second = .misses t) : t.memOk := by
  unfold State.tryBundle at e
  grind [prepare_miss_memOk]

theorem drainFaults_memOk {s : State} (h : s.memOk) : s.drainFaults.memOk := by
  unfold State.drainFaults
  grind [ringPut_memOk, foldl_memOk, State.memOk]

theorem settleRecs_memOk {s : State} (h : s.memOk) : s.settleRecs.memOk := by
  unfold State.settleRecs
  grind [putRec_memOk, foldl_memOk, foldl_fst_memOk, State.memOk]

theorem partnerFault_memOk {s : State} {ctx access va e} (h : s.memOk) : (s.partnerFault ctx access va e).memOk := by
  unfold State.partnerFault
  grind [postFault_memOk, State.memOk]

theorem partnerReply_memOk {s : State} {data} (h : s.memOk) : (s.partnerReply data).memOk := by
  unfold State.partnerReply
  grind [State.memOk]

theorem partnerData_memOk {s : State} {ctx va bs} (h : s.memOk) : (s.partnerData ctx va bs).memOk := by
  unfold State.partnerData
  grind [place_memOk, partnerReply_memOk, State.memOk]

theorem partnerAtomic_memOk {s : State} {ctx va n f} (h : s.memOk) : (s.partnerAtomic ctx va n f).memOk := by
  unfold State.partnerAtomic
  grind [partnerFault_memOk, homeWrite_memOk, place_memOk, l2Use_memOk, partnerReply_memOk]

theorem partnerServe_memOk {s : State} {ctx target req} (h : s.memOk) : (s.partnerServe ctx target req).memOk := by
  unfold State.partnerServe
  grind [partnerFault_memOk, partnerData_memOk, vaRead_memOk, partnerReply_memOk, vaWrite_memOk, partnerAtomic_memOk, State.memOk]

theorem outsideAgain_memOk {s : State} {a} (h : s.memOk) : (s.outsideAgain a).memOk := by
  unfold State.outsideAgain
  grind [partnerServe_memOk, State.memOk]

theorem settleOutside_memOk {s : State} (h : s.memOk) : s.settleOutside.memOk := by
  unfold State.settleOutside
  grind [outsideAgain_memOk, foldl_memOk, State.memOk]

theorem takeUpAgain_memOk {s : State} {t} (h : s.memOk) : (s.takeUpAgain t).memOk := by
  unfold State.takeUpAgain
  grind [takeUp_memOk]

theorem settleTakeUps_memOk {s : State} (h : s.memOk) : s.settleTakeUps.memOk := by
  unfold State.settleTakeUps
  grind [takeUpAgain_memOk, foldl_memOk, State.memOk]

theorem settleStop_memOk {s : State} {c w} (h : s.memOk) : (s.settleStop c w).memOk := by
  unfold State.settleStop
  grind [debugStop_memOk, freeze_memOk, modWave_memOk, foldl_memOk, Stop.memOk]

theorem settleStops_memOk {s : State} (h : s.memOk) : s.settleStops.memOk := by
  unfold State.settleStops
  grind [settleStop_memOk, foldl_memOk, foldl_fst_memOk, Stop.memOk]

theorem settleDrains_memOk {s : State} (h : s.memOk) : s.settleDrains.memOk := by
  unfold State.settleDrains
  grind [debugStop_memOk, freeze_memOk, modWave_memOk, foldl_memOk, foldl_fst_memOk, Stop.memOk]

theorem endGuests_memOk {s : State} {c} (h : s.memOk) : (s.endGuests c).memOk := by
  unfold State.endGuests
  grind [walkFault_memOk, foldl_memOk, foldl_fst_memOk]

theorem parkCore_memOk {s : State} {c} (h : s.memOk) : (s.parkCore c).memOk := by
  unfold State.parkCore
  grind [modCore_memOk, endGuests_memOk, recount_memOk, flushDirty_memOk, State.memOk]

theorem settlePark_memOk {s : State} (h : s.memOk) : s.settlePark.memOk := by
  unfold State.settlePark
  grind [okay_memOk, parkCore_memOk, State.memOk]

theorem settleCheckpoint_memOk {s : State} (h : s.memOk) : s.settleCheckpoint.memOk := by
  refine foldl_memOk h (fun s e h => ?_)
  have hw := vaWrite_memOk (via := .device) (ctx := (s.launch e.1).hdr.ctx) (va := checkpointVa) (bs := s.checkpointRecord e.1) h
  dsimp only
  refine ite_memOk _ _ _ h (ite_memOk _ _ _ h ?_)
  split <;> split
  · next hv =>
    rw [hv] at hw
    exact getD_memOk (modLaunch_memOk (postFault_memOk hw)) (fun _ => restoreGroup_memOk (modLaunch_memOk (postFault_memOk hw)))
  · next hv =>
    rw [hv] at hw
    exact getD_memOk (modLaunch_memOk hw) (fun _ => restoreGroup_memOk (modLaunch_memOk hw))
  · next hv =>
    rw [hv] at hw
    exact modLaunch_memOk (postFault_memOk hw)
  · next hv =>
    rw [hv] at hw
    exact modLaunch_memOk hw

theorem badArg_memOk {s : State} {tag} (h : s.memOk) : (s.badArg tag).memOk := by
  unfold State.badArg
  grind [respond_memOk]

theorem recordOf_memOk {s : State} {c t v} (h : s.memOk) : ((s.recordOf c t v).1).memOk := by
  unfold State.recordOf
  grind [vaGet_memOk]

theorem modSavedWave_memOk {s : State} {t i f} (h : s.memOk) : (s.modSavedWave t i f).memOk := by
  unfold State.modSavedWave
  grind [modTeam_memOk]

theorem atStopped_memOk {s : State} {tag : Word} {c slot w : Nat} {f : State → Nat → State}
    {g : State → SavedWave → List Byte → SavedRes} (h : s.memOk) (hf : ∀ s k, s.memOk → (f s k).memOk)
    (hg : ∀ s v bs t new y, s.memOk → g s v bs = .wrote t new y → t.memOk) : (s.atStopped tag c slot w f g).memOk := by
  unfold State.atStopped
  split
  · split
    · exact badArg_memOk h
    · exact hf _ _ h
  · split
    · exact badArg_memOk h
    · next t v _ =>
      have hr := recordOf_memOk (c := c) (t := t) (v := v) h
      split
      · next he => exact refuse_memOk (by rw [he] at hr; exact hr)
      · next u bs he =>
        replace hr : u.memOk := by rw [he] at hr; exact hr
        split
        · exact badArg_memOk hr
        · exact refuse_memOk hr
        · next q new y hq =>
          have hq := hg _ _ _ _ _ _ hr hq
          have hp := vaPut_memOk (via := .core c) (ctx := (q.team t).ctx) (va := (q.team t).recVa v.member v.index) (bs := new) hq
          split
          · next he => exact refuse_memOk (by rw [he] at hp; exact hp)
          · next he => exact okay_memOk (modSavedWave_memOk (by rw [he] at hp; exact hp))

theorem oldValue_memOk {s : State} {c w n} (h : s.memOk) : ((s.oldValue c w n).1).memOk := by
  unfold State.oldValue
  grind [State.memOk]

theorem writeName_memOk {s : State} {tag c slot w name lanes data} (h : s.memOk) :
    (s.writeName tag c slot w name lanes data).memOk := by
  unfold State.writeName
  grind [okay_memOk, spillWave_memOk, refuse_memOk, badArg_memOk, oldValue_memOk, atStopped_memOk, writeVec_memOk, Stop.memOk,
    State.memOk]

theorem settleWrite_memOk {s : State} (h : s.memOk) : s.settleWrite.memOk := by
  unfold State.settleWrite
  grind [writeName_memOk, State.memOk]

theorem abandonSaved_memOk {s : State} {c w} (h : s.memOk) : (s.abandonSaved c w).memOk := by
  unfold State.abandonSaved
  grind [abandon_memOk, foldl_memOk]

theorem putRecords_both {s : State} {t a a'} (h : s.memOk) :
    (∀ u, s.putRecords t a a' = .ok u → u.1.memOk) ∧ ∀ u, s.putRecords t a a' = .error u → u.memOk := by
  induction a generalizing s a' with
  | nil =>
    constructor <;> intro u e
    · rw [← Except.ok.inj e]
      exact h
    · cases e
  | cons y r ih =>
    obtain ⟨c, w⟩ := y
    have h0 := modWave_memOk (c := c) (w := w) (f := fun x => { x with racqAsked := (s.wave c w).asked })
      (abandonSaved_memOk (c := c) (w := w) h)
    unfold State.putRecords
    dsimp only
    split
    · constructor <;> intro u e
      · cases e
      · exact Except.error.inj e ▸ saveFails_memOk h0
    · next bs v _ =>
      split
      · constructor <;> intro u e
        · cases e
        · exact Except.error.inj e ▸ h0
      · split
        · next hv =>
          constructor <;> intro u e
          · cases e
          · exact Except.error.inj e ▸ saveFails_memOk (fst_memOk (vaPut_memOk h0) hv)
        · next hv => exact ih (fst_memOk (vaPut_memOk h0) hv)

theorem putRecords_memOk {s : State} {t a a' u} (h : s.memOk) (e : s.putRecords t a a' = .ok u) : u.1.memOk :=
  (putRecords_both h).1 u e

theorem putRecords_error_memOk {s : State} {t a a' u} (h : s.memOk) (e : s.putRecords t a a' = .error u) : u.memOk :=
  (putRecords_both h).2 u e

theorem parkJobs_memOk {s : State} {c t} (h : s.memOk) : (s.parkJobs c t).memOk := by
  unfold State.parkJobs
  grind [recPut_memOk, foldl_memOk]

/-- What saving answers keeps the form of memory, whether it ends or fails. -/
def SaveOk (r : Except State State) : Prop :=
  (∀ u, r = .ok u → u.memOk) ∧ ∀ u, r = .error u → u.memOk

theorem SaveOk.ok {s : State} (h : s.memOk) : SaveOk (.ok s) := by
  constructor <;> intro u e
  · rw [← Except.ok.inj e]
    exact h
  · cases e

theorem SaveOk.error {s : State} (h : s.memOk) : SaveOk (.error s) := by
  constructor <;> intro u e
  · cases e
  · rw [← Except.error.inj e]
    exact h

/-- The proof keeps only names of `benchKey` and of the offset `0x40000`, and unfolds `putAreas` to its recursor: with their numerals in
the goal, checking the casts of the case split counts up to them in unary. -/
theorem putAreas_saveOk {s : State} {t a} (h : s.memOk) : SaveOk (s.putAreas t a) := by
  obtain ⟨key, hkey⟩ : ∃ k, k = @benchKey := ⟨_, rfl⟩
  obtain ⟨off, hoff⟩ : ∃ x : DWord, x = 0x40000 := ⟨_, rfl⟩
  generalize hf : @State.putAreas = f
  delta State.putAreas State.putAreas._f at hf
  rw [← hkey, ← hoff] at hf
  subst hf
  induction a generalizing s with
  | nil => exact .ok h
  | cons m r ih =>
    have h0 := parkJobs_memOk (c := m.core) (t := t) h
    dsimp only [List.brecOn, List.brecOn.go] at ih ⊢
    split
    · exact .error (saveFails_memOk h0)
    · split
      · exact .error h0
      · split
        · next hv => exact .error (saveFails_memOk (fst_memOk (vaPut_memOk h0) hv))
        · next hv =>
          have h1 := fst_memOk (vaPut_memOk h0) hv
          split
          · next hw => exact .error (saveFails_memOk (fst_memOk (vaPut_memOk h1) hw))
          · next hw => exact ih (fst_memOk (vaPut_memOk h1) hw)

theorem putAreas_memOk {s : State} {t a u} (h : s.memOk) (e : s.putAreas t a = .ok u) : u.memOk :=
  (putAreas_saveOk h).1 u e

theorem putAreas_error_memOk {s : State} {t a u} (h : s.memOk) (e : s.putAreas t a = .error u) : u.memOk :=
  (putAreas_saveOk h).2 u e

theorem leaveSlot_memOk {s : State} {c w v} (h : s.memOk) : (s.leaveSlot c w v).memOk := by
  unfold State.leaveSlot
  grind [modJig_memOk, modTeam_memOk, renameWave_memOk, modCore_memOk, removeWave_memOk, State.memOk]

theorem saveNow_memOk {s : State} {t ws whole} (h : s.memOk) : (s.saveNow t ws whole).memOk := by
  unfold State.saveNow
  split
  · next hr => exact putRecords_error_memOk h hr
  · next hr =>
    have hr := putRecords_memOk h hr
    split
    · next ha =>
      split at ha
      · exact putAreas_error_memOk hr ha
      · cases ha
    · next u ha =>
      have hu : u.memOk := by
        split at ha
        · exact putAreas_memOk hr ha
        · exact Except.ok.inj ha ▸ hr
      exact ite_memOk _ _ _ (foldl_memOk hu (fun _ _ => leaveSlot_memOk))
        (modTeam_memOk (foldl_memOk (foldl_memOk hu (fun _ _ => leaveSlot_memOk)) (fun _ _ => modCore_memOk)))

theorem settleSaves_memOk {s : State} (h : s.memOk) : s.settleSaves.memOk := by
  unfold State.settleSaves
  grind [saveNow_memOk, foldl_memOk, foldl_fst_memOk]

theorem settleHeld_memOk {s : State} (h : s.memOk) : s.settleHeld.memOk := by
  unfold State.settleHeld
  grind [enterBox_memOk, foldl_memOk]

theorem walkEmit_memOk {s : State} {c k extra result value} (h : s.memOk) : (s.walkEmit c k extra result value).memOk := by
  unfold State.walkEmit
  grind [walkNext_memOk, walkEntry_memOk]

theorem walkEmitAll_memOk {s : State} {c k left x} (h : s.memOk) : (s.walkEmitAll c k left x).memOk := by
  unfold State.walkEmitAll
  grind [modWalk_memOk, setWalk_memOk, walkNext_memOk, walkEntry_memOk, foldl_memOk, foldl_fst_memOk, State.memOk]

theorem walkRetry_memOk {s : State} {c k} (h : s.memOk) : (s.walkRetry c k).memOk := by
  unfold State.walkRetry
  grind [walkEmitAll_memOk, walkEntry_memOk, walkEmit_memOk]

theorem settleWalks_memOk {s : State} (h : s.memOk) : s.settleWalks.memOk := by
  unfold State.settleWalks
  grind [bank_memOk, walkRetry_memOk, foldl_memOk, foldl_fst_memOk]

theorem settleLaunches_memOk {s : State} (h : s.memOk) : s.settleLaunches.memOk := by
  unfold State.settleLaunches
  grind [programLaunch_memOk, endWait_memOk, foldl_memOk, foldl_fst_memOk]

theorem settleCqpops_memOk {s : State} (h : s.memOk) : s.settleCqpops.memOk := by
  unfold State.settleCqpops
  grind [cqServe_memOk, foldl_memOk, foldl_fst_memOk]

theorem servePop_memOk {s : State} {q} (h : s.memOk) : (s.servePop q).memOk := by
  unfold State.servePop
  grind [spillWave_memOk, dropWait_memOk, endWaitWith_memOk, modSq_memOk, sqTake_memOk, sqTake_error_memOk, trapNow_memOk]

theorem servePush_memOk {s : State} {q} (h : s.memOk) : (s.servePush q).memOk := by
  unfold State.servePush
  grind [sqStore_done_memOk, sqStore_fault_memOk, trapWait_memOk, modSq_memOk, endWait_memOk]

theorem serveQueue_memOk {s : State} {q a} (h : s.memOk) : (s.serveQueue q a).memOk := by
  fun_induction s.serveQueue q a
  all_goals grind [servePush_memOk, servePop_memOk]

theorem settleQueues_memOk {s : State} (h : s.memOk) : s.settleQueues.memOk := by
  unfold State.settleQueues
  grind [serveQueue_memOk, foldl_memOk, foldl_fst_memOk]

theorem settleWakes_memOk {s : State} (h : s.memOk) : s.settleWakes.memOk := by
  unfold State.settleWakes
  grind [waitaTest_memOk, waitaWait_memOk, foldl_memOk, foldl_fst_memOk]

theorem quietNow_memOk {s : State} {l action} (h : s.memOk) : (s.quietNow l action).memOk := by
  unfold State.quietNow
  grind [debugStop_memOk, gbarComplete_memOk, modTeam_memOk, startSave_memOk, modLaunch_memOk, flushDirty_memOk, foldl_memOk,
    foldl_fst_memOk, Stop.memOk]

theorem settleQuiet_memOk {s : State} (h : s.memOk) : s.settleQuiet.memOk := by
  unfold State.settleQuiet
  grind [quietNow_memOk, modLaunch_memOk, foldl_memOk, foldl_fst_memOk]

theorem settleGbars_memOk {s : State} (h : s.memOk) : s.settleGbars.memOk := by
  unfold State.settleGbars
  grind [gbarComplete_memOk, foldl_memOk, foldl_fst_memOk]

theorem tbarRelease_memOk {s : State} {l c} (h : s.memOk) : (s.tbarRelease l c).memOk := by
  unfold State.tbarRelease
  grind [acquireFor_memOk, modLaunch_memOk, endWait_memOk, foldl_memOk, foldl_fst_memOk]

theorem settleTbars_memOk {s : State} (h : s.memOk) : s.settleTbars.memOk := by
  unfold State.settleTbars
  grind [tbarRelease_memOk, foldl_memOk, foldl_fst_memOk]

theorem settleCame_memOk {s : State} (h : s.memOk) : s.settleCame.memOk := by
  unfold State.settleCame
  grind [newId_memOk, modLaunch_memOk, foldl_memOk, foldl_fst_memOk]

theorem settleByteBars_memOk {s : State} (h : s.memOk) : s.settleByteBars.memOk := by
  unfold State.settleByteBars
  grind [trapWait_memOk, acquireFor_memOk, endWait_memOk, foldl_memOk, foldl_fst_memOk]

theorem barRelease_memOk {s : State} {t b} (h : s.memOk) : (s.barRelease t b).memOk := by
  unfold State.barRelease
  grind [modTeam_memOk, acquireFor_memOk, endWait_memOk, foldl_memOk, foldl_fst_memOk]

theorem settleBars_memOk {s : State} (h : s.memOk) : s.settleBars.memOk := by
  unfold State.settleBars
  grind [barRelease_memOk, foldl_memOk, foldl_fst_memOk]

theorem settleAll_memOk {s : State} (h : s.memOk) : s.settleAll.memOk := by
  unfold State.settleAll
  grind [settleStops_memOk, settleQueues_memOk, settleDrains_memOk, settleWakes_memOk, settleLaunches_memOk, settleWalks_memOk,
    settleTbars_memOk, settleRecs_memOk, settleWrite_memOk, settleByteBars_memOk, settlePark_memOk, settleAuto_memOk,
    settleHeld_memOk, settleCheckpoint_memOk, settleBars_memOk, settleQuiet_memOk, settleOutside_memOk, settleCqpops_memOk,
    settleGbars_memOk, settleTakeUps_memOk, settleCame_memOk, settleSaves_memOk, settleSends_memOk, drainFaults_memOk, Stop.memOk]

/-! ### The turns of a step -/

theorem tookDecoder_memOk {s : State} {u} (h : s.memOk) : (s.tookDecoder u).memOk := by
  unfold State.tookDecoder
  grind [modSlice_memOk]

theorem endTurn_memOk {s : State} (h : s.memOk) : s.endTurn.memOk := by
  unfold State.endTurn
  grind [settleBoxes_memOk, tookDecoder_memOk, modWave_memOk, State.memOk]

theorem after_memOk {s : State} (h : s.memOk) : s.after.memOk := by
  unfold State.after
  grind [endTurn_memOk, settleAll_memOk]

theorem sliceTurn_memOk {run : Instr → State → Host.Outcome State Fault Refusal} {s : State} {c k : Nat} (h : s.memOk) :
    (s.sliceTurn run c k).memOk := by
  have h1 : ((s.sliceWaves c k).foldl (fun s v => v.2.bundles.foldl (fun s b => s.leftBy c v.1 b
      (s.tryBundle run c v.1 b false)) s) s).memOk :=
    foldl_memOk h (fun _ _ h => foldl_memOk h (fun _ _ h => leftBy_memOk h (fun _ => tryBundle_misses_memOk h)))
  unfold State.sliceTurn
  refine ite_memOk _ _ _ h ?_
  generalize (s.sliceWaves c k).foldl (fun s v => v.2.bundles.foldl (fun s b => s.leftBy c v.1 b
      (s.tryBundle run c v.1 b false)) s) s = u at h1
  extract_lets u' ready missing best won v
  have hv : v.memOk := foldl_memOk h1 (fun _ _ h => ite_memOk _ _ _ h (ite_memOk _ _ _ (modWave_memOk h) (modWave_memOk h)))
  clear_value v best
  cases best with
  | none => exact hv
  | some b => exact modWave_memOk (newId_memOk hv)

theorem withSnap_memOk {s : State} {c w second} (h : s.memOk) : (s.withSnap c w second).memOk := by
  unfold State.withSnap
  grind [State.memOk]

theorem withTwin_memOk {run : Instr → State → Host.Outcome State Fault Refusal} {s : State} {c w : Nat} {second : Bool} (h : s.memOk) :
    (s.withTwin run c w second).memOk := by
  unfold State.withTwin
  grind [withSnap_memOk, State.memOk]

theorem fetchWalkWord_memOk {s : State} {c k x} (h : s.memOk) : ((s.fetchWalkWord c k x).1).memOk := by
  unfold State.fetchWalkWord
  grind [walkFault_memOk, walkRead_memOk]

theorem walkTurn_memOk {run : Instr → State → Host.Outcome State Fault Refusal} {s : State} {c : Nat} {t : State} (hr : RunOk run)
    (h : s.memOk) (e : s.walkTurn run c = .next t) : t.memOk := by
  unfold State.walkTurn at e
  grind [modCore_memOk, walkIllegal_memOk, fetchWalkWord_memOk, State.memOk, RunOk]

theorem jigTurn_memOk {run : Instr → State → Host.Outcome State Fault Refusal} {s : State} {c : Nat} {t : State} (hr : RunOk run)
    (h : s.memOk) (e : s.jigTurn run c = .next t) : t.memOk := by
  unfold State.jigTurn at e
  grind [State.memOk, RunOk]

theorem forget_memOk {s : State} {cache c key} (h : s.memOk) : (s.forget cache c key).memOk := by
  unfold State.forget
  grind [modCore_memOk, dropLine_memOk, State.memOk]

theorem serveOutside_memOk {s : State} (h : s.memOk) : s.serveOutside.memOk := by
  unfold State.serveOutside
  grind [outsideAgain_memOk, State.memOk]

theorem serveTakeUp_memOk {s : State} (h : s.memOk) : s.serveTakeUp.memOk := by
  unfold State.serveTakeUp
  grind [takeUpAgain_memOk, State.memOk]

theorem runAct_memOk {run : Instr → State → Host.Outcome State Fault Refusal} {s : State} {a : Act} {t : State} (hr : RunOk run)
    (h : s.memOk) (e : s.runAct run a = .next t) : t.memOk := by
  unfold State.runAct at e
  grind [RunOk, Own.run_memOk, sliceTurn_memOk, withTwin_memOk, prepare_miss_memOk, prepare_done_memOk, prepare_run_memOk, noSecond_memOk,
    walkTurn_memOk, jigTurn_memOk, spillWave_memOk, forget_memOk, serveOutside_memOk, serveTakeUp_memOk]

theorem actGated_memOk {run : Instr → State → Host.Outcome State Fault Refusal} {s : State} {a : Act} {t : State} (hr : RunOk run)
    (h : s.memOk) (e : s.actGated run a = .next t) : t.memOk :=
  gated_memOk h (fun _ => runAct_memOk hr h) e

theorem turn_memOk {run : Instr → State → Host.Outcome State Fault Refusal} {s : State} {t : State} (hr : RunOk run)
    (h : s.memOk) (e : s.turn run = .next t) : t.memOk := by
  unfold State.turn at e
  grind [nextTurn_memOk, unstick_memOk, advance_memOk, present_memOk, actGated_memOk, after_memOk]

/-! ### Words of walks -/

theorem walkRun_memOk {s : State} {f : State → Nat → Nat → Walk → State} {t : State} (h : s.memOk)
    (hf : ∀ s c k x, s.memOk → (f s c k x).memOk) (e : walkRun s f = .next t) : t.memOk := by
  unfold walkRun at e
  grind

theorem readDesc_memOk {s : State} {c x i} (h : s.memOk) : (s.readDesc c x i).1.memOk := by
  unfold State.readDesc
  split
  · next he => exact fst_memOk (walkRead_memOk h) he
  · next he => exact fst_memOk (walkRead_memOk h) he
  · next he =>
    have h1 := fst_memOk (walkRead_memOk h) he
    split
    · exact h1
    · split
      · next he => exact fst_memOk (walkRead_memOk h1) he
      · next he => exact fst_memOk (walkRead_memOk h1) he
      · next he =>
        have h2 := fst_memOk (walkRead_memOk h1) he
        dsimp only
        split
        · exact h2
        · split
          · next he => exact fst_memOk (walkRead_memOk h2) he
          · next he => exact fst_memOk (walkRead_memOk h2) he
          · next he =>
            have h3 := fst_memOk (walkRead_memOk h2) he
            split
            · exact h3
            · split
              · next he => exact fst_memOk (walkRead_memOk h3) he
              · next he => exact fst_memOk (walkRead_memOk h3) he
              · next he =>
                have h4 := fst_memOk (walkRead_memOk h3) he
                split
                · exact h4
                · exact h4

theorem execNfetch_memOk {s : State} {d a f t} (h : s.memOk) (e : execNfetch d a f s = .next t) : t.memOk := by
  unfold execNfetch at e
  grind [walkFault_memOk, walkRun_memOk, walkEnd_memOk, readDesc_memOk, setWalk_memOk, walkIllegal_memOk]

theorem walkStep_memOk {s : State} {f t} (h : s.memOk) (e : walkStep s f = .next t) : t.memOk := by
  unfold walkStep at e
  grind [walkRun_memOk, setWalk_memOk, walkNext_memOk]

theorem execNget_memOk {s : State} {d a sel idx slot b t} (h : s.memOk) (e : execNget d a sel idx slot b s = .next t) : t.memOk := by
  unfold execNget at e
  grind [walkStep_memOk]

theorem execNcnt_memOk {s : State} {m d a t} (h : s.memOk) (e : execNcnt m d a s = .next t) : t.memOk := by
  unfold execNcnt at e
  grind [walkStep_memOk]

theorem execNptr_memOk {s : State} {m d a slot b t} (h : s.memOk) (e : execNptr m d a slot b s = .next t) : t.memOk := by
  unfold execNptr at e
  grind [walkStep_memOk]

theorem execBox8_memOk {s : State} {hi d b t} (h : s.memOk) (e : execBox8 hi d b s = .next t) : t.memOk := by
  unfold execBox8 at e
  grind [walkStep_memOk]

theorem execOvl8_memOk {s : State} {hi inn d b t} (h : s.memOk) (e : execOvl8 hi inn d b s = .next t) : t.memOk := by
  unfold execOvl8 at e
  grind [walkStep_memOk]

theorem execTri_memOk {s : State} {cb cf d a b c t} (h : s.memOk) (e : execTri cb cf d a b c s = .next t) : t.memOk := by
  unfold execTri at e
  grind [walkStep_memOk, foldl_memOk]

theorem execSphr_memOk {s : State} {ray d a b t} (h : s.memOk) (e : execSphr ray d a b s = .next t) : t.memOk := by
  unfold execSphr at e
  grind [walkStep_memOk]

theorem execKcmp_memOk {s : State} {c sg sel d a b t} (h : s.memOk) (e : execKcmp c sg sel d a b s = .next t) : t.memOk := by
  unfold execKcmp at e
  grind [walkStep_memOk]

theorem execKrng_memOk {s : State} {node sg d a b t} (h : s.memOk) (e : execKrng node sg d a b s = .next t) : t.memOk := by
  unfold execKrng at e
  grind [walkStep_memOk]

theorem execDist_memOk {s : State} {ty dot z a b t} (h : s.memOk) (e : execDist ty dot z a b s = .next t) : t.memOk := by
  unfold execDist at e
  grind [walkStep_memOk]

theorem execDfin_memOk {s : State} {int mode z d t} (h : s.memOk) (e : execDfin int mode z d s = .next t) : t.memOk := by
  unfold execDfin at e
  grind [walkStep_memOk]

theorem execKds_memOk {s : State} {d a b slot t} (h : s.memOk) (e : execKds d a b slot s = .next t) : t.memOk := by
  unfold execKds at e
  grind [walkStep_memOk]

theorem execSortm_memOk {s : State} {desc a t} (h : s.memOk) (e : execSortm desc a s = .next t) : t.memOk := by
  unfold execSortm at e
  grind [walkStep_memOk]

theorem walkDepth_memOk {s : State} {c k depth} (h : s.memOk) : (s.walkDepth c k depth).memOk := by
  unfold State.walkDepth
  grind [walkEnd_memOk]

theorem walkPush_memOk {s : State} {c k vs} (h : s.memOk) : (s.walkPush c k vs).memOk := by
  unfold State.walkPush
  grind [walkDepth_memOk, setWalk_memOk, walkNext_memOk]

theorem execPush_memOk {s : State} {pair a t} (h : s.memOk) (e : execPush pair a s = .next t) : t.memOk := by
  unfold execPush at e
  grind [walkRun_memOk, walkPush_memOk]

theorem execPushm_memOk {s : State} {kk a b t} (h : s.memOk) (e : execPushm kk a b s = .next t) : t.memOk := by
  unfold execPushm at e
  grind [walkRun_memOk, walkPush_memOk]

theorem execPop_memOk {s : State} {pair d t} (h : s.memOk) (e : execPop pair d s = .next t) : t.memOk := by
  unfold execPop at e
  grind [walkRun_memOk, setWalk_memOk, walkNext_memOk]

theorem execSclr_memOk {s : State} {t} (h : s.memOk) (e : execSclr s = .next t) : t.memOk := by
  unfold execSclr at e
  grind [walkStep_memOk]

theorem execEmit_memOk {s : State} {a b x t} (h : s.memOk) (e : execEmit a b x s = .next t) : t.memOk := by
  unfold execEmit at e
  grind [walkRun_memOk, walkEmit_memOk]

theorem execTopk_memOk {s : State} {ty desc d a b k t} (h : s.memOk) (e : execTopk ty desc d a b k s = .next t) : t.memOk := by
  unfold execTopk at e
  grind [walkRun_memOk, setWalk_memOk, walkIllegal_memOk, walkNext_memOk]

theorem execEmitk_memOk {s : State} {x t} (h : s.memOk) (e : execEmitk x s = .next t) : t.memOk := by
  unfold execEmitk at e
  grind [walkRun_memOk, walkEmitAll_memOk, walkIllegal_memOk]

theorem execDone_memOk {s : State} {a b x t} (h : s.memOk) (e : execDone a b x s = .next t) : t.memOk := by
  unfold execDone at e
  grind [walkRun_memOk, walkEntry_memOk, freeWalk_memOk, State.memOk]

theorem sendHandoff_memOk {s : State} {c k} (h : s.memOk) : (s.sendHandoff c k).memOk := by
  unfold State.sendHandoff
  grind [setWalk_memOk, newId_memOk, State.memOk]

theorem execHoff_memOk {s : State} {a entry t} (h : s.memOk) (e : execHoff a entry s = .next t) : t.memOk := by
  unfold execHoff at e
  grind [walkFault_memOk, walkRun_memOk, walkEnd_memOk, sendHandoff_memOk, setWalk_memOk, walkIllegal_memOk]

theorem walkBranch_memOk {s : State} {c k x off} (h : s.memOk) : (s.walkBranch c k x off).memOk := by
  unfold State.walkBranch
  grind [setWalk_memOk, walkIllegal_memOk]

theorem execBr_memOk {s : State} {off t} (h : s.memOk) (e : execBr off s = .next t) : t.memOk := by
  unfold execBr at e
  grind [walkRun_memOk, walkBranch_memOk]

theorem execBrc_memOk {s : State} {cd off t} (h : s.memOk) (e : execBrc cd off s = .next t) : t.memOk := by
  unfold execBrc at e
  grind [walkRun_memOk, walkBranch_memOk, walkNext_memOk]

theorem execYldw_memOk {s : State} {t} (h : s.memOk) (e : execYldw s = .next t) : t.memOk := by
  unfold execYldw at e
  grind [walkRun_memOk, modCore_memOk, walkNext_memOk]

theorem walkAlu_memOk {s : State} {w d a y f t} (h : s.memOk) (e : walkAlu w d a y f s = .next t) : t.memOk := by
  unfold walkAlu at e
  grind [walkStep_memOk]

theorem execWadd_memOk {s : State} {w d a y t} (h : s.memOk) (e : execWadd w d a y s = .next t) : t.memOk := by
  unfold execWadd at e
  grind [walkAlu_memOk]

theorem execWsub_memOk {s : State} {w d a y t} (h : s.memOk) (e : execWsub w d a y s = .next t) : t.memOk := by
  unfold execWsub at e
  grind [walkAlu_memOk]

theorem execWand_memOk {s : State} {w d a y t} (h : s.memOk) (e : execWand w d a y s = .next t) : t.memOk := by
  unfold execWand at e
  grind [walkAlu_memOk]

theorem execWor_memOk {s : State} {w d a y t} (h : s.memOk) (e : execWor w d a y s = .next t) : t.memOk := by
  unfold execWor at e
  grind [walkAlu_memOk]

theorem execWxor_memOk {s : State} {w d a y t} (h : s.memOk) (e : execWxor w d a y s = .next t) : t.memOk := by
  unfold execWxor at e
  grind [walkAlu_memOk]

theorem execWshl_memOk {s : State} {w d a y t} (h : s.memOk) (e : execWshl w d a y s = .next t) : t.memOk := by
  unfold execWshl at e
  grind [walkAlu_memOk]

theorem execWshr_memOk {s : State} {w d a y t} (h : s.memOk) (e : execWshr w d a y s = .next t) : t.memOk := by
  unfold execWshr at e
  grind [walkAlu_memOk]

theorem execMinmax_memOk {s : State} {ty max_ d a b t} (h : s.memOk) (e : execMinmax ty max_ d a b s = .next t) : t.memOk := by
  unfold execMinmax at e
  grind [walkStep_memOk]

theorem execFmad_memOk {s : State} {mode neg d a b t} (h : s.memOk) (e : execFmad mode neg d a b s = .next t) : t.memOk := by
  unfold execFmad at e
  grind [walkStep_memOk]

theorem execCmps_memOk {s : State} {c ty a y t} (h : s.memOk) (e : execCmps c ty a y s = .next t) : t.memOk := by
  unfold execCmps at e
  grind [walkStep_memOk]

theorem execMovq_memOk {s : State} {d a t} (h : s.memOk) (e : execMovq d a s = .next t) : t.memOk := by
  unfold execMovq at e
  grind [walkStep_memOk]

theorem execMovqImm_memOk {s : State} {d i t} (h : s.memOk) (e : execMovqImm d i s = .next t) : t.memOk := by
  unfold execMovqImm at e
  grind [walkStep_memOk]

theorem execMovqShi_memOk {s : State} {d i t} (h : s.memOk) (e : execMovqShi d i s = .next t) : t.memOk := by
  unfold execMovqShi at e
  grind [walkStep_memOk]

theorem execMovqSpc_memOk {s : State} {d src t} (h : s.memOk) (e : execMovqSpc d src s = .next t) : t.memOk := by
  unfold execMovqSpc at e
  grind [walkRun_memOk, setWalk_memOk, walkNext_memOk]

theorem execLdq_memOk {s : State} {d a off n t} (h : s.memOk) (e : execLdq d a off n s = .next t) : t.memOk := by
  unfold execLdq at e
  grind [walkFault_memOk, walkRun_memOk, setWalk_memOk]

theorem execWalkNonInstructionWord_memOk {s : State} {_w t} (h : s.memOk) (e : execWalkNonInstructionWord _w s = .next t) :
    t.memOk := by
  unfold execWalkNonInstructionWord at e
  grind [walkRun_memOk, walkIllegal_memOk]

/-! ### Words of the Jig -/

theorem jigRun_memOk {s : State} {f : State → Nat → Jig → State} {t : State} (h : s.memOk)
    (hf : ∀ s c j, s.memOk → (f s c j).memOk) (e : jigRun s f = .next t) : t.memOk := by
  unfold jigRun at e
  grind

theorem jigGlobal_memOk {s : State} {c ctx a a' a''} (h : s.memOk) : (s.jigGlobal c ctx a a' a'').1.memOk := by
  induction a generalizing s a' a'' with
  | zero => cases a'' <;> exact h
  | succ fuel ih =>
    by_cases ha : a'' = 0
    · subst ha
      exact h
    · rw [State.jigGlobal]
      rotate_left
      · exact ha
      dsimp only
      split
      · exact h
      · split
        · next he => exact fst_memOk (place_memOk h) he
        · next he =>
          have hp := fst_memOk (place_memOk h) he
          split
          · exact hp
          · exact hp
          · split
            · exact hp
            · exact hp
            · split
              · exact hp
              · split
                · exact l2Use_memOk (touchMark_memOk hp)
                · split
                  · next he => exact fst_memOk (ih (l2Use_memOk (touchMark_memOk hp))) he
                  · exact ih (l2Use_memOk (touchMark_memOk hp))

theorem jigLoad_memOk {s : State} {c j g a off n al} (h : s.memOk) : ((s.jigLoad c j g a off n al).1).memOk := by
  unfold State.jigLoad
  grind [jigGlobal_memOk]

theorem setJig_memOk {s : State} {c j} (h : s.memOk) : (s.setJig c j).memOk := by
  unfold State.setJig
  grind [modJig_memOk]

theorem jigStop_memOk {s : State} {c e addr} (h : s.memOk) : (s.jigStop c e addr).memOk := by
  unfold State.jigStop
  grind [sendAsync_memOk, modJig_memOk, Stop.memOk]

theorem jigFault_memOk {s : State} {c e va} (h : s.memOk) : (s.jigFault c e va).memOk := by
  unfold State.jigFault
  grind [postFault_memOk, jigStop_memOk, Stop.memOk]

theorem jigLoads_memOk {s : State} {g a off n al put t} (h : s.memOk) (e : jigLoads s g a off n al put = .next t) : t.memOk := by
  unfold jigLoads at e
  grind [setJig_memOk, jigLoad_memOk, jigRun_memOk, jigFault_memOk]

theorem execJlds_memOk {s : State} {g d a off t} (h : s.memOk) (e : execJlds g d a off s = .next t) : t.memOk := by
  unfold execJlds at e
  grind [jigLoads_memOk]

theorem jigStep_memOk {s : State} {f t} (h : s.memOk) (e : jigStep s f = .next t) : t.memOk := by
  unfold jigStep at e
  grind [setJig_memOk, jigRun_memOk]

theorem execJunpk_memOk {s : State} {sg d a src dst part t} (h : s.memOk) (e : execJunpk sg d a src dst part s = .next t) :
    t.memOk := by
  unfold execJunpk at e
  grind [jigStep_memOk]

theorem execJpack_memOk {s : State} {sg sat d a src dst part t} (h : s.memOk) (e : execJpack sg sat d a src dst part s = .next t)
    : t.memOk := by
  unfold execJpack at e
  grind [jigStep_memOk]

theorem execJdelta_memOk {s : State} {d a b wid t} (h : s.memOk) (e : execJdelta d a b wid s = .next t) : t.memOk := by
  unfold execJdelta at e
  grind [jigStep_memOk]

theorem execJrld_memOk {s : State} {g d a off t} (h : s.memOk) (e : execJrld g d a off s = .next t) : t.memOk := by
  unfold execJrld at e
  grind [jigLoads_memOk]

theorem execJcvt_memOk {s : State} {d a part sat mode dst src t} (h : s.memOk)
    (e : execJcvt d a part sat mode dst src s = .next t) : t.memOk := by
  unfold execJcvt at e
  grind [jigStep_memOk]

theorem execJperm_memOk {s : State} {d a b t} (h : s.memOk) (e : execJperm d a b s = .next t) : t.memOk := by
  unfold execJperm at e
  grind [jigStep_memOk]

theorem execJput_memOk {s : State} {q a t} (h : s.memOk) (e : execJput q a s = .next t) : t.memOk := by
  unfold execJput at e
  grind [setJig_memOk, jigRun_memOk]

theorem execJgadd_memOk {s : State} {d a y t} (h : s.memOk) (e : execJgadd d a y s = .next t) : t.memOk := by
  unfold execJgadd at e
  grind [jigStep_memOk]

theorem execJgand_memOk {s : State} {d a y t} (h : s.memOk) (e : execJgand d a y s = .next t) : t.memOk := by
  unfold execJgand at e
  grind [jigStep_memOk]

theorem execJgshr_memOk {s : State} {d a y t} (h : s.memOk) (e : execJgshr d a y s = .next t) : t.memOk := by
  unfold execJgshr at e
  grind [jigStep_memOk]

theorem jigIllegal_memOk {s : State} {c} (h : s.memOk) : (s.jigIllegal c).memOk := by
  unfold State.jigIllegal
  grind [jigStop_memOk, Stop.memOk]

theorem execJbr_memOk {s : State} {cond a target t} (h : s.memOk) (e : execJbr cond a target s = .next t) : t.memOk := by
  unfold execJbr at e
  grind [setJig_memOk, jigRun_memOk, jigIllegal_memOk]

theorem execJloop_memOk {s : State} {a target t} (h : s.memOk) (e : execJloop a target s = .next t) : t.memOk := by
  unfold execJloop at e
  grind [setJig_memOk, jigRun_memOk, jigIllegal_memOk]

theorem execJwait_memOk {s : State} {q k t} (h : s.memOk) (e : execJwait q k s = .next t) : t.memOk := by
  unfold execJwait at e
  grind [setJig_memOk, jigRun_memOk]

theorem execJend_memOk {s : State} {t} (h : s.memOk) (e : execJend s = .next t) : t.memOk := by
  unfold execJend at e
  grind [setJig_memOk, jigRun_memOk]

theorem execJflag_memOk {s : State} {k y t} (h : s.memOk) (e : execJflag k y s = .next t) : t.memOk := by
  unfold execJflag at e
  grind [setJig_memOk, jigRun_memOk, settleBoxes_memOk, modWave_memOk]

theorem execJigNonInstructionWord_memOk {s : State} {_w t} (h : s.memOk) (e : execJigNonInstructionWord _w s = .next t) : t.memOk := by
  unfold execJigNonInstructionWord at e
  grind [jigRun_memOk, jigIllegal_memOk]

/-! ### Events of lines, links, power and errors -/

theorem execL1WriteBack_memOk {s : State} {c line evict t} (h : s.memOk) (e : execL1WriteBack c line evict s = .next t) : t.memOk := by
  unfold execL1WriteBack at e
  grind [writeBack_memOk, dropLine_memOk]

theorem execLineWriteBack_memOk {s : State} {line t} (h : s.memOk) (e : execLineWriteBack line s = .next t) : t.memOk := by
  unfold execLineWriteBack at e
  grind [l2Clean_memOk]

theorem verifyPage_memOk {s : State} {n r i} (h : s.memOk) : (s.verifyPage n r i).memOk := by
  unfold State.verifyPage
  grind [verifyFrame_memOk, foldl_memOk]

theorem execPageVerification_memOk {s : State} {region page t} (h : s.memOk) (e : execPageVerification region page s = .next t) :
    t.memOk := by
  unfold execPageVerification at e
  grind [verifyPage_memOk]

theorem execHandoffArrival_memOk {s : State} {msg t} (h : s.memOk) (e : execHandoffArrival msg s = .next t) : t.memOk := by
  unfold execHandoffArrival at e
  grind [modCore_memOk, State.memOk]

theorem execHandoffReturn_memOk {s : State} {c slot ret t} (h : s.memOk) (e : execHandoffReturn c slot ret s = .next t) : t.memOk := by
  unfold execHandoffReturn at e
  grind [setWalk_memOk, walkNext_memOk, walkCancel_memOk]

theorem partnerEntries_memOk {s : State} {c slot x a} (h : s.memOk) : (s.partnerEntries c slot x a).memOk := by
  fun_induction s.partnerEntries c slot x a
  all_goals grind [modWalk_memOk, cqWrite_memOk]

theorem execPartnerEntryArrival_memOk {s : State} {c slot entry t} (h : s.memOk)
    (e : execPartnerEntryArrival c slot entry s = .next t) : t.memOk := by
  unfold execPartnerEntryArrival at e
  grind [partnerEntries_memOk, setWalk_memOk, walkIllegal_memOk, freeWalk_memOk, walkCancel_memOk, State.memOk]

theorem dropArrivals_memOk {s : State} {c oc os hid} (h : s.memOk) : (s.dropArrivals c oc os hid).memOk := by
  unfold State.dropArrivals
  grind [modCore_memOk, State.memOk]

theorem execCancelMessage_memOk {s : State} {originCore originSlot t} (h : s.memOk)
    (e : execCancelMessage originCore originSlot s = .next t) : t.memOk := by
  unfold execCancelMessage at e
  grind [dropArrivals_memOk, walkCancel_memOk, foldl_memOk, foldl_fst_memOk, State.memOk]

theorem execKillMessage_memOk {s : State} {originCore originSlot t} (h : s.memOk)
    (e : execKillMessage originCore originSlot s = .next t) : t.memOk := by
  unfold execKillMessage at e
  grind [modCore_memOk, dropArrivals_memOk, foldl_memOk, foldl_fst_memOk]

theorem execWaitaWake_memOk {s : State} {line t} (h : s.memOk) (e : execWaitaWake line s = .next t) : t.memOk := by
  unfold execWaitaWake at e
  grind [settleWakes_memOk, wakeLine_memOk]

theorem execBundlePartition_memOk {s : State} {c w t} (h : s.memOk) (e : execBundlePartition c w s = .next t) : t.memOk := by
  unfold execBundlePartition at e
  grind [modWave_memOk]

theorem execSupplyDroop_memOk {s : State} {region t} (h : s.memOk) (e : execSupplyDroop region s = .next t) : t.memOk := by
  unfold execSupplyDroop at e
  grind [State.memOk]

theorem execPowerMeasurement_memOk {s : State} {watts t} (h : s.memOk) (e : execPowerMeasurement watts s = .next t) : t.memOk := by
  unfold execPowerMeasurement at e
  grind [State.memOk]

theorem execHostLinkDown_memOk {s : State} {t} (h : s.memOk) (e : execHostLinkDown s = .next t) : t.memOk := by
  unfold execHostLinkDown at e
  grind [State.memOk]

theorem flushHost_memOk {s : State} (h : s.memOk) : s.flushHost.memOk := by
  unfold State.flushHost
  grind [writeBack_memOk, foldl_memOk, foldl_fst_memOk]

theorem execHostLinkUp_memOk {s : State} {width gen t} (h : s.memOk) (e : execHostLinkUp width gen s = .next t) : t.memOk := by
  unfold execHostLinkUp at e
  grind [flushHost_memOk, msi_memOk, State.memOk]

theorem handoffsDown_memOk {s : State} (h : s.memOk) : s.handoffsDown.memOk := by
  unfold State.handoffsDown
  grind [walkEnd_memOk, modCore_memOk, walkCancel_memOk, foldl_memOk, foldl_fst_memOk, State.memOk]

theorem execPairingPortDown_memOk {s : State} {p t} (h : s.memOk) (e : execPairingPortDown p s = .next t) : t.memOk := by
  unfold execPairingPortDown at e
  grind [handoffsDown_memOk, msi_memOk, State.memOk]

theorem execPairingPortUp_memOk {s : State} {p t} (h : s.memOk) (e : execPairingPortUp p s = .next t) : t.memOk := by
  unfold execPairingPortUp at e
  grind [msi_memOk, State.memOk]

theorem execPartnerRequest_memOk {s : State} {ctx target req t} (h : s.memOk) (e : execPartnerRequest ctx target req s = .next t)
    : t.memOk := by
  unfold execPartnerRequest at e
  grind [partnerServe_memOk]

theorem execSingleBitError_memOk {s : State} {_site t} (h : s.memOk) (e : execSingleBitError _site s = .next t) : t.memOk := by
  unfold execSingleBitError at e
  grind [State.memOk]

theorem countDouble_memOk {s : State} (h : s.memOk) : s.countDouble.memOk := by
  unfold State.countDouble
  grind [State.memOk]

theorem poisonLine_memOk {s : State} {l} (h : s.memOk) : (s.poisonLine l).memOk := by
  unfold State.poisonLine
  grind [State.memOk]

theorem killCore_memOk {s : State} {c e record} (h : s.memOk) : (s.killCore c e record).memOk := by
  unfold State.killCore
  grind [postFault_memOk, killTeam_memOk, foldl_memOk, foldl_fst_memOk]

theorem machineCheck_memOk {s : State} {c} (h : s.memOk) : (s.machineCheck c).memOk := by
  unfold State.machineCheck
  grind [okay_memOk, parkCore_memOk, killCore_memOk, invalidated_memOk, State.memOk]

theorem execDoubleBitError_memOk {s : State} {site t} (h : s.memOk) (e : execDoubleBitError site s = .next t) : t.memOk := by
  unfold execDoubleBitError at e
  grind [countDouble_memOk, walkFault_memOk, killLoads_memOk, poisonLine_memOk, modCore_memOk, modSlice_memOk, modWave_memOk,
    machineCheck_memOk, modTile_memOk, State.memOk]

theorem execHostMemoryAccess_memOk {s : State} {access addr data t} (h : s.memOk)
    (e : execHostMemoryAccess access addr data s = .next t) : t.memOk := by
  unfold execHostMemoryAccess at e
  grind [homeWrite_memOk, State.memOk]

/-! ### Ingress and the commands of the host -/

theorem ingressErr_memOk {s : State} {w} (h : s.memOk) : (s.ingressErr w).memOk := by
  unfold State.ingressErr
  grind [State.memOk]

theorem commitSlot_memOk {s : State} {w slot} (h : s.memOk) : (s.commitSlot w slot).memOk := by
  unfold State.commitSlot
  grind [ingressErr_memOk, State.memOk]

theorem execIngressWrite_memOk {s : State} {w off data t} (h : s.memOk) (e : execIngressWrite w off data s = .next t) : t.memOk := by
  unfold execIngressWrite at e
  grind [ingressErr_memOk, commitSlot_memOk, foldl_memOk, State.memOk]

theorem execIngressCommit_memOk {s : State} {w slot t} (h : s.memOk) (e : execIngressCommit w slot s = .next t) : t.memOk := by
  unfold execIngressCommit at e
  grind [commitSlot_memOk]

theorem execDoorbell_memOk {s : State} {ctx tail t} (h : s.memOk) (e : execDoorbell ctx tail s = .next t) : t.memOk := by
  unfold execDoorbell at e
  grind [State.memOk]

theorem command_memOk {s : State} {tag : Word} {recovery : Bool} {f : State → State} {t : State} (h : s.memOk)
    (hf : ∀ s, s.memOk → (f s).memOk) (e : s.command tag recovery f = .next t) : t.memOk := by
  unfold State.command at e
  grind [respond_memOk, refuse_memOk]

theorem execCtxSet_memOk {s : State} {tag ctx root replay ring t} (h : s.memOk)
    (e : execCtxSet tag ctx root replay ring s = .next t) : t.memOk := by
  unfold execCtxSet at e
  grind [okay_memOk, command_memOk, refuse_memOk, badArg_memOk, State.memOk]

theorem dropLaunch_memOk {s : State} {l} (h : s.memOk) : (s.dropLaunch l).memOk := by
  unfold State.dropLaunch
  grind [cancelGrants_memOk, endLaunch_memOk, modLaunch_memOk, State.memOk]

theorem unsealRegion_memOk {s : State} {k r} (h : s.memOk) : (s.unsealRegion k r).memOk := by
  unfold State.unsealRegion
  grind [logEvent_memOk, State.memOk]

theorem tellPairing_memOk {s : State} (h : s.memOk) : s.tellPairing.memOk := by
  unfold State.tellPairing
  grind [State.memOk]

theorem dropShared_memOk {s : State} {f} (h : s.memOk) : (s.dropShared f).memOk := by
  unfold State.dropShared
  grind [State.memOk]

theorem clearCtx_memOk {s : State} {ctx} (h : s.memOk) : (s.clearCtx ctx).memOk := by
  unfold State.clearCtx
  grind [killTeam_memOk, dropLaunch_memOk, dropShared_memOk, unsealRegion_memOk, dropCoreTlb_memOk, tellPairing_memOk,
    foldl_memOk, foldl_fst_memOk, State.memOk]

theorem execCtxClear_memOk {s : State} {tag ctx t} (h : s.memOk) (e : execCtxClear tag ctx s = .next t) : t.memOk := by
  unfold execCtxClear at e
  grind [clearCtx_memOk, okay_memOk, command_memOk, badArg_memOk]

theorem execInvalidate_memOk {s : State} {tag ctx va pages t} (h : s.memOk) (e : execInvalidate tag ctx va pages s = .next t) :
    t.memOk := by
  unfold execInvalidate at e
  grind [command_memOk, dropShared_memOk, badArg_memOk, invalidated_memOk, State.memOk]

theorem retryWaiters_memOk {s : State} {q} (h : s.memOk) : (s.retryWaiters q).memOk := by
  unfold State.retryWaiters
  grind [abandon_memOk, foldl_memOk, foldl_fst_memOk]

theorem execSqConfig_memOk {s : State} {tag q desc t} (h : s.memOk) (e : execSqConfig tag q desc s = .next t) : t.memOk := by
  unfold execSqConfig at e
  grind [okay_memOk, command_memOk, refuse_memOk, badArg_memOk, retryWaiters_memOk, State.memOk]

theorem execIngressMap_memOk {s : State} {tag w q t} (h : s.memOk) (e : execIngressMap tag w q s = .next t) : t.memOk := by
  unfold execIngressMap at e
  grind [okay_memOk, command_memOk, refuse_memOk, badArg_memOk, State.memOk]

theorem execPairSet_memOk {s : State} {tag ctx partner t} (h : s.memOk) (e : execPairSet tag ctx partner s = .next t) : t.memOk := by
  unfold execPairSet at e
  grind [okay_memOk, command_memOk, badArg_memOk, tellPairing_memOk, State.memOk]

theorem execSeal_memOk {s : State} {tag ctx base pages tree t} (h : s.memOk) (e : execSeal tag ctx base pages tree s = .next t) :
    t.memOk := by
  unfold execSeal at e
  grind [command_memOk, refuse_memOk, badArg_memOk, State.memOk]

theorem execUnseal_memOk {s : State} {tag region t} (h : s.memOk) (e : execUnseal tag region s = .next t) : t.memOk := by
  unfold execUnseal at e
  grind [okay_memOk, command_memOk, badArg_memOk, unsealRegion_memOk]

theorem execAttest_memOk {s : State} {tag nonce addr t} (h : s.memOk) (e : execAttest tag nonce addr s = .next t) : t.memOk := by
  unfold execAttest at e
  grind [okay_memOk, command_memOk, hostWrite_memOk]

theorem execFaultRing_memOk {s : State} {tag addr count t} (h : s.memOk) (e : execFaultRing tag addr count s = .next t) : t.memOk := by
  unfold execFaultRing at e
  grind [okay_memOk, command_memOk, badArg_memOk, State.memOk]

theorem execNodeCache_memOk {s : State} {tag mib t} (h : s.memOk) (e : execNodeCache tag mib s = .next t) : t.memOk := by
  unfold execNodeCache at e
  grind [okay_memOk, l2Trim_memOk, command_memOk, refuse_memOk, badArg_memOk, nodeTrim_memOk, foldl_memOk, State.memOk]

theorem execGetCert_memOk {s : State} {tag addr len t} (h : s.memOk) (e : execGetCert tag addr len s = .next t) : t.memOk := by
  unfold execGetCert at e
  grind [okay_memOk, command_memOk, hostWrite_memOk]

theorem execFwWrite_memOk {s : State} {tag slot addr len t} (h : s.memOk) (e : execFwWrite tag slot addr len s = .next t) :
    t.memOk := by
  unfold execFwWrite at e
  grind [okay_memOk, command_memOk, refuse_memOk, badArg_memOk, State.memOk]

theorem execFwSwitch_memOk {s : State} {tag t} (h : s.memOk) (e : execFwSwitch tag s = .next t) : t.memOk := by
  unfold execFwSwitch at e
  grind [command_memOk, refuse_memOk, State.memOk]

theorem execCoreParkDrain_memOk {s : State} {tag c t} (h : s.memOk) (e : execCoreParkDrain tag c s = .next t) : t.memOk := by
  unfold execCoreParkDrain at e
  grind [command_memOk, modCore_memOk, settlePark_memOk, refuse_memOk, badArg_memOk, State.memOk]

theorem execCoreParkKill_memOk {s : State} {tag c t} (h : s.memOk) (e : execCoreParkKill tag c s = .next t) : t.memOk := by
  unfold execCoreParkKill at e
  grind [okay_memOk, command_memOk, modCore_memOk, refuse_memOk, badArg_memOk, parkCore_memOk, killCore_memOk]

theorem execCoreReturn_memOk {s : State} {tag c t} (h : s.memOk) (e : execCoreReturn tag c s = .next t) : t.memOk := by
  unfold execCoreReturn at e
  grind [okay_memOk, command_memOk, modCore_memOk, refuse_memOk, badArg_memOk, recount_memOk, State.memOk]

theorem execChRetrain_memOk {s : State} {tag k t} (h : s.memOk) (e : execChRetrain tag k s = .next t) : t.memOk := by
  unfold execChRetrain at e
  grind [l2Clean_memOk, command_memOk, refuse_memOk, badArg_memOk, foldl_memOk, foldl_fst_memOk, State.memOk]

theorem execPowerLimit_memOk {s : State} {tag watts t} (h : s.memOk) (e : execPowerLimit tag watts s = .next t) : t.memOk := by
  unfold execPowerLimit at e
  grind [okay_memOk, command_memOk, refuse_memOk, State.memOk]

theorem execQuietWindow_memOk {s : State} {tag e t} (h : s.memOk) (e' : execQuietWindow tag e s = .next t) : t.memOk := by
  unfold execQuietWindow at e'
  grind [okay_memOk, command_memOk, refuse_memOk, State.memOk]

theorem execStatus_memOk {s : State} {tag addr t} (h : s.memOk) (e : execStatus tag addr s = .next t) : t.memOk := by
  unfold execStatus at e
  grind [okay_memOk, command_memOk, hostWrite_memOk]

/-! ### Commands of the debugger and of quiet stops -/

theorem execDbgArm_memOk {s : State} {tag ctx policy t} (h : s.memOk) (e : execDbgArm tag ctx policy s = .next t) : t.memOk := by
  unfold execDbgArm at e
  grind [okay_memOk, command_memOk, refuse_memOk, badArg_memOk, State.memOk]

theorem execDbgDisarm_memOk {s : State} {tag ctx t} (h : s.memOk) (e : execDbgDisarm tag ctx s = .next t) : t.memOk := by
  unfold execDbgDisarm at e
  grind [okay_memOk, command_memOk, refuse_memOk, badArg_memOk, modWave_memOk, resumeWave_memOk, foldl_memOk, foldl_fst_memOk,
    State.memOk]

theorem dbgRun_memOk {s : State} {tag : Word} {ctx : Nat} {w : DbgSel} {need f : Wave → Bool} {g h : State → Nat → Nat → State}
    {t : State} (hs : s.memOk) (hg : ∀ s c k, s.memOk → (g s c k).memOk) (hh : ∀ s t i, s.memOk → (h s t i).memOk)
    (e : s.dbgRun tag ctx w need f g h = .next t) : t.memOk := by
  refine command_memOk hs (fun s hs => ?_) e
  grind [foldl_memOk, badArg_memOk, okay_memOk]

theorem execDbgRunStop_memOk {s : State} {tag ctx w t} (h : s.memOk) (e : execDbgRunStop tag ctx w s = .next t) : t.memOk := by
  unfold execDbgRunStop at e
  grind [freeze_memOk, dbgRun_memOk, askStop_memOk, modSavedWave_memOk, freezeFrom_memOk, Stop.memOk]

theorem execDbgRunResume_memOk {s : State} {tag ctx w t} (h : s.memOk) (e : execDbgRunResume tag ctx w s = .next t) : t.memOk := by
  unfold execDbgRunResume at e
  grind [dbgRun_memOk, modSavedWave_memOk, resumeWave_memOk]

theorem stepWave_memOk {s : State} {drain c w} (h : s.memOk) : (s.stepWave drain c w).memOk := by
  unfold State.stepWave
  grind [modWave_memOk, resumeWave_memOk]

theorem execDbgRunStep_memOk {s : State} {tag ctx w t} (h : s.memOk) (e : execDbgRunStep tag ctx w s = .next t) : t.memOk := by
  unfold execDbgRunStep at e
  grind [dbgRun_memOk, modSavedWave_memOk, stepWave_memOk]

theorem execDbgRunStepDrain_memOk {s : State} {tag ctx w t} (h : s.memOk) (e : execDbgRunStepDrain tag ctx w s = .next t) :
    t.memOk := by
  unfold execDbgRunStepDrain at e
  grind [dbgRun_memOk, modSavedWave_memOk, stepWave_memOk]

theorem execDbgRead_memOk {s : State} {tag c slot w addr t} (h : s.memOk) (e : execDbgRead tag c slot w addr s = .next t) :
    t.memOk := by
  unfold execDbgRead at e
  grind [command_memOk, recordOf_memOk, refuse_memOk, badArg_memOk, hostWrite_memOk, respond_memOk, foldl_memOk, foldl_fst_memOk]

theorem execDbgWriteVector_memOk {s : State} {tag c slot w name lanes data t} (h : s.memOk)
    (e : execDbgWriteVector tag c slot w name lanes data s = .next t) : t.memOk := by
  unfold execDbgWriteVector at e
  grind [command_memOk, writeName_memOk]

theorem onStopped_memOk {s : State} {tag : Word} {c slot w : Nat} {f : State → Nat → State}
    {g : State → SavedWave → List Byte → SavedRes} {t : State} (h : s.memOk) (hf : ∀ s k, s.memOk → (f s k).memOk)
    (hg : ∀ s v bs t new y, s.memOk → g s v bs = .wrote t new y → t.memOk) (e : s.onStopped tag c slot w f g = .next t) : t.memOk :=
  command_memOk h (fun _ hs => atStopped_memOk hs hf hg) e

theorem execDbgWriteScalar_memOk {s : State} {tag c slot w name v t} (h : s.memOk)
    (e : execDbgWriteScalar tag c slot w name v s = .next t) : t.memOk := by
  unfold execDbgWriteScalar at e
  grind [okay_memOk, badArg_memOk, onStopped_memOk, modWave_memOk, Stop.memOk]

theorem execDbgWritePredicate_memOk {s : State} {tag c slot w name lanes v t} (h : s.memOk)
    (e : execDbgWritePredicate tag c slot w name lanes v s = .next t) : t.memOk := by
  unfold execDbgWritePredicate at e
  grind [okay_memOk, badArg_memOk, onStopped_memOk, modWave_memOk, Stop.memOk]

theorem execDbgWriteMailbox_memOk {s : State} {tag c slot w name v t} (h : s.memOk)
    (e : execDbgWriteMailbox tag c slot w name v s = .next t) : t.memOk := by
  unfold execDbgWriteMailbox at e
  grind [okay_memOk, modTeam_memOk, settleBoxes_memOk, badArg_memOk, onStopped_memOk, modWave_memOk, Stop.memOk]

theorem execDbgWriteSr_memOk {s : State} {tag c slot w v t} (h : s.memOk) (e : execDbgWriteSr tag c slot w v s = .next t) :
    t.memOk := by
  unfold execDbgWriteSr at e
  grind [okay_memOk, onStopped_memOk, modWave_memOk, Stop.memOk]

theorem execDbgWriteResume_memOk {s : State} {tag c slot w lanes pcs t} (h : s.memOk)
    (e : execDbgWriteResume tag c slot w lanes pcs s = .next t) : t.memOk := by
  unfold execDbgWriteResume at e
  grind [okay_memOk, onStopped_memOk, modWave_memOk, Stop.memOk]

theorem execDbgWriteTile_memOk {s : State} {tag c slot w name data t} (h : s.memOk)
    (e : execDbgWriteTile tag c slot w name data s = .next t) : t.memOk := by
  unfold execDbgWriteTile at e
  grind [okay_memOk, modCore_memOk, refuse_memOk, badArg_memOk, onStopped_memOk, Stop.memOk]

theorem execBkptSet_memOk {s : State} {tag slot ctx addr t} (h : s.memOk) (e : execBkptSet tag slot ctx addr s = .next t) :
    t.memOk := by
  unfold execBkptSet at e
  grind [okay_memOk, command_memOk, badArg_memOk, State.memOk]

theorem execWatchSet_memOk {s : State} {tag slot ctx addr len access t} (h : s.memOk)
    (e : execWatchSet tag slot ctx addr len access s = .next t) : t.memOk := by
  unfold execWatchSet at e
  grind [okay_memOk, command_memOk, badArg_memOk, State.memOk]

theorem execTraceCfg_memOk {s : State} {tag base count mode mask k t} (h : s.memOk)
    (e : execTraceCfg tag base count mode mask k s = .next t) : t.memOk := by
  unfold execTraceCfg at e
  grind [okay_memOk, command_memOk, badArg_memOk, traceRec_memOk, State.memOk]

theorem onPhased_memOk {s : State} {tag : Word} {ctx : Nat} {header : DWord} {f : State → Nat → State} {t : State} (h : s.memOk)
    (hf : ∀ s l, s.memOk → (f s l).memOk) (e : s.onPhased tag ctx header f = .next t) : t.memOk := by
  refine command_memOk h (fun s hs => ?_) e
  grind [badArg_memOk]

theorem execQuietStop_memOk {s : State} {tag ctx header t} (h : s.memOk) (e : execQuietStop tag ctx header s = .next t) : t.memOk := by
  unfold execQuietStop at e
  grind [okay_memOk, onPhased_memOk, modLaunch_memOk, Stop.memOk]

theorem execQuietCheckpoint_memOk {s : State} {tag ctx header t} (h : s.memOk)
    (e : execQuietCheckpoint tag ctx header s = .next t) : t.memOk := by
  unfold execQuietCheckpoint at e
  grind [okay_memOk, onPhased_memOk, modLaunch_memOk]

theorem clearTeam_memOk {s : State} {t} (h : s.memOk) : (s.clearTeam t).memOk := by
  unfold State.clearTeam
  grind [modCore_memOk, stopWalks_memOk, removeWave_memOk, foldl_memOk, foldl_fst_memOk]

theorem unbegin_memOk {s : State} {t} (h : s.memOk) : (s.unbegin t).memOk := by
  unfold State.unbegin
  grind [modCore_memOk, zeroBench_memOk, foldl_memOk, State.memOk]

theorem revive_memOk {s : State} {e} (h : s.memOk) : (s.revive e).memOk := by
  unfold State.revive
  grind [modCore_memOk, foldl_memOk, foldl_fst_memOk, Stop.memOk, State.memOk]

theorem rewind_memOk {s : State} {l k phase} (h : s.memOk) : (s.rewind l k phase).memOk := by
  unfold State.rewind
  grind [revive_memOk, modLaunch_memOk, unbegin_memOk, clearTeam_memOk, foldl_memOk, foldl_fst_memOk]

theorem execQuietReplay_memOk {s : State} {tag ctx header t} (h : s.memOk) (e : execQuietReplay tag ctx header s = .next t) :
    t.memOk := by
  refine onPhased_memOk h (fun s l h => ?_) e
  split
  · exact badArg_memOk h
  · next k _ =>
    refine ite_memOk _ _ _ (badArg_memOk h) (ite_memOk _ _ _ (refuse_memOk h) ?_)
    split
    · next he => exact refuse_memOk (fst_memOk (vaRead_memOk h) he)
    · next u bs he =>
      have hr : (u.rewind l k (BitVec.ofNat 32 (fieldAt bs 8 4))).memOk := rewind_memOk (fst_memOk (vaRead_memOk h) he)
      dsimp only
      split
      · exact okay_memOk (getD_memOk hr (fun _ => restoreGroup_memOk hr))
      · exact okay_memOk hr

theorem execQuietCancel_memOk {s : State} {tag ctx header t} (h : s.memOk) (e : execQuietCancel tag ctx header s = .next t) :
    t.memOk := by
  unfold execQuietCancel at e
  grind [okay_memOk, onPhased_memOk, modLaunch_memOk]

theorem execCmdUnknownOpcode_memOk {s : State} {tag _opcode t} (h : s.memOk) (e : execCmdUnknownOpcode tag _opcode s = .next t) :
    t.memOk := by
  unfold execCmdUnknownOpcode at e
  grind [command_memOk, badArg_memOk]

theorem unheld_memOk {s : State} {fid} (h : s.memOk) : (s.unheld fid).memOk := by
  unfold State.unheld
  grind [State.memOk]

theorem execFaultReplyReplay_memOk {s : State} {fid t} (h : s.memOk) (e : execFaultReplyReplay fid s = .next t) : t.memOk := by
  unfold execFaultReplyReplay at e
  grind [modTeam_memOk, unheld_memOk, modWave_memOk, State.memOk]

theorem execFaultReplyReject_memOk {s : State} {fid t} (h : s.memOk) (e : execFaultReplyReject fid s = .next t) : t.memOk := by
  unfold execFaultReplyReject at e
  grind [modTeam_memOk, killTeam_memOk, unheld_memOk, modWave_memOk, deliver_memOk]

theorem execFhead_memOk {s : State} {v t} (h : s.memOk) (e : execFhead v s = .next t) : t.memOk := by
  unfold execFhead at e
  grind [State.memOk]

theorem execRegisterWrite_memOk {s : State} {off data t} (h : s.memOk) (e : execRegisterWrite off data s = .next t) : t.memOk := by
  unfold execRegisterWrite at e
  grind [State.memOk]

theorem execSupplyRecovery_memOk {s : State} {region t} (h : s.memOk) (e : execSupplyRecovery region s = .next t) : t.memOk := by
  unfold execSupplyRecovery at e
  grind [State.memOk]

theorem execHandoffRefusal_memOk {s : State} {c slot t} (h : s.memOk) (e : execHandoffRefusal c slot s = .next t) : t.memOk := by
  unfold execHandoffRefusal at e
  grind [walkFault_memOk, walkCancel_memOk]

theorem execHandoffCredit_memOk {s : State} {c t} (h : s.memOk) (e : execHandoffCredit c s = .next t) : t.memOk := by
  unfold execHandoffCredit at e
  grind [sendHandoff_memOk, State.memOk]

theorem execPartnerPairingChange_memOk {s : State} {entries t} (h : s.memOk) (e : execPartnerPairingChange entries s = .next t) :
    t.memOk := by
  unfold execPartnerPairingChange at e
  grind [State.memOk]

/-! ### Every instruction, and every step -/

theorem exec_runOk : RunOk exec := by
  intro i s t h e
  cases i with
  | nop => exact execNop_memOk h e
  | halt => exact execHalt_memOk h e
  | trap => exact execTrap_memOk h e
  | eret => exact execEret_memOk h e
  | csrr => exact execCsrr_memOk h e
  | csrw => exact execCsrw_memOk h e
  | csrx => exact execCsrx_memOk h e
  | sleep => exact execSleep_memOk h e
  | yld => exact execYld_memOk h e
  | brk => exact execBrk_memOk h e
  | tmark => exact execTmark_memOk h e
  | bra => exact execBra_memOk h e
  | jmp => exact execJmp_memOk h e
  | call => exact execCall_memOk h e
  | calli => exact execCalli_memOk h e
  | ret => exact execRet_memOk h e
  | brv => exact execBrv_memOk h e
  | rghint => exact execRghint_memOk h e
  | iadd => exact execIadd_memOk h e
  | isub => exact execIsub_memOk h e
  | iaddc o ty => exact execIaddc_memOk (_t := ty) h e
  | isubb o ty => exact execIsubb_memOk (_t := ty) h e
  | ineg => exact execIneg_memOk h e
  | iabs => exact execIabs_memOk h e
  | imin => exact execImin_memOk h e
  | imax => exact execImax_memOk h e
  | and => exact execAnd_memOk h e
  | or => exact execOr_memOk h e
  | xor => exact execXor_memOk h e
  | andn => exact execAndn_memOk h e
  | not => exact execNot_memOk h e
  | shl => exact execShl_memOk h e
  | shr => exact execShr_memOk h e
  | sar => exact execSar_memOk h e
  | rol => exact execRol_memOk h e
  | iset => exact execIset_memOk h e
  | imul => exact execImul_memOk h e
  | imulh => exact execImulh_memOk h e
  | imad => exact execImad_memOk h e
  | imadw => exact execImadw_memOk h e
  | idiv => exact execIdiv_memOk h e
  | irem => exact execIrem_memOk h e
  | popc => exact execPopc_memOk h e
  | clz => exact execClz_memOk h e
  | ctz => exact execCtz_memOk h e
  | brev => exact execBrev_memOk h e
  | bfe => exact execBfe_memOk h e
  | bfi => exact execBfi_memOk h e
  | fshl => exact execFshl_memOk h e
  | fshr => exact execFshr_memOk h e
  | bperm => exact execBperm_memOk h e
  | lea => exact execLea_memOk h e
  | iadd64 => exact execIadd64_memOk h e
  | isub64 => exact execIsub64_memOk h e
  | iset64 => exact execIset64_memOk h e
  | mov => exact execMov_memOk h e
  | movi => exact execMovi_memOk h e
  | sel => exact execSel_memOk h e
  | smov => exact execSmov_memOk h e
  | ftst => exact execFtst_memOk h e
  | plop => exact execPlop_memOk h e
  | pset => exact execPset_memOk h e
  | pmov => exact execPmov_memOk h e
  | fadd => exact execFadd_memOk h e
  | fsub => exact execFsub_memOk h e
  | fmul => exact execFmul_memOk h e
  | fmac => exact execFmac_memOk h e
  | fmin => exact execFmin_memOk h e
  | fmax => exact execFmax_memOk h e
  | fset => exact execFset_memOk h e
  | fclass => exact execFclass_memOk h e
  | frnd => exact execFrnd_memOk h e
  | fscale => exact execFscale_memOk h e
  | fexp => exact execFexp_memOk h e
  | dadd => exact execDadd_memOk h e
  | dsub => exact execDsub_memOk h e
  | dmul => exact execDmul_memOk h e
  | dmac => exact execDmac_memOk h e
  | dmin => exact execDmin_memOk h e
  | dmax => exact execDmax_memOk h e
  | dset => exact execDset_memOk h e
  | drnd => exact execDrnd_memOk h e
  | hpadd => exact execHpadd_memOk h e
  | hpmul => exact execHpmul_memOk h e
  | hpmac => exact execHpmac_memOk h e
  | hpmin => exact execHpmin_memOk h e
  | hpmax => exact execHpmax_memOk h e
  | hpset => exact execHpset_memOk h e
  | cvt => exact execCvt_memOk h e
  | packq => exact execPackq_memOk h e
  | unpq => exact execUnpq_memOk h e
  | rcp => exact execRcp_memOk h e
  | rsq => exact execRsq_memOk h e
  | sqrt => exact execSqrt_memOk h e
  | ex2 => exact execEx2_memOk h e
  | lg2 => exact execLg2_memOk h e
  | sin => exact execSin_memOk h e
  | cos => exact execCos_memOk h e
  | tanh => exact execTanh_memOk h e
  | drcp => exact execDrcp_memOk h e
  | dsqrt => exact execDsqrt_memOk h e
  | shfl => exact execShfl_memOk h e
  | bcst => exact execBcst_memOk h e
  | vote => exact execVote_memOk h e
  | scan => exact execScan_memOk h e
  | red => exact execRed_memOk h e
  | cnfl => exact execCnfl_memOk h e
  | lmatch => exact execLmatch_memOk h e
  | cmpr => exact execCmpr_memOk h e
  | xpnd => exact execXpnd_memOk h e
  | lacz => exact execLacz_memOk h e
  | laca => exact execLaca_memOk h e
  | lacr => exact execLacr_memOk h e
  | ld => exact execLd_memOk h e
  | ldk => exact execLdk_memOk h e
  | ldb => exact execLdb_memOk h e
  | ldbc => exact execLdbc_memOk h e
  | pfch => exact execPfch_memOk h e
  | st => exact execSt_memOk h e
  | stb => exact execStb_memOk h e
  | str => exact execStr_memOk h e
  | sts => exact execSts_memOk h e
  | atom => exact execAtom_memOk h e
  | atb => exact execAtb_memOk h e
  | atr => exact execAtr_memOk h e
  | cas128 => exact execCas128_memOk h e
  | fnc => exact execFnc_memOk h e
  | cpy => exact execCpy_memOk h e
  | cpyg => exact execCpyg_memOk h e
  | cpys => exact execCpys_memOk h e
  | cpyq => exact execCpyq_memOk h e
  | cpyr => exact execCpyr_memOk h e
  | cpyx => exact execCpyx_memOk h e
  | jload => exact execJload_memOk h e
  | jstart => exact execJstart_memOk h e
  | jstop => exact execJstop_memOk h e
  | jpop => exact execJpop_memOk h e
  | bar => exact execBar_memOk h e
  | bbinit => exact execBbinit_memOk h e
  | bbarv => exact execBbarv_memOk h e
  | bbwait => exact execBbwait_memOk h e
  | tbar => exact execTbar_memOk h e
  | gbar => exact execGbar_memOk h e
  | send => exact execSend_memOk h e
  | mbclr => exact execMbclr_memOk h e
  | waita => exact execWaita_memOk h e
  | wake => exact execWake_memOk h e
  | sqpush => exact execSqpush_memOk h e
  | sqpop => exact execSqpop_memOk h e
  | sqstat => exact execSqstat_memOk h e
  | cqpop => exact execCqpop_memOk h e
  | launch => exact execLaunch_memOk h e
  | rfork => exact execRfork_memOk h e
  | join => exact execJoin_memOk h e
  | racq => exact execRacq_memOk h e
  | rrel => exact execRrel_memOk h e
  | rsetw => exact execRsetw_memOk h e
  | rotb => exact execRotb_memOk h e
  | trav => exact execTrav_memOk h e
  | travx => exact execTravx_memOk h e
  | mma => exact execMma_memOk h e
  | mmas => exact execMmas_memOk h e
  | mmal => exact execMmal_memOk h e
  | macz => exact execMacz_memOk h e
  | macw => exact execMacw_memOk h e
  | macr => exact execMacr_memOk h e
  | zflg => exact execZflg_memOk h e
  | lxld => exact execLxld_memOk h e
  | lxinv => exact execLxinv_memOk h e
  | fmt => exact execFmt_memOk h e
  | nonInstructionWord => exact execNonInstructionWord_memOk h e
  | nfetch => exact execNfetch_memOk h e
  | nget => exact execNget_memOk h e
  | ncnt => exact execNcnt_memOk h e
  | nptr => exact execNptr_memOk h e
  | box8 => exact execBox8_memOk h e
  | ovl8 => exact execOvl8_memOk h e
  | tri => exact execTri_memOk h e
  | sphr => exact execSphr_memOk h e
  | kcmp => exact execKcmp_memOk h e
  | krng => exact execKrng_memOk h e
  | dist => exact execDist_memOk h e
  | dfin => exact execDfin_memOk h e
  | kds => exact execKds_memOk h e
  | sortm => exact execSortm_memOk h e
  | push => exact execPush_memOk h e
  | pushm => exact execPushm_memOk h e
  | pop => exact execPop_memOk h e
  | sclr => exact execSclr_memOk h e
  | emit => exact execEmit_memOk h e
  | topk => exact execTopk_memOk h e
  | emitk => exact execEmitk_memOk h e
  | done => exact execDone_memOk h e
  | hoff => exact execHoff_memOk h e
  | br => exact execBr_memOk h e
  | brc => exact execBrc_memOk h e
  | yldw => exact execYldw_memOk h e
  | wadd => exact execWadd_memOk h e
  | wsub => exact execWsub_memOk h e
  | wand => exact execWand_memOk h e
  | wor => exact execWor_memOk h e
  | wxor => exact execWxor_memOk h e
  | wshl => exact execWshl_memOk h e
  | wshr => exact execWshr_memOk h e
  | minmax => exact execMinmax_memOk h e
  | fmad => exact execFmad_memOk h e
  | cmps => exact execCmps_memOk h e
  | movq => exact execMovq_memOk h e
  | movqImm => exact execMovqImm_memOk h e
  | movqShi => exact execMovqShi_memOk h e
  | movqSpc => exact execMovqSpc_memOk h e
  | ldq => exact execLdq_memOk h e
  | walkNonInstructionWord w => exact execWalkNonInstructionWord_memOk (_w := w) h e
  | jlds => exact execJlds_memOk h e
  | junpk => exact execJunpk_memOk h e
  | jpack => exact execJpack_memOk h e
  | jdelta => exact execJdelta_memOk h e
  | jrld => exact execJrld_memOk h e
  | jcvt => exact execJcvt_memOk h e
  | jperm => exact execJperm_memOk h e
  | jput => exact execJput_memOk h e
  | jgadd => exact execJgadd_memOk h e
  | jgand => exact execJgand_memOk h e
  | jgshr => exact execJgshr_memOk h e
  | jbr => exact execJbr_memOk h e
  | jloop => exact execJloop_memOk h e
  | jwait => exact execJwait_memOk h e
  | jend => exact execJend_memOk h e
  | jflag => exact execJflag_memOk h e
  | jigNonInstructionWord w => exact execJigNonInstructionWord_memOk (_w := w) h e
  | loadCompletion => exact execLoadCompletion_memOk h e
  | storeWritePerform => exact execStoreWritePerform_memOk h e
  | atomicCompletion => exact execAtomicCompletion_memOk h e
  | fenceCompletion => exact execFenceCompletion_memOk h e
  | l1WriteBack => exact execL1WriteBack_memOk h e
  | lineWriteBack => exact execLineWriteBack_memOk h e
  | remoteBenchArrival => exact execRemoteBenchArrival_memOk h e
  | remoteBenchRefusal => exact execRemoteBenchRefusal_memOk h e
  | pageVerification => exact execPageVerification_memOk h e
  | sfuResultWrite => exact execSfuResultWrite_memOk h e
  | engineStart => exact execEngineStart_memOk h e
  | engineEffect => exact execEngineEffect_memOk h e
  | macrResultWrite => exact execMacrResultWrite_memOk h e
  | lxLoadDone => exact execLxLoadDone_memOk h e
  | walkSlotGrant c => exact execWalkSlotGrant_memOk (c := c) h e
  | nodeArrival => exact execNodeArrival_memOk h e
  | stackSpill => exact execStackSpill_memOk h e
  | stackFill => exact execStackFill_memOk h e
  | handoffArrival => exact execHandoffArrival_memOk h e
  | handoffReturn => exact execHandoffReturn_memOk h e
  | partnerEntryArrival => exact execPartnerEntryArrival_memOk h e
  | cancelMessage => exact execCancelMessage_memOk h e
  | killMessage => exact execKillMessage_memOk h e
  | copySlotGrant => exact execCopySlotGrant_memOk h e
  | copyUnitServe => exact execCopyUnitServe_memOk h e
  | copyUnitLanded => exact execCopyUnitLanded_memOk h e
  | copyJobSuspend => exact execCopyJobSuspend_memOk h e
  | jpopDelivery => exact execJpopDelivery_memOk h e
  | depositArrival => exact execDepositArrival_memOk h e
  | depositRetry => exact execDepositRetry_memOk h e
  | sendStatusReturn => exact execSendStatusReturn_memOk h e
  | sleepExpiry => exact execSleepExpiry_memOk h e
  | cqpopTimeout => exact execCqpopTimeout_memOk h e
  | barrierTimeout => exact execBarrierTimeout_memOk h e
  | waitaPoll => exact execWaitaPoll_memOk h e
  | waitaWake => exact execWaitaWake_memOk h e
  | autoLaunch => exact execAutoLaunch_memOk h e
  | teamPlacement => exact execTeamPlacement_memOk h e
  | clusterRetry => exact execClusterRetry_memOk h e
  | reservationExpiry => exact execReservationExpiry_memOk h e
  | teamRestore => exact execTeamRestore_memOk h e
  | racqGrant => exact execRacqGrant_memOk h e
  | bundlePartition => exact execBundlePartition_memOk h e
  | priorityPromotion => exact execPriorityPromotion_memOk h e
  | fetchLineArrival => exact execFetchLineArrival_memOk h e
  | asyncTrapDelivery => exact execAsyncTrapDelivery_memOk h e
  | teamQuiet => exact execTeamQuiet_memOk h e
  | pcSample => exact execPcSample_memOk h e
  | quietStopLimit => exact execQuietStopLimit_memOk h e
  | coreInvalidateAck => exact execCoreInvalidateAck_memOk h e
  | reset => exact execReset_memOk h e
  | supplyDroop => exact execSupplyDroop_memOk h e
  | powerMeasurement => exact execPowerMeasurement_memOk h e
  | hostLinkDown => exact execHostLinkDown_memOk h e
  | hostLinkUp => exact execHostLinkUp_memOk h e
  | hostAccessTimeout => exact execHostAccessTimeout_memOk h e
  | pairingPortDown => exact execPairingPortDown_memOk h e
  | pairingPortUp => exact execPairingPortUp_memOk h e
  | partnerRequest => exact execPartnerRequest_memOk h e
  | singleBitError site => exact execSingleBitError_memOk (_site := site) h e
  | doubleBitError => exact execDoubleBitError_memOk h e
  | recalibrationDone => exact execRecalibrationDone_memOk h e
  | retrainDone => exact execRetrainDone_memOk h e
  | fwRestart => exact execFwRestart_memOk h e
  | hostMemoryAccess => exact execHostMemoryAccess_memOk h e
  | ingressWrite => exact execIngressWrite_memOk h e
  | ingressCommit => exact execIngressCommit_memOk h e
  | ingressEntryPush => exact execIngressEntryPush_memOk h e
  | doorbell => exact execDoorbell_memOk h e
  | hostNop => exact execHostNop_memOk h e
  | hostLaunch => exact execHostLaunch_memOk h e
  | hostCommandInvalid => exact execHostCommandInvalid_memOk h e
  | ctxSet => exact execCtxSet_memOk h e
  | ctxClear => exact execCtxClear_memOk h e
  | invalidate => exact execInvalidate_memOk h e
  | sqConfig => exact execSqConfig_memOk h e
  | ingressMap => exact execIngressMap_memOk h e
  | pairSet => exact execPairSet_memOk h e
  | attest => exact execAttest_memOk h e
  | faultRing => exact execFaultRing_memOk h e
  | nodeCache => exact execNodeCache_memOk h e
  | getCert => exact execGetCert_memOk h e
  | fwWrite => exact execFwWrite_memOk h e
  | fwSwitch => exact execFwSwitch_memOk h e
  | coreParkDrain => exact execCoreParkDrain_memOk h e
  | coreParkKill => exact execCoreParkKill_memOk h e
  | coreReturn => exact execCoreReturn_memOk h e
  | chRetrain => exact execChRetrain_memOk h e
  | powerLimit => exact execPowerLimit_memOk h e
  | quietWindow => exact execQuietWindow_memOk h e
  | status => exact execStatus_memOk h e
  | dbgArm => exact execDbgArm_memOk h e
  | dbgDisarm => exact execDbgDisarm_memOk h e
  | dbgRunStop => exact execDbgRunStop_memOk h e
  | dbgRunResume => exact execDbgRunResume_memOk h e
  | dbgRunStep => exact execDbgRunStep_memOk h e
  | dbgRunStepDrain => exact execDbgRunStepDrain_memOk h e
  | dbgRead => exact execDbgRead_memOk h e
  | dbgWriteVector => exact execDbgWriteVector_memOk h e
  | dbgWriteScalar => exact execDbgWriteScalar_memOk h e
  | dbgWritePredicate => exact execDbgWritePredicate_memOk h e
  | dbgWriteMailbox => exact execDbgWriteMailbox_memOk h e
  | dbgWriteSr => exact execDbgWriteSr_memOk h e
  | dbgWriteResume => exact execDbgWriteResume_memOk h e
  | dbgWriteTile => exact execDbgWriteTile_memOk h e
  | bkptSet => exact execBkptSet_memOk h e
  | watchSet => exact execWatchSet_memOk h e
  | traceCfg => exact execTraceCfg_memOk h e
  | quietStop => exact execQuietStop_memOk h e
  | quietCheckpoint => exact execQuietCheckpoint_memOk h e
  | quietReplay => exact execQuietReplay_memOk h e
  | quietCancel => exact execQuietCancel_memOk h e
  | cmdUnknownOpcode tag opcode => exact execCmdUnknownOpcode_memOk (_opcode := opcode) h e
  | faultReplyReplay => exact execFaultReplyReplay_memOk h e
  | faultReplyReject => exact execFaultReplyReject_memOk h e
  | fhead => exact execFhead_memOk h e
  | registerWrite => exact execRegisterWrite_memOk h e
  | sfuServiceStart => exact execSfuServiceStart_memOk h e
  | supplyRecovery => exact execSupplyRecovery_memOk h e
  | handoffRefusal => exact execHandoffRefusal_memOk h e
  | handoffCredit => exact execHandoffCredit_memOk h e
  | partnerPairingChange => exact execPartnerPairingChange_memOk h e
  | sealCompletion => exact execSealCompletion_memOk h e
  -- `seal` and `unseal`, which are keywords of Lean and name no case
  | _ => solve_by_elim only [execSeal_memOk, execUnseal_memOk, h, e]

/-- Settles O58: every function that a step calls keeps the memory's canonical form, since memory changes only through the writes,
the zeroing and the filters of `Memory`, which keep it. -/
theorem memoryStaysCanonical : Obligations.MemoryStaysCanonical :=
  fun _ _ h e => turn_memOk exec_runOk h e

end Sys2Proof.Machine

end

section
/-! PROOF. The state right after reset (R20-R24, R345, R414, R417, R469). -/
namespace Sys2Proof.Machine

/-- Reading a list of equal elements, inside it or past its end. -/
theorem nth_replicate {α : Type} (n i : Nat) (v : α) : nth (List.replicate n v) i v = v := by
  rw [nth, List.getD_eq_getElem?_getD, List.getElem?_getD_replicate_default_eq]

/-- Settles O57: each field is what `State.reset` gives it; the capability registers are read field by field, and the register areas
of BAR0 hold zeros. -/
theorem resetState : Obligations.ResetState := by
  have hFlit : State.reset.capFlit.extractLsb' 0 8 = 32 ∧ State.reset.capFlit.extractLsb' 8 8 = 64 ∧
      State.reset.capFlit.extractLsb' 16 8 = 64 ∧ State.reset.capFlit.extractLsb' 24 8 = 8 ∧
      State.reset.capFlit.extractLsb' 32 32 = 0 := by decide
  have hCores : State.reset.capCores.extractLsb' 0 9 = 256 ∧ State.reset.capCores.extractLsb' 9 55 = 0 := by decide
  have hMem : State.reset.capMem.extractLsb' 0 40 = 0 ∧ State.reset.capMem.extractLsb' 40 8 = 96 ∧
      State.reset.capMem.extractLsb' 48 16 = 0 := by decide
  have hBar0 : ∀ i, nth State.reset.cmd i 0 = 0 ∧ nth State.reset.resp i 0 = 0 ∧ nth State.reset.ierr i 0 = 0 :=
    fun i => ⟨nth_replicate 64 i 0, nth_replicate 64 i 0, nth_replicate 64 i 0⟩
  exact ⟨rfl, rfl, rfl, rfl, rfl, rfl, rfl, rfl, hFlit, hCores, hMem, rfl, rfl, rfl, rfl, rfl, rfl, hBar0, reset_memOk,
    fun _ => rfl, rfl, rfl⟩

end Sys2Proof.Machine
end

section
/-! PROOF. A step runs the instruction that the decoder reads (R14, R16, R47, R48, R170, R320, R326). -/
namespace Sys2Proof.Machine

/-! ### What a turn comes to -/

/-- The machine at the start of a turn: bundles whose instruction can issue by now wait no longer, and the turn's time passes. -/
def State.turnStart (s : State) (d : Turn) : State := (s.unstick exec).advance d.ns d.clocks d.lost

/-- A step whose act is not held back at the banks by the lanes that it is about. -/
theorem step_of_present {s s0 u : State} {d : Turn} {a : Act} (hn : s.nextTurn = (d, s0))
    (hp : (s0.turnStart d).present d.act = (u, some a)) :
    step s = settled (u.gated a (u.waitsFor (fun v => v.runAct exec a)) (u.runAct exec a)) := by
  have hu : (s0.unstick exec).advance d.ns d.clocks d.lost = s0.turnStart d := rfl
  simp only [step, State.turn, hn, hu, hp, State.actGated]
  rfl

/-- No lane of the event has its requests in, so the clock passes for it. -/
theorem step_of_absent {s s0 u : State} {d : Turn} (hn : s.nextTurn = (d, s0))
    (hp : (s0.turnStart d).present d.act = (u, none)) : step s = .next u.after := by
  have hu : (s0.unstick exec).advance d.ns d.clocks d.lost = s0.turnStart d := rfl
  simp only [step, State.turn, hn, hu, hp]

/-- An act that is about no lanes presents no requests of lanes. -/
theorem present_of_lanesOf_none (s : State) (a : Act) (h : a.lanesOf = none) : s.present a = (s, some a) := by
  simp only [State.present, h]

theorem step_of_lanesOf_none {s s0 : State} {d : Turn} (hn : s.nextTurn = (d, s0)) (hl : d.act.lanesOf = none) :
    step s = settled ((s0.turnStart d).gated d.act ((s0.turnStart d).waitsFor (fun v => v.runAct exec d.act))
      ((s0.turnStart d).runAct exec d.act)) :=
  step_of_present hn (present_of_lanesOf_none _ _ hl)

/-! ### Fetch (R14, R47, R53) -/

theorem fetchInstr_short {s t : State} {c w ctx : Nat} {pc base : DWord} (h : s.fetchWord c w ctx pc = (t, .word base))
    (he : hasExt base = false) : s.fetchInstr c w ctx pc = (t, .instr (decodeSimt base 0) base 8) := by
  simp [State.fetchInstr, h, he]

theorem fetchInstr_long {s t u : State} {c w ctx : Nat} {pc base v : DWord} (h : s.fetchWord c w ctx pc = (t, .word base))
    (he : hasExt base = true) (hx : t.fetchWord c w ctx (pc + 8) = (u, .word v)) :
    s.fetchInstr c w ctx pc = (u, .instr (decodeSimt base v) base 16) := by
  simp only [State.fetchInstr, h, he, hx, if_true]

/-- The word of a line that the instruction cache of the core's group holds, on a page that is not sealed. -/
theorem fetchWord_hit {s t : State} {c w ctx : Nat} {va : DWord} {p : Place} {bs : List Byte}
    (hp : s.place (.group c) ctx va .fetch = (t, .ok p)) (hs : p.sealed = false) (hw : s.transWaits (.group c) ctx va = false)
    (hi : FMap.get (FMap.getD t.icache (groupOf c) []) (lineOf p.key) = some bs) :
    s.fetchWord c w ctx va = (t, .word (BitVec.ofNat 64 (leWord ((bs.drop (p.key % 256)).take 8)))) := by
  have ho : p.key - lineOf p.key = p.key % 256 := by rw [lineOf]; omega
  simp [State.fetchWord, hw, hp, hs, hi, ho]

/-! ### A bundle's turn (R48, R326) -/

/-- The issuing bundle of a state that names one of a live wave. -/
theorem issuing_of_wave {s : State} {u : Cur} {y : Wave} (ha : u.agent = .wave) (hy : s.wave? u.core u.wave = some y) :
    ∃ z, ({ s with cur := some u } : State).issuing = some z ∧ z.ctx = s.ctxOf y ∧ z.pc = u.pc := by
  have hy' : ({ s with cur := some u } : State).wave? u.core u.wave = some y := hy
  refine ⟨_, by simp only [State.issuing, ha, hy', if_true]; rfl, rfl, rfl⟩

/-- No breakpoint of a bundle's context lies at its address. -/
theorem bkptAt_none {s : State} {z : Iss} (h : ∀ e ∈ s.bkpts, e.2.ctx = z.ctx → e.2.addr ≠ z.pc) : s.bkptAt z = false := by
  have hb : s.bkpts.any (fun b => b.2.ctx == z.ctx && b.2.addr == z.pc) = false := by
    simpa [List.any_eq_false] using fun k b hk => h (k, b) hk
  rw [State.bkptAt, hb, Bool.and_false]

/-- A bundle that may issue, with no asynchronous trap before it, at an aligned address without a breakpoint, executes what it
fetches there. -/
theorem prepare_run {s t : State} {c w len : Nat} {b : Mask} {second : Bool} {x y : Wave} {pc base : DWord} {i : Instr}
    (hy : s.wave? c w = some y) (hx : x = if second then (s.snap.map (·.1)).getD y else y)
    (hpc : pc = nth x.pcs ((lowest b).getD 0) 0)
    (hd : s.decoder c w b pc second = true) (hm : s.mayIssue c w x b second = true) (ha : second = true ∨ x.async = [])
    (h8 : pc.toNat % 8 = 0) (hb : ∀ e ∈ s.bkpts, e.2.ctx = s.ctxOf y → e.2.addr ≠ pc)
    (hf : ({ s with cur := some { core := c, wave := w, lanes := b, second := second, pc := pc } } : State).fetchInstr
      c w (s.ctxOf y) pc = (t, .instr i base len)) :
    s.prepare c w b second =
      .run { t with cur := some { core := c, wave := w, lanes := b, second := second, pc := pc, base := base, len := len } } i := by
  obtain ⟨z, hz, hctx, hzpc⟩ := issuing_of_wave (s := s)
    (u := { core := c, wave := w, lanes := b, second := second, pc := pc }) rfl hy
  have hbk := bkptAt_none (s := { s with cur := some { core := c, wave := w, lanes := b, second := second, pc := pc } }) (z := z)
    (by rw [hctx, hzpc]; exact hb)
  have hasy : (!second && !x.async.isEmpty) = false := by
    rcases ha with ha | ha <;> simp [ha]
  rw [← hctx] at hf
  simp only [State.prepare, hy, ← hx, ← hpc, hd, hm, hasy, hz, h8, hbk, hf, Bool.and_self, Bool.not_true, Bool.false_and,
    Bool.false_eq_true, if_false, ne_eq, not_true_eq_false]

/-- The turn of such a bundle executes the instruction. -/
theorem runAct_bundle {s t : State} {c w : Nat} {b : Mask} {second : Bool} {i : Instr}
    (h : (s.withTwin exec c w second).prepare c w b second = .run t i) :
    s.runAct exec (.bundle c w b second) = exec i t := by
  simp only [State.runAct, h]

/-! ### The turns of walks and of the Jig (R170, R315, R320) -/

theorem runAct_walk {s t : State} {c k : Nat} {x : Walk} {wd : Word} (hk : s.nextWalk c = some k)
    (hx : (s.modCore c (fun q => { q with sp := { q.sp with last := k } })).walk? c k = some x) (hp : x.pc < x.plen)
    (hf : (s.modCore c (fun q => { q with sp := { q.sp with last := k } })).fetchWalkWord c k x = (t, some wd)) :
    s.runAct exec (.walk c) =
      exec (decodeWalk wd) { t with cur := some { agent := .walk, core := c, wave := k, lanes := 0 } } := by
  simp only [State.runAct, State.walkTurn, hk, hx, hf, if_neg (Nat.not_le.mpr hp)]

theorem runAct_jig {s : State} {c : Nat} (h : (s.jig c).running = true) :
    s.runAct exec (.jig c) = exec (decodeJig (nth (s.jig c).prog (s.jig c).pc 0))
      { s with cur := some { agent := .jig, core := c, wave := 0, lanes := 0 } } := by
  simp only [State.runAct, State.jigTurn, h, if_true]

/-! ### Requests to the Bench banks (R12, R16) -/

/-- A turn without requests is made as it stands while no channel retrains. -/
theorem gated_of_no_requests {s t : State} {a : Act} (waits : Bool) (hr : s.requests t a = []) (ht : t.task = none)
    (hq : t.missQ = []) : s.gated a waits (.next t) = .next t := by
  have hg : s.gate t a = t := by
    cases a <;> simp [State.gate, hr, State.enterAll]
  simp [State.gated, hg, State.noteReads, ht, hq]

theorem requests_bundle {s t u : State} {c w : Nat} {b : Mask} {second : Bool} {i : Instr}
    (hp : s.prepare c w b second = .run u i) (ht : t.blocked = false) :
    s.requests t (.bundle c w b second) = u.issueReqs i := by
  simp [State.requests, hp, ht]

/-- Only `TRAV`, the copy instructions and those of byte barriers make requests as they issue. -/
theorem issueReqs_none (s : State) (i : Instr)
    (h : ∀ o m k, i ≠ .trav o ∧ i ≠ .cpy o k ∧ i ≠ .cpyg o m k ∧ i ≠ .cpys o m k ∧ i ≠ .cpyq o m k ∧ i ≠ .cpyr o ∧
      i ≠ .cpyx o ∧ i ≠ .bbinit o ∧ i ≠ .bbarv o) (hw : ∀ o t, i ≠ .bbwait o t) : s.issueReqs i = [] := by
  unfold State.issueReqs
  split
  · rfl
  · dsimp only
    split
    case h_1 o => exact absurd (h o .none .none) (by simp)
    case h_2 o k => exact absurd (h o .none k) (by simp)
    case h_3 o m k => exact absurd (h o m k) (by simp)
    case h_4 o m k => exact absurd (h o m k) (by simp)
    case h_5 o m k => exact absurd (h o m k) (by simp)
    case h_6 o => exact absurd (h o .none .none) (by simp)
    case h_7 o => exact absurd (h o .none .none) (by simp)
    case h_8 o => exact absurd (h o .none .none) (by simp)
    case h_9 o => exact absurd (h o .none .none) (by simp)
    case h_10 o tr => exact absurd rfl (hw o tr)
    case h_11 => rfl

/-! ### One bank (R12, R16) -/

theorem admits_full {q : BankQ} {clk : Nat} (rank : Nat) (h : clk + 8 ≤ q.busy) : q.admits clk rank = false := by
  simp [BankQ.admits, Nat.not_lt.mpr h]

theorem admits_due {q : BankQ} {clk k : Nat} (rank : Nat) (h : q.busy < clk + 8) (hd : q.due clk = some k) :
    q.admits clk rank = true ↔ k = clientOf rank := by
  simp [BankQ.admits, h, hd]

theorem admits_in_order {q : BankQ} {clk : Nat} (rank : Nat) (h : q.busy < clk + 8) (hd : q.due clk = none) :
    q.admits clk rank = true ↔ (q.clk = clk → q.rank ≤ rank) := by
  simp [BankQ.admits, BankQ.late, h, hd, imp_iff_not_or]

/-- Settles O53: a turn is fetched, decoded and executed by the kind of its act, and gated by its requests. -/
theorem stepRunsDecoded : Obligations.StepRunsDecoded := by
  refine ⟨?bundle, fun s t c w ctx va p bs hp hs hw hi => fetchWord_hit hp hs hw hi, ?walk, ?jig, ?event,
    fun s t a waits hr ht hq => gated_of_no_requests waits hr ht hq, fun s t u c w b second i hp ht => requests_bundle hp ht,
    issueReqs_none, ?banks, fun q clk rank => ⟨admits_full rank, fun k h hd => admits_due rank h hd, admits_in_order rank⟩⟩
  case bundle =>
    intro s s0 t ns clocks lost c w b second y base a waits hn u0 s1 x pc cur hy hd hm ha h8 hb hf
    have hstep := step_of_lanesOf_none hn rfl
    refine ⟨fun he => ?_, fun u v he hx => ?_⟩
    · have hr := runAct_bundle (prepare_run hy rfl rfl hd hm ha h8 hb (fetchInstr_short hf he))
      exact hstep.trans (congrArg (fun o => settled (u0.gated a (waits u0) o)) hr)
    · have hr := runAct_bundle (prepare_run hy rfl rfl hd hm ha h8 hb (fetchInstr_long hf he hx))
      exact hstep.trans (congrArg (fun o => settled (u0.gated a (waits u0) o)) hr)
  case walk =>
    intro s s0 t ns clocks lost c k x wd hn s1 s2 hk hx hp hf
    exact (step_of_lanesOf_none hn rfl).trans (congrArg (fun o => settled (s1.gated _ _ o)) (runAct_walk hk hx hp hf))
  case jig =>
    intro s s0 ns clocks lost c hn s1 hj
    exact (step_of_lanesOf_none hn rfl).trans (congrArg (fun o => settled (s1.gated _ _ o)) (runAct_jig hj))
  case event =>
    intro s s0 ns clocks lost i hn s1
    exact ⟨present_of_lanesOf_none s1 _, fun u j hp => step_of_present hn hp, fun u hp => step_of_absent hn hp⟩
  case banks =>
    intro s t rs
    refine ⟨fun u h => ?_, fun h => ?_⟩
    · simp only [State.bank, h]
    · simp only [State.bank, h]

end Sys2Proof.Machine
end

section
/-! PROOF. Bring-up, power, links, errors and host accesses complete (R24, R25, R416-R419, R422, R426, R451, R453, R469, R471,
R472, R474-R476). -/
namespace Sys2Proof.Machine

/-! ### Bring-up (R469) -/

/-- A write-back of a line to GDDR changes what L2 holds and the tags alone. -/
theorem l2Clean_eq (s : State) (l : Nat) : ∃ l2 tags, s.l2Clean l = { s with l2 := l2, tags := tags } := by
  unfold State.l2Clean
  split
  · exact ⟨_, _, rfl⟩
  · exact ⟨s.l2, s.tags, rfl⟩

theorem foldl_l2Clean_eq (ls : List (Nat × Bool)) (s : State) :
    ∃ l2 tags, ls.foldl (fun s e => s.l2Clean e.1) s = { s with l2 := l2, tags := tags } := by
  induction ls generalizing s with
  | nil => exact ⟨s.l2, s.tags, rfl⟩
  | cons e ls ih =>
    obtain ⟨l2, tags, he⟩ := l2Clean_eq s e.1
    rw [List.foldl_cons, he]
    exact ih _

/-- The flash outlives a restart. -/
theorem restarted_flash (s : State) :
    s.restarted.fwA = s.fwA ∧ s.restarted.fwB = s.fwB ∧ s.restarted.active = s.active := by
  obtain ⟨l2, tags, h⟩ := foldl_l2Clean_eq s.l2 { s with task := none }
  simp [State.restarted, h]

/-- The machine that a reset boots: one that has run is as `restarted` leaves it. -/
def State.resetFrom (s : State) : State := { (if s.booted then s.restarted else s) with booted := true }

theorem resetFrom_active (s : State) : s.resetFrom.active = s.active := by
  cases h : s.booted <;> simp [State.resetFrom, h, restarted_flash]

theorem resetFrom_slotImage (s : State) (k : Nat) : s.resetFrom.slotImage k = s.slotImage k := by
  cases h : s.booted <;> simp [State.resetFrom, State.slotImage, h, restarted_flash]

/-- Which of the images a reset boots: the active slot's, the other one's, or the recovery code. -/
theorem execReset_eq (s : State) : execReset s = .next (
    if imageValid (s.slotImage s.active) then ({ s.resetFrom with running := s.active }).bringUp
    else if imageValid (s.slotImage (1 - s.active % 2)) then ({ s.resetFrom with running := 1 - s.active % 2 }).bringUp
    else { s.resetFrom with bootStep := 2, hostUp := true }) := by
  have h : execReset s = .next (
      if imageValid (s.resetFrom.slotImage s.resetFrom.active) then ({ s.resetFrom with running := s.resetFrom.active }).bringUp
      else if imageValid (s.resetFrom.slotImage (1 - s.resetFrom.active % 2)) then
        ({ s.resetFrom with running := 1 - s.resetFrom.active % 2 }).bringUp
      else { s.resetFrom with bootStep := 2, hostUp := true }) := rfl
  rw [h, resetFrom_slotImage, resetFrom_slotImage, resetFrom_active]

theorem execReset_first {s : State} (hb : s.booted = false) (hi : imageValid (s.slotImage s.active) = true) :
    execReset s = .next ({ s with booted := true, running := s.active }).bringUp := by
  simp [execReset_eq, State.resetFrom, hb, hi]

theorem execReset_again {s : State} (hb : s.booted = true) (hi : imageValid (s.slotImage s.active) = true) :
    execReset s = .next ({ s.restarted with booted := true, running := s.active }).bringUp := by
  simp [execReset_eq, State.resetFrom, hb, hi]

/-- With no image that starts, the recovery code runs. -/
theorem execReset_recovery {s : State} (hb : s.booted = false) (ha : imageValid (s.slotImage s.active) = false)
    (ho : imageValid (s.slotImage (1 - s.active % 2)) = false) :
    execReset s = .next { s with booted := true, bootStep := 2, hostUp := true } := by
  simp [execReset_eq, State.resetFrom, hb, ha, ho]

/-! ### Power and links (R24, R25, R422, R453, R475) -/

theorem execSupplyDroop_new {s : State} {r : Nat} (hr : r < 16) (h : r ∉ s.droop) :
    execSupplyDroop r s = .next { s with droop := r :: s.droop } := by
  simp [execSupplyDroop, hr, h]

theorem execHostLinkDown_up {s : State} (h : s.hostUp = true) :
    execHostLinkDown s = .next { s with hostUp := false, hostDownSince := s.time } := by
  simp [execHostLinkDown, h]

theorem execHostLinkUp_running {s : State} (w g : Nat) (hb : s.booted = true) (hs : s.bootStep = 6 ∨ s.bootStep = 2) :
    execHostLinkUp w g s =
      .next (({ s with hostUp := true, capLink := BitVec.ofNat 64 (w % 16 * 2 ^ 44 + g % 16 * 2 ^ 40) }).flushHost.msi 3) := by
  rcases hs with hs | hs <;> simp [execHostLinkUp, hb, hs]

/-- The late access is the operation's last one toward the host. -/
theorem execHostAccessTimeout_last {s : State} {c id : Nat} {o : Op} {a : LaneAcc}
    (ho : (s.core c).ops.find? (fun y => y.id == id) = some o) (hl : s.hostLate = true) (ha : o.left = [a])
    (hk : isHost a.key = true) :
    execHostAccessTimeout c id s = .next ((s.performLane c o a).1.modOp c id (fun _ => o.note a (s.performLane c o a).2)) := by
  simp [execHostAccessTimeout, ho, hl, ha, hk]

theorem execPairingPortDown_up {s : State} {p : Nat} (h : nth s.ports p false = true) :
    execPairingPortDown p s = .next ((if ({ s with ports := setNth s.ports p false } : State).ports.any id then
      { s with ports := setNth s.ports p false } else ({ s with ports := setNth s.ports p false } : State).handoffsDown).msi 3) := by
  simp only [execPairingPortDown, h, if_true]

theorem execPairingPortUp_down {s : State} {p : Nat} (hp : p < 2) (h : nth s.ports p false = false) (hb : s.bootStep = 6) :
    execPairingPortUp p s = .next (({ s with
      ports := setNth s.ports p true, outbox := s.outbox ++ [OutMsg.pairing s.pairEntries] }).msi 3) := by
  simp only [execPairingPortUp, hp, h, hb, and_self, if_true]

/-! ### Double-bit errors (R451, R452) -/

theorem doubleBit_line {s : State} {a : Nat} (hl : isLocal a = true) (ha : a < Config.usableBytes) :
    execDoubleBitError (.line a) s = .next (s.poisonLine a).countDouble := by
  simp [execDoubleBitError, hl, ha]

/-- The state in which an L1 line has gone and the loads on it are repeated. -/
def State.lostL1 (s : State) (c a : Nat) : State :=
  (s.modCore c (fun k => { k with l1 := k.l1.filter (fun z => z.addr != a) })).killLoads c true [a]

theorem doubleBit_l1 {s : State} {c a : Nat} {y : Line} (hy : (s.core c).line? (lineOf a) = some y) :
    (y.dirty = 0 ∨ (s.lostL1 c y.addr).homeLost y.addr = true → execDoubleBitError (.l1 c a) s = .next (s.lostL1 c y.addr)) ∧
    (y.dirty ≠ 0 → (s.lostL1 c y.addr).homeLost y.addr = false →
      execDoubleBitError (.l1 c a) s = .next ((s.lostL1 c y.addr).poisonLine y.addr).countDouble) := by
  have he : execDoubleBitError (.l1 c a) s = .next (if y.dirty = 0 ∨ (s.lostL1 c y.addr).homeLost y.addr = true then
      s.lostL1 c y.addr else ((s.lostL1 c y.addr).poisonLine y.addr).countDouble) := by
    simp only [execDoubleBitError, hy]
    rfl
  rw [he]
  exact ⟨fun h => by rw [if_pos h], fun hd hl => by
    rw [if_neg (not_or_intro hd (Bool.eq_false_iff.mp hl))]⟩

theorem doubleBit_vreg {s : State} {c k p : Nat} {r : PReg} (hp : p ≠ 0) (hr : FMap.get (s.slice c k).phys p = some r) :
    execDoubleBitError (.vreg c k p) s =
      .next (s.modSlice c k (fun y => { y with phys := FMap.set y.phys p { r with poison := true } })).countDouble := by
  simp [execDoubleBitError, hp, hr, State.modSlice, FMap.mod, FMap.getD]

theorem doubleBit_tile {s : State} {t e : Nat} (c : Nat) (he : e < 256) (ht : t < 16) :
    execDoubleBitError (.tile c t e) s = .next (s.modTile c t (fun y =>
      { y with poison := if y.poison.contains e then y.poison else e :: y.poison })).countDouble := by
  simp only [execDoubleBitError, Nat.not_le.mpr he, Nat.not_le.mpr ht, or_self, if_false]

theorem doubleBit_la {s : State} {c w n : Nat} (hw : (s.wave? c w).isSome = true) (hn : n < 4) :
    execDoubleBitError (.la c w n) s =
      .next (s.modWave c w (fun x => { x with laPoison := x.laPoison ||| BitVec.ofNat 4 (2 ^ n) })).countDouble := by
  rw [execDoubleBitError, if_neg (by simp [Option.isNone_eq_false_iff.mpr hw, hn])]

theorem doubleBit_bench {s : State} {w : Nat} (c : Nat) (hw : w < 65536) :
    execDoubleBitError (.bench c w) s =
      .next (s.modCore c (fun k => { k with benchPoison := (benchKey c (4 * w)) / 4 :: k.benchPoison })).countDouble := by
  rw [execDoubleBitError, if_neg (Nat.not_le.mpr hw)]

theorem doubleBit_control {s : State} {c : Nat} (h : (s.core c).service = .inService) :
    execDoubleBitError (.control c) s = .next (s.machineCheck c) := by
  simp [execDoubleBitError, h]

theorem doubleBit_walk {s : State} {c k : Nat} {x : Walk} (h : s.walk? c k = some x) :
    execDoubleBitError (.walk c k) s = .next (s.walkFault c k 0 0) := by
  simp [execDoubleBitError, h]

/-! ### Recalibration, channels and firmware (R471, R472, R474) -/

/-- Counting the cores anew writes `CAPCORES` alone. -/
theorem recount_eq (s : State) (n : Nat) : ∃ v, s.recount n = { s with capCores := v } := by
  unfold State.recount
  exact ⟨_, rfl⟩

theorem recount_task (s : State) (n : Nat) : (s.recount n).task = s.task := by
  obtain ⟨v, h⟩ := recount_eq s n
  rw [h]

theorem execRecalibrationDone_idle {s : State} {c : Nat} (hr : (s.core c).recal = true) (ht : s.task = none) :
    execRecalibrationDone c true s = .next (s.modCore c (fun k => { k with recal := false })) ∧
    execRecalibrationDone c false s =
      .next (((s.modCore c (fun k => { k with recal := false })).modCore c (fun k => { k with service := .failed })).recount 1) := by
  constructor
  · simp [execRecalibrationDone, hr, ht]
  · simp [execRecalibrationDone, hr, ht, recount_task]

theorem execRetrainDone_task {s : State} {k : Nat} {tag : Word} (ht : s.task = some (.retrain k tag)) (ok : Bool) :
    execRetrainDone ok s = .next ((if ok then { s with task := none } else { s with
      task := none
      channels := s.channels &&& ~~~(BitVec.ofNat 16 (2 ^ k))
      badChannels := s.badChannels ||| BitVec.ofNat 16 (2 ^ k)
      capMem := s.capMem &&& ~~~(BitVec.zeroExtend 64 (BitVec.ofNat 16 (2 ^ k)) <<< 24) }).okay tag) := by
  simp only [execRetrainDone, ht]

theorem execFwRestart_task {s : State} {tag : Word} (ht : s.task = some (.restart tag)) :
    execFwRestart s = .next (if Config.imageStarts (s.slotImage (1 - s.running)) then
      ({ s with task := none, capLinkHeld := none, running := 1 - s.running, active := 1 - s.running }).okay tag
      else ({ s with task := none, capLinkHeld := none }).refuse tag) := by
  simp only [execFwRestart, ht]
  rfl

/-! ### Sealing (R424, R426) -/

theorem execSealCompletion_unread {s : State} {ctx n : Nat} {base tree : DWord} {tag : Word}
    (ht : s.task = some (.seal ctx base n tree tag)) (hw : (s.hostHeld && s.sealingWaits ctx base n tree) = false)
    (hd : ({ s with task := none } : State).leafDigests ctx base n = none) :
    execSealCompletion s = .next (({ s with task := none }).refuse tag) := by
  simp only [execSealCompletion, ht, hw, hd, Bool.false_eq_true, if_false]

/-- A region of one page: the tree is its leaf, which is the root. -/
theorem execSealCompletion_page {s t : State} {ctx k : Nat} {base tree : DWord} {tag : Word} {d : BitVec 384}
    (ht : s.task = some (.seal ctx base 1 tree tag)) (hw : (s.hostHeld && s.sealingWaits ctx base 1 tree) = false)
    (hd : ({ s with task := none } : State).leafDigests ctx base 1 = some [d])
    (hp : ({ s with task := none } : State).digestWrite ctx (treeVa tree 0 0 0) (digestBytes d) = some t)
    (hf : (List.range 16).find? (fun j => (FMap.get s.sealed j).isNone) = some k) :
    let r : Sealed := { ctx := ctx, base := base, pages := 1, tree := tree, root := d }
    execSealCompletion s = .next ((({ t with sealed := FMap.set t.sealed k r }).logEvent r 1).respond tag 0 (leBytes 4 k)) := by
  simp only [execSealCompletion, ht, hw, hd, Bool.false_eq_true, if_false]
  simp [treeLevels, treeOf, nth, hp, hf]

/-! ### Accesses of the host (R416, R417) -/

section
variable {s : State} (hb : s.booted = true) (hu : s.hostUp = true)
include hb hu

theorem hostWrite_reaches {a : Nat} {bs : List Byte} (ha : a + bs.length ≤ 2 ^ 37) :
    execHostMemoryAccess .write a bs s = .next (s.homeWrite a bs).1 := by
  simp only [execHostMemoryAccess, hb, hu, ha, Bool.and_self, Bool.not_true, Bool.false_eq_true, if_false, if_true]

/-- A read that no channel holds up is answered at once. -/
theorem hostRead_answers {bar off n : Nat} (junk : List Byte) (hw : (decide (bar = 4) && s.missWait off n) = false) :
    execHostMemoryAccess (.read bar n) off junk s = .next { s with hostGot := some (s.barRead bar off n) } := by
  simp only [execHostMemoryAccess, hb, hu, hw, Bool.and_self, Bool.not_true, Bool.false_eq_true, if_false]

theorem hostAtomic_unsupported (bar off : Nat) (junk : List Byte) :
    execHostMemoryAccess (.atomic bar) off junk s = .next { s with hostGot := some .unsupported } := by
  simp only [execHostMemoryAccess, hb, hu, Bool.and_self, Bool.not_true, Bool.false_eq_true, if_false]

end

theorem barRead_memory {s : State} {off n : Nat} {bs : List Byte} (ho : off + n ≤ 2 ^ 37) (hr : s.homeRead off n = some bs) :
    s.barRead 4 off n = .data bs := by
  simp only [State.barRead, ho, hr, OfNat.ofNat_ne_zero, Nat.reduceEqDiff, and_self, if_true, if_false]

/-! ### Ingress windows (R418, R419) -/

theorem execIngressCommit_room {s : State} {w slot n : Nat} {g : Ingress} (hw : w < 64) (hs : slot < 16)
    (hg : FMap.get s.ingress w = some g) (hn : s.windowSize w = some n) (hc : g.commits.length < 16) :
    execIngressCommit w slot s =
      .next { s with ingress := FMap.set s.ingress w { g with commits := g.commits ++ [(nth g.staging slot []).take n] } } := by
  simp only [execIngressCommit, State.commitSlot, hw, hg, hn, Nat.not_le.mpr hs, Nat.not_le.mpr hc, or_self, if_true, if_false]

/-- A write inside one entry of the staging slots reaches no commit word. -/
theorem execIngressWrite_staging {s : State} {w off n : Nat} {bs : List Byte} {g : Ingress} (hw : w < 64)
    (hg : FMap.get s.ingress w = some g) (hn : s.windowSize w = some n) (ho : off + bs.length ≤ 4096)
    (he : off % 256 + bs.length ≤ n) (_h256 : n ≤ 256) :
    execIngressWrite w off bs s = .next { s with ingress := FMap.set s.ingress w { g with
      staging := (List.range 16).map (fun k => (List.range 256).map (fun b =>
        if off ≤ 256 * k + b ∧ 256 * k + b < off + bs.length then nth bs (256 * k + b - off) 0 else nth (nth g.staging k []) b 0)) } } := by
  have hcommit : ¬ (0xFF000 ≤ off ∧ off + bs.length ≤ 0xFF080 ∧ (!decide (bs.isEmpty = true)) = true) := by omega
  have hslot : (List.range bs.length).all (fun i => decide (off + i < 4096) && decide ((off + i) % 256 < n)) = true := by
    simp only [List.all_eq_true, List.mem_range, Bool.and_eq_true, decide_eq_true_eq]
    intro i hi
    omega
  simp only [execIngressWrite, Nat.not_le.mpr hw, hg, hn, if_false]
  rw [if_neg hcommit, if_pos hslot]

theorem execIngressEntryPush_oldest {s : State} {w q : Nat} {e : List Byte} {r : List (List Byte)} {g : Ingress}
    (hg : FMap.get s.ingress w = some g) (hq : g.queue = some q) (hc : g.commits = e :: r) (hw : s.entryWaits q = false) :
    let t := { s with ingress := FMap.set s.ingress w { g with commits := r } }
    (∀ u, t.sqApply q e = .done u → execIngressEntryPush w s = .next u) ∧
    (t.sqApply q e = .full → execIngressEntryPush w s = .next (t.discard q 1)) ∧
    (∀ u c va, t.sqApply q e = .fault u c va → execIngressEntryPush w s = .next (u.discard q 2)) := by
  obtain ⟨_, staging, _⟩ := g
  cases hq
  cases hc
  refine ⟨fun u h => ?_, fun h => ?_, fun u c va h => ?_⟩
  all_goals simp only [execIngressEntryPush, hg, hw, h, Bool.false_eq_true, if_false]

/-! ### The obligation -/

/-- Settles O50: each event, on its condition, takes the effect that the lemma about its function states. -/
theorem deviceEventsComplete : Obligations.DeviceEventsComplete := by
  refine ⟨fun s hb hi => execReset_first hb hi, fun s hb hi => execReset_again hb hi,
    fun s hb ha ho => execReset_recovery hb ha ho, fun s r hr => ⟨fun h => execSupplyDroop_new hr h, rfl⟩,
    fun s w => rfl, fun s h => execHostLinkDown_up h, fun s w g hb hs => execHostLinkUp_running w g hb hs,
    fun s c id o a ho hl ha hk => execHostAccessTimeout_last ho hl ha hk, fun s p h => execPairingPortDown_up h,
    fun s p hp h hb => execPairingPortUp_down hp h hb, fun s e => rfl, fun s => ⟨fun a hl ha => doubleBit_line hl ha,
      fun c a y hy => doubleBit_l1 hy, fun c => rfl, fun c k p r hp hr => doubleBit_vreg hp hr,
      fun c t e he ht => doubleBit_tile c he ht, fun c w n hw hn => doubleBit_la hw hn, fun c w hw => doubleBit_bench c hw,
      fun c h => doubleBit_control h, fun c k x h => doubleBit_walk h⟩,
    fun s c hr ht => execRecalibrationDone_idle hr ht,
    fun s k tag ht => ⟨execRetrainDone_task ht true, execRetrainDone_task ht false⟩, ?restart,
    fun s tag ctx n base tree ht hw hd => execSealCompletion_unread ht hw hd, ?page,
    fun s a bs hb hu ha => hostWrite_reaches hb hu ha, ?read,
    fun s w slot n g hw hs hg hn hc => execIngressCommit_room hw hs hg hn hc,
    fun s w off n bs g hw hg hn ho he h256 => execIngressWrite_staging hw hg hn ho he h256,
    fun s w q e r g hg hq hc hw => execIngressEntryPush_oldest hg hq hc hw⟩
  case restart =>
    intro s tag ht
    have he : exec .fwRestart s = _ := execFwRestart_task ht
    exact ⟨fun h => by rw [he, if_pos h], fun h => by rw [he, if_neg (Bool.eq_false_iff.mp h)]⟩
  case page =>
    intro s t ctx k base tree tag d ht hw u hd hp hk hkt hku hb r
    have hf : (List.range 16).find? (fun j => (FMap.get s.sealed j).isNone) = some k :=
      List.find?_range_eq_some.mpr ⟨Option.isNone_iff_eq_none.mpr hku, List.mem_range.mpr hk, fun j hj => by
        rw [Option.isNone_eq_false_iff.mpr (hb j hj).1, Bool.not_false]⟩
    exact execSealCompletion_page ht hw hd hp hf
  case read =>
    intro s off n junk hb hu got
    refine ⟨hostRead_answers hb hu junk rfl, hostRead_answers hb hu junk rfl, fun bs ho hw hr => ?_,
      fun bar => hostAtomic_unsupported hb hu bar off junk⟩
    exact (hostRead_answers (bar := 4) hb hu junk (by rw [hw, Bool.and_false])).trans (by rw [barRead_memory ho hr])

end Sys2Proof.Machine
end

section
/-! PROOF. Decoding and encoding the words of walks and of the Jig agree (R64-R67, R191, R192, R320), and what the words that the spec
prints decode to. -/
namespace Sys2Proof

/-! ### Fields of a word (R64, R66) -/

/-- A field that a narrower value was widened to reads back as the value. -/
theorem extract_zeroExtend {n m : Nat} (x : BitVec n) (h : n ≤ m) : (x.zeroExtend m).extractLsb' 0 n = x := by
  ext i hi
  have hm : i < m := by omega
  simp [hm, BitVec.getLsbD_eq_getElem hi]

theorem lowBit_zeroExtend_b1 (b : Bool) {m : Nat} (h : 1 ≤ m) : ((b1 b).zeroExtend m).getLsbD 0 = b := by
  simp [-BitVec.getLsbD_eq_getElem, BitVec.getLsbD_setWidth, getLsbD_b1, show 0 < m by omega]

section
variable (op : BitVec 6) (d a b : BitVec 4) (low : BitVec 14)

theorem op_packWalk : (packWalk op d a b low).extractLsb' 26 6 = op := by
  simp (disch := decide) only [packWalk, BitVec.extractLsb'_append_eq_of_le, Nat.reduceSub, BitVec.extractLsb'_eq_self]

theorem d_packWalk : (packWalk op d a b low).extractLsb' 22 4 = d := by
  simp (disch := decide) only [packWalk, BitVec.extractLsb'_append_eq_of_le, BitVec.extractLsb'_append_eq_of_add_le,
    Nat.reduceSub, BitVec.extractLsb'_eq_self]

theorem a_packWalk : (packWalk op d a b low).extractLsb' 18 4 = a := by
  simp (disch := decide) only [packWalk, BitVec.extractLsb'_append_eq_of_le, BitVec.extractLsb'_append_eq_of_add_le,
    Nat.reduceSub, BitVec.extractLsb'_eq_self]

theorem b_packWalk : (packWalk op d a b low).extractLsb' 14 4 = b := by
  simp (disch := decide) only [packWalk, BitVec.extractLsb'_append_eq_of_le, BitVec.extractLsb'_append_eq_of_add_le,
    Nat.reduceSub, BitVec.extractLsb'_eq_self]

theorem low_packWalk (s n : Nat) (h : s + n ≤ 14) : (packWalk op d a b low).extractLsb' s n = low.extractLsb' s n :=
  BitVec.extractLsb'_append_eq_of_add_le h

theorem lowBit_packWalk (n : Nat) (h : n < 14) : (packWalk op d a b low).getLsbD n = low.getLsbD n :=
  getLsbD_append_low _ _ _ h

end

section
variable (op : BitVec 5) (d a b : BitVec 3) (low : BitVec 18)

theorem op_packJig : (packJig op d a b low).extractLsb' 27 5 = op := by
  simp (disch := decide) only [packJig, BitVec.extractLsb'_append_eq_of_le, Nat.reduceSub, BitVec.extractLsb'_eq_self]

theorem d_packJig : (packJig op d a b low).extractLsb' 24 3 = d := by
  simp (disch := decide) only [packJig, BitVec.extractLsb'_append_eq_of_le, BitVec.extractLsb'_append_eq_of_add_le,
    Nat.reduceSub, BitVec.extractLsb'_eq_self]

theorem a_packJig : (packJig op d a b low).extractLsb' 21 3 = a := by
  simp (disch := decide) only [packJig, BitVec.extractLsb'_append_eq_of_le, BitVec.extractLsb'_append_eq_of_add_le,
    Nat.reduceSub, BitVec.extractLsb'_eq_self]

theorem b_packJig : (packJig op d a b low).extractLsb' 18 3 = b := by
  simp (disch := decide) only [packJig, BitVec.extractLsb'_append_eq_of_le, BitVec.extractLsb'_append_eq_of_add_le,
    Nat.reduceSub, BitVec.extractLsb'_eq_self]

theorem low_packJig (s n : Nat) (h : s + n ≤ 18) : (packJig op d a b low).extractLsb' s n = low.extractLsb' s n :=
  BitVec.extractLsb'_append_eq_of_add_le h

theorem lowBit_packJig (n : Nat) (h : n < 18) : (packJig op d a b low).getLsbD n = low.getLsbD n :=
  getLsbD_append_low _ _ _ h

end

/-! ### Codes and sources that read back (R191, R220, R320) -/

theorem Cmp.ofBits_code (c : Cmp) : Cmp.ofBits c.code = c := by cases c <;> rfl
theorem ScanTy.ofBits_bits (t : ScanTy) : ScanTy.ofBits t.bits = t := by cases t <;> rfl

theorem wcondOf_wcondBits (c : WCond) : wcondOf (wcondBits c).1 (wcondBits c).2 = c := by
  cases c <;> simp [wcondOf, wcondBits, extract_zeroExtend]

theorem immBit_qsrcBits (w : Bool) (y : QSrc) :
    (if (qsrcBits w y).2.getLsbD 13 = true then QSrc.imm ((qsrcBits w y).2.extractLsb' 0 12) else .reg (qsrcBits w y).1) = y := by
  cases y
  all_goals simp (disch := decide) only [qsrcBits, getLsbD_append_high, BitVec.extractLsb'_append_eq_of_add_le, Nat.reduceSub,
    BitVec.extractLsb'_eq_self]
  all_goals rfl

theorem wideBit_qsrcBits (w : Bool) (y : QSrc) : (qsrcBits w y).2.getLsbD 12 = w := by
  cases y <;> simp (disch := decide) only [qsrcBits, getLsbD_append_high, getLsbD_append_low, Nat.reduceSub, getLsbD_b1]

theorem immBit_gsrcBits (y : GSrc) :
    (if (gsrcBits y).2.getLsbD 17 = true then GSrc.imm ((gsrcBits y).2.extractLsb' 0 17) else .reg (gsrcBits y).1) = y := by
  cases y with
  | reg b => simp [gsrcBits]
  | imm i =>
    simp (disch := decide) only [gsrcBits, getLsbD_append_high, BitVec.extractLsb'_append_eq_of_add_le, Nat.reduceSub,
      BitVec.extractLsb'_eq_self]
    rfl

/-! ### The fields of an encoded word give its instruction -/

/-- The raw reading of a walk's word undoes the encoder, whatever R192 says of the instruction. -/
theorem rawWalk_encodeWalk {i : Instr} {w : Word} (hn : ∀ v, i ≠ .walkNonInstructionWord v) (h : encodeWalk i = some w) :
    rawWalk w = i := by
  cases i
  case walkNonInstructionWord => exact absurd rfl (hn _)
  case' cmps c ty a y => cases y
  all_goals cases h
  all_goals simp (disch := decide) only [rawWalk, op_packWalk, d_packWalk, a_packWalk, b_packWalk, low_packWalk, lowBit_packWalk,
    extract_zeroExtend, lowBit_zeroExtend_b1, BitVec.extractLsb'_append_eq_of_le, BitVec.extractLsb'_append_eq_of_add_le,
    getLsbD_append_high, getLsbD_append_low, Nat.reduceSub, getLsbD_b1, BitVec.extractLsb'_eq_self, immBit_qsrcBits,
    wideBit_qsrcBits, Cmp.ofBits_code, ScanTy.ofBits_bits, wcondOf_wcondBits, BitVec.ofNat_eq_ofNat, BitVec.reduceToNat]
  all_goals rfl

/-- The raw reading of a Jig's word undoes the encoder, whatever R320 and R322 say of the instruction. -/
theorem rawJig_encodeJig {i : Instr} {w : Word} (hn : ∀ v, i ≠ .jigNonInstructionWord v) (h : encodeJig i = some w) :
    rawJig w = i := by
  cases i
  case jigNonInstructionWord => exact absurd rfl (hn _)
  case' jflag k y => cases y
  all_goals cases h
  all_goals simp (disch := decide) only [rawJig, op_packJig, d_packJig, a_packJig, b_packJig, low_packJig, lowBit_packJig,
    extract_zeroExtend, BitVec.extractLsb'_append_eq_of_le, BitVec.extractLsb'_append_eq_of_add_le,
    getLsbD_append_high, getLsbD_append_low, Nat.reduceSub, getLsbD_b1, BitVec.extractLsb'_eq_self, immBit_gsrcBits,
    BitVec.ofNat_eq_ofNat, BitVec.reduceToNat]
  all_goals rfl

/-! ### What the raw readings pass on to the checks of R65 and R67 -/

theorem wellFormed_eq_walkOk {i : Instr} (hi : wellFormed i = (simtOk i && walkOk i && jigOk i)) (hs : simtOk i = true)
    (hj : jigOk i = true) : wellFormed i = walkOk i := by
  rw [hi, hs, hj, Bool.true_and, Bool.and_true]

/-- Only the checks of R192 can refuse the raw reading of a walk's word. -/
theorem wellFormed_rawWalk (w : Word) :
    rawWalk w = .walkNonInstructionWord w ∨ wellFormed (rawWalk w) = walkOk (rawWalk w) := by
  simp only [rawWalk]
  split
  case h_37 => split <;> split <;> exact .inr (wellFormed_eq_walkOk rfl rfl rfl)
  case h_39 => exact .inl rfl
  all_goals exact .inr (wellFormed_eq_walkOk rfl rfl rfl)

/-- Only the checks of R320 and R322 can refuse the raw reading of a Jig's word. -/
theorem wellFormed_rawJig (w : Word) :
    rawJig w = .jigNonInstructionWord w ∨ wellFormed (rawJig w) = jigOk (rawJig w) := by
  unfold rawJig
  split
  case h_17 => exact .inl rfl
  all_goals exact .inr rfl

/-- A well-formed instruction is no non-instruction word and meets the checks of walk and Jig words. -/
theorem wellFormed_word {i : Instr} (h : wellFormed i = true) :
    (∀ v, i ≠ .walkNonInstructionWord v) ∧ (∀ v, i ≠ .jigNonInstructionWord v) ∧ walkOk i = true ∧ jigOk i = true := by
  unfold wellFormed at h
  split at h
  case h_4 hw hj =>
    simp only [Bool.and_eq_true] at h
    obtain ⟨⟨-, hwalk⟩, hjig⟩ := h
    exact ⟨hw, hj, hwalk, hjig⟩
  all_goals cases h

/-! ### Decoding (R65, R67) -/

/-- The word 0 is no walk instruction: `NFETCH n0, dq0, 0` is the field of R192 that is refused. -/
theorem ne_zero_of_walkOk {w : Word} (h : walkOk (rawWalk w) = true) : w ≠ 0 := by
  rintro rfl
  exact absurd h (by decide)

/-- The word 0 is no Jig instruction: `JLDS w0, [g0]` is the field of R320 that is refused. -/
theorem ne_zero_of_jigOk {w : Word} (h : jigOk (rawJig w) = true) : w ≠ 0 := by
  rintro rfl
  exact absurd h (by decide)

theorem decodeWalk_encodeWalk {i : Instr} {w : Word} (hi : wellFormed i = true) (h : encodeWalk i = some w) : decodeWalk w = i := by
  obtain ⟨hn, -, hok, -⟩ := wellFormed_word hi
  have hr : rawWalk w = i := rawWalk_encodeWalk hn h
  have h0 : w ≠ 0 := ne_zero_of_walkOk (by rwa [hr])
  rw [decodeWalk, hr, if_pos ⟨h0, h, hok⟩]

theorem decodeJig_encodeJig {i : Instr} {w : Word} (hi : wellFormed i = true) (h : encodeJig i = some w) : decodeJig w = i := by
  obtain ⟨-, hn, -, hok⟩ := wellFormed_word hi
  have hr : rawJig w = i := rawJig_encodeJig hn h
  have h0 : w ≠ 0 := ne_zero_of_jigOk (by rwa [hr])
  rw [decodeJig, hr, if_pos ⟨h0, h, hok⟩]

/-- A word is either no instruction or the word of the well-formed instruction that it decodes to. -/
theorem encodeWalk_decodeWalk (w : Word) : encodeWalk (decodeWalk w) = some w ∧
    (decodeWalk w = .walkNonInstructionWord w ∨ wellFormed (decodeWalk w) = true) := by
  unfold decodeWalk
  split
  next h =>
    obtain ⟨-, he, hok⟩ := h
    exact ⟨he, (wellFormed_rawWalk w).imp_right (·.trans hok)⟩
  next => exact ⟨rfl, .inl rfl⟩

/-- A word is either no instruction or the word of the well-formed instruction that it decodes to. -/
theorem encodeJig_decodeJig (w : Word) : encodeJig (decodeJig w) = some w ∧
    (decodeJig w = .jigNonInstructionWord w ∨ wellFormed (decodeJig w) = true) := by
  unfold decodeJig
  split
  next h =>
    obtain ⟨-, he, hok⟩ := h
    exact ⟨he, (wellFormed_rawJig w).imp_right (·.trans hok)⟩
  next => exact ⟨rfl, .inl rfl⟩

/-- Settles O56: the fields of a word read back as they were placed, and the decoder keeps only words that encode again. -/
theorem wordEncodingAgrees : Obligations.WordEncodingAgrees :=
  ⟨fun _ _ hi h => decodeWalk_encodeWalk hi h, fun _ _ hi h => decodeJig_encodeJig hi h, encodeWalk_decodeWalk, encodeJig_decodeJig⟩

/-! ### Words that the spec prints (R47, R53, R57, R66, R191, R320, R375, R442) -/

/-- A word of zeros is no instruction, whatever follows it. -/
theorem decodeSimt_zero (x : DWord) : decodeSimt 0 x = .nonInstructionWord .zeroWord 0 0 none := by
  simp [decodeSimt, hasExt]

/-- Settles O54: each printed word is evaluated by the decoder, and a word of zeros is refused before its fields are read. -/
theorem decodeWords : Obligations.DecodeWords := by
  refine ⟨?nop, ?trap, ?bra, ?scan, ?fmac, ?ld, ?fnc, ?fmt, ?mma, ?nfetch, ?br, ?jgadd, ?jflag, decodeSimt_zero⟩
  all_goals decide

end Sys2Proof
end

section
/-! PROOF. Which special registers a wave writes, and what the write does (R51, R63, R84, R430, R446). -/
namespace Sys2Proof.Machine

/-! ### Which writes are refused (R51, R445) -/

theorem csrWrite_barred {x src : Wave} {n : Nat} (v : DWord) (h : src.csrBars n = true) : x.csrWrite src n v = none :=
  if_pos h

theorem csrBars_readOnly {n : Nat} (src : Wave) (h : n ∉ [256, 258, 269, 270, 271, 272, 273, 274]) : src.csrBars n = true := by
  simp only [List.mem_cons, List.not_mem_nil, or_false, not_or] at h
  have h1 : ¬ (n = 256 ∨ n = 274) := by omega
  have h2 : ¬ (n = 258 ∨ (269 ≤ n ∧ n ≤ 273)) := by omega
  simp [Wave.csrBars, csrAccess, h1, h2]

theorem csrBars_handler {n : Nat} (src : Wave) (h : n ∈ [258, 269, 270, 271, 272, 273]) : src.csrBars n = !srH src.sr := by
  simp only [List.mem_cons, List.not_mem_nil, or_false] at h
  rcases h with rfl | rfl | rfl | rfl | rfl | rfl <;> simp [Wave.csrBars, csrAccess]

/-! ### `SR` (R84) -/

theorem csrWrite_sr (x src : Wave) (v : DWord) :
    x.csrWrite src 256 v = if !srH src.sr && (src.sr ^^^ loWord v) &&& 0xC0000000 != 0 then none
      else some { x with sr := srWrite (srH src.sr) x.sr (loWord v) } := rfl

theorem csrWrite_sr_eq_some {x src y : Wave} {v : DWord} (h : x.csrWrite src 256 v = some y) :
    y = { x with sr := srWrite (srH src.sr) x.sr (loWord v) } := by
  rw [csrWrite_sr] at h
  split at h <;> cases h
  rfl

/-- The bits that software writes: the mode and the enables. -/
theorem getLsbD_writtenBits (b : Nat) (h : b < 32) :
    (0x0003F803 : Word).getLsbD b = decide (b < 2 ∨ (11 ≤ b ∧ b < 18)) := by
  revert b; decide

/-- The sticky bits. -/
theorem getLsbD_stickyBits (b : Nat) (h : b < 32) : (0x000001FC : Word).getLsbD b = decide (2 ≤ b ∧ b < 9) := by
  revert b; decide

/-- `PP` and `H`, which no write changes. -/
theorem getLsbD_keptBits (b : Nat) (h : b < 32) : (0x60000000 : Word).getLsbD b = decide (b = 29 ∨ b = 30) := by
  revert b; decide

theorem getLsbD_stepBit (b : Nat) (h : b < 32) : (0x80000000 : Word).getLsbD b = decide (b = 31) := by
  revert b; decide

theorem getLsbD_noBits (b : Nat) : (0 : Word).getLsbD b = false := BitVec.getLsbD_zero

/-- Each bit of `SR` after a write. -/
theorem getLsbD_srWrite (hm : Bool) (old w : Word) (b : Nat) (h : b < 32) :
    (srWrite hm old w).getLsbD b =
      ((old.getLsbD b && (decide (b = 29 ∨ b = 30) || (!hm && decide (b = 31)))) ||
        (w.getLsbD b && (decide (b < 2 ∨ (11 ≤ b ∧ b < 18)) || (hm && decide (b = 31)))) ||
        (old.getLsbD b && w.getLsbD b && decide (2 ≤ b ∧ b < 9))) := by
  cases hm <;> simp only [srWrite, BitVec.getLsbD_or, BitVec.getLsbD_and, getLsbD_writtenBits b h, getLsbD_stickyBits b h,
    getLsbD_keptBits b h, getLsbD_stepBit b h, getLsbD_noBits, if_true, if_false, Bool.false_eq_true, Bool.not_true,
    Bool.not_false, Bool.true_and, Bool.false_and]

theorem getLsbD_loWord (v : DWord) (b : Nat) (h : b < 32) : (loWord v).getLsbD b = v.getLsbD b := by
  simp [loWord, h, -BitVec.getLsbD_eq_getElem]

/-- What a write of `SR` leaves, sets and clears, bit by bit. -/
theorem srWrite_bits (hm : Bool) (old : Word) (v : DWord) :
    let sr := srWrite hm old (loWord v)
    (∀ b, b < 32 → (b < 2 ∨ (11 ≤ b ∧ b < 18)) → sr.getLsbD b = v.getLsbD b) ∧
    (∀ b, 2 ≤ b → b < 9 → sr.getLsbD b = (old.getLsbD b && v.getLsbD b)) ∧
    sr.getLsbD 29 = old.getLsbD 29 ∧ sr.getLsbD 30 = old.getLsbD 30 ∧
    (∀ b, (b = 9 ∨ b = 10 ∨ (18 ≤ b ∧ b < 29)) → sr.getLsbD b = false) ∧
    sr.getLsbD 31 = (if hm then v.getLsbD 31 else old.getLsbD 31) := by
  have hbit : ∀ b, b < 32 → (srWrite hm old (loWord v)).getLsbD b = _ := fun b hb =>
    (getLsbD_srWrite hm old (loWord v) b hb).trans (by rw [getLsbD_loWord v b hb])
  refine ⟨fun b hb hr => ?written, fun b h2 h9 => ?sticky, ?pending, ?handler, fun b hr => ?reserved, ?step⟩
  case written =>
    rw [hbit b hb, decide_eq_true hr, decide_eq_false (by omega : ¬ (b = 29 ∨ b = 30)), decide_eq_false (by omega : ¬ b = 31),
      decide_eq_false (by omega : ¬ (2 ≤ b ∧ b < 9))]
    simp
  case sticky =>
    rw [hbit b (by omega), decide_eq_true (And.intro h2 h9), decide_eq_false (by omega : ¬ (b = 29 ∨ b = 30)),
      decide_eq_false (by omega : ¬ b = 31), decide_eq_false (by omega : ¬ (b < 2 ∨ 11 ≤ b ∧ b < 18))]
    simp
  case reserved =>
    rw [hbit b (by omega), decide_eq_false (by omega : ¬ (b = 29 ∨ b = 30)), decide_eq_false (by omega : ¬ b = 31),
      decide_eq_false (by omega : ¬ (b < 2 ∨ 11 ≤ b ∧ b < 18)), decide_eq_false (by omega : ¬ (2 ≤ b ∧ b < 9))]
    simp
  case pending => rw [hbit 29 (by decide)]; simp
  case handler => rw [hbit 30 (by decide)]; simp
  case step => rw [hbit 31 (by decide)]; cases hm <;> simp

/-! ### The trap registers (R430) -/

/-- `TRAPC` after a write: its cause and class, its lanes' fields, and `PEND` as it was. -/
theorem getLsbD_trapc (old : Word) (v : DWord) (b : Nat) (h : b < 32) :
    ((loWord v &&& 0xC0FF007F) ||| (old &&& 0x20000000)).getLsbD b =
      if b = 29 then old.getLsbD 29 else if b < 7 ∨ (16 ≤ b ∧ b < 24) ∨ 30 ≤ b then v.getLsbD b else false := by
  have hw : (0xC0FF007F : Word).getLsbD b = decide (b < 7 ∨ (16 ≤ b ∧ b < 24) ∨ 30 ≤ b) := by
    revert b; decide
  have hp : (0x20000000 : Word).getLsbD b = decide (b = 29) := by
    revert b; decide
  simp only [BitVec.getLsbD_or, BitVec.getLsbD_and, hw, hp, getLsbD_loWord v b h]
  by_cases h29 : b = 29
  · subst h29; simp
  · by_cases hf : b < 7 ∨ (16 ≤ b ∧ b < 24) ∨ 30 ≤ b <;> simp [h29, hf]

/-- Settles O16: the access of the register says which writes are refused, the register itself what a write does. -/
theorem specialRegisterWriteRule : Obligations.SpecialRegisterWriteRule := by
  intro x src v
  refine ⟨fun n hn => csrWrite_barred v (csrBars_readOnly src hn),
    fun hh n hn => csrWrite_barred v ((csrBars_handler src hn).trans (by rw [hh, Bool.not_false])), fun hh hv => ?mode,
    fun y hy => ?sr, fun hv => ?taken, fun hh => ?inHandler, rfl⟩
  case mode =>
    exact (csrWrite_sr x src v).trans (if_pos (by rw [hh, Bool.not_false, Bool.true_and]; exact bne_iff_ne.2 hv))
  case sr =>
    cases csrWrite_sr_eq_some hy
    obtain ⟨hw, hs, hp, hh, hr, hst⟩ := srWrite_bits (srH src.sr) x.sr v
    exact ⟨hw, hs, hp, hh, hr, hst, rfl⟩
  case taken =>
    refine ⟨_, (csrWrite_sr x src v).trans (if_neg ?_)⟩
    rcases hv with hv | hv
    · simp [hv]
    · rw [hv, bne_self_eq_false, Bool.and_false]
      exact Bool.false_ne_true
  case inHandler =>
    have hopen : ∀ n ∈ [258, 269, 270, 271, 272, 273], ¬ src.csrBars n = true := fun n hn => by
      rw [csrBars_handler src hn, hh]
      decide
    refine ⟨fun hv => ?_, fun hv => ?_, ⟨_, if_neg (hopen 269 (by decide)), fun b hb => getLsbD_trapc _ v b hb⟩,
      if_neg (hopen 270 (by decide)), if_neg (hopen 271 (by decide)), if_neg (hopen 272 (by decide)), if_neg (hopen 273 (by decide))⟩
    · exact (if_neg (hopen 258 (by decide))).trans (congrArg some (if_pos hv))
    · exact (if_neg (hopen 258 (by decide))).trans (congrArg some (if_neg hv))

end Sys2Proof.Machine
end

section
/-! PROOF. Special registers, `FMT` and words that are no instruction (R51, R59-R63, R84, R430, R445, R446). -/
namespace Sys2Proof.Machine

/-! ### Traps of an instruction (R7, R60, R62) -/

/-- An instruction whose body traps on its active lanes is trapped. -/
theorem simt_traps {s s0 : State} {o : Opnds} {pfx : Bool} {x : Iss} {act : Mask} {dflt : DCls} {more : List Nat}
    (h : Issues s o pfx s0 x act dflt more) (pre : Iss → Option Stop) (hp : pre x = none)
    (body : State → Iss → Mask → Except Stop Fx) (t : Trap) (hb : body s0 x act = .error (.trap t)) :
    simt s o pfx pre body dflt more = .next (s0.trapNow x t) := by
  rw [simt_issues h pre hp body, hb, finish_trap]

/-! ### Reads and writes of special registers (R51, R445, R446) -/

theorem exec_csrr (o : Opnds) (s : State) : exec (.csrr o) s = execCsrr o s := rfl
theorem exec_csrw (o : Opnds) (s : State) : exec (.csrw o) s = execCsrw o s := rfl
theorem exec_csrx (o : Opnds) (s : State) : exec (.csrx o) s = execCsrx o s := rfl

theorem csrr_scalars {o : Opnds} {s s0 : State} {x : Iss} {act : Mask} {t : State} (h : Issues s o false s0 x act .sca)
    (hd : dclsOf o .sca ≠ .vec)
    (hp : s0.putScalar x act o.d.toNat (s0.csrWords x o.a.toNat ((lowest act).getD 0)) = .ok t) :
    Retires (.csrr o) s s0 x act o false { s := t } :=
  fun ht => (exec_csrr o s).trans (simt_retires h noPre rfl _ { s := t } (by simp only [if_neg hd, hp]) ht)

theorem csrr_lanes {o : Opnds} {s s0 : State} {x : Iss} {act : Mask} {ns : List Nat} {t : State}
    (h : Issues s o false s0 x act .sca) (hd : dclsOf o .sca = .vec) (hn : x.names act 3 o.d.toNat 2 = .ok ns)
    (hp : s0.putVec x act ns ((List.range 2).map (fun i => vbuild (fun l => nth (s0.csrWords x o.a.toNat l) i 0))) = .ok t) :
    Retires (.csrr o) s s0 x act o false { s := t } :=
  fun ht => (exec_csrr o s).trans (simt_retires h noPre rfl _ { s := t } (by simp only [if_pos hd, hn, hp]) ht)

section
variable {o : Opnds} {s s0 : State} {x : Iss} {act : Mask} {vs : List Src} {y : Wave}

theorem csrw_taken (h : Issues s o false s0 x act) (hb : x.src.csrBars o.d.toNat = false)
    (hs : s0.sources x act o [fieldA o 2] = .ok vs)
    (hw : (s0.now x).csrWrite x.src o.d.toNat (BitVec.ofNat 64 (once act vs 0)) = some y) :
    Retires (.csrw o) s s0 x act o false { s := s0.modNow x (fun _ => y) } :=
  fun ht => (exec_csrw o s).trans (simt_retires h noPre rfl _ { s := s0.modNow x (fun _ => y) }
    (by simp only [hb, hs, hw, Bool.false_eq_true, if_false]) ht)

theorem csrx_taken (h : Issues s o false s0 x act) (hb : x.src.csrBars o.d.toNat = false)
    (hs : s0.sources x act o [fieldA o 2] = .ok vs)
    (hw : (s0.now x).csrWrite x.src o.d.toNat (BitVec.ofNat 64 (once act vs 0)) = some y) {t : State}
    (hp : (s0.modNow x (fun _ => y)).putScalar x act o.a.toNat (s0.csrWords x o.d.toNat ((lowest act).getD 0)) = .ok t) :
    Retires (.csrx o) s s0 x act o false { s := t } :=
  fun ht => (exec_csrx o s).trans (simt_retires h noPre rfl _ { s := t }
    (by simp only [hb, hs, hw, hp, Bool.false_eq_true, if_false]) ht)

/-- The trap of a write that is refused, of the lanes that are active (R446). -/
def privilegedTrap (x : Iss) (act : Mask) : Trap :=
  { cause := .privileged, cls := clsW, mask := act, addr := x.base, pc := x.pc, bundle := x.lanes, again := act }

theorem trap_privileged (x : Iss) (act : Mask) : x.trap act .privileged x.base = .trap (privilegedTrap x act) := rfl

theorem csr_barred (h : Issues s o false s0 x act) (hb : x.src.csrBars o.d.toNat = true) :
    exec (.csrw o) s = .next (s0.trapNow x (privilegedTrap x act)) ∧ exec (.csrx o) s = .next (s0.trapNow x (privilegedTrap x act)) :=
  ⟨(exec_csrw o s).trans (simt_traps h noPre rfl _ _ (if_pos hb)), (exec_csrx o s).trans (simt_traps h noPre rfl _ _ (if_pos hb))⟩

theorem csr_refused (h : Issues s o false s0 x act) (hs : s0.sources x act o [fieldA o 2] = .ok vs)
    (hw : (s0.now x).csrWrite x.src o.d.toNat (BitVec.ofNat 64 (once act vs 0)) = none) :
    exec (.csrw o) s = .next (s0.trapNow x (privilegedTrap x act)) ∧ exec (.csrx o) s = .next (s0.trapNow x (privilegedTrap x act)) := by
  exact ⟨(exec_csrw o s).trans (simt_traps h noPre rfl _ _ (by simp only [hs, hw, trap_privileged, ite_self])),
    (exec_csrx o s).trans (simt_traps h noPre rfl _ _ (by simp only [hs, hw, trap_privileged, ite_self]))⟩

end

/-- Settles O15: each way through the bodies of the three instructions, by the access of the register and its value. -/
theorem specialRegistersComplete : Obligations.SpecialRegistersComplete := by
  refine ⟨fun o s s0 x act t h hd hp => csrr_scalars h hd hp, fun o s s0 x act ns t h hd hn hp => csrr_lanes h hd hn hp,
    fun o s s0 x act vs y h hb hs hw => ⟨csrw_taken h hb hs hw, fun t hp => csrx_taken h hb hs hw hp⟩, ?_⟩
  rintro o s s0 x act h (hb | ⟨vs, hs, hw⟩)
  · exact csr_barred h hb
  · exact csr_refused h hs hw

/-! ### Traps before the guard (R60, R62) -/

/-- A word that names no predicate of a pending `ZFLG` takes the trap that comes before its guard. -/
theorem simt_pre {s : State} {o : Opnds} {pfx : Bool} {x : Iss} {dflt : DCls} {more : List Nat} (h : s.issuing = some x)
    (hu : Unnamed (s.firstAcquire x) x o dflt more) (hm : srPP x.src.sr = true → pfx = true) (pre : Iss → Option Stop) (t : Trap)
    (hp : pre x = some (.trap t)) (body : State → Iss → Mask → Except Stop Fx) :
    simt s o pfx pre body dflt more = .next ((s.firstAcquire x).trapNow x t) := by
  rcases simt_cases s o pfx pre body dflt more x h with ⟨hn, -⟩ | ⟨-, ⟨hpp, hf, -⟩ | ⟨-, ⟨e, he, hs⟩ | ⟨hnone, -⟩⟩⟩
  · exact absurd hu hn
  · exact absurd (hm hpp) (Bool.eq_false_iff.mp hf)
  · cases hp.symm.trans he
    exact hs
  · cases hp.symm.trans hnone

/-- The trap of a word before its guard, of its whole bundle (R59, R60, R62). -/
def wordTrap (x : Iss) (e : Cause) (addr : DWord) (aux : Nat := 0) : Trap :=
  { cause := e, cls := clsW, mask := x.lanes, addr := addr, pc := x.pc, aux := aux, bundle := x.lanes, again := x.lanes }

theorem pre_eq_wordTrap (x : Iss) (e : Cause) (addr : DWord) (aux : Nat) : x.pre e addr aux = .trap (wordTrap x e addr aux) := rfl

/-- A word that takes no prefix traps PREFIX_MISUSE while one is pending, whatever it does else (R62). -/
theorem simt_misuse {s : State} {o : Opnds} {x : Iss} {dflt : DCls} {more : List Nat} (h : s.issuing = some x)
    (hpp : srPP x.src.sr = true) (hu : Unnamed (s.firstAcquire x) x o dflt more) (pre : Iss → Option Stop)
    (body : State → Iss → Mask → Except Stop Fx) :
    simt s o false pre body dflt more = .next ((s.firstAcquire x).trapNow x (wordTrap x .prefixMisuse x.base)) := by
  rcases simt_cases s o false pre body dflt more x h with ⟨hn, -⟩ | ⟨-, ⟨-, -, hs⟩ | ⟨hf, -⟩⟩
  · exact absurd hu hn
  · exact hs
  · simp [hpp] at hf

/-- The predicates that a word names are the same whether its destination is a vector by default or there is none. -/
theorem unnamed_vec {s : State} {x : Iss} {o : Opnds} (h : Unnamed s x o .none []) : Unnamed s x o .vec [] := by
  have hn : namedPreds o .vec [] = namedPreds o .none [] := by
    cases he : o.ext <;> simp only [namedPreds, dclsOf, he]
  simpa only [Unnamed, hn] using h

/-- A store reads its scalar data as a source, and so names no predicate that its word does not. -/
theorem unnamed_storeOpnds {s : State} {x : Iss} {o : Opnds} (h : Unnamed s x o .none []) :
    Unnamed s x (storeOpnds o .vec) .none [] := by
  by_cases hd : dclsOf o .vec = .sca
  · obtain ⟨e, he⟩ : ∃ e, o.ext = some e := by
      cases he : o.ext with
      | none => simp [dclsOf, he] at hd
      | some e => exact ⟨e, rfl⟩
    have hcd : e.cd = .sca := by simpa only [dclsOf, he] using hd
    intro p hp
    apply h p
    simp only [storeOpnds, he, ne_eq, not_true, if_false, namedPreds, dclsOf, hcd, Opnds.cc, Opnds.c, List.mem_append,
      List.append_nil] at hp ⊢
    tauto
  · have ho : storeOpnds o .vec = o := if_pos hd
    rwa [ho]

theorem unnamed_noOpnds (s : State) (x : Iss) : Unnamed s x noOpnds .none [] := by
  rintro p ⟨⟩

/-! ### `FMT` (R62, R63) -/

theorem fmtPending_eq {s : State} {x : Iss} (h : s.issuing = some x) : s.fmtPending = srPP x.src.sr := by
  simp only [State.fmtPending, h]

section
variable {fa fb fc fd : BitVec 4} {gs : BitVec 2} {scl : BitVec 11} {sclc : Bool} {zp : BitVec 11} {zpc : Bool}
  {s s0 : State} {x : Iss} {act : Mask}

theorem exec_fmt (s : State) : exec (.fmt fa fb fc fd gs scl sclc zp zpc) s = execFmt fa fb fc fd gs scl sclc zp zpc s := rfl

/-- With a prefix pending `FMT` traps. -/
theorem fmt_double (hi : s.issuing = some x) (hpp : srPP x.src.sr = true) :
    exec (.fmt fa fb fc fd gs scl sclc zp zpc) s = .next ((s.firstAcquire x).trapNow x (wordTrap x .prefixDouble x.base)) :=
  (exec_fmt s).trans (by
    rw [execFmt, (fmtPending_eq hi).trans hpp]
    exact simt_pre hi (unnamed_noOpnds _ x) (fun _ => rfl) _ _ (if_pos hpp) _)

variable {w : DWord} {e : Option DWord}

/-- Without a prefix pending `FMT` stores its word, in the wave or aside. -/
theorem fmt_stores (hw : encodeSimt (.fmt fa fb fc fd gs scl sclc zp zpc) = some (w, e)) (hpp : srPP x.src.sr = false)
    (hi : Issues s noOpnds false s0 x act) (hn : srPP (s0.now x).sr = false) :
    Retires (.fmt fa fb fc fd gs scl sclc zp zpc) s s0 x act noOpnds false
      { s := if srH (s0.now x).sr != srH x.src.sr then
          s0.modNow x (fun y => { y with asidePfx := w, asideMask := x.lanes, asidePP := true })
        else s0.modNow x (fun y => { y with pfx := w, pfxMask := x.lanes, sr := setBit32 y.sr 29 true }) } := by
  intro ht
  rw [exec_fmt, execFmt, (fmtPending_eq hi.bundle).trans hpp, hw]
  refine simt_retires hi _ (if_neg (Bool.eq_false_iff.mp hpp)) _ _ ?_ ht
  simp only [hpp, hn, bne_self_eq_false, Bool.false_eq_true, if_false]
  split <;> rfl

end

/-- Settles O21: a pending prefix decides before the guard; without one the mode of the clock's beginning says where the word goes. -/
theorem formatWordCompletes : Obligations.FormatWordCompletes := by
  intro fa fb fc fd gs scl sclc zp zpc s s0 x act
  refine ⟨fun w e hw hpp hi hn => ?_, fun hi h0 hpp => h0 ▸ fmt_double hi hpp⟩
  have hs := fmt_stores hw hpp hi hn
  refine ⟨fun hh => ?_, fun hh => ?_⟩
  · rwa [if_neg (by rw [hh, bne_self_eq_false]; exact Bool.false_ne_true)] at hs
  · rwa [if_pos (bne_iff_ne.mpr hh)] at hs

/-! ### Words that take no prefix, and words that are no instruction (R59, R60, R62) -/

section
variable {o : Opnds} {s : State} {x : Iss} (hi : s.issuing = some x) (hpp : srPP x.src.sr = true)
  (hu : Unnamed (s.firstAcquire x) x o .none [])
include hi hpp hu

theorem alu_misuse {op : Iss → List Nat} {h : Shape} {f : Iss → LaneFn} (hd : h.dflt = .vec) :
    alu s o op h f = .next ((s.firstAcquire x).trapNow x (wordTrap x .prefixMisuse x.base)) := by
  rw [alu, hd]
  exact simt_misuse hi hpp (unnamed_vec hu) _ _

theorem queued_misuse {op : Iss → List Nat} {h : Shape} {f : Iss → LaneFn} :
    queued s o op h f = .next ((s.firstAcquire x).trapNow x (wordTrap x .prefixMisuse x.base)) :=
  simt_misuse hi hpp hu _ _

theorem memory_misuse {f : MemForm} {op : Iss → List Nat} (hd : f.dst = .vec) :
    memory s o f op = .next ((s.firstAcquire x).trapNow x (wordTrap x .prefixMisuse x.base)) := by
  rw [memory, hd]
  exact simt_misuse hi hpp (unnamed_vec hu) _ _

theorem store_misuse {f : MemForm} :
    store s o .vec f = .next ((s.firstAcquire x).trapNow x (wordTrap x .prefixMisuse x.base)) :=
  simt_misuse hi hpp (unnamed_storeOpnds hu) _ _

end

/-- Settles O22: each of the thirteen runs through the shape that its arms share, as a word that takes no prefix. -/
theorem prefixMisuseTraps : Obligations.PrefixMisuseTraps := by
  intro o s x hi hpp hu
  exact ⟨show execNop o s = _ from simt_misuse hi hpp hu _ _, show execBra o s = _ from simt_misuse hi hpp hu _ _,
    show execCall o s = _ from simt_misuse hi hpp hu _ _, fun ty sat => show execIadd o ty sat s = _ from alu_misuse hi hpp hu rfl,
    fun rm => show execFmac o rm s = _ from alu_misuse hi hpp hu rfl, fun rm => show execRcp o rm s = _ from queued_misuse hi hpp hu,
    fun z k => show execLd o z k s = _ from memory_misuse hi hpp hu rfl,
    fun z k => show execSt o z k s = _ from store_misuse hi hpp hu,
    fun sc => show execFnc o sc s = _ from simt_misuse hi hpp hu _ _, show execBar o s = _ from simt_misuse hi hpp hu _ _,
    show execMacz o s = _ from simt_misuse hi hpp hu _ _, (exec_csrw o s).trans (simt_misuse hi hpp hu _ _),
    fun pair => show execMov o pair s = _ from alu_misuse hi hpp hu rfl⟩

/-- A cause that the decoder finds before the rules on prefixes stands. -/
theorem wordCause_decoded {c : Cause} (aux : Nat) (w : DWord) (ext : Option DWord) (x : Iss)
    (h : c ≠ .illegalFunction ∧ c ≠ .illegalOperand) :
    wordCause c aux w ext x = (c, aux) :=
  if_neg (not_or.mpr h)

theorem wordCause_double {c : Cause} (aux : Nat) {w : DWord} (ext : Option DWord) {x : Iss}
    (h : c = .illegalFunction ∨ c = .illegalOperand) (hpp : srPP x.src.sr = true) (hm : majOf w = 63) :
    wordCause c aux w ext x = (.prefixDouble, 0) :=
  (if_pos h).trans (if_pos ⟨hpp, hm⟩)

theorem wordCause_misuse {c : Cause} (aux : Nat) {w : DWord} (ext : Option DWord) {x : Iss}
    (h : c = .illegalFunction ∨ c = .illegalOperand) (hpp : srPP x.src.sr = true) (hm : majOf w ≠ 63) (hf : takesFormat w = false) :
    wordCause c aux w ext x = (.prefixMisuse, 0) :=
  (if_pos h).trans ((if_neg (fun hd => hm hd.2)).trans (if_pos ⟨hpp, hf⟩))

/-- Settles O23: the word traps before its guard with the cause of `wordCause`, whose order of fates is that of R60. -/
theorem nonInstructionTraps : Obligations.NonInstructionTraps := by
  intro c aux w ext s x hi
  refine ⟨?_, wordCause_decoded aux w ext x, fun h hpp hm => wordCause_double aux ext h hpp hm,
    fun h hpp hm hf => wordCause_misuse aux ext h hpp hm hf⟩
  show execNonInstructionWord c aux w ext s = _
  exact simt_pre hi (unnamed_noOpnds _ x) (fun _ => rfl) _ (wordTrap x (wordCause c aux w ext x).1 (if c = .zeroWord then 0 else w)
    (wordCause c aux w ext x).2) (congrArg some (pre_eq_wordTrap ..)) _

end Sys2Proof.Machine
end

section
/-! PROOF. Fetches, loads, pushes, entries, lists, hand-offs and branches of walks complete (R65, R193, R207-R209, R212, R213, R219,
R220). -/
namespace Sys2Proof.Machine

/-! ### The walk of the turn -/

theorem walk?_of_walkNow {s : State} {c k : Nat} {x : Walk} (h : s.walkNow = some (c, k, x)) : s.walk? c k = some x := by
  unfold State.walkNow at h
  split at h
  · split at h
    · obtain ⟨y, hy, he⟩ := Option.map_eq_some_iff.mp h
      cases he
      exact hy
    · cases h
  · cases h

theorem walk?_setWalk (s : State) (c k : Nat) (x : Walk) : (s.setWalk c k x).walk? c k = some x := by
  unfold State.walk? State.setWalk
  rw [core_modCore, if_pos rfl, FMap.get_set, if_pos rfl]

theorem modWalk_of_walk {s : State} {c k : Nat} {x : Walk} (f : Walk → Walk) (h : s.walk? c k = some x) :
    s.modWalk c k f = s.setWalk c k (f x) := by
  simp only [State.modWalk, h]

section
variable {s : State} {c k : Nat} {x : Walk} (hx : s.walkNow = some (c, k, x))
include hx

/-! ### `NFETCH` and `LDQ` (R193, R219) -/

theorem nfetch_plain (d : BitVec 1) (a : BitVec 4) (f : BitVec 8) (h63 : (x.dq a.toNat).getLsbD 63 = false)
    (h16 : (x.dq a.toNat).toNat % 16 = 0) (hf : f.toNat < 16) :
    exec (.nfetch d a f) s = .next (s.setWalk c k { x with wait := .node d.toNat (x.dq a.toNat) f.toNat [] }) :=
  (show execNfetch d a f s = _ from walkRun_next s _ c k x hx).trans (by
    simp only [h63, h16, hf, if_true, if_false, ne_eq, not_true, Bool.false_eq_true])

theorem nfetch_descriptor (d : BitVec 1) (a : BitVec 4) (f : BitVec 8) {t : State} {ws : List DWord}
    (h63 : (x.dq a.toNat).getLsbD 63 = false) (h16 : (x.dq a.toNat).toNat % 16 = 0) (hf : 16 ≤ f.toNat)
    (hr : s.readDesc c x (f.toNat - 16) = (t, .ok ws)) (hd : d = 1 → (DHead.of (nth ws 0 0) (nth ws 1 0)).dbl = false) :
    exec (.nfetch d a f) s = .next (t.setWalk c k { x with wait := .node d.toNat (x.dq a.toNat) f.toNat ws }) := by
  have h2 : ¬ (d = 1 ∧ (DHead.of (nth ws 0 0) (nth ws 1 0)).dbl = true) := fun ⟨h1, hb⟩ => Bool.eq_false_iff.mp (hd h1) hb
  refine (show execNfetch d a f s = _ from walkRun_next s _ c k x hx).trans ?_
  simp only [h63, h16, Nat.not_lt.mpr hf, hr, h2, if_false, ne_eq, not_true, Bool.false_eq_true]

theorem ldq_waits (d a : BitVec 4) (off : BitVec 10) (n : BitVec 3) {p : DWord} (hp : p = x.dq a.toNat + BitVec.ofNat 64 (4 * off.toNat))
    (h63 : p.getLsbD 63 = false) (h4 : p.toNat % 4 = 0) :
    exec (.ldq d a off n) s = .next (s.setWalk c k { x with wait := .ldq d.toNat p (2 ^ n.toNat) }) := by
  subst hp
  refine (show execLdq d a off n s = _ from walkRun_next s _ c k x hx).trans ?_
  simp only [h63, h4, if_false, ne_eq, not_true, Bool.false_eq_true]

/-! ### `PUSHM` (R212) -/

theorem pushm_pushes (kk : Bool) (a : BitVec 1) (b : BitVec 2) :
    exec (.pushm kk a b) s = .next (s.walkPush c k
      ((x.order.reverse.filter (fun p => (x.mr b.toNat).getLsbD p && decide (p < (x.node a.toNat).count))).flatMap (fun p =>
        let v := nth (x.node a.toNat).ptr p 0
        if kk then [loWord v, hiWord v, nth x.kappa p 0] else [loWord v, hiWord v]))) := by
  refine (show execPushm kk a b s = _ from walkRun_next s _ c k x hx).trans ?_
  cases kk <;> rfl

/-! ### Entries of the completion queue (R207-R209) -/

omit hx in
/-- An entry of a walk of this board, written where its queue has room. -/
theorem walkEntry_room (hw : s.walk? c k = some x) (hr : x.remote = none) (status extra : Nat) (result value : Word)
    (terminal : Bool) {t : State}
    (ht : s.cqWrite x.team c x.cq (cqEntry x.tag status x.emitted.toNat extra result value) = some t) :
    s.walkEntry c k status extra result value terminal =
      if terminal then t.freeWalk c k else t.modWalk c k (fun x => { x with emitted := x.emitted + 1, wait := .ready }) := by
  simp only [State.walkEntry, hw, hr, ht]

theorem emit_room (a b : BitVec 4) (e : BitVec 14) (hr : x.remote = none) {t : State}
    (ht : s.cqWrite x.team c x.cq (cqEntry x.tag 0 x.emitted.toNat e.toNat (x.qr a.toNat) (x.qr b.toNat)) = some t)
    (hk : t.walk? c k = some x) :
    exec (.emit a b e) s = .next ((t.setWalk c k { x with emitted := x.emitted + 1, wait := .ready }).walkNext c k) := by
  have he := walkEntry_room (walk?_of_walkNow hx) hr 0 e.toNat (x.qr a.toNat) (x.qr b.toNat) false ht
  rw [if_neg Bool.false_ne_true, modWalk_of_walk _ hk] at he
  refine (show execEmit a b e s = _ from walkRun_next s _ c k x hx).trans (congrArg _ ?_)
  simp only [State.walkEmit, he, walk?_setWalk, beq_self_eq_true, if_true]

theorem done_room (a b : BitVec 4) (e : BitVec 14) (hr : x.remote = none) {t : State}
    (ht : s.cqWrite x.team c x.cq (cqEntry x.tag 1 x.emitted.toNat e.toNat (x.qr a.toNat) (x.qr b.toNat)) = some t) :
    exec (.done a b e) s = .next (t.freeWalk c k) := by
  refine (show execDone a b e s = _ from walkRun_next s _ c k x hx).trans (congrArg _ ?_)
  simp only [hr]
  exact (walkEntry_room (walk?_of_walkNow hx) hr 1 e.toNat _ _ true ht).trans (if_pos rfl)

theorem done_remote (a b : BitVec 4) (e : BitVec 14) {oc os r : Nat} (hr : x.remote = some (oc, os, r)) :
    exec (.done a b e) s = .next ({ s with outbox := s.outbox ++
      [OutMsg.ret oc os x.hid { q := x.q, m := x.m, emitted := x.emitted, topk := x.topk }] }.freeWalk c k) := by
  refine (show execDone a b e s = _ from walkRun_next s _ c k x hx).trans (congrArg _ ?_)
  simp only [hr]

/-! ### The list of the best keys (R207, R208) -/

omit hx in
theorem topkInsert_cap (t : TopK) (key value : Word) : (topkInsert t key value).cap = t.cap := by
  unfold topkInsert
  split <;> rfl

/-- The list that a walk's `TOPK` inserts into. -/
def Walk.topkList (x : Walk) (n : Nat) (ty : ScanTy) (desc : Bool) : TopK :=
  x.topk.getD { cap := n, ty := ty, desc := desc, entries := [] }

/-- The bound that `TOPK` returns: the last key of a full list. -/
def topkAnswer (u : TopK) (ty : ScanTy) (desc : Bool) : Word :=
  if u.entries.length = u.cap then ((u.entries.getLast?).map (·.1)).getD 0 else topkBound ty desc

theorem topk_inserts (ty : ScanTy) (desc : Bool) (d a b : BitVec 4) (n : BitVec 6)
    (hl : (x.topkList n.toNat ty desc).cap = n.toNat ∧ (x.topkList n.toNat ty desc).ty = ty ∧
      (x.topkList n.toNat ty desc).desc = desc) :
    let u := topkInsert (x.topkList n.toNat ty desc) (x.qr a.toNat) (x.qr b.toNat)
    exec (.topk ty desc d a b n) s =
      .next ((s.setWalk c k ({ x with topk := some u }.setQ d.toNat (topkAnswer u ty desc))).walkNext c k) := by
  obtain ⟨hc, ht, hd⟩ := hl
  have hn : ¬ ((x.topkList n.toNat ty desc).cap ≠ n.toNat ∨ (x.topkList n.toNat ty desc).ty ≠ ty ∨
      (x.topkList n.toNat ty desc).desc ≠ desc) := by simp [hc, ht, hd]
  refine (show execTopk ty desc d a b n s = _ from walkRun_next s _ c k x hx).trans (congrArg _ ?_)
  cases hx' : x.topk
  all_goals simp only [Walk.topkList, hx', Option.getD_none, Option.getD_some] at hn ⊢
  all_goals exact if_neg hn

omit hx in
theorem topkAnswer_short {u : TopK} {n : Nat} (hc : u.cap = n) (hl : u.entries.length < n) (ty : ScanTy) (desc : Bool) :
    topkAnswer u ty desc = topkBound ty desc :=
  if_neg (by omega)

omit hx in
theorem topkAnswer_full {u : TopK} {n : Nat} {l : List (Word × Word)} {e : Word × Word} (hc : u.cap = n) (he : u.entries = l ++ [e])
    (hl : l.length + 1 = n) (ty : ScanTy) (desc : Bool) : topkAnswer u ty desc = e.1 := by
  have hn : u.entries.length = u.cap := by simp [he, hc, hl]
  rw [topkAnswer, if_pos hn, he, List.getLast?_concat]
  rfl

theorem emitk_writes (e : BitVec 14)
    (h : x.remote = none → (x.topk.elim [] (·.entries)).length ≤ (s.team x.team).cqd) :
    exec (.emitk e) s = .next (s.walkEmitAll c k (x.topk.elim [] (·.entries)) e.toNat) := by
  have hn : ¬ (x.remote.isNone = true ∧ (s.team x.team).cqd < (x.topk.elim [] (·.entries)).length) := fun ⟨hr, hl⟩ =>
    absurd (h (Option.isNone_iff_eq_none.mp hr)) (Nat.not_le.mpr hl)
  refine (show execEmitk e s = _ from walkRun_next s _ c k x hx).trans (congrArg _ ?_)
  cases hx' : x.topk
  all_goals simp only [hx', Option.elim_none, Option.elim_some] at hn ⊢
  all_goals exact if_neg hn

/-! ### `HOFF` (R213) -/

theorem hoff_sends (a : BitVec 4) (e : BitVec 12) {p : Nat} (hr : x.remote = none) (h63 : (x.dq a.toNat).getLsbD 63 = true)
    (ht : ∀ t, x.topk = some t → t.cap ≤ 20) (hs : s.paired = true) (hp : (FMap.getD s.ctxs x.ctx {}).pair = some p) :
    exec (.hoff a e) s = .next ((s.setWalk c k { x with
      wait := .handoff (x.dq a.toNat &&& 0x7FFFFFFFFFFFFFFF) e.toNat true }).sendHandoff c k) := by
  have hk : x.topk.any (fun t => decide (20 < t.cap)) = false := by
    cases h : x.topk with
    | none => rfl
    | some t => exact decide_eq_false (Nat.not_lt.mpr (ht t h))
  refine (show execHoff a e s = _ from walkRun_next s _ c k x hx).trans (congrArg _ ?_)
  simp only [hr, h63, hk, hs, hp, Option.isSome_none, Bool.not_true, Bool.false_eq_true, or_self, if_false]
  rfl

/-! ### Branches (R220) and words that are no instruction (R65) -/

omit hx in
theorem walkBranch_inside {off : Int} (h0 : 0 ≤ (x.pc : Int) + off) (hl : (x.pc : Int) + off < x.plen) :
    s.walkBranch c k x off = s.setWalk c k { x with pc := ((x.pc : Int) + off).toNat } :=
  if_neg (by omega)

end

/-- Settles O45: each word runs its arm on the walk of the turn, by the condition that its arm tests. -/
theorem walkFlowCompletes : Obligations.WalkFlowCompletes := by
  refine ⟨fun d a f s c k x hx h63 h16 => ⟨nfetch_plain hx d a f h63 h16,
      fun t ws hf hr hd => nfetch_descriptor hx d a f h63 h16 hf hr hd⟩,
    fun d a off n s c k x hx h63 h4 => ldq_waits hx d a off n rfl h63 h4, fun kk a b s c k x hx => pushm_pushes hx kk a b,
    fun a b e s c k x hx hr => ⟨fun t ht hk => emit_room hx a b e hr ht hk, fun t ht => done_room hx a b e hr ht⟩,
    fun a b e s c k oc os r x hx hr => done_remote hx a b e hr, ?topk, fun e s c k x hx h => emitk_writes hx e h,
    fun a e s c k p x hx hr h63 ht hs hp => hoff_sends hx a e hr h63 ht hs hp,
    fun off s c k x hx h0 hl => (show execBr off s = _ from walkRun_next s _ c k x hx).trans (congrArg _ (walkBranch_inside h0 hl)),
    ?brc, fun s c k x hx => show execYldw s = _ from walkRun_next s _ c k x hx,
    fun w s c k x hx => show execWalkNonInstructionWord w s = _ from walkRun_next s _ c k x hx⟩
  case topk =>
    intro ty desc d a b n s c k x hx t u hl
    have hi := topk_inserts hx ty desc d a b n hl
    have hc : u.cap = n.toNat := (topkInsert_cap t _ _).trans hl.1
    refine ⟨fun hu => ?_, fun l e he hn => ?_⟩
    · rw [← topkAnswer_short hc hu ty desc]
      exact hi
    · rw [← topkAnswer_full hc he hn ty desc]
      exact hi
  case brc =>
    intro cd off s c k x hx t
    have hb : exec (.brc cd off) s = _ := show execBrc cd off s = _ from walkRun_next s _ c k x hx
    refine ⟨fun hc h0 hl => ?_, fun hc => ?_⟩
    · rw [hb, if_pos hc, walkBranch_inside h0 hl]
    · rw [hb, if_neg (Bool.eq_false_iff.mp hc)]

end Sys2Proof.Machine
end

section
/-! PROOF. The words of the Jig complete (R67, R320-R323). -/
namespace Sys2Proof.Machine

/-! ### Elements of a vector (R71, R322) -/

theorem packElems_lt (w : Nat) (f : Nat → Nat) (n : Nat) : packElems w f n < 2 ^ (w * n) := by
  induction n with
  | zero => simp [packElems]
  | succ n ih =>
    have hf : f n % 2 ^ w + 1 ≤ 2 ^ w := Nat.mod_lt _ (Nat.two_pow_pos w)
    calc packElems w f (n + 1) = packElems w f n + f n % 2 ^ w * 2 ^ (w * n) := rfl
      _ < (f n % 2 ^ w + 1) * 2 ^ (w * n) := by rw [Nat.add_one_mul]; omega
      _ ≤ 2 ^ w * 2 ^ (w * n) := Nat.mul_le_mul_right _ hf
      _ = 2 ^ (w * (n + 1)) := by rw [← Nat.pow_add, Nat.mul_succ, Nat.add_comm]

/-- An element of packed elements reads back as its low bits. -/
theorem elemNat_packElems (w : Nat) (f : Nat → Nat) {n i : Nat} (h : i < n) : elemNat (packElems w f n) i w = f i % 2 ^ w := by
  induction n with
  | zero => cases h
  | succ n ih =>
    rcases Nat.lt_succ_iff_lt_or_eq.mp h with hlt | rfl
    · have hp : 2 ^ (w * n) = 2 ^ w * 2 ^ (w * (n - (i + 1))) * 2 ^ (w * i) := by
        obtain ⟨k, rfl⟩ := Nat.exists_eq_add_of_le (show i + 1 ≤ n from hlt)
        rw [Nat.add_sub_cancel_left]
        ring
      rw [← ih hlt]
      simp only [elemNat, packElems, hp]
      rw [← Nat.mul_assoc, Nat.add_mul_div_right _ _ (Nat.two_pow_pos _), Nat.mul_left_comm, Nat.add_mul_mod_self_left]
    · simp only [elemNat, packElems]
      rw [Nat.add_mul_div_right _ _ (Nat.two_pow_pos _), Nat.div_eq_of_lt (packElems_lt w f i), Nat.zero_add, Nat.mod_mod]

theorem elemNat_mod (v i w : Nat) : elemNat v i w % 2 ^ w = elemNat v i w := Nat.mod_mod _ _

theorem truncInt_mod (n : Int) (w : Nat) : truncInt n w % 2 ^ w = truncInt n w := by
  have h : n % 2 ^ w < 2 ^ w := Int.emod_lt_of_pos _ (by positivity)
  have hw : ((2 ^ w : Nat) : Int) = 2 ^ w := by push_cast; rfl
  refine Nat.mod_eq_of_lt ?_
  unfold truncInt
  omega

/-- A vector register has a whole number of elements of each width, and at least one. -/
theorem jigElems_pos (k : BitVec 3) : 0 < 1024 / jigWidth k := by
  revert k; decide

/-! ### Running sums (R322) -/

/-- The sum of the start and the first `n` elements, at width `w`. -/
def runningSum (w v acc n : Nat) : Nat := ((List.range n).foldl (fun t i => t + elemNat v i w) acc) % 2 ^ w

theorem runningSum_succ (w v acc n : Nat) : runningSum w v acc (n + 1) = (runningSum w v acc n + elemNat v n w) % 2 ^ w := by
  simp only [runningSum, List.range_succ, List.foldl_append, List.foldl_cons, List.foldl_nil, Nat.mod_add_mod]

theorem deltaSums_acc (w v n acc : Nat) : (deltaSums w v n acc).2 % 2 ^ w = runningSum w v acc n := by
  induction n with
  | zero => rfl
  | succ n ih => rw [runningSum_succ, ← ih, deltaSums, Nat.mod_mod, Nat.mod_add_mod]

theorem deltaSums_acc_succ (w v n acc : Nat) : (deltaSums w v (n + 1) acc).2 = runningSum w v acc (n + 1) := by
  rw [← deltaSums_acc, deltaSums, Nat.mod_mod]

/-- The vector of `JDELTA` is the running sums, packed. -/
theorem deltaSums_vec (w v n acc : Nat) : (deltaSums w v n acc).1 = packElems w (fun i => runningSum w v acc (i + 1)) n := by
  induction n with
  | zero => rfl
  | succ n ih =>
    have hs : (deltaSums w v (n + 1) acc).1 = (deltaSums w v n acc).1 + (deltaSums w v (n + 1) acc).2 * 2 ^ (w * n) := rfl
    rw [hs, ih, deltaSums_acc_succ, packElems, runningSum, Nat.mod_mod]

/-! ### Shifts (R323) -/

/-- A shift by a signed number of places, to the left when it is negative. -/
theorem signed_shift (x v : Word) :
    (if 0 ≤ v.toInt then (if 32 ≤ v.toInt then 0 else x >>> v.toInt.toNat)
      else if v.toInt ≤ -32 then 0 else x <<< (-v.toInt).toNat) =
    if v.msb then x <<< (-v).toNat else x >>> v.toNat := by
  cases h : v.msb with
  | false =>
    have hi : v.toInt = v.toNat := BitVec.toInt_eq_toNat_of_msb h
    simp only [hi, Int.natCast_nonneg, if_true, Int.toNat_natCast, Bool.false_eq_true, if_false]
    split
    · exact (BitVec.ushiftRight_eq_zero (by omega)).symm
    · rfl
  | true =>
    have hi : v.toInt = v.toNat - 2 ^ 32 := by rw [BitVec.toInt_eq_msb_cond, if_pos h]; rfl
    have hl := v.isLt
    have hg : 2 ^ 31 ≤ v.toNat := BitVec.le_toNat_of_msb_true h
    have hn : (-v).toNat = 2 ^ 32 - v.toNat := by rw [BitVec.toNat_neg]; omega
    have h0 : ¬ 0 ≤ v.toInt := by omega
    have ht : (-v.toInt).toNat = (-v).toNat := by omega
    rw [if_neg h0, ht, if_pos rfl]
    split
    · exact (BitVec.shiftLeft_eq_zero (by omega)).symm
    · rfl

/-! ### The words -/

section
variable {s : State} {c : Nat} {j : Jig} (hj : s.jigNow = some (c, j))
include hj

theorem jigLoads_bytes {g : Bool} {a off n al : Nat} {put : Jig → Nat → Jig} {t : State} {bs : List Byte}
    (h : s.jigLoad c j g a off n al = (t, .ok bs)) : jigLoads s g a off n al put = .next (t.setJig c (put j (leWord bs)).next) := by
  rw [jigLoads, jigRun_next s _ c j hj, h]

theorem jput_full (q a : BitVec 2) (h : 32 ≤ (nth j.q q.toNat []).length) : exec (.jput q a) s = .next s :=
  (show execJput q a s = _ from jigRun_next s _ c j hj).trans (congrArg _ (if_pos h))

theorem jput_room (q a : BitVec 2) (h : (nth j.q q.toNat []).length < 32) : exec (.jput q a) s =
    .next (s.setJig c { j with q := setNth j.q q.toNat (nth j.q q.toNat [] ++ [nth j.w a.toNat 0]) }.next) :=
  (show execJput q a s = _ from jigRun_next s _ c j hj).trans (congrArg _ (if_neg (Nat.not_le.mpr h)))

theorem jbr_inside (cond a : BitVec 3) (target : BitVec 8) (h : target.toNat < j.len) : exec (.jbr cond a target) s =
    .next (s.setJig c (if jigCond cond.toNat (j.gr a.toNat) then { j with pc := target.toNat } else j.next)) := by
  refine (show execJbr cond a target s = _ from jigRun_next s _ c j hj).trans (congrArg _ ((if_neg (Nat.not_le.mpr h)).trans ?_))
  split <;> rfl

/-- The count of `JLOOP` is down to 0 when it was 1. -/
theorem jloop_inside (a : BitVec 3) (target : BitVec 8) (h : target.toNat < j.len) :
    let y := j.setG a.toNat (j.gr a.toNat - 1)
    exec (.jloop a target) s = .next (s.setJig c (if j.gr a.toNat = 1 then y.next else { y with pc := target.toNat })) := by
  refine (show execJloop a target s = _ from jigRun_next s _ c j hj).trans (congrArg _ ((if_neg (Nat.not_le.mpr h)).trans ?_))
  simp only [sub_eq_zero]

theorem jwait_room (q : BitVec 2) (k : BitVec 6) (h : (nth j.q q.toNat []).length + k.toNat ≤ 32) :
    exec (.jwait q k) s = .next (s.setJig c j.next) :=
  (show execJwait q k s = _ from jigRun_next s _ c j hj).trans (congrArg _ (if_pos h))

theorem jwait_full (q : BitVec 2) (k : BitVec 6) (h : 32 < (nth j.q q.toNat []).length + k.toNat) : exec (.jwait q k) s = .next s :=
  (show execJwait q k s = _ from jigRun_next s _ c j hj).trans (congrArg _ (if_neg (Nat.not_le.mpr h)))

/-- `JFLAG` of a starter that has not ended. -/
theorem jflag_starter (k : BitVec 3) (y : GSrc) {w : Nat} (hs : j.starter = some w) (hw : (s.wave? c w).any (fun x => !x.isOver) = true) :
    exec (.jflag k y) s = .next (if (nth (s.wave c w).mbox k.toNat {}).full then s else
      ((s.modWave c w (fun x => x.setBox k.toNat (match y with | .reg a => j.gr a.toNat | .imm i => i.zeroExtend 32))).setJig c
        j.next).settleBoxes c w) := by
  have hf : j.starter.filter (fun w => (s.wave? c w).any (fun x => !x.isOver)) = some w := by
    rw [hs, Option.filter_some, if_pos hw]
  refine (show execJflag k y s = _ from jigRun_next s _ c j hj).trans (congrArg _ ?_)
  cases y <;> simp only [hf]

end

theorem jigGoesOn_of_jigStep {i : Instr} {f : Jig → Jig} (h : ∀ s, exec i s = jigStep s f) : JigGoesOn i f :=
  fun s c j hj => (h s).trans (jigRun_next s _ c j hj)

theorem junpk_elements (sg : Bool) (d a : BitVec 2) (src dst part : BitVec 3) :
    ∃ f : Jig → Nat, JigGoesOn (.junpk sg d a src dst part) (fun (j : Jig) => j.setW d.toNat (f j)) ∧
      ∀ (j : Jig) i, i < 1024 / jigWidth dst → elemNat (f j) i (jigWidth dst) = truncInt (intOf
        (elemNat (j.wr a.toNat) (part.toNat * (1024 / jigWidth dst) + i) (jigWidth src)) (jigWidth src) sg) (jigWidth dst) :=
  ⟨_, jigGoesOn_of_jigStep (fun s => show execJunpk sg d a src dst part s = _ from rfl),
    fun _ _ hi => (elemNat_packElems _ _ hi).trans (truncInt_mod _ _)⟩

theorem jpack_elements (sg sat : Bool) (d a : BitVec 2) (src dst part : BitVec 3) :
    ∃ f : Jig → Nat, JigGoesOn (.jpack sg sat d a src dst part) (fun (j : Jig) => j.setW d.toNat (f j)) ∧
      ∀ (j : Jig) i, i < 1024 / jigWidth dst → elemNat (f j) i (jigWidth dst) =
        (let n := 1024 / jigWidth src
         let x := intOf (elemNat (j.wr a.toNat) (i - part.toNat * n) (jigWidth src)) (jigWidth src) sg
         if part.toNat * n ≤ i ∧ i < part.toNat * n + n then
           truncInt (if sat then satInt x (jigWidth dst) sg else x) (jigWidth dst)
         else elemNat (j.wr d.toNat) i (jigWidth dst)) := by
  refine ⟨_, jigGoesOn_of_jigStep (fun s => show execJpack sg sat d a src dst part s = _ from rfl),
    fun j i hi => (elemNat_packElems _ _ hi).trans ?_⟩
  dsimp only
  split
  · exact truncInt_mod _ _
  · exact elemNat_mod _ _ _

theorem jdelta_sums (d a : BitVec 2) (b w : BitVec 3) :
    ∃ f : Jig → Nat × Nat, JigGoesOn (.jdelta d a b w)
        (fun (j : Jig) => (j.setW d.toNat (f j).1).setG b.toNat (BitVec.ofNat 32 (f j).2)) ∧
      ∀ (j : Jig), let sum := runningSum (jigWidth w) (j.wr a.toNat) (j.gr b.toNat).toNat
        (∀ i, i < 1024 / jigWidth w → elemNat (f j).1 i (jigWidth w) = sum (i + 1)) ∧ (f j).2 = sum (1024 / jigWidth w) := by
  refine ⟨fun j => deltaSums (jigWidth w) (j.wr a.toNat) (1024 / jigWidth w) (j.gr b.toNat).toNat,
    jigGoesOn_of_jigStep (fun s => show execJdelta d a b w s = _ from rfl), fun j => ⟨fun i hi => ?_, ?_⟩⟩
  · rw [deltaSums_vec, elemNat_packElems _ _ hi, runningSum, Nat.mod_mod]
  · obtain ⟨n, hn⟩ := Nat.exists_eq_succ_of_ne_zero (jigElems_pos w).ne'
    rw [hn]
    exact deltaSums_acc_succ _ _ _ _

theorem jperm_elements (d a b : BitVec 2) :
    ∃ f : Jig → Nat, JigGoesOn (.jperm d a b) (fun (j : Jig) => j.setW d.toNat (f j)) ∧ ∀ (j : Jig) i, i < 128 →
      elemNat (f j) i 8 = if 128 ≤ elemNat (j.wr b.toNat) i 8 then 0
        else elemNat (j.wr a.toNat) (elemNat (j.wr b.toNat) i 8) 8 := by
  refine ⟨_, jigGoesOn_of_jigStep (fun s => show execJperm d a b s = _ from rfl),
    fun j i hi => (elemNat_packElems _ _ hi).trans ?_⟩
  dsimp only
  split
  · rfl
  · exact elemNat_mod _ _ _

/-- The scalar words with the value of their last operand. -/
theorem jigScalars (d a : BitVec 3) (y : GSrc) :
    JigGoesOn (.jgadd d a y) (fun (j : Jig) => j.setG d.toNat (j.gr a.toNat + j.gsrc y)) ∧
    JigGoesOn (.jgand d a y) (fun (j : Jig) => j.setG d.toNat (j.gr a.toNat &&& j.gsrc y)) ∧
    JigGoesOn (.jgshr d a y) (fun (j : Jig) => j.setG d.toNat
      (if (j.gsrc y).msb then j.gr a.toNat <<< (-(j.gsrc y)).toNat else j.gr a.toNat >>> (j.gsrc y).toNat)) := by
  refine ⟨jigGoesOn_of_jigStep (fun s => show execJgadd d a y s = _ from rfl),
    jigGoesOn_of_jigStep (fun s => show execJgand d a y s = _ from rfl), ?_⟩
  simp only [← signed_shift]
  exact jigGoesOn_of_jigStep (fun s => show execJgshr d a y s = _ from rfl)

/-- Settles O46: each word runs its arm on the Jig of the turn; an element of a result is the element that was packed. -/
theorem jigWordsComplete : Obligations.JigWordsComplete := by
  refine ⟨fun g d a off s t c j bs hj h => show execJlds g d a off s = _ from jigLoads_bytes hj h,
    fun g d a off s t c j bs hj h => show execJrld g d a off s = _ from jigLoads_bytes hj h,
    junpk_elements, jpack_elements, jdelta_sums,
    fun d a part sat mode dst src => jigGoesOn_of_jigStep (fun s => show execJcvt d a part sat mode dst src s = _ from rfl),
    jperm_elements, fun q a s c j hj => ⟨jput_room hj q a, jput_full hj q a⟩, fun d a y => ?scalars,
    fun cond a target s c j hj h => jbr_inside hj cond a target h, fun a target s c j hj h => jloop_inside hj a target h,
    fun q k s c j hj => ⟨jwait_room hj q k, jwait_full hj q k⟩,
    fun s c j hj => show execJend s = _ from jigRun_next s _ c j hj, fun k y s c w j hj hs hw => ?jflag,
    fun w s c j hj => show execJigNonInstructionWord w s = _ from jigRun_next s _ c j hj⟩
  case scalars => cases y <;> exact jigScalars d a _
  case jflag =>
    have he := jflag_starter hj k y hs hw
    refine ⟨fun hb => he.trans (congrArg _ ?_), fun hb => he.trans (congrArg _ ?_)⟩
    · exact (if_neg (Bool.eq_false_iff.mp hb)).trans (by cases y <;> rfl)
    · exact if_pos hb

end Sys2Proof.Machine
end

section
/-! PROOF. The packed elements of a lane word (R71, R102). -/
namespace Sys2Proof.Machine

/-- The packed elements fit the 32 bits of a lane, also of a width that leaves bits over. -/
theorem packElems_lt_lane (w : Nat) (f : Nat → Nat) : packElems w f (32 / w) < 2 ^ 32 :=
  (packElems_lt w f (32 / w)).trans_le (Nat.pow_le_pow_right Nat.two_pos (Nat.mul_div_le 32 w))

/-- An element of a lane word that is built by packing reads back as its low bits: the word cuts none off. -/
theorem elemNat_lane_packElems (w : Nat) (f : Nat → Nat) {e : Nat} (he : e < 32 / w) :
    elemNat (BitVec.ofNat 32 (packElems w f (32 / w))).toNat e w = f e % 2 ^ w := by
  rw [BitVec.toNat_ofNat, Nat.mod_eq_of_lt (packElems_lt_lane w f)]
  exact elemNat_packElems w f he

/-- Settles O2: the word holds every packed element whole, and a truncated result is its own low bits. -/
theorem elementsOfLane : Obligations.ElementsOfLane := fun _ _ he =>
  ⟨fun _ _ _ _ => (elemNat_lane_packElems _ _ he).trans (truncInt_mod _ _),
    fun _ _ _ _ _ => (elemNat_lane_packElems _ _ he).trans (truncInt_mod _ _),
    fun _ _ _ => elemNat_lane_packElems _ _ he⟩

end Sys2Proof.Machine
end

section
/-! PROOF. The instructions of the computing groups complete (R94-R132): each runs the body that its group shares. -/
namespace Sys2Proof.Machine

/-- An instruction retires with what its body comes to. -/
theorem retires_of_body {i : Instr} {s s0 : State} {o : Opnds} {pfx : Bool} {x : Iss} {act : Mask} {dflt : DCls} {more : List Nat}
    {pre : Iss → Option Stop} {body : State → Iss → Mask → Except Stop Fx} {fx : Fx} (hi : Issues s o pfx s0 x act dflt more)
    (he : exec i s = simt s o pfx pre body dflt more) (hp : pre x = none) (hb : body s0 x act = .ok fx) :
    Retires i s s0 x act o pfx fx :=
  fun ht => he.trans (simt_retires hi pre hp body fx hb ht)

/-! ### The body of a computing instruction (R94-R97, R275) -/

/-- The body of a computing instruction comes to the reuse table's answer or, where that has none, to its computed result. -/
theorem aluBody_eq {o : Opnds} {op : Iss → List Nat} {h : Shape} {chk : OperandCheck} {f : Iss → LaneFn} {s : State} {x : Iss}
    {act : Mask} {vs : List Src} {ns : List Nat}
    (hok : x.namesOk act (h.srcs o ++ (if dclsOf o h.dflt = .vec then [dstOpd o h.d] else [])) = .ok ())
    (hvs : s.readOpds x act o (h.srcs o) = .ok vs)
    (hns : (if dclsOf o h.dflt = .vec then x.names act 3 o.d.toNat h.d else .ok []) = .ok ns)
    (hchk : chk x act (h.pick vs).1 (h.pick vs).2.1 (h.pick vs).2.2 = none) :
    let r := f x act (h.pick vs).1 (h.pick vs).2.1 (h.pick vs).2.2
    let p := if dclsOf o h.dflt = .pred then some o.d.toNat else none
    let k := reuseKey x act (op x) vs p ns
    aluBody o op h chk f s x act =
      if (h.elig && (dclsOf o h.dflt == .vec || dclsOf o h.dflt == .pred) && !vs.any (·.dyn)) = true then
        (s.reuseHit x act k ns p h.raise).getD (s.putResult x act o h (some k) ns r)
      else s.putResult x act o h none ns r := by
  simp only [aluBody, hok, hvs, hns, hchk]
  split
  · split <;> rename_i hr <;> rw [hr] <;> rfl
  · rfl

/-- An instruction whose body is that of its group retires with what the body came to. -/
theorem computesAt_of_body {i : Instr} {o : Opnds} {pfx : Bool} {op : Iss → List Nat} {h : Shape} {chk : OperandCheck}
    {f : Iss → LaneFn} {s s0 : State} {x : Iss} {act : Mask} {dflt : DCls} (hi : Issues s o pfx s0 x act dflt)
    {pre : Iss → Option Stop} {body : State → Iss → Mask → Except Stop Fx} (he : exec i s = simt s o pfx pre body dflt)
    (hp : pre x = none) (hb : body s0 x act = aluBody o op h chk f s0 x act) :
    ComputesAt i o pfx op h chk f s s0 x act := by
  intro vs ns hok hvs hns v r p k e hchk fx
  have hbody := hb.trans (aluBody_eq (op := op) (f := f) hok hvs hns hchk)
  refine ⟨fun hel hhit => retires_of_body hi he hp (hbody.trans ?_),
    fun hmiss hput => retires_of_body hi he hp (hbody.trans ?_)⟩
  · rw [if_pos hel, hhit]
    rfl
  · by_cases hel : e = true
    · rw [if_pos hel, hmiss hel]
      rwa [if_pos hel] at hput
    · rw [if_neg hel]
      rwa [if_neg hel] at hput

/-- An instruction that its arm runs through the combinator of the computing groups computes its lane function. -/
theorem computesPlain_of_alu {i : Instr} {o : Opnds} {op : Iss → List Nat} {h : Shape} {f : Iss → LaneFn}
    (he : ∀ s, exec i s = alu s o op h f) : ComputesPlain i o op h f :=
  fun s _ _ _ hi => computesAt_of_body hi (he s) rfl rfl

/-! ### IALU (R101, R102, R104) -/

/-- The magnitude as `IABS` computes it. -/
theorem natAbs_eq_ite (a : Int) : (a.natAbs : Int) = if a < 0 then -a else a := by
  split <;> omega

/-- Settles O1: each arm is the combinator with its element operation; of `IABS` that is the magnitude. -/
theorem integerAluCompletes : Obligations.IntegerAluCompletes := by
  refine ⟨fun o t sat => ?_, fun o t sat => ?_, fun o t sat => ?_, fun o t sat => ?magnitude,
    fun o t => ?_, fun o t => ?_, fun o t => ?_, fun o t => ?_, fun o t => ?_, fun o t => ?_, fun o t => ?_, fun o t => ?_, fun o t => ?_, fun o t => ?_, fun o t => ?_, fun o t c => ?_⟩
  case magnitude =>
    simp only [natAbs_eq_ite]
    exact computesPlain_of_alu fun _ => rfl
  all_goals exact computesPlain_of_alu fun _ => rfl

/-! ### IMUL, BITS and ADDR (R105, R107-R109) -/

/-- Settles O3: each arm is the combinator with its lane function. -/
theorem multiplyBitsAddressComplete : Obligations.MultiplyBitsAddressComplete := by
  refine ⟨fun o t => ?_, fun o t => ?_, fun o t => ?_, fun o t => ?_, fun o t => ?_, fun o t => ?_, fun o t => ?_, fun o t => ?_,
    fun o t => ?_, fun o t => ?_, fun o t => ?_, fun o t => ?_, fun o t => ?_, fun o k => ?_, fun o => ?_, fun o => ?_,
    fun o c sg => ?_⟩
  all_goals exact computesPlain_of_alu fun _ => rfl

/-! ### MOVE, PRED and LANE (R110, R112, R127-R130) -/

/-- Settles O4: each arm is the combinator with its lane function. -/
theorem movePredicateLaneComplete : Obligations.MovePredicateLaneComplete := by
  refine ⟨fun o pair => ?_, fun o pair => ?_, fun o pair => ?_, fun o tt => ?_, fun o v => ?_, fun o => ?_, fun o m => ?_, fun o => ?_,
    fun o v => ?_, fun o op excl t => ?_, fun o op t => ?_, fun o => ?_, fun o => ?_, fun o => ?_, fun o => ?_⟩
  all_goals exact computesPlain_of_alu fun _ => rfl

/-! ### FP32, FP64 and HP2 (R113-R116) -/

/-- Settles O5: each arm is the combinator with the element function of its format in the effective rounding mode. -/
theorem floatingPointCompletes : Obligations.FloatingPointCompletes := by
  refine ⟨fun o r => ?_, fun o r => ?_, fun o r => ?_, fun o r => ?_, fun o => ?_, fun o => ?_, fun o c => ?_, fun o => ?_, fun o r => ?_,
    fun o r => ?_, fun o => ?_, fun o r => ?_, fun o r => ?_, fun o r => ?_, fun o r => ?_, fun o => ?_, fun o => ?_, fun o c => ?_,
    fun o r => ?_, fun o bf r => ?_, fun o bf r => ?_, fun o bf r => ?_, fun o bf => ?_, fun o bf => ?_, fun o bf c => ?_⟩
  all_goals exact computesPlain_of_alu fun _ => rfl

/-! ### CONV (R117-R121) -/

/-- The body reads its lane function at the issuing bundle alone. -/
theorem aluBody_congr {o : Opnds} {op : Iss → List Nat} {h : Shape} {chk : OperandCheck} {f g : Iss → LaneFn} {s : State} {x : Iss}
    {act : Mask} (hfg : f x = g x) : aluBody o op h chk f s x act = aluBody o op h chk g s x act := by
  simp only [aluBody, hfg]

/-- Settles O6: past the checks of its effective formats each runs the body of the computing groups, in the formats of its bundle. -/
theorem conversionCompletes : Obligations.ConversionCompletes := by
  refine ⟨fun o s s0 x act hi hp => computesAt_of_body hi (show exec _ s = execCvt o s from rfl) hp ?_,
    fun o s s0 x act hi hp => computesAt_of_body hi (show exec _ s = execPackq o s from rfl) hp ?_,
    fun o s s0 x act hi hp => computesAt_of_body hi (show exec _ s = execUnpq o s from rfl) hp ?_⟩
  all_goals exact aluBody_congr rfl

end Sys2Proof.Machine
end

section
/-! PROOF. Queued functions and carry chains, `SMOV`, `FTST` and the long accumulators complete, queued results are written, and words
without an active lane only advance (R95, R102-R106, R111, R122-R124, R131, R132, R154, R272). -/
namespace Sys2Proof.Machine

/-! ### Queued functions (R105, R106, R122-R124) -/

/-- An instruction that has to wait, and keeps its wave to its transit registers, leaves its bundle waiting (R327, R370). -/
theorem finish_wait (s : State) (x : Iss) (act : Mask) (o : Opnds) (pfx : Bool) (t : State) (k : WaitKind)
    (h : s.transitsOver x t = false) : s.finish x act o pfx (.error (.wait t k)) =
      ((boxesOf o).foldl (fun u n => u.seeBox x.c x.w (nth x.src.mbox n {})) t).startWait x act (takesOf o) k := by
  simp [State.finish, h]

section
variable {o : Opnds} {op : Iss → List Nat} {h : Shape} {f : Iss → LaneFn} {s : State} {x : Iss} {act : Mask} {vs : List Src}
  {ns : List Nat} (hok : x.namesOk act (h.srcs o ++ (if dclsOf o .vec = .vec then [dstOpd o h.d] else [])) = .ok ())
  (hvs : s.readOpds x act o (h.srcs o) = .ok vs)
  (hns : (if dclsOf o .vec = .vec then x.names act 3 o.d.toNat h.d else .ok []) = .ok ns)
include hok hvs hns

/-- A queued instruction whose key the reuse table holds takes its answer. -/
theorem sfuBody_hit {fx : Fx} (he : (decide (dclsOf o .vec = .vec) && !vs.any (·.dyn)) = true)
    (hhit : s.reuseHit x act (reuseKey x act (op x) vs none ns) ns none h.raise = some (.ok fx)) :
    sfuBody o op h f s x act = .ok fx := by
  simp only [sfuBody, hok, hvs, hns, if_pos he, hhit]

/-- One without an answer of the reuse table enters the queue when that has room. -/
theorem sfuBody_enters (hmiss : (decide (dclsOf o .vec = .vec) && !vs.any (·.dyn)) = true →
      s.reuseHit x act (reuseKey x act (op x) vs none ns) ns none h.raise = none) (hroom : s.sfuRoom x.c x.w = true) :
    sfuBody o op h f s x act = s.sfuEnter x act o h vs ns
      (if (decide (dclsOf o .vec = .vec) && !vs.any (·.dyn)) = true then some (reuseKey x act (op x) vs none ns) else none)
      (f x act (h.pick vs).1 (h.pick vs).2.1 (h.pick vs).2.2) := by
  by_cases he : (decide (dclsOf o .vec = .vec) && !vs.any (·.dyn)) = true
  · simp only [sfuBody, hok, hvs, hns, if_pos he, hmiss he, if_pos hroom]
  · simp only [sfuBody, hok, hvs, hns, if_neg he, if_pos hroom]

end

/-- An instruction that its arm runs as a queued one enters the queue of its slice. -/
theorem queues_of_queued {i : Instr} {o : Opnds} {op : Iss → List Nat} {h : Shape} {f : Iss → LaneFn}
    (he : ∀ s, exec i s = queued s o op h f) : Queues i o op h f := by
  intro s s0 x act vs ns hi hok hvs hns v r k e
  have hrun : exec i s = .next (s0.finish x act o false (sfuBody o op h f s0 x act)) :=
    (he s).trans (simt_issues hi noPre rfl _)
  refine ⟨fun fx hel hhit ht => ?_, fun hmiss hroom => ⟨fun fx hfx ht => ?_, fun t q hq ht => ?_⟩⟩
  · rw [hrun, sfuBody_hit hok hvs hns hel hhit, finish_ok s0 x act o false fx ht]
  · rw [hrun, (sfuBody_enters hok hvs hns hmiss hroom).trans hfx, finish_ok s0 x act o false fx ht]
  · rw [hrun, (sfuBody_enters hok hvs hns hmiss hroom).trans hq, finish_wait s0 x act o false t q ht]

/-- Settles O7: each arm queues its lane function. -/
theorem queuedFunctionsComplete : Obligations.QueuedFunctionsComplete := by
  refine ⟨fun o r => ?_, fun o => ?_, fun o r => ?_, fun o => ?_, fun o => ?_, fun o => ?_, fun o => ?_, fun o => ?_, fun o r => ?_,
    fun o r => ?_, fun o t => ?_, fun o t => ?_⟩
  all_goals exact queues_of_queued fun _ => rfl

/-! ### Queued results (R123, R124, R272) -/

theorem wave?_modSlice (s : State) (c k d v : Nat) (f : Slice → Slice) : (s.modSlice c k f).wave? d v = s.wave? d v := by
  simp only [State.wave?, State.modSlice, State.setSlice, core_modCore]
  split
  · subst_vars; rfl
  · rfl

/-- The machine after an entry has left its slice's queue. -/
def State.withoutSfu (s : State) (c k : Nat) (e : SfuEntry) : State :=
  s.modSlice c k (fun q => { q with sfu := q.sfu.filter (fun y => y.id != e.id) })

section
variable {s : State} {c k : Nat} {e : SfuEntry}

/-- An entry in service whose destination is no mailbox is written. -/
theorem sfuResultWrite_eq (hf : (s.slice c k).sfu.find? (fun y => y.id == e.id && y.started) = some e) (hb : e.dest.isBox = false) :
    exec (.sfuResultWrite c k e.id) s = .next (s.sfuWrite c k e) := by
  show execSfuResultWrite c k e.id s = _
  simp only [execSfuResultWrite, hf, hb, Bool.false_and, Bool.false_eq_true, if_false]

/-- A vector result that has its registers is written with its flags. -/
theorem sfuWrite_vec {n : Nat} {ps : List Nat} {u : State} (hd : e.dest = .vec n ps)
    (hu : (s.withoutSfu c k e).settleResults c k e.active e.owns (resultsOf ps e.vals e.prior) = some u) :
    s.sfuWrite c k e = ((u.sweep c k).shareFlags c e.sharers e.active (fun l => nth e.flags l 0)).queuedFlags
      c e.wave e.pc e.clk e.bundle e.active (fun l => nth e.flags l 0) false e.hold := by
  rw [State.withoutSfu] at hu
  simp only [State.sfuWrite, hd, hu]

/-- A vector result without its registers has a borrowing wave saved. -/
theorem sfuWrite_vec_noReg {n : Nat} {ps : List Nat} (hd : e.dest = .vec n ps)
    (hu : (s.withoutSfu c k e).settleResults c k e.active e.owns (resultsOf ps e.vals e.prior) = none) :
    s.sfuWrite c k e = s.spillWave c k := by
  rw [State.withoutSfu] at hu
  simp only [State.sfuWrite, hd, hu]

/-- A scalar result of a wave with an active live thread arrives in its scalars. -/
theorem sfuWrite_sca {x : Wave} {n m : Nat} (hd : e.dest = .sca n m) (hx : s.wave? c e.wave = some x)
    (ha : e.active &&& x.live ≠ 0) :
    s.sfuWrite c k e = ((s.withoutSfu c k e).modWave c e.wave (fun y =>
        y.arrive e.id n m (some (e.vals.map (fun v => vlane v 0))))).queuedFlags
      c e.wave e.pc e.clk e.bundle e.active (fun l => nth e.flags l 0) true e.hold := by
  simp only [State.sfuWrite, State.withoutSfu, hd, wave?_modSlice, hx, if_neg ha]

end

/-- The values that the names of a register take from a queued result, when one name maps it. -/
theorem settleResult_users {s : State} {c k p : Nat} {active : Mask} {w n : Nat} {y : Wave} {val prior : VReg}
    (hu : (s.sliceWaves c k).flatMap (fun z => (z.2.names.filter (fun e => e.2 == p)).map (fun e => (z.1, e.1, z.2))) = [(w, n, y)]) :
    (s.sliceWaves c k).flatMap (fun z => (z.2.names.filter (fun e => e.2 == p)).map (fun e =>
      (z.1, e.1, vmerge (active &&& z.2.live) val prior))) = [(w, n, vmerge (active &&& y.live) val prior)] := by
  simpa only [List.map_flatMap, List.map_map, Function.comp_def, List.map_cons, List.map_nil] using
    congrArg (List.map (fun t : Nat × Nat × Wave => (t.1, t.2.1, vmerge (active &&& t.2.2.live) val prior))) hu

/-- The oldest waiting entry of a queue starts service, those before it being in service. -/
theorem startFirst_append {a : List SfuEntry} (e : SfuEntry) (b : List SfuEntry) (ha : ∀ y ∈ a, y.started = true)
    (he : e.started = false) : startFirst (a ++ e :: b) = a ++ { e with started := true } :: b := by
  induction a with
  | nil => simp [startFirst, he]
  | cons y a ih =>
    obtain ⟨hy, ha⟩ := List.forall_mem_cons.mp ha
    simp [startFirst, hy, ih ha]

/-- Settles O8: the outcomes of a result in service, by its destination, and the start of the oldest waiting entry. -/
theorem queuedResultWritten : Obligations.QueuedResultWritten := by
  refine ⟨?vector, ?value, ?scalar, ?start⟩
  case vector =>
    intro s c k e n ps hf hd
    have hw := sfuResultWrite_eq hf (by rw [hd]; rfl)
    exact ⟨fun u hu => hw.trans (congrArg _ (sfuWrite_vec hd hu)), fun hu => hw.trans (congrArg _ (sfuWrite_vec_noReg hd hu))⟩
  case value =>
    intro s c k p active w n y val prior hu v s1
    have hkeep : (if (v == vmerge active val prior) = true then vmerge active val prior else v) = v := by
      split
      · next h => exact (eq_of_beq h).symm
      · rfl
    simp only [State.settleResult, ownPrior, List.find?_nil, settleResult_users hu, List.any_cons, List.any_nil, Bool.or_false]
    rw [hkeep, List.filter_cons_of_neg (by simp only [v, bne_self_eq_false, Bool.false_eq_true, not_false_iff])]
    rfl
  case scalar =>
    intro s c k e x n m hf hd hx ha
    exact (sfuResultWrite_eq hf (by rw [hd]; rfl)).trans (congrArg _ (sfuWrite_sca hd hx ha))
  case start =>
    intro s c k a e b hq ha he
    have hw : (s.slice c k).sfu.all (·.started) = false := by simp [hq, he]
    refine ⟨?_, startFirst_append e b ha he⟩
    show execSfuServiceStart c k s = _
    rw [execSfuServiceStart, hw]
    rfl

/-! ### The carry chain (R102, R103) -/

theorem lowest_isSome {m : Mask} (h : m ≠ 0) : ∃ l, lowest m = some l := by
  cases hl : lanesOf m with
  | cons l ls => exact ⟨l, by rw [lowest, hl]; rfl⟩
  | nil =>
    refine absurd (BitVec.eq_of_getLsbD_eq fun i hi => ?_) h
    have : i ∉ lanesOf m := by simp [hl]
    simpa [-BitVec.getLsbD_eq_getElem, mem_lanesOf, hi] using this

/-- Settles O9: an issuing bundle has a lowest active lane, whose carry a scalar destination takes. -/
theorem carryChainCompletes : Obligations.CarryChainCompletes := by
  intro o t sub s s0 x act vs ns fx s1 i h hi hok hvs hns v r hput carry hpred
  have hbody : carryBody o sub s0 x act = .ok { fx with s := s1 } := by
    obtain ⟨l, hl⟩ := lowest_isSome hi.active
    simp only [hl, Option.getD_some, carry, r, v, h] at hpred hput
    simp only [h] at hok hvs
    simp only [carryBody, hok, hvs, hns, hput, hl, hpred]
  have he : exec i s = simt s o false noPre (carryBody o sub) := by cases sub <;> rfl
  exact retires_of_body hi he rfl hbody

/-! ### `SMOV` and `FTST` (R95, R111, R154) -/

section
variable {o : Opnds} {pair : Bool} {s s0 : State} {x : Iss} {act : Mask} {ns : List Nat} {b : Src}

theorem exec_smov (o : Opnds) (pair : Bool) (s : State) : exec (.smov o pair) s = execSmov o pair s := rfl

theorem smovBody_full {t : State} (hn : x.names act 0 o.a.toNat (pairN pair) = .ok ns)
    (hr : ∀ r ∈ (ns.map x.src.reg).map (pregOf x.phys), r.pending = false ∧ r.poison = false)
    (hb : s0.readOpd x act o (fieldB o) = .ok b)
    (hp : s0.putScalar x act o.d.toNat (((ns.map x.src.reg).map (pregOf x.phys)).map
      (fun r => vlane r.data (b.nat ((lowest act).getD 0) % 32))) = .ok t) :
    smovBody o pair s0 x act = .ok { s := t } := by
  have hpend : ((ns.map x.src.reg).map (pregOf x.phys)).any (·.pending) = false :=
    List.any_eq_false.mpr fun r h => by simp [hr r h]
  have hpois : ((ns.map x.src.reg).map (pregOf x.phys)).any (·.poison) = false :=
    List.any_eq_false.mpr fun r h => by simp [hr r h]
  simp only [smovBody, hn, hpend, hpois, hb, hp, Bool.false_and, Bool.false_eq_true, if_false]

/-- Names with their registers and what those hold. -/
theorem zip_map_map {α β γ : Type} (f : α → β) (g : β → γ) (l : List α) :
    l.zip ((l.map f).zip ((l.map f).map g)) = l.map (fun a => (a, f a, g (f a))) := by
  induction l with
  | nil => rfl
  | cons a l ih => simp only [List.map_cons, List.zip_cons_cons, ih]

/-- The move in flight that an `SMOV` of a PENDING name leaves. -/
def Iss.pendingMove (x : Iss) (s : State) (act : Mask) (o : Opnds) (pair : Bool) (ns : List Nat) (lane : Nat) : Op :=
  { id := s.fresh, wave := x.w, kind := .smov, pc := x.pc, bundle := x.lanes, active := act
    lanes := ns.map (fun n => { lane := lane, va := BitVec.ofNat 64 n, key := x.src.reg n, data :=
      let r := pregOf x.phys (x.src.reg n)
      if r.pending then [] else leBytes 4 (vlane r.data lane).toNat })
    dest := .sca o.d.toNat (pairN pair) }

theorem smovBody_pending {r : PReg} (hn : x.names act 0 o.a.toNat (pairN pair) = .ok ns) (he : o.ea = false)
    (hr : r ∈ (ns.map x.src.reg).map (pregOf x.phys)) (hp : r.pending = true) (hb : s0.readOpd x act o (fieldB o) = .ok b)
    (hd : o.d.toNat < 128) (hf : ∀ i, i < pairN pair → (s0.now x).sPend.getLsbD (o.d.toNat + i) = false) :
    smovBody o pair s0 x act = .ok { s := (s0.newId.2.modCore x.c (fun k => { k with
      ops := k.ops ++ [x.pendingMove s0 act o pair ns (b.nat ((lowest act).getD 0) % 32)] })).modNow x (fun y =>
        y.pendScalars o.d.toNat (pairN pair)) } := by
  have hpend : ((ns.map x.src.reg).map (pregOf x.phys)).any (·.pending) = true := List.any_eq_true.mpr ⟨r, hr, hp⟩
  have hfree : (List.range (pairN pair)).any (fun i => (s0.now x).sPend.getLsbD (o.d.toNat + i)) = false :=
    List.any_eq_false.mpr fun i hi => by simp only [hf i (List.mem_range.mp hi), Bool.false_eq_true, not_false_iff]
  simp only [smovBody, hn, hpend, he, hb, hfree, Bool.and_false, Bool.false_eq_true, if_false, if_true, if_neg (Nat.not_le.mpr hd),
    zip_map_map]
  simp only [Iss.pendingMove, List.map_map, State.newId]
  rfl

end

/-- Settles O10: the ways through the bodies of `SMOV`, by the registers of its names, and of `FTST`. -/
theorem smovFtstComplete : Obligations.SmovFtstComplete := by
  refine ⟨?full, ?pending, ?test⟩
  case full =>
    intro o pair s s0 x act ns b t hi hn rs hr hb hp
    exact retires_of_body hi (exec_smov o pair s) rfl (smovBody_full hn hr hb hp)
  case pending =>
    intro o pair s s0 x act ns b r hi hn he ps hr hp hb hd hf lane e
    exact retires_of_body hi (exec_smov o pair s) rfl (smovBody_pending hn he hr hp hb hd hf)
  case test =>
    intro o pair s s0 x act ns t hi hn hz full hp
    refine retires_of_body hi (show exec _ s = execFtst o pair s from rfl) rfl ?_
    have hblock : ns.any (fun n => o.ca == .sca && decide (144 ≤ n) && (s0.zflgPreds x).contains (n - 144)) = false := by
      refine List.any_eq_false.mpr fun n h => ?_
      simp only [Bool.and_eq_true, beq_iff_eq, decide_eq_true_eq, List.contains_iff_mem]
      rintro ⟨⟨hc, hl⟩, hm⟩
      exact hz hc n h hl hm
    simp only [ftstBody, hn, hblock, Bool.false_eq_true, if_false]
    rw [hp]

/-! ### The long accumulators (R131, R132) -/

/-- Settles O11: the bodies of the three instructions, past the checks of their operands. -/
theorem longAccumulatorCompletes : Obligations.LongAccumulatorCompletes := by
  refine ⟨?clear, ?add, ?read⟩
  case clear =>
    intro o s s0 x act hi n
    exact retires_of_body hi (show exec _ s = execLacz o s from rfl) rfl rfl
  case add =>
    intro o f s s0 x act vs hi hp h hok hvs n t r
    refine retires_of_body hi (show exec _ s = execLaca o f s from rfl) hp ?_
    simp only [h] at hok hvs
    simp only [lacaBody, hok, hvs]
    rfl
  case read =>
    intro o f r s s0 x act ns fx hi n h hns hpois v hput
    refine retires_of_body hi (show exec _ s = execLacr o f r s from rfl) rfl ?_
    simp only [h, n, v] at hns hpois hput
    simp only [hns, hpois, hput, Bool.false_eq_true, if_false]
    rfl

/-! ### Words without an active lane (R95) -/

section
variable {o : Opnds} {s : State} {x : Iss} (hi : s.issuing = some x) (hpp : srPP x.src.sr = false)
  (hu : Unnamed (s.firstAcquire x) x o .none []) (hg : (s.firstAcquire x).guard x o = some 0)

/-- The class that a word's extension names does not depend on the form's default. -/
theorem dclsOf_dclsOf (o : Opnds) (d : DCls) : dclsOf o (dclsOf o d) = dclsOf o d := by
  cases he : o.ext <;> simp only [dclsOf, he]

/-- What a word without an active lane comes to: its bundle moves past it. -/
def advanced (s : State) (x : Iss) (o : Opnds) : Host.Outcome State Fault Refusal :=
  .next ((s.firstAcquire x).retire x 0 { o with ca := .none, cb := .none, ext := none } false { s := s.firstAcquire x })

include hi hpp hg in
/-- A word that nothing stops before its guard only advances when its guard leaves no lane. -/
theorem simt_inactive {dflt : DCls} {more : List Nat} (hu : Unnamed (s.firstAcquire x) x o dflt more)
    (body : State → Iss → Mask → Except Stop Fx) : simt s o false noPre body dflt more = advanced s x o := by
  rcases simt_cases s o false noPre body dflt more x hi with
    ⟨hn, -⟩ | ⟨-, ⟨hp, -⟩ | ⟨-, ⟨e, he, -⟩ | ⟨-, ⟨hn, -⟩ | ⟨-, hs⟩ | ⟨act, ha, h0, -⟩⟩⟩⟩
  · exact absurd hu hn
  · exact absurd (hp.symm.trans hpp) Bool.noConfusion
  · cases he
  · cases hn.symm.trans hg
  · exact hs
  · exact absurd (Option.some.inj (ha.symm.trans hg)) h0

include hi hpp hu hg

theorem alu_inactive {op : Iss → List Nat} {h : Shape} {f : Iss → LaneFn} (hd : h.dflt = .vec) :
    alu s o op h f = advanced s x o := by
  rw [alu, hd]
  exact simt_inactive hi hpp hg (unnamed_vec hu) _

theorem memory_inactive {f : MemForm} {op : Iss → List Nat} (hd : dclsOf o f.dst = dclsOf o .vec) :
    memory s o f op = advanced s x o := by
  refine simt_inactive hi hpp hg ?_ _
  simpa only [Unnamed, namedPreds, hd] using unnamed_vec hu

/-- A store whose data is a scalar differs from its word in the extension alone, which retires nothing. -/
theorem store_inactive {f : MemForm} : store s o .vec f = advanced s x o := by
  have hs : storeOpnds o .vec = o ∨ ∃ e, storeOpnds o .vec = { o with ext := some e } := by
    cases he : o.ext with
    | some e =>
      simp only [storeOpnds, he]
      split
      · exact .inl rfl
      · exact .inr ⟨_, rfl⟩
    | none => exact .inl (if_pos (by simp only [dclsOf, he, ne_eq, reduceCtorEq, not_false_iff]))
  have h := simt_inactive hi hpp (o := storeOpnds o .vec) (by rcases hs with h | ⟨e, h⟩ <;> (rw [h]; exact hg)) (unnamed_storeOpnds hu)
    (memBody o f (fun _ => []))
  refine h.trans ?_
  rcases hs with h | ⟨e, h⟩ <;> rw [h]
  rfl

end

/-- Settles O24: each of the thirteen runs through the shape that its arms share, with no lane left by its guard. -/
theorem inactiveOnlyAdvances : Obligations.InactiveOnlyAdvances := by
  intro o s s0 x hi h0 hpp hu hg
  subst h0
  exact ⟨show execNop o s = _ from simt_inactive hi hpp hg hu _, show softTrap o .userTrap s = _ from simt_inactive hi hpp hg hu _,
    show execBra o s = _ from simt_inactive hi hpp hg hu _, fun ty sat => show execIadd o ty sat s = _ from alu_inactive hi hpp hu hg rfl,
    fun rm => show execFmac o rm s = _ from alu_inactive hi hpp hu hg rfl,
    fun rm => show execRcp o rm s = _ from simt_inactive hi hpp hg hu _,
    fun z k => show execLd o z k s = _ from memory_inactive hi hpp hu hg rfl,
    fun z k => show execSt o z k s = _ from store_inactive hi hpp hu hg,
    fun op k => show execAtom o op k s = _ from memory_inactive hi hpp hu hg (dclsOf_dclsOf o .vec),
    fun sc => show execFnc o sc s = _ from simt_inactive hi hpp hg hu _, show execBar o s = _ from simt_inactive hi hpp hg hu _,
    (exec_csrw o s).trans (simt_inactive hi hpp hg hu _), fun pair => show execMov o pair s = _ from alu_inactive hi hpp hu hg rfl⟩

end Sys2Proof.Machine
end

section
/-! PROOF. Writing a destination writes it and no other name (R95, R263-R268): the registers of a core are its table of names and the
register files of its slices, and each operation of the Dovetail file changes these in one way. -/
namespace Sys2Proof

/-! ### Tables -/

theorem FMap.getD_eq {α : Type} (m : FMap α) (k : Nat) (d : α) : FMap.getD m k d = (FMap.get m k).getD d := by
  unfold FMap.getD
  cases FMap.get m k <;> rfl

theorem FMap.get_map {α β : Type} (g : Nat → α → β) (m : FMap α) (k : Nat) :
    FMap.get (m.map (fun e => (e.1, g e.1 e.2))) k = (FMap.get m k).map (g k) := by
  induction m with
  | nil => rfl
  | cons e m ih =>
    simp only [List.map_cons, FMap.get]
    split
    · subst_vars; rfl
    · split
      · rfl
      · exact ih

theorem FMap.sorted_map {α β : Type} (g : Nat → α → β) (m : FMap α) :
    FMap.sorted (m.map (fun e => (e.1, g e.1 e.2))) = FMap.sorted m := by
  induction m with
  | nil => rfl
  | cons e m ih =>
    cases m with
    | nil => rfl
    | cons a m => exact congrArg (decide (e.1 < a.1) && ·) ih

theorem FMap.map_set {α β : Type} (g : α → β) (m : FMap α) (k : Nat) (v : α) :
    (FMap.set m k v).map (fun e => (e.1, g e.2)) = FMap.set (m.map (fun e => (e.1, g e.2))) k (g v) := by
  induction m with
  | nil => rfl
  | cons e m ih =>
    simp only [List.map_cons, FMap.set]
    split
    · rfl
    · split
      · rfl
      · exact congrArg _ ih

theorem FMap.set_of_get {α : Type} {m : FMap α} {k : Nat} {v : α} (h : FMap.get m k = some v) : FMap.set m k v = m := by
  induction m with
  | nil => cases h
  | cons e m ih =>
    simp only [FMap.get] at h
    simp only [FMap.set]
    split at h
    · subst_vars
      cases h
      rw [if_pos rfl]
    · next hk =>
      split at h
      · cases h
      · next hl => rw [if_neg hk, if_neg hl, ih h]

/-- Reading a sorted table of which entries have been dropped. -/
theorem FMap.get_filter {α : Type} (f : Nat × α → Bool) {m : FMap α} (h : FMap.sorted m = true) (k : Nat) :
    FMap.get (m.filter f) k = (FMap.get m k).filter (fun v => f (k, v)) := by
  ext v
  rw [FMap.get_of_mem _ (FMap.sorted_filter f m h), List.mem_filter, ← FMap.get_of_mem m h, Option.filter_eq_some_iff]

theorem FMap.erase_eq_filter {α : Type} {m : FMap α} (h : FMap.sorted m = true) (k : Nat) :
    FMap.erase m k = m.filter (fun e => e.1 != k) := by
  induction m with
  | nil => rfl
  | cons e m ih =>
    rw [FMap.sorted_cons] at h
    obtain ⟨hm, hs⟩ := h
    have hrest : e.1 = k ∨ k < e.1 → m.filter (fun e => e.1 != k) = m := fun hk =>
      List.filter_eq_self.mpr fun a ha => bne_iff_ne.mpr (by have := hm a ha; omega)
    simp only [FMap.erase, List.filter_cons]
    split
    · next hk => rw [if_neg (by simp [hk]), hrest (.inl hk)]
    · next hk =>
      rw [if_pos (bne_iff_ne.mpr hk)]
      split
      · next hl => rw [hrest (.inr hl)]
      · exact congrArg _ (ih hs)

namespace Machine

/-! ### The names of a core -/

/-- The names of the waves of a core, with the registers that they map. -/
def State.nameTab (s : State) (c : Nat) : FMap (FMap Nat) := (s.core c).waves.map (fun e => (e.1, e.2.names))

/-- What a name maps to in a table of names; one that is not listed maps to register 0. -/
def regIn (m : FMap (FMap Nat)) (w n : Nat) : Nat := FMap.getD (FMap.getD m w []) n 0

/-- The tables of names are listed in order. -/
def NamesSorted (m : FMap (FMap Nat)) : Prop := FMap.sorted m = true ∧ ∀ e ∈ m, FMap.sorted e.2 = true

theorem namesSorted_nameTab {s : State} {c : Nat} (hw : FMap.sorted (s.core c).waves = true)
    (hn : ∀ e ∈ (s.core c).waves, FMap.sorted e.2.names = true) : NamesSorted (s.nameTab c) := by
  refine ⟨(FMap.sorted_map (fun _ (y : Wave) => y.names) _).trans hw, fun e he => ?_⟩
  obtain ⟨y, hy, rfl⟩ := List.mem_map.mp he
  exact hn y hy

theorem get_nameTab (s : State) (c w : Nat) : FMap.get (s.nameTab c) w = (s.wave? c w).map Wave.names :=
  FMap.get_map (fun _ (y : Wave) => y.names) _ w

theorem wave_reg (s : State) (c w n : Nat) : (s.wave c w).reg n = regIn (s.nameTab c) w n := by
  rw [wave_eq, regIn, Wave.reg, FMap.getD_eq (s.nameTab c), get_nameTab]
  cases s.wave? c w <;> rfl

/-- The register files of the slices of a core. -/
def State.files (s : State) (c : Nat) : Nat → FMap PReg := fun k => (s.slice c k).phys

theorem vecOf_eq (s : State) (c w n : Nat) : s.vecOf c w n = pregOf (s.files c (sliceOf w)) (regIn (s.nameTab c) w n) :=
  congrArg _ (wave_reg s c w n)

theorem named_eq (s : State) (c k : Nat) :
    s.named c k = ((s.nameTab c).filter (fun e => sliceOf e.1 == k)).flatMap (fun e => e.2.map (·.2)) := by
  simp only [State.named, State.sliceWaves, State.nameTab, List.filter_map, List.flatMap_map, Function.comp_def]

/-- A register other than 0 that a name maps is referenced in the name's slice. -/
theorem mem_named {s : State} {c w n p : Nat} (hs : NamesSorted (s.nameTab c)) (hr : regIn (s.nameTab c) w n = p) (hp : p ≠ 0) :
    p ∈ s.named c (sliceOf w) := by
  subst hr
  rw [named_eq, List.mem_flatMap]
  cases hw : FMap.get (s.nameTab c) w with
  | none => simp [regIn, FMap.getD, hw, FMap.get] at hp
  | some ns =>
    have hm := (FMap.get_of_mem _ hs.1 w ns).mp hw
    refine ⟨(w, ns), List.mem_filter.mpr ⟨hm, beq_self_eq_true _⟩, List.mem_map.mpr ⟨(n, regIn (s.nameTab c) w n), ?_, rfl⟩⟩
    refine (FMap.get_of_mem _ (hs.2 _ hm) n _).mp ?_
    cases hn : FMap.get ns n with
    | none => simp [regIn, FMap.getD, hw, hn] at hp
    | some q => simp [regIn, FMap.getD, hw, hn]

/-- A name of a wave is mapped anew. -/
theorem regIn_set {m : FMap (FMap Nat)} {w : Nat} {ns : FMap Nat} (hw : FMap.get m w = some ns) (n p w' n' : Nat) :
    regIn (FMap.set m w (FMap.set ns n p)) w' n' = if w' = w ∧ n' = n then p else regIn m w' n' := by
  have hns : FMap.getD m w [] = ns := by simp only [FMap.getD, hw]
  simp only [regIn, FMap.getD_set]
  by_cases h : w' = w
  · subst h
    simp only [if_true, FMap.getD_set, true_and, hns]
  · simp only [if_neg h, if_neg (fun q : w' = w ∧ n' = n => h q.1)]

theorem namesSorted_set {m : FMap (FMap Nat)} {w : Nat} {ns : FMap Nat} (hs : NamesSorted m) (hw : FMap.get m w = some ns) (n p : Nat) :
    NamesSorted (FMap.set m w (FMap.set ns n p)) := by
  refine ⟨FMap.sorted_set _ _ _ hs.1, fun e he => ?_⟩
  rcases FMap.set_mem _ _ _ e he with rfl | h
  · exact FMap.sorted_set _ _ _ (hs.2 _ ((FMap.get_of_mem _ hs.1 w ns).mp hw))
  · exact hs.2 e h

/-- The names of a wave after register `p` has been replaced by `q`; those of register 0 are not listed. -/
def renamed (p q : Nat) (ns : FMap Nat) : FMap Nat :=
  (ns.map (fun e => if e.2 = p then (e.1, q) else e)).filter (fun e => e.2 != 0)

theorem renamed_eq (p q : Nat) (ns : FMap Nat) :
    renamed p q ns = (ns.map (fun e => (e.1, if e.2 = p then q else e.2))).filter (fun e => e.2 != 0) := by
  unfold renamed
  congr 2
  funext e
  split <;> rfl

theorem getD_renamed {p q : Nat} {ns : FMap Nat} (hs : FMap.sorted ns = true) (hp : p ≠ 0) (n : Nat) :
    FMap.getD (renamed p q ns) n 0 = if FMap.getD ns n 0 = p then q else FMap.getD ns n 0 := by
  have hm : FMap.sorted (ns.map (fun e => (e.1, if e.2 = p then q else e.2))) = true :=
    (FMap.sorted_map (fun _ r => if r = p then q else r) ns).trans hs
  simp only [FMap.getD_eq, renamed_eq, FMap.get_filter _ hm, FMap.get_map (fun _ r => if r = p then q else r)]
  cases FMap.get ns n with
  | none => simp [hp.symm]
  | some r =>
    by_cases hr : r = p
    · by_cases hq : q = 0 <;> simp [hr, hq, Option.filter]
    · by_cases h0 : r = 0 <;> simp [hr, h0, Option.filter, hp.symm]

/-- The names of a core after register `p` of slice `k` has been replaced by `q`. -/
def renameTab (k p q : Nat) (m : FMap (FMap Nat)) : FMap (FMap Nat) :=
  m.map (fun e => (e.1, if sliceOf e.1 = k then renamed p q e.2 else e.2))

theorem regIn_renameTab {m : FMap (FMap Nat)} {p : Nat} (hs : NamesSorted m) (hp : p ≠ 0) (k q w n : Nat) :
    regIn (renameTab k p q m) w n = if sliceOf w = k ∧ regIn m w n = p then q else regIn m w n := by
  have hg : FMap.get (renameTab k p q m) w = (FMap.get m w).map (fun ns => if sliceOf w = k then renamed p q ns else ns) :=
    FMap.get_map (fun w (ns : FMap Nat) => if sliceOf w = k then renamed p q ns else ns) m w
  rw [regIn, regIn, FMap.getD_eq (renameTab k p q m), hg, FMap.getD_eq m]
  cases hw : FMap.get m w with
  | none => simp [FMap.getD, FMap.get, hp.symm]
  | some ns =>
    have hns := hs.2 _ ((FMap.get_of_mem m hs.1 w ns).mp hw)
    by_cases hk : sliceOf w = k
    · simp [hk, getD_renamed hns hp]
    · simp [hk]

theorem namesSorted_renameTab {m : FMap (FMap Nat)} (hs : NamesSorted m) (k p q : Nat) : NamesSorted (renameTab k p q m) := by
  refine ⟨(FMap.sorted_map (fun w (ns : FMap Nat) => if sliceOf w = k then renamed p q ns else ns) m).trans hs.1, fun e he => ?_⟩
  obtain ⟨a, ha, rfl⟩ := List.mem_map.mp he
  have hns := hs.2 a ha
  dsimp only
  split
  · rw [renamed_eq]
    exact FMap.sorted_filter _ _ ((FMap.sorted_map (fun _ r => if r = p then q else r) a.2).trans hns)
  · exact hns

/-! ### The registers of a file -/

theorem pregOf_set {p : Nat} (hp : p ≠ 0) (ph : FMap PReg) (r : PReg) (q : Nat) :
    pregOf (FMap.set ph p r) q = if q = p then r else pregOf ph q := by
  unfold pregOf
  rw [FMap.getD_set]
  by_cases hq : q = p
  · simp [hq, hp]
  · simp [hq]

theorem pregOf_erase {ph : FMap PReg} (hs : FMap.sorted ph = true) {p q : Nat} (hq : q ≠ p) :
    pregOf (FMap.erase ph p) q = pregOf ph q := by
  unfold pregOf
  simp only [FMap.getD_eq, FMap.erase_eq_filter hs, FMap.get_filter _ hs, bne_iff_ne.mpr hq]
  cases FMap.get ph q <;> rfl

theorem pregOf_filter {ph : FMap PReg} (hs : FMap.sorted ph = true) (f : Nat → Bool) {q : Nat} (hq : q ≠ 0 → f q = true) :
    pregOf (ph.filter (fun e => f e.1)) q = pregOf ph q := by
  unfold pregOf
  split
  · rfl
  · next h0 =>
    simp only [FMap.getD_eq, FMap.get_filter _ hs, hq h0]
    cases FMap.get ph q <;> rfl

/-! ### Operations on the registers of a core -/

/-- The step changes one core, and of the rest of the machine the record of the clock's writes. -/
structure OnlyCore (c : Nat) (s t : State) : Prop where
  others : ∀ d, d ≠ c → t.core d = s.core d
  rest : t = { s with cores := t.cores, offers := t.offers, wrote := t.wrote }

theorem OnlyCore.trans {c : Nat} {s t u : State} (h : OnlyCore c s t) (g : OnlyCore c t u) : OnlyCore c s u := by
  refine ⟨fun d hd => (g.others d hd).trans (h.others d hd), ?_⟩
  rw [g.rest, h.rest]

/-- The step gives its core the names `m` and the register files `ph`. -/
structure RegsTo (c : Nat) (m : FMap (FMap Nat)) (ph : Nat → FMap PReg) (s t : State) : Prop extends OnlyCore c s t where
  names : t.nameTab c = m
  files : t.files c = ph

/-- The step leaves the names and the register files of its core. -/
abbrev KeepsRegs (c : Nat) (s t : State) : Prop := RegsTo c (s.nameTab c) (s.files c) s t

theorem KeepsRegs.refl (c : Nat) (s : State) : KeepsRegs c s s := ⟨⟨fun _ _ => rfl, rfl⟩, rfl, rfl⟩

theorem RegsTo.keeps {c : Nat} {m : FMap (FMap Nat)} {ph : Nat → FMap PReg} {s t u : State} (h : RegsTo c m ph s t)
    (g : KeepsRegs c t u) : RegsTo c m ph s u :=
  ⟨h.toOnlyCore.trans g.toOnlyCore, g.names.trans h.names, g.files.trans h.files⟩

theorem KeepsRegs.foldl {α : Type} {c : Nat} {f : State → α → State} (h : ∀ s a, KeepsRegs c s (f s a)) (l : List α) (s : State) :
    KeepsRegs c s (l.foldl f s) := by
  induction l generalizing s with
  | nil => exact KeepsRegs.refl c s
  | cons a l ih => exact (h s a).keeps (ih _)

theorem RegsTo.vecOf {c : Nat} {m : FMap (FMap Nat)} {ph : Nat → FMap PReg} {s t : State} (h : RegsTo c m ph s t) (w n : Nat) :
    t.vecOf c w n = pregOf (ph (sliceOf w)) (regIn m w n) := by
  rw [vecOf_eq, h.names, h.files]

theorem onlyCore_modCore (s : State) (c : Nat) (f : Core → Core) : OnlyCore c s (s.modCore c f) :=
  ⟨fun d hd => (core_modCore s c d f).trans (if_neg hd), rfl⟩

/-- A change of the core's record gives it the names of its waves and the files of its slices. -/
theorem regsTo_modCore (s : State) (c : Nat) (f : Core → Core) :
    RegsTo c ((f (s.core c)).waves.map (fun e => (e.1, e.2.names))) (fun k => (FMap.getD (f (s.core c)).slices k {}).phys) s
      (s.modCore c f) := by
  refine ⟨onlyCore_modCore s c f, ?_, ?_⟩
  · rw [State.nameTab, core_modCore, if_pos rfl]
  · funext k
    rw [State.files, State.slice, core_modCore, if_pos rfl]

theorem keepsRegs_modCore (s : State) (c : Nat) (f : Core → Core) (hw : ∀ k, (f k).waves = k.waves := by intro; rfl)
    (hs : ∀ k, (f k).slices = k.slices := by intro; rfl) : KeepsRegs c s (s.modCore c f) := by
  have h := regsTo_modCore s c f
  rwa [hw, hs] at h

/-- A change of a slice gives it the file that the change gives its register file. -/
theorem RegsTo.modSlice {c : Nat} {m : FMap (FMap Nat)} {ph : Nat → FMap PReg} {s t : State} (h : RegsTo c m ph s t) (k : Nat)
    (f : Slice → Slice) (g : FMap PReg → FMap PReg) (hf : ∀ q, (f q).phys = g q.phys := by intro; rfl) :
    RegsTo c m (Function.update ph k (g (ph k))) s (t.modSlice c k f) := by
  obtain ⟨ho, rfl, rfl⟩ := h
  have hc := regsTo_modCore t c (fun q => { q with slices := FMap.set q.slices k (f (t.slice c k)) })
  refine ⟨ho.trans hc.toOnlyCore, hc.names, hc.files.trans ?_⟩
  funext j
  rw [FMap.getD_set, Function.update_apply]
  split
  · exact hf _
  · rfl

theorem keepsRegs_modSlice (s : State) (c k : Nat) (f : Slice → Slice) (hf : ∀ q, (f q).phys = q.phys := by intro; rfl) :
    KeepsRegs c s (s.modSlice c k f) := by
  have h := (KeepsRegs.refl c s).modSlice k f id hf
  rwa [id_eq, Function.update_eq_self] at h

/-- A change of a wave that exists gives it the names that the change gives its names. -/
theorem RegsTo.modWave {c : Nat} {m : FMap (FMap Nat)} {ph : Nat → FMap PReg} {s t : State} (h : RegsTo c m ph s t) {w : Nat}
    {ns : FMap Nat} (hw : FMap.get m w = some ns) (f : Wave → Wave) (g : FMap Nat → FMap Nat)
    (hf : ∀ y, (f y).names = g y.names := by intro; rfl) : RegsTo c (FMap.set m w (g ns)) ph s (t.modWave c w f) := by
  obtain ⟨ho, rfl, rfl⟩ := h
  rw [get_nameTab] at hw
  obtain ⟨y, hy, rfl⟩ := Option.map_eq_some_iff.mp hw
  have hc := regsTo_modCore t c (fun q => { q with waves := FMap.set q.waves w (f y) })
  simp only [State.modWave, hy]
  exact ⟨ho.trans hc.toOnlyCore, (hc.names.trans (FMap.map_set Wave.names _ w (f y))).trans (by rw [hf]; rfl), hc.files⟩

theorem keepsRegs_modWave (s : State) (c w : Nat) (f : Wave → Wave) (hf : ∀ y, (f y).names = y.names := by intro; rfl) :
    KeepsRegs c s (s.modWave c w f) := by
  cases hy : s.wave? c w with
  | none =>
    simp only [State.modWave, hy]
    exact KeepsRegs.refl c s
  | some y =>
    have hw : FMap.get (s.nameTab c) w = some y.names := by rw [get_nameTab, hy]; rfl
    have h := (KeepsRegs.refl c s).modWave hw f id hf
    rwa [id_eq, FMap.set_of_get hw] at h

theorem keepsRegs_offers (s : State) (c : Nat) (l : List (Nat × Nat × Bool)) : KeepsRegs c s { s with offers := l } :=
  ⟨⟨fun _ _ => rfl, rfl⟩, rfl, rfl⟩

theorem keepsRegs_wrote (s : State) (c : Nat) (l : List (Nat × Nat × Nat)) : KeepsRegs c s { s with wrote := l } :=
  ⟨⟨fun _ _ => rfl, rfl⟩, rfl, rfl⟩

theorem keepsRegs_fillSmov (s : State) (c k p : Nat) (v : Nat → Nat → VReg) : KeepsRegs c s (s.fillSmov c k p v) := by
  unfold State.fillSmov
  refine ((keepsRegs_modCore _ c _).keeps (KeepsRegs.foldl (fun u o => ?_) _ _)).keeps (keepsRegs_modCore _ c _)
  split
  · exact keepsRegs_modWave _ c _ _
  · exact KeepsRegs.refl c u

theorem keepsRegs_countWrite (s : State) (c k p : Nat) (hit : Bool) : KeepsRegs c s (s.countWrite c k p hit) := by
  unfold State.countWrite
  split
  · refine RegsTo.keeps (t := if s.snap.isNone then s else _) ?_ (keepsRegs_modWave _ c _ _ (fun x => by split <;> rfl))
    split
    · exact KeepsRegs.refl c s
    · exact keepsRegs_offers s c _
  · exact KeepsRegs.refl c s

theorem keepsRegs_placeReg (s : State) (c k p b : Nat) : KeepsRegs c s (s.placeReg c k p b) := by
  unfold State.placeReg
  dsimp only
  split
  · exact keepsRegs_modSlice s c k _
  · exact keepsRegs_countWrite s c k p false

/-- Sweeping a slice drops registers that nothing names and nothing in flight holds. -/
theorem regsTo_sweep (s : State) (c k : Nat) : RegsTo c (s.nameTab c) (Function.update (s.files c) k
    ((s.files c k).filter (fun e => (s.named c k).contains e.1 || (s.held c k).contains e.1))) s (s.sweep c k) := by
  unfold State.sweep State.dropKeys
  dsimp only
  refine RegsTo.keeps (t := s.modSlice c k _) ?_ (keepsRegs_modCore _ c _)
  exact (KeepsRegs.refl c s).modSlice k _ (List.filter (fun e => (s.named c k).contains e.1 || (s.held c k).contains e.1))

theorem regsTo_renameReg (s : State) (c k p q : Nat) : RegsTo c (renameTab k p q (s.nameTab c))
    (Function.update (s.files c) k (FMap.erase (s.files c k) p)) s (s.renameReg c k p q) := by
  unfold State.renameReg
  refine RegsTo.modSlice (t := s.modCore c _) (ph := s.files c) ⟨onlyCore_modCore s c _, ?_, ?_⟩ k _ (FMap.erase · p)
  · rw [State.nameTab, core_modCore, if_pos rfl, State.nameTab, renameTab, List.map_map, List.map_map]
    refine List.map_congr_left fun e _ => ?_
    simp only [Function.comp_apply]
    split <;> rfl
  · funext j
    rw [State.files, State.slice, core_modCore, if_pos rfl]
    rfl

/-- A fresh register becomes the destination of a name of a wave: one other than 0 that nothing named. -/
theorem regsTo_pendVec {s t : State} {c w n p : Nat} {y : Wave} (hy : s.wave? c w = some y) (h : s.pendVec c w n = some (p, t)) :
    p ≠ 0 ∧ p ∉ s.named c (sliceOf w) ∧ ∃ r, RegsTo c (FMap.set (s.nameTab c) w (FMap.set y.names n p))
      (Function.update (s.files c) (sliceOf w) (FMap.set (s.files c (sliceOf w)) p r)) s t := by
  unfold State.pendVec at h
  split at h
  · cases h
  · next p' hfree =>
    obtain ⟨rfl, rfl⟩ := Prod.mk.inj (Option.some.inj h)
    have hf := List.find?_some hfree
    simp only [Bool.and_eq_true, bne_iff_ne, Bool.not_eq_true', List.contains_eq_mem, decide_eq_false_iff_not] at hf
    obtain ⟨⟨⟨h0, -⟩, hnm⟩, -⟩ := hf
    refine ⟨h0, hnm, { data := vzero, pending := true, ctx := s.ctxOf (s.wave c w) }, ?_⟩
    have hw : FMap.get (s.nameTab c) w = some y.names := by rw [get_nameTab, hy]; rfl
    refine RegsTo.modWave (RegsTo.keeps (t := s.modSlice c (sliceOf w) _) ?_ (keepsRegs_wrote _ c _)) hw _ (FMap.set · n p')
      (fun x => by rw [Wave.setReg, if_neg h0])
    exact (KeepsRegs.refl c s).modSlice _ _ (FMap.set · p' _)

end Machine
end Sys2Proof
end

section
/-! PROOF. What a write leaves in its destination and what it leaves alone (R95, R265, R267, R268). -/
namespace Sys2Proof.Machine

/-! ### Settling a value into a register (R267, R268) -/

/-- The register is FULL with a value, and not poisoned. -/
def PReg.Full (r : PReg) (v : VReg) : Prop := r.data = v ∧ r.pending = false ∧ r.poison = false

theorem full_written (v : VReg) (ctx : Nat) : (PReg.written v ctx).Full v := ⟨rfl, rfl, rfl⟩

theorem RegsTo.renameReg {c : Nat} {m : FMap (FMap Nat)} {ph : Nat → FMap PReg} {s t : State} (h : RegsTo c m ph s t) (k p q : Nat) :
    RegsTo c (renameTab k p q m) (Function.update ph k (FMap.erase (ph k) p)) s (t.renameReg c k p q) := by
  obtain ⟨ho, rfl, rfl⟩ := h
  have hr := regsTo_renameReg t c k p q
  exact ⟨ho.trans hr.toOnlyCore, hr.names, hr.files⟩

/-- All that settling a value into register `p` does to the registers: the names of `p` go to register 0 for the all-zero value, `p`
takes the value, or its names go to a register that holds it already. -/
theorem settle_cases (s : State) (c k p : Nat) (v : VReg) :
    (v = vzero ∧
      RegsTo c (renameTab k p 0 (s.nameTab c)) (Function.update (s.files c) k (FMap.erase (s.files c k) p)) s (s.settle c k p v)) ∨
    ∃ r : PReg, r.Full v ∧
      (RegsTo c (s.nameTab c) (Function.update (s.files c) k (FMap.set (s.files c k) p r)) s (s.settle c k p v) ∨
      ∃ q, q ≠ p ∧ (pregOf (FMap.set (s.files c k) p r) q).Full v ∧
        RegsTo c (renameTab k p q (s.nameTab c)) (Function.update (s.files c) k (FMap.erase (FMap.set (s.files c k) p r) p)) s
          (s.settle c k p v)) := by
  have hfill := keepsRegs_fillSmov s c k p (fun _ _ => v)
  unfold State.settle
  dsimp only
  split
  · next hv => exact .inl ⟨hv, hfill.renameReg k p 0⟩
  · refine .inr ⟨_, full_written v (pregOf ((s.fillSmov c k p (fun _ _ => v)).slice c k).phys p).ctx, ?_⟩
    have hset := hfill.modSlice k (fun x => { x with
      phys := FMap.set x.phys p (.written v (pregOf ((s.fillSmov c k p (fun _ _ => v)).slice c k).phys p).ctx) }) (FMap.set · p _)
    split
    · exact .inl hset
    · split
      · next e hfind =>
        split
        · have he := List.find?_some hfind
          simp only [Bool.and_eq_true, bne_iff_ne, beq_iff_eq, Bool.not_eq_true'] at he
          obtain ⟨⟨⟨⟨⟨hq, -⟩, -⟩, hd⟩, hpe⟩, hpo⟩ := he
          have hfile := (congrFun hset.files k).trans (Function.update_self ..)
          refine .inr ⟨e.2, hq, ⟨?_, ?_, ?_⟩, ?_⟩
          · rw [← hfile]; exact hd
          · rw [← hfile]; exact hpe
          · rw [← hfile]; exact hpo
          · have hren := (hset.keeps (keepsRegs_countWrite _ c k p true)).renameReg k p e.2
            rwa [Function.update_self, Function.update_idem] at hren
        · exact .inl ((hset.keeps (keepsRegs_modSlice _ c k _)).keeps (keepsRegs_placeReg _ c k p _))
      · exact .inl (hset.keeps (keepsRegs_placeReg _ c k p _))

/-! ### Writing a name (R95, R265) -/

/-- A step writes a value to a name of a core and leaves every other name of it; names and registers stay listed in order. -/
structure Writes (c w n : Nat) (v : VReg) (s t : State) : Prop extends OnlyCore c s t where
  sorted : NamesSorted (t.nameTab c)
  file : FMap.sorted (t.files c (sliceOf w)) = true
  value : (t.vecOf c w n).Full v
  frame : ∀ w' n', ¬ (w' = w ∧ n' = n) → t.vecOf c w' n' = s.vecOf c w' n'

section
variable {c w n p : Nat} {v : VReg} {s t : State}

/-- Changing the registers of a slice at register `p` alone, which one name maps, writes that name. -/
theorem RegsTo.writes {m : FMap (FMap Nat)} {ph : FMap PReg} (h : RegsTo c m (Function.update (s.files c) (sliceOf w) ph) s t)
    (hu : ∀ w' n', sliceOf w' = sliceOf w → regIn (s.nameTab c) w' n' = p → w' = w ∧ n' = n)
    (hm : NamesSorted m) (hph : FMap.sorted ph = true) (hv : (pregOf ph (regIn m w n)).Full v)
    (hname : ∀ w' n', ¬ (w' = w ∧ n' = n) → regIn m w' n' = regIn (s.nameTab c) w' n')
    (hreg : ∀ q, q ≠ p → pregOf ph q = pregOf (s.files c (sliceOf w)) q) : Writes c w n v s t := by
  refine ⟨h.toOnlyCore, h.names ▸ hm, ?_, ?_, fun w' n' hne => ?_⟩
  · rw [h.files, Function.update_self]
    exact hph
  · rw [h.vecOf, Function.update_self]
    exact hv
  · rw [h.vecOf, vecOf_eq, hname w' n' hne]
    by_cases hk : sliceOf w' = sliceOf w
    · rw [hk, Function.update_self]
      exact hreg _ fun hp => hne (hu w' n' hk hp)
    · rw [Function.update_of_ne hk]

/-- Settling a value into the register of one name writes the name. -/
theorem settle_writes (hs : NamesSorted (s.nameTab c)) (hf : FMap.sorted (s.files c (sliceOf w)) = true) (hp : p ≠ 0)
    (hr : regIn (s.nameTab c) w n = p)
    (hu : ∀ w' n', sliceOf w' = sliceOf w → regIn (s.nameTab c) w' n' = p → w' = w ∧ n' = n) :
    Writes c w n v s (s.settle c (sliceOf w) p v) := by
  have hren : ∀ q, regIn (renameTab (sliceOf w) p q (s.nameTab c)) w n = q := fun q => by
    rw [regIn_renameTab hs hp, if_pos ⟨rfl, hr⟩]
  have hothers : ∀ q w' n', ¬ (w' = w ∧ n' = n) →
      regIn (renameTab (sliceOf w) p q (s.nameTab c)) w' n' = regIn (s.nameTab c) w' n' := fun q w' n' hne => by
      rw [regIn_renameTab hs hp, if_neg fun h => hne (hu w' n' h.1 h.2)]
  rcases settle_cases s c (sliceOf w) p v with ⟨rfl, h⟩ | ⟨r, hr', h | ⟨q, hq, hv, h⟩⟩
  · refine h.writes hu (namesSorted_renameTab hs _ p 0) ?_ ?_ (hothers 0) (fun q hq => pregOf_erase hf hq)
    · rw [FMap.erase_eq_filter hf]
      exact FMap.sorted_filter _ _ hf
    · rw [hren]
      exact full_written vzero 0
  · refine h.writes hu hs (FMap.sorted_set _ _ _ hf) ?_ (fun _ _ _ => rfl) (fun q hq => by rw [pregOf_set hp, if_neg hq])
    rw [hr, pregOf_set hp, if_pos rfl]
    exact hr'
  · have hset := FMap.sorted_set (s.files c (sliceOf w)) p r hf
    refine h.writes hu (namesSorted_renameTab hs _ p q) ?_ ?_ (hothers q)
      (fun q hq => by rw [pregOf_erase hset hq, pregOf_set hp, if_neg hq])
    · rw [FMap.erase_eq_filter hset]
      exact FMap.sorted_filter _ _ hset
    · rw [hren, pregOf_erase hset hq]
      exact hv

/-- Freeing registers that nothing names leaves what the names read. -/
theorem vecOf_sweep (hs : NamesSorted (s.nameTab c)) {k : Nat} (hf : FMap.sorted (s.files c k) = true) (w n : Nat) :
    (s.sweep c k).vecOf c w n = s.vecOf c w n := by
  rw [(regsTo_sweep s c k).vecOf, vecOf_eq]
  by_cases hk : sliceOf w = k
  · subst hk
    rw [Function.update_self]
    exact pregOf_filter hf (fun p => (s.named c (sliceOf w)).contains p || (s.held c (sliceOf w)).contains p) fun h0 => by
      simp [mem_named hs rfl h0]
  · rw [Function.update_of_ne hk]

theorem sorted_sweep {k : Nat} (hf : FMap.sorted (s.files c k) = true) : FMap.sorted ((s.sweep c k).files c k) = true := by
  rw [(regsTo_sweep s c k).files, Function.update_self]
  exact FMap.sorted_filter _ _ hf

/-- What a write to a name of a wave comes to. -/
theorem writeVec_writes {y : Wave} (hy : s.wave? c w = some y) (hs : NamesSorted (s.nameTab c))
    (hf : FMap.sorted (s.files c (sliceOf w)) = true) (h : s.writeVec c w n v = some t) : Writes c w n v s t := by
  unfold State.writeVec at h
  split at h
  · cases h
  next p u hpend =>
  obtain rfl := Option.some.inj h
  obtain ⟨hp, hnew, r, hu⟩ := regsTo_pendVec hy hpend
  have hw : FMap.get (s.nameTab c) w = some y.names := by rw [get_nameTab, hy]; rfl
  have hreg : ∀ w' n', sliceOf w' = sliceOf w → regIn (s.nameTab c) w' n' ≠ p := fun w' n' hk hr =>
    hnew (hk ▸ mem_named hs hr hp)
  have hus : NamesSorted (u.nameTab c) := hu.names ▸ namesSorted_set hs hw n p
  have huf : FMap.sorted (u.files c (sliceOf w)) = true := by
    rw [hu.files, Function.update_self]
    exact FMap.sorted_set _ _ _ hf
  have hsn : (u.sweep c (sliceOf w)).nameTab c = FMap.set (s.nameTab c) w (FMap.set y.names n p) :=
    (regsTo_sweep u c (sliceOf w)).names.trans hu.names
  have hset := settle_writes (n := n) (v := v) (hsn ▸ hu.names ▸ hus) (sorted_sweep huf) hp
    (by rw [hsn, regIn_set hw, if_pos ⟨rfl, rfl⟩])
    (fun w' n' hk hr => by
      rw [hsn, regIn_set hw] at hr
      by_contra hne
      rw [if_neg hne] at hr
      exact hreg w' n' hk hr)
  refine ⟨((hu.toOnlyCore.trans (regsTo_sweep u c _).toOnlyCore).trans hset.toOnlyCore).trans (regsTo_sweep _ c _).toOnlyCore,
    by rw [(regsTo_sweep _ c _).names]; exact hset.sorted, sorted_sweep hset.file, ?_, fun w' n' hne => ?_⟩
  · rw [vecOf_sweep hset.sorted hset.file]
    exact hset.value
  · rw [vecOf_sweep hset.sorted hset.file, hset.frame w' n' hne, vecOf_sweep hus huf, hu.vecOf, vecOf_eq, regIn_set hw, if_neg hne]
    by_cases hk : sliceOf w' = sliceOf w
    · rw [hk, Function.update_self, pregOf_set hp, if_neg (hreg w' n' hk)]
    · rw [Function.update_of_ne hk]

end

/-! ### Writing lanes, scalars and predicates (R95) -/

theorem vlane_vbuild (f : Nat → Word) {l : Nat} (h : l < 32) : vlane (vbuild f) l = f l := by
  simp [vlane, vbuild, nth, lanes32, h]

theorem vlane_vmerge (m : Mask) (a b : VReg) {l : Nat} (h : l < 32) :
    vlane (vmerge m a b) l = if m.getLsbD l then vlane a l else vlane b l := vlane_vbuild _ h

theorem writeVec_eq_map (s : State) (c w n : Nat) (v : VReg) : s.writeVec c w n v =
    (s.pendVec c w n).map (fun r => ((r.2.sweep c (sliceOf w)).settle c (sliceOf w) r.1 v).sweep c (sliceOf w)) := by
  unfold State.writeVec
  cases s.pendVec c w n with
  | none => rfl
  | some r => rfl

/-- Through the recursor that `pendVecs` is compiled to: Lean fails to make its equation lemmas. -/
theorem pendVecs_singleton (s : State) (c w n : Nat) : s.pendVecs c w [n] = (s.pendVec c w n).map (fun r => ([r.1], r.2)) := by
  delta State.pendVecs State.pendVecs._f List.brecOn List.brecOn.go
  dsimp only
  cases s.pendVec c w n with
  | none => rfl
  | some r => rfl

/-- Writing one name among names is writing it. -/
theorem writeVecs_singleton (s : State) (c w n : Nat) (v : VReg) : s.writeVecs c w [(n, v)] = s.writeVec c w n v := by
  have hp := pendVecs_singleton s c w n
  rw [writeVec_eq_map]
  unfold State.writeVecs
  simp only [List.map_cons, List.map_nil, hp, Option.map_map]
  rfl
theorem keepsRegs_unoffer (s : State) (x : Iss) (ns : List Nat) : KeepsRegs x.c s (s.unoffer x ns) := by
  unfold State.unoffer
  exact (keepsRegs_offers s x.c _).keeps (keepsRegs_modWave _ x.c x.w _)

/-- The prior value that an incomplete bundle keeps of its name. -/
theorem prior_singleton {s : State} {x : Iss} {act : Mask} {n : Nat} {ps : List VReg} (h : s.prior x act [n] = .ok ps) :
    ps = [(s.vecOf x.c x.w n).data] := by
  simp only [State.prior] at h
  split at h
  · cases h
  · split at h
    · cases h
    · cases h
      rfl

/-- A write to one name gives it the lanes that are written and of the others, when there are any, its own. -/
theorem putVec_singleton {s t : State} {x : Iss} {act : Mask} {n : Nat} {v : VReg} (h : s.putVec x act [n] [v] = .ok t) :
    ∃ u old, KeepsRegs x.c s u ∧ u.writeVec x.c x.w n (vmerge act v old) = some t ∧
      (act = 0xFFFFFFFF ∨ old = (s.vecOf x.c x.w n).data) := by
  unfold State.putVec at h
  dsimp only at h
  split at h
  · cases h
  · next ps hps =>
    split at h
    · next u hu =>
      cases h
      refine ⟨if s.twice x [n] then s.unoffer x [n] else s, nth ps 0 vzero, ?_, (writeVecs_singleton ..).symm.trans hu, ?_⟩
      · split
        · exact keepsRegs_unoffer s x [n]
        · exact KeepsRegs.refl x.c s
      · split at hps
        · next hfull => exact .inl hfull
        · rw [prior_singleton hps]
          exact .inr rfl
    · cases h

theorem nth_setNth {α : Type} (l : List α) (i j : Nat) (v d : α) (h : i < l.length) :
    nth (setNth l i v) j d = if j = i then v else nth l j d := by
  simp only [nth, setNth, List.getD_eq_getElem?_getD, List.getElem?_set]
  by_cases hj : i = j
  · subst hj; simp [h]
  · simp [hj, Ne.symm hj]

/-- Scalars after writes to `k` of them in a row. -/
theorem nth_foldl_setNth (vs : List Word) (n k : Nat) (r : List Word) (h : n + k ≤ r.length) (m : Nat) :
    nth ((List.range k).foldl (fun r i => setNth r (n + i) (nth vs i 0)) r) m 0 =
      if n ≤ m ∧ m < n + k then nth vs (m - n) 0 else nth r m 0 := by
  induction k with
  | zero => rw [if_neg (by omega)]; rfl
  | succ k ih =>
    have hlen : ∀ (l : List Nat) (r : List Word), (l.foldl (fun r i => setNth r (n + i) (nth vs i 0)) r).length = r.length := by
      intro l
      induction l with
      | nil => exact fun _ => rfl
      | cons i l ih => exact fun r => (ih _).trans List.length_set
    rw [List.range_succ, List.foldl_append, List.foldl_cons, List.foldl_nil, nth_setNth _ _ _ _ _ (by rw [hlen]; omega), ih (by omega)]
    by_cases hm : m = n + k
    · subst hm
      rw [if_pos rfl, if_pos (by omega), Nat.add_sub_cancel_left]
    · rw [if_neg hm]
      congr 1
      exact propext (by omega)

/-- Settles O59: the Dovetail file's write, the lanes of a write, scalars and predicates. -/
theorem destinationWrites : Obligations.DestinationWrites := by
  refine ⟨?vector, ?lanes, ?scalars, ?predicates⟩
  case vector =>
    intro s t c w n v y hy hw hn hf h
    have hwr := writeVec_writes hy (namesSorted_nameTab hw hn) hf h
    exact ⟨hwr.value, fun w' n' hne => hwr.frame w' n' (not_and_or.mpr hne), hwr.others, hwr.rest⟩
  case lanes =>
    intro s t x act n v y hy hw hn hf h l hl
    obtain ⟨u, old, hk, hwrite, hold⟩ := putVec_singleton h
    have hu : ∃ z, u.wave? x.c x.w = some z := by
      have hz := congrArg (FMap.get · x.w) hk.names
      simp only [get_nameTab, hy, Option.map_some] at hz
      exact (Option.map_eq_some_iff.mp hz).imp fun _ => And.left
    obtain ⟨z, hz⟩ := hu
    have hwr := writeVec_writes hz (hk.names ▸ namesSorted_nameTab hw hn) (hk.files ▸ hf) hwrite
    rw [hwr.value.1, vlane_vmerge _ _ _ hl]
    rcases hold with rfl | rfl
    · have hall : (0xFFFFFFFF : Mask).getLsbD l = true := by
        rw [show (0xFFFFFFFF : Mask) = BitVec.allOnes 32 from rfl, BitVec.getLsbD_allOnes]
        exact decide_eq_true hl
      rw [if_pos hall, if_pos hall]
    · rfl
  case scalars =>
    intro s t x act n vs y hy hn hlen h
    have ht : t = s.setWave x.c x.w (y.setScalars n vs) := by
      unfold State.putScalar at h
      rw [if_pos hn] at h
      split at h
      · cases h
      · exact (Except.ok.inj h).symm.trans (modNow_of_wave s x y _ hy)
    subst ht
    refine ⟨⟨_, rfl⟩, fun m => ?_⟩
    rw [State.now, wave_setWave, if_pos ⟨rfl, rfl⟩]
    exact nth_foldl_setNth vs n vs.length y.sreg hlen m
  case predicates =>
    intro s t x act v n y hy hn h
    have ht : t = s.setWave x.c x.w (y.setPred n act v) := by
      unfold State.putPred at h
      split at h
      · cases h
      · exact (Except.ok.inj h).symm.trans (modNow_of_wave s x y _ hy)
    subst ht
    have hpreg : ∀ m, nth (((s.setWave x.c x.w (y.setPred n act v)).now x).preg) m 0 =
        if m = n then (nth y.preg n 0 &&& ~~~act) ||| (v &&& act) else nth y.preg m 0 := fun m => by
      rw [State.now, wave_setWave, if_pos ⟨rfl, rfl⟩]
      exact nth_setNth _ _ _ _ _ hn
    refine ⟨⟨_, rfl⟩, fun m hm => (hpreg m).trans (if_neg hm), fun l hl => ?_⟩
    rw [hpreg, if_pos rfl]
    cases ha : act.getLsbD l <;> simp [-BitVec.getLsbD_eq_getElem, ha, hl]

end Sys2Proof.Machine
end

section
/-! PROOF. The events of the matrix engine's queue complete (R138, R154-R156, R451). -/
namespace Sys2Proof.Machine

/-! ### The engine starts its oldest entry (R138, R154, R451) -/

section
variable {s : State} {c : Nat} {e : EngEntry}

section
variable (hr : (s.core c).eng.any (·.running) = false) (hh : (s.core c).engHead = some e)
include hr hh

/-- An entry that reads neither the latent expander nor a tile at its start runs as it stands in the queue. -/
theorem engineStart_plain (hk : e.kind = .mma ∨ e.kind = .mmas ∨ e.kind = .macw ∨ e.kind = .zflg) :
    exec (.engineStart c) s = .next (s.startEntry c e) := by
  show execEngineStart c s = _
  rcases hk with hk | hk | hk | hk <;> simp only [execEngineStart, hr, hh, hk, Bool.false_eq_true, if_false]

/-- `MACZ` clears its tile and leaves the queue at once. -/
theorem engineStart_macz (hk : e.kind = .macz) : exec (.engineStart c) s = .next
    ((s.modTile c e.tile (fun t => { t with elems := List.replicate 256 {}, poison := [] })).dropEntry c e.id) := by
  show execEngineStart c s = _
  simp only [execEngineStart, hr, hh, hk, Bool.false_eq_true, if_false]

/-- `MACR` reads its tile when it starts; what it finds there decides between its run and a late trap. -/
theorem engineStart_macr (hk : e.kind = .macr) : exec (.engineStart c) s = .next
    (if (FMap.getD (s.core c).tiles e.tile {}).poison = [] then (s.readTile c e).startEntry c e else s.tileFault c e) := by
  show execEngineStart c s = _
  simp only [execEngineStart, hr, hh, hk, Bool.false_eq_true, if_false]
  cases (FMap.getD (s.core c).tiles e.tile {}).poison with
  | nil => rfl
  | cons p ps => rfl

end

/-! ### A started entry takes its effect (R154-R156) -/

/-- Every kind but `ZFLG` and `MACR` writes its result to its tile and leaves the queue with its flags. -/
theorem entryEffect_tile (s : State) (c : Nat) (hz : e.kind ≠ .zflg) (hm : e.kind ≠ .macr) :
    s.entryEffect c e = ((s.modTile c e.tile (fun t =>
      { t with elems := (e.result (s.core c)).1, poison := if e.kind = .macw then [] else t.poison })).dropEntry c e.id).queuedFlags
        c e.wave e.pc e.clk e.bundle allLanes (fun _ => (e.result (s.core c)).2) true e.hold := by
  unfold State.entryEffect
  split
  · contradiction
  · contradiction
  · rfl

/-- The last pass of the running entry: it stops running and takes its effect. -/
theorem engineEffect_last (hf : (s.core c).eng.find? (·.running) = some e) (hp : e.places = 0) :
    exec (.engineEffect c) s = .next ((s.modEntry c e.id (fun y => { y with running := false })).entryEffect c e) := by
  show execEngineEffect c s = _
  simp only [execEngineEffect, hf, hp, if_true]

/-! ### A readout's registers fill (R154, R155, R275) -/

/-- The machine after a readout has left the queue and handed its flags to the reuse entries of its registers. -/
def State.withoutMacr (s : State) (c : Nat) (e : EngEntry) : State :=
  (s.dropEntry c e.id).reuseFlags c (sliceOf e.wave) e.dest.regs e.flags

section
variable (hf : (s.core c).eng.find? (fun y => y.id == e.id && y.kind == .macr && y.places == 0 && !y.running) = some e)
include hf

/-- A finished readout that has its registers writes them with its flags. -/
theorem macrResultWrite_vec {u : State} (hu : (s.withoutMacr c e).settleResults c (sliceOf e.wave) allLanes e.owns
      (resultsOf e.dest.regs e.vals e.prior) = some u) :
    exec (.macrResultWrite c e.id) s = .next
      (((u.sweep c (sliceOf e.wave)).shareFlags c e.sharers allLanes (fun _ => e.flags)).queuedFlags
        c e.wave e.pc e.clk e.bundle allLanes (fun _ => e.flags) true e.hold) := by
  rw [State.withoutMacr] at hu
  show execMacrResultWrite c e.id s = _
  simp only [execMacrResultWrite, hf, hu]

/-- A finished readout without its registers has a borrowing wave saved. -/
theorem macrResultWrite_vec_noReg (hu : (s.withoutMacr c e).settleResults c (sliceOf e.wave) allLanes e.owns
      (resultsOf e.dest.regs e.vals e.prior) = none) :
    exec (.macrResultWrite c e.id) s = .next (s.spillWave c (sliceOf e.wave)) := by
  rw [State.withoutMacr] at hu
  show execMacrResultWrite c e.id s = _
  simp only [execMacrResultWrite, hf, hu]

end

end

/-- Settles O41: each start by the kind of the oldest entry, the effect of the last pass, and the two outcomes of a readout. -/
theorem engineEventsComplete : Obligations.EngineEventsComplete := by
  refine ⟨?start, ?effect, ?readout, fun s c => rfl⟩
  case start =>
    intro s c e hr hh
    exact ⟨engineStart_plain hr hh, engineStart_macz hr hh,
      fun hk hp => (engineStart_macr hr hh hk).trans (congrArg _ (if_pos hp)),
      fun hk hp => (engineStart_macr hr hh hk).trans (congrArg _ (if_neg hp))⟩
  case effect =>
    intro s c e hf hp hk
    have ⟨hz, hm⟩ : e.kind ≠ .zflg ∧ e.kind ≠ .macr := by rcases hk with hk | hk | hk | hk <;> simp [hk]
    exact (engineEffect_last hf hp).trans (congrArg _ (entryEffect_tile _ c hz hm))
  case readout =>
    intro s c e hf
    exact ⟨fun u hu => macrResultWrite_vec hf hu, fun hu => macrResultWrite_vec_noReg hf hu⟩

end Sys2Proof.Machine
end

section
/-! PROOF. Matrix instructions enter the engine's queue (R137, R153-R167). -/
namespace Sys2Proof.Machine

/-! ### Bundles of all 32 threads (R137) -/

/-- An instruction of a bundle of all 32 threads retires with what its body comes to there. -/
theorem retires_of_converged {i : Instr} {s s0 : State} {o : Opnds} {pfx : Bool} {x : Iss} {dflt : DCls} {more : List Nat}
    {pre : Iss → Option Stop} {body : State → Iss → Mask → Except Stop Fx} {fx : Fx}
    (hi : Issues s o pfx s0 x allLanes dflt more) (he : exec i s = simt s o pfx pre (convergedBody body) dflt more)
    (hp : pre x = none) (hb : body s0 x allLanes = .ok fx) : Retires i s s0 x allLanes o pfx fx :=
  retires_of_body hi he hp ((if_neg (not_not_intro rfl)).trans hb)

/-- An operand that is read once has its value in the lowest active lane. -/
theorem once_eq_srcAt (act : Mask) (vs : List Src) (i : Nat) : once act vs i = srcAt vs i ((lowest act).getD 0) := rfl

theorem lowest_allLanes : lowest allLanes = some 0 := by decide

theorem once_allLanes (vs : List Src) (i : Nat) : once allLanes vs i = srcAt vs i 0 := by
  rw [once_eq_srcAt, lowest_allLanes, Option.getD_some]

/-! ### The engine's queue (R153-R167) -/

/-- A prefix gives a group size just when a format is grouped (R142, R152). -/
theorem groupSize_agrees {n : Nat} {grouped : Bool} (h : n = 0 ↔ grouped = false) : ((n != 0) != grouped) = false := by
  cases grouped <;> simp_all

/-- Zero points within their four bits pass the check of an `MMA` with a format of that width (R142). -/
theorem quantPoints_accepted {grouped : Bool} {fa fb : Nat} {zs : List Word}
    (h : fa = 11 ∨ fb = 11 → ∀ z ∈ zs, z.toNat ≤ 15) :
    ¬ (grouped && (fa == 11 || fb == 11) && zs.any (fun z => decide (15 < z.toNat))) = true := by
  simp only [Bool.and_eq_true, Bool.or_eq_true, beq_iff_eq, List.any_eq_true, decide_eq_true_eq]
  rintro ⟨⟨-, hf⟩, z, hz, hlt⟩
  exact absurd (h hf z hz) (Nat.not_le.mpr hlt)

/-- Settles O40: each body past its checks ends in its entry of the queue; a readout first asks the reuse table. -/
theorem matrixInstructionsComplete : Obligations.MatrixInstructionsComplete := by
  refine ⟨?mma, ?mmas, ?mmal, ?macz, ?macw, ?macr, ?zflg, ?lxld, ?lxinv⟩
  case mma =>
    intro o bf zskip s s0 x vs fx hi hp
    dsimp only
    intro hpair hc hd hgs hvs hzp he
    refine retires_of_converged hi (show exec _ s = execMma o bf zskip s from rfl) hp ((if_neg ?formats).trans ?_)
    case formats => simp [hpair, hc, hd, groupSize_agrees hgs]
    simp only [hvs]
    exact (if_neg (quantPoints_accepted hzp)).trans he
  case mmas =>
    intro o bf out inner zskip s s0 x vs fx hi hp
    dsimp only
    intro hlo hhi hin hb hw hpair hc hd hgs hvs hm he
    refine retires_of_converged hi (show exec _ s = execMmas o bf out inner zskip s from rfl) hp ((if_neg ?formats).trans ?_)
    case formats => simpa [hlo, hhi, hb, hw, hpair, hc, hd, hgs] using hin
    rw [hvs]
    exact (if_neg (ne_true_of_eq_false hm)).trans he
  case mmal =>
    intro o bf abs k32 s s0 x vs k fx hi hp
    dsimp only
    intro hh hb hc hd hgs hvs hl hctx hj hk he
    refine retires_of_converged hi (show exec _ s = execMmal o bf abs k32 s from rfl) hp ((if_neg ?formats).trans ?_)
    case formats => rcases hb with hb | hb <;> simp [hh, hb, hc, hd, hgs]
    simp only [hvs, once_allLanes]
    refine (if_neg (by simp [hl, hctx])).trans ((if_neg (Nat.not_le.mpr hj)).trans ?_)
    rw [hk]
    exact he
  case macz => exact fun o s s0 x act fx hi hp he => retires_of_body hi (show exec _ s = execMacz o s from rfl) hp he
  case macw =>
    intro o f s s0 x vs fx hi hp
    dsimp only
    intro hf hb hc hd hgs hvs he
    refine retires_of_converged hi (show exec _ s = execMacw o f s from rfl) hp ((if_neg ?formats).trans ?_)
    case formats => simp [hf, hb, hc, hd, hgs]
    rw [hvs]
    exact he
  case macr =>
    intro o f r s s0 x ns hi hp
    dsimp only
    intro hf ha hb hc hgs hns hpois
    refine ⟨fun fx hhit => ?_, fun ps prior s1 fx hmiss hroom hps he => ?_⟩
    all_goals
      refine retires_of_converged hi (show exec _ s = execMacr o f r s from rfl) hp
        ((if_neg (by simp [hf, ha, hb, hc, hgs])).trans ?_)
      simp only [hns, hpois, Bool.false_eq_true, if_false]
    · rw [hhit]
    · simp only [hmiss, if_neg (Nat.not_lt.mpr hroom), hps, he]
      exact (apply_ite (fun t : State => (.ok { s := t } : Except Stop Fx)) _ _ _).symm
  case zflg =>
    intro o s s0 x cs vs fx hi hp hcs
    dsimp only
    intro hlo hhi hname hvs hfree he
    refine retires_of_converged hi (show exec _ s = execZflg o s from rfl) hp ?_
    simp only [hcs, once_allLanes]
    refine (if_neg (by omega)).trans ?_
    rw [hvs]
    exact (if_neg (ne_true_of_eq_false hfree)).trans he
  case lxld =>
    intro o s s0 x act vs k fx hi hvs
    dsimp only
    intro hc hlo hhi hh hpos hsize hk he
    refine retires_of_body hi (show exec _ s = execLxld o s from rfl) rfl ?_
    simp only [hvs, once_eq_srcAt]
    refine (if_neg (by omega)).trans ?_
    rw [hk]
    exact he
  case lxinv => exact fun o s s0 x act fx hi he => retires_of_body hi (show exec _ s = execLxinv o s from rfl) rfl he

end Sys2Proof.Machine
end

section
/-! PROOF. The ALU group of walks computes on words and pairs (R191, R215). -/
namespace Sys2Proof.Machine

/-! ### Differences and shifts of naturals and of words -/

theorem ofNat_toNat_add_sub {w : Nat} (p q : BitVec w) : BitVec.ofNat w (p.toNat + (2 ^ w - q.toNat)) = p - q := by
  rw [Nat.add_comm, BitVec.sub_def]

/-- A shift by the width or more gives 0. -/
theorem ofNat_ite_mul_two_pow {w : Nat} (p : BitVec w) (n : Nat) :
    BitVec.ofNat w (if w ≤ n then 0 else p.toNat * 2 ^ n) = if w ≤ n then 0 else p <<< n := by
  rw [apply_ite (BitVec.ofNat w), ← Nat.shiftLeft_eq, ← BitVec.shiftLeft_eq]
  rfl

theorem ofNat_ite_div_two_pow {w : Nat} (p : BitVec w) (n : Nat) :
    BitVec.ofNat w (if w ≤ n then 0 else p.toNat / 2 ^ n) = if w ≤ n then 0 else p >>> n := by
  rw [apply_ite (BitVec.ofNat w), ← Nat.shiftRight_eq_div_pow, ← BitVec.toNat_ushiftRight, BitVec.ofNat_toNat, BitVec.setWidth_eq]
  rfl

theorem toNat_loWord (v : DWord) : (loWord v).toNat = v.toNat % 2 ^ 32 := by
  simp [loWord, BitVec.extractLsb'_toNat]

/-! ### A word of the group (R215) -/

/-- The second operand of the ALU group as a word, and as a pair. -/
def Walk.aluWord (x : Walk) : QSrc → Word
  | .reg b => x.qr b.toNat
  | .imm i => i.signExtend 32
def Walk.aluPair (x : Walk) : QSrc → DWord
  | .reg b => x.dq b.toNat
  | .imm i => i.signExtend 64

section
variable (i : Instr) {d a : BitVec 4} {y : QSrc} {f : Nat → Nat → Nat → Nat}

/-- A word whose arm is the group's computes on words what its function on naturals does. -/
theorem goesOn_of_aluWord (hi : ∀ s, exec i s = walkAlu false d a y f s) (g : Word → Word → Word)
    (hf : ∀ p q : Word, BitVec.ofNat 32 (f 32 p.toNat q.toNat) = g p q) :
    WalkGoesOn i (fun _ x => x.setQ d.toNat (g (x.qr a.toNat) (x.aluWord y))) := by
  intro s c k x hx
  rw [hi, walkAlu, walkStep_next s _ c k x hx]
  cases y <;> simp only [Bool.false_eq_true, if_false, hf, Walk.aluWord]

/-- The same under `.W`, on pairs. -/
theorem goesOn_of_aluPair (hi : ∀ s, exec i s = walkAlu true d a y f s) (g : DWord → DWord → DWord)
    (hf : ∀ p q : DWord, BitVec.ofNat 64 (f 64 p.toNat q.toNat) = g p q) :
    WalkGoesOn i (fun _ x => x.setDq d.toNat (g (x.dq a.toNat) (x.aluPair y))) := by
  intro s c k x hx
  rw [hi, walkAlu, walkStep_next s _ c k x hx]
  cases y <;> simp only [if_true, hf, Walk.aluPair]

/-- The checks of a word on pairs leave it even registers (R191). -/
theorem even_of_aluOk (h : aluOk true d a y = true) :
    d.toNat % 2 = 0 ∧ a.toNat % 2 = 0 ∧ ∀ b, y = .reg b → b.toNat % 2 = 0 := by
  have hev : ∀ q : BitVec 4, evenQ q = true → q.toNat % 2 = 0 := by decide
  simp only [aluOk, Bool.not_true, Bool.false_or, Bool.and_eq_true] at h
  obtain ⟨⟨hd, ha⟩, hy⟩ := h
  exact ⟨hev d hd, hev a ha, fun b hb => hev b (by simpa only [hb] using hy)⟩

end

theorem walkOk_of_wellFormed {i : Instr} (h : wellFormed i = true) : walkOk i = true := by
  unfold wellFormed at h
  split at h
  · cases h
  · cases h
  · cases h
  · exact (Bool.and_eq_true_iff.mp (Bool.and_eq_true_iff.mp h).1).2

/-! ### Registers of a walk after a write (R191) -/

theorem length_setQ (x : Walk) (n : Nat) (v : Word) : (x.setQ n v).q.length = x.q.length := List.length_set

theorem qr_setQ (x : Walk) (n m : Nat) (v : Word) (hn : n < 16) (hm : m < 16) (hl : x.q.length = 16) :
    (x.setQ n v).qr m = if m = n then v else x.qr m := by
  simp only [Walk.qr, Walk.setQ, Nat.mod_eq_of_lt hn, Nat.mod_eq_of_lt hm]
  exact nth_setNth x.q n m v 0 (hl ▸ hn)

theorem qr_setDq (x : Walk) (n m : Nat) (v : DWord) (he : n % 2 = 0) (hn : n < 16) (hm : m < 16) (hl : x.q.length = 16) :
    (x.setDq n v).qr m = if m = n then loWord v else if m = n + 1 then hiWord v else x.qr m := by
  rw [Walk.setDq, qr_setQ _ _ _ _ (by omega) hm ((length_setQ x n _).trans hl), qr_setQ _ _ _ _ hn hm hl]
  by_cases h : m = n
  · rw [if_pos h, if_pos h, if_neg (by omega)]
  · rw [if_neg h, if_neg h]

/-- Settles O42: each arm is the group's on words and pairs, with the function on naturals that the operation is. -/
theorem walkAluGroup : Obligations.WalkAluGroup := by
  refine ⟨fun d a y => ?words, fun d a y => ?pairs, ?even, qr_setQ, qr_setDq⟩
  case words =>
    refine ⟨goesOn_of_aluWord (.wadd false d a y) (fun s => show execWadd false d a y s = _ from rfl) (· + ·) fun _ _ => rfl,
      goesOn_of_aluWord (.wsub false d a y) (fun s => show execWsub false d a y s = _ from rfl) (· - ·) ofNat_toNat_add_sub,
      goesOn_of_aluWord (.wand false d a y) (fun s => show execWand false d a y s = _ from rfl) (· &&& ·) fun _ _ => by simp,
      goesOn_of_aluWord (.wor false d a y) (fun s => show execWor false d a y s = _ from rfl) (· ||| ·) fun _ _ => by simp,
      goesOn_of_aluWord (.wxor false d a y) (fun s => show execWxor false d a y s = _ from rfl) (· ^^^ ·) fun _ _ => by simp,
      goesOn_of_aluWord (.wshl false d a y) (fun s => show execWshl false d a y s = _ from rfl)
        (fun p q => if 32 ≤ q.toNat then 0 else p <<< q.toNat) fun p q => ?_,
      goesOn_of_aluWord (.wshr false d a y) (fun s => show execWshr false d a y s = _ from rfl)
        (fun p q => if 32 ≤ q.toNat then 0 else p >>> q.toNat) fun p q => ?_⟩
    · rw [Nat.mod_eq_of_lt q.isLt, ofNat_ite_mul_two_pow]
    · rw [Nat.mod_eq_of_lt q.isLt, ofNat_ite_div_two_pow]
  case pairs =>
    refine ⟨goesOn_of_aluPair (.wadd true d a y) (fun s => show execWadd true d a y s = _ from rfl) (· + ·) fun _ _ => rfl,
      goesOn_of_aluPair (.wsub true d a y) (fun s => show execWsub true d a y s = _ from rfl) (· - ·) ofNat_toNat_add_sub,
      goesOn_of_aluPair (.wand true d a y) (fun s => show execWand true d a y s = _ from rfl) (· &&& ·) fun _ _ => by simp,
      goesOn_of_aluPair (.wor true d a y) (fun s => show execWor true d a y s = _ from rfl) (· ||| ·) fun _ _ => by simp,
      goesOn_of_aluPair (.wxor true d a y) (fun s => show execWxor true d a y s = _ from rfl) (· ^^^ ·) fun _ _ => by simp,
      goesOn_of_aluPair (.wshl true d a y) (fun s => show execWshl true d a y s = _ from rfl)
        (fun p q => if 64 ≤ (loWord q).toNat then 0 else p <<< (loWord q).toNat) fun p q => ?_,
      goesOn_of_aluPair (.wshr true d a y) (fun s => show execWshr true d a y s = _ from rfl)
        (fun p q => if 64 ≤ (loWord q).toNat then 0 else p >>> (loWord q).toNat) fun p q => ?_⟩
    · rw [← toNat_loWord, ofNat_ite_mul_two_pow]
    · rw [← toNat_loWord, ofNat_ite_div_two_pow]
  case even =>
    intro d a y i hi hw
    have hok := walkOk_of_wellFormed hw
    fin_cases hi <;> exact even_of_aluOk hok

end Sys2Proof.Machine
end

section
/-! PROOF. `SCLR` empties the stack and drops the record of its spilled words, which the statement keeps (R173, R211). -/
namespace Sys2Proof.Machine

/-- `SCLR` drops the words on chip and, with their count, the words that its walk keeps as they were spilled. -/
theorem sclr_drops : WalkGoesOn .sclr (fun _ x => { x with chip := [], spilled := 0, under := [] }) :=
  fun s c k x hx => show execSclr s = _ from walkStep_next s _ c k x hx

/-- A walk that has a next word goes on to it as it stands. -/
theorem walk?_walkNext {s : State} {c k : Nat} {x : Walk} (h : s.walk? c k = some x) (hl : x.pc + 1 < x.plen) :
    (s.walkNext c k).walk? c k = some { x with pc := x.pc + 1, wait := .ready } := by
  simp only [State.walkNext, h, if_pos hl, walk?_setWalk]

/-- A walk in the first of its two words, with the word 7 in its spill area. -/
def spilledWalk : Walk := { plen := 2, spilled := 1, under := [7] }

/-- The machine after reset, with that walk in slot 0 of core 0 and its turn. -/
def spilledTurn : State :=
  { State.reset.setWalk 0 0 spilledWalk with cur := some { agent := .walk, core := 0, wave := 0, lanes := 0 } }

theorem walkNow_spilledTurn : spilledTurn.walkNow = some (0, 0, spilledWalk) := rfl

/-- Refutes O43: the clause of `SCLR` keeps `under`, the words in the spill area as they were pushed (R173). `SCLR` drops them with
their count, since no word of the area is left to pop (R211): on a walk with a spilled word the two differ. -/
theorem not_walkNodesAndStack : ¬ Obligations.WalkNodesAndStack := by
  intro h
  obtain ⟨-, -, -, hclear, -⟩ := h
  have hgo := (sclr_drops spilledTurn 0 0 spilledWalk walkNow_spilledTurn).symm.trans
    (hclear spilledTurn 0 0 spilledWalk walkNow_spilledTurn)
  have hwalk := congrArg (State.walk? · 0 0) (Host.Outcome.next.inj hgo)
  simp only at hwalk
  rw [walk?_walkNext (walk?_setWalk ..) (by decide), walk?_walkNext (walk?_setWalk ..) (by decide)] at hwalk
  have hunder : ([] : List Word) = [7] := congrArg Walk.under (Option.some.inj hwalk)
  cases hunder

end Sys2Proof.Machine
end

section
/-! PROOF. The testing, comparing, converting and moving words of walks complete (R194, R197-R206, R210, R216-R218). -/
namespace Sys2Proof.Machine

/-! ### Keys as integers (R202) -/

theorem keyInt_signed (w : Word) : keyInt true w = w.toInt := by
  have hw := w.isLt
  simp only [keyInt, intOf, true_and, BitVec.toInt_eq_toNat_cond, Nat.mod_eq_of_lt hw]
  split <;> split <;> omega

theorem keyInt_unsigned (w : Word) : keyInt false w = w.toNat := by
  simp [keyInt, intOf, Nat.mod_eq_of_lt w.isLt]

/-! ### Masks and keys of the tested slots (R197, R203) -/

theorem mask16_none : mask16 (fun _ => false) = 0 := rfl

/-- A test writes what its function gives for the valid slots alone. -/
theorem tested_congr (x : Walk) (d first n count : Nat) {f g : Nat → Option Word} (h : ∀ k, k < count → f k = g k) :
    x.tested d first n count f = x.tested d first n count g := by
  have hr : ∀ k, (if k < count then f k else none) = if k < count then g k else none :=
    fun k => ite_congr rfl (h k) fun _ => rfl
  simp only [Walk.tested, hr]

/-! ### `TRI` (R200) -/

/-- The hit of triangle `t` of a node: `none` when one of its slots is not valid (log entry 90). -/
def Walk.triHit (x : Walk) (cb cf : Bool) (a : BitVec 1) (b : BitVec 4) (t : Nat) : Option TriHit :=
  let n := x.node a.toNat
  let v := fun (p i : Nat) => nth (nth [n.f0, n.f1, n.f2] i []) (3 * t + p) 0
  if 3 * t + 2 < n.count then triSlot cb cf (v 0) (v 1) (v 2) (fun i => x.qr (b.toNat + i)) else none

/-- The nearer of the nearest hit so far and the hit of triangle `t`. -/
def nearerHit (hit : Nat → Option TriHit) (m : Option (Nat × TriHit)) (t : Nat) : Option (Nat × TriHit) :=
  match hit t, m with
  | none, m => m
  | some h, none => some (t, h)
  | some h, some g => if ratLe g.2.t g.2.det h.t h.det then m else some (t, h)

/-- The four words of the nearest hit. -/
def Walk.putNearest (x : Walk) (c : Nat) : Option (Nat × TriHit) → Walk
  | none => x
  | some (t, h) =>
    (((x.setQ c (roundRatio h.t h.det)).setQ (c + 1) (roundRatio h.v h.det)).setQ (c + 2) (roundRatio h.w h.det)).setQ (c + 3)
      (BitVec.ofNat 32 t)

theorem tri_goesOn (cb cf : Bool) (d : BitVec 2) (a : BitVec 1) (b c' : BitVec 4) : WalkGoesOn (.tri cb cf d a b c') (fun _ x =>
    (x.tested d.toNat 0 4 4 (fun t => (x.triHit cb cf a b t).map (fun h => roundRatio h.t h.det))).putNearest c'.toNat
      ((List.range 4).foldl (nearerHit (x.triHit cb cf a b)) none)) :=
  fun s c k x hx => show execTri cb cf d a b c' s = _ from walkStep_next s _ c k x hx

theorem nearerHit_miss {hit : Nat → Option TriHit} {t : Nat} (m : Option (Nat × TriHit)) (h : hit t = none) :
    nearerHit hit m t = m := by
  simp only [nearerHit, h]

theorem nearest_of_misses {hit : Nat → Option TriHit} {ts : List Nat} (m : Option (Nat × TriHit)) (h : ∀ t ∈ ts, hit t = none) :
    ts.foldl (nearerHit hit) m = m := by
  induction ts with
  | nil => rfl
  | cons t ts ih =>
    obtain ⟨ht, hts⟩ := List.forall_mem_cons.mp h
    rw [List.foldl_cons, nearerHit_miss m ht]
    exact ih hts

/-- A hit alone among the triangles is the nearest one. -/
theorem nearest_of_single {hit : Nat → Option TriHit} {ts : List Nat} {t : Nat} {h : TriHit} (hd : ts.Nodup) (ht : t ∈ ts)
    (hh : hit t = some h) (hu : ∀ u ∈ ts, u ≠ t → hit u = none) : ts.foldl (nearerHit hit) none = some (t, h) := by
  induction ts with
  | nil => cases ht
  | cons v ts ih =>
    obtain ⟨hv, hd⟩ := List.nodup_cons.mp hd
    obtain ⟨huv, hu⟩ := List.forall_mem_cons.mp hu
    rw [List.foldl_cons]
    by_cases e : v = t
    · subst e
      have hf : nearerHit hit none v = some (v, h) := by simp only [nearerHit, hh]
      rw [hf]
      exact nearest_of_misses _ fun u hm => hu u hm fun he => hv (he ▸ hm)
    · rw [nearerHit_miss none (huv e)]
      exact ih hd ((List.mem_cons.mp ht).resolve_left (Ne.symm e)) hu

/-! ### Values (R75, R204) -/

theorem fNan_of_fFin {w : Word} (h : fFin w = true) : fNan w = false := by
  unfold fFin at h
  unfold fNan
  split at h
  · next hv => rw [hv]; rfl
  · cases h

/-! ### Comparisons of keys (R202, R203) -/

/-- Whether slot `k` is valid and its key compares with the register. -/
def Walk.keyHolds (x : Walk) (c : Cmp) (sg : Bool) (a : BitVec 1) (b : BitVec 4) (k : Nat) : Bool :=
  decide (k < (x.node a.toNat).count) && intCmp c (keyInt sg (nth (x.node a.toNat).f0 k 0)) (keyInt sg (x.qr b.toNat))

theorem keyHolds_iff {x : Walk} {c : Cmp} {sg : Bool} {a : BitVec 1} {b : BitVec 4} {k : Nat} :
    x.keyHolds c sg a b k = true ↔
      k < (x.node a.toNat).count ∧ intCmp c (keyInt sg (nth (x.node a.toNat).f0 k 0)) (keyInt sg (x.qr b.toNat)) = true := by
  rw [Walk.keyHolds, Bool.and_eq_true, decide_eq_true_iff]

/-- `KCMP` with its selection gives the first slot that compares, or the count less one. -/
theorem kcmp_select (c : Cmp) (sg : Bool) (d : BitVec 4) (a : BitVec 1) (b : BitVec 4) :
    WalkGoesOn (.kcmp c sg true d a b) (fun _ x => x.setQ d.toNat (((List.range 16).find? (x.keyHolds c sg a b)).elim
      (BitVec.ofInt 32 (((x.node a.toNat).count : Int) - 1)) (BitVec.ofNat 32))) := by
  intro s core k x hx
  refine (show execKcmp c sg true d a b s = _ from walkStep_next s _ core k x hx).trans ?_
  have hput : ∀ o : Option Nat, (match o with
      | some k => x.setQ d.toNat (BitVec.ofNat 32 k)
      | none => x.setQ d.toNat (BitVec.ofInt 32 (((x.node a.toNat).count : Int) - 1))) =
      x.setQ d.toNat (o.elim (BitVec.ofInt 32 (((x.node a.toNat).count : Int) - 1)) (BitVec.ofNat 32)) := by
    rintro (_ | k) <;> rfl
  exact congrArg (fun y => Host.Outcome.next ((s.setWalk core k y).walkNext core k))
    (hput ((List.range 16).find? (x.keyHolds c sg a b)))

/-! ### The words -/

/-- `KRNG` of a key range asks for keys in it; in an empty one there are none. -/
theorem krng_keys (sg : Bool) (d : BitVec 2) (a : BitVec 1) (b : BitVec 4) : WalkGoesOn (.krng false sg d a b) (fun _ x =>
    let n := x.node a.toNat
    let lo := keyInt sg (x.qr b.toNat)
    let hi := keyInt sg (x.qr (b.toNat + 1))
    x.setM d.toNat (mask16 (fun k => decide (k < n.count) && decide (lo ≤ keyInt sg (nth n.f0 k 0)) &&
      decide (keyInt sg (nth n.f0 k 0) ≤ hi)))) := by
  intro s c k x hx
  refine (show execKrng false sg d a b s = _ from walkStep_next s _ c k x hx).trans ?_
  simp only [Bool.false_eq_true, if_false, ← Bool.and_assoc]
  split
  · next hlt =>
    have hnone : ∀ j, (decide (j < (x.node a.toNat).count) &&
        decide (keyInt sg (x.qr b.toNat) ≤ keyInt sg (nth (x.node a.toNat).f0 j 0)) &&
        decide (keyInt sg (nth (x.node a.toNat).f0 j 0) ≤ keyInt sg (x.qr (b.toNat + 1)))) = false := by
      intro j
      simp only [Bool.and_eq_false_iff, decide_eq_false_iff_not]
      omega
    simp only [hnone, mask16_none]
  · rfl

theorem minmax_signed (mx : Bool) (d a b : BitVec 4) : WalkGoesOn (.minmax .si32 mx d a b) (fun _ x => x.setQ d.toNat
    (if (x.qr a.toNat).sle (x.qr b.toNat) = mx then x.qr b.toNat else x.qr a.toNat)) := by
  intro s c k x hx
  refine (show execMinmax .si32 mx d a b s = _ from walkStep_next s _ c k x hx).trans ?_
  cases mx
  · simp only [keyInt_signed, BitVec.sle, decide_eq_false_iff_not, ite_not, Bool.false_eq_true, if_false]
  · simp only [keyInt_signed, BitVec.sle, decide_eq_true_eq, if_true]

theorem minmax_unsigned (mx : Bool) (d a b : BitVec 4) : WalkGoesOn (.minmax .ui32 mx d a b) (fun _ x => x.setQ d.toNat
    (if (x.qr a.toNat).ule (x.qr b.toNat) = mx then x.qr b.toNat else x.qr a.toNat)) := by
  intro s c k x hx
  refine (show execMinmax .ui32 mx d a b s = _ from walkStep_next s _ c k x hx).trans ?_
  cases mx
  · simp only [BitVec.ule, decide_eq_false_iff_not, ite_not, Bool.false_eq_true, if_false]
  · simp only [BitVec.ule, decide_eq_true_eq, if_true]

theorem minmax_float (mx : Bool) (d a b : BitVec 4) : WalkGoesOn (.minmax .f32 mx d a b) (fun _ x => x.setQ d.toNat
    (BitVec.ofNat 32 (fpMinMax .f32 mx (x.qr a.toNat).toNat (x.qr b.toNat).toNat).1)) := by
  intro s c k x hx
  refine (show execMinmax .f32 mx d a b s = _ from walkStep_next s _ c k x hx).trans ?_
  cases mx <;> rfl

theorem movqSpc_goesOn (d : BitVec 4) (src : BitVec 3) : WalkGoesOn (.movqSpc d src) (fun k x => x.setQ d.toNat (match src.toNat with
    | 0 => x.tag
    | 1 => BitVec.ofNat 32 k
    | 2 => x.emitted
    | 3 => BitVec.ofNat 32 x.depth
    | 4 => BitVec.ofNat 32 (x.topk.elim 0 (fun t => t.entries.length))
    | 5 => BitVec.ofNat 32 x.originCore
    | _ => if x.remote.isSome then 1 else 0)) := by
  intro s c k x hx
  refine (show execMovqSpc d src s = _ from walkRun_next s _ c k x hx).trans ?_
  dsimp only
  generalize x.topk = t
  cases t <;> rfl

/-- Settles O44: each word runs its arm on the walk of the turn. -/
theorem walkComputingCompletes : Obligations.WalkComputingCompletes := by
  refine ⟨fun d a sel idx slot b s c k x hx => show execNget d a sel idx slot b s = _ from walkStep_next s _ c k x hx,
    fun hi d b s c k x hx => show execBox8 hi d b s = _ from walkStep_next s _ c k x hx,
    fun hi inn d b s c k x hx => show execOvl8 hi inn d b s = _ from walkStep_next s _ c k x hx,
    ?tri,
    fun ray d a b s c k x hx => show execSphr ray d a b s = _ from walkStep_next s _ c k x hx,
    fun c sg d a b s core k x hx => show execKcmp c sg false d a b s = _ from walkStep_next s _ core k x hx,
    ?kcmp, krng_keys,
    fun sg d a b s c k x hx => show execKrng true sg d a b s = _ from walkStep_next s _ c k x hx,
    fun ty dot z a b s c k x hx => show execDist ty dot z a b s = _ from walkStep_next s _ c k x hx,
    fun int m z d s c k x hx => show execDfin int m z d s = _ from walkStep_next s _ c k x hx,
    ?kds,
    fun desc a s c k x hx => show execSortm desc a s = _ from walkStep_next s _ c k x hx,
    minmax_signed, minmax_unsigned, minmax_float,
    fun m neg d a b s c k x hx => show execFmad m neg d a b s = _ from walkStep_next s _ c k x hx,
    ?cmps,
    fun d a s c k x hx => show execMovq d a s = _ from walkStep_next s _ c k x hx,
    fun d i s c k x hx => show execMovqImm d i s = _ from walkStep_next s _ c k x hx,
    fun d i s c k x hx => show execMovqShi d i s = _ from walkStep_next s _ c k x hx,
    movqSpc_goesOn⟩
  case tri =>
    intro cb cf d a b c'
    refine ⟨fun x => x.triHit cb cf a b, fun x t _ => rfl, _, tri_goesOn cb cf d a b c', ?_, ?_⟩
    · intro k x (hmiss : ∀ t, t < 4 → x.triHit cb cf a b t = none)
      have hm : ∀ t ∈ List.range 4, x.triHit cb cf a b t = none := fun t ht => hmiss t (List.mem_range.mp ht)
      rw [nearest_of_misses none hm]
      exact tested_congr _ _ _ _ _ fun t ht => by rw [hmiss t ht]; rfl
    · intro k x t h ht (hh : x.triHit cb cf a b t = some h) (hmiss : ∀ u, u < 4 → u ≠ t → x.triHit cb cf a b u = none)
      have hm : ∀ u ∈ List.range 4, u ≠ t → x.triHit cb cf a b u = none := fun u hu => hmiss u (List.mem_range.mp hu)
      rw [nearest_of_single List.nodup_range (List.mem_range.mpr ht) hh hm]
      rw [tested_congr (g := fun u => if u = t then some (roundRatio h.t h.det) else none)]
      · rfl
      · intro u hu
        by_cases e : u = t
        · rw [if_pos e, e, hh]; rfl
        · rw [if_neg e, hmiss u hu e]; rfl
  case kcmp =>
    intro c sg d a b
    refine ⟨_, kcmp_select c sg d a b, fun w x => ⟨fun k hk hok hfirst => ?_, fun hnone => ?_⟩⟩
    · have hf : (List.range 16).find? (x.keyHolds c sg a b) = some k := List.find?_range_eq_some.mpr
        ⟨keyHolds_iff.mpr hok, List.mem_range.mpr hk, fun j hj => by
          rw [Bool.not_eq_true', Bool.eq_false_iff]
          exact fun h => hfirst j hj (keyHolds_iff.mp h)⟩
      rw [hf]
      rfl
    · have hf : (List.range 16).find? (x.keyHolds c sg a b) = none := List.find?_eq_none.mpr fun k hk h =>
        hnone k (List.mem_range.mp hk) (keyHolds_iff.mp h)
      rw [hf]
      rfl
  case kds =>
    intro d a b slot
    refine ⟨_, fun s c k x hx => show execKds d a b slot s = _ from walkStep_next s _ c k x hx, fun k x => ?_⟩
    dsimp only
    refine ⟨fun hnan => ?_, fun hp hq => ?_⟩
    · have hn := Bool.or_eq_true_iff.mpr hnan
      simp only [hn, Bool.not_true, Bool.false_and, Bool.false_eq_true, if_true, if_false]
    · simp only [fNan_of_fFin hp, fNan_of_fFin hq, hp, hq, Bool.or_self, Bool.not_false, Bool.not_true, Bool.true_and,
        Bool.false_eq_true, if_false]
  case cmps =>
    intro c a y v
    refine ⟨fun s core k x hx => ?_, fun s core k x hx => ?_,
      fun s core k x hx => show execCmps c .f32 a y s = _ from walkStep_next s _ core k x hx⟩
    · refine (show execCmps c .si32 a y s = _ from walkStep_next s _ core k x hx).trans ?_
      simp only [keyInt_signed]
      rfl
    · refine (show execCmps c .ui32 a y s = _ from walkStep_next s _ core k x hx).trans ?_
      simp only [keyInt_unsigned]
      rfl

end Sys2Proof.Machine
end

section
/-! PROOF. Fences, refusals, write-backs and the verification of pages complete (R187, R224, R230, R233-R237, R250, R252, R304). -/
namespace Sys2Proof.Machine

/-- An event of an operation that is in flight runs on it. -/
theorem memEvent_found {s : State} {c id : Nat} {o : Op} (h : (s.core c).ops.find? (fun e => e.id == id) = some o)
    (f : State → Op → State) : memEvent s c id f = .next (f s o) := by
  simp only [memEvent, h]

/-- A fence ends when the accesses before it are performed and the lines that it writes back reach their homes. -/
theorem fenceCompletion_ends {s : State} {c id : Nat} {o : Op} (h : (s.core c).ops.find? (fun e => e.id == id) = some o)
    (hk : o.kind = .fence) (hu : o.paths.getLsbD 5 = true → s.unperformed c o.wave o.active o.id = false)
    (hf : s.flushes (s.wave c o.wave).team o.scope o.paths = true → s.homesPending c = false) :
    let s1 := s.modCore c (fun k => { k with ops := k.ops.filter (fun e => e.id != o.id) })
    exec (.fenceCompletion c id) s = .next ((s1.fence c (s1.wave c o.wave).team o.scope o.paths).advanceGen c o.wave) := by
  have hwaits : (o.kind != .fence || (o.paths.getLsbD 5 && s.unperformed c o.wave o.active o.id) ||
      (s.flushes (s.wave c o.wave).team o.scope o.paths && s.homesPending c)) = false := by
    simp only [hk, bne_self_eq_false, Bool.false_or, Bool.or_eq_false_iff, Bool.and_eq_false_imp]
    exact ⟨hu, hf⟩
  refine (show execFenceCompletion c id s = _ from memEvent_found h _).trans ?_
  rw [if_neg (Bool.eq_false_iff.mp hwaits)]

/-- What a fence does, first to the lines of its core and then to the copies of the Spindles. -/
theorem fence_eq (s : State) (c t : Nat) (sc : Scope) (paths : BitVec 6) : s.fence c t sc paths =
    (let s2 := if paths.getLsbD 5 = false then s else if s.wide t sc then (s.flushDirty c).invalidateClean c
      else if paths &&& 0x1F ≠ 0 then s.flushDirty c else s
    let cs := match sc with
      | .wave => [c]
      | .team => c :: ((s2.team t).members.map (fun (m : Member) => m.core)).filter (fun d => d != c)
      | _ => List.range Config.cores
    if paths.getLsbD 3 then cs.foldl (fun (u : State) d => u.modCore d (fun k =>
      { k with sp := { k.sp with nodes := [], progs := [], descs := [] } })) s2 else s2) := by
  unfold State.fence
  cases sc <;> simp only [Bool.not_eq_true', bne_iff_ne]

/-- A refusal returns when no earlier remote operation of its wave is refused or under way. -/
theorem remoteBenchRefusal_returns {s : State} {c id : Nat} {o : Op} (h : (s.core c).ops.find? (fun e => e.id == id) = some o)
    (hr : o.refused ≠ 0) (hl : o.left = [])
    (hfirst : ∀ e ∈ (s.core c).ops, e.wave = o.wave → e.id < o.id → e.remote = true → e.refused = 0 ∧ e.left = [])
    (hw : (s.wave c o.wave).isOver = false) :
    exec (.remoteBenchRefusal c id) s = .next ((s.finishMem c o).sendAsync c o.wave
      { cause := .remoteBench, cls := clsB, mask := o.refused, addr := o.refusedVa }) := by
  have hall : (s.core c).ops.all (fun e =>
      !(e.wave == o.wave && decide (e.id < o.id) && e.remote && (e.refused != 0 || !e.left.isEmpty))) = true := by
    refine List.all_eq_true.mpr fun e he => ?_
    rw [Bool.not_eq_true', Bool.and_eq_false_imp]
    intro hearlier
    obtain ⟨⟨hwave, hid⟩, hrem⟩ : (e.wave = o.wave ∧ e.id < o.id) ∧ e.remote = true := by simpa using hearlier
    obtain ⟨h0, hnil⟩ := hfirst e he hwave hid hrem
    simp [h0, hnil]
  refine (show execRemoteBenchRefusal c id s = _ from memEvent_found h _).trans ?_
  simp only [hr, hl, hall, hw, List.isEmpty_nil, Bool.not_true, Bool.false_eq_true, or_self, if_false]

theorem l2Clean_dirty {s : State} {l : Nat} (hd : (l, true) ∈ s.l2) (hr : s.retraining l = false) : s.l2Clean l = { s with
    l2 := s.l2.map (fun e => if e.1 = l then (l, false) else e)
    tags := if s.badSpan l 256 then s.tags
      else FMap.set s.tags l (lineTag (s.compressible l) (Memory.readBytes s.mem l 256)) } :=
  if_pos (by simp [hd, hr])

/-- Settles O32: each event, on its condition, takes the effect of its arm. -/
theorem memoryEventsComplete : Obligations.MemoryEventsComplete := by
  refine ⟨?fence, fun s c id o h hr hl hfirst hw => remoteBenchRefusal_returns h hr hl hfirst hw, ?l1,
    fun s l hd hr => show execLineWriteBack l s = _ from congrArg Host.Outcome.next (l2Clean_dirty hd hr), ?page⟩
  case fence =>
    intro s c id o h hk hu hf s1 t s2 cs
    rw [fenceCompletion_ends h hk hu hf]
    exact congrArg (fun u : State => Host.Outcome.next (u.advanceGen c o.wave)) (fence_eq s1 c t o.scope o.paths)
  case l1 =>
    intro s c l evict y hy
    show execL1WriteBack c l evict s = _
    simp only [execL1WriteBack, hy]
  case page =>
    intro s r i e p he hi _ _ _ hv
    show execPageVerification r i s = _
    simp only [execPageVerification, he, Nat.not_le.mpr hi, hv, Bool.false_eq_true, if_false]

end Sys2Proof.Machine
end

section
/-! PROOF. Cancel and kill messages stop the partner walks of a hand-off on every core (R362, R365, R368). -/
namespace Sys2Proof

/-! ### A listed entry of a table -/

/-- The keys before an entry of a sorted table are less than its key. -/
theorem FMap.lt_of_sorted {α : Type} {pre post : FMap α} {k : Nat} {v : α} (h : FMap.sorted (pre ++ (k, v) :: post) = true) :
    ∀ e ∈ pre, e.1 < k := by
  induction pre with
  | nil => exact fun e he => by cases he
  | cons a pre ih =>
    obtain ⟨ha, hs⟩ := (FMap.sorted_cons ..).mp h
    exact List.forall_mem_cons.mpr ⟨ha (k, v) (by simp), ih hs⟩

theorem FMap.set_listed {α : Type} {pre post : FMap α} {k : Nat} {u : α} (v : α) (h : ∀ e ∈ pre, e.1 < k) :
    FMap.set (pre ++ (k, u) :: post) k v = pre ++ (k, v) :: post := by
  induction pre with
  | nil => exact if_pos rfl
  | cons a pre ih =>
    obtain ⟨ha, hp⟩ := List.forall_mem_cons.mp h
    rw [List.cons_append, FMap.set, if_neg (Nat.ne_of_lt ha), if_neg (Nat.lt_asymm ha), ih hp]
    rfl

theorem FMap.erase_listed {α : Type} {pre post : FMap α} {k : Nat} {v : α} (h : ∀ e ∈ pre, e.1 < k) :
    FMap.erase (pre ++ (k, v) :: post) k = pre ++ post := by
  induction pre with
  | nil => exact if_pos rfl
  | cons a pre ih =>
    obtain ⟨ha, hp⟩ := List.forall_mem_cons.mp h
    rw [List.cons_append, FMap.erase, if_neg (Nat.ne_of_lt ha), if_neg (Nat.lt_asymm ha), ih hp]
    rfl

/-- Dropping an entry forgets what was last written to it. -/
theorem FMap.erase_set {α : Type} (m : FMap α) (k : Nat) (v : α) : FMap.erase (FMap.set m k v) k = FMap.erase m k := by
  induction m with
  | nil => exact if_pos rfl
  | cons e m ih =>
    simp only [FMap.set, FMap.erase]
    split
    · exact if_pos rfl
    · next hk =>
      split
      · exact if_pos rfl
      · next hl => rw [FMap.erase, if_neg hk, if_neg hl, ih]

namespace Machine

/-! ### Partner walks that are stopped (R362, R368) -/

theorem core_of_get {s : State} {c : Nat} {y : Core} (h : FMap.get s.cores c = some y) : s.core c = y := by
  rw [State.core, FMap.getD_eq, h]
  rfl

/-- Two changes of a core are one. -/
theorem modCore_modCore (s : State) (c : Nat) (f g : Core → Core) : (s.modCore c f).modCore c g = s.modCore c (fun y => g (f y)) := by
  simp only [State.modCore, core_setCore, if_true]
  simp only [State.setCore, FMap.set_set]

/-- The entry by which a cancelled walk of the partner ends at its origin. -/
def cancelEntry (oc os hid : Nat) (tag emitted : Word) (pc : Nat) : OutMsg :=
  OutMsg.entries oc os hid [BitVec.ofNat 128 (leWord (cqEntry tag 0x02 emitted.toNat 0 0 0))] pc

theorem remote_of_forOrigin {oc os hid : Nat} {x : Walk} (h : forOrigin oc os hid x = true) :
    ∃ ctx, x.remote = some (oc, os, ctx) ∧ x.hid = hid := by
  unfold forOrigin at h
  cases hr : x.remote with
  | none => simp [hr] at h
  | some r =>
    obtain ⟨c, k, ctx⟩ := r
    obtain ⟨⟨rfl, rfl⟩, hh⟩ : (c = oc ∧ k = os) ∧ x.hid = hid := by simpa [hr] using h
    exact ⟨ctx, rfl, hh⟩

/-- What stood last in a slot does not matter when it is freed. -/
theorem freeWalk_setWalk (s : State) (c k : Nat) (x : Walk) : (s.setWalk c k x).freeWalk c k = s.freeWalk c k := by
  rw [State.freeWalk, State.setWalk, modCore_modCore]
  simp only [FMap.erase_set]
  rfl

/-- The machine with messages put on the pairing link. -/
def State.linked (s : State) (ms : List OutMsg) : State := { s with outbox := s.outbox ++ ms }

theorem modCore_linked (s : State) (ms : List OutMsg) (c : Nat) (f : Core → Core) :
    (s.linked ms).modCore c f = (s.modCore c f).linked ms := rfl

theorem linked_linked (s : State) (ms ns : List OutMsg) : (s.linked ms).linked ns = s.linked (ms ++ ns) := by
  simp only [State.linked, List.append_assoc]

theorem linked_nil (s : State) : s.linked [] = s := by
  simp only [State.linked, List.append_nil]

/-- A walk that runs here for the partner leaves its slot when it is cancelled, and its entry goes back. -/
theorem walkCancel_partner {s : State} {c k oc os hid : Nat} {x : Walk} (hx : s.walk? c k = some x)
    (ho : forOrigin oc os hid x = true) :
    s.walkCancel c k = (s.freeWalk c k).linked [cancelEntry oc os hid x.tag x.emitted x.pc] := by
  obtain ⟨ctx, hr, hh⟩ := remote_of_forOrigin ho
  subst hh
  rw [State.walkCancel, modWalk_of_walk _ hx]
  simp only [State.walkEntry, walk?_setWalk, hr, if_true]
  exact congrArg (State.linked · _) (freeWalk_setWalk s c k _)

/-- A core that is listed and that a change leaves as it is. -/
theorem modCore_unchanged {s : State} {c : Nat} {y : Core} {f : Core → Core} (hy : FMap.get s.cores c = some y) (hf : f y = y) :
    s.modCore c f = s := by
  rw [State.modCore, core_of_get hy, hf, State.setCore, FMap.set_of_get hy]

/-- Stopping the walks of a hand-off among the last of a core's takes them out of their slots. -/
theorem foldl_walkCancel {c oc os hid : Nat} (pre post : FMap Walk) (s : State) {y : Core} (hy : FMap.get s.cores c = some y)
    (hw : y.sp.walks = pre ++ post) (hs : FMap.sorted (pre ++ post) = true) :
    (post.filter (fun w => forOrigin oc os hid w.2)).foldl (fun s w => s.walkCancel c w.1) s =
      (s.modCore c (fun y => { y with sp := { y.sp with
        walks := pre ++ post.filter (fun w => !forOrigin oc os hid w.2) } })).linked
          ((post.filter (fun w => forOrigin oc os hid w.2)).map (fun w => cancelEntry oc os hid w.2.tag w.2.emitted w.2.pc)) := by
  induction post generalizing pre s y with
  | nil =>
    have hsame : s.modCore c (fun y => { y with sp := { y.sp with walks := pre ++ [] } }) = s :=
      modCore_unchanged hy (by rw [← hw])
    exact ((linked_nil _).trans hsame).symm
  | cons w post ih =>
    obtain ⟨k, x⟩ := w
    have hc := core_of_get hy
    by_cases ho : forOrigin oc os hid x = true
    · have hx : s.walk? c k = some x := by
        rw [State.walk?, hc, hw, FMap.get_of_mem _ hs]
        simp
      have hfree : s.freeWalk c k = s.modCore c (fun y => { y with sp := { y.sp with walks := pre ++ post } }) := by
        simp only [State.freeWalk, State.modCore, hc, hw, FMap.erase_listed (FMap.lt_of_sorted hs)]
      have hs' : FMap.sorted (pre ++ post) = true := by
        rw [← FMap.erase_listed (FMap.lt_of_sorted hs), FMap.erase_eq_filter hs]
        exact FMap.sorted_filter _ _ hs
      have hy' : FMap.get (s.walkCancel c k).cores c = some { y with sp := { y.sp with walks := pre ++ post } } := by
        rw [walkCancel_partner hx ho, hfree, ← hc]
        exact (FMap.get_set ..).trans (if_pos rfl)
      rw [List.filter_cons_of_pos (p := fun w : Nat × Walk => forOrigin oc os hid w.2) ho, List.foldl_cons,
        ih pre (s.walkCancel c k) hy' rfl hs', walkCancel_partner hx ho, hfree, modCore_linked, modCore_modCore, linked_linked,
        List.filter_cons_of_neg (by simp [ho])]
      rfl
    · have happ : pre ++ (k, x) :: post = (pre ++ [(k, x)]) ++ post := by simp
      rw [List.filter_cons_of_neg (p := fun w : Nat × Walk => forOrigin oc os hid w.2) ho,
        ih (pre ++ [(k, x)]) s hy (hw.trans happ) (happ ▸ hs), List.filter_cons_of_pos (by simp [ho]), List.append_assoc]
      rfl

/-! ### A change of every core (R362) -/

/-- A step that changes the core it is given, and sends messages, over all the cores that are listed. -/
theorem foldl_cores {step : State → Nat × Core → State} {g : Core → Core} {out : Nat × Core → List OutMsg} {P : Core → Prop}
    (hstep : ∀ s c y, FMap.get s.cores c = some y → P y → step s (c, y) = (s.setCore c (g y)).linked (out (c, y)))
    (pre post : FMap Core) (s : State) (hc : s.cores = pre ++ post) (hs : FMap.sorted (pre ++ post) = true)
    (hp : ∀ e ∈ post, P e.2) :
    post.foldl step s =
      ({ s with cores := pre ++ post.map (fun e => (e.1, g e.2)) } : State).linked (post.flatMap out) := by
  induction post generalizing pre s with
  | nil => simp [← hc, linked_nil]
  | cons e post ih =>
    obtain ⟨c, y⟩ := e
    obtain ⟨hy, hpost⟩ := List.forall_mem_cons.mp hp
    have hget : FMap.get s.cores c = some y := by
      rw [hc, FMap.get_of_mem _ hs]
      simp
    have hset : FMap.set (pre ++ (c, y) :: post) c (g y) = (pre ++ [(c, g y)]) ++ post := by
      rw [FMap.set_listed _ (FMap.lt_of_sorted hs)]
      simp
    have hs' : FMap.sorted ((pre ++ [(c, g y)]) ++ post) = true := hset ▸ FMap.sorted_set _ c (g y) hs
    rw [List.foldl_cons, hstep s c y hget hy, ih (pre ++ [(c, g y)]) _ ((congrArg (FMap.set · c (g y)) hc).trans hset) hs' hpost,
      List.append_assoc]
    exact linked_linked { s with cores := pre ++ ([(c, g y)] ++ post.map (fun e => (e.1, g e.2))) } (out (c, y)) (post.flatMap out)

/-- A core without the queued messages of a hand-off. -/
def Core.withoutArrivals (y : Core) (oc os hid : Nat) : Core :=
  { y with sp := { y.sp with arrivals := y.sp.arrivals.filter (fun m => !msgFor m oc os hid) } }

/-- A core without the queued messages and the partner walks of a hand-off. -/
def Core.withoutHandoff (y : Core) (oc os hid : Nat) : Core :=
  { y with sp := { y.sp with
    arrivals := y.sp.arrivals.filter (fun m => !msgFor m oc os hid)
    walks := y.sp.walks.filter (fun w => !forOrigin oc os hid w.2) } }

/-- Taking the walks from a core that the messages have left. -/
theorem modCore_withoutArrivals (s : State) (c oc os hid : Nat) (y : Core) :
    (s.setCore c (y.withoutArrivals oc os hid)).modCore c (fun z => { z with sp := { z.sp with
      walks := y.sp.walks.filter (fun w => !forOrigin oc os hid w.2) } }) = s.setCore c (y.withoutHandoff oc os hid) := by
  simp only [State.modCore, core_setCore, if_true]
  simp only [State.setCore, FMap.set_set]
  rfl

/-- The places of a core's queue that the messages of a hand-off give back. -/
def handoffCredits (oc os hid : Nat) (e : Nat × Core) : List OutMsg :=
  (e.2.sp.arrivals.filter (fun m => msgFor m oc os hid)).map (fun m => OutMsg.credit (m.charged.getD e.1))

theorem dropArrivals_listed {s : State} {c : Nat} {y : Core} (oc os hid : Nat) (hy : FMap.get s.cores c = some y) :
    s.dropArrivals c oc os hid = (s.setCore c (y.withoutArrivals oc os hid)).linked (handoffCredits oc os hid (c, y)) := by
  simp only [State.dropArrivals, State.modCore, core_of_get hy]
  rfl

theorem killMessage_stops {s : State} (oc os hid : Nat) (hs : FMap.sorted s.cores = true) :
    exec (.killMessage oc ⟨os, hid⟩) s = .next
      (({ s with cores := s.cores.map (fun e => (e.1, e.2.withoutHandoff oc os hid)) } : State).linked
        (s.cores.flatMap (handoffCredits oc os hid))) := by
  refine congrArg Host.Outcome.next (foldl_cores (P := fun _ => True) (g := fun y => y.withoutHandoff oc os hid)
    (fun s c y hy _ => ?_) [] s.cores s rfl hs fun _ _ => trivial)
  dsimp only
  rw [dropArrivals_listed oc os hid hy, modCore_linked, ← modCore_withoutArrivals]
  congr 1
  simp only [State.modCore, core_setCore, if_true]
  rfl

theorem cancelMessage_stops {s : State} (oc os hid : Nat) (hs : FMap.sorted s.cores = true)
    (hw : ∀ e ∈ s.cores, FMap.sorted e.2.sp.walks = true) :
    exec (.cancelMessage oc ⟨os, hid⟩) s = .next
      (({ s with cores := s.cores.map (fun e => (e.1, e.2.withoutHandoff oc os hid)) } : State).linked (s.cores.flatMap (fun e =>
        handoffCredits oc os hid e ++
        (e.2.sp.arrivals.filter (fun m => msgFor m oc os hid)).map (fun m => cancelEntry oc os hid m.tag m.emitted 0) ++
        (e.2.sp.walks.filter (fun w => forOrigin oc os hid w.2)).map (fun w =>
          cancelEntry oc os hid w.2.tag w.2.emitted w.2.pc)))) := by
  refine congrArg Host.Outcome.next (foldl_cores (P := fun y => FMap.sorted y.sp.walks = true)
    (g := fun y => y.withoutHandoff oc os hid) (fun s c y hy hys => ?_) [] s.cores s rfl hs hw)
  dsimp only
  rw [dropArrivals_listed oc os hid hy]
  change ((y.sp.walks.filter (fun w => forOrigin oc os hid w.2)).foldl (fun s w => s.walkCancel c w.1)
    ((State.linked _ (handoffCredits oc os hid (c, y))).linked
      ((y.sp.arrivals.filter (fun m => msgFor m oc os hid)).map (fun m => cancelEntry oc os hid m.tag m.emitted 0)))) = _
  have hget := (FMap.get_set s.cores c c (y.withoutArrivals oc os hid)).trans (if_pos rfl)
  rw [linked_linked, foldl_walkCancel (y := y.withoutArrivals oc os hid) [] y.sp.walks _ hget rfl hys, modCore_linked, linked_linked]
  exact congrArg (State.linked · _) (modCore_withoutArrivals s c oc os hid y)

end Machine
end Sys2Proof
end

section
/-! PROOF. The events of the Spindle complete: slots, arrivals, spills and the messages of the pairing link (R172, R173, R193, R213,
R219, R357, R362, R364-R368, R422, R453, R472, R474). -/
namespace Sys2Proof.Machine

/-! ### Walk slots (R357, R365, R472) -/

theorem walkSlotGrant_arrival {s : State} {c k : Nat} {m : HoffMsg} {r : List HoffMsg} (hs : (s.core c).service.closed = false)
    (hk : s.freeWalkSlot c = some k) (ha : (s.core c).sp.arrivals = m :: r) :
    exec (.walkSlotGrant c) s = .next (s.grantArrival c k m) := by
  show execWalkSlotGrant c s = _
  simp only [execWalkSlotGrant, hs, hk, ha, Bool.false_eq_true, if_false]

theorem walkSlotGrant_parked {s : State} {c d : Nat} {m : HoffMsg} {r : List HoffMsg} (hs : (s.core c).service.closed = true)
    (ha : (s.core c).sp.arrivals = m :: r) (hd : s.handoffCore c = some d) (hl : (s.core d).sp.arrivals.length < 16) :
    exec (.walkSlotGrant c) s = .next ((s.modCore c (fun k => { k with sp := { k.sp with arrivals := r } })).modCore d (fun k =>
      { k with sp := { k.sp with arrivals := k.sp.arrivals ++ [{ m with charged := some (m.charged.getD c) }] } })) := by
  show execWalkSlotGrant c s = _
  simp only [execWalkSlotGrant, hs, State.moveArrival, ha, hd, Nat.not_le.mpr hl, if_true, if_false]

/-- The first waiting lane starts its walk, and its `TRAV` waits for the others. -/
theorem grantLane_starts {s t : State} {c w : Nat} {q : TravReq} {left : List TravReq} {fs : List (Nat × Nat × Cause × DWord)}
    {v : Wait} {r : List (Nat × Nat)} (hwant : (s.core c).sp.want = (w, q.lane) :: r) (hv : (s.wave c w).waits = [v])
    (hk : v.kind = .trav (q :: left) fs) (hl : ∀ p ∈ left, p.lane ≠ q.lane)
    (ht : (s.modCore c (fun y => { y with sp := { y.sp with want := r } })).travStart c w q = some t) :
    s.grantLane c = (t.setWait c w v (.trav left fs)).travEnd c w { v with kind := .trav left fs } := by
  have hleft : left.filter (fun p => p.lane != q.lane) = left :=
    List.filter_eq_self.mpr fun p hp => bne_iff_ne.mpr (hl p hp)
  simp [State.grantLane, hwant, hv, hk, hleft, ht]

theorem walkSlotGrant_lane {s : State} {c k : Nat} (hs : (s.core c).service.closed = false) (hk : s.freeWalkSlot c = some k)
    (ha : (s.core c).sp.arrivals = []) : exec (.walkSlotGrant c) s = .next (s.grantLane c) := by
  show execWalkSlotGrant c s = _
  simp only [execWalkSlotGrant, hs, hk, ha, Bool.false_eq_true, if_false]

/-! ### Arrivals of nodes and words (R176, R193, R219) -/

section
variable {s t : State} {c k d f : Nat} {a : DWord} {ws : List DWord} {x : Walk} (hx : s.walk? c k = some x)
include hx

theorem nodeArrival_whole {bs : List Byte} (hw : x.wait = .node d a f ws)
    (hr : s.nodeRead c x.ctx a (nodeSize f ws) 10 x.got x.half = (t, .ok bs, [], [])) :
    let x := { x with got := [], half := [] }
    let r := decodeNode f ws bs a
    let y := match r.2 with
      | some n => { x with n0 := r.1, n1 := n }
      | none => if d = 0 then { x with n0 := r.1 } else { x with n1 := r.1 }
    exec (.nodeArrival c k) s =
      .next ((t.setWalk c k { y with kappa := List.replicate 16 fpInf, order := List.range 16 }).walkNext c k) := by
  show execNodeArrival c k s = _
  simp only [execNodeArrival, State.walkArrive, hx, hw, hr] <;> rfl

theorem nodeArrival_part {got half : List Byte} (hw : x.wait = .node d a f ws)
    (hr : s.nodeRead c x.ctx a (nodeSize f ws) 10 x.got x.half = (t, .wait, got, half)) :
    exec (.nodeArrival c k) s = .next (t.setWalk c k { x with got := got, half := half }) := by
  show execNodeArrival c k s = _
  simp only [execNodeArrival, State.walkArrive, hx, hw, hr]

theorem nodeArrival_word {bs : List Byte} (hw : x.wait = .ldq d a 1) (hr : s.walkRead .node c x.ctx 3 a 4 = (t, .ok bs)) :
    exec (.nodeArrival c k) s = .next ((t.setWalk c k (x.setQ d (BitVec.ofNat 32 (leWord (bs.take 4))))).walkNext c k) := by
  show execNodeArrival c k s = _
  simp only [execNodeArrival, State.walkArrive, hx, hw, Nat.mul_one, hr]
  rfl

/-! ### The spill area (R172, R173, R364) -/

theorem stackSpill_lowest {w left : List Word} {v : Word} (hc : x.chip = w ++ [v]) (hw : x.wait = .spill left)
    (hf : s.vaWaits (.core c) x.ctx (x.spill + BitVec.ofNat 64 (4 * x.spilled)) false 4 = false)
    (ha : s.vaAccess (.core c) x.ctx (x.spill + BitVec.ofNat 64 (4 * x.spilled)) .atomic (leBytes 4 v.toNat) = (t, none)) :
    let y := { x with
      chip := w, spilled := x.spilled + 1, under := v :: x.under, area := t.areaLine c x.ctx x.spill }.pushWords left
    let u := t.setWalk c k y
    exec (.stackSpill c k) s = .next (if y.wait = .ready then u.walkNext c k else u) := by
  have hrev : x.chip.reverse = v :: w.reverse := by rw [hc, List.reverse_concat]
  show execStackSpill c k s = _
  simp only [execStackSpill, State.walkSpill, hx, hw, hrev, hf, ha, List.reverse_reverse, beq_iff_eq, Bool.false_eq_true, if_false]

theorem stackFill_last {w : Word} {r : List Word} {p : Place} {bs : List Byte} (hl : x.chip.length < 8) (hn : x.finished = false)
    (hu : x.under = w :: r) (hf : s.vaWaits (.core c) x.ctx (x.spill + BitVec.ofNat 64 (4 * (x.spilled - 1))) true 4 = false)
    (hp : s.place (.core c) x.ctx (x.spill + BitVec.ofNat 64 (4 * (x.spilled - 1))) .atomic = (t, .ok p))
    (hh : (isHost p.key && !t.hostUp) = false) (hfar : t.farFault p.key = none) (hb : t.stored p.key 4 = some bs) :
    exec (.stackFill c k) s = .next (({ t.l2Use p.key 4 p.cpol with freeCount := t.freeCount + 1 } : State).setWalk c k { x with
      chip := x.chip ++ [if Config.spillKept t.freeCount = true then w else BitVec.ofNat 32 (leWord bs)]
      spilled := x.spilled - 1
      under := r
      wait := if x.wait = .fill then .ready else x.wait }) := by
  have hroom : ¬ (8 ≤ x.chip.length ∨ x.finished = true) := by simp [hn, hl]
  show execStackFill c k s = _
  simp only [execStackFill, State.walkFill, hx, hroom, hu, hf, hp, hh, hfar, hb, Option.isSome_none, State.spilledWord, beq_iff_eq,
    Bool.false_eq_true, if_false]

end

/-! ### Messages for the partner's walks (R365, R422) -/

theorem handoffArrival_refused {s : State} {m : HoffMsg} {c : Nat} (hp : s.ports.any id = true)
    (hc : s.handoffCore m.originCore = some c) (ha : s.accepts m.ctx m.partnerCtx = false) : exec (.handoffArrival m) s =
      .next { s with outbox := s.outbox ++ [OutMsg.refuse m.originCore m.originSlot m.hid, OutMsg.credit c] } := by
  show execHandoffArrival m s = _
  simp only [execHandoffArrival, hp, hc, ha, Bool.not_true, Bool.not_false, Bool.false_eq_true, if_true, if_false]

theorem handoffArrival_queued {s : State} {m : HoffMsg} {c : Nat} (hp : s.ports.any id = true)
    (hc : s.handoffCore m.originCore = some c) (ha : s.accepts m.ctx m.partnerCtx = true)
    (hl : (s.core c).sp.arrivals.length < 16) : exec (.handoffArrival m) s =
      .next (s.modCore c (fun k => { k with sp := { k.sp with arrivals := k.sp.arrivals ++ [{ m with charged := none }] } })) := by
  show execHandoffArrival m s = _
  simp only [execHandoffArrival, hp, hc, ha, Nat.not_le.mpr hl, Bool.not_true, Bool.false_eq_true, if_false]

/-! ### Messages for our own walks (R213, R366) -/

/-- The status of a completion entry is its byte 4 (R188). -/
theorem entryStatus_ne_zero (v : Nat) : (nth (leBytes 16 v) 4 0 != 0) = !decide (v / 2 ^ 32 % 256 = 0) := by
  have hb : nth (leBytes 16 v) 4 0 = BitVec.ofNat 8 (v / 2 ^ 32) := by
    simp [leBytes, nth, Nat.div_div_eq_div_mul]
  have hz : BitVec.ofNat 8 (v / 2 ^ 32) = 0 ↔ v / 2 ^ 32 % 256 = 0 := by
    rw [← BitVec.toNat_inj, BitVec.toNat_ofNat]
    rfl
  rw [hb, bne, beq_eq_decide, decide_eq_decide.mpr hz]

section
variable {s : State} {c k : Nat} {x : Walk} {p : DWord} {n : Nat} (hx : s.walk? c k = some x) (hw : x.wait = .handoff p n false)
include hx hw

theorem away?_handed : s.away? c ⟨k, x.hid⟩ = some (x, p) := by
  simp only [State.away?, hx, hw, Option.bind_some, if_true]

section
variable (hn : x.cancelled = false)
include hn

theorem handoffReturn_resumes (r : HoffRet) : exec (.handoffReturn c ⟨k, x.hid⟩ r) s = .next ((s.setWalk c k
    { x with q := r.q, m := r.m, emitted := r.emitted, topk := r.topk, cf := true }).walkNext c k) := by
  show execHandoffReturn c ⟨k, x.hid⟩ r s = _
  simp only [execHandoffReturn, away?_handed hx hw, hn, Bool.false_eq_true, if_false]

theorem handoffRefusal_faults : exec (.handoffRefusal c ⟨k, x.hid⟩) s = .next (s.walkFault c k 6 p) := by
  show execHandoffRefusal c ⟨k, x.hid⟩ s = _
  simp only [execHandoffRefusal, away?_handed hx hw, hn, Bool.false_eq_true, if_false]

end

/-- An entry of the partner walk that finds room goes to the queue; a terminal one ends the walk. -/
theorem partnerEntry_room (hn : x.cancelled = false) (e : BitVec 128) (pc : Nat) {t : State}
    (ht : s.cqWrite x.team c x.cq (leBytes 16 e.toNat) = some t) :
    let u := t.modWalk c k (fun y => { y with emitted := y.emitted + 1 })
    exec (.partnerEntryArrival c ⟨k, x.hid⟩ ⟨[e], pc⟩) s = .next (if e.toNat / 2 ^ 32 % 256 = 0 then u else u.freeWalk c k) := by
  have hroom : ¬ ((s.team x.team).cqd ≤ ((s.team x.team).cq c x.cq).count ∨ s.cqHeld x.team c x.cq 1 = true) := fun h => by
    rw [State.cqWrite, if_pos h] at ht
    cases ht
  obtain ⟨hd, hh⟩ := not_or.mp hroom
  have hone : ¬ (s.team x.team).cqd < [e].length := by simp; omega
  have hfull : ¬ ((s.team x.team).cqd < ((s.team x.team).cq c x.cq).count + [e].length ∨
      s.cqHeld x.team c x.cq [e].length = true) := by
    rintro (h | h)
    · simp at h; omega
    · exact hh h
  show execPartnerEntryArrival c ⟨k, x.hid⟩ ⟨[e], pc⟩ s = _
  simp only [execPartnerEntryArrival, away?_handed hx hw, hn, Bool.and_false, Bool.false_eq_true, if_false, if_neg hone, if_neg hfull,
    State.partnerEntries, ht, List.any_cons, List.any_nil, Bool.or_false, entryStatus_ne_zero, Bool.not_eq_true',
    decide_eq_false_iff_not, ite_not]

section
variable {es : List (BitVec 128)} (pc : Nat) (he : ∀ e ∈ es, e.toNat / 2 ^ 32 % 256 = 0)
include he

omit hx hw in
theorem no_terminal : es.any (fun e => nth (leBytes 16 e.toNat) 4 0 != 0) = false :=
  List.any_eq_false.mpr fun e hm => by rw [entryStatus_ne_zero, he e hm]; decide

theorem partnerEntries_tooMany (hn : x.cancelled = false) (hl : (s.team x.team).cqd < es.length) :
    exec (.partnerEntryArrival c ⟨k, x.hid⟩ ⟨es, pc⟩) s = .next
      (({ s with outbox := s.outbox ++ [OutMsg.kill c k x.hid] }.setWalk c k { x with pc := pc, wait := .ready }).walkIllegal c k 3) := by
  show execPartnerEntryArrival c ⟨k, x.hid⟩ ⟨es, pc⟩ s = _
  simp only [execPartnerEntryArrival, away?_handed hx hw, no_terminal he, hn, if_pos hl, Bool.and_false, Bool.false_eq_true, if_false]

theorem partnerEntries_wait (hn : x.cancelled = false) (hl : es.length ≤ (s.team x.team).cqd)
    (hf : (s.team x.team).cqd < ((s.team x.team).cq c x.cq).count + es.length) :
    exec (.partnerEntryArrival c ⟨k, x.hid⟩ ⟨es, pc⟩) s = .next s := by
  show execPartnerEntryArrival c ⟨k, x.hid⟩ ⟨es, pc⟩ s = _
  simp only [execPartnerEntryArrival, away?_handed hx hw, no_terminal he, hn, if_neg (Nat.not_lt.mpr hl), hf, true_or, if_true,
    Bool.and_false, Bool.false_eq_true, if_false]

end

end

/-! ### Requests of the partner (R421-R423, R453, R474) -/

section
variable {s : State} {ctx target : Nat} (hp : s.ports.any id = true)
include hp

theorem partnerRequest_serves (req : PartnerReq) :
    exec (.partnerRequest ctx target req) s = .next (s.partnerServe ctx target req) := by
  show execPartnerRequest ctx target req s = _
  simp only [execPartnerRequest, hp, Bool.not_true, Bool.false_eq_true, if_false]

end

/-- An atomic of the partner that reaches its home writes there and answers with what stood there. -/
theorem partnerAtomic_done {s t : State} {ctx n : Nat} {va : DWord} {p : Place} {old : List Byte} (f : List Byte → List Byte)
    (hp : s.place .device ctx va .atomic = (t, .ok p)) (hh : (isHost p.key && !t.hostUp) = false)
    (ho : t.homeRead p.key n = some old) :
    s.partnerAtomic ctx va n f = (((t.homeWrite p.key (f old)).1).l2Use p.key n p.cpol).partnerReply old := by
  simp only [State.partnerAtomic, hp, hh, ho, Bool.false_eq_true, if_false]

section
variable {s : State} {ctx target : Nat} (ha : s.accepts ctx target = true)
include ha

/-- An accepted request whose access waits comes again. -/
theorem partnerServe_waits {req : PartnerReq}
    (hv : s.vaWaits .device target (partnerSpan req).1 (partnerSpan req).2.1 (partnerSpan req).2.2 = true) :
    s.partnerServe ctx target req = { s with outside := s.outside ++ [.partner ctx target req] } := by
  simp only [State.partnerServe, ha, hv, Bool.not_true, Bool.false_eq_true, if_false, if_true]

theorem partnerServe_read {va : DWord} {n : Nat} {t : State} {bs : List Byte} (hv : s.vaWaits .device target va true n = false)
    (hr : s.vaRead .device target va n = (t, .ok bs)) : s.partnerServe ctx target (.read va n) = t.partnerData target va bs := by
  simp only [State.partnerServe, ha, partnerSpan, hv, hr, Bool.not_true, Bool.false_eq_true, if_false]

theorem partnerServe_write {va : DWord} {bs : List Byte} {t : State} (hv : s.vaWaits .device target va false bs.length = false)
    (hw : s.vaWrite .device target va bs = (t, none)) : s.partnerServe ctx target (.write va bs) = t.partnerReply [] := by
  simp only [State.partnerServe, ha, partnerSpan, hv, hw, Bool.not_true, Bool.false_eq_true, if_false]

theorem partnerServe_atomic {va : DWord} {op : BitVec 4} {v cmp : DWord} {t : State} {p : Place} {old : List Byte}
    (hv : s.vaWaits .device target va true 4 = false) (hp : s.place .device target va .atomic = (t, .ok p))
    (hh : (isHost p.key && !t.hostUp) = false) (ho : t.homeRead p.key 4 = some old) (hop : op.toNat ≠ 15) :
    s.partnerServe ctx target (.atomic va false op v cmp) = ((t.homeWrite p.key (leBytes 4
      (atomicNew op.toNat 32 (leWord old) (v.toNat % 2 ^ 32) (v.toNat % 2 ^ 32)))).1.l2Use p.key 4 p.cpol).partnerReply old := by
  simp only [State.partnerServe, ha, partnerSpan, hv, Bool.not_true, Bool.false_eq_true, if_false]
  rw [partnerAtomic_done _ hp hh ho, beq_false_of_ne hop]
  rfl

theorem partnerServe_cas128 {va : DWord} {cmp new : BitVec 128} {t : State} {p : Place} {old : List Byte}
    (hv : s.vaWaits .device target va true 16 = false) (hp : s.place .device target va .atomic = (t, .ok p))
    (hh : (isHost p.key && !t.hostUp) = false) (ho : t.homeRead p.key 16 = some old) :
    s.partnerServe ctx target (.cas128 va cmp new) = ((t.homeWrite p.key
      (if leWord old = cmp.toNat then leBytes 16 new.toNat else old)).1.l2Use p.key 16 p.cpol).partnerReply old := by
  simp only [State.partnerServe, ha, partnerSpan, hv, Bool.not_true, Bool.false_eq_true, if_false]
  exact partnerAtomic_done _ hp hh ho

end

/-- Settles O48: each event, on its condition, takes the effect that the lemma about it states. -/
theorem spindleEventsComplete : Obligations.SpindleEventsComplete := by
  refine ⟨fun s c k m r hs hk ha => walkSlotGrant_arrival hs hk ha, fun s c d m r hs ha hd hl => walkSlotGrant_parked hs ha hd hl,
    fun s t c k w q left fs v r hs hk ha hwant hv hkind hl ht =>
      (walkSlotGrant_lane hs hk ha).trans (congrArg Host.Outcome.next (grantLane_starts hwant hv hkind hl ht)),
    fun s t c k d f a ws x bs hx hw hr => nodeArrival_whole hx hw hr,
    fun s t c k d f a ws x got half hx hw hr => nodeArrival_part hx hw hr,
    fun s t c k d a x bs hx hw hr => nodeArrival_word hx hw hr,
    fun s t c k x a left v hx hc hw hf ha => stackSpill_lowest hx hc hw hf ha,
    fun s t c k x w r p bs hx hl hn hu hf hp hh hfar hb => stackFill_last hx hl hn hu hf hp hh hfar hb,
    fun s m c hp hc => ⟨handoffArrival_refused hp hc, handoffArrival_queued hp hc⟩, ?own, ?credit, ?stop,
    fun s es => show execPartnerPairingChange es s = _ from rfl, ?requests⟩
  case own =>
    rintro s c k x p hx ⟨e, hw⟩ hn
    exact ⟨handoffReturn_resumes hx hw hn, fun e pc t ht => partnerEntry_room hx hw hn e pc ht,
      fun es pc he => ⟨partnerEntries_tooMany hx hw pc he hn, partnerEntries_wait hx hw pc he hn⟩, handoffRefusal_faults hx hw hn⟩
  case credit =>
    intro s d t
    refine ⟨fun hnone => ?_, fun c k hheld => ?_⟩
    all_goals
      have ht : t.heldHandoff d = s.heldHandoff d := rfl
      show execHandoffCredit d s = _
    · simp only [execHandoffCredit, t] at ht ⊢
      rw [ht, hnone]
    · simp only [execHandoffCredit, t] at ht ⊢
      rw [ht, hheld]
  case stop =>
    exact fun s oc os hid hs hw => ⟨cancelMessage_stops oc os hid hs hw, killMessage_stops oc os hid hs⟩
  case requests =>
    intro s ctx target hp ha
    refine ⟨fun va n t bs hv hr => ?_, fun va bs t hv hw => ?_, fun va op v cmp t p old hv hpl hh ho hop => ?_,
      fun va cmp new t p old hv hpl hh ho => ?_, fun req hv => ?_⟩
    all_goals refine (partnerRequest_serves hp _).trans (congrArg Host.Outcome.next ?_)
    · exact partnerServe_read ha hv hr
    · exact partnerServe_write ha hv hw
    · exact partnerServe_atomic ha hv hpl hh ho hop
    · exact partnerServe_cas128 ha hv hpl hh ho
    · exact partnerServe_waits ha hv

end Sys2Proof.Machine
end

section
/-! PROOF. Writes at a home, accesses to a core's own Bench, and the events that perform the lanes of an operation (R224-R227, R234,
R298, R300, R301, R469). -/
namespace Sys2Proof.Machine

/-! ### Writes at a home (R234, R298, R469) -/

/-- The lines of a span start at the multiples of 256 whose bytes meet it. -/
theorem mem_linesOf {k n l : Nat} : l ∈ linesOf k n ↔ l % 256 = 0 ∧ l < k + n ∧ k < l + 256 := by
  simp only [linesOf, List.mem_map, List.mem_range]
  constructor
  · rintro ⟨i, hi, rfl⟩
    omega
  · rintro ⟨hl, hn, hk⟩
    exact ⟨l / 256 - k / 256, by omega, by omega⟩

/-- No line of a span is POISON in part of it alone when each POISON line lies in it whole. -/
theorem partPoison_eq_false_iff (s : State) (k n : Nat) :
    ((linesOf k n).filter s.poisoned).any (fun p => decide (p < k) || decide (k + n < p + 256)) = false ↔
      ∀ l ∈ linesOf k n, s.poisoned l = true → k ≤ l ∧ l + 256 ≤ k + n := by
  simp only [List.any_eq_false, List.mem_filter, Bool.or_eq_true, decide_eq_true_eq, not_or, Nat.not_lt, and_imp]

/-- A write is done to Bench; elsewhere it is done when no channel of its lines failed its training and it writes each POISON line
whole. -/
theorem homeWrite_done_iff (s : State) (k : Nat) (bs : List Byte) :
    (s.homeWrite k bs).2 = true ↔ isBench k = true ∨
      ((isLocal k = true → s.badSpan k bs.length = false) ∧
        ∀ l ∈ linesOf k bs.length, s.poisoned l = true → k ≤ l ∧ l + 256 ≤ k + bs.length) := by
  rw [← partPoison_eq_false_iff]
  unfold State.homeWrite
  dsimp only
  generalize ((linesOf k bs.length).filter s.poisoned).any (fun p => decide (p < k) || decide (k + bs.length < p + 256)) = part
  cases hl : isLocal k with
  | true => cases part <;> cases s.badSpan k bs.length <;> simp [isBench_of_local hl]
  | false => cases isBench k <;> cases part <;> simp

/-- Settles O30: memory from what a write stores, and the four conditions from when it is done. -/
theorem homeWriteFrame : Obligations.HomeWriteFrame := by
  intro s k bs hm
  refine ⟨?bytes, ?dropped, homeWrite_memOk s k bs hm, ?told⟩
  case bytes =>
    intro hdone a
    rcases homeWrite_mem s k bs with ⟨e, -⟩ | ⟨-, e⟩
    · simp [e] at hdone
    · rw [e, Memory.read_writeBytes _ _ _ _ hm]
  case dropped =>
    intro hdrop
    rcases homeWrite_mem s k bs with ⟨e, -⟩ | ⟨hdone, -⟩
    · rw [e]
    · simp [hdone] at hdrop
  case told =>
    intro whole meets
    simp only [← Bool.not_eq_true, homeWrite_done_iff]
    refine ⟨.inl, fun l hb hmeets hp hpart => ?poison, fun hl hbad => ?failed,
      fun hok hwhole => .inr ⟨hok, fun l hmem => hwhole l (mem_linesOf.mp hmem)⟩⟩
    case poison =>
      rintro (hbench | ⟨-, hwhole⟩)
      · exact hb hbench
      · exact hpart (hwhole l (mem_linesOf.mpr hmeets) hp)
    case failed =>
      rintro (hbench | ⟨hok, -⟩)
      · simp [isBench_of_local hl] at hbench
      · exact hok hl hbad

/-! ### Bench accesses of a lane (R226, R298, R300) -/

section
variable {s : State} {o : Op} {a : LaneAcc} (c t ctx : Nat) (hb : isBench a.key = true)
include hb

theorem readLane_bench (hq : o.acq = false) {bs : List Byte} (hr : s.homeRead a.key o.size = some bs) :
    s.readLane c t ctx o a = (s, .got bs) := by
  simp only [State.readLane, hb, hr, hq, if_true, Bool.false_eq_true, if_false]

theorem storeLane_bench (hl : o.rel = false) :
    s.storeLane c t ctx o a = ((s.homeWrite a.key a.data).1.writeKills c a.key a.data.length, .got []) := by
  simp only [State.storeLane, State.relWaits, hb, hl, Bool.false_and, if_true, Bool.false_eq_true, if_false]

theorem atomicLane_bench (hq : o.acq = false) (hl : o.rel = false) {old : List Byte} (hr : s.homeRead a.key o.size = some old) :
    s.atomicLane c t ctx o a = ((s.homeWrite a.key (atomicBytes o a old)).1.writeKills c a.key o.size, .got old) := by
  simp only [State.atomicLane, State.relWaits, hb, hr, hq, hl, Bool.false_and, if_true, Bool.false_eq_true, if_false]

end

/-- Settles O29: what each of the three accesses does on Bench. -/
theorem benchAccessEffect : Obligations.BenchAccessEffect := fun _ c t ctx _ _ hb =>
  ⟨fun hq _ hr => readLane_bench c t ctx hb hq hr, fun hl => storeLane_bench c t ctx hb hl,
    fun hq hl _ hr => atomicLane_bench c t ctx hb hq hl hr⟩

/-! ### Events of operations (R224-R227, R298, R301) -/

/-- An access that is the only one left is performed with no other. -/
theorem closure_only {o : Op} {a : LaneAcc} (hl : o.left = [a]) (n : Nat) : o.closure (n + 1) [a] = [a] := by
  simp [Op.closure, hl]

theorem laneBit_getLsbD_self {l : Nat} (h : l < 32) : (laneBit l).getLsbD l = true := by
  rw [laneBit, BitVec.getLsbD_ofNat, Nat.testBit_two_pow_self, decide_eq_true h, Bool.true_and]

/-- The one lane that is left and ready is performed and noted, and its operation ends. -/
theorem performLanes_only {s : State} {c : Nat} {o : Op} {a : LaneAcc} (hl : o.left = [a]) (ha : a.lane < 32)
    (hr : s.memReady c o a = true) :
    s.performLanes c o (laneBit a.lane) =
      ((s.performLane c o a).1.modOp c o.id (fun p => p.note a (s.performLane c o a).2)).finishIfDone c o.id := by
  simp [State.performLanes, hl, closure_only hl, laneBit_getLsbD_self ha, hr]

section
variable {s : State} {c id : Nat} {o : Op} (m : Mask) (h : (s.core c).ops.find? (fun e => e.id == id) = some o)
include h

theorem loadCompletion_load (hk : o.kind = .load) : exec (.loadCompletion c id m) s = .next (s.performLanes c o m) := by
  refine (show execLoadCompletion c id m s = _ from memEvent_found h _).trans ?_
  simp [hk]

theorem loadCompletion_prefetch (hk : o.kind = .prefetch) :
    exec (.loadCompletion c id m) s = .next (s.prefetchLanes c o m) := by
  refine (show execLoadCompletion c id m s = _ from memEvent_found h _).trans ?_
  simp [hk]

theorem storeWritePerform_performs (hk : o.kind = .store) (hr : o.remote = false) :
    exec (.storeWritePerform c id m) s = .next (s.performLanes c o m) := by
  refine (show execStoreWritePerform c id m s = _ from memEvent_found h _).trans ?_
  simp [hk, hr]

theorem atomicCompletion_performs (hk : o.kind = .atomic ∨ o.kind = .cas128) (hr : o.remote = false) :
    exec (.atomicCompletion c id m) s = .next (s.performLanes c o m) := by
  refine (show execAtomicCompletion c id m s = _ from memEvent_found h _).trans ?_
  simp [hk, hr]

theorem remoteBenchArrival_performs (hr : o.remote = true) :
    exec (.remoteBenchArrival c id m) s = .next (s.performLanes c o m) := by
  refine (show execRemoteBenchArrival c id m s = _ from memEvent_found h _).trans ?_
  simp [hr]

end

/-- Settles O28: each event performs its lanes, and one ready lane that is left ends its operation. -/
theorem accessEventsComplete : Obligations.AccessEventsComplete := fun _ _ _ m _ h =>
  ⟨loadCompletion_load m h, loadCompletion_prefetch m h, storeWritePerform_performs m h, atomicCompletion_performs m h,
    remoteBenchArrival_performs m h, fun _ hl ha hr => performLanes_only hl ha hr⟩

end Sys2Proof.Machine
end

section
/-! PROOF. `FNC` and `PFCH` put their operations in flight (R250, R296, R304). -/
namespace Sys2Proof.Machine

/-- Settles O27: the body of `FNC` has nothing to check; that of `PFCH` passes its two tests, for a predicate that is still to be
written and for a translation that has yet to answer, and ends at once when no lane is left to fetch. -/
theorem fencePrefetchComplete : Obligations.FencePrefetchComplete := by
  refine ⟨fun _ sc s _ _ _ hi => retires_of_body hi (show exec _ s = execFnc _ sc s from rfl) rfl rfl,
    fun o s s0 x act vs hi => ?_⟩
  intro opds hok hvs hp eas ht r accs e t
  refine retires_of_body hi (show exec _ s = execPfch o s from rfl) rfl ?_
  have hpred : ¬ (decide (dclsOf o .none = .pred) && (s0.pendingPreds x).contains o.d.toNat) = true := by
    simpa using hp
  have hwaits : ¬ eas.any (fun e => s0.transWaits (.core x.c) x.ctx e.2.1) = true :=
    Bool.eq_false_iff.1 (List.any_eq_false.2 fun e he => Bool.eq_false_iff.1 (ht e he))
  simp only [prefetchBody, opds, hok, hvs]
  refine (if_neg hpred).trans ((if_neg hwaits).trans ?_)
  simp only [List.isEmpty_iff]
  rfl

end Sys2Proof.Machine
end

section
/-! PROOF. The address of a lane (R288), and what an integer atomic stores (R300). -/
namespace Sys2Proof.Machine

/-- The integer that the bits of a word stand for is the word's. -/
theorem intOf_toNat {w : Nat} (x : BitVec w) : intOf x.toNat w true = x.toInt := by
  cases w with
  | zero => simp [intOf, BitVec.of_length_zero]
  | succ n =>
    have hx : x.toNat % (2 ^ n * 2) = x.toNat := Nat.mod_eq_of_lt (by simpa only [Nat.pow_succ] using x.isLt)
    simp only [intOf, hx, Nat.add_sub_cancel, true_and, BitVec.toInt_eq_toNat_cond, Nat.pow_succ]
    push_cast
    split_ifs <;> omega

/-! ### The address of a lane (R288) -/

/-- Scaling a word scales the integer that it stands for. -/
theorem ofNat_toNat_mul {w : Nat} (x : BitVec w) (k : Nat) : BitVec.ofNat w (x.toNat * k) = BitVec.ofInt w (x.toInt * k) := by
  rw [BitVec.ofNat_mul, BitVec.ofInt_mul, BitVec.ofInt_natCast, BitVec.ofInt_toInt, BitVec.ofNat_toNat, BitVec.setWidth_eq]

/-- An address without a bound check is the sum of base, scaled index and offset. -/
theorem memEa_unchecked {o : Opnds} (hb : o.cb ≠ .none) (hc : memChk o = false) {idx : Nat} (hi : idx < 2 ^ 32) (size base : Nat) :
    memEa o false size base idx =
      BitVec.ofInt 64 ((base : Int) + intOf idx 32 true * 2 ^ memScale o size + o.imm.toInt) := by
  have hidx : intOf idx 32 true = ((BitVec.ofNat 32 idx).signExtend 64).toInt := by
    rw [BitVec.toInt_signExtend_of_le (by omega), ← intOf_toNat, BitVec.toNat_ofNat, Nat.mod_eq_of_lt hi]
  simp only [memEa, if_neg hb, hc, Bool.false_eq_true, if_false, hidx, ofNat_toNat_mul, BitVec.ofInt_add, BitVec.ofInt_natCast,
    Nat.cast_pow, Nat.cast_ofNat]
  rfl

/-- On Bench an address keeps its low word. -/
theorem toNat_memEa_narrow (o : Opnds) (size base idx : Nat) :
    (memEa o true size base idx).toNat = (memEa o false size base idx).toNat % 2 ^ 32 := by
  rw [← toNat_loWord]
  exact BitVec.toNat_setWidth_of_le (b := loWord (memEa o false size base idx)) (by decide)

/-- The low `m` bits of an integer's low `n` bits. -/
theorem toNat_emod_mod_two_pow (z : Int) {m n : Nat} (h : m ≤ n) : (z % 2 ^ n).toNat % 2 ^ m = (z % 2 ^ m).toNat := by
  zify
  rw [Int.toNat_of_nonneg (Int.emod_nonneg _ (by positivity)), Int.toNat_of_nonneg (Int.emod_nonneg _ (by positivity)),
    Int.emod_emod_of_dvd _ (pow_dvd_pow 2 h)]

/-- Settles O26: the address is a sum of words, and that of Bench its low word. -/
theorem laneAddress : Obligations.LaneAddress := by
  intro o size base idx hb hc hi
  have hwide : (memEa o false size base idx).toNat =
      (((base : Int) + intOf idx 32 true * 2 ^ memScale o size + o.imm.toInt) % 2 ^ 64).toNat := by
    rw [memEa_unchecked hb hc hi, BitVec.toNat_ofInt]
    rfl
  refine ⟨hwide, ?_⟩
  rw [toNat_memEa_narrow, hwide, toNat_emod_mod_two_pow _ (by omega)]

/-! ### What an integer atomic stores (R300) -/

section
variable (old v w : BitVec 32)

theorem atomicNew_add : atomicNew 0 32 old.toNat v.toNat w.toNat = (old + v).toNat := (BitVec.toNat_add old v).symm

theorem atomicNew_sub : atomicNew 1 32 old.toNat v.toNat w.toNat = (old - v).toNat := by
  simp only [atomicNew, BitVec.toNat_sub]
  have := v.isLt
  congr 1
  omega

theorem atomicNew_smin : atomicNew 2 32 old.toNat v.toNat w.toNat = (if v.slt old then v else old).toNat := by
  show (if intOf old.toNat 32 true ≤ intOf v.toNat 32 true then old.toNat else v.toNat) = _
  simp only [intOf_toNat, BitVec.slt_iff_toInt_lt]
  split <;> split <;> omega

theorem atomicNew_smax : atomicNew 3 32 old.toNat v.toNat w.toNat = (if old.slt v then v else old).toNat := by
  show (if intOf v.toNat 32 true ≤ intOf old.toNat 32 true then old.toNat else v.toNat) = _
  simp only [intOf_toNat, BitVec.slt_iff_toInt_lt]
  split <;> split <;> omega

theorem atomicNew_umin : atomicNew 4 32 old.toNat v.toNat w.toNat = (if v < old then v else old).toNat := by
  show min old.toNat v.toNat = _
  simp only [BitVec.lt_def]
  split <;> omega

theorem atomicNew_umax : atomicNew 5 32 old.toNat v.toNat w.toNat = (if old < v then v else old).toNat := by
  show max old.toNat v.toNat = _
  simp only [BitVec.lt_def]
  split <;> omega

/-- `.INC` counts up to its bound and wraps to 0. -/
theorem atomicNew_inc : atomicNew 10 32 old.toNat v.toNat w.toNat = (if v ≤ old then 0 else old + 1).toNat := by
  show (if v.toNat ≤ old.toNat then 0 else (old.toNat + 1) % 2 ^ 32) = _
  simp only [BitVec.le_def, apply_ite BitVec.toNat, BitVec.toNat_add]
  rfl

/-- `.DEC` counts down from its bound and wraps to it. -/
theorem atomicNew_dec : atomicNew 11 32 old.toNat v.toNat w.toNat = (if old = 0 ∨ v < old then v else old - 1).toNat := by
  show (if old.toNat = 0 ∨ v.toNat < old.toNat then v.toNat else old.toNat - 1) = _
  have hzero : old = 0 ↔ old.toNat = 0 := BitVec.toNat_inj.symm
  simp only [BitVec.lt_def, hzero]
  split <;> bv_omega

theorem atomicNew_cas : atomicNew 15 32 old.toNat v.toNat w.toNat = (if old = v then w else old).toNat := by
  show (if old.toNat = v.toNat then w.toNat else old.toNat) = _
  simp only [BitVec.toNat_inj, apply_ite BitVec.toNat]

end

/-- Settles O31: each operation on the operands' naturals is the operation on words. -/
theorem atomicValues : Obligations.AtomicValues := fun old v w =>
  ⟨atomicNew_add old v w, atomicNew_sub old v w, atomicNew_smin old v w, atomicNew_smax old v w, atomicNew_umin old v w,
    atomicNew_umax old v w, (BitVec.toNat_and old v).symm, (BitVec.toNat_or old v).symm, (BitVec.toNat_xor old v).symm, rfl,
    atomicNew_inc old v w, atomicNew_dec old v w, atomicNew_cas old v w⟩

end Sys2Proof.Machine
end

section
/-! PROOF. LOAD, STORE and ATOM instructions start their accesses (R286-R303). -/
namespace Sys2Proof.Machine

/-- An instruction whose body has to wait leaves its bundle waiting. -/
theorem waits_of_body {i : Instr} {s s0 : State} {o : Opnds} {pfx : Bool} {x : Iss} {act : Mask} {dflt : DCls} {more : List Nat}
    {pre : Iss → Option Stop} {body : State → Iss → Mask → Except Stop Fx} {t : State} {k : WaitKind}
    (hi : Issues s o pfx s0 x act dflt more) (he : exec i s = simt s o pfx pre body dflt more) (hp : pre x = none)
    (hb : body s0 x act = .error (.wait t k)) : Waits i s s0 x act o t k :=
  fun ht => he.trans ((simt_issues hi pre hp body).trans (by rw [hb, finish_wait s0 x act o pfx t k ht]))

/-! ### What the body of a form works on (R288, R291, R297, R299) -/

/-- The operands of a form: the base, the index and the data. -/
def MemForm.opds (f : MemForm) (o : Opnds) : List Opd :=
  [{ fieldA o (if f.bench || f.remote then 1 else 2) with field := true }, { fieldB o with field := true }] ++ f.data

/-- The lanes of a form with their addresses and whether their indices break the bound. -/
def MemForm.eas (f : MemForm) (o : Opnds) (act : Mask) (vs : List Src) : List (Nat × DWord × Bool) :=
  (if f.once then [(lowest act).getD 0] else lanesOf act).map (fun l =>
    (l, memEa o (f.bench || f.remote) f.size (srcAt vs 0 l) (srcAt vs 1 l), memBound o (srcAt vs 1 l)))

/-- The key under which the reuse table may hold the result of a form. -/
def MemForm.key (f : MemForm) (o : Opnds) (op : Iss → List Nat) (x : Iss) (act : Mask) (vs : List Src) (ns : List Nat) :
    Option (List Nat) :=
  if f.reuse && f.dst == .vec && !vs.any (·.dyn) then
    some (reuseKey x act (op x ++ [o.imm.toNat] ++ (if f.bench then [x.src.team] else [])) vs none ns) else none

/-- The accesses of placed lanes with their data. -/
def MemForm.accs (f : MemForm) (vs : List Src) (placed : List LaneAcc) : List LaneAcc :=
  placed.map (fun a => { a with
    data := leBytes f.size (srcAt vs 2 a.lane)
    data2 := leBytes f.size (srcAt vs 2 a.lane / 2 ^ (8 * f.size)) })

/-- The lanes that take results. -/
def MemForm.took (f : MemForm) (act : Mask) (accs : List LaneAcc) : Mask :=
  if f.once then act else maskOf (fun l => (accs.map (·.lane)).contains l)

/-- Data leaves the lanes of accesses and their addresses. -/
theorem MemForm.accs_lanes (f : MemForm) (vs : List Src) (placed : List LaneAcc) :
    (f.accs vs placed).map (fun a => (a.lane, a.va)) = placed.map (fun a => (a.lane, a.va)) := by
  simp only [MemForm.accs, List.map_map, Function.comp_def]

section
variable {o : Opnds} {f : MemForm} {op : Iss → List Nat} {s : State} {x : Iss} {act : Mask} {vs : List Src} {ns : List Nat}

/-! ### The reuse table or the accesses (R277) -/

section
variable (hact : act ≠ 0) (hok : x.namesOk act (f.opds o ++ (if f.dst = .vec then [dstOpd o f.n] else [])) = .ok ())
  (hvs : s.readOpds x act o (f.opds o) = .ok vs)
  (hns : (if f.dst = .vec then x.names act 3 o.d.toNat f.n else .ok []) = .ok ns)
include hact hok hvs hns

/-- A form whose key the reuse table holds takes its answer. -/
theorem memBody_hit {fx : Fx} (h : (f.key o op x act vs ns).bind (fun k => s.reuseHit x act k ns none 0) = some (.ok fx)) :
    memBody o f op s x act = .ok { fx with
      after := watchTrap x.pc x.lanes (s.watchHit x f ((f.eas o act vs).map (fun e => (e.1, e.2.1)))) } := by
  obtain ⟨l, hl⟩ := lowest_isSome hact
  simp only [MemForm.opds] at hok hvs
  simp only [MemForm.key] at h
  simp only [memBody, beq_iff_eq, hok, hvs, hns, h, hl, MemForm.eas]
  rfl

/-- A form without an answer of the reuse table puts its accesses in flight. -/
theorem memBody_misses (h : (f.key o op x act vs ns).bind (fun k => s.reuseHit x act k ns none 0) = none) :
    memBody o f op s x act = s.memStart x act o f vs ns (f.key o op x act vs ns) (f.eas o act vs) := by
  obtain ⟨l, hl⟩ := lowest_isSome hact
  simp only [MemForm.opds] at hok hvs
  simp only [MemForm.key] at h
  simp only [memBody, beq_iff_eq, hok, hvs, hns, h, hl, MemForm.eas]
  rfl

end

/-! ### Accesses put in flight (R290, R291, R294) -/

section
variable {key : Option (List Nat)} {eas : List (Nat × DWord × Bool)} {s1 : State} {placed : List LaneAcc}
  {faults : List (Nat × Nat × Cause × DWord)}
  (hw : f.bench = true ∨ f.remote = true ∨ ∀ e ∈ eas, s.transWaits (.core x.c) x.ctx e.2.1 = false)
  (hp : s.placeLanes x.c x.src.team x.ctx f eas = (s1, placed, faults))

include hw in
theorem transWaits_none : (!f.bench && !f.remote && eas.any (fun e => s.transWaits (.core x.c) x.ctx e.2.1)) = false := by
  rcases hw with h | h | h
  · simp [h]
  · simp [h]
  · simp [List.any_eq_false.2 fun e he => Bool.eq_false_iff.1 (h e he)]

include hw hp

/-- When every lane faults, the fault is the form's trap: beside its retiring, or in its place for a once-acting form. -/
theorem memStart_faults {t : Trap} (hn : placed = [])
    (ht : memTrap f.once f.use.code x.pc x.lanes act (s.now x).live faults = some t) :
    s.memStart x act o f vs ns key eas = if f.once then .error (.trap t) else .ok { s := s1, after := some t } := by
  subst hn
  simp only [State.memStart, transWaits_none hw, hp, ht]
  rfl

/-- Otherwise the form's operation is in flight; it is waited for when a lane faulted or may fault yet, or for a mailbox. -/
theorem memStart_inFlight {dest : Dest} {prior : List VReg} {transit : List Nat} {s2 : State}
    (hn : placed = [] ∨ f.once = true → memTrap f.once f.use.code x.pc x.lanes act (s.now x).live faults = none)
    (hd : s1.memDest x (f.took act (f.accs vs placed)) o f ns = .ok (dest, prior, transit, s2)) :
    let e := accessOp s1 s2 x act o f (f.accs vs placed) faults dest prior transit (s1.entryKey x ns key)
    s.memStart x act o f vs ns key eas =
      if (!faults.isEmpty || (f.accs vs placed).any (s2.risky f x.ctx)) || dest.isBox then
        .error (.wait (s2.inFlight x e) (.result e.id))
      else .ok { s := s2.inFlight x e, after := watchTrap x.pc x.lanes e.watch } := by
  simp only [MemForm.took, MemForm.accs, srcAt] at hd
  have htrap : (placed.isEmpty || f.once) = false ∨
      memTrap f.once f.use.code x.pc x.lanes act (s.now x).live faults = none := by
    cases hpo : placed.isEmpty || f.once with
    | false => exact .inl rfl
    | true => exact .inr (hn (by simpa using hpo))
  simp only [accessOp, MemForm.accs_lanes]
  simp only [State.memStart, transWaits_none hw, hp, Bool.false_eq_true, if_false]
  split
  · next t hpo ht =>
    rcases htrap with h | h
    · cases hpo.symm.trans h
    · cases ht.symm.trans h
  · simp only [hd]
    rfl

end
end

theorem isBox_iff (d : Dest) : d.isBox = true ↔ ∃ n, d = .mbox n := by
  cases d <;> simp [Dest.isBox]

/-- When a bundle waits for its accesses: for a mailbox, for faulted lanes, or for a lane that may fault yet. -/
theorem awaited_iff (d : Dest) (faults : List (Nat × Nat × Cause × DWord)) (accs : List LaneAcc) (risky : LaneAcc → Bool) :
    ((!faults.isEmpty || accs.any risky) || d.isBox) = true ↔ (∃ n, d = .mbox n) ∨ faults ≠ [] ∨ ∃ a ∈ accs, risky a = true := by
  simp only [Bool.or_eq_true, Bool.not_eq_true', List.isEmpty_eq_false_iff, List.any_eq_true, isBox_iff]
  exact or_comm

/-- An instruction whose arm is the body of LOAD, STORE and ATOM starts its accesses. -/
theorem startsAccess_of_memBody {i : Instr} {o p : Opnds} {f : MemForm} {op : Iss → List Nat}
    (he : ∀ s, exec i s = simt s p false noPre (memBody o f op) f.dst) : StartsAccess i o p f op := by
  intro s s0 x act vs ns hi opds hok hvs hns ls eas k
  refine ⟨fun hmiss hw s1 placed faults hp => ?_, fun fx hhit =>
    retires_of_body hi (he s) rfl (memBody_hit hi.active hok hvs hns hhit)⟩
  have hbody := memBody_misses hi.active hok hvs hns hmiss
  constructor
  · intro hn dest prior transit s2 accs ok hd e waits
    have hstart := hbody.trans (memStart_inFlight (key := k) hw hp hn hd)
    have hwaits := awaited_iff dest faults accs (s2.risky f x.ctx)
    exact ⟨fun h => retires_of_body hi (he s) rfl (hstart.trans (if_neg (mt hwaits.1 h))),
      fun h => waits_of_body hi (he s) rfl (hstart.trans (if_pos (hwaits.2 h)))⟩
  · intro t hnone ht
    have hstart := hbody.trans (memStart_faults (key := k) hw hp hnone ht)
    exact ⟨fun h => retires_of_body hi (he s) rfl (hstart.trans (if_neg (by rw [h]; exact Bool.false_ne_true))),
      fun h => (he s).trans (simt_traps hi noPre rfl _ t (hstart.trans (if_pos h)))⟩

/-- Settles O25: each arm is the one body of the three groups, in the form that the statement names. -/
theorem memoryInstructionsComplete : Obligations.MemoryInstructionsComplete := by
  refine ⟨fun o z r => ?_, fun o z => ?_, fun o z r => ?_, fun o z => ?_, fun o z r => ?_, fun o z r => ?_, fun o z r => ?_,
    fun o z r => ?_, fun o op r => ?_, fun o op r => ?_, fun o op r => ?_, fun o r => ?_⟩
  all_goals exact startsAccess_of_memBody fun _ => rfl

end Sys2Proof.Machine
end

section
/-! PROOF. Copy instructions start, resume and cancel copy jobs (R306, R309, R313). -/
namespace Sys2Proof.Machine

theorem sources_ok {s : State} {x : Iss} {act : Mask} {o : Opnds} {ds : List Opd} {vs : List Src}
    (h : s.sources x act o ds = .ok vs) : x.namesOk act ds = .ok () ∧ s.readOpds x act o ds = .ok vs := by
  cases hn : x.namesOk act ds with
  | error e => simp only [State.sources, hn] at h; cases h
  | ok u => simp only [State.sources, hn] at h; exact ⟨rfl, h⟩

/-- The requests of a copy instruction retire it when none is left, and have it wait otherwise. -/
theorem copyIssue_eq (s : State) (x : Iss) (qs : List CopyReq) :
    let r := s.copyReqs x.c x.src.team x.ctx [] [] qs
    (r.2.1 = [] → s.copyIssue x qs = .ok { s := r.1, after := copyTrap x r.2.2.2 }) ∧
    (r.2.1 ≠ [] → s.copyIssue x qs = .error (.wait r.1 (.copy r.2.1 r.2.2.1 r.2.2.2))) :=
  ⟨fun h => if_pos (List.isEmpty_iff.2 h), fun h => if_neg (mt List.isEmpty_iff.1 h)⟩

/-- An instruction that its arm runs through the body of the copy group serves its lanes' requests. -/
theorem copyRequests_of_copyBody {i : Instr} {o : Opnds} {hasA : Bool} {mk : Nat → Nat → Nat → Nat → CopyReq}
    (he : ∀ s, exec i s = simt s o false noPre (copyBody o hasA mk)) : CopyRequests i o hasA mk := by
  intro s s0 x act vs hi opds hs hu a b n r
  obtain ⟨hok, hvs⟩ := sources_ok hs
  have hbody : copyBody o hasA mk s0 x act = s0.copyIssue x ((lanesOf act).map (fun l => mk l (a l) (b l) (n l))) := by
    simp only [opds] at hok hvs
    simp only [copyBody, hok, hvs, hu, Bool.false_eq_true, if_false]
    cases hasA <;> rfl
  obtain ⟨hdone, hleft⟩ := copyIssue_eq s0 x ((lanesOf act).map (fun l => mk l (a l) (b l) (n l)))
  exact ⟨fun h => retires_of_body hi (he s) rfl (hbody.trans (hdone h)),
    fun h => waits_of_body hi (he s) rfl (hbody.trans (hleft h))⟩

/-- Words of a record that are not poisoned, and some of them. -/
theorem recPoison_mono {s : State} {c t rec_ : Nat} {offs sub : List Nat} (h : s.recPoison c t rec_ offs = false) (hs : sub ⊆ offs) :
    s.recPoison c t rec_ sub = false :=
  List.any_eq_false.2 fun o ho => List.any_eq_false.1 h o (hs ho)

/-- A start of an acceptable record with a free slot marks the record RUNNING and queues its job (R309). -/
theorem copyReq_starts {s : State} {c t ctx : Nat} {q : CopyReq} {a : DWord} {n i : Nat} {made : List Nat}
    (hr : q.resume = false) (hg : q.given = some (a, n)) (ho : s.recOffset t q.rec_ = none)
    (hu : (s.recGet c t q.rec_).inUse = false) (hp : s.recPoison c t q.rec_ (startReads false) = false) (hm : q.rec_ ∉ made)
    (hn : n ≠ 0)
    (hf : s.recordFault t { s.recGet c t q.rec_ with maddr := a, count := n, kind := q.kind } false = none)
    (hi : (s.core c).freeJob = some i) :
    s.copyReq c t ctx q made =
      ((((s.recPut c t q.rec_ 0 (leBytes 8 a.toNat)).recPut c t q.rec_ 16 (leBytes 4 n)).recPut c t q.rec_ 24
          (leBytes 4 0 ++ leBytes 1 q.kind ++ leBytes 1 1 ++ leBytes 1 0 ++ leBytes 1 0)).queueJob c t ctx q.rec_ i
        { s.recGet c t q.rec_ with maddr := a, count := n, kind := q.kind, cursor := 0, events := 0 }, .started) := by
  have hmade : made.contains q.rec_ = false := by simpa using hm
  have hstatus : s.recPoison c t q.rec_ [28] = false := recPoison_mono hp (by decide)
  simp only [State.copyReq, ho, hr, hmade, hstatus, hu, hg, Option.isNone_some, hp, hf, hi, if_neg hn, Bool.false_eq_true, if_false]

/-- `CPYX` of readable operands cancels the records of its lanes and faults those that cannot be. -/
theorem cpyx_retires {o : Opnds} {s s0 : State} {x : Iss} {act : Mask} {vs : List Src} (hi : Issues s o false s0 x act)
    (hs : s0.sources x act o [fieldB o] = .ok vs) (hu : s0.unperformed x.c x.w act s0.fresh = false) :
    Retires (.cpyx o) s s0 x act o false
      { s := (lanesOf act).foldl (fun u l => if (u.cancelFault x.c x.src.team (srcAt vs 0 l)).isNone = true then
          u.cancelCopy x.c x.src.team (srcAt vs 0 l) else u) s0
        after := copyTrap x ((lanesOf act).filterMap (fun l => (s0.cancelFault x.c x.src.team (srcAt vs 0 l)).map (fun e =>
          (l, e.1, e.2, BitVec.ofNat 64 (srcAt vs 0 l))))) } := by
  obtain ⟨hok, hvs⟩ := sources_ok hs
  refine retires_of_body hi (show exec _ s = execCpyx o s from rfl) rfl ?_
  simp only [hok, hvs, hu, Bool.false_eq_true, if_false]
  rfl

/-- Settles O33: the five starting forms run one body; a start that nothing refuses, and a cancel, by the lemmas about them. -/
theorem copyInstructionsComplete : Obligations.CopyInstructionsComplete := by
  refine ⟨fun o w => ?_, fun o bm w => ?_, fun o bm w => ?_, fun o bm w => ?_, fun o => ?_, ?start, ?cancel⟩
  case start => exact fun s c t ctx q a n i made hr hg ho hu hp hm hn hf hi => copyReq_starts hr hg ho hu hp hm hn hf hi
  case cancel => exact fun o s s0 x act vs hi hs hu => cpyx_retires hi hs hu
  all_goals exact copyRequests_of_copyBody fun _ => rfl

end Sys2Proof.Machine
end

section
/-! PROOF. The JIG-major instructions complete, or trap JIG_ILLEGAL (R314-R319). -/
namespace Sys2Proof.Machine

section
variable {o : Opnds} {s s0 : State} {x : Iss} {act : Mask}

/-- A JIG-major instruction of a team that does not hold the Jig traps. -/
theorem jigBody_traps (hi : Issues s o false s0 x act) (hh : (s0.jig x.c).holder ≠ some x.src.team) {i : Instr}
    {f : State → Iss → Mask → Except Stop Fx} (he : exec i s = simt s o false noPre (jigBody f)) :
    exec i s = .next (s0.trapNow x { cause := .jigIllegal, cls := clsW, mask := act, addr := BitVec.ofNat 64 (2 ^ 64 - 1),
                                     pc := x.pc, bundle := x.lanes, again := act }) :=
  he.trans (simt_traps hi noPre rfl _ _ (if_neg hh))

/-- One of the team that holds it retires as its own body does. -/
theorem jigBody_retires (hi : Issues s o false s0 x act) (hh : (s0.jig x.c).holder = some x.src.team) {i : Instr}
    {f : State → Iss → Mask → Except Stop Fx} {fx : Fx} (he : exec i s = simt s o false noPre (jigBody f))
    (hf : f s0 x act = .ok fx) : Retires i s s0 x act o false fx :=
  retires_of_body hi he rfl ((if_pos hh).trans hf)

theorem onceNat_nth (act : Mask) (vs : List Src) (i : Nat) : onceNat act (nth vs i Src.none) = once act vs i := rfl

/-- `JLOAD` of 1 to 256 words at an aligned address loads the words that it reads into an idle Jig (R315, R316). -/
theorem jloadBody_ok {vs : List Src} {s1 : State} {ws : List Word} (hvs : s.readOpds x act o [fieldA o 2, fieldB o] = .ok vs)
    (hr : (s.jig x.c).running = false) (h1 : 1 ≤ once act vs 1) (h2 : once act vs 1 ≤ 256)
    (ha : (BitVec.ofNat 64 (once act vs 0)).toNat % 4 = 0)
    (hw : ((s.hostHeld || s.task.isSome) &&
      s.jigWordsWait (.core x.c) x.ctx (BitVec.ofNat 64 (once act vs 0)) (once act vs 1)) = false)
    (hj : s.readJigWords x.c x.ctx (BitVec.ofNat 64 (once act vs 0)) (once act vs 1) = (s1, .ok ws)) :
    jloadBody o s x act = .ok { s := s1.modJig x.c (fun j => j.loaded ws (once act vs 1)) } := by
  have hcount : ¬ (once act vs 1 = 0 ∨ 256 < once act vs 1) := by omega
  simp only [jloadBody, onceNat_nth, hvs, hr, hcount, ha, hw, hj, Bool.false_eq_true, if_false, ne_eq, not_true_eq_false]

/-- `JSTART` at an entry of the program starts an idle Jig there with its two arguments (R317). -/
theorem jstartBody_ok {vs : List Src} (hvs : s.readOpds x act o [fieldA o, fieldB o, fieldC o] = .ok vs)
    (hr : (s.jig x.c).running = false) (he : once act vs 0 ≤ 255) :
    jstartBody o s x act = .ok { s := s.modJig x.c (fun j => { j with
      g := [BitVec.ofNat 32 (once act vs 1), BitVec.ofNat 32 (once act vs 2), 0, 0, 0, 0, 0, 0]
      w := [0, 0, 0, 0]
      pc := once act vs 0
      running := true
      starter := some x.w }) } := by
  have hentry : ¬ 255 < once act vs 0 := Nat.not_lt.2 he
  simp only [jstartBody, onceNat_nth, hvs, hr, hentry, Bool.false_eq_true, if_false]
  rfl

/-- `JPOP.TST` writes its predicate by whether its queue has an unclaimed entry (R319). -/
theorem jpopBody_tests {t : State} (hd : dclsOf o .vec = .pred)
    (hp : s.putPred x act o.d.toNat (if 0 < (s.jig x.c).unclaimed (immOf o (fieldA o)) then act else 0) = .ok t) :
    jpopBody o s x act = .ok { s := t } := by
  simp only [jpopBody, if_pos hd, hp]

/-- `JPOP` claims an entry of its queue for the operation that it puts in flight (R319). -/
theorem jpopBody_claims {ns ps : List Nat} {prior : List VReg} {s1 : State} (hd : dclsOf o .vec ≠ .pred)
    (hn : x.names act 3 o.d.toNat 1 = .ok ns) (hp : s.pendNames x act ns = .ok (ps, prior, s1)) :
    let e : Op := { id := s1.fresh, wave := x.w, kind := .jpop, pc := x.pc, clk := x.clk, bundle := x.lanes, active := act,
                    dest := .vec (nth ns 0 0) ps, prior := prior, transit := s.priorRegs x act ns, base := x.base,
                    ext := extOf64 o }
    jpopBody o s x act = .ok { s := (((s1.newId.2).modCore x.c (fun k => { k with ops := k.ops ++ [e] })).modJig x.c (fun j =>
      { j with claims := j.claims ++ [(immOf o (fieldA o), e.id)] })).sweep x.c x.slice } := by
  simp only [jpopBody, if_neg hd, hn, hp]
  rfl

end

/-- Settles O34: the group's check of the holder, and each body past its own checks. -/
theorem jigInstructionsComplete : Obligations.JigInstructionsComplete := by
  refine fun o s s0 x act hi => ⟨?traps, fun hh => ⟨?load, ?start, ?stop, ?test, ?claim⟩⟩
  case traps =>
    intro hh t
    exact ⟨jigBody_traps hi hh rfl, jigBody_traps hi hh rfl, jigBody_traps hi hh rfl, jigBody_traps hi hh rfl⟩
  case load =>
    exact fun vs s1 ws hvs hr h1 h2 ha hw hj => jigBody_retires hi hh (f := jloadBody o) rfl (jloadBody_ok hvs hr h1 h2 ha hw hj)
  case start => exact fun vs hvs hr he => jigBody_retires hi hh (f := jstartBody o) rfl (jstartBody_ok hvs hr he)
  case stop => exact jigBody_retires hi hh rfl rfl
  case test => exact fun t hd hp => jigBody_retires hi hh (f := jpopBody o) rfl (jpopBody_tests hd hp)
  case claim => exact fun ns ps prior s1 hd hn hp => jigBody_retires hi hh (f := jpopBody o) rfl (jpopBody_claims hd hn hp)

end Sys2Proof.Machine
end

section
/-! PROOF. The events of the copy unit and the delivery of Jig queue entries complete (R308-R312, R319, R382, R414, R438, R451). -/
namespace Sys2Proof.Machine

section
variable {s : State} {c i : Nat}

/-! ### A free slot (R309, R438) -/

/-- A free slot goes to a restored job that waits for one. -/
theorem copySlotGrant_unparks {n : Nat} {j : CopyJob} (hf : (s.core c).freeJob = some i)
    (hj : (s.core c).copies.find? (fun e => decide (16 ≤ e.1)) = some (n, j)) :
    exec (.copySlotGrant c) s = .next (s.modCore c (fun k => { k with
      copies := FMap.set (FMap.erase k.copies n) i j, copyTurn := k.copyTurn ++ [i] })) := by
  have hany : (s.core c).copies.any (fun e => decide (16 ≤ e.1)) = true :=
    List.any_eq_true.2 ⟨(n, j), List.mem_of_find?_eq_some hj, by simpa using List.find?_some hj⟩
  show execCopySlotGrant c s = _
  simp only [execCopySlotGrant, hf, hany, if_true, State.unpark, hj]

/-- Without such a job the slot goes to the copy instruction that has waited longest, which retires when it has no lane left. -/
theorem copySlotGrant_serves {w : Nat} {v : Wait} {left : List CopyReq} {made : List Nat}
    {fs : List (Nat × Nat × Cause × DWord)} (hf : (s.core c).freeJob = some i)
    (ha : (s.core c).copies.all (fun e => decide (e.1 < 16)) = true) (hw : s.copyWaiter c = some (w, v))
    (hk : v.kind = .copy left made fs) :
    let x := v.iss s c w
    let r := s.copyReqs c x.src.team x.ctx made fs left
    exec (.copySlotGrant c) s = .next (if r.2.1.isEmpty then State.endWaitWith c w v { s := r.1, after := copyTrap x r.2.2.2 }
      else r.1.modWave c w (fun y => { y with waits := y.waits.map (fun u =>
        if u = v then { u with kind := .copy r.2.1 r.2.2.1 r.2.2.2 } else u) })) := by
  have hany : (s.core c).copies.any (fun e => decide (16 ≤ e.1)) = false :=
    List.any_eq_false.2 fun e he => by simpa using List.all_eq_true.1 ha e he
  show execCopySlotGrant c s = _
  simp only [execCopySlotGrant, hf, hany, Bool.false_eq_true, if_false, hw, hk]

/-! ### A unit is served (R308, R310) -/

/-- The next job in turn with a unit to start is served, and goes to the end of the turn. -/
theorem copyUnitServe_serves {pre post : List Nat} {j : CopyJob} (ht : (s.core c).copyTurn = pre ++ i :: post)
    (hpre : ∀ k ∈ pre, ∀ y, FMap.get (s.core c).copies k = some y →
      y.failing ≠ none ∨ y.units_ ≤ y.next ∨ s.jobsStop y.team = true)
    (hj : FMap.get (s.core c).copies i = some j) (hf : j.failing = none) (hn : j.next < j.units_)
    (hs : s.jobsStop j.team = false) :
    exec (.copyUnitServe c) s =
      .next ((s.modCore c (fun k => { k with copyTurn := k.copyTurn.filter (· != i) ++ [i] })).serveUnit c i j) := by
  have hfind : (s.core c).copyTurn.find? (fun k => (FMap.get (s.core c).copies k).any (fun j =>
      j.failing.isNone && decide (j.next < j.units_) && !s.jobsStop j.team)) = some i := by
    rw [ht, List.find?_append, List.find?_eq_none.2 fun k hk => ?_, Option.none_or, List.find?_cons_of_pos]
    · simp [hj, hf, hn, hs]
    · cases hy : FMap.get (s.core c).copies k with
      | none => simp
      | some y => rcases hpre k hk y hy with h | h | h <;> simp [h]
  show execCopyUnitServe c s = _
  simp only [execCopyUnitServe, hfind, hj]

/-- A unit of a job of bytes whose pieces have moved is in flight. -/
theorem serveUnit_moved {t : State} {j : CopyJob} (hr : j.rows = false)
    (hm : s.movePieces c j j.next (j.maddr + BitVec.ofNat 64 (256 * j.next)) (j.unitBytes j.next / 16) 0 = (t, .ok)) :
    s.serveUnit c i j =
      t.setJob c i { j with next := j.next + 1, units := j.units ++ [{ u := j.next, bytes := j.unitBytes j.next }] } := by
  simp only [State.serveUnit, hr, Bool.not_false, if_true, hm]

/-! ### A unit lands (R311, R312, R451) -/

/-- The units of a job when unit `u` of them has landed. -/
def CopyJob.landed (j : CopyJob) (u : Nat) : List CopyUnit :=
  j.units.map (fun x => if x.u = u then { x with landed := true } else x)

/-- What counting the landed units of a job comes to. -/
def CopyJob.counts (j : CopyJob) (u : Nat) : List CopyUnit × Nat × List Nat := countUnits j.rows (j.landed u) j.cursor

/-- The job with those units counted. -/
def CopyJob.counted (j : CopyJob) (u : Nat) : CopyJob := { j with units := (j.counts u).1, cursor := (j.counts u).2.1 }

/-- The key of a job's byte barrier. -/
def State.barrierKey (s : State) (c : Nat) (j : CopyJob) : Nat := s.benchAt j.team c (16 * j.bbar)

/-- Counted units take their bytes off the barrier; the last one makes the record DONE. -/
theorem copyUnitLanded_counts {u : Nat} {j : CopyJob} (hj : FMap.get (s.core c).copies i = some j)
    (hb : (j.counts u).2.2 = [] ∨ s.barrierOk (s.barrierKey c j) = true) :
    let s1 := (s.setJob c i (j.counted u)).countDown (s.barrierKey c j) (j.counts u).2.2
    exec (.copyUnitLanded c i u) s = .next (if (j.counts u).1 = [] ∧ j.failing = none ∧ j.next = j.units_
      then s1.jobDone c i (j.counted u) else s1) := by
  have hread : (!(j.counts u).2.2.isEmpty && !s.barrierOk (s.barrierKey c j)) = false := by
    rcases hb with h | h <;> simp [h]
  simp only [CopyJob.counts, CopyJob.landed, State.barrierKey] at hread
  show execCopyUnitLanded c i u s = _
  simp only [execCopyUnitLanded, hj, hread, Bool.false_eq_true, if_false, Bool.and_eq_true, List.isEmpty_iff,
    Option.isNone_iff_eq_none, beq_iff_eq, and_assoc]
  rfl

/-- A barrier that cannot be read makes the job fail. -/
theorem copyUnitLanded_fails {u : Nat} {j : CopyJob} (hj : FMap.get (s.core c).copies i = some j)
    (hc : (j.counts u).2.2 ≠ []) (hb : s.barrierOk (s.barrierKey c j) = false) :
    exec (.copyUnitLanded c i u) s = .next (s.setJob c i { j with
      units := if (j.landed u).all (·.landed) then [] else j.landed u
      failing := some (j.failing.getD (.uncorrectable, BitVec.ofNat 64 (16 * j.bbar))) }) := by
  have hread : (!(j.counts u).2.2.isEmpty && !s.barrierOk (s.barrierKey c j)) = true := by simp [hc, hb]
  simp only [CopyJob.counts, CopyJob.landed, State.barrierKey] at hread
  show execCopyUnitLanded c i u s = _
  simp only [execCopyUnitLanded, hj, hread, if_true]
  rfl

/-- A unit in flight is not counted, nor any behind it. -/
theorem countUnits_inFlight (rows : Bool) {a : CopyUnit} (r : List CopyUnit) (cur : Nat) (h : a.landed = false) :
    countUnits rows (a :: r) cur = (a :: r, cur, []) := by
  simp only [countUnits, h, Bool.false_eq_true, if_false]

/-- A landed unit is counted, and those behind it in turn. -/
theorem countUnits_landed (rows : Bool) {a : CopyUnit} {r us : List CopyUnit} {cur n : Nat} {bs : List Nat} (h : a.landed = true)
    (hr : countUnits rows r (cur + if rows then 1 else a.bytes) = (us, n, bs)) :
    countUnits rows (a :: r) cur = (us, n, a.bytes :: bs) := by
  simp only [countUnits, h, if_true, hr]

/-! ### A job is suspended (R312) -/

/-- A failing job of a team that is not saved is suspended when no unit of it is in flight. -/
theorem copyJobSuspend_suspends {j : CopyJob} {e : Cause} {va : DWord} (hj : FMap.get (s.core c).copies i = some j)
    (hf : j.failing = some (e, va)) (hu : j.units = []) (hs : (s.team j.team).saved = none) :
    exec (.copyJobSuspend c i) s = .next (s.suspendJob c i j e va) := by
  show execCopyJobSuspend c i s = _
  simp only [execCopyJobSuspend, hj, hf, hu, hs]
  rfl

end

/-! ### An entry of a Jig queue is delivered (R319) -/

/-- The oldest claim of a queue takes its oldest entry. -/
theorem jpopDelivery_fills {s : State} {c q id : Nat} {pre post : List (Nat × Nat)} {v : BitVec 1024} {r : List (BitVec 1024)} {o : Op}
    (hc : (s.jig c).claims = pre ++ (q, id) :: post) (hpre : ∀ e ∈ pre, e.1 ≠ q) (hq : nth (s.jig c).q q [] = v :: r)
    (ho : ((s.modJig c (fun j => { j with claims := j.claims.filter (fun y => y.2 != id), q := setNth j.q q r })).core c).ops.find?
      (fun y => y.id == id) = some o) :
    exec (.jpopDelivery c q) s =
      .next ((s.modJig c (fun j => { j with claims := j.claims.filter (fun y => y.2 != id), q := setNth j.q q r })).fillOp c o
        [vbuild (fun l => v.extractLsb' (32 * l) 32)]) := by
  have hfind : (s.jig c).claims.find? (fun e => e.1 == q) = some (q, id) := by
    rw [hc, List.find?_append, List.find?_eq_none.2 fun e he => by simpa using hpre e he, Option.none_or, List.find?_cons_of_pos]
    simp
  show execJpopDelivery c q s = _
  simp only [execJpopDelivery, hfind, hq, ho]

/-- Settles O47: each event, on its condition, takes the effect that the lemma about it states. -/
theorem copyEventsComplete : Obligations.CopyEventsComplete := by
  refine ⟨fun s c i n j hf hj => copySlotGrant_unparks hf hj, ?serves,
    fun s c i pre post j ht hpre hj hf hn hs => copyUnitServe_serves ht hpre hj hf hn hs,
    fun s t c i j hr hm => serveUnit_moved hr hm, ?landed,
    fun rows a r cur => ⟨countUnits_inFlight rows r cur, fun h us n bs hr => countUnits_landed rows h hr⟩,
    fun s c i j e va hj hf hu hs => copyJobSuspend_suspends hj hf hu hs,
    fun s c q id pre post v r o hc hpre hq ho => jpopDelivery_fills hc hpre hq ho⟩
  case serves =>
    intro s c i w v left made fs hf ha hw hk x r
    have hserve := copySlotGrant_serves hf ha hw hk
    exact ⟨fun h => hserve.trans (congrArg _ (if_pos (List.isEmpty_iff.2 h))),
      fun h => hserve.trans (congrArg _ (if_neg (mt List.isEmpty_iff.1 h)))⟩
  case landed =>
    intro s c i u j hj landed r j1 k s1
    exact ⟨fun hb => copyUnitLanded_counts hj hb, fun hc hb => copyUnitLanded_fails hj hc hb⟩

end Sys2Proof.Machine
end

section
/-! PROOF. Branches, calls and returns complete (R375-R380). -/
namespace Sys2Proof.Machine

/-! ### Lanes and masks -/

theorem nodup_lanesOf (m : Mask) : (lanesOf m).Nodup := List.nodup_range.filter _

theorem getLsbD_laneBit (l k : Nat) (h : k < 32) : (laneBit l).getLsbD k = decide (k = l) := by
  rw [laneBit, BitVec.getLsbD_ofNat, Nat.testBit_two_pow, decide_eq_true h, Bool.true_and, decide_eq_decide, eq_comm]

/-- A mask built lane by lane has the bits of its function. -/
theorem getLsbD_maskOf (f : Nat → Bool) (k : Nat) (h : k < 32) : (maskOf f).getLsbD k = f k := by
  have hfold : ∀ (ls : List Nat) (a : Mask),
      (ls.foldl (fun acc l => if f l then acc ||| laneBit l else acc) a).getLsbD k = (a.getLsbD k || (decide (k ∈ ls) && f k)) := by
    intro ls
    induction ls with
    | nil => simp
    | cons l ls ih =>
      intro a
      rw [List.foldl_cons, ih]
      by_cases hl : k = l
      · subst hl
        cases hf : f k <;> simp [-BitVec.getLsbD_eq_getElem, getLsbD_laneBit, h]
      · have hb : (if f l then a ||| laneBit l else a).getLsbD k = a.getLsbD k := by
          split
          · rw [BitVec.getLsbD_or, getLsbD_laneBit l k h, decide_eq_false hl, Bool.or_false]
          · rfl
        simp [-BitVec.getLsbD_eq_getElem, hb, hl]
  rw [maskOf, hfold]
  simp [lanes32, h]

/-- A mask is the mask of its lanes. -/
theorem maskOf_lanesOf (m : Mask) : maskOf (fun l => (lanesOf m).contains l) = m := by
  refine BitVec.eq_of_getLsbD_eq fun k hk => ?_
  rw [getLsbD_maskOf _ k hk, Bool.eq_iff_iff, List.contains_iff_mem, mem_lanesOf]
  exact and_iff_right hk

/-- Only lanes have bits in a mask. -/
theorem mem_lanesOf_of_getLsbD {m : Mask} {l : Nat} (h : m.getLsbD l = true) : l ∈ lanesOf m := by
  refine (mem_lanesOf m l).2 ⟨not_le.1 fun hl => ?_, h⟩
  rw [BitVec.getLsbD_of_ge m l hl] at h
  cases h

theorem lanesOf_ne_nil {m : Mask} (h : m ≠ 0) : lanesOf m ≠ [] := by
  obtain ⟨l, hl⟩ := lowest_isSome h
  intro he
  rw [lowest, he] at hl
  cases hl

/-! ### Where lanes flow (R375, R377) -/

/-- The lanes' flows as a branch of each of them gives them. -/
def laneFlows (act : Mask) (f : Nat → Flow) : List (Nat × Flow) := (lanesOf act).map (fun l => (l, f l))

theorem find?_laneFlows (act : Mask) (f : Nat → Flow) (l : Nat) :
    (laneFlows act f).find? (·.1 == l) = if act.getLsbD l then some (l, f l) else none := by
  have hmap : ∀ ls : List Nat, (ls.map (fun l => (l, f l))).find? (·.1 == l) = if l ∈ ls then some (l, f l) else none := by
    intro ls
    induction ls with
    | nil => rfl
    | cons k ls ih =>
      rw [List.map_cons, List.find?_cons]
      by_cases hk : k = l
      · subst hk; simp
      · simp [beq_eq_false_iff_ne.2 hk, ih, Ne.symm hk]
  rw [laneFlows, hmap]
  exact if_congr ⟨fun h => ((mem_lanesOf act l).1 h).2, mem_lanesOf_of_getLsbD⟩ rfl rfl

/-- The fault of a lane's flow. -/
def Flow.fault? (l : Nat) : Flow → Option (Nat × Cause × DWord)
  | .fault c a => some (l, c, a)
  | .goto_ _ => none

/-- Where a flow sends its lane; one that faults, or has no flow, has `next` there. -/
def Flow.goal (next : DWord) : Option (Nat × Flow) → DWord
  | some (_, .goto_ t) => t
  | _ => next

/-- What lanes' flows come to, by the fault and the goal of each. -/
theorem flowFx_eq (s : State) (x : Iss) (fl : List (Nat × Flow)) (n : Nat) :
    flowFx s x fl n = { s := s
                        after := (flowTrap x (fl.filterMap (fun e => e.2.fault? e.1))).map (fun t =>
                          if t.cause = .callSpillFault then { t with post := some (0, n) } else t)
                        goes := some (fun l => Flow.goal x.next (fl.find? (·.1 == l))) } := by
  unfold flowFx Flow.fault? Flow.goal
  rfl

/-- Lanes that all go to their targets bring no trap. -/
theorem flowFx_goto (s : State) (x : Iss) (act : Mask) (t : Nat → DWord) (n : Nat) :
    flowFx s x (laneFlows act (fun l => .goto_ (t l))) n =
      { s := s, goes := some (fun l => if act.getLsbD l then t l else x.next) } := by
  have hf : (laneFlows act (fun l => .goto_ (t l))).filterMap (fun e => e.2.fault? e.1) = [] :=
    List.filterMap_eq_nil_iff.2 fun e he => by
      obtain ⟨l, -, rfl⟩ := List.mem_map.1 he
      rfl
  have hg : ∀ l, Flow.goal x.next ((laneFlows act (fun l => .goto_ (t l))).find? (·.1 == l)) =
      if act.getLsbD l then t l else x.next := by
    intro l
    rw [find?_laneFlows]
    cases act.getLsbD l <;> rfl
  simp only [flowFx_eq, hf, hg]
  rfl

/-- The lanes of misaligned targets. -/
def misaligned (act : Mask) (t : Nat → DWord) : List Nat := (lanesOf act).filter (fun l => decide ((t l).toNat % 8 ≠ 0))

/-- The trap of the faulted lanes is that of the first fault in the order of their causes. -/
theorem flowTrap_eq (x : Iss) (fs : List (Nat × Cause × DWord)) :
    flowTrap x fs = (fs.filter (fun f => f.2.1 == .misalignedPc) ++ fs).head?.map (fun f =>
      x.faulted f.2.1 (maskOf (fun l => (fs.map (·.1)).contains l)) f.2.2) := by
  unfold flowTrap
  cases fs.filter (fun f => f.2.1 == .misalignedPc) ++ fs <;> rfl

/-- Lanes that all fault for one cause trap for it. -/
theorem flowTrap_all (x : Iss) (e : Cause) (ls : List Nat) (a : Nat → DWord) :
    flowTrap x (ls.map (fun l => (l, e, a l))) =
      ls.head?.map (fun l => x.faulted e (maskOf (fun k => ls.contains k)) (a l)) := by
  have hfst : (ls.map (fun l => (l, e, a l))).map (·.1) = ls := by
    rw [List.map_map]
    exact List.map_id ls
  have hhead : ((ls.map (fun l => (l, e, a l))).filter (fun f => f.2.1 == .misalignedPc) ++ ls.map (fun l => (l, e, a l))).head? =
      ls.head?.map (fun l => (l, e, a l)) := by
    cases ls with
    | nil => rfl
    | cons l ls =>
      have hnone : ∀ ks : List Nat, ks.find? (fun _ => false) = none := fun ks => List.find?_eq_none.2 fun _ _ => Bool.false_ne_true
      cases he : e == Cause.misalignedPc <;> simp [he, hnone]
  rw [flowTrap_eq, hfst, hhead, Option.map_map]
  rfl

/-- Each lane goes to its target or, where that is misaligned, faults. -/
theorem flowFx_flowTo (s : State) (x : Iss) (act : Mask) (t : Nat → DWord) :
    flowFx s x (laneFlows act (fun l => flowTo (t l))) =
      { s := s
        goes := some (fun l => if act.getLsbD l && !(misaligned act t).contains l then t l else x.next)
        after := match misaligned act t with
          | [] => none
          | l :: _ => some (x.faulted .misalignedPc (maskOf (fun k => (misaligned act t).contains k)) (t l)) } := by
  have hf : (laneFlows act (fun l => flowTo (t l))).filterMap (fun e => e.2.fault? e.1) =
      (misaligned act t).map (fun l => (l, .misalignedPc, t l)) := by
    rw [laneFlows, misaligned, List.filterMap_map, ← List.filterMap_eq_map, ← List.filterMap_eq_filter, List.filterMap_filterMap]
    refine List.filterMap_congr fun l _ => ?_
    by_cases hl : (t l).toNat % 8 = 0 <;> simp [flowTo, Flow.fault?, Option.guard, hl]
  have hg : ∀ l, Flow.goal x.next ((laneFlows act (fun l => flowTo (t l))).find? (·.1 == l)) =
      if act.getLsbD l && !(misaligned act t).contains l then t l else x.next := by
    intro l
    rw [find?_laneFlows]
    cases ha : act.getLsbD l with
    | false => rfl
    | true =>
      have hm : l ∈ misaligned act t ↔ (t l).toNat % 8 ≠ 0 := by
        rw [misaligned, List.mem_filter, decide_eq_true_iff]
        exact and_iff_right (mem_lanesOf_of_getLsbD ha)
      by_cases h8 : (t l).toNat % 8 = 0 <;> simp [flowTo, Flow.goal, h8, hm]
  simp only [flowFx_eq, hf, hg, flowTrap_all]
  cases misaligned act t <;> rfl

/-! ### Branches (R375, R376, R379, R380) -/

section
variable {o : Opnds} {s s0 : State} {x : Iss} {act : Mask} {vs : List Src} (hi : Issues s o false s0 x act)
include hi

theorem bra_retires : Retires (.bra o) s s0 x act o false { s := s0, goes := some (fun _ => offsetTarget x o (fieldA o)) } :=
  retires_of_body hi (show exec _ s = execBra o s from rfl) rfl rfl

/-- `JMP` sends each active lane to its register's address, or faults the lane after it. -/
theorem jmp_retires (hs : s0.sources x act o [fieldA o 2] = .ok vs) :
    Retires (.jmp o) s s0 x act o false (flowFx s0 x (laneFlows act (fun l => flowTo (BitVec.ofNat 64 (srcAt vs 0 l))))) :=
  retires_of_body hi (show exec _ s = execJmp o s from rfl) rfl (by simp only [hs]; rfl)

theorem brv_retires (v : BrVote) (hs : s0.sources x act o [fieldA o] = .ok vs) :
    Retires (.brv o v) s s0 x act o false
      { s := s0
        goes := if voteHolds v act (BitVec.ofNat 32 (once act vs 0)) then some (fun _ => offsetTarget x o (fieldB o)) else none } :=
  retires_of_body hi (show exec _ s = execBrv o v s from rfl) rfl (by simp only [hs])

theorem rghint_retires : Retires (.rghint o) s s0 x act o false
    { s := s0.modNow x (fun y => { y with rghint := some (offsetTarget x o (fieldA o), 64) }) } :=
  retires_of_body hi (show exec _ s = execRghint o s from rfl) rfl rfl

end

/-- Settles O12: each body past the reading of its sources; a jump's lanes by the flow of each. -/
theorem branchesComplete : Obligations.BranchesComplete := by
  refine ⟨fun o s s0 x act hi => bra_retires hi, fun o s s0 x act vs hi hs => ?jump,
    fun o v s s0 x act vs hi hs => ?vote, fun o s s0 x act hi => rghint_retires hi⟩
  case jump =>
    have h := jmp_retires hi hs
    rw [flowFx_flowTo] at h
    exact h
  case vote =>
    have h := brv_retires hi v hs
    cases v <;> exact h

/-! ### A step of each lane's stack (R377, R378) -/

/-- A step that every lane makes, and none of them for another, comes to all of them in order. -/
theorem stackLanes_ok {f : State → Nat → StackRes × (DWord → Flow)} {g : State → Nat → State} {t : Nat → DWord}
    {P : State → Nat → Prop} (hf : ∀ u l, P u l → ∃ v h, f u l = (.ok (g u l) v, h) ∧ h v = .goto_ (t l))
    (hg : ∀ u l k, k ≠ l → P u k → P (g u l) k) (ls : List Nat) (hnd : ls.Nodup) (s : State) (hP : ∀ l ∈ ls, P s l) :
    stackLanes f s ls = some (ls.foldl g s, ls.map (fun l => (l, .goto_ (t l)))) := by
  induction ls generalizing s with
  | nil => rfl
  | cons l ls ih =>
    obtain ⟨hl, hnd⟩ := List.nodup_cons.1 hnd
    obtain ⟨v, h, hfl, hv⟩ := hf s l (hP l List.mem_cons_self)
    have hrest := ih hnd (g s l) fun k hk =>
      hg s l k (fun he => hl (he ▸ hk)) (hP k (List.mem_cons_of_mem l hk))
    simp only [stackLanes, hfl, hv, hrest, Option.map_some, List.foldl_cons, List.map_cons]

/-- A step that faults every lane leaves the machine as it was. -/
theorem stackLanes_faults {f : State → Nat → StackRes × (DWord → Flow)} {e : Cause} {a : DWord} {s : State} (ls : List Nat)
    (hf : ∀ l ∈ ls, ∃ h, f s l = (.fault e a, h)) : stackLanes f s ls = some (s, ls.map (fun l => (l, .fault e a))) := by
  induction ls with
  | nil => rfl
  | cons l ls ih =>
    obtain ⟨h, hfl⟩ := hf l List.mem_cons_self
    simp only [stackLanes, hfl, ih fun k hk => hf k (List.mem_cons_of_mem l hk), Option.map_some, List.map_cons]

/-! ### Changes of the issuing wave -/

theorem now_eq (s : State) (x : Iss) : s.now x = (s.wave? x.c x.w).getD {} := wave_eq s x.c x.w

/-- A change of the issuing wave is what it makes of the wave as it stands. -/
theorem modNow_congr {s : State} {x : Iss} {f g : Wave → Wave} (h : f (s.now x) = g (s.now x)) : s.modNow x f = s.modNow x g := by
  rw [now_eq] at h
  unfold State.modNow State.modWave
  cases hy : s.wave? x.c x.w with
  | none => rfl
  | some y =>
    rw [hy] at h
    exact congrArg (s.setWave x.c x.w) h

/-- The issuing wave after a change of it: changed when it exists. -/
theorem now_modNow (s : State) (x : Iss) (f : Wave → Wave) :
    (s.modNow x f).now x = f (s.now x) ∨ (s.modNow x f).now x = s.now x := by
  rw [now_eq, now_eq, State.modNow, wave?_modWave, if_pos ⟨rfl, rfl⟩]
  cases s.wave? x.c x.w with
  | none => exact .inr rfl
  | some y => exact .inl rfl

/-- What a core holds beside its waves stays when one of them changes. -/
theorem core_modWave (s : State) (c w d : Nat) (f : Wave → Wave) : ∃ ws, (s.modWave c w f).core d = { s.core d with waves := ws } := by
  unfold State.modWave
  cases s.wave? c w with
  | none => exact ⟨_, rfl⟩
  | some y =>
    dsimp only
    rw [State.setWave, core_modCore]
    split
    · next h => exact ⟨_, by rw [h]⟩
    · exact ⟨_, rfl⟩

/-- A change of a wave that keeps its names keeps what its operations hold (R271). -/
theorem transits_modWave (s : State) (c w : Nat) (f : Wave → Wave) (hf : ∀ y, (f y).names = y.names := by intro; rfl) :
    (s.modWave c w f).transits c w = s.transits c w := by
  have hn : ((s.modWave c w f).wave c w).names = (s.wave c w).names := by
    rw [wave_eq, wave_eq, wave?_modWave, if_pos ⟨rfl, rfl⟩]
    cases s.wave? c w with
    | none => rfl
    | some y => exact hf y
  obtain ⟨ws, hc⟩ := core_modWave s c w c f
  unfold State.transits State.slice
  rw [hn, hc]

/-- An issue that leaves the wave's transit registers is not held back by them. -/
theorem transitsOver_of_eq {s t : State} {x : Iss} (h : t.transits x.c x.w = s.transits x.c x.w) : s.transitsOver x t = false := by
  rw [State.transitsOver, h]
  simp

/-! ### Calls and returns (R377, R378) -/

/-- A push of `v` on the stack of lane `l` that spills nothing. -/
def Wave.pushed (v : DWord) (l : Nat) (y : Wave) : Wave :=
  { y with rstack := setNth y.rstack l (v :: nth y.rstack l []), rspill := setNth y.rspill l (nth y.rspill l 0) }

/-- A pop of the stack of lane `l` that fills nothing. -/
def Wave.popped (l : Nat) (y : Wave) : Wave := { y with rstack := setNth y.rstack l (nth y.rstack l []).tail }

theorem nth_setNth_other {α : Type} (l : List α) {i j : Nat} (v d : α) (h : j ≠ i) : nth (setNth l i v) j d = nth l j d := by
  simp [nth, setNth, List.getElem?_set_ne h.symm]

/-- A change of one lane's stack leaves those of the others. -/
theorem stack_other {s : State} {x : Iss} {l k : Nat} (f : Wave → Wave) (v : Wave → List DWord) (h : k ≠ l)
    (hf : ∀ y, (f y).rstack = setNth y.rstack l (v y) := by intro; rfl) :
    nth ((s.modNow x f).now x).rstack k [] = nth (s.now x).rstack k [] := by
  rcases now_modNow s x f with e | e <;> rw [e]
  rw [hf, nth_setNth_other _ _ _ h]

theorem pushLane_fits {s : State} {x : Iss} {l : Nat} {v : DWord} (h : (nth (s.now x).rstack l []).length < 16) :
    s.pushLane x l v = .ok (s.modNow x (Wave.pushed v l)) 0 := by
  simp only [State.pushLane, if_pos h]
  exact congrArg (StackRes.ok · 0) (modNow_congr rfl)

theorem popLane_chip {s : State} {x : Iss} {l : Nat} {v : DWord} {r : List DWord} (h : nth (s.now x).rstack l [] = v :: r) :
    s.popLane x l = .ok (s.modNow x (Wave.popped l)) v := by
  simp only [State.popLane, h]
  exact congrArg (StackRes.ok · v) (modNow_congr (by rw [Wave.popped, h, List.tail_cons]))

theorem popLane_underflow {s : State} {x : Iss} {l : Nat} (h : nth (s.now x).rstack l [] = []) (hn : nth (s.now x).rspill l 0 = 0) :
    s.popLane x l = .fault .retUnderflow 0 := by
  simp only [State.popLane, h, hn, if_true]

theorem flowTo_aligned {t : DWord} (h : t.toNat % 8 = 0) : flowTo t = .goto_ t := if_pos h

/-- A call of lanes whose stacks have room pushes the return address of each and goes to their targets. -/
theorem callFx_fits {s : State} {x : Iss} {act : Mask} {t : Nat → DWord}
    (hroom : ∀ l ∈ lanesOf act, (nth (s.now x).rstack l []).length < 16) (ht : ∀ l ∈ lanesOf act, (t l).toNat % 8 = 0) :
    callFx s x act t = .ok { s := (lanesOf act).foldl (fun u l => u.modNow x (Wave.pushed x.next l)) s
                             goes := some (fun l => if act.getLsbD l then t l else x.next) } := by
  have hlanes := stackLanes_ok (f := fun u l => (u.pushLane x l x.next, fun _ => flowTo (t l)))
    (g := fun u l => u.modNow x (Wave.pushed x.next l)) (t := t)
    (P := fun u l => (nth (u.now x).rstack l []).length < 16 ∧ (t l).toNat % 8 = 0)
    (fun u l ⟨hu, hl⟩ => ⟨0, _, by rw [pushLane_fits hu], flowTo_aligned hl⟩)
    (fun u l k hk ⟨hu, hl⟩ => ⟨by rwa [stack_other _ (fun y => x.next :: nth y.rstack l []) hk], hl⟩)
    (lanesOf act) (nodup_lanesOf act) s (fun l hl => ⟨hroom l hl, ht l hl⟩)
  simp only [callFx, stackFx, hlanes]
  exact congrArg Except.ok (flowFx_goto _ x act t 1)

/-- A return of lanes with addresses on chip pops the newest of each and goes there. -/
theorem retFx_chip {s : State} {x : Iss} {act : Mask} {a : Nat → DWord} {r : Nat → List DWord}
    (h : ∀ l ∈ lanesOf act, nth (s.now x).rstack l [] = a l :: r l ∧ (a l).toNat % 8 = 0) :
    stackFx s x act 0 (fun s l => (s.popLane x l, flowTo)) =
      .ok { s := (lanesOf act).foldl (fun u l => u.modNow x (Wave.popped l)) s
            goes := some (fun l => if act.getLsbD l then a l else x.next) } := by
  have hlanes := stackLanes_ok (f := fun u l => (u.popLane x l, flowTo)) (g := fun u l => u.modNow x (Wave.popped l)) (t := a)
    (P := fun u l => nth (u.now x).rstack l [] = a l :: r l ∧ (a l).toNat % 8 = 0)
    (fun u l ⟨hu, hl⟩ => ⟨a l, _, by rw [popLane_chip hu], flowTo_aligned hl⟩)
    (fun u l k hk ⟨hu, hl⟩ => ⟨by rwa [stack_other _ (fun y => (nth y.rstack l []).tail) hk], hl⟩)
    (lanesOf act) (nodup_lanesOf act) s h
  simp only [stackFx, hlanes]
  exact congrArg Except.ok (flowFx_goto _ x act a 0)

/-- A return of lanes with no address faults them all. -/
theorem retFx_underflow {s : State} {x : Iss} {act : Mask} (ha : act ≠ 0)
    (h : ∀ l ∈ lanesOf act, nth (s.now x).rstack l [] = [] ∧ nth (s.now x).rspill l 0 = 0) :
    stackFx s x act 0 (fun s l => (s.popLane x l, flowTo)) =
      .ok { s := s, goes := some (fun _ => x.next), after := some (x.faulted .retUnderflow act 0) } := by
  have hlanes := stackLanes_faults (f := fun u l => (u.popLane x l, flowTo)) (e := .retUnderflow) (a := 0) (s := s) (lanesOf act)
    fun l hl => ⟨flowTo, by rw [popLane_underflow (h l hl).1 (h l hl).2]⟩
  have hfaults : (laneFlows act (fun _ => .fault .retUnderflow 0)).filterMap (fun e => e.2.fault? e.1) =
      (lanesOf act).map (fun l => (l, .retUnderflow, (fun _ => 0) l)) := by
    rw [laneFlows, List.filterMap_map, ← List.filterMap_eq_map]
    rfl
  have hgoes : ∀ l, Flow.goal x.next ((laneFlows act (fun _ => .fault .retUnderflow 0)).find? (·.1 == l)) = x.next := by
    intro l
    rw [find?_laneFlows]
    split <;> rfl
  obtain ⟨l, hl⟩ := lowest_isSome ha
  simp only [stackFx, hlanes]
  rw [← laneFlows, flowFx_eq, hfaults, flowTrap_all, maskOf_lanesOf]
  simp only [hgoes]
  rw [show (lanesOf act).head? = some l from hl]
  rfl

theorem transits_foldl_modNow (x : Iss) (f : Nat → Wave → Wave) (hf : ∀ l y, (f l y).names = y.names) (ls : List Nat) (s : State) :
    (ls.foldl (fun u l => u.modNow x (f l)) s).transits x.c x.w = s.transits x.c x.w := by
  induction ls generalizing s with
  | nil => rfl
  | cons l ls ih => exact (ih _).trans (transits_modWave s x.c x.w (f l) (hf l))

section
variable {o : Opnds} {s s0 : State} {x : Iss} {act : Mask} {fx : Fx} (hi : Issues s o false s0 x act)
include hi

theorem call_retires (h : callFx s0 x act (fun _ => offsetTarget x o (fieldA o)) = .ok fx) :
    Retires (.call o) s s0 x act o false fx :=
  retires_of_body hi (show exec _ s = execCall o s from rfl) rfl h

theorem calli_retires {vs : List Src} (hs : s0.sources x act o [fieldA o 2] = .ok vs)
    (h : callFx s0 x act (fun l => BitVec.ofNat 64 (srcAt vs 0 l)) = .ok fx) : Retires (.calli o) s s0 x act o false fx :=
  retires_of_body hi (show exec _ s = execCalli o s from rfl) rfl (by simp only [hs]; exact h)

theorem ret_retires (h : stackFx s0 x act 0 (fun s l => (s.popLane x l, flowTo)) = .ok fx) : Retires (.ret o) s s0 x act o false fx :=
  retires_of_body hi (show exec _ s = execRet o s from rfl) rfl h

end

/-- Settles O13: on chip each lane's step is a push or a pop of its own stack, which no other lane's step changes. -/
theorem callsComplete : Obligations.CallsComplete := by
  refine ⟨fun o s s0 x act hi hroom _ ht => ?call, fun o s s0 x act vs hi hs hroom _ ht => ?calli,
    fun o s s0 x act a r hi _ h => ?ret,
    fun o s s0 x act fx hi => ⟨call_retires hi, fun vs => calli_retires hi, ret_retires hi⟩,
    fun o s s0 x act hi h => ret_retires hi (retFx_underflow hi.active h) (transitsOver_of_eq rfl)⟩
  case call =>
    exact call_retires hi (callFx_fits hroom fun _ _ => ht)
      (transitsOver_of_eq (transits_foldl_modNow x (Wave.pushed x.next) (fun _ _ => rfl) _ _))
  case calli =>
    exact calli_retires hi hs (callFx_fits hroom ht)
      (transitsOver_of_eq (transits_foldl_modNow x (Wave.pushed x.next) (fun _ _ => rfl) _ _))
  case ret =>
    exact ret_retires hi (retFx_chip h) (transitsOver_of_eq (transits_foldl_modNow x Wave.popped (fun _ _ => rfl) _ _))

end Sys2Proof.Machine
end

section
/-! PROOF. System instructions complete (R436, R443-R448), and `ERET` in and outside handler mode (R14, R434-R436, R442, R446). -/
namespace Sys2Proof.Machine

/-! ### Waves that stay (R14, R243, R411) -/

theorem wave?_modCore (s : State) (c d w : Nat) (f : Core → Core) (hf : ∀ k, (f k).waves = k.waves := by intro; rfl) :
    (s.modCore c f).wave? d w = s.wave? d w := by
  rw [State.wave?, core_modCore]
  split
  · next h => rw [hf, h, State.wave?]
  · rfl

theorem wave?_modTeam (s : State) (t d w : Nat) (f : Team → Team) : (s.modTeam t f).wave? d w = s.wave? d w := by
  unfold State.modTeam
  split <;> rfl

/-- A change of a wave takes none away. -/
theorem wave?_isSome_modWave (s : State) (c w d v : Nat) (f : Wave → Wave) :
    ((s.modWave c w f).wave? d v).isSome = (s.wave? d v).isSome := by
  rw [wave?_modWave]
  split
  · next h => rw [h.1, h.2, Option.isSome_map]
  · rfl

theorem wave?_translate (s : State) (via : Via) (ctx va d w : Nat) : (s.translate via ctx va).1.wave? d w = s.wave? d w := by
  unfold State.translate
  split
  · rfl
  · split
    · rfl
    · split
      · rfl
      · cases via with
        | core c => exact wave?_modCore _ c d w _
        | group c => rfl
        | device => rfl

theorem wave?_place (s : State) (via : Via) (ctx : Nat) (va : DWord) (u : Use) (d w : Nat) :
    (s.place via ctx va u).1.wave? d w = s.wave? d w := by
  rw [← wave?_translate s via ctx va.toNat d w]
  unfold State.place
  split
  · exact (wave?_translate s via ctx va.toNat d w).symm
  · split
    · next t e ht => rw [ht]
    · next t leaf size ht =>
      rw [ht]
      dsimp only
      repeat' split
      all_goals rfl

theorem wave?_verifyFrame (s : State) (n : Nat) (r : Sealed) (i f d w : Nat) : (s.verifyFrame n r i f).wave? d w = s.wave? d w := by
  unfold State.verifyFrame
  dsimp only
  repeat' split
  all_goals rfl

theorem wave?_touchMark (s : State) (sealed : Bool) (ctx va k d w : Nat) : (s.touchMark sealed ctx va k).wave? d w = s.wave? d w := by
  unfold State.touchMark
  split
  · split <;> rfl
  · rfl

theorem wave?_sealOk (s : State) (ctx va k d w : Nat) : (s.sealOk ctx va k).1.wave? d w = s.wave? d w := by
  unfold State.sealOk
  split
  · exact wave?_touchMark s true ctx va k d w
  · rfl
  · split
    · rfl
    · exact wave?_verifyFrame s _ _ _ _ d w

/-- A fetch that does not miss takes no wave away. -/
theorem wave?_isSome_fetchWord {s t : State} {c w ctx : Nat} {va : DWord} {r : Fetched} (h : s.fetchWord c w ctx va = (t, r))
    (hr : r ≠ .miss) (d v : Nat) : (t.wave? d v).isSome = (s.wave? d v).isSome := by
  unfold State.fetchWord at h
  split at h
  · cases h; exact absurd rfl hr
  · have hp := wave?_place s (.group c) ctx va .fetch d v
    split at h
    · next t e ht =>
      cases h
      rw [ht] at hp
      rw [← hp]
    · next u p ht =>
      rw [ht] at hp
      rw [← hp]
      have hs : (if p.sealed then u.sealOk ctx va.toNat p.key else (u, true)).1.wave? d v = u.wave? d v := by
        split
        · exact wave?_sealOk u ctx va.toNat p.key d v
        · rfl
      generalize (if p.sealed then u.sealOk ctx va.toNat p.key else (u, true)) = q at h hs
      obtain ⟨q, ok⟩ := q
      dsimp only at h hs
      rw [← hs]
      split at h
      · cases h; exact absurd rfl hr
      · split at h
        · cases h; rfl
        · split at h
          · cases h; rfl
          · cases h; exact wave?_isSome_modWave q c w d v _
          · split at h <;> cases h <;> exact absurd rfl hr

theorem wave?_isSome_lenFor {s t : State} {c w n : Nat} {y : Wave} (h : s.lenFor c w y = (t, some n)) (d v : Nat) :
    (t.wave? d v).isSome = (s.wave? d v).isSome := by
  unfold State.lenFor State.lenThere at h
  split at h
  · split at h
    · cases h; rfl
    · split at h
      · next hf => cases h; exact wave?_isSome_fetchWord hf Fetched.noConfusion d v
      · next hf => cases h; exact wave?_isSome_fetchWord hf Fetched.noConfusion d v
      · cases h
  · cases h; rfl

theorem wave?_isSome_endLen {s t : State} {x : Iss} {left : Mask} {n : Nat} (h : s.endLen x left = (t, some n)) (d v : Nat) :
    (t.wave? d v).isSome = (s.wave? d v).isSome := by
  unfold State.endLen at h
  dsimp only at h
  split at h
  · exact wave?_isSome_lenFor h d v
  · cases h; rfl

theorem wave?_invalidateClean (s : State) (c d w : Nat) : (s.invalidateClean c).wave? d w = s.wave? d w := by
  unfold State.invalidateClean State.killLoads
  exact (wave?_modCore _ c d w _).trans (wave?_modCore s c d w _)

theorem wave?_acquire (s : State) (c t : Nat) (sc : Scope) (d w : Nat) : (s.acquire c t sc).wave? d w = s.wave? d w := by
  unfold State.acquire
  split
  · exact wave?_invalidateClean s c d w
  · rfl

theorem wave?_isSome_advanceGen (s : State) (c w d v : Nat) : ((s.advanceGen c w).wave? d v).isSome = (s.wave? d v).isSome := by
  rw [← wave?_isSome_modWave s c w d v (fun x => { x with fgen := (s.wave c w).fgen + 1 })]
  unfold State.advanceGen
  dsimp only
  split
  · rw [wave?_modSlice]
  · rfl

theorem wave?_isSome_firstAcquire (s : State) (x : Iss) (d v : Nat) : ((s.firstAcquire x).wave? d v).isSome = (s.wave? d v).isSome := by
  unfold State.firstAcquire
  split
  · rfl
  · rw [wave?_isSome_advanceGen, wave?_acquire]
    exact wave?_isSome_modWave s x.c x.w d v _

/-- A change that leaves every wave leaves the machine. -/
theorem modWave_id (s : State) (c w : Nat) : s.modWave c w (fun y => y) = s := by
  unfold State.modWave
  cases hw : s.wave? c w with
  | none => rfl
  | some y =>
    have hcore : FMap.get s.cores c = some (s.core c) := by
      cases hc : FMap.get s.cores c with
      | some k => rw [core_of_get hc]
      | none =>
        rw [State.wave?, State.core, FMap.getD_eq, hc] at hw
        cases hw
    exact modCore_unchanged hcore (by rw [FMap.set_of_get hw])

/-- A bundle that issues is one of a wave. -/
theorem issuing_wave {s : State} {x : Iss} (h : s.issuing = some x) : (s.wave? x.c x.w).isSome = true := by
  unfold State.issuing at h
  split at h
  · cases h
  · split at h
    · cases h
    · next u _ y hy =>
      cases h
      split at hy
      · exact Option.isSome_of_eq_some hy
      · cases hy

theorem Issues.wave {s s0 : State} {o : Opnds} {pfx : Bool} {x : Iss} {act : Mask} {dflt : DCls} {more : List Nat}
    (hi : Issues s o pfx s0 x act dflt more) : (s0.wave? x.c x.w).isSome = true := by
  rw [hi.first, wave?_isSome_firstAcquire]
  exact issuing_wave hi.bundle

/-- A wave that is there is as a change makes it. -/
theorem now_modNow_of_isSome {s : State} {x : Iss} (f : Wave → Wave) (h : (s.wave? x.c x.w).isSome = true) :
    (s.modNow x f).now x = f (s.now x) := by
  obtain ⟨y, hy⟩ := Option.isSome_iff_exists.1 h
  rw [now_eq, now_eq, State.modNow, wave?_modWave, if_pos ⟨rfl, rfl⟩, hy]
  rfl

/-! ### `NOP`, software traps, `YLD`, `SLEEP` and `TMARK` (R443, R445, R447, R448) -/

section
variable {o : Opnds} {s s0 : State} {x : Iss} {act : Mask} {vs : List Src} (hi : Issues s o false s0 x act)
include hi

theorem nop_retires : Retires (.nop o) s s0 x act o false { s := s0 } :=
  retires_of_body hi (show exec _ s = execNop o s from rfl) rfl rfl

/-- A software trap retires with its trap of class A, whose address is its code. -/
theorem softTrap_retires {i : Instr} {e : Cause} (he : exec i s = softTrap o e s) (hs : s0.sources x act o [fieldA o] = .ok vs) :
    Retires i s s0 x act o false { s := s0, after := some (x.after e act (BitVec.ofNat 64 (once act vs 0))) } :=
  retires_of_body hi he rfl (by simp only [hs])

theorem yld_retires : Retires (.yld o) s s0 x act o false { s := s0.yieldWave x.c x.w } :=
  retires_of_body hi (show exec _ s = execYld o s from rfl) rfl rfl

theorem sleep_yields (hs : s0.sources x act o [fieldA o] = .ok vs) (hn : min (once act vs 0) 1048575 = 0) :
    Retires (.sleep o) s s0 x act o false { s := s0.yieldWave x.c x.w } :=
  retires_of_body hi (show exec _ s = execSleep o s from rfl) rfl (by simp only [hs, if_pos hn])

theorem sleep_waits (hs : s0.sources x act o [fieldA o] = .ok vs) (hn : min (once act vs 0) 1048575 ≠ 0) :
    Waits (.sleep o) s s0 x act o s0 (.sleep (s0.time + min (once act vs 0) 1048575)) :=
  waits_of_body hi (show exec _ s = execSleep o s from rfl) rfl (by simp only [hs, if_neg hn])

theorem tmark_retires (hs : s0.sources x act o [fieldA o, fieldB o] = .ok vs) :
    Retires (.tmark o) s s0 x act o false
      { s := s0.traceWave x.c x.w 3 (leBytes 2 (once act vs 0) ++ leBytes 2 0 ++ leBytes 4 (once act vs 1)) } :=
  retires_of_body hi (show exec _ s = execTmark o s from rfl) rfl (by simp only [hs])

end

/-! ### `HALT` (R444) -/

/-- What `HALT` does before its wave is looked at: it waits for a boundary, for a fetch, or its threads end. -/
def haltBody (retain : Bool) (s : State) (x : Iss) (act : Mask) : Except Stop Fx :=
  if (s.now x).awaitsBoundary (~~~act) then .error .block
  else match s.endLen x (~~~act) with
  | (s, none) => .error (.miss s)
  | (s, some _) =>
    .ok { s := (if retain then s.modTeam x.src.team (fun t => { t with retain := true }) else s).endThreads x.c x.w act }

/-- The end of a wave or of its handler mode, on the machine that an instruction of it comes to. -/
def endsAfter (s : State) : Host.Outcome State Fault Refusal → Host.Outcome State Fault Refusal
  | .next t => .next (match s.issuing with
    | some x => t.afterEnd x.c x.w (if t.leftHandler x then t.now x else x.src)
    | none => t)
  | r => r

theorem exec_halt (o : Opnds) (retain : Bool) (s : State) :
    exec (.halt o retain) s = endsAfter s (simt s o false noPre (haltBody retain)) := by
  show execHalt o retain s = _
  unfold execHalt endsAfter haltBody
  rfl

section
variable {o : Opnds} {s s0 : State} {x : Iss} {act : Mask} (hi : Issues s o false s0 x act)
include hi

/-- `HALT` is its body and, on the machine that this comes to, the end of its wave or of handler mode. -/
theorem halt_eq (retain : Bool) {t : State} (ht : s0.finish x act o false (haltBody retain s0 x act) = t) :
    exec (.halt o retain) s = .next (t.afterEnd x.c x.w (if t.leftHandler x then t.now x else x.src)) := by
  rw [exec_halt, simt_issues hi noPre rfl (haltBody retain), ht]
  simp only [endsAfter, hi.bundle]

theorem halt_ends (retain : Bool) (ha : (s0.now x).awaitsBoundary (~~~act) = false) {s2 : State} {n : Nat}
    (hl : s0.endLen x (~~~act) = (s2, some n)) :
    let s1 := (if retain then s2.modTeam x.src.team (fun t => { t with retain := true }) else s2).endThreads x.c x.w act
    let t := s1.retire x act o false { s := s1 }
    s0.transitsOver x s1 = false →
    exec (.halt o retain) s = .next (t.afterEnd x.c x.w (if t.leftHandler x then t.now x else x.src)) := by
  intro s1 t ht
  refine halt_eq hi retain ?_
  have hb : haltBody retain s0 x act = .ok { s := s1 } := by
    simp only [haltBody, ha, hl, Bool.false_eq_true, if_false]
    rfl
  rw [hb, finish_ok s0 x act o false { s := s1 } ht]

theorem halt_misses (retain : Bool) (ha : (s0.now x).awaitsBoundary (~~~act) = false) {s2 : State}
    (hl : s0.endLen x (~~~act) = (s2, none)) :
    let t : State := { s2 with blocked := true }
    exec (.halt o retain) s = .next (t.afterEnd x.c x.w (if t.leftHandler x then t.now x else x.src)) :=
  halt_eq hi retain (by simp only [haltBody, ha, hl, Bool.false_eq_true, if_false]; rfl)

/-- The active threads have ended. -/
theorem halt_ended (retain : Bool) {s2 : State} {n : Nat} (hl : s0.endLen x (~~~act) = (s2, some n)) :
    let s1 := (if retain then s2.modTeam x.src.team (fun t => { t with retain := true }) else s2).endThreads x.c x.w act
    (s1.now x).ended = (s2.now x).ended ||| act := by
  have hw : ∀ u : State, u.wave? x.c x.w = s2.wave? x.c x.w → ((u.endThreads x.c x.w act).now x).ended = (s2.now x).ended ||| act := by
    intro u hu
    have hsome : (u.wave? x.c x.w).isSome = true := by rw [hu, wave?_isSome_endLen hl, hi.wave]
    refine (congrArg Wave.ended (now_modNow_of_isSome _ hsome)).trans ?_
    rw [now_eq s2, ← hu, ← now_eq]
  cases retain with
  | false => exact hw s2 rfl
  | true => exact hw _ (wave?_modTeam s2 _ _ _ _)

end

/-- Settles O14: each body past the reading of its sources; `HALT` by its three ways. -/
theorem systemCompletes : Obligations.SystemCompletes := by
  refine ⟨fun o s s0 x act hi => nop_retires hi,
    fun o s s0 x act vs hi hs => ⟨softTrap_retires hi (show exec _ s = execTrap o s from rfl) hs,
      softTrap_retires hi (show exec _ s = execBrk o s from rfl) hs⟩,
    fun o retain s s0 x act hi ha => ⟨fun s2 n hl => ?ends, fun s2 hl => halt_misses hi retain ha hl⟩,
    fun o s s0 x act hi => yld_retires hi,
    fun o s s0 x act vs hi hs => ⟨sleep_yields hi hs, sleep_waits hi hs⟩,
    fun o s s0 x act vs hi hs => tmark_retires hi hs⟩
  intro s1 t ht
  exact ⟨halt_ends hi retain ha hl ht, halt_ended hi retain hl⟩

/-! ### `ERET` (R434-R436, R442) -/

/-- What `ERET` does before the step of `SR.S` is armed. -/
def eretBody (s : State) (x : Iss) (act : Mask) : Except Stop Fx :=
  if !srH x.src.sr then .error (x.trap act .privileged x.base)
  else if s.leftHandler x then .ok { s := s, whole := true }
  else if (s.now x).heldAsync && !((s.leaveWaits x.c x.w true).now x).atBoundary then .error .block
  else match s.lenFor x.c x.w ((s.now x).asRead x.src) with
  | (s, none) => .error (.miss s)
  | (s, some n) =>
    let s := s.leaveWaits x.c x.w true
    let s := if (s.now x).heldAsync then s.abandonAll x.c x.w else s
    let s := s.modNow x (fun y => y.afterEret x.src n (s.launchOf y).hdr.handler)
    .ok { s := s, whole := true, goes := some (fun l => nth (s.now x).pcs l 0) }

/-- A single step armed by `SR.S` starts with the next instruction of the resumed threads (R435). -/
def State.armStep (s : State) (x : Iss) : State :=
  s.modWave x.c x.w (fun y => if srH x.src.sr && !srH y.sr && srS x.src.sr then { y with stepS := y.live } else y)

/-- That step is armed on the machine that an instruction comes to. -/
def armsAfter (s : State) : Host.Outcome State Fault Refusal → Host.Outcome State Fault Refusal
  | .next t => .next (match s.issuing with | some x => t.armStep x | none => t)
  | r => r

theorem exec_eret (o : Opnds) (s : State) : exec (.eret o) s = armsAfter s (simt s o false noPre eretBody) := by
  show execEret o s = _
  unfold execEret armsAfter eretBody State.armStep
  rfl

section
variable {o : Opnds} {s s0 : State} {x : Iss} {act : Mask} (hi : Issues s o false s0 x act)
include hi

theorem eret_eq {t : State} (ht : s0.finish x act o false (eretBody s0 x act) = t) : exec (.eret o) s = .next (t.armStep x) := by
  rw [exec_eret, simt_issues hi noPre rfl eretBody, ht]
  simp only [armsAfter, hi.bundle]

/-- Outside handler mode it traps, and no step is armed. -/
theorem eret_privileged (hm : srH x.src.sr = false) : exec (.eret o) s = .next (s0.trapNow x (privilegedTrap x act)) := by
  have hb : eretBody s0 x act = .error (.trap (privilegedTrap x act)) := by
    simp only [eretBody, hm, Bool.not_false, if_true]
    rfl
  rw [eret_eq hi (t := s0.trapNow x (privilegedTrap x act)) (by rw [hb]; rfl)]
  refine congrArg Host.Outcome.next ?_
  simp only [State.armStep, hm, Bool.false_and, Bool.false_eq_true, if_false]
  exact modWave_id _ _ _

theorem eret_issues (hm : srH x.src.sr = true) (hl : s0.leftHandler x = true) (ht : s0.transitsOver x s0 = false) :
    exec (.eret o) s = .next ((s0.retire x act o false { s := s0, whole := true }).armStep x) := by
  refine eret_eq hi ?_
  have hb : eretBody s0 x act = .ok { s := s0, whole := true } := by
    simp only [eretBody, hm, hl, Bool.not_true, Bool.false_eq_true, if_false, if_true]
  rw [hb, finish_ok s0 x act o false { s := s0, whole := true } ht]

section
variable (hm : srH x.src.sr = true) (hl : s0.leftHandler x = false)
  (hb : (s0.now x).heldAsync = false ∨ ((s0.leaveWaits x.c x.w true).now x).atBoundary = true)
include hm hl hb

theorem eret_leaves {s1 : State} {n : Nat} (hn : s0.lenFor x.c x.w ((s0.now x).asRead x.src) = (s1, some n)) :
    let s2 := s1.leaveWaits x.c x.w true
    let s3 := if (s2.now x).heldAsync then s2.abandonAll x.c x.w else s2
    let s4 := s3.modNow x (fun y => y.afterEret x.src n (s3.launchOf y).hdr.handler)
    s0.transitsOver x s4 = false →
    exec (.eret o) s = .next ((s4.retire x act o false
      { s := s4, whole := true, goes := some (fun l => nth (s4.now x).pcs l 0) }).armStep x) := by
  intro s2 s3 s4 ht
  refine eret_eq hi ?_
  have hw : ((s0.now x).heldAsync && !((s0.leaveWaits x.c x.w true).now x).atBoundary) = false := by
    rcases hb with h | h <;> simp [h]
  have hbody : eretBody s0 x act =
      .ok { s := s4, whole := true, goes := some (fun l => nth (s4.now x).pcs l 0) } := by
    simp only [eretBody, hm, hl, hw, hn, Bool.not_true, Bool.false_eq_true, if_false]
    rfl
  rw [hbody, finish_ok s0 x act o false { s := s4, whole := true, goes := some (fun l => nth (s4.now x).pcs l 0) } ht]

theorem eret_misses {s1 : State} (hn : s0.lenFor x.c x.w ((s0.now x).asRead x.src) = (s1, none)) :
    exec (.eret o) s = .next (State.armStep { s1 with blocked := true } x) := by
  refine eret_eq hi ?_
  have hw : ((s0.now x).heldAsync && !((s0.leaveWaits x.c x.w true).now x).atBoundary) = false := by
    rcases hb with h | h <;> simp [h]
  simp only [eretBody, hm, hl, hw, hn, Bool.not_true, Bool.false_eq_true, if_false]
  rfl

end
end

/-- Settles O17: the ways through the body, by the mode in which `ERET` issued, the clock's first bundle and the fetch at `TRAPPC`. -/
theorem eretCompletes : Obligations.EretCompletes := by
  intro o s s0 x act hi armed
  exact ⟨fun hm hl hb => ⟨fun s1 n hn => eret_leaves hi hm hl hb hn, fun s1 hn => eret_misses hi hm hl hb hn⟩,
    fun hm hl ht => eret_issues hi hm hl ht, fun hm => eret_privileged hi hm⟩

end Sys2Proof.Machine
end

section
/-! PROOF. What taking a trap saves, where a trap goes, and where `ERET` resumes the threads (R432-R435). -/
namespace Sys2Proof.Machine

/-! ### Bits of the status register and of `TRAPC` (R84, R430) -/

theorem getLsbD_setBit32 (v : Word) (n k : Nat) (b : Bool) (hn : n < 32) :
    (setBit32 v n b).getLsbD k = if k = n then b else v.getLsbD k := by
  have hp : ∀ k, (BitVec.ofNat 32 (2 ^ n)).getLsbD k = decide (k = n) := by
    intro k
    rw [BitVec.getLsbD_ofNat, Nat.testBit_two_pow, Bool.eq_iff_iff, Bool.and_eq_true, decide_eq_true_iff, decide_eq_true_iff,
      decide_eq_true_iff]
    omega
  unfold setBit32
  cases b with
  | true =>
    rw [if_pos rfl, BitVec.getLsbD_or, hp]
    by_cases h : k = n <;> simp [h]
  | false =>
    rw [if_neg Bool.false_ne_true, BitVec.getLsbD_and, BitVec.getLsbD_not, hp]
    by_cases h : k = n
    · simp [h]
    · by_cases hk : k < 32
      · simp [h, hk]
      · simp [-BitVec.getLsbD_eq_getElem, h, hk, BitVec.getLsbD_of_ge v k (by omega)]

theorem nth_range_map {α : Type} (f : Nat → α) (d : α) {n l : Nat} (h : l < n) : nth ((List.range n).map f) l d = f l := by
  simp [nth, h]

theorem getLsbD_live (x : Wave) {l : Nat} (h : l < 32) : x.live.getLsbD l = !x.ended.getLsbD l := by
  rw [Wave.live, BitVec.getLsbD_not, decide_eq_true h, Bool.true_and]

/-! ### `ERET` (R435) -/

theorem groupPrefix_eq (x : Wave) : ∃ bs, x.groupPrefix = { x with bundles := bs } := by
  unfold Wave.groupPrefix
  split
  · exact ⟨_, rfl⟩
  · exact ⟨x.bundles, rfl⟩

/-- With `TRAPPC` as it was at delivery a thread there that is not in `RESM` skips the instruction, and any other re-executes it or
goes on where it was. -/
theorem resumed_eq {x : Wave} (len l : Nat) (h : x.trap.stands = some x.trap.trappc) :
    x.resumed len l = if nth x.resume l 0 = x.trap.trappc ∧ x.trap.resm.getLsbD l = false then
      x.trap.trappc + BitVec.ofNat 64 len else nth x.resume l 0 := by
  simp only [Wave.resumed, h, Option.some.injEq]
  by_cases hr : x.trap.trappc = nth x.resume l 0
  · cases x.trap.resm.getLsbD l <;> simp [hr]
  · rw [if_neg hr, if_neg fun hc => hr hc.1.symm]

/-- Settles O18: each address by `resumed_eq`, each bit of the status register by the bit that `ERET` writes. -/
theorem eretResumes : Obligations.EretResumes := by
  intro x len _ hs y
  obtain ⟨bs, hy⟩ := groupPrefix_eq { x with
    pcs := (List.range 32).map (fun l => if x.live.getLsbD l then x.resumed len l else nth x.pcs l 0)
    bundles := regroup x.bundles (maskOf (fun l => x.live.getLsbD l && x.trap.resm.getLsbD l &&
      x.trap.stands == some (nth x.resume l 0)))
    sr := setBit32 (setBit32 x.sr 30 false) 29 x.asidePP
    pfx := x.asidePfx
    pfxMask := x.asideMask
    handler := 0
    stepS := if srS (setBit32 (setBit32 x.sr 30 false) 29 x.asidePP) then x.live else 0 }
  have hpcs : y.pcs = (List.range 32).map (fun l => if x.live.getLsbD l then x.resumed len l else nth x.pcs l 0) :=
    congrArg Wave.pcs hy
  have hsr : y.sr = setBit32 (setBit32 x.sr 30 false) 29 x.asidePP := congrArg Wave.sr hy
  refine ⟨fun l hl he => ?_, fun l hl he => ?_, ?_, ?_, ?_, congrArg Wave.pfx hy, congrArg Wave.pfxMask hy,
    congrArg Wave.handler hy⟩
  · rw [hpcs, nth_range_map _ _ hl, getLsbD_live x hl, he, resumed_eq len l hs]
    rfl
  · rw [hpcs, nth_range_map _ _ hl, getLsbD_live x hl, he]
    rfl
  · rw [hsr, srH, getLsbD_setBit32 _ _ _ _ (by decide), getLsbD_setBit32 _ _ _ _ (by decide)]
    rfl
  · rw [hsr, srS, srS, getLsbD_setBit32 _ _ _ _ (by decide), getLsbD_setBit32 _ _ _ _ (by decide)]
    rfl
  · rw [hsr, srPP, getLsbD_setBit32 _ _ _ _ (by decide)]
    rfl

/-! ### Entering the handler (R432) -/

theorem cause_num_lt (e : Cause) : Cause.num e < 128 := by
  cases e <;> decide

theorem ite_pow_eq_toNat (p : Prop) [Decidable p] (n : Nat) : (if p then 2 ^ n else 0) = (decide p).toNat * 2 ^ n := by
  by_cases h : p <;> simp [h]

/-- `TRAPC` as a trap writes it, as a number: its fields at their places. -/
theorem trapCode_toNat (t : Trap) (pend : Bool) :
    (t.code pend).toNat = Cause.num t.cause + t.aux % 256 * 2 ^ 16 + pend.toNat * 2 ^ 29 + (decide (t.cls = clsA)).toNat * 2 ^ 30 +
      (decide (t.cls = clsB)).toNat * 2 ^ 31 := by
  have hn := cause_num_lt t.cause
  have hp := Bool.toNat_le pend
  have hab : (decide (t.cls = clsA)).toNat + (decide (t.cls = clsB)).toNat ≤ 1 := by
    by_cases h : t.cls = clsA
    · rw [h]
      decide
    · rw [decide_eq_false h, Bool.toNat_false, Nat.zero_add]
      exact Bool.toNat_le _
  rw [Trap.code, ite_pow_eq_toNat, ite_pow_eq_toNat, ite_pow_eq_toNat, Bool.decide_eq_true, BitVec.toNat_ofNat]
  exact Nat.mod_eq_of_lt (by omega)

theorem getLsbD_of_toNat {v : Word} {k : Nat} {b : Bool} (h : v.toNat / 2 ^ k % 2 = b.toNat) : v.getLsbD k = b := by
  rw [BitVec.getLsbD, Nat.testBit_eq_decide_div_mod_eq, h]
  cases b <;> rfl

/-- The fields of `TRAPC` as a trap writes it. -/
theorem trapCode_fields (t : Trap) (pend : Bool) :
    (t.code pend).toNat % 128 = Cause.num t.cause % 128 ∧ (t.code pend).toNat / 65536 % 256 = t.aux % 256 ∧
    (t.code pend).getLsbD 29 = pend ∧ (t.code pend).getLsbD 30 = decide (t.cls = clsA) ∧
    (t.code pend).getLsbD 31 = decide (t.cls = clsB) := by
  have hv := trapCode_toNat t pend
  have hn := cause_num_lt t.cause
  have hp := Bool.toNat_le pend
  have h1 := Bool.toNat_le (decide (t.cls = clsA))
  have h2 := Bool.toNat_le (decide (t.cls = clsB))
  exact ⟨by omega, by omega, getLsbD_of_toNat (by omega), getLsbD_of_toNat (by omega), getLsbD_of_toNat (by omega)⟩

/-- Settles O19: the fields of the entered wave as `enter` writes them. -/
theorem trapEntry : Obligations.TrapEntry := by
  intro x t h y m
  have hsr : y.sr = setBit32 (setBit32 x.sr 29 false) 30 true := rfl
  have hpcs : y.pcs = (List.range 32).map (fun l => if m.getLsbD l then h else nth x.pcs l 0) := rfl
  refine ⟨rfl, rfl, rfl, rfl, fun ha => ?code, rfl, ?_, ?_, ?_, rfl, rfl, fun l hl => ?_, rfl, rfl, rfl, rfl, rfl, rfl⟩
  case code =>
    obtain ⟨hcause, haux, -, hA, hB⟩ :=
      trapCode_fields t (!(if t.cls = clsB then [] else x.async.map (fun a => ({ trap := a } : HeldTrap))).isEmpty)
    exact ⟨hcause, haux.trans (Nat.mod_eq_of_lt ha), hA, hB⟩
  · rw [hsr, srH, getLsbD_setBit32 _ _ _ _ (by decide)]
    rfl
  · rw [hsr, srS, srS, getLsbD_setBit32 _ _ _ _ (by decide), getLsbD_setBit32 _ _ _ _ (by decide)]
    rfl
  · rw [hsr, srPP, getLsbD_setBit32 _ _ _ _ (by decide), getLsbD_setBit32 _ _ _ _ (by decide)]
    rfl
  · rw [hpcs, nth_range_map _ _ hl]

/-! ### What a fault record leaves of the waves (R230, R259, R415) -/

/-- The wave of a slot among some cores. -/
def waveIn (m : FMap Core) (c w : Nat) : Wave := FMap.getD (FMap.getD m c {}).waves w {}

/-- Of every wave of some cores others have everything but what it waits for. -/
def WaitsOnly (m n : FMap Core) : Prop := ∀ c w, ∃ ws, waveIn n c w = { waveIn m c w with waits := ws }

theorem WaitsOnly.refl (m : FMap Core) : WaitsOnly m m := fun _ _ => ⟨_, rfl⟩

theorem WaitsOnly.trans {m n p : FMap Core} (h : WaitsOnly m n) (g : WaitsOnly n p) : WaitsOnly m p := by
  intro c w
  obtain ⟨ws, hw⟩ := h c w
  obtain ⟨vs, hv⟩ := g c w
  exact ⟨vs, by rw [hv, hw]⟩

section
variable {m : FMap Core}

theorem foldl_waitsOnly {α : Type} {f : State → α → State} (hf : ∀ s a, WaitsOnly m s.cores → WaitsOnly m (f s a).cores) (l : List α)
    {s : State} (h : WaitsOnly m s.cores) : WaitsOnly m (l.foldl f s).cores := by
  induction l generalizing s with
  | nil => exact h
  | cons a l ih => exact ih (hf s a h)

theorem modCore_waitsOnly {s : State} {c : Nat} {f : Core → Core} (h : WaitsOnly m s.cores)
    (hf : ∀ k, (f k).waves = k.waves := by intro; rfl) : WaitsOnly m (s.modCore c f).cores := by
  refine h.trans fun d w => ⟨(s.wave d w).waits, ?_⟩
  have hw : (s.modCore c f).wave d w = s.wave d w := by rw [wave_eq, wave_eq, wave?_modCore s c d w f hf]
  exact hw

theorem modWaits_waitsOnly {s : State} {c w : Nat} {f : List Wait → List Wait} (h : WaitsOnly m s.cores) :
    WaitsOnly m (s.modWave c w (fun x => { x with waits := f x.waits })).cores := by
  refine h.trans fun d v => ?_
  have hw : ∃ ws, (s.modWave c w (fun x => { x with waits := f x.waits })).wave d v = { s.wave d v with waits := ws } := by
    rw [wave_eq, wave_eq, wave?_modWave]
    split
    · next h =>
      rw [h.1, h.2]
      cases s.wave? c w with
      | none => exact ⟨_, rfl⟩
      | some y => exact ⟨_, rfl⟩
    · exact ⟨_, rfl⟩
  exact hw

theorem wakeLine_waitsOnly {s : State} {l : Nat} (h : WaitsOnly m s.cores) : WaitsOnly m (s.wakeLine l).cores :=
  foldl_waitsOnly (fun _ _ h => modWaits_waitsOnly h) _ (s := { s with waiters := s.waiters.filter (fun x => x.1 != l) }) h

theorem cores_foldl {α : Type} {f : State → α → State} (hf : ∀ s a, (f s a).cores = s.cores) (l : List α) (s : State) :
    (l.foldl f s).cores = s.cores := by
  induction l generalizing s with
  | nil => rfl
  | cons a l ih => exact (ih _).trans (hf s a)

theorem cores_l2Clean (s : State) (l : Nat) : (s.l2Clean l).cores = s.cores := by
  unfold State.l2Clean
  split <;> rfl

theorem cores_l2Trim (s : State) (h n : Nat) : (s.l2Trim h n).cores = s.cores :=
  cores_foldl (f := fun s (e : Nat × Bool) => s.l2Drop e.1) (fun u e => cores_l2Clean u e.1) _ s

theorem cores_l2Put (s : State) (l : Nat) (dirty last : Bool) : (s.l2Put l dirty last).cores = s.cores := by
  unfold State.l2Put
  grind [cores_l2Trim]

theorem cores_nodeUpdate (s : State) (l : Nat) : (s.nodeUpdate l).cores = s.cores := by
  unfold State.nodeUpdate
  split <;> rfl

/-- A write of a line at its home wakes its waiters. -/
theorem written_waitsOnly {s : State} {l : Nat} {b : Bool} (h : WaitsOnly m s.cores) :
    WaitsOnly m (((s.wakeLine l).l2Put l true b).nodeUpdate l).cores := by
  rw [cores_nodeUpdate, cores_l2Put]
  exact wakeLine_waitsOnly h

theorem homeWrite_waitsOnly {s : State} {k : Nat} {bs : List Byte} (h : WaitsOnly m s.cores) :
    WaitsOnly m (s.homeWrite k bs).1.cores := by
  unfold State.homeWrite
  grind [foldl_waitsOnly, written_waitsOnly, modCore_waitsOnly]

theorem killLoads_waitsOnly {s : State} {c : Nat} {b : Bool} {ls : List Nat} (h : WaitsOnly m s.cores) :
    WaitsOnly m (s.killLoads c b ls).cores :=
  modCore_waitsOnly h

theorem writeBack_waitsOnly {s : State} {c l : Nat} (h : WaitsOnly m s.cores) : WaitsOnly m (s.writeBack c l).cores := by
  unfold State.writeBack
  grind [killLoads_waitsOnly, written_waitsOnly, modCore_waitsOnly]

theorem flushDirty_waitsOnly {s : State} {c : Nat} (h : WaitsOnly m s.cores) : WaitsOnly m (s.flushDirty c).cores :=
  foldl_waitsOnly (fun _ _ h => writeBack_waitsOnly h) _ h

theorem hostWrite_waitsOnly {s : State} {a : DWord} {bs : List Byte} (h : WaitsOnly m s.cores) :
    WaitsOnly m (s.hostWrite a bs).1.cores := by
  unfold State.hostWrite
  grind [homeWrite_waitsOnly]

theorem ringPut_waitsOnly {s : State} {bs : List Byte} (h : WaitsOnly m s.cores) : WaitsOnly m (s.ringPut bs).cores := by
  unfold State.ringPut State.msi
  grind [hostWrite_waitsOnly, flushDirty_waitsOnly]

theorem postFault_waitsOnly {s : State} {r : FaultRec} {b : Bool} (h : WaitsOnly m s.cores) :
    WaitsOnly m (s.postFault r b).1.cores := by
  unfold State.postFault
  grind [ringPut_waitsOnly]

theorem postTrap_waitsOnly {s : State} {c w : Nat} {t : Trap} (h : WaitsOnly m s.cores) : WaitsOnly m (s.postTrap c w t).cores := by
  unfold State.postTrap
  grind [postFault_waitsOnly]

end

/-! ### Where a trap goes (R432-R434) -/

/-- Changes of a wave that come to the same for the wave as it stands come to the same machine. -/
theorem modWave_congr {s : State} {c w : Nat} {f g : Wave → Wave} (h : f (s.wave c w) = g (s.wave c w)) :
    s.modWave c w f = s.modWave c w g := by
  rw [wave_eq] at h
  unfold State.modWave
  cases hy : s.wave? c w with
  | none => rfl
  | some y =>
    rw [hy] at h
    exact congrArg (s.setWave c w) h

/-- The trap `u` entered the handler, when its wave had last issued at `n`, and `t` is of the other instruction of its clock. -/
def Wave.isPair (x : Wave) (t u : Trap) (n : Nat) : Prop := x.first = some (u, n) ∧ t.cls ≠ clsB ∧ t.clk ≠ none ∧ u.clk = t.clk

/-- Of such a pair `t` has the lower address, and its wave has not issued since. -/
def Wave.comesFirst (x : Wave) (t u : Trap) (n : Nat) : Prop := t.pc.toNat < u.pc.toNat ∧ x.lastIssue = n

theorem pairs_iff (x : Wave) (t : Trap) : x.pairs t = true ↔ ∃ u n, x.isPair t u n := by
  unfold Wave.pairs Wave.isPair
  cases hf : x.first with
  | none => simp
  | some p =>
    obtain ⟨u, n⟩ := p
    simp only [Bool.and_eq_true, bne_iff_ne, beq_iff_eq, Option.some.injEq, Prod.mk.injEq, Option.isSome_iff_ne_none]
    constructor
    · rintro ⟨⟨hb, hc⟩, he⟩
      exact ⟨u, n, ⟨rfl, rfl⟩, hb, hc, he⟩
    · rintro ⟨v, m, ⟨rfl, rfl⟩, hb, hc, he⟩
      exact ⟨⟨hb, hc⟩, he⟩

theorem yields_some {x : Wave} {t u : Trap} {n : Nat} (hp : x.isPair t u n) (hf : x.comesFirst t u n) : x.yields t = some u := by
  have hpairs : x.pairs t = true := (pairs_iff x t).2 ⟨u, n, hp⟩
  obtain ⟨hfirst, -⟩ := hp
  obtain ⟨hlow, hlast⟩ := hf
  simp [Wave.yields, hfirst, hpairs, hlow, hlast]

theorem yields_none {x : Wave} {t : Trap} (h : ∀ u n, x.isPair t u n → ¬ x.comesFirst t u n) : x.yields t = none := by
  unfold Wave.yields
  cases hf : x.first with
  | none => rfl
  | some p =>
    obtain ⟨u, n⟩ := p
    refine if_neg fun hc => ?_
    simp only [Bool.and_eq_true, decide_eq_true_iff, beq_iff_eq] at hc
    obtain ⟨⟨hpairs, hlow⟩, hlast⟩ := hc
    obtain ⟨v, m, hp⟩ := (pairs_iff x t).1 hpairs
    obtain ⟨hfirst, -⟩ := id hp
    cases hf.symm.trans hfirst
    exact h u n hp ⟨hlow, hlast⟩

/-- Whether a wave holds a trap for `ERET` when it arises in clock `clk` (R433, R434). -/
def Wave.holds (x : Wave) (t : Trap) (clk : Nat) : Bool :=
  srH x.sr && (t.cls == clsB || t.bundle &&& x.handler == 0) && (x.trapClk == some clk || x.pairs t)

theorem holds_iff (x : Wave) (t : Trap) (clk : Nat) :
    x.holds t clk = true ↔ srH x.sr = true ∧ (t.cls = clsB ∨ t.bundle &&& x.handler = 0) ∧
      (x.trapClk = some clk ∨ ∃ u n, x.isPair t u n) := by
  rw [Wave.holds, Bool.and_eq_true, Bool.and_eq_true, Bool.or_eq_true, Bool.or_eq_true, beq_iff_eq, beq_iff_eq, beq_iff_eq, pairs_iff,
    and_assoc]

section
variable {s : State} {c w : Nat} {t : Trap} (hr : s.replays (s.ctxOf (s.wave c w)) t.cause = false) (hb : t.cause ≠ .breakpoint)
  (hs : t.cause ≠ .singleStep) (hw : t.cause ≠ .watchpoint)
include hr hb hs hw

/-- A trap that is neither for the host nor for a debugger, where it is not held, enters the handler or kills the team. -/
theorem deliver_unheld (h : (s.wave c w).holds t (s.clkOf c) = false) :
    (srH (s.wave c w).sr = true ∨ (s.launchOf (s.wave c w)).hdr.handler = 0 ∨ t.cause = .machineCheck →
      s.deliver c w t = s.killReport c w t.cause t.addr ((t.post.map (·.2)).getD t.access)) ∧
    (srH (s.wave c w).sr = false → (s.launchOf (s.wave c w)).hdr.handler ≠ 0 → t.cause ≠ .machineCheck →
      (s.wave c w).stepDbg = 0 → (s.wave c w).stepDrain = false → (s.wave c w).drainStop = none →
      s.deliver c w t = (s.postTrap c w t).modWave c w (fun y =>
        { (y.enter t (s.launchOf (s.wave c w)).hdr.handler) with trapClk := some (s.clkOf c), first := some (t, y.lastIssue) })) := by
  have hdbg : (t.cause == .breakpoint || t.cause == .singleStep || t.cause == .watchpoint) = false := by simp [hb, hs, hw]
  rw [Wave.holds] at h
  refine ⟨fun hk => ?_, fun hh hn hm hstep hdrain hstop => ?_⟩
  · simp only [State.deliver, hr, hdbg, h, Bool.and_false, Bool.false_and, Bool.false_eq_true, if_false, if_pos hk]
  · have hk : ¬ (srH (s.wave c w).sr = true ∨ (s.launchOf (s.wave c w)).hdr.handler = 0 ∨ t.cause = .machineCheck) :=
      fun hk => hk.elim (fun h => Bool.false_ne_true (hh.symm.trans h)) (fun hk => hk.elim hn hm)
    simp only [State.deliver, hr, hdbg, h, Bool.and_false, Bool.false_and, Bool.false_eq_true, if_false, if_neg hk, hstep, hdrain,
      hstop, Option.isSome_none, Bool.or_false, if_true]

/-- One that is held is held behind the trap that entered the handler, or takes its place. -/
theorem deliver_held (hstop : (s.wave c w).drainStop = none)
    (h : (s.wave c w).holds t (s.clkOf c) = true) :
    ((s.wave c w).yields t = none → s.deliver c w t = (s.postTrap c w t).modWave c w (fun y => y.hold t)) ∧
    (∀ u, (s.wave c w).yields t = some u →
      s.deliver c w t = (s.postTrap c w t).modWave c w (fun y => y.swap t u (s.launchOf (s.wave c w)).hdr.handler)) := by
  have hdbg : (t.cause == .breakpoint || t.cause == .singleStep || t.cause == .watchpoint) = false := by simp [hb, hs, hw]
  rw [Wave.holds] at h
  refine ⟨fun hy => ?_, fun u hy => ?_⟩
  · simp only [State.deliver, hr, hdbg, h, hy, Bool.and_false, Bool.false_and, Bool.false_eq_true, if_false, if_true]
  · simp only [State.deliver, hr, hdbg, h, hy, hstop, Option.isSome_none, Bool.and_false, Bool.false_and, Bool.false_eq_true, if_false,
      if_true]

end

/-- A trap that is held keeps the resume addresses of its bundle, and sets `TRAPC.PEND`. -/
theorem hold_posted (s : State) (c w : Nat) (t : Trap) :
    (s.postTrap c w t).modWave c w (fun y => y.hold t) = (s.postTrap c w t).modWave c w (fun y => { y with
      held := y.held ++ [{ trap := t, resume := (lanesOf t.bundle).map (fun l => (l, nth (s.wave c w).resume l 0)) }]
      trap := { y.trap with trapc := setBit32 (s.wave c w).trap.trapc 29 true } }) := by
  obtain ⟨ws, hkeep⟩ := postTrap_waitsOnly (t := t) (w := w) (c := c) (WaitsOnly.refl s.cores) c w
  have hwave : (s.postTrap c w t).wave c w = { s.wave c w with waits := ws } := hkeep
  exact modWave_congr (by rw [Wave.hold, hwave])

theorem mem_heldResume {m : Mask} {f : Nat → DWord} {l : Nat} (hl : m.getLsbD l = true) : (l, f l) ∈ (lanesOf m).map (fun l => (l, f l)) :=
  List.mem_map.2 ⟨l, mem_lanesOf_of_getLsbD hl, rfl⟩

/-- Settles O20: a trap is held by the condition of `deliver`, which is that it stands apart and arises in the clock of the first one
or is of its pair. -/
theorem trapDelivery : Obligations.TrapDelivery := by
  intro s c w t x apart killed handler late before hr hb hs hw hstep hdrain hstop
  have hholds : x.holds t (s.clkOf c) = true ↔ srH x.sr = true ∧ apart ∧ (x.trapClk = some (s.clkOf c) ∨ ∃ u n, late u n) :=
    holds_iff x t (s.clkOf c)
  have hfree : ¬ (srH x.sr = true ∧ apart ∧ (x.trapClk = some (s.clkOf c) ∨ ∃ u n, late u n)) → x.holds t (s.clkOf c) = false :=
    fun h => Bool.eq_false_iff.2 (mt hholds.1 h)
  have hout : srH x.sr = false → x.holds t (s.clkOf c) = false := fun h => hfree fun ⟨hh, _⟩ => Bool.false_ne_true (h.symm.trans hh)
  refine ⟨fun hh hn hm => (deliver_unheld hr hb hs hw (hout hh)).2 hh hn hm hstep hdrain hstop,
    fun hh hn => (deliver_unheld hr hb hs hw (hout hh)).1 (.inr (.inl hn)),
    fun hh hm => (deliver_unheld hr hb hs hw (hout hh)).1 (.inr (.inr hm)),
    fun hh ha => (deliver_unheld hr hb hs hw (hfree fun ⟨_, h, _⟩ => ha h)).1 (.inl hh),
    fun hh hc hn => (deliver_unheld hr hb hs hw (hfree fun ⟨_, _, h⟩ => h.elim hc fun ⟨u, n, hp⟩ => hn u n hp)).1 (.inl hh),
    fun hh ha hc hn => ?holds, fun u n hh ha hp hf => ?swaps⟩
  case holds =>
    refine ⟨{ trap := t, resume := (lanesOf t.bundle).map (fun l => (l, nth x.resume l 0)) }, rfl, fun l _ hl => mem_heldResume hl,
      setBit32 x.trap.trapc 29 true, ?_, fun b hb => ?_, ?_⟩
    · rw [getLsbD_setBit32 _ _ _ _ (by decide), if_pos rfl]
    · rw [getLsbD_setBit32 _ _ _ _ (by decide), if_neg hb]
    · exact ((deliver_held hr hb hs hw hstop (hholds.2 ⟨hh, ha, hc⟩)).1 (yields_none hn)).trans (hold_posted s c w t)
  case swaps =>
    refine ⟨(deliver_held hr hb hs hw hstop (hholds.2 ⟨hh, ha, .inr ⟨u, n, hp⟩⟩)).2 u (yields_some hp hf), ?_⟩
    obtain ⟨-, hcls, -⟩ := id hp
    intro y
    have hpcs : y.pcs = (List.range 32).map (fun l => if (t.handlers x).getLsbD l then handler else nth x.resume l 0) := rfl
    have hhandlers : t.handlers x = t.bundle &&& x.live := if_neg hcls
    obtain ⟨-, -, hpend, -⟩ := trapCode_fields t true
    refine ⟨if_neg hcls, rfl, rfl, hpend,
      ⟨{ trap := u, resume := (lanesOf u.bundle).map (fun l => (l, nth x.resume l 0)) }, rfl, rfl, fun l _ hl => mem_heldResume hl⟩,
      fun l hl => ?_⟩
    rw [hpcs, nth_range_map _ _ hl, hhandlers, BitVec.getLsbD_and, getLsbD_live x hl]
    simp only [Bool.and_eq_true, Bool.not_eq_true']

end Sys2Proof.Machine
end

section
/-! PROOF. Barrier instructions complete (R381-R391). -/
namespace Sys2Proof.Machine

/-! ### The first of an instruction's operands, read before the others (R60) -/

theorem namesOk_head {x : Iss} {act : Mask} {d : Opd} {ds : List Opd} (h : x.namesOk act (d :: ds) = .ok ()) :
    x.namesOk act [d] = .ok () := by
  unfold Iss.namesOk at h ⊢
  split at h
  · next hv =>
    rw [if_pos hv]
    split at h
    · cases h
    · rfl
  · next hv => rw [if_neg hv]; rfl

theorem readOpds_head {s : State} {x : Iss} {act : Mask} {o : Opnds} {d : Opd} {ds : List Opd} {vs : List Src}
    (h : s.readOpds x act o (d :: ds) = .ok vs) : s.readOpds x act o [d] = .ok [nth vs 0 Src.none] := by
  unfold State.readOpds at h
  split at h
  · cases h
  · next v hv =>
    split at h
    · cases h
    · cases h
      simp only [State.readOpds, hv]
      rfl

theorem sources_of {s : State} {x : Iss} {act : Mask} {o : Opnds} {ds : List Opd} {vs : List Src} (hn : x.namesOk act ds = .ok ())
    (hr : s.readOpds x act o ds = .ok vs) : s.sources x act o ds = .ok vs := by
  simp only [State.sources, hn, hr]

theorem sources_head {s : State} {x : Iss} {act : Mask} {o : Opnds} {d : Opd} {ds : List Opd} {vs : List Src}
    (h : s.sources x act o (d :: ds) = .ok vs) : s.sources x act o [d] = .ok [nth vs 0 Src.none] := by
  obtain ⟨hn, hr⟩ := sources_ok h
  exact sources_of (namesOk_head hn) (readOpds_head hr)

theorem once_head (act : Mask) (v : Src) : once act [v] 0 = onceNat act v := rfl

section
variable {o : Opnds} {s s0 s1 : State} {x : Iss} {act : Mask} {vs : List Src} {k : Nat}

/-! ### BAR (R381) -/

theorem bar_waits (hi : Issues s o false s0 x act) (hs : s0.sources x act o [fieldA o] = .ok vs) (hb : once act vs 0 ≤ 15)
    (hr : s0.releaseNow x act .team = .ok s1) :
    Waits (.bar o) s s0 x act o (s1.modTeam x.src.team (fun t => { t with bars := FMap.mod t.bars (once act vs 0) {} (fun y =>
      { y with arrived := FMap.set y.arrived x.src.index (FMap.getD y.arrived x.src.index 0 ||| act) }) }))
      (.bar (once act vs 0)) :=
  waits_of_body hi (show exec _ s = execBar o s from rfl) rfl (by simp only [hs, if_neg (Nat.not_lt.2 hb), hr])

/-! ### Byte barriers (R383-R386) -/

theorem bbinit_retires (hi : Issues s o false s0 x act) (hs : s0.sources x act o [fieldA o, fieldB o, fieldC o] = .ok vs)
    (ha : once act vs 0 % 16 = 0) (hk : s0.localBench x.src.team (once act vs 0) 16 = some k) (h1 : 1 ≤ once act vs 2)
    (h2 : once act vs 2 ≤ 65535) (hu : s0.unperformed x.c x.w act s0.fresh = false) :
    Retires (.bbinit o) s s0 x act o false
      { s := (s0.modTeam x.src.team (fun t => { t with byteCame := t.byteCame.filter (fun e => e.1 != k) })).benchWrite k
          (ByteBar.bytes { pend := once act vs 1, arrv := once act vs 2, expa := once act vs 2 }) } := by
  have hcount : ¬ (once act vs 2 = 0 ∨ 65535 < once act vs 2) := by omega
  exact retires_of_body hi (show exec _ s = execBbinit o s from rfl) rfl
    (by simp only [hs, ha, hk, hcount, hu, ne_eq, not_true_eq_false, Bool.false_eq_true, if_false])

/-- The state after an arrival at a byte barrier: one arrival fewer and more bytes pending (R384). -/
def State.bbCounted (s : State) (x : Iss) (k : Nat) (b : ByteBar) (bytes : Nat) : State :=
  (s.bbPut k { b with pend := b.pend + bytes, arrv := b.arrv - 1 }).modTeam x.src.team (fun t => { t with
    byteCame := t.byteCame.filter (fun e => e.1 != k || e.2.1 == b.sense) ++ [(k, b.sense, x.src.index)] })

theorem bbarv_retires (hi : Issues s o false s0 x act) (hs : s0.sources x act o [fieldA o, fieldB o] = .ok vs)
    (hk : s0.bbKey x act (once act vs 0) = .ok k) (ha : (s0.bbGet k).arrv ≠ 0) (hr : s0.releaseNow x act .team = .ok s1) {s2 : State}
    (hnone : dclsOf o .none ≠ .sca → s2 = s1)
    (hput : dclsOf o .none = .sca → s1.putScalar x act o.d.toNat [if (s0.bbGet k).sense then 1 else 0] = .ok s2) :
    Retires (.bbarv o) s s0 x act o false { s := s2.bbCounted x k (s0.bbGet k) (once act vs 1) } := by
  refine retires_of_body hi (show exec _ s = execBbarv o s from rfl) rfl ?_
  by_cases hd : dclsOf o .none = .sca
  · simp only [hs, hk, ha, hr, hd, hput hd, if_true, if_false]
    rfl
  · simp only [hs, hk, ha, hr, hd, hnone hd, if_false]
    rfl

/-- What `BBWAIT` comes to at a barrier whose record can be read. -/
theorem bbwait_body {tr : Bool} (hi : Issues s o false s0 x act) (hs : s0.sources x act o [fieldA o, fieldB o] = .ok vs)
    (hk : s0.bbKey x act (once act vs 0) = .ok k) (hu : s0.unperformed x.c x.w act s0.fresh = false) :
    ((s0.bbGet k).sense ≠ (once act vs 1 % 2 == 1) → Retires (.bbwait o tr) s s0 x act o false { s := s0.acquireFor x.c x.w .team }) ∧
    ((s0.bbGet k).sense = (once act vs 1 % 2 == 1) → (tr = false ∨ (s0.bbGet k).susp = false) →
      Waits (.bbwait o tr) s s0 x act o s0 (.bbwait k (once act vs 1 % 2 == 1) tr)) ∧
    ((s0.bbGet k).sense = (once act vs 1 % 2 == 1) → tr = true → (s0.bbGet k).susp = true →
      exec (.bbwait o tr) s = .next (s0.trapNow x
        { cause := .copySuspended, cls := clsW, mask := act, addr := BitVec.ofNat 64 (32 * (s0.bbGet k).srec), pc := x.pc,
          bundle := x.lanes, again := act })) := by
  have he : exec (.bbwait o tr) s = execBbwait o tr s := rfl
  refine ⟨fun h => ?ended, fun h ht => ?waits, fun h ht hp => ?suspended⟩
  case ended =>
    exact retires_of_body hi he rfl (by simp only [hs, hk, hu, bne_iff_ne.2 h, Bool.false_eq_true, if_false, if_true])
  case waits =>
    have hsusp : (tr && (s0.bbGet k).susp) = false := by rcases ht with ht | ht <;> simp [ht]
    exact waits_of_body hi he rfl (by simp only [hs, hk, hu, h, hsusp, bne_self_eq_false, Bool.false_eq_true, if_false])
  case suspended =>
    have hsusp : (tr && (s0.bbGet k).susp) = true := by rw [ht, hp]; rfl
    exact he.trans (simt_traps hi noPre rfl _ _
      (by simp only [hs, hk, hu, h, hsusp, bne_self_eq_false, Bool.false_eq_true, if_false, if_true]; rfl))

/-! ### TBAR and GBAR (R387-R389) -/

theorem tbar_waits {set : TSet} (hi : Issues s o false s0 x act) (hs : s0.sources x act o [fieldA o, fieldB o] = .ok vs)
    (hp : (s0.launch (s0.team x.src.team).launch).phased = true) (hm : tbarNames set (BitVec.ofNat 32 (once act vs 0)) x.c = true)
    (hsame : ∀ a ∈ (s0.launch (s0.team x.src.team).launch).tbar, a.core = x.c →
      a.set = set ∧ a.mask = BitVec.ofNat 32 (once act vs 0))
    (ht : once act vs 1 ≤ 65535) (hr : s0.releaseNow x act .device = .ok s1) :
    Waits (.tbar o set) s s0 x act o (s1.modLaunch (s0.team x.src.team).launch (fun y => { y with tbar := y.tbar ++
      [{ core := x.c, wave := x.w, lanes := x.lanes, time := s1.time, tmo := once act vs 1, set := set,
         mask := BitVec.ofNat 32 (once act vs 0) }] })) .tbar := by
  have hother : (s0.launch (s0.team x.src.team).launch).tbar.any (fun a => a.core == x.c &&
      (a.set != set || a.mask != BitVec.ofNat 32 (once act vs 0))) = false :=
    List.any_eq_false.2 fun a ha => by
      have := hsame a ha
      grind
  refine waits_of_body hi (show exec _ s = execTbar o set s from rfl) rfl ?_
  simp only [hp, sources_head hs, once_head, onceNat_nth, hm, hother, hs, if_neg (Nat.not_lt.2 ht), hr, Bool.not_true, Bool.or_false,
    Bool.false_eq_true, if_false]

theorem gbar_plain_waits (hi : Issues s o false s0 x act) (hs : s0.sources x act o [fieldA o, fieldB o] = .ok vs)
    (hm : o.cb = .none) (hd : dclsOf o .none ≠ .sca) (hp : (s0.launch (s0.team x.src.team).launch).phased = true)
    (ht : once act vs 0 ≤ 65535) (hr : s0.releaseNow x act .device = .ok s1) :
    Waits (.gbar o) s s0 x act o (s1.modLaunch (s0.team x.src.team).launch (fun y => { y with gbar := y.gbar ++
      [{ core := x.c, wave := x.w, lanes := x.lanes, time := s1.time, tmo := once act vs 0, map := none }] })) (.gbar none) := by
  refine waits_of_body hi (show exec _ s = execGbar o s from rfl) rfl ?_
  simp only [hp, hs, hm, hd, if_neg (Nat.not_lt.2 ht), hr, Bool.not_true, bne_self_eq_false, Bool.false_eq_true, false_and, if_false,
    Option.any_none]

theorem gbar_mapped_waits (hi : Issues s o false s0 x act) (hs : s0.sources x act o [fieldA o, fieldB o] = .ok vs)
    (hm : o.cb ≠ .none) (hd : dclsOf o .none = .sca) (hp : (s0.launch (s0.team x.src.team).launch).phased = true)
    (ht : once act vs 0 ≤ 65535) (ha : once act vs 1 % 32 = 0) (hk : s0.localBench x.src.team (once act vs 1) 32 = some k)
    (hk1 : s1.localBench x.src.team (once act vs 1) 32 = some k)
    (hfree : ∀ i, i < 8 → x.src.sPend.getLsbD (o.d.toNat + i) = false) (hr : s0.releaseNow x act .device = .ok s1) :
    Waits (.gbar o) s s0 x act o (s1.modLaunch (s0.team x.src.team).launch (fun y => { y with gbar := y.gbar ++
      [{ core := x.c, wave := x.w, lanes := x.lanes, time := s1.time, tmo := once act vs 0, map := some k }] }))
      (.gbar (some o.d.toNat)) := by
  have hpend : (List.range 8).any (fun i => x.src.sPend.getLsbD (o.d.toNat + i)) = false :=
    List.any_eq_false.2 fun i h => by rw [hfree i (List.mem_range.1 h)]; exact Bool.false_ne_true
  refine waits_of_body hi (show exec _ s = execGbar o s from rfl) rfl ?_
  simp only [hp, hs, bne_iff_ne.2 hm, hd, if_neg (Nat.not_lt.2 ht), ha, hk, hk1, hpend, hr, Bool.not_true, Bool.false_eq_true, and_false,
    if_false, if_true, ne_eq, not_true_eq_false, Option.isNone_some, Option.any_some]

end

/-- Settles O35: each instruction reads its operands once and passes its checks; its body is then the stated arrival or wait. -/
theorem barrierInstructionsComplete : Obligations.BarrierInstructionsComplete := by
  refine ⟨fun o s s0 s1 x act vs hi hs hb hr => bar_waits hi hs hb hr,
    fun o s s0 x act vs k hi hs ha hk h1 h2 hu => bbinit_retires hi hs ha hk h1 h2 hu,
    fun o s s0 s1 s2 x act vs k hi hs hk ha hr hn hp => bbarv_retires hi hs hk ha hr hn hp,
    fun o tr s s0 x act vs k hi hs hk hu => bbwait_body hi hs hk hu,
    fun o set s s0 s1 x act vs hi hs hp hm hsame ht hr => tbar_waits hi hs hp hm hsame ht hr,
    fun o s s0 s1 x act vs hi hs hm hd hp ht hr => gbar_plain_waits hi hs hm hd hp ht hr,
    fun o s s0 s1 x act vs k hi hs hm hd hp ht ha hk hk1 hfree hr => gbar_mapped_waits hi hs hm hd hp ht ha hk hk1 hfree hr⟩

end Sys2Proof.Machine
end

section
/-! PROOF. SEND, MBCLR, WAITA and WAKE complete (R393-R397). -/
namespace Sys2Proof.Machine

section
variable {o : Opnds} {s s0 s1 : State} {x : Iss} {act : Mask} {vs : List Src} {ns : List Nat}

/-! ### SEND (R393) -/

/-- One deposit is put on its way for each active lane, and each lane awaits the status of its own. -/
theorem deposit_lanes (s : State) (x : Iss) (act : Mask) (sc : Scope) (target value : Nat → Word) :
    (s.deposit x act sc target value).1.deposits.length = s.deposits.length + popcount act ∧
    (s.deposit x act sc target value).2.map (·.1) = lanesOf act := by
  suffices h : ∀ (ls : List Nat) (p : State × List (Nat × Nat)) (first : Nat),
      let r := ls.foldl (fun (p : State × List (Nat × Nat)) l =>
        let (id, s) := p.1.newId
        let d : Deposit := {
          id := id, seq := id, srcCore := x.c, srcWave := x.w, first := first, ctx := x.ctx, team := x.src.team, target := target l,
          value := value l, scope := sc }
        ({ s with deposits := s.deposits ++ [d] }, p.2 ++ [(l, id)])) p
      r.1.deposits.length = p.1.deposits.length + ls.length ∧ r.2.map (·.1) = p.2.map (·.1) ++ ls from
    h (lanesOf act) (s, []) s.fresh
  intro ls
  induction ls with
  | nil => intro p first; exact ⟨rfl, (List.append_nil _).symm⟩
  | cons l ls ih =>
    intro p first
    obtain ⟨hlen, hmap⟩ := ih _ first
    constructor
    · refine hlen.trans ?_
      simp only [State.newId, List.length_append, List.length_cons, List.length_nil]
      omega
    · refine hmap.trans ?_
      simp only [List.map_append, List.map_cons, List.map_nil, List.append_assoc, List.cons_append, List.nil_append]

theorem send_waits {dev : Bool} (hi : Issues s o false s0 x act)
    (hok : x.namesOk act ([fieldA o, fieldB o] ++ (if dclsOf o .none = .vec then [dstOpd o 1] else [])) = .ok ())
    (hvs : s0.readOpds x act o [fieldA o, fieldB o] = .ok vs)
    (hns : (if dclsOf o .none = .vec then x.names act 3 o.d.toNat 1 else .ok []) = .ok ns)
    (hr : s0.releaseNow x act (if dev then .device else .team) = .ok s1) :
    let r := s1.deposit x act (if dev then .device else .team) (fun l => BitVec.ofNat 32 (srcAt vs 0 l))
      (fun l => BitVec.ofNat 32 (srcAt vs 1 l))
    Waits (.send o dev) s s0 x act o r.1 (.send r.2 [] ns.head?) := by
  refine waits_of_body hi (show exec _ s = simt s o false noPre (sendBody o (if dev then .device else .team)) from rfl) rfl ?_
  simp only [sendBody, beq_iff_eq, hok, hvs, hns, hr]
  rfl

/-! ### MBCLR (R395) -/

theorem mbclr_retires (hi : Issues s { o with ca := .none } false s0 x act) :
    Retires (.mbclr o) s s0 x act { o with ca := .none } false { s := s0.modNow x (fun y =>
      if y.boxWrote.contains (o.a.toNat - 128) then y else { y with mbox := setNth y.mbox (o.a.toNat - 128) {} }) } :=
  retires_of_body hi (show exec _ s = execMbclr o s from rfl) rfl rfl

/-! ### WAITA (R396) -/

/-- The request of a `WAITA` for its word with the destination that it names. -/
def waitaFor (o : Opnds) (act : Mask) (vs : List Src) (ns : List Nat) : WaitaReq :=
  { waitaReq o (BitVec.ofNat 64 (once act vs 0)) (BitVec.ofNat 32 (once act vs 1)) with
    vec := dclsOf o .sca == .vec, dest := nth ns 0 0 }

/-- The test of the word that a `WAITA` has read: it takes the value, or its bundle waits. -/
def State.waitaTested (s : State) (x : Iss) (act : Mask) (r : WaitaReq) (h : HomeWord) : Except Stop Fx :=
  match h.word.filter (fun v => cmpWord r.code r.signed v r.value) with
  | some v => (match s.waitaPut x act r v with
    | .error e => .error e
    | .ok s => .ok { s := s })
  | none => if (s.now x).registered then .error .block
    else .error (.wait (s.waitaWait x.c x.w r h.key).1 (s.waitaWait x.c x.w r h.key).2)

theorem waitaTested_met {s t : State} {r : WaitaReq} {h : HomeWord} {v : Word} (hw : h.word = some v)
    (hc : cmpWord r.code r.signed v r.value = true) (hp : s.waitaPut x act r v = .ok t) :
    s.waitaTested x act r h = .ok { s := t } := by
  have hf : h.word.filter (fun v => cmpWord r.code r.signed v r.value) = some v := by rw [hw, Option.filter_some, if_pos hc]
  simp only [State.waitaTested, hf, hp]

theorem waitaTested_unmet {s : State} {r : WaitaReq} {h : HomeWord}
    (hc : ∀ v, h.word = some v → cmpWord r.code r.signed v r.value = false) (hr : (s.now x).registered = false) :
    s.waitaTested x act r h = .error (.wait (s.waitaWait x.c x.w r h.key).1 (s.waitaWait x.c x.w r h.key).2) := by
  have hf : h.word.filter (fun v => cmpWord r.code r.signed v r.value) = none :=
    Option.filter_eq_none_iff.2 fun v hv => by rw [hc v hv]; exact Bool.false_ne_true
  simp only [State.waitaTested, hf, hr, Bool.false_eq_true, if_false]

/-- A `WAITA` that reads the word at its home, in its turn, tests it. -/
theorem waitaBody_eq {h : HomeWord}
    (hok : x.namesOk act ([fieldA o 2, fieldB o] ++ (if dclsOf o .sca = .vec then [dstOpd o 1] else [])) = .ok ())
    (hvs : s0.readOpds x act o [fieldA o 2, fieldB o] = .ok vs)
    (hns : (if dclsOf o .sca = .vec then x.names act 3 o.d.toNat 1 else .ok [o.d.toNat]) = .ok ns)
    (ha : (BitVec.ofNat 64 (once act vs 0)).toNat % 4 = 0)
    (hh : s0.homeWord x.c x.ctx (BitVec.ofNat 64 (once act vs 0)) = (s1, .ok h))
    (hm : s1.memReady x.c { id := s1.fresh, wave := x.w, kind := .load, active := act, once := true }
      { lane := 0, va := BitVec.ofNat 64 (once act vs 0), key := h.key } = true)
    (hl : h.word = none → isLocal h.key = false) :
    waitaBody o s0 x act = s1.waitaTested x act (waitaFor o act vs ns) h := by
  have hlocal : (h.word.isNone && isLocal h.key) = false := by
    cases hw : h.word with
    | none => exact hl hw
    | some v => rfl
  simp only [waitaBody, beq_iff_eq, hok, hvs, hns, ha, hh, hm, hlocal, ne_eq, not_true_eq_false, Bool.not_true, Bool.or_self,
    Bool.false_eq_true, if_false]
  rfl

/-! ### WAKE (R397) -/

theorem wake_retires {p : Place} (hi : Issues s o false s0 x act) (hs : s0.sources x act o [fieldA o 2] = .ok vs)
    (hp : s0.place (.core x.c) x.ctx (BitVec.ofNat 64 (once act vs 0)) .read = (s1, .ok p)) :
    Retires (.wake o) s s0 x act o false { s := s1.wakeLine (lineOf p.key) } :=
  retires_of_body hi (show exec _ s = execWake o s from rfl) rfl (by simp only [hs, hp])

end

/-- Settles O36: each body past its checks; the deposits of a `SEND` are counted along its lanes, and `WAITA` goes by its test. -/
theorem mailInstructionsComplete : Obligations.MailInstructionsComplete := by
  refine ⟨?send, fun o s s0 x act hi => mbclr_retires hi, ?waita, fun o s s0 s1 x act vs p hi hs hp => wake_retires hi hs hp⟩
  case send =>
    intro o dev s s0 s1 x act vs ns hi hok hvs hns sc hr r
    exact ⟨send_waits hi hok hvs hns hr, deposit_lanes s1 x act sc _ _⟩
  case waita =>
    intro o s s0 s1 x act vs ns h hi hok hvs hns va r ha hh hm hl
    have he : exec (.waita o) s = execWaita o s := rfl
    have hb := waitaBody_eq hok hvs hns ha hh hm hl
    exact ⟨fun v t hw hc hp => retires_of_body hi he rfl (hb.trans (waitaTested_met hw hc hp)),
      fun hc hr => waits_of_body hi he rfl (hb.trans (waitaTested_unmet hc hr))⟩

end Sys2Proof.Machine
end

section
/-! PROOF. SQPUSH, SQPOP, SQSTAT and CQPOP complete (R348, R360, R398-R400). -/
namespace Sys2Proof.Machine

section
variable {o : Opnds} {nb : Bool} {s s0 s1 : State} {x : Iss} {act : Mask} {qs vs : List Src} {y : StageQ} {ns : List Nat}

/-- The end of a push or a pop: `.NB` writes its outcome predicate (R370). -/
def State.queueOutcome (s : State) (x : Iss) (act : Mask) (o : Opnds) (nb : Bool) (v : Mask) : Except Stop Fx :=
  match (if nb then s.putPred x act (outcomeOf o) v else .ok s) with
  | .error st => .error st
  | .ok s => .ok { s := s }

theorem queueOutcome_ok {t u : State} {v : Mask} (hplain : nb = false → u = t)
    (hnb : nb = true → t.putPred x act (outcomeOf o) v = .ok u) : t.queueOutcome x act o nb v = .ok { s := u } := by
  cases nb with
  | false => rw [hplain rfl]; rfl
  | true => simp only [State.queueOutcome, hnb rfl, if_true]

/-! ### SQPUSH (R398) -/

/-- A push past its checks goes by what its queue answers. -/
theorem sqpushBody_eq (hqs : s0.readOpds x act o [fieldB o] = .ok qs) (hy : s0.sqCheck x act (once act qs 0) 1 false = .ok y)
    (hend : pastEnd (fieldA o y.regs) = false) (hvs : s0.sources x act o [fieldA o y.regs] = .ok vs)
    (hr : s0.releaseNow x act .device = .ok s1) (hw : s1.entryWaits (once act qs 0) = false) :
    sqpushBody o nb s0 x act = match s1.sqApply (once act qs 0) (entryOf y.entsz (nth vs 0 Src.none)) with
      | .done t => t.queueOutcome x act o nb act
      | .fault _ c va => .error ((x.trap act c va).posted 0 1)
      | .full => if nb then s1.queueOutcome x act o nb 0 else
        .error (.wait (s1.newId.2.modSq (once act qs 0) (fun z => { z with
          pushers := z.pushers ++ [(x.c, x.w, s1.fresh, entryOf y.entsz (nth vs 0 Src.none))] })) (.sqpush (once act qs 0) s1.fresh)) := by
  simp only [sqpushBody, hqs, hy, hend, hvs, hr, hw, Bool.false_eq_true, if_false]
  rfl

/-! ### SQPOP (R399) -/

/-- A pop past its checks takes the oldest entry, or waits for one. -/
theorem sqpopBody_eq (hqs : s0.readOpds x act o [fieldA o] = .ok qs) (hy : s0.sqCheck x act (once act qs 0) 0 true = .ok y)
    (hend : pastEnd (dstOpd o y.regs) = false) (hns : x.names act 3 o.d.toNat y.regs = .ok ns) :
    (∀ e r t, y.entries = e :: r → y.poppers = [] → s0.sqTake x act ns e.2 = .ok t →
      sqpopBody o nb s0 x act = (t.modSq (once act qs 0) (fun z => { z with entries := r })).queueOutcome x act o nb act) ∧
    (y.entries = [] → sqpopBody o nb s0 x act = if nb then s0.queueOutcome x act o nb 0 else
      .error (.wait (s0.newId.2.modSq (once act qs 0) (fun z => { z with poppers := z.poppers ++ [(x.c, x.w, s0.fresh)] }))
        (.sqpop (once act qs 0) s0.fresh ns))) := by
  have hd : x.names act 3 (dstOpd o y.regs).name (dstOpd o y.regs).n = .ok ns := hns
  refine ⟨fun e r t he hp ht => ?_, fun he => ?_⟩
  · simp only [sqpopBody, hqs, hy, hend, hd, he, hp, ht, Bool.false_eq_true, if_false, List.isEmpty_nil, if_true]
    rfl
  · simp only [sqpopBody, hqs, hy, hend, hd, he, Bool.false_eq_true, if_false]
    rfl

/-! ### SQSTAT (R400) -/

theorem sqstat_retires {t : State} (hi : Issues s o false s0 x act) (hqs : s0.readOpds x act o [fieldA o] = .ok qs)
    (hy : s0.sqCheck x act (once act qs 0) 0 false = .ok y)
    (hp : s0.putScalar x act o.d.toNat [BitVec.ofNat 32 y.entries.length, y.drops] = .ok t) :
    Retires (.sqstat o) s s0 x act o false { s := t } :=
  retires_of_body hi (show exec _ s = execSqstat o s from rfl) rfl (by simp only [hqs, hy, hp])

/-! ### CQPOP (R360, R374) -/

/-- The wait of a `CQPOP` for its entries, with its time-out. -/
def cqpopWait (o : Opnds) (s : State) (act : Mask) (vs : List Src) (ns : List Nat) : WaitKind :=
  .cqpop (once act vs 0) (once act vs 1) (if once act vs 2 = 0 then none else some (s.time + 1024 * once act vs 2)) ns (outcomeOf o)
    s.fresh

/-- A `CQPOP` past its checks takes what is there, unless it is to wait for more. -/
theorem cqpopBody_eq {wait : Bool} (hok : x.namesOk act ([fieldA o, fieldB o, fieldC o] ++ [dstOpd o 4]) = .ok ())
    (hvs : s0.readOpds x act o [fieldA o, fieldB o, fieldC o] = .ok vs) (hns : x.names act 3 o.d.toNat 4 = .ok ns)
    (hq : once act vs 0 < (s0.team x.src.team).cqn) (hk : wait = true → 1 ≤ once act vs 1 ∧ once act vs 1 ≤ 32) :
    cqpopBody o wait s0 x act =
      if (wait && !s0.cqEnough x (once act vs 0) (once act vs 1)) = true then
        if (s0.pendingPreds x).contains (outcomeOf o) then .error .block
        else .error (.wait s0.newId.2 (cqpopWait o s0 act vs ns))
      else match s0.cqTake x act (once act vs 0) ns (outcomeOf o) with
        | .error e => .error e
        | .ok s => .ok { s := s } := by
  have hcount : (wait && (once act vs 1 == 0 || decide (32 < once act vs 1))) = false := by
    cases wait with
    | false => rfl
    | true =>
      obtain ⟨h1, h2⟩ := hk rfl
      simp only [Bool.true_and, Bool.or_eq_false_iff, beq_eq_false_iff_ne, decide_eq_false_iff_not]
      omega
  have hfirst : s0.sources x act o [fieldA o] = .ok [nth vs 0 Src.none] := sources_of (namesOk_head hok) (readOpds_head hvs)
  simp only [cqpopBody, hfirst, once_head, onceNat_nth, if_neg (Nat.not_le.2 hq), hok, hvs, hns, hcount, Bool.false_eq_true, if_false]
  rfl

end

/-- Settles O37: each body past its checks goes by the queue's answer, by its entries, or by whether it is to wait for more. -/
theorem queueInstructionsComplete : Obligations.QueueInstructionsComplete := by
  refine ⟨?push, ?pop, fun o s s0 t x act qs y hi hqs hy hp => sqstat_retires hi hqs hy hp, ?cqpop⟩
  case push =>
    intro o nb s s0 s1 x act qs vs y hi hqs q hy hend hvs hr hw e
    have he : exec (.sqpush o nb) s = execSqpush o nb s := rfl
    have hb := sqpushBody_eq (nb := nb) hqs hy hend hvs hr hw
    refine ⟨fun t u ha hplain hnb => ?done, fun u ha hnb hp => ?full, fun ha hnb => ?waits⟩
    case done =>
      simp only [e, q, once_eq_srcAt] at ha hb
      exact retires_of_body hi he rfl (hb.trans (by simp only [ha, queueOutcome_ok hplain hnb]))
    case full =>
      simp only [e, q, once_eq_srcAt] at ha hb
      exact retires_of_body hi he rfl (hb.trans (by
        simp only [ha, hnb, if_true, queueOutcome_ok (nb := true) (fun h => nomatch h) fun _ => hp]))
    case waits =>
      simp only [e, q, once_eq_srcAt] at ha hb
      exact waits_of_body hi he rfl (hb.trans (by simp only [ha, hnb, Bool.false_eq_true, if_false]; rfl))
  case pop =>
    intro o nb s s0 x act qs y ns hi hqs q hy hend hns
    have he : exec (.sqpop o nb) s = execSqpop o nb s := rfl
    obtain ⟨htake, hnone⟩ := sqpopBody_eq (nb := nb) hqs hy hend hns
    refine ⟨fun e r t u hes hp ht hplain hnb => ?takes, fun hes hnb => ?waits, fun u hes hnb hp => ?empty⟩
    case takes => exact retires_of_body hi he rfl ((htake e r t hes hp ht).trans (queueOutcome_ok hplain hnb))
    case waits => exact waits_of_body hi he rfl ((hnone hes).trans (if_neg (by rw [hnb]; exact Bool.false_ne_true)))
    case empty =>
      exact retires_of_body hi he rfl ((hnone hes).trans ((if_pos hnb).trans
        (queueOutcome_ok (fun h => absurd hnb (by rw [h]; exact Bool.false_ne_true)) fun _ => hp)))
  case cqpop =>
    intro o wait s s0 x act vs ns hi hok hvs hns l hq hk
    have he : exec (.cqpop o wait) s = execCqpop o wait s := rfl
    have hb := cqpopBody_eq hok hvs hns hq hk
    refine ⟨fun t hen ht => ?takes, fun hw hen hp => ?waits⟩
    case takes =>
      have hgo : (wait && !s0.cqEnough x (once act vs 0) (once act vs 1)) = false := by
        rcases hen with h | h
        · rw [h]; rfl
        · rw [once_eq_srcAt, once_eq_srcAt, h]; exact Bool.and_false _
      simp only [l, ← once_eq_srcAt] at ht
      exact retires_of_body hi he rfl (hb.trans (by simp only [hgo, ht, Bool.false_eq_true, if_false]))
    case waits =>
      simp only [l, ← once_eq_srcAt] at hen
      exact waits_of_body hi he rfl (hb.trans (by
        simp only [hw, hen, hp, Bool.not_false, Bool.and_self, Bool.false_eq_true, if_true, if_false]; rfl))

end Sys2Proof.Machine
end

section
/-! PROOF. LAUNCH, RFORK, JOIN and the register block instructions complete (R342-R344, R401-R406). -/
namespace Sys2Proof.Machine

section
variable {o : Opnds} {s s0 s1 s2 s3 s4 : State} {x : Iss} {act : Mask} {vs : List Src}

/-! ### LAUNCH (R401) -/

/-- The address that a `LAUNCH` names in an optional operand. -/
def recordOf (o : Opnds) (act : Mask) (vs : List Src) : Option DWord :=
  if o.cb = .none then none else some (BitVec.ofNat 64 (once act vs 1))

theorem launch_completes (hi : Issues s o false s0 x act) (hs : s0.sources x act o [fieldA o 2, fieldB o 2] = .ok vs)
    (hh : (BitVec.ofNat 64 (once act vs 0)).toNat % 128 = 0) (hrec : ∀ a ∈ recordOf o act vs, a.toNat % 16 = 0)
    (hr : s0.releaseNow x act .device = .ok s1) :
    (s1.unplaced x.ctx < 64 → Retires (.launch o) s s0 x act o false
      { s := s1.programLaunch x.ctx (BitVec.ofNat 64 (once act vs 0)) (recordOf o act vs) }) ∧
    (64 ≤ s1.unplaced x.ctx → Waits (.launch o) s s0 x act o s1
      (.launch (BitVec.ofNat 64 (once act vs 0)) (recordOf o act vs))) := by
  have he : exec (.launch o) s = execLaunch o s := rfl
  have halign : ((recordOf o act vs).getD 0).toNat % 16 = 0 := by
    cases h : recordOf o act vs with
    | none => rfl
    | some a => exact hrec a h
  simp only [recordOf] at halign ⊢
  refine ⟨fun hroom => retires_of_body hi he rfl ?_, fun hfull => waits_of_body hi he rfl ?_⟩
  · simp only [hs, hh, halign, hr, if_neg (Nat.not_le.2 hroom), ne_eq, not_true_eq_false, if_false]
  · simp only [hs, hh, halign, hr, if_pos hfull, ne_eq, not_true_eq_false, if_false]

/-! ### RFORK (R402) -/

/-- The machine with the fork cell written and its recruits' scalars set. -/
def State.forked (s : State) (x : Iss) (o : Opnds) (p : Place) (cell : DWord) (got : List (Nat × Nat)) : State :=
  let s5 := (List.range got.length).foldl (fun u i => u.modWave (nth got i (0, 0)).1 (nth got i (0, 0)).2 (fun y =>
    y.setScalars o.d.toNat (forkScalars (i + 1) got.length cell))) (s.l2Use p.key 16 p.cpol)
  s5.forkCell x.ctx cell ((x.src.team, x.src.index) :: got.map (fun e => ((s5.wave e.1 e.2).team, 0)))

theorem rfork_retires {p : Place} {got : List (Nat × Nat)} {u : State} (hi : Issues s o false s0 x act)
    (hs : s0.sources x act o [fieldA o 2, fieldB o, fieldC o] = .ok vs) (hc : once act vs 2 ≠ 0)
    (ha : (BitVec.ofNat 64 (once act vs 0)).toNat % 16 = 0)
    (hp : s0.place (.core x.c) x.ctx (BitVec.ofNat 64 (once act vs 0)) .write = (s1, .ok p))
    (hw : s1.transWaits (.core x.c) x.ctx (BitVec.ofNat 64 (once act vs 0)) = false) (hh : s1.atHome x.ctx p.key = none)
    (hr : s1.releaseNow x act .device = .ok s2)
    (hgot : s2.recruit (s2.team x.src.team).launch x.c x.next (min (ceilDiv (once act vs 1) (once act vs 2) - 1) 1023) = (s3, got))
    (hput : ((s3.pushHome x.c p.key).writeKills x.c p.key 16).homeWrite p.key
      (leBytes 4 (got.length + 1) ++ leBytes 4 0 ++ leBytes 4 (ceilDiv (once act vs 1) (once act vs 2)) ++ leBytes 4 0) = (s4, true))
    (hu : (s4.forked x o p (BitVec.ofNat 64 (once act vs 0)) got).putScalar x act o.d.toNat
      (forkScalars 0 got.length (BitVec.ofNat 64 (once act vs 0))) = .ok u) :
    Retires (.rfork o) s s0 x act o false { s := u } := by
  refine retires_of_body hi (show exec _ s = execRfork o s from rfl) rfl ?_
  simp only [State.forked] at hu
  simp only [rforkBody, hs, hc, ha, hp, hw, hh, hr, hgot, hput, hu, ne_eq, not_true_eq_false, Bool.false_eq_true, if_false]

/-! ### JOIN (R344, R403) -/

/-- What a `JOIN` whose wave leaves `n` participants comes to: the last one goes on at its target, another one ends. -/
def State.joined (s : State) (x : Iss) (cell off : DWord) (n : Nat) : Fx :=
  if n = 0 then { s := s.forkCell x.ctx cell [], whole := true, goes := some (fun _ => x.pc + off * 8) }
  else { s := s.endThreads x.c x.w x.lanes, whole := true }

theorem joinBody_ok {p : Place} {n : Nat} (hs : s0.sources x act o [fieldA o 2, fieldB o] = .ok vs)
    (ha : (BitVec.ofNat 64 (once act vs 0)).toNat % 16 = 0)
    (hp : s0.place (.core x.c) x.ctx (BitVec.ofNat 64 (once act vs 0)) .atomic = (s1, .ok p))
    (hw : s1.transWaits (.core x.c) x.ctx (BitVec.ofNat 64 (once act vs 0)) = false) (hm : s1.missWait p.key 4 = false)
    (hh : s1.atHome x.ctx p.key = none) (hr : s1.releaseNow x x.lanes .device = .ok s2)
    (hn : (s2.pushHome x.c p.key).homeNat p.key 4 = some (n + 1)) :
    joinBody o s0 x act = .ok ((((((s2.pushHome x.c p.key).writeKills x.c p.key 4).homeWrite p.key (leBytes 4 n)).1.l2Use p.key 4
      p.cpol).acquireFor x.c x.w .device).joined x (BitVec.ofNat 64 (once act vs 0))
        ((BitVec.ofNat 32 (once act vs 1)).signExtend 64) n) := by
  simp only [joinBody, hs, ha, hp, hw, hm, hh, hr, hn, ne_eq, not_true_eq_false, Bool.or_self, Bool.false_eq_true, if_false,
    State.joined]
  split <;> rfl

/-- A converged `JOIN` retires, and a wave whose threads it ended is over. -/
theorem join_eq {fx : Fx} (hi : Issues s o false s0 x act) (hconv : x.lanes = x.src.live) (hb : joinBody o s0 x act = .ok fx)
    (ht : s0.transitsOver x fx.s = false) :
    let t := fx.s.retire x act o false fx
    exec (.join o) s = .next (if (t.wave? x.c x.w).any Wave.isOver then t.waveOver x.c x.w else t) := by
  have hpre : wholeWave x = none := if_pos hconv
  show execJoin o s = _
  simp only [execJoin, simt_retires hi wholeWave hpre (joinBody o) fx hb ht, hi.bundle]

/-! ### RACQ and RREL (R342, R404, R405) -/

/-- Where a `RACQ` reports the blocks that it maps. -/
def racqDest (o : Opnds) : Option Nat := if dclsOf o .none = .sca then some o.d.toNat else none

/-- A `RACQ` whose wave may hold the blocks that it asks for is granted them, or waits in the FIFO of its slice. -/
theorem racqBody_eq (hs : s0.sources x act o [fieldA o] = .ok vs) (h1 : 1 ≤ once act vs 0) (h31 : once act vs 0 ≤ 31)
    (hb : once act vs 0 ≤ 32 - popcount (s0.now x).blocks) (hc : (s0.now x).charge + 64 * once act vs 0 ≤ 1023)
    (ha : (s0.now x).asking = false) :
    racqBody o s0 x act = if ((s0.slice x.c x.slice).racq.isEmpty && s0.canGrant x.c x.w (once act vs 0)) = true then
        match s0.grantBlocks x act (once act vs 0) (racqDest o) with
        | .error e => .error e
        | .ok s => .ok { s := s }
      else .error (.wait (s0.modSlice x.c x.slice (fun k => { k with racq := k.racq ++ [x.w] })) (.racq (once act vs 0) (racqDest o))) := by
  have hrange : ¬ (once act vs 0 = 0 ∨ 31 < once act vs 0 ∨ 32 - popcount (s0.now x).blocks < once act vs 0 ∨
      1023 < (s0.now x).charge + 64 * once act vs 0) := by omega
  simp only [racqBody, hs, if_neg hrange, ha, Bool.false_eq_true, if_false]
  rfl

theorem rrel_retires (hi : Issues s o false s0 x act) (hs : s0.sources x act o [fieldA o] = .ok vs)
    (h0 : (BitVec.ofNat 32 (once act vs 0)).getLsbD 0 = false) :
    Retires (.rrel o) s s0 x act o false
      { s := (((s0.modNow x (fun y => y.unmapBlocks (BitVec.ofNat 32 (once act vs 0)))).sweep x.c x.slice).promote x.c x.slice).serveRacq
          x.c x.slice } :=
  retires_of_body hi (show exec _ s = execRrel o s from rfl) rfl (by simp only [hs, h0, Bool.false_eq_true, if_false])

/-! ### The rotating window (R406) -/

theorem rsetw_retires (hi : Issues s o false s0 x act) (hs : s0.sources x act o [fieldA o] = .ok vs) (h8 : once act vs 0 % 8 = 0)
    (h512 : once act vs 0 ≤ 512) :
    Retires (.rsetw o) s s0 x act o false { s := s0.modNow x (fun y => { y with rotSize := once act vs 0, rotBase := 0 }) } := by
  have hrange : ¬ (once act vs 0 % 8 ≠ 0 ∨ 512 < once act vs 0) := by omega
  exact retires_of_body hi (show exec _ s = execRsetw o s from rfl) rfl (by simp only [hs, if_neg hrange])

theorem rotb_retires (hi : Issues s o false s0 x act) (hs : s0.sources x act o [fieldA o] = .ok vs) (hw : x.src.rotSize ≠ 0) :
    Retires (.rotb o) s s0 x act o false { s := s0.modNow x (fun y => { y with
      rotBase := (((x.src.rotBase : Int) + intOf (once act vs 0) 32 true) % (x.src.rotSize : Int)).toNat }) } :=
  retires_of_body hi (show exec _ s = execRotb o s from rfl) rfl (by simp only [hs, if_neg hw])

end

/-- Settles O38: each body past its checks; `JOIN` then looks at its wave, and `RACQ` at the FIFO of its slice. -/
theorem taskInstructionsComplete : Obligations.TaskInstructionsComplete := by
  refine ⟨fun o s s0 s1 x act vs hi hs hh hrec hr => launch_completes hi hs hh hrec hr,
    fun o s s0 s1 s2 s3 s4 x act vs p got hi hs hc ha hp hw hh hr hgot hput u hu => rfork_retires hi hs hc ha hp hw hh hr hgot hput hu,
    fun o s s0 s1 s2 x act vs p hi hconv hs ha hp hw hm hh hr n hn ht =>
      join_eq hi hconv (joinBody_ok hs ha hp hw hm hh hr hn) ht, ?racq,
    fun o s s0 x act vs hi hs => ⟨fun h0 => rrel_retires hi hs h0, fun h8 h512 => rsetw_retires hi hs h8 h512,
      fun hw => rotb_retires hi hs hw⟩⟩
  case racq =>
    intro o s s0 x act vs hi hs n y dest h1 h31 hb hc ha
    have he : exec (.racq o) s = execRacq o s := rfl
    have hbody := racqBody_eq hs h1 h31 hb hc ha
    refine ⟨fun t hq hg ht => retires_of_body hi he rfl (hbody.trans ?grant),
      fun h => waits_of_body hi he rfl (hbody.trans (if_neg ?wait))⟩
    case grant =>
      have hgo : ((s0.slice x.c x.slice).racq.isEmpty && s0.canGrant x.c x.w (once act vs 0)) = true := by
        rw [hq, List.isEmpty_nil, Bool.true_and]; exact hg
      rw [if_pos hgo, show s0.grantBlocks x act (once act vs 0) (racqDest o) = .ok t from ht]
    case wait =>
      rw [Bool.and_eq_true, List.isEmpty_iff]
      rintro ⟨hq, hg⟩
      exact h.elim (absurd hq) fun h => absurd hg (by rw [once_eq_srcAt, h]; exact Bool.false_ne_true)

end Sys2Proof.Machine
end

section
/-! PROOF. TRAV starts walks or waits for slots, and TRAVX cancels (R356, R362, R371-R373). -/
namespace Sys2Proof.Machine

section
variable {o : Opnds} {s s0 s1 : State} {x : Iss} {act : Mask} {vs : List Src} {blk : Nat → List Byte}

/-- The kind word of a walk that a `TRAV` starts (R353). -/
def State.travKind (s : State) (x : Iss) (act : Mask) (vs : List Src) : DWord :=
  pairOf (BitVec.ofNat 32 (once act vs 1)) (hiWord (s.launchOf x.src).hdr.sdtp)

/-- The requests of a `TRAV`, of its lanes' query blocks `blk`. -/
def State.travReqs (s : State) (x : Iss) (o : Opnds) (act : Mask) (vs : List Src) (blk : Nat → List Byte) : List TravReq :=
  (lanesOf act).map (fun l =>
    { lane := l, tag := BitVec.ofNat 32 (srcAt vs 2 l), cq := (o.xm.extractLsb' 0 3).toNat, kind := s.travKind x act vs, block := blk l })

/-- The lanes that a `TRAV` leaves wait for walk slots behind those that wait already (R357). -/
def State.wantSlots (s : State) (x : Iss) (left : List TravReq) : State :=
  s.modCore x.c (fun k => { k with sp := { k.sp with want := k.sp.want ++ left.map (fun r => (x.w, r.lane)) } })

/-- No lane has faulted, so none traps. -/
theorem memTrap_nil (access : Nat) (pc : DWord) (bundle active live : Mask) : memTrap false access pc bundle active live [] = none := rfl

/-- A `TRAV` of readable query blocks starts its walks, unless lanes waited for slots before, and waits for the slots it lacks. -/
theorem travBody_eq (hs : s0.sources x act o [fieldA o, fieldB o, fieldC o] = .ok vs)
    (hq : (o.xm.extractLsb' 0 3).toNat < (s0.team x.src.team).cqn) (ha : once act vs 1 % 32 = 0)
    (hr : s0.queryReady x act (srcAt vs 0) = true) (hblk : ∀ l ∈ lanesOf act, s0.queryBlock x (srcAt vs 0 l) = .ok (blk l)) :
    let r := if ((s0.core x.c).sp.want.isEmpty && (s0.core x.c).sp.arrivals.isEmpty) = true then
      s0.travStarts x.c x.w (s0.travReqs x o act vs blk) else (s0, s0.travReqs x o act vs blk)
    travBody o s0 x act = if r.2.isEmpty = true then .ok { s := r.1 } else .error (.wait (r.1.wantSlots x r.2) (.trav r.2 [])) := by
  intro r
  have hblocks : (lanesOf act).map (fun l => (l, s0.queryBlock x ((nth vs 0 Src.none).nat l))) =
      (lanesOf act).map (fun l => (l, .ok (blk l))) :=
    List.map_congr_left fun l hl => congrArg (Prod.mk l) (hblk l hl)
  have hready : (!s0.queryReady x act (nth vs 0 Src.none).nat) = false := by rw [Bool.not_eq_false']; exact hr
  simp only [travBody, if_neg (Nat.not_le.2 hq), hs, ha, hready, hblocks, ne_eq, not_true_eq_false, Bool.false_eq_true, if_false,
    List.filterMap_map, Function.comp_def, List.filterMap_eq_map', List.filterMap_none, memTrap_nil]
  rfl

theorem travx_retires (hi : Issues s o false s0 x act) (hs : s0.sources x act o [fieldA o, fieldB o] = .ok vs) :
    let tag := fun (l : Nat) => (BitVec.ofNat 32 (srcAt vs 0 l) : Word)
    let mask := fun (l : Nat) => if o.cb = .none then (0xFFFFFFFF : Word) else BitVec.ofNat 32 (srcAt vs 1 l)
    Retires (.travx o) s s0 x act o false
      { s := ((s0.core x.c).sp.walks.filter (fun e => e.2.team == x.src.team && e.2.remote.isNone &&
          (lanesOf act).any (fun l => e.2.tag &&& mask l == tag l &&& mask l))).foldl (fun u e => u.cancelWalk x.c e.1) s0 } :=
  retires_of_body hi (show exec _ s = execTravx o s from rfl) rfl (by simp only [hs]; rfl)

end

/-- Settles O39: with every query block readable no lane faults, and the requests start at once or wait in turn. -/
theorem traversalInstructionsComplete : Obligations.TraversalInstructionsComplete := by
  refine ⟨?trav, fun o s s0 x act vs hi hs => travx_retires hi hs⟩
  intro o s s0 x act vs blk hi hs cq h kind hq ha hr hblk reqs sp
  have he : exec (.trav o) s = execTrav o s := rfl
  have hb := travBody_eq hs hq ha hr hblk
  have hreqs : s0.travReqs x o act vs blk = reqs := rfl
  have hne : reqs ≠ [] := fun h => lanesOf_ne_nil hi.active (List.map_eq_nil_iff.1 h)
  refine ⟨fun t hw harr ht => ?starts, fun t left hw harr ht hl => ?lacks, fun hbusy => ?behind⟩
  case starts =>
    have hfree : ((s0.core x.c).sp.want.isEmpty && (s0.core x.c).sp.arrivals.isEmpty) = true := by
      rw [List.isEmpty_iff.2 hw, List.isEmpty_iff.2 harr]; rfl
    rw [hreqs, if_pos hfree, ht] at hb
    exact retires_of_body hi he rfl hb
  case lacks =>
    have hfree : ((s0.core x.c).sp.want.isEmpty && (s0.core x.c).sp.arrivals.isEmpty) = true := by
      rw [List.isEmpty_iff.2 hw, List.isEmpty_iff.2 harr]; rfl
    rw [hreqs, if_pos hfree, ht] at hb
    exact waits_of_body hi he rfl (hb.trans (if_neg (mt List.isEmpty_iff.1 hl)))
  case behind =>
    have hfree : ¬ ((s0.core x.c).sp.want.isEmpty && (s0.core x.c).sp.arrivals.isEmpty) = true := by
      rw [Bool.and_eq_true, List.isEmpty_iff, List.isEmpty_iff]
      exact fun h => hbusy.elim (absurd h.1) (absurd h.2)
    rw [hreqs, if_neg hfree] at hb
    exact waits_of_body hi he rfl (hb.trans (if_neg (mt List.isEmpty_iff.1 hne)))

end Sys2Proof.Machine
end

section
/-! PROOF. Debug commands complete (R454-R463, R467, R468). -/
namespace Sys2Proof.Machine

/-! ### Running a command (R417, R469) -/

/-- A machine that takes commands runs one. -/
theorem command_taken {s : State} (ht : TakesCommand s) (tag : Word) (recovery : Bool) (f : State → State) :
    s.command tag recovery f = .next (f s) := by
  obtain ⟨hb, hh, hboot, hnone⟩ := ht
  simp only [State.command, hb, hh, hboot, hnone, Bool.not_true, Bool.false_eq_true, false_and, if_false, Option.isSome_none]

/-- An instruction that is a command is what the command comes to. -/
theorem command_runs {i : Instr} {s t : State} {tag : Word} {recovery : Bool} {f : State → State} (ht : TakesCommand s)
    (he : exec i s = s.command tag recovery f) (hf : f s = t) : exec i s = .next t :=
  he.trans ((command_taken ht tag recovery f).trans (congrArg _ hf))

theorem isPow2_pow (e : Nat) : isPow2 (2 ^ e) = true := by
  rw [isPow2, Nat.log2_two_pow]
  exact beq_self_eq_true _

section
variable {s : State} (ht : TakesCommand s) (tag : Word)
include ht

/-! ### Arming (R454) -/

theorem dbgArm_okay {ctx p : Nat} (hc : s.hasCtx ctx = true) (hp : p ≤ 2) (hr : s.trace.count ≠ 0) :
    exec (.dbgArm tag ctx p) s = .next (({ s with armed := FMap.set s.armed ctx p }).okay tag) := by
  have hbad : ¬ ((!s.hasCtx ctx) = true ∨ 2 < p) := by rw [hc]; simpa using hp
  refine command_runs ht (show exec _ s = execDbgArm tag ctx p s from rfl) ?_
  rw [if_neg hbad, if_neg hr]

/-- Disarming clears what the debugger has set for a context, and its stopped waves resume. -/
def State.disarmed (s : State) (ctx : Nat) : State :=
  let t := { s with
    armed := FMap.erase s.armed ctx
    bkpts := s.bkpts.filter (fun e => e.2.ctx != ctx)
    watches := s.watches.filter (fun e => e.2.ctx != ctx) }
  let ws := (t.ctxWaves ctx).filter (fun y => (t.wave y.1 y.2).dbg.isSome && !(t.launchOf (t.wave y.1 y.2)).stopped)
  let u := (t.ctxWaves ctx).foldl (fun (a : State) y => a.modWave y.1 y.2 Wave.unstep) t
  let v := { u with teams := u.teams.map (fun e => (e.1,
    if e.2.ctx = ctx ∧ (u.launch e.2.launch).stopped = false then { e.2 with saved := e.2.saved.map (fun (r : Saved) =>
      { r with waves := r.waves.map (fun (y : SavedWave) => { y with copy := y.copy.unstep, freed := true }) }) } else e.2)) }
  ws.foldl (fun (a : State) y => a.resumeWave y.1 y.2) v

theorem dbgDisarm_okay {ctx : Nat} (hc : s.hasCtx ctx = true) (hr : s.trace.count ≠ 0) :
    exec (.dbgDisarm tag ctx) s = .next ((s.disarmed ctx).okay tag) := by
  have hbad : ¬ (!s.hasCtx ctx) = true := by rw [hc]; exact Bool.false_ne_true
  refine command_runs ht (show exec _ s = execDbgDisarm tag ctx s from rfl) ?_
  rw [if_neg hbad, if_neg hr]
  rfl

/-! ### Running and stepping a wave (R455, R458) -/

omit ht in
/-- A selected wave that meets the test is the selection. -/
theorem selected_wave {ctx c slot i w : Nat} {f : Wave → Bool} (hw : s.waveAt c slot i = some w) (hm : (c, w) ∈ s.ctxWaves ctx)
    (hf : f (s.wave c w) = true) : s.selected ctx (.wave c slot i) f = some [(c, w)] := by
  have hin : ((s.ctxWaves ctx).contains (c, w) && f (s.wave c w)) = true := by
    rw [List.contains_iff_mem.2 hm, hf]; rfl
  simp only [State.selected, hw, hin, if_true]

/-- A run command on a named wave that meets both tests acts on it. -/
theorem dbgRun_runs {n : Instr} {t : State} {ctx c slot i w : Nat} {need f : Wave → Bool} {g h : State → Nat → Nat → State}
    (he : exec n s = s.dbgRun tag ctx (.wave c slot i) need f g h) (hc : s.hasCtx ctx = true) (hw : s.waveAt c slot i = some w)
    (hm : (c, w) ∈ s.ctxWaves ctx) (hneed : need (s.wave c w) = true) (hf : f (s.wave c w) = true) (hg : g s c w = t) :
    exec n s = .next (t.okay tag) := by
  refine command_runs ht he ?_
  simp only [hc, selected_wave hw hm hneed, Bool.not_true, Bool.false_eq_true, if_false, List.foldl_cons, List.foldl_nil, hf, if_true, hg]

theorem dbgRunStop_okay {ctx c slot i w : Nat} (hc : s.hasCtx ctx = true) (hw : s.waveAt c slot i = some w)
    (hm : (c, w) ∈ s.ctxWaves ctx) (hd : (s.wave c w).dbg = none) (ha : (FMap.get s.armed ctx).isSome = true) :
    exec (.dbgRunStop tag ctx (.wave c slot i)) s =
      .next (((s.askStop c w { cause := .none, asked := true }).freeze c w .none).okay tag) := by
  have harmed : ¬ (FMap.get s.armed ctx).isNone = true := by rw [Option.isNone_iff_eq_none]; exact Option.isSome_iff_ne_none.1 ha
  have he : exec (.dbgRunStop tag ctx (.wave c slot i)) s = execDbgRunStop tag ctx (.wave c slot i) s := rfl
  rw [execDbgRunStop] at he
  exact dbgRun_runs ht tag he hc hw hm rfl (Option.isNone_iff_eq_none.2 hd) (if_neg harmed)

theorem dbgRun_stopped {ctx c slot i w : Nat} (hc : s.hasCtx ctx = true) (hw : s.waveAt c slot i = some w)
    (hm : (c, w) ∈ s.ctxWaves ctx) (hd : (s.wave c w).dbg ≠ none) :
    exec (.dbgRunResume tag ctx (.wave c slot i)) s = .next ((s.resumeWave c w).okay tag) ∧
    exec (.dbgRunStep tag ctx (.wave c slot i)) s = .next ((s.stepWave false c w).okay tag) ∧
    exec (.dbgRunStepDrain tag ctx (.wave c slot i)) s = .next ((s.stepWave true c w).okay tag) := by
  have hsome := Option.isSome_iff_ne_none.2 hd
  have hresume : exec (.dbgRunResume tag ctx (.wave c slot i)) s = execDbgRunResume tag ctx (.wave c slot i) s := rfl
  have hstep : exec (.dbgRunStep tag ctx (.wave c slot i)) s = execDbgRunStep tag ctx (.wave c slot i) s := rfl
  have hdrain : exec (.dbgRunStepDrain tag ctx (.wave c slot i)) s = execDbgRunStepDrain tag ctx (.wave c slot i) s := rfl
  rw [execDbgRunResume] at hresume
  rw [execDbgRunStep] at hstep
  rw [execDbgRunStepDrain] at hdrain
  exact ⟨dbgRun_runs ht tag hresume hc hw hm hsome hsome rfl, dbgRun_runs ht tag hstep hc hw hm hsome hsome rfl,
    dbgRun_runs ht tag hdrain hc hw hm hsome hsome rfl⟩

/-! ### Breakpoints, watchpoints and the trace (R456, R457, R461) -/

theorem bkptSet_okay {ctx slot : Nat} {addr : DWord} (hs : slot < 16) (hc : s.hasCtx ctx = true) :
    exec (.bkptSet tag slot ctx addr) s = .next (({ s with
      bkpts := if addr = 0 then FMap.erase s.bkpts slot else FMap.set s.bkpts slot { ctx := ctx, addr := addr } }).okay tag) := by
  have hbad : ¬ (16 ≤ slot ∨ (!s.hasCtx ctx) = true) := by rw [hc]; simpa using hs
  refine command_runs ht (show exec _ s = execBkptSet tag slot ctx addr s from rfl) ?_
  rw [if_neg hbad]
  split <;> rfl

theorem watchSet_okay {ctx slot e acc : Nat} {addr : DWord} (hs : slot < 8) (hc : s.hasCtx ctx = true) (h1 : 1 ≤ acc) (h3 : acc ≤ 3)
    (h2 : 2 ≤ e) (h16 : e ≤ 16) :
    exec (.watchSet tag slot ctx addr (2 ^ e) acc) s = .next (({ s with watches := FMap.set s.watches slot {
      ctx := ctx, addr := BitVec.ofNat 64 (addr.toNat / 2 ^ e * 2 ^ e), len := 2 ^ e, access := acc } }).okay tag) := by
  have hbad : ¬ (8 ≤ slot ∨ (!s.hasCtx ctx) = true ∨ 3 < acc) := by rw [hc]; simp; omega
  have hlo : 4 ≤ 2 ^ e := Nat.pow_le_pow_right (n := 2) (by decide) h2
  have hhi : 2 ^ e ≤ 65536 := Nat.pow_le_pow_right (n := 2) (j := 16) (by decide) h16
  have hlen : (isPow2 (2 ^ e) && decide (4 ≤ 2 ^ e) && decide (2 ^ e ≤ 65536)) = true := by
    rw [isPow2_pow, decide_eq_true hlo, decide_eq_true hhi]; rfl
  refine command_runs ht (show exec _ s = execWatchSet tag slot ctx addr (2 ^ e) acc s from rfl) ?_
  rw [if_neg hbad, if_neg (Nat.ne_of_gt h1), if_pos hlen]

theorem traceCfg_okay {base e mode k : Nat} {mask : Word} (hb : base % 4096 = 0) (hend : base + 32 * 2 ^ e ≤ 2 ^ 37) (h8 : 8 ≤ e)
    (h24 : e ≤ 24) (hmode : mode ≤ 1) (hk : k = 0 ∨ (10 ≤ k ∧ k ≤ 24)) (hd : s.trace.dropped = 0) :
    exec (.traceCfg tag base (2 ^ e) mode mask k) s =
      .next (({ s with trace := { base := base, count := 2 ^ e, mode := mode, mask := mask, k := k } }).okay tag) := by
  have hlo : 256 ≤ 2 ^ e := Nat.pow_le_pow_right (n := 2) (by decide) h8
  have hhi : 2 ^ e ≤ 2 ^ 24 := Nat.pow_le_pow_right (by decide) h24
  have hbad : ¬ (base % 4096 ≠ 0 ∨ 2 ^ 37 < base + 32 * 2 ^ e ∨ isPow2 (2 ^ e) = false ∨ 2 ^ e < 256 ∨ 2 ^ 24 < 2 ^ e ∨ 1 < mode ∨
      ¬(k = 0 ∨ (10 ≤ k ∧ k ≤ 24))) := by
    rw [isPow2_pow]
    simp only [Bool.true_eq_false, false_or]
    omega
  refine command_runs ht (show exec _ s = execTraceCfg tag base (2 ^ e) mode mask k s from rfl) ?_
  rw [if_neg hbad]
  exact congrArg (fun u : State => u.okay tag) (if_pos hd)

/-! ### Reading and writing a stopped wave (R459, R460) -/

theorem dbgRead_index {w i : Nat} {addr : DWord} :
    exec (.dbgRead tag 0xFFFF w i addr) s = .next (s.respond tag 0 (leBytes 8 s.trace.windex)) := by
  have he : exec (.dbgRead tag 0xFFFF w i addr) s = execDbgRead tag 0xFFFF w i addr s := rfl
  rw [execDbgRead, if_pos rfl] at he
  exact command_runs ht he rfl

section
variable {c slot i w : Nat} (hw : s.waveAt c slot i = some w) (hd : (s.wave c w).dbg ≠ none)
include hw hd

omit ht in
theorem atStopped_resident (f : State → Nat → State) (g : State → SavedWave → List Byte → SavedRes) :
    s.atStopped tag c slot i f g = f s w := by
  have hsome : ¬ (s.wave c w).dbg.isNone = true := by rw [Option.isNone_iff_eq_none]; exact hd
  simp only [State.atStopped, hw, if_neg hsome]

/-- A command on a stopped resident wave acts on it. -/
theorem onStopped_runs {n : Instr} {t : State} {f : State → Nat → State} {g : State → SavedWave → List Byte → SavedRes}
    (he : exec n s = s.onStopped tag c slot i f g) (hf : f s w = t) : exec n s = .next t :=
  command_runs ht he ((atStopped_resident tag hw hd f g).trans hf)

theorem dbgRead_record {addr : DWord} {bs : List Byte} {r : SavedWave} (hc : c ≠ 0xFFFF)
    (hr : s.waveRecord c w (s.wave c w).asked = .ok (bs, r)) :
    let marks := (List.range (s.wave c w).acc.length).foldl (fun m i =>
      if s.tileBusy c (nth (s.wave c w).acc i 0) then m + 2 ^ i else m) 0
    exec (.dbgRead tag c slot i addr) s = .next ((s.hostWrite addr bs).1.respond tag 0
      (leBytes 4 bs.length ++ leBytes 1 marks ++ leBytes 1 (if s.outstanding c w then 1 else 0))) := by
  have hsome : ¬ (s.wave c w).dbg.isNone = true := by rw [Option.isNone_iff_eq_none]; exact hd
  refine command_runs ht ((show exec _ s = execDbgRead tag c slot i addr s from rfl).trans (if_neg hc)) ?_
  simp only [hw, if_neg hsome, hr]

theorem dbgWriteVector_okay {name n : Nat} {m : Mask} {d : VReg} {t : State} (hname : name < 2048)
    (hrot : (s.wave c w).rotate name = some n) (hmap : (s.wave c w).mapped n = true) (hpend : (s.vecOf c w n).pending = false)
    (hpoison : (s.vecOf c w n).poison = false) (hput : s.writeVec c w n (vmerge m d (s.vecOf c w n).data) = some t) :
    exec (.dbgWriteVector tag c slot i name m d) s = .next (t.okay tag) := by
  have hold : s.oldValue c w n = (s, s.vecOf c w n) := if_neg (by rw [State.vecOf] at hpend; rw [hpend]; exact Bool.false_ne_true)
  refine command_runs ht (show exec _ s = execDbgWriteVector tag c slot i name m d s from rfl)
    ((atStopped_resident tag hw hd _ _).trans ?_)
  simp only [if_pos hname, hrot, hmap, hold, hpoison, hput, Bool.not_true, Bool.false_and, Bool.false_eq_true, if_false]

theorem dbgWriteScalar_okay {name : Nat} {v : Word} (hname : name < 128) :
    exec (.dbgWriteScalar tag c slot i name v) s = .next ((s.modWave c w (fun x =>
      { (x.setScalars name [v]) with
        sPend := x.sPend &&& ~~~(BitVec.ofNat 128 (2 ^ name))
        sDrop := x.sDrop ++ (s.scalarOps c w name).map (fun i => (i, name)) })).okay tag) :=
  onStopped_runs ht tag hw hd (show exec _ s = execDbgWriteScalar tag c slot i name v s from rfl) (if_neg (Nat.not_le.2 hname))

theorem dbgWritePredicate_okay {name : Nat} {m v : Mask} (hname : name < 48) :
    exec (.dbgWritePredicate tag c slot i name m v) s = .next ((s.modWave c w (fun x => x.setPred name m v)).okay tag) :=
  onStopped_runs ht tag hw hd (show exec _ s = execDbgWritePredicate tag c slot i name m v s from rfl) (if_neg (Nat.not_le.2 hname))

theorem dbgWriteMailbox_okay {name : Nat} {v : Word} (hname : name < 8) :
    exec (.dbgWriteMailbox tag c slot i name v) s = .next (((s.modWave c w (fun x => x.setBox name v)).settleBoxes c w).okay tag) :=
  onStopped_runs ht tag hw hd (show exec _ s = execDbgWriteMailbox tag c slot i name v s from rfl) (if_neg (Nat.not_le.2 hname))

/-- The handler threads of a write of resume addresses go on at their own (log entry 43). -/
def Wave.rehandled (x : Wave) (m : Mask) : Mask := if srH x.sr then m &&& x.handler else 0

theorem dbgWriteResume_plain {m : Mask} {pcs : List DWord} (hh : (s.wave c w).rehandled m = 0) :
    exec (.dbgWriteResume tag c slot i m pcs) s = .next ((s.modWave c w (fun x => { x with
      pcs := (List.range 32).map (fun l => nth x.pcs l 0)
      resume := (List.range 32).map (fun l => if m.getLsbD l then nth pcs l 0 else nth x.resume l 0)
      noTrip := x.noTrip &&& ~~~m })).okay tag) := by
  refine onStopped_runs ht tag hw hd (show exec _ s = execDbgWriteResume tag c slot i m pcs s from rfl)
    (congrArg (fun u : State => u.okay tag) (modWave_congr ?_))
  have hnone : ∀ l, (0 : Mask).getLsbD l = false := fun l => BitVec.getLsbD_zero
  have hall : m &&& ~~~(0 : Mask) = m := (congrArg (m &&& ·) BitVec.not_zero).trans BitVec.and_allOnes
  rw [Wave.rehandled] at hh
  simp only [hh, hnone, hall, Bool.false_eq_true, if_false, if_true]

theorem dbgWriteResume_handler {m : Mask} {pcs : List DWord} (hH : srH (s.wave c w).sr = true)
    (hm : m &&& (s.wave c w).handler ≠ 0) :
    exec (.dbgWriteResume tag c slot i m pcs) s = .next ((s.modWave c w (fun x => Wave.splitBundles { x with
      pcs := (List.range 32).map (fun l => if (m &&& x.handler).getLsbD l then nth pcs l 0 else nth x.pcs l 0)
      resume := (List.range 32).map (fun l => if (m &&& ~~~(m &&& x.handler)).getLsbD l then nth pcs l 0 else nth x.resume l 0)
      noTrip := x.noTrip &&& ~~~m })).okay tag) := by
  refine onStopped_runs ht tag hw hd (show exec _ s = execDbgWriteResume tag c slot i m pcs s from rfl)
    (congrArg (fun u : State => u.okay tag) (modWave_congr ?_))
  simp only [hH, if_true, if_neg hm]

theorem dbgWriteTile_okay {name : Nat} {d : List Byte} (hname : name < (s.wave c w).acc.length) (hlen : d.length = 20544)
    (hbusy : s.tileBusy c (nth (s.wave c w).acc name 0) = false) :
    exec (.dbgWriteTile tag c slot i name d) s = .next ((s.modCore c (fun k => k.changeTile (nth (s.wave c w).acc name 0) (fun t =>
      { t with elems := tileOfImage d, poison := [] }))).okay tag) := by
  have hbad : ¬ ((s.wave c w).acc.length ≤ name ∨ d.length ≠ 20544) := by omega
  refine onStopped_runs ht tag hw hd (show exec _ s = execDbgWriteTile tag c slot i name d s from rfl) ?_
  simp only [if_neg hbad, hbusy, Bool.false_eq_true, if_false]

end

/-! ### Quiet stops and replay (R467, R468) -/

section
variable {ctx l : Nat} {h : DWord} (hc : s.hasCtx ctx = true) (hl : s.launchAt ctx h = some l)
include hc hl

/-- A command on a phased launch of a context acts on it. -/
theorem onPhased_runs {n : Instr} {t : State} {f : State → Nat → State} (he : exec n s = s.onPhased tag ctx h f) (hf : f s l = t) :
    exec n s = .next t := by
  refine command_runs ht he ?_
  simp only [hc, hl, Bool.not_true, Bool.false_eq_true, if_false, hf]

/-- A replay restores the saved teams with the first of them. -/
def State.restoreFirst (s : State) : List (Nat × Team) → State
  | e :: _ => (s.restoreGroup e.1).getD s
  | [] => s

theorem quietReplay_okay {t : State} {bs : List Byte} {k : Checkpoint} (hk : FMap.get s.checks l = some k)
    (hs : (s.launch l).stopped = true) (hteams : ∀ e ∈ k.teams, (FMap.get s.teams e.1).isSome = true)
    (hr : s.vaRead .device ctx checkpointVa 64 = (t, .ok bs)) :
    exec (.quietReplay tag ctx h) s =
      .next (((t.rewind l k (BitVec.ofNat 32 (fieldAt bs 8 4))).restoreFirst k.teams).okay tag) := by
  have hended : k.teams.filter (fun e => (FMap.get s.teams e.1).isNone) = [] :=
    List.filter_eq_nil_iff.2 fun e he => by
      rw [Option.isNone_iff_eq_none]
      exact Option.isSome_iff_ne_none.1 (hteams e he)
  refine onPhased_runs ht tag hc hl (show exec _ s = execQuietReplay tag ctx h s from rfl) ?_
  simp only [hk, hs, hended, List.all_nil, hr, Bool.not_true, Bool.false_eq_true, if_false]
  rfl

end
end

/-- Settles O52: with the machine up and idle a command runs at once, and each one, its arguments accepted, is its stated effect. -/
theorem debugCommandsComplete : Obligations.DebugCommandsComplete := by
  intro s tag ht
  refine ⟨fun ctx p hc hp hr => dbgArm_okay ht tag hc hp hr, fun ctx hc hr => dbgDisarm_okay ht tag hc hr,
    fun ctx c slot i w hc hw hm => ⟨fun hd ha => dbgRunStop_okay ht tag hc hw hm hd ha, fun hd => dbgRun_stopped ht tag hc hw hm hd⟩,
    fun ctx slot addr hs hc => bkptSet_okay ht tag hs hc,
    fun ctx slot addr e acc hs hc h1 h3 h2 h16 => watchSet_okay ht tag hs hc h1 h3 h2 h16,
    fun base e mode mask k hb hend h8 h24 hmode hk hd => traceCfg_okay ht tag hb hend h8 h24 hmode hk hd,
    fun w i addr => dbgRead_index ht tag, ?stopped, ?quiet⟩
  case stopped =>
    intro c slot i w hw hd x
    refine ⟨fun addr bs r hc hr => dbgRead_record ht tag hw hd hc hr,
      fun name n m d t hname hrot hmap hpend hpoison hput => dbgWriteVector_okay ht tag hw hd hname hrot hmap hpend hpoison hput,
      fun name v hname => dbgWriteScalar_okay ht tag hw hd hname, fun name m v hname => dbgWritePredicate_okay ht tag hw hd hname,
      fun name v hname => dbgWriteMailbox_okay ht tag hw hd hname, ?sr,
      fun m pcs h => dbgWriteResume_plain ht tag hw hd ?plain, fun m pcs hH hm => dbgWriteResume_handler ht tag hw hd hH hm,
      fun name d hname hlen hbusy => dbgWriteTile_okay ht tag hw hd hname hlen hbusy⟩
    case sr =>
      exact fun v => onStopped_runs ht tag hw hd (show exec _ s = execDbgWriteSr tag c slot i v s from rfl) rfl
    case plain =>
      rw [Wave.rehandled]
      split
      · next hH => exact h.resolve_left (by rw [hH]; exact Bool.noConfusion)
      · rfl
  case quiet =>
    exact fun ctx h l hc hl => ⟨onPhased_runs ht tag hc hl (show exec _ s = execQuietStop tag ctx h s from rfl) rfl,
      onPhased_runs ht tag hc hl (show exec _ s = execQuietCheckpoint tag ctx h s from rfl) rfl,
      onPhased_runs ht tag hc hl (show exec _ s = execQuietCancel tag ctx h s from rfl) rfl,
      fun t bs k hk hs hteams hr => quietReplay_okay ht tag hc hl hk hs hteams hr⟩

end Sys2Proof.Machine
end

section
/-! PROOF. Host queue commands and management commands complete (R18, R345, R407, R413-R429, R470-R476, R496). -/
namespace Sys2Proof.Machine

/-! ### Host queues and registers (R345, R415, R416) -/

section
variable {s : State} {ctx : Nat} {x : Ctx} {bs : List Byte}

theorem doorbell_rings (tail : Nat) (hx : FMap.get s.ctxs ctx = some x) :
    exec (.doorbell ctx tail) s = .next { s with ctxs := FMap.set s.ctxs ctx { x with tail := tail % 256 } } := by
  show execDoorbell ctx tail s = _
  simp only [execDoorbell, hx]

/-- The machine with the command at the head of a queue taken. -/
def State.headTaken (s : State) (ctx : Nat) (x : Ctx) : State :=
  { s with ctxs := FMap.set s.ctxs ctx { x with head := (x.head + 1) % 256 } }

theorem nextCommand_head (hx : FMap.get s.ctxs ctx = some x) (hne : x.head ≠ x.tail) (hr : s.restarting = false)
    (hm : s.missWait (x.ring.toNat + 32 * x.head) 32 = false) (hb : s.homeRead (x.ring.toNat + 32 * x.head) 32 = some bs) :
    s.nextCommand ctx = some (bs, s.headTaken ctx x) := by
  have hwait : ¬ (x.head = x.tail ∨ s.restarting = true ∨ s.missWait (x.ring.toNat + 32 * x.head) 32 = true) := by
    rw [hr, hm]; simpa using hne
  simp only [State.nextCommand, hx, if_neg hwait, hb, Option.map_some]
  rfl

/-- The command at the head goes by its code. -/
theorem hostCommands_take {t : State} (h : s.nextCommand ctx = some (bs, t)) :
    (fieldAt bs 0 1 = 0 → exec (.hostNop ctx) s = .next t) ∧
    (fieldAt bs 0 1 = 1 →
      exec (.hostLaunch ctx) s = .next (t.takeUp ctx (BitVec.ofNat 64 (fieldAt bs 8 8)) (commandOrigin ctx bs) none [] 0)) ∧
    (2 ≤ fieldAt bs 0 1 → exec (.hostCommandInvalid ctx) s = .next (t.complete (commandOrigin ctx bs) 4 0 0 0)) := by
  refine ⟨fun hc => ?_, fun hc => ?_, fun hc => ?_⟩
  · show execHostNop ctx s = _
    simp only [execHostNop, h, if_pos hc]
  · show execHostLaunch ctx s = _
    simp only [execHostLaunch, h, if_pos hc]
  · show execHostCommandInvalid ctx s = _
    simp only [execHostCommandInvalid, h, if_pos hc]

end

/-! ### Answers to held faults (R414, R415) -/

/-- A wave whose fault `fid` is to be replayed goes on, the threads that make the access again in a bundle of their own. -/
def Wave.replayed (x : Wave) (fid : Nat) : Wave :=
  let again := match x.replayHeld.find? (fun e => e.1 == fid) with | some e => e.2.again | none => 0
  { (x.unheld fid) with bundles := regroup x.bundles (again &&& x.live) }

section
variable {s : State} {fid : Word} {h : HeldFault} {t : Trap}
  (hf : s.heldFaults.find? (fun g => g.fid == fid.toNat) = some h) (hc : h.client ≠ 1)
include hf hc

theorem faultReplyReplay_frees :
    exec (.faultReplyReplay fid) s = .next ((s.unheld h.fid).modWave h.core h.who (fun x => x.replayed h.fid)) := by
  show execFaultReplyReplay fid s = _
  simp only [execFaultReplyReplay, hf, if_neg hc]
  rfl

/-- A rejected one delivers its trap. -/
theorem faultReplyReject_delivers (hr : (s.wave h.core h.who).replayHeld.find? (fun e => e.1 == h.fid) = some (h.fid, t))
    (hw : h.who < 1000000) : exec (.faultReplyReject fid) s =
      .next (((s.unheld h.fid).modWave h.core h.who (fun x => x.unheld h.fid)).deliver h.core h.who { t with post := none }) := by
  show execFaultReplyReject fid s = _
  simp only [execFaultReplyReject, hf, if_neg hc, if_neg (Nat.not_le.2 hw), hr]

end

section
variable {s : State} (ht : TakesCommand s) (tag : Word)
include ht

/-! ### Contexts (R407, R413, R422) -/

theorem ctxSet_okay {ctx root : Nat} {replay : Bool} {ring : DWord} (hctx : ctx < 64) (hnone : FMap.get s.ctxs ctx = none)
    (ha : root % 65536 = 0) (hend : root + 65536 ≤ Config.usableBytes) :
    exec (.ctxSet tag ctx root replay ring) s = .next (({ s with
      ctxs := FMap.set s.ctxs ctx { root := BitVec.ofNat 64 root, replay := replay, ring := ring } }).okay tag) := by
  have hnew : s.hasCtx ctx = false := by rw [State.hasCtx, hnone]; exact Bool.and_false _
  have hroot : ¬ (root % 65536 ≠ 0 ∨ Config.usableBytes < root + 65536) := by omega
  refine command_runs ht (show exec _ s = execCtxSet tag ctx root replay ring s from rfl) ?_
  simp only [if_neg (Nat.not_le.2 hctx), hnew, if_neg hroot, Bool.false_eq_true, if_false]

theorem ctxClear_okay {ctx : Nat} (hc : s.hasCtx ctx = true) : exec (.ctxClear tag ctx) s = .next ((s.clearCtx ctx).okay tag) :=
  command_runs ht (show exec _ s = execCtxClear tag ctx s from rfl) (if_pos hc)

theorem invalidate_starts {ctx n : Nat} {va : DWord} (hc : s.hasCtx ctx = true) : exec (.invalidate tag ctx va n) s =
    .next ({ (s.dropShared (fun t => t.inRange ctx va.toNat n)) with
      task := some (.invalidate ctx va.toNat n tag ((List.range Config.cores).filter (fun c =>
        (s.core c).service == CoreState.inService || (s.core c).service == CoreState.draining))) }).invalidated := by
  refine command_runs ht (show exec _ s = execInvalidate tag ctx va n s from rfl) ?_
  simp only [hc, Bool.not_true, Bool.false_eq_true, if_false]

theorem pairSet_okay {ctx : Nat} {p : Option Nat} (hc : s.hasCtx ctx = true) (hp : ∀ n, p = some n → n < 64) :
    exec (.pairSet tag ctx p) s =
      .next (({ s with ctxs := FMap.mod s.ctxs ctx {} (fun x => { x with pair := p }) }).tellPairing.okay tag) := by
  have hbad : ¬ ((!s.hasCtx ctx) = true ∨ (p.any (fun n => decide (64 ≤ n))) = true) := by
    rw [hc]
    cases p with
    | none => simp
    | some n => simpa using hp n rfl
  exact command_runs ht (show exec _ s = execPairSet tag ctx p s from rfl) (if_neg hbad)

/-! ### Stage queues and windows (R347, R418) -/

theorem sqConfig_okay {q : Nat} {d : List Byte} (hq : q < 64) (hd : descOk d = true) (hc : s.hasCtx (StageQ.ofBytes d).ctx = true)
    (hb : (s.sq q).bound = none) (hrun : (s.sq q).running = 0)
    (hin : (StageQ.ofBytes d).policy = 0 → ∀ e ∈ s.ingress, e.2.queue ≠ some q)
    (hfit : alarmsFit (FMap.set s.queues q (StageQ.ofBytes d)) = true) :
    exec (.sqConfig tag q d) s = .next (({ (s.retryWaiters q) with
      queues := FMap.set (s.retryWaiters q).queues q (StageQ.ofBytes d) }).okay tag) := by
  have hstall : ((StageQ.ofBytes d).policy == 0 && s.ingress.any (fun (e : Nat × Ingress) => e.2.queue == some q)) = false := by
    rw [Bool.and_eq_false_imp, beq_iff_eq]
    exact fun hp => List.any_eq_false.2 fun e he => by rw [beq_iff_eq]; exact hin hp e he
  refine command_runs ht (show exec _ s = execSqConfig tag q d s from rfl) ?_
  simp only [if_neg (Nat.not_le.2 hq), hd, hc, hb, hrun, hstall, hfit, Bool.not_true, Bool.false_eq_true, Option.isSome_none, ne_eq,
    not_true_eq_false, or_self, if_false]

theorem ingressMap_okay {w q : Nat} {y : StageQ} (hw : w < 64) (hq : q < 64) (hy : FMap.get s.queues q = some y) (hp : y.policy ≠ 0)
    (hc : s.hasCtx y.ctx = true) : exec (.ingressMap tag w (some q)) s = .next (({ s with
      ingress := FMap.set s.ingress w { queue := some q, staging := List.replicate 16 (zeros 256) } }).okay tag) := by
  refine command_runs ht (show exec _ s = execIngressMap tag w (some q) s from rfl) ?_
  simp only [if_neg (Nat.not_le.2 hw), if_neg (Nat.not_le.2 hq), hy, hp, hc, Bool.not_true, Bool.false_eq_true, or_self, if_false]

/-! ### Sealed regions and attestation (R424, R426, R427, R429) -/

theorem seal_starts {ctx n : Nat} {base tree : DWord} (hc : s.hasCtx ctx = true) (hn : n ≠ 0) (hmax : n ≤ 2 ^ 21)
    (ha : base.toNat % 65536 = 0) (hend : base.toNat + 65536 * n ≤ 2 ^ 55) (hlen : s.sealed.length < 16)
    (hapart : ∀ e ∈ s.sealed, e.2.ctx ≠ ctx ∨ base.toNat + 65536 * n ≤ e.2.base.toNat ∨
      e.2.base.toNat + 65536 * e.2.pages ≤ base.toNat) (hs : s.sealable ctx base n = true) :
    exec (.seal tag ctx base n tree) s = .next { s with task := some (.seal ctx base n tree tag) } := by
  have hbad : ¬ ((!s.hasCtx ctx) = true ∨ n = 0 ∨ 2 ^ 21 < n ∨ base.toNat % 65536 ≠ 0 ∨ 2 ^ 55 < base.toNat + 65536 * n) := by
    rw [hc, Bool.not_true, Bool.false_eq_true, false_or]
    omega
  have hover : s.sealed.any (fun (e : Nat × Sealed) => e.2.ctx == ctx && decide (e.2.base.toNat < base.toNat + 65536 * n) &&
      decide (base.toNat < e.2.base.toNat + 65536 * e.2.pages)) = false := by
    refine List.any_eq_false.2 fun e he => ?_
    simp only [Bool.and_eq_true, beq_iff_eq, decide_eq_true_eq]
    have := hapart e he
    omega
  refine command_runs ht (show exec _ s = execSeal tag ctx base n tree s from rfl) ?_
  simp only [if_neg hbad, hover, hs, Nat.not_le.2 hlen, Bool.not_true, Bool.false_eq_true, or_self, if_false]

theorem unseal_okay {k : Nat} {r : Sealed} (hr : FMap.get s.sealed k = some r) :
    exec (.unseal tag k) s = .next ((s.unsealRegion k r).okay tag) := by
  refine command_runs ht (show exec _ s = execUnseal tag k s from rfl) ?_
  simp only [hr]

/-! ### Fault ring and node cache (R18, R415) -/

theorem faultRing_okay {addr : DWord} {e : Nat} (h6 : 6 ≤ e) (h16 : e ≤ 16) : exec (.faultRing tag addr (2 ^ e)) s =
    .next (({ s with faultBase := addr, faultCount := 2 ^ e, fhead := 0, ftail := 0 }).okay tag) := by
  have hlo : 64 ≤ 2 ^ e := Nat.pow_le_pow_right (n := 2) (by decide) h6
  have hhi : 2 ^ e ≤ 65536 := Nat.pow_le_pow_right (n := 2) (j := 16) (by decide) h16
  have hlen : (isPow2 (2 ^ e) && decide (64 ≤ 2 ^ e) && decide (2 ^ e ≤ 65536)) = true := by
    rw [isPow2_pow, decide_eq_true hlo, decide_eq_true hhi]; rfl
  exact command_runs ht (show exec _ s = execFaultRing tag addr (2 ^ e) s from rfl) (if_pos hlen)

theorem nodeCache_okay {mib : Nat} (hm : mib ≤ 32) (hl : s.launches = []) :
    let t := { s with capMem := (s.capMem &&& ~~~((0xFF : DWord) <<< 48)) ||| (BitVec.ofNat 64 mib <<< 48) }
    exec (.nodeCache tag mib) s = .next (((List.range 32).foldl (fun (u : State) h => (u.l2Trim h u.l2Cap).nodeTrim h) t).okay tag) := by
  refine command_runs ht (show exec _ s = execNodeCache tag mib s from rfl) ?_
  simp only [hl, List.isEmpty_nil, Bool.not_true, Bool.false_eq_true, if_false, if_neg (Nat.not_lt.2 hm)]

theorem nodeCache_refused {mib : Nat} (hl : s.launches ≠ []) : exec (.nodeCache tag mib) s = .next (s.refuse tag) :=
  command_runs ht (show exec _ s = execNodeCache tag mib s from rfl)
    (if_pos (by rw [Bool.not_eq_true', List.isEmpty_eq_false_iff]; exact hl))

/-! ### Firmware (R470, R471) -/

theorem fwWrite_okay {addr : DWord} {n : Nat} (hn : n ≤ 2 ^ 24 + 512) (hr : s.running = 0) : exec (.fwWrite tag 1 addr n) s =
    .next (({ s with fwB := s.seen (hostKey addr.toNat) (Memory.readBytes s.mem (hostKey addr.toNat) n) }).okay tag) := by
  have hbad : ¬ (2 ≤ 1 ∨ 2 ^ 24 + 512 < n) := by omega
  have hrun : ¬ (s.bootStep ≠ 2 ∧ 1 = s.running) := by omega
  refine command_runs ht (show exec _ s = execFwWrite tag 1 addr n s from rfl) ?_
  rw [if_neg hbad, if_neg hrun]
  rfl

theorem fwSwitch_starts (hv : imageValid (s.slotImage (1 - s.running)) = true) :
    exec (.fwSwitch tag) s = .next { s with task := some (.restart tag), capLinkHeld := some s.capLinkNow } :=
  command_runs ht (show exec _ s = execFwSwitch tag s from rfl) (if_pos hv)

/-! ### Cores (R472, R473) -/

theorem corePark_completes {c : Nat} (hc : c < Config.cores) (ho : (s.core c).service.out = false) :
    exec (.coreParkDrain tag c) s =
      .next ({ (s.modCore c (fun k => { k with service := .draining })) with task := some (.park c tag) }).settlePark ∧
    exec (.coreParkKill tag c) s =
      .next ((((s.modCore c (fun k => { k with service := .draining })).killCore c .none false).parkCore c).okay tag) := by
  constructor
  · refine command_runs ht (show exec _ s = execCoreParkDrain tag c s from rfl) ?_
    simp only [if_neg (Nat.not_le.2 hc), ho, Bool.false_eq_true, if_false]
  · refine command_runs ht (show exec _ s = execCoreParkKill tag c s from rfl) ?_
    simp only [if_neg (Nat.not_le.2 hc), ho, Bool.false_eq_true, if_false]

theorem coreReturn_completes {c : Nat} (hc : c < Config.cores) (hp : (s.core c).service = .parked) :
    ((s.core c).recal = false → exec (.coreReturn tag c) s =
      .next (((s.modCore c (fun k => { k with service := .inService })).recount 1).okay tag)) ∧
    ((s.core c).recal = true → exec (.coreReturn tag c) s = .next { s with task := some (.giveBack c tag) }) := by
  have he : exec (.coreReturn tag c) s = execCoreReturn tag c s := rfl
  rw [execCoreReturn] at he
  constructor <;> intro hr <;> refine command_runs ht he ?_
  · simp only [if_neg (Nat.not_le.2 hc), hp, hr, ne_eq, not_true_eq_false, Bool.false_eq_true, if_false]
  · simp only [if_neg (Nat.not_le.2 hc), hp, hr, ne_eq, not_true_eq_false, if_true, if_false]

/-! ### Channels and power (R470, R474, R476) -/

theorem chRetrain_starts {k : Nat} (hk : k < 16) : exec (.chRetrain tag k) s = .next {
    ((s.l2.filter (fun e => homeSlice e.1 / 2 == k)).foldl (fun (u : State) e => u.l2Clean e.1) s) with
    task := some (.retrain k tag) } := by
  have he : exec (.chRetrain tag k) s = execChRetrain tag k s := rfl
  have ⟨_, _, _, hidle⟩ := ht
  simp only [execChRetrain, hidle] at he
  refine command_runs ht he ?_
  simp only [if_neg (Nat.not_le.2 hk), List.foldl_map]

end

/-- Settles O51: the host's registers and queues as they stand, and each command, its arguments accepted, on a machine that takes
it. -/
theorem hostAndManagementCommandsComplete : Obligations.HostAndManagementCommandsComplete := by
  refine ⟨fun s ctx tail x hx => doorbell_rings tail hx,
    fun s ctx x bs hx hne hr hm hb => hostCommands_take (nextCommand_head hx hne hr hm hb), fun s v => rfl,
    fun s off bs => ⟨_, rfl, fun i hi => nth_range_map _ _ hi⟩,
    fun s fid h t hf hc hr => ⟨faultReplyReplay_frees hf hc, fun hw => faultReplyReject_delivers hf hc hr hw⟩, ?commands⟩
  intro s tag ht
  refine ⟨fun ctx root replay ring hctx hnone ha hend => ctxSet_okay ht tag hctx hnone ha hend,
    fun ctx hc => ctxClear_okay ht tag hc, fun ctx va n hc => invalidate_starts ht tag hc,
    fun q d hq hd hc hb hrun hin hfit => sqConfig_okay ht tag hq hd hc hb hrun hin hfit,
    fun w q y hw hq hy hp hc => ingressMap_okay ht tag hw hq hy hp hc, fun ctx p hc hp => pairSet_okay ht tag hc hp,
    fun ctx base n tree hc hn hmax ha hend hlen hapart hs => seal_starts ht tag hc hn hmax ha hend hlen hapart hs,
    fun k r hr => unseal_okay ht tag hr,
    fun nonce addr => command_runs ht (show exec _ s = execAttest tag nonce addr s from rfl) rfl,
    fun addr e h6 h16 => faultRing_okay ht tag h6 h16, fun mib hm hl => nodeCache_okay ht tag hm hl,
    fun mib hl => nodeCache_refused ht tag hl,
    fun addr n => command_runs ht (show exec _ s = execGetCert tag addr n s from rfl) rfl,
    fun addr n hn hr => fwWrite_okay ht tag hn hr, fun hv => fwSwitch_starts ht tag hv,
    fun c hc ho => corePark_completes ht tag hc ho, fun c hc hp => coreReturn_completes ht tag hc hp,
    fun k hk => chRetrain_starts ht tag hk,
    fun w h300 h600 => command_runs ht (show exec _ s = execPowerLimit tag w s from rfl) (if_pos ⟨h300, h600⟩),
    fun e h20 h32 => command_runs ht (show exec _ s = execQuietWindow tag e s from rfl) (if_pos ⟨h20, h32⟩),
    fun addr => command_runs ht (show exec _ s = execStatus tag addr s from rfl) rfl,
    fun op => command_runs ht (show exec _ s = execCmdUnknownOpcode tag op s from rfl) rfl⟩

end Sys2Proof.Machine
end

section
/-! PROOF. Events of waiting waves, deposits, slices and the dispatcher complete (R326-R352, R392-R394, R401-R413, R436-R468). -/
namespace Sys2Proof.Machine

/-! ### Deposits and statuses (R393, R394) -/

section
variable {s : State} {id : Nat} {d : Deposit}

theorem depositArrival_arrives (hf : s.deposits.find? (·.id == id) = some d) (hh : d.held = false) (hr : d.refused = false)
    (hs : d.status = none) (ht : s.inTurn d = true) : exec (.depositArrival id) s = .next (s.depositArrives d) := by
  show execDepositArrival id s = _
  simp only [execDepositArrival, hf, hh, hr, hs, ht, Option.isSome_none, Bool.not_true, Bool.or_self, Bool.false_eq_true, if_false]

theorem depositRetry_arrives (hf : s.deposits.find? (·.id == id) = some d) (hr : d.refused = true) (hc : d.retryAt ≤ s.clkOf d.srcCore)
    (ht : s.inTurn d = true) : exec (.depositRetry id) s = .next (s.depositArrives d) := by
  show execDepositRetry id s = _
  simp only [execDepositRetry, hf, hr, decide_eq_true hc, ht, Bool.and_self, if_true]

/-- A deposit for an empty mailbox of a resident wave enters it when none is held for it. -/
theorem depositArrives_enters {w : Nat} (hr : s.receiver d.ctx d.target = .resident w) (hb : s.boxFull d (.resident w) = some false)
    (hh : s.heldBefore d = false) : s.depositArrives d = s.enterBox (sendCore d.target) w (sendBox d.target) d := by
  simp only [State.depositArrives, hr, hb, hh, Option.map_some, Bool.or_self, Bool.false_eq_true, if_false]

/-- A deposit that has to be held at a core where four are held is refused. -/
theorem depositArrives_refused {w : Nat} {b : Bool} (hr : s.receiver d.ctx d.target = .resident w)
    (hb : s.boxFull d (.resident w) = some b) (hh : b = true ∨ s.heldBefore d = true)
    (h4 : 4 ≤ (s.heldAt (sendCore d.target)).length) :
    s.depositArrives d = s.modDeposit d.id (fun d => { d with refused := true, retryAt := s.clkOf d.srcCore + 64 }) := by
  have hfull : (b || s.heldBefore d) = true := by rcases hh with h | h <;> simp [h]
  simp only [State.depositArrives, hr, hb, hfull, Option.map_some, Bool.false_eq_true, if_false, if_neg (Nat.not_lt.2 h4)]

theorem depositArrives_lost (hr : s.receiver d.ctx d.target = .none) : s.depositArrives d = s.depositStatus d.id 2 := by
  simp only [State.depositArrives, hr, State.boxFull, Bool.false_eq_true, if_false]

theorem sendStatusReturn_writes {st : Word} (hf : s.deposits.find? (·.id == id) = some d) (hs : d.status = some st)
    (hl : s.legClear (sendCore d.target) d.srcCore d.seq = true) : exec (.sendStatusReturn id) s =
      .next ((({ s with deposits := s.deposits.filter (fun e => e.id != id) }).modWave d.srcCore d.srcWave (fun x =>
        { x with waits := x.waits.map (fun (v : Wait) => { v with kind := v.kind.sendStatus id st }) })).settleSends) := by
  show execSendStatusReturn id s = _
  simp only [execSendStatusReturn, hf, hs, hl, Bool.not_true, Bool.false_eq_true, if_false]

end

/-! ### Waits with a time (R361, R392, R396, R447) -/

section
variable {s : State} {c w : Nat} {v : Wait}

theorem sleepExpiry_ends {u : Nat} (hw : (s.wave c w).waits = [v]) (hk : v.kind = .sleep u) (hu : u ≤ s.time) :
    exec (.sleepExpiry c w v.lanes) s = .next (s.endWait c w v) := by
  show execSleepExpiry c w v.lanes s = _
  simp only [execSleepExpiry, hw, List.filter_cons, List.filter_nil, hk, beq_self_eq_true, decide_eq_true hu, Bool.and_self, if_true,
    List.foldl_cons, List.foldl_nil]

theorem cqpopTimeout_serves {q n u p k : Nat} {ns : List Nat} (hw : (s.wave c w).waits = [v]) (hk : v.kind = .cqpop q n (some u) ns p k)
    (hu : u ≤ s.time) (hd : (s.wave c w).dbg = none) : exec (.cqpopTimeout c w v.lanes) s = .next (s.cqServe c w v) := by
  have hgo : u ≤ s.time ∧ (s.wave c w).dbg.isNone = true := ⟨hu, Option.isNone_iff_eq_none.2 hd⟩
  show execCqpopTimeout c w v.lanes s = _
  simp only [execCqpopTimeout, hw, List.find?_cons, hk, beq_self_eq_true, Bool.and_self, if_pos hgo]

theorem tbarTimeout_traps {l : Nat} {a : Arrival} (ha : lastArrival (s.launch l).tbar c = some a)
    (hl : a.late (FMap.get (s.launch l).tcame c) s.time = true) (hc : s.coreArrived l c WaitKind.isTbar = true)
    (hr : (s.barrierWaits l c WaitKind.isTbar).all (fun v => (s.wave c v.1).dbg.isNone) = true) :
    exec (.barrierTimeout l c) s = .next ((s.modLaunch l (fun y => { y with
      tbar := y.tbar.filter (fun b => b.core != c), tcame := FMap.erase y.tcame c,
      tlate := FMap.set y.tlate c (FMap.getD y.tgen c 0) })).timeoutWaits c (s.barrierWaits l c WaitKind.isTbar)
      (tbarMissing c a.set ((tbarCores a.set a.mask c).filter (fun d => !s.tbarHad l c d)))) := by
  show execBarrierTimeout l c s = _
  simp only [execBarrierTimeout, ha, hl, hc, hr, Bool.and_self, if_true]

theorem gbarTimeout_traps {l : Nat} {a : Arrival} (hn : lastArrival (s.launch l).tbar c = none)
    (ha : lastArrival (s.launch l).gbar c = some a) (hl : a.late (FMap.get (s.launch l).gcame c) s.time = true) (hm : a.map = none)
    (hc : s.coreArrived l c WaitKind.isGbar = true)
    (hr : (s.barrierWaits l c WaitKind.isGbar).all (fun v => (s.wave c v.1).dbg.isNone) = true) (hg : s.gbarReady l = false) :
    let missing := (s.launch l).gcores.filter (fun d => !s.gbarHad l d)
    exec (.barrierTimeout l c) s = .next ((s.modLaunch l (fun y => { y with
      gbar := y.gbar.filter (fun b => b.core != c), gcame := FMap.erase y.gcame c, glate := c :: y.glate })).timeoutWaits
      c (s.barrierWaits l c WaitKind.isGbar) (missing.length * 2 ^ 16 + missing.foldl min 255)) := by
  show execBarrierTimeout l c s = _
  simp only [execBarrierTimeout, hn, ha, hl, hm, hc, hr, hg, Bool.not_false, Bool.and_self, if_true]

theorem waitaPoll_tests {n next : Nat} {b : Bool} {r : WaitaReq} (hw : (s.wave c w).waits = [v]) (hk : v.kind = .waita r false n next b)
    (hn : next ≤ s.clkOf c) : exec (.waitaPoll c w) s = .next (s.waitaTest c w v r (fun t _ =>
      (t, .waita r false (min (2 * n) 65536) (t.clkOf c + min (2 * n) 65536) false))) := by
  show execWaitaPoll c w s = _
  simp only [execWaitaPoll, hw, List.foldl_cons, List.foldl_nil, hk, if_pos hn]

/-! ### Slices and waves (R326, R329, R342, R464) -/

theorem racqGrant_grants {t : State} {k n : Nat} {r : List Nat} {dest : Option Nat} (hq : (s.slice c k).racq = w :: r)
    (hw : (s.wave c w).waits = [v]) (hk : v.kind = .racq n dest) (hg : s.canGrant c w n = true) (hd : (s.wave c w).dbg = none)
    (ht : s.grantBlocks (v.iss s c w) v.active n dest = .ok t) :
    exec (.racqGrant c k) s = .next (State.endWaitWith c w v { s := t.modSlice c k (fun q => { q with racq := r }) }) := by
  show execRacqGrant c k s = _
  simp only [execRacqGrant, State.serveRacq, hq, hw, List.find?_cons, hk, hg, hd, ht, Option.isNone_none, Bool.and_self, if_true]

theorem priorityPromotion_rises (hu : 4096 ≤ (s.wave c w).unchosen) : exec (.priorityPromotion c w) s =
    .next (s.modWave c w (fun x => { x with unchosen := x.unchosen - 4096, prio := x.prio - 1 })) := by
  show execPriorityPromotion c w s = _
  exact congrArg _ (modWave_congr (if_neg (Nat.not_lt.2 hu)))

theorem fetchLineArrival_fills {g l : Nat}
    (h : s.imiss.any (fun m => m.1 == g && m.2.1 == l) = true ∨ (isLocal l = true ∧ l % 256 = 0)) :
    exec (.fetchLineArrival g l) s = .next (s.fillCode g l) := by
  have hgo : (isLocal l && l % 256 == 0 || s.imiss.any (fun m => m.1 == g && m.2.1 == l)) = true := by
    rw [Bool.or_eq_true, Bool.and_eq_true, beq_iff_eq]
    exact h.symm
  show execFetchLineArrival g l s = _
  simp only [execFetchLineArrival, hgo, if_true]

end

/-! ### The dispatcher (R334-R339, R350) -/

/-- The first number below `n` at which a function has a value. -/
theorem findSome?_range {α : Type} {f : Nat → Option α} {n p : Nat} {a : α} (hp : p < n) (hnone : ∀ q, q < p → f q = none)
    (ha : f p = some a) : (List.range n).findSome? f = some a := by
  obtain ⟨k, rfl⟩ : ∃ k, n = p + (k + 1) := ⟨n - p - 1, by omega⟩
  have hbefore : (List.range p).findSome? f = none := List.findSome?_eq_none_iff.2 fun q hq => hnone q (List.mem_range.1 hq)
  rw [List.range_add, List.findSome?_append, hbefore, Option.none_or, List.range_succ_eq_map, List.map_cons, Nat.add_zero,
    List.findSome?_cons, ha]

section
variable {s t : State} {l : Nat}

theorem teamPlacement_takes {p : Nat} (hp : p < 32) (hnone : ∀ q, q < p → s.dispatchAt q = none) (ht : s.dispatchAt p = some t) :
    exec .teamPlacement s = .next t := by
  show execTeamPlacement s = _
  simp only [execTeamPlacement, findSome?_range hp hnone ht, Option.getD_some]

/-- With no team saved, a priority's turn places a team of the launch at the head of its list. -/
theorem dispatchAt_places {p : Nat} {r : List Nat} (hs : ∀ e ∈ s.teams, e.2.saved = none) (hq : FMap.getD s.pending p [] = l :: r)
    (hl : s.left l ≠ 0) (ht : s.placeOne l = some t) : s.dispatchAt p = some t := by
  have hback : s.teams.filter (fun (e : Nat × Team) => e.2.saved.isSome && (s.launch e.2.launch).prio == p) = [] :=
    List.filter_eq_nil_iff.2 fun e he => by
      rw [hs e he, Option.isSome_none, Bool.false_and]
      exact Bool.false_ne_true
  simp only [State.dispatchAt, hback, List.map_nil, List.findSome?_nil, hq, if_neg hl, ht]

theorem clusterRetry_places (hh : (FMap.getD s.pending (s.launch l).prio []).head? = some l) (hr : (s.launch l).retryAt ≤ s.clocks)
    (hg : (s.launch l).grants = []) (ht : s.placeOne l = some t) : exec (.clusterRetry l) s = .next t := by
  have hgo : (FMap.getD s.pending (s.launch l).prio []).head? = some l ∧ (s.launch l).retryAt ≤ s.clocks ∧
      (s.launch l).grants.isEmpty = true := ⟨hh, hr, List.isEmpty_iff.2 hg⟩
  show execClusterRetry l s = _
  simp only [execClusterRetry, if_pos hgo, ht, Option.getD_some]

theorem reservationExpiry_cancels (hg : (s.launch l).grants ≠ []) (ht : (s.launch l).grantedAt + 2000 ≤ s.clocks) :
    exec (.reservationExpiry l) s = .next (s.cancelGrants l) := by
  show execReservationExpiry l s = _
  simp only [execReservationExpiry, List.isEmpty_eq_false_iff.2 hg, decide_eq_true ht, Bool.not_false, Bool.and_self, if_true]

/-- One team that can be restored is restored. -/
theorem restoreEach_one {n : Nat} (hc : s.canRestore n = true) : s.restoreEach s [n] = some (s.restoreTeam n) := by
  simp only [State.restoreEach, hc, Bool.not_true, Bool.false_eq_true, if_false, State.restoreTeam]
  cases s.restoring n with
  | ok u => rfl
  | error e => cases e <;> rfl

theorem teamRestore_restores {n : Nat} (hk : (s.launch (s.team n).launch).checkpoint = false)
    (hp : (s.launch (s.team n).launch).phased = false) (hc : s.canRestore n = true) :
    exec (.teamRestore n) s = .next (s.restoreTeam n) := by
  show execTeamRestore n s = _
  simp only [execTeamRestore, State.restoreGroup, hk, hp, Bool.and_false, Bool.false_eq_true, if_false, restoreEach_one hc,
    Option.getD_some]

theorem autoLaunch_takes {q p : Nat} {L : Launch} (hb : s.settleAuto.binder q = some (l, L)) (hl : s.settleAuto.left l ≠ 0)
    (hp : p ≤ L.prio) (hnone : ∀ j, j < p → s.settleAuto.dispatchAt j = none) (ht : s.settleAuto.dispatchAt p = some t) :
    exec (.autoLaunch q) s = .next t := by
  show execAutoLaunch q s = _
  simp only [execAutoLaunch, hb, if_neg hl, findSome?_range (Nat.lt_succ_of_le hp) hnone ht, Option.getD_some]

end

/-! ### Quiet teams, invalidations and quiet stops (R413, R465, R468) -/

section
variable {s : State}

theorem teamQuiet_reports {t : Nat} (hr : s.restarting = false) (hq : s.isQuiet t = true) (hw : s.reportWaits (s.team t).ctx = false) :
    let ts := (s.teams.filter (fun e => e.2.ctx == (s.team t).ctx && s.isQuiet e.1)).map (·.1)
    exec (.teamQuiet t) s = .next (s.report (s.team t).ctx
      ((ts.flatMap s.teamWaves).filterMap (fun y => s.blockedAs y.1 y.2) ++ s.lostJoins (s.team t).ctx ts)) := by
  show execTeamQuiet t s = _
  simp only [execTeamQuiet, hr, hq, hw, Bool.not_true, Bool.or_self, Bool.false_eq_true, if_false]

theorem coreInvalidateAck_acknowledges {c ctx va n : Nat} {tag : Word} {left : List Nat}
    (ht : s.task = some (.invalidate ctx va n tag left)) (hc : c ∈ left) (hd : s.drained c ctx va n = true) :
    exec (.coreInvalidateAck c) s = .next ({ (s.acknowledge c ctx va n) with
      task := some (.invalidate ctx va n tag (left.filter (fun d => d != c))) }).invalidated := by
  show execCoreInvalidateAck c s = _
  simp only [execCoreInvalidateAck, ht, List.contains_iff_mem.2 hc, hd, Bool.and_self, if_true]

theorem quietStopLimit_passes {l u c w : Nat} {a : Word} {r : List (Nat × Nat)} (hq : (s.launch l).quiet = some (a, u)) (h0 : u ≠ 0)
    (hu : u ≤ s.clocks) (hg : s.gbarReady l = true) (hs : s.isStill l = false) :
    let t := (s.gbarComplete l).modLaunch l (fun L => { L with quiet := some (a, 0) })
    (t.launchTeams l).flatMap t.teamWaves = (c, w) :: r → exec (.quietStopLimit l) s =
      .next ((t.traceWave c w 6 (leBytes 8 0 ++ leBytes 1 0 ++ leBytes 1 0xFE)).msi 3) := by
  intro t ht
  have hgo : u ≠ 0 ∧ u ≤ s.clocks ∧ s.gbarReady l = true ∧ s.isStill l = false := ⟨h0, hu, hg, hs⟩
  simp only [t] at ht
  show execQuietStopLimit l s = _
  simp only [execQuietStopLimit, hq, if_pos hgo, ht]
  rfl

theorem startNext_ofQueue {l q : Nat} {h : Option Nat} {ms fresh : List Member} {e : Option Nat × List Byte}
    {r : List (Option Nat × List Byte)} (hq : (s.launch l).entryQ = some q) (he : (FMap.getD s.queues q {}).entries = e :: r) :
    s.startNext l h ms fresh = ({ s with queues := FMap.mod s.queues q {} (fun y =>
      { y with entries := r, running := y.running + 1 }) }).startTeam l 0 ms fresh e.2 := by
  simp only [State.startNext, hq, he]

end

/-- Settles O49: each event, on its condition, takes the effect that the lemma about it states. -/
theorem waitAndLaunchEventsComplete : Obligations.WaitAndLaunchEventsComplete := by
  refine ⟨?deposits, fun s c w u v hw hk hu => sleepExpiry_ends hw hk hu,
    fun s c w q n u p k ns v hw hk hu hd => cqpopTimeout_serves hw hk hu hd,
    fun s l c a ha hl hc hr => tbarTimeout_traps ha hl hc hr,
    fun s l c a hn ha hl hm hc hr hg => gbarTimeout_traps hn ha hl hm hc hr hg,
    fun s c w n next b r v hw hk hn => waitaPoll_tests hw hk hn, fun s l => rfl,
    fun s t c k w n r dest v hq hw hk hg hd ht => racqGrant_grants hq hw hk hg hd ht, fun s c w => rfl,
    fun s c w h => congrArg _ (if_pos h), fun s c w hu _ => priorityPromotion_rises hu,
    fun s g l h => fetchLineArrival_fills h, fun s c k hk ht => congrArg _ (if_pos ⟨hk, ht⟩),
    fun s t hr hq hw => teamQuiet_reports hr hq hw, fun s t p hp hnone ht => teamPlacement_takes hp hnone ht,
    fun s t p l r hs hq hl ht => dispatchAt_places hs hq hl ht, fun s t l hh hr hg ht => clusterRetry_places hh hr hg ht,
    fun s l hg ht => reservationExpiry_cancels hg ht, fun s n hk hp hc => teamRestore_restores hk hp hc,
    fun s t q l p L hb hl hp hnone ht => autoLaunch_takes hb hl hp hnone ht,
    fun s l q h ms fresh e r hq he => startNext_ofQueue hq he,
    fun s c ctx va n tag left ht hc hd => coreInvalidateAck_acknowledges ht hc hd,
    fun s l u c w a r hq h0 hu hg hs => quietStopLimit_passes hq h0 hu hg hs⟩
  exact fun s id d hf => ⟨fun hh hr hs ht => depositArrival_arrives hf hh hr hs ht,
    fun hr hc ht => depositRetry_arrives hf hr hc ht, fun w hr hb hh => depositArrives_enters hr hb hh,
    fun w b hr hb hh h4 => depositArrives_refused hr hb hh h4, depositArrives_lost,
    fun st hs hl => sendStatusReturn_writes hf hs hl⟩

end Sys2Proof.Machine
end
